-- ==== Sys2Proof/Word.lean ====
section
/-! DEFINITION. The word types of the machine (R7, R36): bytes, 32-bit registers, 64-bit words. -/

namespace Sys2Proof

/-- One byte of memory. -/
abbrev Byte := BitVec 8

/-- One vector or uniform register (R9). -/
abbrev Word := BitVec 32

/-- One word of a trace, an address or a 64-bit register (R56). -/
abbrev DWord := BitVec 64

/-- A 10-bit register code (R10). -/
abbrev RegCode := BitVec 10

end Sys2Proof
end

