-- ==== Sys2Proof/Syntax.lean ====
section
/-! DEFINITION. The operations of the part (spec/opcode_table.json): one constructor of `Instr` for each row, the
fields of the slot-word formats (R57, R58, R60), and the arguments of the hardware, scheduler, host and fabric steps. -/

namespace Sys2Proof

/-- Operand types, in the order of their ty codes (R37, R38, R58). Code 15 is reserved and has no constructor. -/
inductive Ty where
  | b32 | i8 | i16 | i32 | i64 | n8 | n16 | n32 | n64 | f16 | bf16 | f32 | f64 | kd8 | q128
deriving DecidableEq, Repr, Inhabited

/-- Rounding modes, in the order of their rm codes (R41). -/
inductive Rm where
  | rne | rtz | rup | rdn | rna | rod
deriving DecidableEq, Repr, Inhabited

/-- Comparison conditions, in the order of their cond codes (R59). -/
inductive Cond where
  | eq | ne | lt | le | gt | ge
deriving DecidableEq, Repr, Inhabited

/-- Ordering attribute (R60). -/
inductive Ord where
  | plain | acq | rel | acqrel | sc
deriving DecidableEq, Repr, Inhabited

/-- Scope attribute (R60, R293). -/
inductive Scope where
  | core | clu | die | dev | sys
deriving DecidableEq, Repr, Inhabited

/-- Space attribute (R60); `own` is the spec's .private window. -/
inductive Space where
  | generic | global | scratch | own | hostwin
deriving DecidableEq, Repr, Inhabited

/-- Cache attribute (R60). -/
inductive Cache where
  | dflt | stream | keepl2 | nol1 | noalloc
deriving DecidableEq, Repr, Inhabited

/-- Race attribute (R60). -/
inductive RaceAttr where
  | dflt | check | exempt
deriving DecidableEq, Repr, Inhabited

/-- The fields of a P word (R57, R60). -/
structure PWord where
  ord : Ord
  scope : Scope
  space : Space
  cache : Cache
  race : RaceAttr
deriving DecidableEq, Repr, Inhabited

/-- Format A (R57). -/
structure FA where
  ty : Ty
  rm : Rm
  kp : BitVec 2
  gap : BitVec 2
  feA : Bool
  feB : Bool
  feC : Bool
  us : BitVec 2
  d : RegCode
  a : RegCode
  b : RegCode
  c : RegCode
deriving DecidableEq, Repr, Inhabited

/-- Format I (R57); the reserved bits [42:40] are zero in every value of this type. -/
structure FI where
  ty : Ty
  rm : Rm
  kp : BitVec 2
  gap : BitVec 2
  feA : Bool
  usA : Bool
  d : RegCode
  a : RegCode
  imm : BitVec 20
deriving DecidableEq, Repr, Inhabited

/-- Format G (R57). The ib bit is told by the constructor; with ib = 1, `b` is the imm10. -/
structure FG where
  ty : Ty
  cond : Cond
  feA : Bool
  feB : Bool
  usB : Bool
  a : RegCode
  b : RegCode
  alt : BitVec 24
deriving DecidableEq, Repr, Inhabited

/-- Format M (R57) with the P word of the slot before it (R61). `off` is the byte offset at full width: a stepped offset
is not truncated to 16 bits (R30). -/
structure FM where
  ty : Ty
  gap : BitVec 2
  feAddr : Bool
  feData : Bool
  cnt : BitVec 2
  d : RegCode
  base : RegCode
  index : RegCode
  off : Int
  pre : Option PWord
deriving DecidableEq, Repr, Inhabited

/-- Format X (R57); the reserved bits [43:40] are zero. `pre` is the P word before it, which only LDX takes (R61). -/
structure FX where
  ty : Ty
  fn : BitVec 4
  gap : BitVec 2
  feA : Bool
  feB : Bool
  d : RegCode
  a : RegCode
  b : RegCode
  c : RegCode
  pre : Option PWord
deriving DecidableEq, Repr, Inhabited

/-- Format E (R57). `fmt` uses the ty codes; instructions without a format have code 0, `Ty.b32` (R249). -/
structure FE where
  fmt : Ty
  fn : BitVec 4
  gap : BitVec 2
  feA : Bool
  feB : Bool
  acc : BitVec 4
  d : RegCode
  a : RegCode
  b : RegCode
  c : RegCode
deriving DecidableEq, Repr, Inhabited

/-- Format S (R57). -/
structure FS where
  csr : BitVec 12
  fn : BitVec 4
  d : RegCode
  a : RegCode
  imm : BitVec 20
deriving DecidableEq, Repr, Inhabited

/-- An issue port of a partition of a core (R148, R149). -/
structure PortId where
  core : Nat
  part : Nat
  port : Nat
deriving DecidableEq, Repr, Inhabited

/-- A race ring: the address of its control block, and the BASE and NENT that it holds (R318). -/
structure RaceRing where
  block : Nat
  base : Nat
  entries : Nat
deriving DecidableEq, Repr, Inhabited

/-- The parameters of a context (R324), the device addresses of its page table, its frames and its submission page, and the number
of its virtual function. -/
structure CtxParams where
  vf : Nat
  root : Nat
  handler : Nat
  faultArea : Nat
  evqBase : Nat
  evqEntries : Nat
  drain : Nat
  weight : Nat
  slice : Nat
  coreLimit : Nat
  hang : Nat
  tswap : Nat
  lead : Nat
  racectl : Nat
  raceRing : Option RaceRing
  shadowPages : Nat
  shadowPool : Nat
  mdef : BitVec 32
  bar2Size : Nat
  frames : List Nat
  subPage : Nat
  /-- page-table entries that system software has built: device address and entry (R283, R288) -/
  table : List (Nat × BitVec 64)
deriving DecidableEq, Repr, Inhabited

/-- What CREATE names (R324): a parameter that R324 gives a default may be left out. -/
structure CreateArgs where
  vf : Nat
  root : Nat
  faultArea : Nat
  evqBase : Nat
  evqEntries : Nat
  frames : List Nat
  subPage : Nat
  table : List (Nat × BitVec 64)
  handler : Option Nat := none
  drain : Option Nat := none
  weight : Option Nat := none
  slice : Option Nat := none
  coreLimit : Option Nat := none
  hang : Option Nat := none
  tswap : Option Nat := none
  lead : Option Nat := none
  racectl : Option Nat := none
  raceRing : Option RaceRing := none
  shadowPages : Option Nat := none
  shadowPool : Option Nat := none
  mdef : Option (BitVec 32) := none
  bar2Size : Option Nat := none
deriving DecidableEq, Repr, Inhabited

/-- The registers of a core's debug block (R209, R212). -/
inductive DebugReg where
  | bpa (n : Nat) | bpf (n : Nat)
  | wpb (n : Nat) | wpl (n : Nat) | wpv (n : Nat) | wpm (n : Nat) | wpc (n : Nat)
deriving DecidableEq, Repr, Inhabited

/-- What the DEBUG command reaches (R366, R208, R214, R216, R218). -/
inductive DebugCmd where
  | attach (profiler : Bool) | detach (profiler : Bool)
  /-- trace buffer of a core: virtual base and size in bytes (R214) -/
  | traceOn (core base size : Nat)
  | traceOff (core : Nat)
  /-- a brake trial over trace addresses lo ≤ address < hi with delay d (R218) -/
  | trial (lo hi d : Nat)
  | trialOff
  /-- reads the counters that the debug block of a core reaches (R216) -/
  | readCounters (core : Nat)
deriving DecidableEq, Repr, Inhabited

/-- The images and records that flash holds (R357, R361). Kinds of image: 0 root of trust, 1 management, 2 scheduler,
3 fabric. -/
inductive FlashItem where
  | image (kind version : Nat) (bytes : List Byte)
  | record (bytes : List Byte)
deriving DecidableEq, Repr, Inhabited

/-- One entry of a page table or frame table that the loader or system software writes: device address, entry. -/
abbrev TableEdit := Nat × BitVec 64

/-- A host AtomicOp (R370). -/
inductive HostAtomic where
  | fetchAdd | swap | cas
deriving DecidableEq, Repr, Inhabited

/-- Where a host read goes: an address of BAR2 or an offset of BAR0 of a virtual function (R372), or an offset of BAR0 of the physical function
(R367). -/
inductive HostPlace where
  | bar2 (addr : Nat)
  | bar0 (off : Nat)
  | pf (off : Nat)
deriving DecidableEq, Repr, Inhabited

/-- A request that arrives from a peer device (R381). -/
inductive PeerOp where
  | load (size : Nat)
  | store (bytes : List Byte)
  | atom (op : Nat) (ty : Ty) (cmp data : Nat)
deriving DecidableEq, Repr, Inhabited

/-- Where a group restored or placed stands: one resident slot for each member, in the order the group lists its members,
and its home core (R338, R342). -/
structure Placement where
  home : Nat
  slots : List Nat
deriving DecidableEq, Repr, Inhabited

/-- Where errors have been found that cannot be corrected (R290): lines of device memory; lines of scratch by group and offset; of the pool, the
registers that a line of register units holds, by thread and code, and lines of tile units by group and number. -/
structure FoundErrors where
  dev : List Nat
  scratch : List (Nat × Nat)
  regs : List (Nat × Nat) := []
  tiles : List (Nat × Nat) := []
deriving DecidableEq, Repr, Inhabited

/-- A global page of a context (R291). -/
structure PageName where
  ctx : Nat
  va : Nat
deriving DecidableEq, Repr, Inhabited

/-- What the memory controller has done with lines of an encrypted page: those written back, those whose tag has not matched, and whether the
page's counter block has failed its check (R291, R292). -/
structure LineActs where
  written : List Nat
  bad : List Nat
  tree : Bool
deriving DecidableEq, Repr, Inhabited

/-- The core whose debug block a write is for, and the context on whose behalf it comes (R366). -/
structure DebugTarget where
  ctx : Nat
  core : Nat
deriving DecidableEq, Repr, Inhabited

/-- Every operation and event of spec/opcode_table.json, in the order of the table. -/
inductive Instr where
  -- thread control (S)
  | nop (f : FS) | trap (f : FS) | tretRe (f : FS) | tretSkip (f : FS) | csrr (f : FS) | csrw (f : FS) | csrwImm (f : FS)
  | fill (f : FS) | void (f : FS) | waitf (f : FS) | chkerr (f : FS) | chkerrAbort (f : FS) | prog (f : FS) | yield (f : FS)
  | launch (f : FS)
  -- integer (A, I)
  | iadd (f : FA) | iaddImm (f : FI) | isub (f : FA) | imul (f : FA) | imulImm (f : FI) | imulh (f : FA) | imad (f : FA)
  | imadw (f : FA) | idiv (f : FA) | irem (f : FA) | ineg (f : FA) | iabs (f : FA) | imin (f : FA) | iminImm (f : FI)
  | imax (f : FA) | imaxImm (f : FI) | iadds (f : FA) | isubs (f : FA) | and (f : FA) | andImm (f : FI) | or (f : FA)
  | orImm (f : FI) | xor (f : FA) | xorImm (f : FI) | andn (f : FA) | lsl (f : FA) | lslImm (f : FI) | lsr (f : FA)
  | lsrImm (f : FI) | asr (f : FA) | asrImm (f : FI) | rot (f : FA) | rotImm (f : FI) | bfx (f : FA) | bfxImm (f : FI)
  | bfi (f : FA) | popc (f : FA) | clz (f : FA) | ctz (f : FA) | brev (f : FA) | icmp (f : FA) | icmpImm (f : FI)
  | sel (f : FA) | mov (f : FA) | movi (f : FI) | movh (f : FI) | lea (f : FA) | leaImm (f : FI)
  -- floating point (A, I)
  | fadd (f : FA) | fsub (f : FA) | fmul (f : FA) | fma (f : FA) | fnma (f : FA) | fmin (f : FA) | fmax (f : FA)
  | fabs (f : FA) | fneg (f : FA) | fcps (f : FA) | fcmp (f : FA) | fcls (f : FA) | fdiv (f : FA) | fsqrt (f : FA)
  | frcp (f : FA) | frsq (f : FA) | fexp (f : FA) | fexp2 (f : FA) | flog (f : FA) | flog2 (f : FA) | fsin (f : FA)
  | fcos (f : FA) | ftanh (f : FA) | fsigm (f : FA) | ferf (f : FA) | frnd (f : FA) | flgr (f : FA) | flgc (f : FI)
  | cvt (f : FA) | kdq (f : FA) | kdx (f : FA)
  -- guards (G)
  | gcmp (f : FG) | gcmpImm (f : FG) | gz (f : FG) | gnz (f : FG) | grng (f : FG) | gflg (f : FG) | gflgImm (f : FG)
  | gfull (f : FG)
  -- exact rational (A)
  | qenc (f : FA) | qdec (f : FA) | qadd (f : FA) | qsub (f : FA) | qmul (f : FA) | qdiv (f : FA) | qinv (f : FA)
  | qneg (f : FA) | qeq (f : FA)
  -- memory (M, X)
  | ld (f : FM) | st (f : FM) | pref (f : FM) | ptog (f : FM) | ldx (f : FX) | fence (f : FM) | waitv (f : FM)
  | publish (f : FM) | atomAdd (f : FM) | atomSub (f : FM) | atomMin (f : FM) | atomMax (f : FM) | atomAnd (f : FM)
  | atomOr (f : FM) | atomXor (f : FM) | atomExch (f : FM) | atomCas (f : FM) | atomFadd (f : FM) | atomFmin (f : FM)
  | atomFmax (f : FM)
  -- cross-lane and groups (X)
  | shfl (f : FX) | xred (f : FX) | scan (f : FX) | vote (f : FX) | gnew (f : FX) | join (f : FX) | leave (f : FX)
  | gbar (f : FX) | grank (f : FX) | gsize (f : FX) | gset (f : FX)
  -- cluster (E)
  | mma (f : FE) | mzero (f : FE) | mlda (f : FE) | msta (f : FE) | mdrn (f : FE) | cpygo (f : FE) | cpyw (f : FE)
  | binit (f : FE) | barv (f : FE) | bwait (f : FE) | btest (f : FE) | flinit (f : FE) | flacq (f : FE) | flrel (f : FE)
  -- steps of the partition and the core
  | bundleFormation (core part : Nat)
  | promotion (slot : Nat)
  | traceFetch (p : PortId)
  | commit (p : PortId)
  | postedLoadFill (id : Nat)
  | deferredFault (id : Nat)
  | pageWalkComplete (die ctx page : Nat)
  | priResponse (vf page : Nat) (grant : Option Bool)
  | storeBlockDrain (core part : Nat)
  | waitvTimeoutCheck (slot : Nat)
  /-- `seen`: what the re-execution, or the checker at the pipe's end, has found (R165, R166) -/
  | replayCheck (slot slotNo kind pipe : Nat) (seen : List Nat)
  | syncPacket (core : Nat)
  | pcSample (core pick : Nat)
  | hangEvent (ctx : Nat) (gid : Option Nat) (block : Nat)
  | barrierObjectHang (gid off : Nat)
  -- steps of the cluster
  | tileStep (cluster : Nat)
  | drainComplete (gid : Nat)
  | copyCommandStart (gid : Nat)
  | copyCommandComplete (gid : Nat)
  | haloStart (gid : Nat)
  | flumeSlotWrite (gid : Nat)
  | ldxTransferComplete (id : Nat)
  | mailboxSignal (die : Nat)
  | swapOut (gid : Nat)
  -- steps of the die scheduler
  /-- one group, or every saved group of a coresident run (R340), and the placement of each -/
  | groupRestore (gids : List Nat) (places : List Placement)
  | sliceBoundary (die : Nat)
  | stopRequest (die ctx : Nat) (cores : List Nat)
  | submission (ctx entry base : Nat) (edits : List TableEdit)
  | breuzTranslation (ctx graph kernel code : Nat)
  | nodeStart (run dataAddr : Nat) (shadowFrames : List Nat) (edits : List TableEdit)
  /-- one group, or every group of a coresident run (R340): the handles, and the slots and stores of all threads in TID order -/
  | threadCreate (run : Nat) (handles slots stores : List Nat)
  | nodeRunEnd (run : Nat) (edits : List TableEdit)
  | patrolScrub (found : FoundErrors)
  | reencryption (page : PageName) (acts : LineActs)
  -- management commands
  | create (p : CreateArgs)
  | destroy (ctx : Nat)
  | inval (ctx : Nat) (edits : List TableEdit) (give take : List Nat)
  | race (ctx mode : Nat) (ring : Option RaceRing) (pages : Nat)
  | peer (num : Nat) (binding : Option (Nat × Nat × Nat))
  | debug (ctx : Nat) (cmd : DebugCmd)
  | debugResume (slot : Nat)
  | debugResumeOneTimePass (slot : Nat)
  | slotStep (slot : Nat)
  | debugAbandon (slot : Nat)
  | image (item : FlashItem)
  | install (kind version : Nat) (bytes : List Byte) (accepts : Bool)
  | start (failStep reason dies : Nat)
  | log
  -- package
  | powerOnStart (failStep reason dies : Nat)
  /-- `kind`: the image that reports, as in `FlashItem` -/
  | heartbeat
  | heartbeatMiss
  | thermalTrip
  | throttle (die : Nat)
  /-- an attestation request: of a tenant through a virtual function, or of the host itself -/
  | getVersion (vf : Option Nat)
  | getCapabilities (vf : Option Nat)
  | negotiateAlgorithms (vf : Option Nat)
  | getDigests (vf : Option Nat)
  | getCertificate (vf : Option Nat)
  | challenge (vf : Option Nat) (nonce : List Byte)
  | getMeasurements (vf : Option Nat) (nonce : List Byte)
  -- host and fabric
  /-- `ide`: the TLP is carried in the selective IDE stream of the VF (R372) -/
  | hostPostedWrite (vf off : Nat) (bytes : List Byte) (ide : Bool)
  /-- a read by the host, through BAR2 or another window (log 64, DESIGN CHOICE) -/
  | bar2Read (vf : Nat) (at_ : HostPlace) (len : Nat) (ide : Bool)
  | bar2Write (vf addr : Nat) (bytes : List Byte) (ide : Bool)
  | bar2Atomic (vf addr size : Nat) (op : HostAtomic) (cmp data : Nat) (ide : Bool)
  | flitReceive (port : Nat) (bytes : List Byte)
  | nakReplay (port seq : Nat)
  | ackTimeout (port : Nat)
  | laneLoss (port : Nat)
  /-- `ctx`: the context that the peer's own binding names (R380) -/
  | peerRequest (num ctx addr : Nat) (op : PeerOp)
  | registerWrite (target : DebugTarget) (reg : DebugReg) (value : BitVec 64)
  | debugHalt (slot : Nat)
  | hingeFill (slot : Nat)
  | storePerformedAtHome (core idx : Nat)
  | roundBoundary (core : Nat)
  | powerGating (core : Nat) (on : Bool)
  | coreReset (core : Nat)
  | healthMonitorUpdate (die eol drift cerate temp : Nat)
  | tdispRequest (vf : Nat) (run : Bool)
deriving DecidableEq, Repr, Inhabited

/-- What the machine does in one step: an event of the table, or the next stage of the bundle at an issue port (its trace
fetch, the next slot issue of a lane, or its commit). -/
inductive Move where
  | event (i : Instr)
  | port (p : PortId)
deriving DecidableEq, Repr, Inhabited

end Sys2Proof
end

