-- ==== Sys2Proof/Config.lean ====
section
/-! DEFINITION. What the device fixes (R2, R4), and the values the spec leaves free. A free value is an opaque constant:
nothing in Lean can evaluate it, so a theorem about the machine holds whatever it is. -/

namespace Sys2Proof

/-- Bundle width W of the Chrodan 4800 (R4, R151). -/
def Config.W : Nat := 64

/-- Thread slots per partition, partitions per core, cores per cluster, clusters per die, dies; fabric ports, host links and their PRI requests,
bytes of flash (R2, R148, R356, R370). -/
def Config.slotsPerPart : Nat := 512
def Config.slotsPerCore : Nat := 2048
def Config.coresPerCluster : Nat := 4
def Config.coresPerDie : Nat := 32
def Config.numCores : Nat := 256
def Config.numDies : Nat := 8
def Config.fabricPorts : Nat := 16
def Config.hostLinks : Nat := 2
def Config.priPerLink : Nat := 1024
def Config.flashBytes : Nat := 67108864
def Config.numSlots : Nat := 524288

/-- Pool units, slot blocks and uniform-store entries of a core (R148, R160). -/
def Config.poolUnits : Nat := 256
def Config.blocksPerCore : Nat := 32
def Config.uniformStore : Nat := 64

/-- Capacities that bind: operand log (R25), store queue (R162), matrix queue (R227), L1 and L2 TLB and miss table (R286),
snapshot pool (R309), mailbox (R248), priority queue (R335). -/
def Config.logEntries : Nat := 256
def Config.storeQueue : Nat := 1024
def Config.matrixQueue : Nat := 32
def Config.l1Tlb : Nat := 256
def Config.l2Tlb : Nat := 4096
def Config.missTable : Nat := 2048
def Config.snapPool : Nat := 16384
def Config.mailbox : Nat := 4096
def Config.queueNodes : Nat := 256

/-- The device class and configuration id (R330). -/
def Config.devClass : Nat := 0x0048
def Config.configId : Nat := 0x00484001

/-- Device memory: 2,048 × 10^9 bytes, 256 × 10^9 of them at each die (R285, R289). -/
def Config.devBytes : Nat := 2048000000000
def Config.dieBytes : Nat := 256000000000

/-- The schedule: which agent moves next at the n-th consultation, and with which outside values (R5, R54). Log 2, DESIGN CHOICE. -/
opaque Config.schedule : Nat → Move

/-- Arithmetic-clock cycles that pass at the n-th consultation of the schedule (R5, R6). Log 3, DESIGN CHOICE. -/
opaque Config.elapsed : Nat → Nat

/-- The n-th free choice of the machine: the handle that GNEW gives (R183). Log 8, DESIGN CHOICE. -/
opaque Config.freeNat : Nat → Nat

/-- The freedom that R55 leaves to an SF instruction, by opcode, type and rounding mode. For FRCP, FRSQ, FSIN and FCOS: which of the
values that R55 allows an operand delivers. For the non-decreasing functions: the least operand, in the order of the values, that
has a given token of a result (the down or the up one, `tokenResult`) or a greater one (R54, R55). Log 7, DEDUCED. -/
opaque Config.ulpPick : Nat → Ty → Rm → Nat → Nat

/-- A kernel as its 64-byte descriptor and the sections it points to describe it (R328, R158, R75). -/
structure KernelDesc where
  part : BitVec 64
  drain : Nat
  slotsTable : List Nat
  dataOff : Nat
  dataSize : Nat
  /-- patch points: offset in the data section and bytes, in `.patch` order -/
  patches : List (Nat × Nat)
  /-- `.kdesc` words: offset in the data section and the kernel named -/
  kdescs : List (Nat × Nat)
  /-- the p and k of `.resources`, where it names them -/
  psel : Option (Nat × Nat)
  group : Nat
  coresident : Bool
  devClass : Option Nat
deriving DecidableEq, Repr, Inhabited

/-- A node record (R328). -/
structure NodeRec where
  kernel : Nat
  threads : Nat
  group : Nat
  queue : Nat
  flags : Nat
deriving DecidableEq, Repr, Inhabited

/-- A native-code entry (R328, R330): configuration id, kernel, offset of the code in the image. -/
structure CodeRec where
  config : Nat
  kernel : Nat
  off : Nat
  size : Nat
deriving DecidableEq, Repr, Inhabited

/-- The kernel descriptor of a descriptor address in the bytes of an image: R328 gives its contents and not its layout. Log 9, DESIGN CHOICE. -/
opaque Config.kernelAt : List Byte → Nat → KernelDesc

/-- The node record of the 32 bytes of a node section entry (R328). Log 9, DESIGN CHOICE. -/
opaque Config.nodeOf : List Byte → NodeRec

/-- The native-code entry of its 16 bytes (R328). Log 9, DESIGN CHOICE. -/
opaque Config.codeOf : List Byte → CodeRec

/-- Whether an access to a line of a peer meets a failure on the peer: step, peer, line (R381). Log 46, DESIGN CHOICE. -/
opaque Config.peerFails : Nat → Nat → Nat → Bool

/-- Whether an access to a line of host memory meets an error that the host reports after translation: step, virtual function, line
(R282). Log 46, DESIGN CHOICE. -/
opaque Config.hostFails : Nat → Nat → Nat → Bool

/-- The ports that the body of configuration record 2 names (R376). Log 9, DESIGN CHOICE. -/
opaque Config.portsOf : List Byte → List Nat

/-- What the partner of a fabric port offers, by step and port: whether it trains, whether it offers fewer than 8 lanes, and the flits that it has
room for (R376, R377). Log 59, DESIGN CHOICE. -/
opaque Config.portTrains : Nat → Nat → Bool
opaque Config.partnerNarrow : Nat → Nat → Bool
opaque Config.partnerCredits : Nat → Nat → Nat

/-- Whether the body of configuration record 3 puts a virtual function on link 1 (R370). Log 9, DESIGN CHOICE. -/
opaque Config.onLink1 : List Byte → Nat → Bool

/-- What the capability list leaves to the device (R367), by capability: the layout version, and how many words a record has beyond those whose
places the spec gives; and the contents of a word for which the spec gives no layout, by capability, place and what it shows. Log 85, DESIGN CHOICE. -/
opaque Config.capVersion : Nat → Nat
opaque Config.capExtra : Nat → Nat
opaque Config.capBody : Nat → Nat → List Nat → BitVec 64

/-- AES-256 of a block of four numbers (device address of the line, major counter, minor counter, block index) under a key, and the truncated
GMAC of a line (R291), uninterpreted. Log 19, DESIGN CHOICE. -/
opaque Config.aes256 : Nat → List Nat → BitVec 128
opaque Config.gmac : Nat → List Byte → List Nat → BitVec 56

/-- The digest of a counter block, or of a node of the counter tree, in the node above it or in the root (R291), uninterpreted. Log 19, DESIGN
CHOICE. -/
opaque Config.treeDigest : List Byte → BitVec 64

/-- The thermal limits that Kamnis gives where configuration record 5 is absent (R361). Log 9, DESIGN CHOICE. -/
opaque Config.thermalDefault : List Byte

/-- Whether the power cap of record 1 or the thermal limits of record 5 would be exceeded: bodies of both, step, die (R369). Log 9, DESIGN CHOICE. -/
opaque Config.overCap : List Byte → List Byte → Nat → Nat → Bool

/-- A byte of BAR0 of the physical function of which the spec gives no contents, by step and offset. Log 64, DESIGN CHOICE. -/
opaque Config.pfByte : Nat → Nat → BitVec 8

/-- The hash of a line address that spreads a peer's traffic over its live ports (R380). Log 9, DESIGN CHOICE. -/
opaque Config.portHash : Nat → Nat

/-- The payload of the flit that carries a request or an answer, 56 bytes (R377): the spec gives no layout. Log 9, DESIGN CHOICE. -/
opaque Config.flitPayload : List Byte → List Byte

/-- A context's creation parameters and attachments as measurement 6 takes them in (R365, R366). Log 19, DESIGN CHOICE. -/
opaque Config.paramBytes : CtxParams → Nat → List Byte

/-- Whether bytes carry a valid SLH-DSA-SHA2-128s signature of Kamnis (R357, R361), uninterpreted. Log 19, DESIGN CHOICE. -/
opaque Config.signed : List Byte → Bool

/-- The signature that the root of trust forms over a message (R365), uninterpreted. Log 19, DESIGN CHOICE. -/
opaque Config.sign : List Byte → List Byte

/-- The body of the SPDM responses that carry no measurement (R365: versions, capabilities, algorithms, digests, certificate),
by request code. Log 19, DESIGN CHOICE. -/
opaque Config.spdmBody : Nat → List Byte

end Sys2Proof
end

