-- ==== Sys2Proof/Machine/State.lean ====
section
/-! DEFINITION. The state of the machine: everything the spec gives the part, as plain data. -/

namespace Sys2Proof.Machine

open Sys2Proof

/-- Memory as (address, byte) pairs: addresses strictly rising, no byte equal to 0, which is what an unlisted address reads
as (log 1, DESIGN CHOICE). -/
abbrev Memory := List Host.Cell

/-- What an unlisted address of memory reads as (log 1; in scratch the spec's own zero, R69). -/
def unlistedByte : Byte := 0

/-- The byte that an access reaches, whatever window or page it used (R294). -/
inductive Place where
  /-- a byte of device memory (R289) -/
  | dev (a : Nat)
  /-- a byte of host memory: virtual function and host I/O virtual address (R282) -/
  | host (vf a : Nat)
  /-- a byte of a peer: peer device number and offset (R380) -/
  | peer (num a : Nat)
  /-- a byte of a group's scratch (R280) -/
  | scr (gid off : Nat)
deriving DecidableEq, Repr, Inhabited

/-- A membership slot that holds a membership (R14): the group and the thread's rank in it. A group is named by
gid = context × 2^20 + handle. -/
structure Membership where
  gid : Nat
  rank : Nat
deriving DecidableEq, Repr, Inhabited

/-- A release stamp or snapshot (R309). -/
structure Stamp where
  entries : List (Nat × Nat)
  degraded : Bool
deriving DecidableEq, Repr, Inhabited

/-- What a successor or a resume point is (R28, R131). -/
inductive Resume where
  | at_ (pc : Nat)
  | exit
  | halt
deriving DecidableEq, Repr, Inhabited

/-- The successor fields of a fetched trace (R28): address of the H word, T word, address of the word after N. -/
structure Succ where
  hAddr : Nat
  tword : DWord
  after : Nat
deriving DecidableEq, Repr, Inhabited

/-- How a thread came into trap handling, which decides what TRET does (R132). -/
inductive TrapKind where
  | slot | fetch | deferred (id : Nat) | soft
deriving DecidableEq, Repr, Inhabited

/-- The wait of a WAITV (R175): place, type, condition code, comparand, ordering, and what a race record needs (R317). -/
structure WaitV where
  place : Place
  va : Nat
  ty : Ty
  cond : Nat
  cmp : Nat
  acq : Bool
  scope : Scope
  race : RaceAttr
  trace : Nat
  slotNo : Nat
  pos : Nat
  since : Nat
deriving DecidableEq, Repr, Inhabited

/-- A wait that a hinge has left behind (R27). -/
inductive Wait where
  | waitv (w : WaitV)
  /-- a GBAR arrival that waits for posted loads to fill (R188) -/
  | gbarArrive (gid : Nat)
  /-- the phase wait of a GBAR whose arrival has counted -/
  | gbarPhase (gid : Nat)
deriving DecidableEq, Repr, Inhabited

/-- The holds on a thread's next trace (R27, R122, R163, R174, R309): for drains, for fills, and the merge of pending snapshots that a
FENCE.acq makes when its fills are in. -/
structure Holds where
  drain : Bool
  fill : Bool
  merge : Bool
deriving DecidableEq, Repr, Inhabited

/-- The trap state of a thread in trap handling (R198, R132). -/
structure TrapState where
  kind : TrapKind
  pc : Nat
  pos : Nat
  cnt : Option Nat
  succ : Option Succ
  resume : Resume
  /-- the holds on the next trace, the pending waits, and the EXIT or HALT behind them, that the trap has set aside (R27) -/
  holds : Holds
  waits : List Wait
  ending : Option Resume
deriving DecidableEq, Repr, Inhabited

/-- The fields of a fault record that depend on the cause (R202, R203). -/
structure FaultInfo where
  cause : Nat
  detail : Nat
  pre : Nat
  instr : Nat
  ttag : Nat
  pos : Nat
  slotNo : Nat
  deferred : Bool
  reg : Nat
  opnd : Nat
  size : Nat
  addr : Nat
  savePc : Nat
deriving DecidableEq, Repr, Inhabited

/-- A deferred fault that waits because its thread is in trap handling (R201). -/
structure HeldFault where
  id : Nat
  info : FaultInfo
deriving DecidableEq, Repr, Inhabited

/-- Where a resident thread stands (R34). A thread in trap handling is runnable or issuing and has a `trap` state. -/
inductive Status where
  | runnable
  | issuing (p : PortId)
  /-- parked on its pending wait (WAITV, GBAR) -/
  | waiting
  | waitf (d n : Nat)
  | bwait (gid off : Nat) (phase : Bool)
  | flacq (gid off : Nat)
  | gather (addr : Nat)
  | halted
  | saved
deriving DecidableEq, Repr, Inhabited

/-- A destination that a performed hinge has still to fill (R169). -/
structure HingeFill where
  code : Nat
  words : Nat
  value : Nat
deriving DecidableEq, Repr, Inhabited

/-- A resident thread (R9). Registers are listed by code, non-zero ones only; `empty` lists the registers whose full/empty bit
is clear; `fills` those of them with a fill pending. -/
structure Thread where
  r : Nat
  gen : Nat
  ctx : Nat
  run : Nat
  tid : Nat
  pc : DWord
  regs : List (Nat × Word)
  empty : List Nat
  fills : List Nat
  /-- destinations that performed hinges have still to fill, oldest first (R169) -/
  hingeFills : List HingeFill
  flg : BitVec 5
  tstat : Word
  psel : DWord
  m0 : Option Membership
  m1 : Option Membership
  m2 : Option Membership
  m3 : Option Membership
  pos : Nat
  cnt : Option Nat
  limit : Nat
  status : Status
  trap : Option TrapState
  held : List HeldFault
  wait : Option Wait
  /-- waits that a TRET has brought back and that are still to be resumed (R27) -/
  more : List Wait
  hold : Holds
  storeBase : Nat
  psize : Nat
  hz : List (Nat × Nat)
  hzlost : Bool
  relall : Bool
  pend : List Stamp
  onePass : Bool
  stepping : Bool
  /-- traces and loop positions of pipeline errors whose traces have not committed since (R207) -/
  pipes : List (Nat × Nat)
  /-- EXIT or HALT of a trace whose hinge has parked the thread: applied once its wait has ended (R22, R29) -/
  ending : Option Resume
  /-- the slot whose entry of the fault area holds its last record, once it has one (R198, R204) -/
  recSlot : Option Nat
  /-- it has been woken while it was saved: its wake record is written on the core that restores it (R214) -/
  woken : Bool
  /-- its registers that lie in poisoned lines of the pool (R290) -/
  badRegs : List Nat := []
deriving DecidableEq, Repr, Inhabited

/-- The entry of a resident slot in the tag table (R306, R14). -/
structure TagEntry where
  r : Nat
  gen : Nat
  live : Bool
  home : Nat
  hchg : Bool
  /-- the thread has made a checked access (what HCHG is counted from) -/
  touched : Bool
deriving DecidableEq, Repr, Inhabited

/-- A store to one value's bytes: pond entry, store-queue entry and store on its way to the line's home (R21, R123, R162). -/
structure Store where
  r : Nat
  gen : Nat
  ctx : Nat
  run : Nat
  slotNo : Nat
  place : Place
  va : Nat
  bytes : List Byte
  ord : Ord
  scope : Scope
  /-- it writes checked memory while the mode is not OFF; it is a checked access (R302, R122) -/
  mem : Bool
  checked : Bool
  kclk : Nat
  home : Nat
  /-- its snapshot event is a release: its own ordering, or RELALL at its commit (R308, R309) -/
  rel : Bool
  /-- the horizon of a thread that has exited before the store performs (log 51, DEDUCED) -/
  gone : Option Stamp
deriving DecidableEq, Repr, Inhabited

/-- A block of the stores of one committed trace in a partition's store queue (R162). -/
structure Block where
  core : Nat
  part : Nat
  r : Nat
  stores : List Store
deriving DecidableEq, Repr, Inhabited

/-- A store that has drained into its core and has not yet performed at its home (R312). `blk` tells its block from the others of the core. -/
structure OutStore where
  core : Nat
  blk : Nat
  st : Store
deriving DecidableEq, Repr, Inhabited

/-- The lane's part of a matrix command (R226): rank, owner, reference. -/
structure MRow where
  r : Nat
  gen : Nat
  rank : Nat
  aGid : Nat
  aOff : Nat
deriving DecidableEq, Repr, Inhabited

/-- The kinds of matrix command (R228, R249). -/
inductive MOp where
  | mma | mzero | mlda | msta | mdrn
deriving DecidableEq, Repr, Inhabited

/-- A drain parameter block with its references resolved (R234). -/
structure DrainBlock where
  outGid : Nat
  outOff : Nat
  resGid : Nat
  resOff : Nat
  seed : Nat
  row0 : Nat
  col0 : Nat
  keep : Nat
  kscale : Nat
  barGid : Nat
  barOff : Nat
deriving DecidableEq, Repr, Inhabited

/-- A command of a group's matrix queue (R226, R227). `bGid`, `bOff`: B of MMA, the barrier of MSTA. -/
structure MCmd where
  op : MOp
  tile : Nat
  fmt : Ty
  fword : Nat
  rows : List MRow
  bGid : Nat
  bOff : Nat
  blk : DrainBlock
  run : Nat
  ctx : Nat
  /-- resets of the barrier's group at release (R248) -/
  resets : Nat
deriving DecidableEq, Repr, Inhabited

/-- A drain or MSTA whose rows the engine writes and which has still to complete (R236). -/
structure DrainPend where
  cmd : MCmd
  bytes : Nat
  /-- its row writes: group, offset and bytes; and the bytes of them that stand in scratch already (R277) -/
  writes : List (Nat × Nat × List Byte)
  shown : List (Nat × Nat)
deriving DecidableEq, Repr, Inhabited

/-- The membership snapshot of a CPYGO, against which the references of the entries it covers are resolved (R256). -/
structure RingSnap where
  prod : Nat
  mems : List (Option Nat)
  /-- resets of each of those groups at the CPYGO (R248) -/
  resets : List Nat
  run : Nat
  ctx : Nat
deriving DecidableEq, Repr, Inhabited

/-- The copy command in progress on a ring (R237 to R240, R257). -/
structure CopyCur where
  pos : Nat
  ext : Bool
  kind : Nat
  esz : Nat
  srcScr : Bool
  src : Nat
  srcGid : Nat
  dstScr : Bool
  dst : Nat
  dstGid : Nat
  counts : List Nat
  sstr : List Int
  dstr : List Int
  startV : List Nat
  barGid : Option Nat
  barOff : Nat
  gateGid : Nat
  gateOff : Nat
  gatePhase : Bool
  /-- linear iteration number of the next element -/
  next : Nat
  bytes : Nat
  status : Nat
  cause : Nat
  poison : Bool
  faddr : Nat
  /-- how far the stream's slots have been reached: the number of the one being written, plus one, or 0; and the index of the flume slot that
  receives it -/
  taken : Nat
  slotIdx : Nat
  /-- data moved or stopped: only completion is left -/
  ended : Bool
  gated : Bool
  run : Nat
  ctx : Nat
  resets : Nat
deriving DecidableEq, Repr, Inhabited

/-- The copy ring a group has bound (R259). -/
structure Ring where
  off : Nat
  entries : Nat
  recs : Nat
  nent : Nat
  snaps : List RingSnap
  cur : Option CopyCur
deriving DecidableEq, Repr, Inhabited

/-- A phase of a group's GBAR (R188). `waited`: cycles counted since the last arrival (R217). -/
structure Gbar where
  expected : List Nat
  arrived : List Nat
  held : List Nat
  waited : Nat
deriving DecidableEq, Repr, Inhabited

/-- A group (R14, R160, R183). `members`: resident slot and rank. `tiles`: key tile × 4096 + row × 64 + column, non-zero
elements only. `rowFlags`: key tile × 64 + row. `blocks`: lane set and the slot block it is bound to. -/
structure Group where
  gid : Nat
  ctx : Nat
  run : Nat
  home : Nat
  members : List (Nat × Nat)
  uni : List (Nat × Word)
  scr : Memory
  scrg : Nat
  tile : Nat
  bars : Nat
  rchk : Bool
  u : Nat
  /-- slot blocks for which it holds register units, until it dissolves or is swapped out (R159, R160) -/
  regBlocks : List Nat
  tiles : List (Nat × DWord)
  /-- lines of its tile units that are poisoned, by number: eight elements each (R290) -/
  badTile : List Nat := []
  rowFlags : List (Nat × BitVec 5)
  mq : List MCmd
  drain : Option DrainPend
  ring : Option Ring
  gbar : Option Gbar
  k : Nat
  barTable : List Nat
  reserved : List (Nat × Nat)
  /-- arrivals by BARV of home-group threads only, for each barrier object of the current phase (R307) -/
  pureArr : List (Nat × Bool)
  flumeBack : List (Nat × Nat)
  blocks : List (Nat × Nat)
  resident : Bool
  dissolved : Bool
  wake : List (Nat × Nat)
  coresident : Bool
  slotsTable : List Nat
  /-- cycles for which the conditions of a swap-out have held (R247) -/
  idle : Nat
  /-- barrier objects: offset and the cycles counted since the last event (R267) -/
  barWaited : List (Nat × Nat)
  /-- resets of the home core while the group had its home there (R248) -/
  resets : Nat
deriving DecidableEq, Repr, Inhabited

/-- A posted load in the operand log (R25). `regs`: the register codes it still fills, with the offset of each in the data. -/
structure LogEntry where
  id : Nat
  core : Nat
  part : Nat
  r : Nat
  gen : Nat
  ctx : Nat
  run : Nat
  dest : Nat
  ty : Ty
  n : Nat
  regs : List (Nat × Nat)
  va : Nat
  pre : PWord
  preWord : Nat
  word : DWord
  trace : Nat
  ttag : Nat
  slotNo : Nat
  pos : Nat
  /-- its translation is not at hand: a walk or PRI is pending (R119, R287) -/
  walk : Bool
  /-- its values lie in checked memory (R302) -/
  chk : Bool
  /-- the place of each value, once translated -/
  places : List Place
  /-- the bytes, once the load has performed (log 4, DEDUCED) -/
  data : Option (List Byte)
  fault : Option (Nat × Nat × Nat)
  /-- the fault has been delivered: the fill is cancelled for R11 and the entry waits for TRET (R27) -/
  cancelled : Bool
deriving DecidableEq, Repr, Inhabited

/-- A store, engine command or hinge held by a lane until commit (R21, R24). -/
inductive EngCmd where
  | ldx (src : List Place) (srcVa bytes gid off barOff : Nat)
  | binit (gid off expA expB : Nat)
  | flinit (gid off base nslot z : Nat)
  | flrel (gid off slot : Nat)
  | matrix (op : MOp) (tile : Nat) (fmt : Ty) (fword : Nat) (aGid aOff bGid bOff : Nat) (blk : DrainBlock)
deriving DecidableEq, Repr, Inhabited

inductive PondEntry where
  | store (st : Store)
  | eng (slotNo : Nat) (c : EngCmd)
deriving DecidableEq, Repr, Inhabited

/-- The hinge of a lane with its operands as its slot read them (R22, R169). -/
inductive Hinge where
  | trap (code : Nat) (word : Nat)
  | launch (d : Nat) (va : Nat) (place : Place) (queue : Nat)
  | fence (ord : Ord) (scope : Scope)
  | waitv (w : WaitV)
  | publish (d : Nat) (place : Place)
  | atom (op : Nat) (ty : Ty) (d : Nat) (data : Nat) (place : Place) (va : Nat) (pre : PWord) (race : RaceAttr) (slotNo : Nat)
  | gnew (d : Nat) (scratch tiles : Nat)
  | join (d : Nat) (handle : Nat)
  | leave (handle : Nat)
  | gbar (m : Nat)
  | cpygo (gid off prod : Nat)
  | barv (d : Nat) (gid off : Nat)
deriving DecidableEq, Repr, Inhabited

/-- What a lane holds of a named register (R18, R21, R128): a value, the state its full/empty bit takes at commit, and whether the
register keeps the value it has then (FILL and VOID). `load`: the value is a posted load's, which a later FILL or VOID drops (R120). -/
structure Held where
  code : Nat
  value : Word
  full : Bool
  keep : Bool
  load : Bool
deriving DecidableEq, Repr, Inhabited

/-- A race that REPORT mode, RPASS or a load's metadata update has to record at commit (R312, R316, R322). -/
inductive RaceNote where
  /-- a load's value: place, va, log2 size, scope, whether its reader was judged ordered -/
  | load (place : Place) (va size : Nat) (scope : Scope) (acq : Bool)
  /-- a record to be written: its 512 bits as eight words but for the sequence number -/
  | record (words : List Nat)
deriving DecidableEq, Repr, Inhabited

/-- Where a committing lane goes on (R21 step 7): resume, loop position and count. -/
structure Going where
  dest : Resume
  pos : Nat
  cnt : Option Nat
deriving DecidableEq, Repr, Inhabited

/-- A lane of a bundle (R23). `at_`: the slot it issues next, counted from 1. `stage`: how far its commit has come (R21): 0 not begun, 1
past step 3, 2 past step 4, 3 past step 6. -/
structure Lane where
  r : Nat
  ctx : Nat
  no : Nat
  active : Bool
  at_ : Nat
  pass : Nat
  passes : Nat
  temps : List (Nat × Word)
  res : List Held
  pond : List PondEntry
  tflags : BitVec 5
  fclear : BitVec 5
  qr : Bool
  prb : Bool
  tstatW : Option Word
  pselW : Option DWord
  hinge : Option Hinge
  posted : List LogEntry
  gsets : List (Nat × Word)
  progs : List Nat
  yields : Bool
  tret : Option Bool
  abort : Bool
  notes : List RaceNote
  /-- sc loads that stand behind an sc store of their trace: slot, size, places and the bytes they have seen (R298) -/
  scReads : List (Nat × Nat × List Place × List Byte)
  /-- flume slots taken: group, descriptor offset, index (R270) -/
  flumes : List (Nat × Nat × Nat)
  stage : Nat
  /-- where the lane goes on, fixed when its commit begins -/
  next : Option Going
  /-- trace records of this issue, oldest first, written when the bundle leaves (R214) -/
  recs : List Nat
deriving DecidableEq, Repr, Inhabited

/-- A fetched trace (R15, R16). -/
structure Trace where
  addr : Nat
  lword : Option DWord
  hword : DWord
  hAddr : Nat
  slots : List DWord
  tword : DWord
  results : List Nat
  after : Nat
deriving DecidableEq, Repr, Inhabited

/-- A bundle at its issue port (R149). Lanes stand in ascending thread-tag order. -/
structure Bundle where
  p : PortId
  addr : Nat
  gather : Option Nat
  trace : Option Trace
  lanes : List Lane
  seq : Nat
  /-- CLK at its formation -/
  since : Nat
  /-- the last slot of this pass whose issue the partition's counters have taken in (R152, R161), and the number of that issue (R165) -/
  counted : Nat
  issue : Nat
  /-- scratch bytes that the loads and engine words of that slot have touched so far, by group and offset (R161) -/
  banks : List (Nat × Nat)
  /-- delay of the brake trial that it was formed outside of (R218) -/
  brake : Option Nat
deriving DecidableEq, Repr, Inhabited

/-- An entry of a partition's PC table (R153): one runnable thread, or one complete lane set. -/
structure PcEntry where
  core : Nat
  part : Nat
  addr : Nat
  threads : List Nat
  gather : Option Nat
  seq : Nat
  since : Nat
  promoted : Option Nat
deriving DecidableEq, Repr, Inhabited

/-- The gather arrival record of a slot block (R157). -/
structure Arrival where
  block : Nat
  gid : Nat
  set : Nat
  addr : Nat
  expected : List Nat
  arrived : List Nat
  /-- cycles counted since the last arrival (R217) -/
  waited : Nat
deriving DecidableEq, Repr, Inhabited

/-- A page request outstanding at the host (R282): virtual function, 4 KiB page, and the agents that wait for the answer. -/
structure PriRequest where
  vf : Nat
  page : Nat
  agents : List Nat
deriving DecidableEq, Repr, Inhabited

/-- An outstanding miss (R286): context, page (of 64 KiB, or of 4 KiB in the host window), and the core and the agent of each access that waits
for its walk. -/
structure Miss where
  ctx : Nat
  page : Nat
  waiters : List (Nat × Nat)
deriving DecidableEq, Repr, Inhabited

/-- A cached translation (R286): context, first address of the page, its size, its leaf entry. -/
structure TlbEntry where
  ctx : Nat
  page : Nat
  size : Nat
  leaf : DWord
deriving DecidableEq, Repr, Inhabited

/-- An LDX transfer in flight (R177). -/
structure LdxMove where
  id : Nat
  core : Nat
  ctx : Nat
  run : Nat
  src : List Place
  srcVa : Nat
  gid : Nat
  off : Nat
  barOff : Nat
  bytes : Nat
  resets : Nat
deriving DecidableEq, Repr, Inhabited

/-- An operation in a partition's replay queue (R165). -/
structure ReplayOp where
  core : Nat
  part : Nat
  /-- number of the slot issue it belongs to -/
  issue : Nat
  r : Nat
  slotNo : Nat
  pipe : Nat
  /-- its operands, and its result: the destination registers with their words, and the flags raised -/
  operands : List Nat
  result : List Nat
deriving DecidableEq, Repr, Inhabited

/-- The counters of a partition (R167), 48 bits each. -/
structure PartCounters where
  gapshort : Nat := 0
  gapfalse : Nat := 0
  promote : Nat := 0
  gatherwait : Nat := 0
  bankxtra : Nat := 0
  stqwait : Nat := 0
  replayin : Nat := 0
  replaychk : Nat := 0
  replaydrop : Nat := 0
  brkiss : Nat := 0
  brkocc : Nat := 0
deriving DecidableEq, Repr, Inhabited

/-- A watchpoint (R212). -/
structure Watch where
  base : DWord := 0
  limit : DWord := 0
  value : DWord := 0
  mask : DWord := 0
  ctl : DWord := 0
deriving DecidableEq, Repr, Inhabited

/-- The trace buffer of a core (R214, R215): context, virtual base, size, next record, records since the last sync packet, and the
records that stand behind a packet which is due. -/
structure TraceBuf where
  ctx : Nat
  base : Nat
  size : Nat
  next : Nat
  since : Nat
  pend : List Nat
deriving DecidableEq, Repr, Inhabited

/-- A core (R148). Absent from the list: every field as below. -/
structure Core where
  id : Nat
  tlb : List TlbEntry := []
  parts : List PartCounters := [{}, {}, {}, {}]
  bpa : List DWord := [0, 0, 0, 0, 0, 0, 0, 0]
  bpf : List DWord := [0, 0, 0, 0, 0, 0, 0, 0]
  wps : List Watch := [{}, {}, {}, {}]
  trace : Option TraceBuf := none
  gated : Bool := false
  resets : Nat := 0
  rounds : Nat := 0
  govwait : Nat := 0
  replay : List ReplayOp := []
  /-- partition whose queue gave the last block (R162) -/
  drained : Nat := 0
deriving DecidableEq, Repr, Inhabited

/-- A cluster (R225 to R248). -/
structure Cluster where
  id : Nat
  tlb : List TlbEntry := []
  mqwait : Nat := 0
  lead : Nat := 4
  /-- gid last served by the matrix engine, by the copy engine -/
  mlast : Nat := 0
  clast : Nat := 0
deriving DecidableEq, Repr, Inhabited

/-- A completion signal in the barrier mailbox (R248). -/
structure Signal where
  die : Nat
  gid : Nat
  off : Nat
  arrivals : Nat
  bytes : Nat
  pure : Bool
  run : Nat
  resets : Nat
deriving DecidableEq, Repr, Inhabited

/-- A stop request under way (R341, R343): the context, the cores, and the slice boundary at which they are to be vacated. -/
structure StopReq where
  ctx : Nat
  cores : List Nat
  boundary : Nat
deriving DecidableEq, Repr, Inhabited

/-- A node of the counter tree (R291): its number, and the digests of the blocks or nodes below it, by number. -/
structure TreeNode where
  num : Nat
  digests : List (Nat × BitVec 64)
deriving DecidableEq, Repr, Inhabited

/-- The counter tree of a die's home memory (R291): middle nodes over 64 counter blocks, top nodes over 64 middle nodes, and the top nodes' digests in
the die's SRAM. What is not listed has not been written. -/
structure CounterTree where
  middle : List TreeNode := []
  top : List TreeNode := []
  root : List (Nat × BitVec 64) := []
deriving DecidableEq, Repr, Inhabited

/-- A compute die (R286, R337, R343, R368, R369). -/
structure Die where
  id : Nat
  misses : List Miss := []
  /-- the counter tree of its encrypted pages (R291) -/
  tree : CounterTree := {}
  /-- walks that gave no translation, still to be told to an access: context, page, agent -/
  bad : List (Nat × Nat × Nat) := []
  tlbmiss : Nat := 0
  walks : Nat := 0
  misswait : Nat := 0
  walkbad : Nat := 0
  targets : List (Nat × Nat) := []
  /-- slice boundaries that each context has had here (R337) -/
  slices : List (Nat × Nat) := []
  stops : List StopReq := []
  /-- cycles that each context's next stop request is sent earlier (R343) -/
  overrun : List (Nat × Nat) := []
  clockSteps : Nat := 0
  powered : Bool := true
  eol : Nat := 0xFFFF
  drift : Nat := 0
  cerate : Nat := 0
  temp : Nat := 0
deriving DecidableEq, Repr, Inhabited

/-- Word A of a line's metadata (R305). -/
structure RaceW where
  tag : Nat
  clk : Nat
  scope : Scope
  kind : Nat
  off : Nat
  size : Nat
deriving DecidableEq, Repr, Inhabited

/-- Word B of a line's metadata (R305). -/
structure RaceR where
  tag : Nat
  clk : Nat
  scope : Scope
  shared : Bool
  off : Nat
  size : Nat
deriving DecidableEq, Repr, Inhabited

/-- Metadata of a 64-byte line (R304, R305). `line`: the place of its first byte. -/
structure RaceLine where
  line : Place
  ctx : Nat
  epoch : Nat
  w : Option RaceW
  rd : Option RaceR
deriving DecidableEq, Repr, Inhabited

/-- What a snapshot is kept for (R309). -/
inductive SnapKey where
  | line (p : Place)
  | bar (gid off : Nat)
  | gbar (gid : Nat)
deriving DecidableEq, Repr, Inhabited

structure Snap where
  die : Nat
  key : SnapKey
  st : Stamp
deriving DecidableEq, Repr, Inhabited

/-- A region of a memory plan (R329) and its shadow (R344). -/
structure Region where
  base : Nat
  len : Nat
  node : Nat
  use : Nat
deriving DecidableEq, Repr, Inhabited

inductive NodeState where
  | blocked | queued | running | done
deriving DecidableEq, Repr, Inhabited

/-- A node of a loaded graph (R335). `parent`: the node that launched it (R332). -/
structure Node where
  idx : Nat
  /-- the loaded graph whose image holds its kernel (R332) -/
  img : Nat
  info : NodeRec
  kd : KernelDesc
  deps : Nat
  succs : List Nat
  state : NodeState
  retry : Nat
  parent : Option Nat
  doneAddr : Nat
  psize : Nat
  patch : Nat
  order : Nat
  /-- the address of its data section's instance, once made (R334) -/
  data : Option Nat
deriving DecidableEq, Repr, Inhabited

/-- A loaded graph (R328, R331). -/
structure Graph where
  id : Nat
  ctx : Nat
  entry : Nat
  base : Nat
  size : Nat
  nodes : List Node
  plan : List Region
  translated : List (Nat × Nat)
deriving DecidableEq, Repr, Inhabited

/-- A run of a node (R325, R339, R345, R347). -/
structure Run where
  id : Nat
  ctx : Nat
  graph : Nat
  node : Nat
  cir : Word
  kd : KernelDesc
  entry : Nat
  nthr : Nat
  group : Nat
  rchk : Bool
  /-- RACECTL and the race ring as they stood at the start of the node (R301) -/
  racectl : Word
  raceRing : Option RaceRing
  coresident : Bool
  noretry : Bool
  psize : Nat
  dataAddr : Nat
  created : Nat
  exited : Nat
  /-- pages shadowed: global page, device frame of the region, device frame of the shadow (R345) -/
  shadows : List (Nat × Nat × Nat)
  /-- what R347 records: wrote without a shadow, launched or published or wrote host or peer, synchronised beyond its shadows -/
  wrote : Bool
  outward : Bool
  synced : Bool
  ended : Bool
  /-- it is being ended at once, and waits for its lanes at commit (R341, R346) -/
  failing : Bool := false
deriving DecidableEq, Repr, Inhabited

/-- A context (R324). -/
structure Context where
  id : Nat
  par : CtxParams
  racectl : Word
  raceNext : Option (Nat × Option RaceRing × Nat)
  raceRing : Option RaceRing
  shadowPages : Nat
  /-- shadow pages assigned: 64 KiB page, oldest first (R304) -/
  shadowMap : List Nat
  epoch : Nat
  raceSeq : Nat
  evsup : Nat
  hzsup : Nat
  snpsup : Nat
  clksup : Nat
  engrst : Nat
  shrsup : Nat
  ringloss : Nat
  evProd : Nat
  evCons : Nat
  evDropped : Nat
  handles : List Nat
  debugger : Bool
  profiler : Bool
  trial : Option (Nat × Nat × Nat)
  order : Nat
  created : Nat
  attached : Nat
  /-- frames retired from the shadow pool (R345), and those of its frames that shadow nothing (R344) -/
  retired : Nat
  pool : List Nat
  /-- data-section instances that stay after their graphs, for the host: address and bytes (R334) -/
  kept : List (Nat × Nat)
  /-- turns that each queue has left in the cycle of 255 (R336) -/
  turns : List Nat
  /-- the key of its encrypted pages (R291) -/
  key : Nat
deriving DecidableEq, Repr, Inhabited

/-- A virtual function (R370 to R372). -/
structure Vf where
  id : Nat
  ctx : Option Nat := none
  running : Bool := false
  /-- MSI-X vectors fired so far, vector 0 and vector 1 (R371) -/
  msi0 : Nat := 0
  msi1 : Nat := 0
deriving DecidableEq, Repr, Inhabited

/-- A page of host memory that the host presents to a VF (R282): 4 KiB-aligned page number, writable. -/
structure HostPage where
  vf : Nat
  page : Nat
  writable : Bool
deriving DecidableEq, Repr, Inhabited

/-- The space that the counters and tags of the 16 pages of an encrypted 64 KiB frame take (R291): owner, frame, device address of the 8 KiB. -/
structure EncSpace where
  ctx : Nat
  frame : Nat
  space : Nat
deriving DecidableEq, Repr, Inhabited

/-- A page held encrypted in HBM (R291, R292): 4 KiB page number, owner, major
counter, minor counters by line, the lines as written back (cipher text and tag), and, where its counter block has failed, the lines rewritten
since. -/
structure EncPage where
  page : Nat
  ctx : Nat
  major : Nat
  minors : List (Nat × Nat)
  lines : List (Nat × List Byte × BitVec 56)
  broken : Option (List Nat)
deriving DecidableEq, Repr, Inhabited

/-- A fabric port (R376 to R379). STATE 0 down, 1 training, 2 up, 3 failed. -/
structure FPort where
  id : Nat
  state : Nat := 0
  narrow : Bool := false
  peer : Nat := 0
  failcause : Nat := 0
  replays : Nat := 0
  rxSeq : Nat := 0
  txSeq : Nat := 0
  acked : Nat := 0
  lastAck : Nat := 0
  /-- flits kept for replay: sequence number and bytes (R378) -/
  replay : List (Nat × List Byte) := []
  /-- the sequence number of the last NAK sent, until a flit arrives in order again -/
  nak : Option Nat := none
  /-- times in a row that the oldest unacknowledged flit has been replayed -/
  again : Nat := 0
  /-- flits delivered in order -/
  delivered : List (List Byte) := []
  /-- flits that the partner has still room for, and those taken for which it has no credit yet -/
  credits : Nat := 0
  owed : Nat := 0
  /-- requests and responses that wait for credits: type and payload -/
  queue : List (Nat × List Byte) := []
deriving DecidableEq, Repr, Inhabited

/-- The binding of a peer device number (R380): port mask, peer module, context on the peer. -/
structure PeerBind where
  num : Nat
  mask : Nat
  module : Nat
  ctx : Nat
deriving DecidableEq, Repr, Inhabited

/-- A firmware image that runs (R362). Kinds 0 to 3 as in `FlashItem`. -/
structure Firmware where
  kind : Nat
  version : Nat
  bytes : List Byte
deriving DecidableEq, Repr, Inhabited

/-- A replacement in its first second (R364): image kind, old image, take-over time, last heartbeat. -/
structure Replacing where
  kind : Nat
  old : Firmware
  since : Nat
  beat : Nat
deriving DecidableEq, Repr, Inhabited

/-- The pause of a replacement (R362, R364): the image that is about to take over, CLK at its begin, and whether the old image takes over
again. -/
structure Pause where
  new : Firmware
  since : Nat
  back : Bool
deriving DecidableEq, Repr, Inhabited

/-- A host link (R357, R370): trained, and its virtual functions enabled. -/
structure HostLink where
  id : Nat
  up : Bool := false
  functions : Bool := false
deriving DecidableEq, Repr, Inhabited

/-- A device LAUNCH that has committed while dispatch was paused (R363). -/
structure HeldLaunch where
  r : Nat
  gen : Nat
  ctx : Nat
  run : Nat
  d : Nat
  va : Nat
  place : Place
  queue : Nat
deriving DecidableEq, Repr, Inhabited

/-- A signed configuration record as accepted (R361). -/
structure ConfigRec where
  id : Nat
  version : Nat
  epoch : Nat
  body : List Byte
  raw : List Byte
deriving DecidableEq, Repr, Inhabited

/-- The package (R356 to R369). -/
structure Package where
  /-- BOOTSTS (R358) -/
  state : Nat
  fails : Nat
  reason : Nat
  dies : Nat
  flash : List FlashItem
  firmware : List Firmware
  /-- replacements whose heartbeats the root of trust watches -/
  replacing : List Replacing
  pause : Option Pause
  /-- cycles for which dispatch has been paused, by which slice boundaries are postponed (R363) -/
  paused : Nat
  /-- images marked refused in flash, and images that the next start loads in their kind's place: kind and version (R364) -/
  refused : List (Nat × Nat)
  next : List (Nat × Nat)
  records : List ConfigRec
  epochs : List (Nat × Nat)
  log : List (Nat × Nat)
  pfMsi : Nat
  links : List HostLink
  /-- the cold plate is too hot, or its coolant does not flow (R369) -/
  hot : Bool
  /-- cycles of health data before the last reset (R368) -/
  monitored : Nat
deriving DecidableEq, Repr, Inhabited

/-- The last completion a host action received (R365, R372, R373). -/
inductive HostResp where
  | none
  | status (code : Nat)
  /-- the status word of a command, with what it has read -/
  | reply (code : Nat) (bytes : List Byte)
  | unsupported
  | data (bytes : List Byte) (ep : Bool)
  | value (v : Nat)
deriving DecidableEq, Repr, Inhabited

/-- The machine. -/
structure State where
  agenda : List Move
  tick : Nat
  free : Nat
  seq : Nat
  cur : Option (PortId × Nat)
  clk : DWord
  mem : Memory
  hostMem : Memory
  peerMem : Memory
  poison : List Place
  owners : List (Nat × Nat)
  hostPages : List HostPage
  /-- page requests outstanding at the host, through PRI (R282, R370) -/
  pri : List PriRequest
  /-- refused page requests, still to be told to an agent that waits: virtual function, page, agent (R282) -/
  priBad : List (Nat × Nat × Nat)
  encPages : List EncPage
  /-- the space taken for counters and tags, by the frame that it serves (R291) -/
  encSpaces : List EncSpace
  contexts : List Context
  graphs : List Graph
  runs : List Run
  groups : List Group
  threads : List Thread
  tags : List TagEntry
  bundles : List Bundle
  table : List PcEntry
  arrivals : List Arrival
  blocks : List Block
  out : List OutStore
  oplog : List LogEntry
  ldxs : List LdxMove
  cores : List Core
  clusters : List Cluster
  diesS : List Die
  mailbox : List Signal
  lines : List RaceLine
  snaps : List Snap
  progs : List ((Nat × Nat × Nat) × Nat)
  vfs : List Vf
  ports : List FPort
  peers : List PeerBind
  pkg : Package
  held : List HeldLaunch
  /-- host accesses, requests of peers and management commands that wait (R282, R362, R363), in their order -/
  waiting : List Instr
  hostResp : HostResp
deriving DecidableEq, Repr, Inhabited

/-- The reasons the machine stops. -/
inductive Fault where
  /-- A slot instruction was executed while no lane of a bundle stands at a slot. `step` never raises it: it executes a slot
  instruction for the lane it has chosen. The spec gives a slot word no meaning outside a trace (R17). Safe: the model stops. -/
  | noLane
deriving DecidableEq, Repr, Inhabited

/-- The reasons the model gives no meaning. -/
inductive Refusal where
  /-- No meaning has been written for the instruction of this mnemonic. Raised by `exec` alone. Safe: the model stops. -/
  | notModelled (mnemonic : String)
deriving DecidableEq, Repr, Inhabited

/-- BOOTSTS at its Reset column (R358), no image in flash, no record accepted (R361). -/
def Package.reset : Package :=
  { state := 0, fails := 0, reason := 0, dies := 0, flash := [], firmware := [], replacing := [], pause := none, paused := 0,
    refused := [], next := [], records := [], epochs := [], log := [], pfMsi := 0, links := [⟨0, false, false⟩, ⟨1, false, false⟩],
    hot := false, monitored := 0 }

/-- The module right after reset: no context, no thread, memory with nothing listed, every counter at zero (R14, R196, R306,
R358, R368, R379). -/
def State.reset : State :=
  { agenda := [], tick := 0, free := 0, seq := 0, cur := none, clk := 0, mem := [], hostMem := [], peerMem := [],
    poison := [], owners := [], hostPages := [], pri := [], priBad := [], encPages := [], encSpaces := [], contexts := [], graphs := [], runs := [],
    groups := [], threads := [], tags := [], bundles := [], table := [], arrivals := [], blocks := [], out := [],
    oplog := [], ldxs := [], cores := [], clusters := [], diesS := [], mailbox := [], lines := [], snaps := [], progs := [],
    vfs := [], ports := [], peers := [], pkg := Package.reset, held := [], waiting := [], hostResp := .none }

end Sys2Proof.Machine
end

