-- ==== Sys2Proof/Machine/Bits.lean ====
section
/-! DEFINITION. Bit fields, sign extension, byte order and sparse maps: the plain helpers of every meaning. -/

namespace Sys2Proof.Machine

open Sys2Proof

/-- Bits [lo + n - 1 : lo] of a number (R7). -/
def bits (v lo n : Nat) : Nat := v / 2 ^ lo % 2 ^ n

/-- Bit `i` of a number. -/
def bit (v i : Nat) : Bool := v / 2 ^ i % 2 == 1

/-- The low `w` bits of `v` as a two's-complement integer (R37, R24 SignExt). -/
def signed (w v : Nat) : Int :=
  if v % 2 ^ w < 2 ^ (w - 1) then (v % 2 ^ w : Nat) else (v % 2 ^ w : Nat) - (2 ^ w : Nat)

/-- The non-negative residue of an integer modulo 2^w (R78). -/
def wrap (w : Nat) (x : Int) : Nat := (x % (2 ^ w : Nat)).toNat

/-- `n` bytes of a number, little-endian (R7). -/
def leBytes : Nat → Nat → List Byte
  | 0, _ => []
  | n + 1, v => BitVec.ofNat 8 v :: leBytes n (v / 256)

/-- The number that bytes hold, little-endian (R7). -/
def ofLe : List Byte → Nat
  | [] => 0
  | b :: t => b.toNat + 256 * ofLe t

/-- 0 or 1. -/
def b2n (b : Bool) : Nat := if b then 1 else 0

/-- Reads a sparse map whose unlisted keys hold zero; keys strictly rise. -/
def sGet {n : Nat} : List (Nat × BitVec n) → Nat → BitVec n
  | [], _ => 0
  | (a, v) :: t, k => if a = k then v else if k < a then 0 else sGet t k

/-- Writes a sparse map and keeps its form: a zero is never listed. -/
def sSet {n : Nat} : List (Nat × BitVec n) → Nat → BitVec n → List (Nat × BitVec n)
  | [], k, v => if v = 0 then [] else [(k, v)]
  | (a, w) :: t, k, v =>
    if a < k then (a, w) :: sSet t k v
    else if a = k then (if v = 0 then t else (k, v) :: t)
    else if v = 0 then (a, w) :: t else (k, v) :: (a, w) :: t

/-- The canonical form of a sparse map: keys strictly rise and no listed value is zero. -/
def sWf {n : Nat} : List (Nat × BitVec n) → Bool
  | [] => true
  | [(_, v)] => v ≠ 0
  | (a, v) :: (b, w) :: t => (v ≠ 0) && (a < b) && sWf ((b, w) :: t)

/-- The canonical form of memory. -/
def Memory.wf (m : Memory) : Bool := sWf m

/-- One byte of memory. -/
def Memory.read (m : Memory) (a : Nat) : Byte := sGet m a

/-- Writes one byte of memory. -/
def Memory.write (m : Memory) (a : Nat) (b : Byte) : Memory := sSet m a b

/-- `n` bytes from `a` up. -/
def Memory.readN (m : Memory) (a : Nat) : Nat → List Byte
  | 0 => []
  | n + 1 => m.read a :: m.readN (a + 1) n

/-- Writes bytes from `a` up. -/
def Memory.writeN (m : Memory) (a : Nat) : List Byte → Memory
  | [] => m
  | b :: t => (m.write a b).writeN (a + 1) t

/-- Removes every byte of [a, a + n). -/
def Memory.clear (m : Memory) (a n : Nat) : Memory := m.filter fun c => c.1 < a || a + n ≤ c.1

/-- Inserts into a list ordered by `key`, after equal keys. -/
def insertBy {α : Type} (key : α → Nat) (x : α) : List α → List α
  | [] => [x]
  | y :: t => if key x < key y then x :: y :: t else y :: insertBy key x t

/-- Stable sort by a number. -/
def sortBy {α : Type} (key : α → Nat) : List α → List α
  | [] => []
  | x :: t => insertBy key x (sortBy key t)

/-- Insertion-sorts from the front so that equal keys keep their order. -/
def sortOn {α : Type} (key : α → Nat) (l : List α) : List α := (sortBy (fun x => key x) l.reverse)

/-- Adds a number to a duplicate-free ascending list. -/
def setAdd (k : Nat) (l : List Nat) : List Nat :=
  if l.contains k then l else insertBy id k l

/-- Removes a number from a list. -/
def setDel (k : Nat) (l : List Nat) : List Nat := l.filter (· ≠ k)

/-- Association by a number: the value listed for `k`, or a default. -/
def assocD {α : Type} (d : α) : List (Nat × α) → Nat → α
  | [], _ => d
  | (a, v) :: t, k => if a = k then v else assocD d t k

/-- Replaces or adds the value listed for `k`. -/
def assocSet {α : Type} : List (Nat × α) → Nat → α → List (Nat × α)
  | [], k, v => [(k, v)]
  | (a, w) :: t, k, v => if a = k then (k, v) :: t else (a, w) :: assocSet t k v

/-- A 48-bit event counter advances and wraps (R167, R216). -/
def count48 (c n : Nat) : Nat := (c + n) % 2 ^ 48

/-- Rounds up to a multiple. -/
def ceilDiv (a b : Nat) : Nat := (a + b - 1) / b

/-- The numbers lo, lo + 1, …, lo + n - 1. -/
def upFrom (lo : Nat) : Nat → List Nat
  | 0 => []
  | n + 1 => lo :: upFrom (lo + 1) n

/-- Whether a list has no repeats. -/
def distinct : List Nat → Bool
  | [] => true
  | x :: t => !t.contains x && distinct t

end Sys2Proof.Machine
end

