-- ==== Sys2Proof/Machine/Operands.lean ====
section
/-! DEFINITION. Operand forms: how wide each type is, which fields of each slot word are register sources, destinations or
literals, which codes each entry accepts (R65), and the counts that a fetch takes from a word (R16, R64). -/

namespace Sys2Proof

/-- Bit width of a type (R37, R38, R44, R48). -/
def Ty.width : Ty → Nat
  | .i8 | .n8 | .kd8 => 8
  | .i16 | .n16 | .f16 | .bf16 => 16
  | .b32 | .i32 | .n32 | .f32 => 32
  | .i64 | .n64 | .f64 => 64
  | .q128 => 128

/-- Registers that a value of a type occupies (R36). -/
def Ty.words (t : Ty) : Nat := (t.width + 31) / 32

/-- Bytes of a value in memory (R117). -/
def Ty.bytes (t : Ty) : Nat := t.width / 8

/-- The signed integer types (R37). -/
def Ty.isI : Ty → Bool
  | .i8 | .i16 | .i32 | .i64 => true
  | _ => false

/-- The unsigned integer types (R37). -/
def Ty.isN : Ty → Bool
  | .n8 | .n16 | .n32 | .n64 => true
  | _ => false

/-- Types 1 to 8. -/
def Ty.isInt (t : Ty) : Bool := t.isI || t.isN

/-- Types 0 to 8. -/
def Ty.isBits (t : Ty) : Bool := t.isInt || t == .b32

/-- Types 9 to 12. -/
def Ty.isFloat : Ty → Bool
  | .f16 | .bf16 | .f32 | .f64 => true
  | _ => false

/-- f32 and f64. -/
def Ty.isWideFloat : Ty → Bool
  | .f32 | .f64 => true
  | _ => false

/-- Types that atomics and waits take: 32- and 64-bit integers (R168). -/
def Ty.isInt3264 : Ty → Bool
  | .i32 | .i64 | .n32 | .n64 => true
  | _ => false

def Ty.code : Ty → Nat
  | .b32 => 0 | .i8 => 1 | .i16 => 2 | .i32 => 3 | .i64 => 4 | .n8 => 5 | .n16 => 6 | .n32 => 7 | .n64 => 8
  | .f16 => 9 | .bf16 => 10 | .f32 => 11 | .f64 => 12 | .kd8 => 13 | .q128 => 14

def Ty.ofCode? : Nat → Option Ty
  | 0 => some .b32 | 1 => some .i8 | 2 => some .i16 | 3 => some .i32 | 4 => some .i64 | 5 => some .n8
  | 6 => some .n16 | 7 => some .n32 | 8 => some .n64 | 9 => some .f16 | 10 => some .bf16 | 11 => some .f32
  | 12 => some .f64 | 13 => some .kd8 | 14 => some .q128 | _ => none

def Rm.code : Rm → Nat
  | .rne => 0 | .rtz => 1 | .rup => 2 | .rdn => 3 | .rna => 4 | .rod => 5

def Rm.ofCode? : Nat → Option Rm
  | 0 => some .rne | 1 => some .rtz | 2 => some .rup | 3 => some .rdn | 4 => some .rna | 5 => some .rod | _ => none

def Cond.code : Cond → Nat
  | .eq => 0 | .ne => 1 | .lt => 2 | .le => 3 | .gt => 4 | .ge => 5

def Cond.ofCode? : Nat → Option Cond
  | 0 => some .eq | 1 => some .ne | 2 => some .lt | 3 => some .le | 4 => some .gt | 5 => some .ge | _ => none

def Ord.code : Ord → Nat
  | .plain => 0 | .acq => 1 | .rel => 2 | .acqrel => 3 | .sc => 4

def Ord.ofCode? : Nat → Option Ord
  | 0 => some .plain | 1 => some .acq | 2 => some .rel | 3 => some .acqrel | 4 => some .sc | _ => none

def Scope.code : Scope → Nat
  | .core => 0 | .clu => 1 | .die => 2 | .dev => 3 | .sys => 4

def Scope.ofCode? : Nat → Option Scope
  | 0 => some .core | 1 => some .clu | 2 => some .die | 3 => some .dev | 4 => some .sys | _ => none

def Space.code : Space → Nat
  | .generic => 0 | .global => 1 | .scratch => 2 | .own => 3 | .hostwin => 4

def Space.ofCode? : Nat → Option Space
  | 0 => some .generic | 1 => some .global | 2 => some .scratch | 3 => some .own | 4 => some .hostwin | _ => none

def Cache.code : Cache → Nat
  | .dflt => 0 | .stream => 1 | .keepl2 => 2 | .nol1 => 3 | .noalloc => 4

def Cache.ofCode? : Nat → Option Cache
  | 0 => some .dflt | 1 => some .stream | 2 => some .keepl2 | 3 => some .nol1 | 4 => some .noalloc | _ => none

def RaceAttr.code : RaceAttr → Nat
  | .dflt => 0 | .check => 1 | .exempt => 2

def RaceAttr.ofCode? : Nat → Option RaceAttr
  | 0 => some .dflt | 1 => some .check | 2 => some .exempt | _ => none

/-- Acquire side of an ordering (R172). -/
def Ord.acquires : Ord → Bool
  | .acq | .acqrel | .sc => true
  | _ => false

/-- Release side of an ordering (R172). -/
def Ord.releases : Ord → Bool
  | .rel | .acqrel | .sc => true
  | _ => false

namespace Machine

/-- What a register field of a word is to its instruction: unused, a source of so many registers, a destination, a hinge's
destination (R169), or a literal. `align` is the multiple its code must be (R10). -/
inductive OpK where
  | none
  | src (words align : Nat)
  | dst (words align : Nat)
  | hdst (words : Nat)
  | lit
deriving DecidableEq, Repr, Inhabited

/-- A word's operand form: its fields, what each register field is, and whether the codes that its entry restricts are ones the
entry accepts. -/
inductive Form where
  | A (f : FA) (a b c d : OpK) (rounds ok : Bool)
  | I (f : FI) (a d : OpK) (ok : Bool)
  | G (f : FG) (a b : OpK) (ok : Bool)
  | M (f : FM) (d base index : OpK) (ok : Bool)
  | X (f : FX) (a b c d : OpK) (ok : Bool)
  | E (f : FE) (a b c d : OpK) (ok : Bool)
  | S (f : FS) (a d : OpK) (ok : Bool)
  | event
deriving Repr

/-- A value source, a value destination of a type (R36). -/
def OpK.s (t : Ty) : OpK := .src t.words t.words
def OpK.w (t : Ty) : OpK := .dst t.words t.words
def OpK.s1 : OpK := .src 1 1
def OpK.s2 : OpK := .src 2 2
def OpK.s4 : OpK := .src 4 4
def OpK.d1 : OpK := .dst 1 1
def OpK.d2 : OpK := .dst 2 2
def OpK.d4 : OpK := .dst 4 4

/-- The wide type of IMADW occupies two registers for i32 and n32 (R83). -/
def wideWords (t : Ty) : Nat := if t.width = 32 then 2 else 1

/-- The condition literal of ICMP and FCMP (R91, R99). -/
def condLit (c : Nat) : Option Cond := if c / 16 = 0 then Cond.ofCode? (c % 16) else none

/-- .eq or .ne. -/
def Cond.isEqNe : Cond → Bool
  | .eq | .ne => true
  | _ => false

/-- A literal condition is accepted, and with b32 only .eq and .ne (R91). -/
def condOk (t : Ty) (c : Nat) : Bool :=
  match condLit c with
  | some k => t != .b32 || Cond.isEqNe k
  | none => false

/-- A three-operand form A word. -/
def formA3 (f : FA) (a b c d : OpK) (ok : Bool) (rounds : Bool := false) : Form := .A f a b c d rounds ok

/-- Binary, unary forms on the word's own type. -/
def formBin (f : FA) (ok : Bool) (rounds : Bool := false) : Form := .A f (.s f.ty) (.s f.ty) .none (.w f.ty) rounds ok
def formUn (f : FA) (ok : Bool) (rounds : Bool := false) : Form := .A f (.s f.ty) .none .none (.w f.ty) rounds ok

/-- A span of registers in one class: all of v1–v1015, or all of t0–t7, or v0 where one value is moved (R117). -/
def spanOk (d words : Nat) (single : Bool) : Bool :=
  if d = 0 then single
  else if d ≤ 1015 then d + words ≤ 1016
  else d + words ≤ 1024

/-- The count of values, 1, 2 or 4, from cnt (R58). -/
def cntOf (c : BitVec 2) : Nat := 2 ^ c.toNat

/-- The P word before an access names an ordering that the instruction accepts (R61). -/
def preOk (acc : Ord → Bool) : Option PWord → Bool
  | some p => acc p.ord
  | none => true

def ordLd : Ord → Bool
  | .plain | .acq | .sc => true
  | _ => false
def ordSt : Ord → Bool
  | .plain | .rel | .sc => true
  | _ => false
def ordPlain : Ord → Bool
  | .plain => true
  | _ => false
def ordWaitv : Ord → Bool
  | .plain | .acq => true
  | _ => false
def ordPublish : Ord → Bool
  | .plain | .rel => true
  | _ => false
def ordAny : Ord → Bool := fun _ => true

/-- Atomic words: type accepted by the operation, data in the index field, d filled by the hinge (R171). -/
def formAtom (f : FM) (tyOk : Bool) (dataWords : Nat) : Form :=
  .M f (.hdst f.ty.words) .s2 (.src dataWords dataWords) (tyOk && f.cnt == 0)

/-- The CSR numbers and their widths in registers (R68). -/
def csrWords? (n : Nat) : Option Nat :=
  if n = 0x000 || n = 0x001 || n = 0x002 || n = 0x100 || n = 0x101 || n = 0x102 then some 1
  else if n = 0x003 || n = 0x200 then some 2
  else none

def csrTSTAT : Nat := 0x002
def csrPSEL : Nat := 0x003

/-- Operations of XRED and SCAN and the rounding literal (R180, R181). -/
def redOk (t : Ty) (fn c : Nat) : Bool :=
  let op := fn % 8
  let rmc := bits c 3 3
  c / 64 = 0 &&
  (if t.isInt then op < 6 && rmc = 0
   else if t = .b32 then 3 ≤ op && op < 6 && rmc = 0
   else if t.isFloat then (op = 0 && (Rm.ofCode? rmc).isSome) || ((op = 1 || op = 2) && rmc = 0)
   else false)

/-- Matrix formats (R58, R252). -/
def mmaFmt : Ty → Bool
  | .kd8 | .bf16 | .f16 | .i8 | .f32 | .f64 => true
  | _ => false

/-- A format-E word that fixes fmt and fn at 0 and acc at 0 (R249). -/
def eOk (f : FE) : Bool := f.fmt == .b32 && f.fn == 0 && f.acc == 0

/-- The operand form of each instruction: R80, R94, R111, R117, R126, R137, R168, R249 and the entries they summarise. -/
def formOf : Instr → Form
  -- S (R126 to R132, R192 to R195)
  | .nop f => .S f .none .none (f.csr == 0 && f.fn == 0 && f.imm == 0)
  | .trap f => .S f .none .none (f.csr == 0 && f.fn == 0)
  | .tretRe f => .S f .none .none (f.csr == 0 && f.fn == 0 && f.imm == 0)
  | .tretSkip f => .S f .none .none (f.csr == 0 && f.fn == 1 && f.imm == 0)
  | .csrr f =>
    let w := (csrWords? f.csr.toNat).getD 1
    .S f .none (.dst w w) ((csrWords? f.csr.toNat).isSome && f.fn == 0 && f.imm == 0)
  | .csrw f =>
    if f.csr.toNat = csrPSEL then .S f .s2 .none (f.fn == 0 && f.imm == 0)
    else .S f .s1 .none (f.csr.toNat == csrTSTAT && f.fn == 0 && f.imm == 0)
  | .csrwImm f => .S f .none .none (f.csr.toNat == csrTSTAT && f.fn == 1)
  | .fill f => .S f .none .d1 (f.csr == 0 && f.fn == 0 && f.imm == 0 && 1 ≤ f.d.toNat && f.d.toNat ≤ 1015)
  | .void f => .S f .none .d1 (f.csr == 0 && f.fn == 0 && f.imm == 0 && 1 ≤ f.d.toNat && f.d.toNat ≤ 1015)
  | .waitf f =>
    .S f .none .lit (f.csr == 0 && f.fn == 0 && 1 ≤ f.imm.toNat && f.imm.toNat ≤ 16 && spanOk f.d.toNat f.imm.toNat (f.imm == 1))
  | .chkerr f => .S f .none .d1 (f.csr == 0 && f.fn == 0 && f.imm == 0)
  | .chkerrAbort f => .S f .none .d1 (f.csr == 0 && f.fn == 1 && f.imm == 0)
  | .prog f => .S f .none .none (f.csr == 0 && f.fn == 0 && f.imm.toNat < 16)
  | .yield f => .S f .none .none (f.csr == 0 && f.fn == 0 && f.imm == 0)
  | .launch f => .S f .s2 (.hdst 1) (f.csr == 0 && f.fn == 0 && f.imm.toNat < 8)
  -- integer (R80)
  | .iadd f => formBin f f.ty.isInt
  | .iaddImm f => .I f (.s f.ty) (.w f.ty) f.ty.isInt
  | .isub f => formBin f f.ty.isInt
  | .imul f => formBin f f.ty.isInt
  | .imulImm f => .I f (.s f.ty) (.w f.ty) f.ty.isInt
  | .imulh f => formBin f f.ty.isInt
  | .imad f => .A f (.s f.ty) (.s f.ty) (.s f.ty) (.w f.ty) false f.ty.isInt
  | .imadw f =>
    let w := wideWords f.ty
    .A f .s1 .s1 (.src w w) (.dst w w) false (f.ty.isInt && f.ty.width ≤ 32)
  | .idiv f => formBin f f.ty.isInt
  | .irem f => formBin f f.ty.isInt
  | .ineg f => formUn f f.ty.isInt
  | .iabs f => formUn f f.ty.isI
  | .imin f => formBin f f.ty.isInt
  | .iminImm f => .I f (.s f.ty) (.w f.ty) f.ty.isInt
  | .imax f => formBin f f.ty.isInt
  | .imaxImm f => .I f (.s f.ty) (.w f.ty) f.ty.isInt
  | .iadds f => formBin f f.ty.isInt
  | .isubs f => formBin f f.ty.isInt
  | .and f => formBin f f.ty.isBits
  | .andImm f => .I f (.s f.ty) (.w f.ty) f.ty.isBits
  | .or f => formBin f f.ty.isBits
  | .orImm f => .I f (.s f.ty) (.w f.ty) f.ty.isBits
  | .xor f => formBin f f.ty.isBits
  | .xorImm f => .I f (.s f.ty) (.w f.ty) f.ty.isBits
  | .andn f => formBin f f.ty.isBits
  | .lsl f => .A f (.s f.ty) .s1 .none (.w f.ty) false f.ty.isBits
  | .lslImm f => .I f (.s f.ty) (.w f.ty) f.ty.isBits
  | .lsr f => .A f (.s f.ty) .s1 .none (.w f.ty) false f.ty.isBits
  | .lsrImm f => .I f (.s f.ty) (.w f.ty) f.ty.isBits
  | .asr f => .A f (.s f.ty) .s1 .none (.w f.ty) false f.ty.isBits
  | .asrImm f => .I f (.s f.ty) (.w f.ty) f.ty.isBits
  | .rot f => .A f (.s f.ty) .s1 .none (.w f.ty) false f.ty.isBits
  | .rotImm f => .I f (.s f.ty) (.w f.ty) f.ty.isBits
  | .bfx f => .A f (.s f.ty) .s1 .none (.w f.ty) false f.ty.isBits
  | .bfxImm f => .I f (.s f.ty) (.w f.ty) (f.ty.isBits && !bit f.imm.toNat 7 && f.imm.toNat / 2 ^ 15 == 0)
  | .bfi f => .A f (.s f.ty) (.s f.ty) .s1 (.w f.ty) false f.ty.isBits
  | .popc f => .A f (.s f.ty) .none .none .d1 false f.ty.isBits
  | .clz f => .A f (.s f.ty) .none .none .d1 false f.ty.isBits
  | .ctz f => .A f (.s f.ty) .none .none .d1 false f.ty.isBits
  | .brev f => formUn f f.ty.isBits
  | .icmp f => .A f (.s f.ty) (.s f.ty) .lit .d1 false (f.ty.isBits && condOk f.ty f.c.toNat)
  | .icmpImm f => .I f (.s f.ty) .d1 (f.ty.isBits && condOk f.ty (f.imm.toNat / 2 ^ 16))
  | .sel f => .A f (.s f.ty) (.s f.ty) .s1 (.w f.ty) false f.ty.isBits
  | .mov f => formUn f true
  | .movi f => .I f .none (.w f.ty) f.ty.isBits
  | .movh f => .I f .s1 .d1 (f.ty == .b32)
  | .lea f => .A f .s2 (.s f.ty) .s1 .d2 false f.ty.isInt3264
  | .leaImm f => .I f .s2 .d2 (f.ty == .n64)
  -- floating point (R94)
  | .fadd f => formBin f f.ty.isFloat true
  | .fsub f => formBin f f.ty.isFloat true
  | .fmul f => formBin f f.ty.isFloat true
  | .fma f => .A f (.s f.ty) (.s f.ty) (.s f.ty) (.w f.ty) true f.ty.isFloat
  | .fnma f => .A f (.s f.ty) (.s f.ty) (.s f.ty) (.w f.ty) true f.ty.isFloat
  | .fmin f => formBin f f.ty.isFloat
  | .fmax f => formBin f f.ty.isFloat
  | .fabs f => formUn f f.ty.isFloat
  | .fneg f => formUn f f.ty.isFloat
  | .fcps f => formBin f f.ty.isFloat
  | .fcmp f => .A f (.s f.ty) (.s f.ty) .lit .d1 false (f.ty.isFloat && (condLit f.c.toNat).isSome)
  | .fcls f => .A f (.s f.ty) .none .none .d1 false f.ty.isFloat
  | .fdiv f => formBin f f.ty.isWideFloat true
  | .fsqrt f => formUn f f.ty.isWideFloat true
  | .frcp f => formUn f f.ty.isWideFloat true
  | .frsq f => formUn f f.ty.isWideFloat true
  | .fexp f => formUn f f.ty.isWideFloat true
  | .fexp2 f => formUn f f.ty.isWideFloat true
  | .flog f => formUn f f.ty.isWideFloat true
  | .flog2 f => formUn f f.ty.isWideFloat true
  | .fsin f => formUn f f.ty.isWideFloat true
  | .fcos f => formUn f f.ty.isWideFloat true
  | .ftanh f => formUn f f.ty.isWideFloat true
  | .fsigm f => formUn f f.ty.isWideFloat true
  | .ferf f => formUn f f.ty.isWideFloat true
  | .frnd f => formUn f f.ty.isFloat true
  | .flgr f => .A f .none .none .none .d1 false (f.ty == .b32)
  | .flgc f => .I f .none .d1 (f.ty == .b32 && f.imm.toNat < 32)
  | .cvt f =>
    let st := (Ty.ofCode? (f.c.toNat % 16)).getD .b32
    .A f (.s st) .none .lit (.w f.ty) true
      (f.c.toNat / 16 == 0 && (st.isInt || st.isFloat) && (f.ty.isInt || f.ty.isFloat) && (st.isFloat || f.ty.isFloat))
  | .kdq f => .A f .s4 .s1 .s1 .d2 false (f.ty == .f16 || f.ty == .bf16 || f.ty == .f32)
  | .kdx f => .A f .s1 .s1 .none .d4 true (f.ty == .f16 || f.ty == .bf16 || f.ty == .f32)
  -- guards (R111)
  | .gcmp f => .G f (.s f.ty) (.s f.ty) ((f.ty.isInt || f.ty.isFloat) || (f.ty == .b32 && Cond.isEqNe f.cond))
  | .gcmpImm f => .G f (.s f.ty) .lit ((f.ty.isInt || f.ty.isFloat) || (f.ty == .b32 && Cond.isEqNe f.cond))
  | .gz f => .G f (.s f.ty) .none ((f.ty.isBits || f.ty.isFloat) && f.cond == .eq)
  | .gnz f => .G f (.s f.ty) .none ((f.ty.isBits || f.ty.isFloat) && f.cond == .eq)
  | .grng f => .G f (.s f.ty) (.src (2 * f.ty.words) (2 * f.ty.words)) ((f.ty.isInt || f.ty.isFloat) && f.cond == .eq)
  | .gflg f => .G f .none .s1 (f.ty == .b32 && f.cond == .eq)
  | .gflgImm f => .G f .none .lit (f.ty == .b32 && f.cond == .eq && f.b.toNat < 32)
  | .gfull f => .G f .lit .none (f.ty == .b32 && f.cond == .eq)
  -- exact rational (R137)
  | .qenc f => .A f .s2 .s2 .none .d4 false (f.ty == .q128)
  | .qdec f => .A f .s4 .none .none .d4 false (f.ty == .q128)
  | .qadd f => .A f .s4 .s4 .none .d4 false (f.ty == .q128)
  | .qsub f => .A f .s4 .s4 .none .d4 false (f.ty == .q128)
  | .qmul f => .A f .s4 .s4 .none .d4 false (f.ty == .q128)
  | .qdiv f => .A f .s4 .s4 .none .d4 false (f.ty == .q128)
  | .qinv f => .A f .s4 .none .none .d4 false (f.ty == .q128)
  | .qneg f => .A f .s4 .none .none .d4 false (f.ty == .q128)
  | .qeq f => .A f .s4 .s4 .none .d1 false (f.ty == .q128)
  -- memory (R117, R168)
  | .ld f =>
    let n := cntOf f.cnt * f.ty.words
    .M f (.dst n f.ty.words) .s2 .s1 (f.cnt != 3 && !f.feData && spanOk f.d.toNat n (f.cnt == 0) && preOk ordLd f.pre)
  | .st f =>
    let n := cntOf f.cnt * f.ty.words
    .M f (.src n f.ty.words) .s2 .s1 (f.cnt != 3 && spanOk f.d.toNat n (f.cnt == 0) && preOk ordSt f.pre)
  | .pref f => .M f .none .s2 .s1 (f.cnt == 0 && preOk ordPlain f.pre)
  | .ptog f => .M f .d2 .s2 .s1 (f.cnt == 0 && !f.feData && f.pre == none)
  | .ldx f => .X f .s2 .s1 .s1 .none (f.ty == .b32 && f.fn.toNat ≤ 8 && preOk ordPlain f.pre)
  | .fence f => .M f .none .none .none (f.ty == .b32 && f.gap == 0 && f.cnt == 0 && f.off == 0)
  | .waitv f =>
    .M f (.s f.ty) .s2 .s1 ((f.ty.isInt3264 || (f.ty == .b32 && f.cnt.toNat < 2)) && preOk ordWaitv f.pre)
  | .publish f => .M f (.hdst 2) .s2 .none (f.ty == .n64 && f.cnt == 0 && preOk ordPublish f.pre)
  | .atomAdd f => formAtom f f.ty.isInt3264 f.ty.words
  | .atomSub f => formAtom f f.ty.isInt3264 f.ty.words
  | .atomMin f => formAtom f f.ty.isInt3264 f.ty.words
  | .atomMax f => formAtom f f.ty.isInt3264 f.ty.words
  | .atomAnd f => formAtom f (f.ty.isInt3264 || f.ty == .b32) f.ty.words
  | .atomOr f => formAtom f (f.ty.isInt3264 || f.ty == .b32) f.ty.words
  | .atomXor f => formAtom f (f.ty.isInt3264 || f.ty == .b32) f.ty.words
  | .atomExch f => formAtom f (f.ty.isInt3264 || f.ty == .b32) f.ty.words
  | .atomCas f => formAtom f (f.ty.isInt3264 || f.ty == .b32) (2 * f.ty.words)
  | .atomFadd f => formAtom f f.ty.isWideFloat f.ty.words
  | .atomFmin f => formAtom f f.ty.isWideFloat f.ty.words
  | .atomFmax f => formAtom f f.ty.isWideFloat f.ty.words
  -- cross-lane and groups (R168, R179 to R191)
  | .shfl f => .X f (.s f.ty) .s1 .lit (.w f.ty) ((f.ty.isBits || f.ty.isFloat) && f.fn.toNat < 4 && f.c.toNat < 8)
  | .xred f =>
    if bit f.fn.toNat 3 then
      .X f .none .none .lit .d1 (f.ty == .n32 && (f.fn.toNat % 8 == 3 || f.fn.toNat % 8 == 4) && f.c.toNat < 8)
    else .X f (.s f.ty) .none .lit (.w f.ty) (redOk f.ty f.fn.toNat f.c.toNat)
  | .scan f => .X f (.s f.ty) .none .lit (.w f.ty) (redOk f.ty f.fn.toNat f.c.toNat)
  | .vote f =>
    .X f (if bit f.fn.toNat 3 then .none else .s1) .none .lit (.w f.ty)
      ((f.ty == .n32 || (f.ty == .n64 && f.fn.toNat % 4 == 2)) && !bit f.fn.toNat 2 &&
        f.c.toNat < 256 && (bit f.fn.toNat 3 || f.c.toNat < 8))
  | .gnew f => .X f .s1 .s1 .none (.hdst 1) (f.ty == .b32 && f.fn == 0)
  | .join f => .X f .s1 .none .none (.hdst 1) (f.ty == .b32 && f.fn == 0)
  | .leave f => .X f .s1 .none .none .none (f.ty == .b32 && f.fn == 0)
  | .gbar f => .X f .none .none .lit .none (f.ty == .b32 && f.fn == 0 && f.c.toNat < 4)
  | .grank f => .X f .none .none .lit .d1 (f.ty == .b32 && f.fn == 0 && f.c.toNat < 4)
  | .gsize f => .X f .none .none .lit .d1 (f.ty == .b32 && f.fn == 0 && f.c.toNat < 4)
  | .gset f =>
    .X f (.s f.ty) .none .none .lit ((f.ty == .b32 || f.ty.isInt3264 || f.ty.isWideFloat) && f.fn == 0 &&
      f.d.toNat ≤ 383 && f.d.toNat % f.ty.words == 0)
  -- cluster (R249)
  | .mma f => .E f .s1 .s1 .s1 .none (mmaFmt f.fmt && f.fn == 0)
  | .mzero f => .E f .none .none .none .none (f.fmt == .b32 && f.fn == 0)
  | .mlda f => .E f .s1 .none .none .none (f.fmt.isWideFloat && f.fn == 0)
  | .msta f => .E f .s1 .s1 .none .none (f.fmt.isWideFloat && f.fn == 0)
  | .mdrn f => .E f .s1 .none .s1 .none ((f.fmt.isWideFloat || f.fmt == .i8) && f.fn == 0)
  | .cpygo f => .E f .s1 .s1 .none .none (eOk f)
  | .cpyw f => .E f .s1 .s1 .none .d1 (eOk f)
  | .binit f => .E f .s1 .s1 .s2 .none (eOk f)
  | .barv f => .E f .s1 .none .none (.hdst 1) (eOk f)
  | .bwait f => .E f .s1 .s1 .none .none (eOk f)
  | .btest f => .E f .s1 .s1 .none .d1 (eOk f)
  | .flinit f => .E f .s1 .s1 .s1 .none (eOk f)
  | .flacq f => .E f .s1 .none .none .d1 (eOk f)
  | .flrel f => .E f .s1 .s1 .none .none (eOk f)
  | .bundleFormation .. | .promotion .. | .traceFetch .. | .commit .. | .postedLoadFill .. | .deferredFault ..
  | .pageWalkComplete .. | .priResponse .. | .storeBlockDrain .. | .waitvTimeoutCheck .. | .replayCheck ..
  | .syncPacket .. | .pcSample .. | .hangEvent .. | .barrierObjectHang .. | .tileStep .. | .drainComplete ..
  | .copyCommandStart .. | .copyCommandComplete .. | .haloStart .. | .flumeSlotWrite .. | .ldxTransferComplete ..
  | .mailboxSignal .. | .swapOut .. | .groupRestore .. | .sliceBoundary .. | .stopRequest .. | .submission ..
  | .breuzTranslation .. | .nodeStart .. | .threadCreate .. | .nodeRunEnd .. | .patrolScrub .. | .reencryption ..
  | .create .. | .destroy .. | .inval .. | .race .. | .peer .. | .debug .. | .debugResume .. | .debugResumeOneTimePass ..
  | .slotStep .. | .debugAbandon .. | .image .. | .install .. | .start .. | .log | .powerOnStart .. | .heartbeat ..
  | .heartbeatMiss | .thermalTrip | .throttle .. | .getVersion .. | .getCapabilities .. | .negotiateAlgorithms ..
  | .getDigests .. | .getCertificate .. | .challenge .. | .getMeasurements .. | .hostPostedWrite .. | .bar2Read ..
  | .bar2Write .. | .bar2Atomic .. | .flitReceive .. | .nakReplay .. | .ackTimeout .. | .laneLoss .. | .peerRequest ..
  | .registerWrite .. | .debugHalt .. | .hingeFill .. | .storePerformedAtHome .. | .roundBoundary .. | .powerGating ..
  | .coreReset .. | .healthMonitorUpdate .. | .tdispRequest .. => .event

/-- A slot instruction, as against a hardware, scheduler, host or fabric step. -/
def isSlot (i : Instr) : Bool :=
  match formOf i with
  | .event => false
  | _ => true

/-- A field fits what it is to its instruction (R10, R65): `fe`, `kp` and `us` say whether those bits refer to it. -/
def fieldOk (k : OpK) (code : Nat) (fe kp us : Bool) (gMax : Nat := 2) : Bool :=
  match k with
  | .none => code == 0 && !fe && !kp && !us
  | .lit => !fe && !kp && !us
  | .src _ al => code % al == 0 && (!us || (code ≤ 383 && al ≤ gMax))
  | .dst _ al => code % al == 0 && !fe && !kp && !us
  | .hdst w => code % w == 0 && code ≤ 1015 && !fe && !kp && !us

/-- R65 for a word whose fields have been read: every field holds a code that its entry accepts. -/
def formOk : Form → Bool
  | .A f a b c d rounds ok =>
    ok && (rounds || f.rm == .rne) &&
    fieldOk a f.a.toNat f.feA (f.kp == 1) (f.us == 1) && fieldOk b f.b.toNat f.feB (f.kp == 2) (f.us == 2) &&
    fieldOk c f.c.toNat f.feC (f.kp == 3) (f.us == 3) && fieldOk d f.d.toNat false false false
  | .I f a d ok =>
    ok && f.rm == .rne && f.kp.toNat < 2 &&
    fieldOk a f.a.toNat f.feA (f.kp == 1) f.usA && fieldOk d f.d.toNat false false false
  | .G f a b ok =>
    ok && fieldOk a f.a.toNat f.feA false false && fieldOk b f.b.toNat f.feB false f.usB 4
  | .M f d base index ok =>
    ok && fieldOk d f.d.toNat false false false &&
    fieldOk base f.base.toNat (match base with | .src .. => false | _ => f.feAddr) false false &&
    fieldOk index f.index.toNat false false false &&
    -- fe(data) refers to d, or to the data of an atomic in the index field (R171)
    (match d, index with | .hdst _, .src .. => true | .src .., _ => true | _, _ => !f.feData)
  | .X f a b c d ok =>
    ok && fieldOk a f.a.toNat f.feA false false && fieldOk b f.b.toNat f.feB false false &&
    fieldOk c f.c.toNat false false false && fieldOk d f.d.toNat false false false
  | .E f a b c d ok =>
    ok && fieldOk a f.a.toNat f.feA false false && fieldOk b f.b.toNat f.feB false false &&
    fieldOk c f.c.toNat false false false && fieldOk d f.d.toNat false false false
  | .S f a d ok =>
    ok && fieldOk a f.a.toNat false false false && fieldOk d f.d.toNat false false false
  | .event => true

/-- The P word stands only before an instruction that takes one (R61). -/
def prefixOk : Instr → Bool
  | .ldx _ => true
  | .shfl f | .xred f | .scan f | .vote f | .gnew f | .join f | .leave f | .gbar f | .grank f | .gsize f | .gset f =>
    f.pre == none
  | _ => true

/-- Whether an instruction word is one that its entry accepts (R65). -/
def wfBool (i : Instr) : Bool := formOk (formOf i) && prefixOk i

/-- A register source (R10, R11): code, registers, fe bit, g register, operand number as a fault record names it (R202). -/
structure Src where
  code : Nat
  words : Nat
  fe : Bool
  us : Bool
  opnd : Nat
deriving DecidableEq, Repr

/-- A register destination: code and registers. -/
structure Dst where
  code : Nat
  words : Nat
deriving DecidableEq, Repr

def srcIf (k : OpK) (code : Nat) (fe us : Bool) (opnd : Nat) : List Src :=
  match k with
  | .src w _ => [⟨code, w, fe, us, opnd⟩]
  | _ => []

def dstIf (k : OpK) (code : Nat) : List Dst :=
  match k with
  | .dst w _ => [⟨code, w⟩]
  | .hdst w => [⟨code, w⟩]
  | _ => []

/-- The register sources in the order a slot reads them: fields a, b, c; base and index before data (R118, R171). -/
def srcsOf (i : Instr) : List Src :=
  match formOf i with
  | .A f a b c _ _ _ =>
    srcIf a f.a.toNat f.feA (f.us == 1) 0 ++ srcIf b f.b.toNat f.feB (f.us == 2) 1 ++ srcIf c f.c.toNat f.feC (f.us == 3) 2
  | .I f a _ _ => srcIf a f.a.toNat f.feA f.usA 0
  | .G f a b _ => srcIf a f.a.toNat f.feA false 0 ++ srcIf b f.b.toNat f.feB f.usB 1
  | .M f d base index _ =>
    let dataFe := match d with | .hdst _ => f.feData | _ => f.feAddr
    srcIf base f.base.toNat f.feAddr false 3 ++ srcIf index f.index.toNat dataFe false 1 ++
      srcIf d f.d.toNat f.feData false 3
  | .X f a b c _ _ =>
    srcIf a f.a.toNat f.feA false 0 ++ srcIf b f.b.toNat f.feB false 1 ++ srcIf c f.c.toNat false false 2
  | .E f a b c _ _ =>
    srcIf a f.a.toNat f.feA false 0 ++ srcIf b f.b.toNat f.feB false 1 ++ srcIf c f.c.toNat false false 2
  | .S f a _ _ => srcIf a f.a.toNat false false 0
  | .event => []

/-- The register destinations. -/
def dstsOf (i : Instr) : List Dst :=
  match formOf i with
  | .A f _ _ _ d _ _ => dstIf d f.d.toNat
  | .I f _ d _ => dstIf d f.d.toNat
  | .G .. => []
  | .M f d _ _ _ => dstIf d f.d.toNat
  | .X f _ _ _ d _ => dstIf d f.d.toNat
  | .E f _ _ _ d _ => dstIf d f.d.toNat
  | .S f _ d _ => dstIf d f.d.toNat
  | .event => []

/-- Registers named but not read: GFULL's a (R116) and the span of WAITF (R129), for the register-range check and the
temporaries-used check. -/
def namedOf : Instr → List Dst
  | .gfull f => [⟨f.a.toNat, 1⟩]
  | .waitf f => [⟨f.d.toNat, f.imm.toNat⟩]
  | _ => []

/-- The hinge instructions (R64 class H). -/
def isHinge : Instr → Bool
  | .trap _ | .launch _ | .fence _ | .waitv _ | .publish _ | .atomAdd _ | .atomSub _ | .atomMin _ | .atomMax _ | .atomAnd _
  | .atomOr _ | .atomXor _ | .atomExch _ | .atomCas _ | .atomFadd _ | .atomFmin _ | .atomFmax _ | .gnew _ | .join _
  | .leave _ | .gbar _ | .cpygo _ | .barv _ => true
  | _ => false

/-- The instructions that stand only in a gather trace (R64 class Ga). -/
def needsGather : Instr → Bool
  | .shfl _ | .xred _ | .scan _ | .vote _ | .mma _ => true
  | _ => false

/-- Pond entries of an instruction (R64 class P). -/
def pondOf : Instr → Nat
  | .st f => ceilDiv (cntOf f.cnt * f.ty.bytes) 16
  | .ldx _ | .mma _ | .mzero _ | .mlda _ | .msta _ | .mdrn _ | .binit _ | .flinit _ | .flrel _ => 1
  | _ => 0

end Machine

end Sys2Proof
end

