-- ==== Sys2Proof/Machine/Flags.lean ====
section
/-! DEFINITION. The five sticky flags (R12) and how a slot raises, reads and clears them (R43, R104, R105). -/

namespace Sys2Proof.Machine

open Sys2Proof

/-- A set of flags in the layout of R12. -/
abbrev Flags := BitVec 5

def flIV : Flags := 0x10
def flDZ : Flags := 0x08
def flOF : Flags := 0x04
def flUF : Flags := 0x02
def flNX : Flags := 0x01

/-- A flag when a condition holds. -/
def flagIf (c : Bool) (f : Flags) : Flags := if c then f else 0

/-- The flags that a trace sees: FLG less what it has cleared, with what it has raised (R18, R104). -/
def flagsSeen (flg fclear tflags : Flags) : Flags := (flg &&& ~~~fclear) ||| tflags

/-- FLG after the commit of a trace (R21 step 3, R105). -/
def flagsCommit (flg fclear tflags : Flags) : Flags := flagsSeen flg fclear tflags

/-- The pending flags and pending clears after an FLGC with a mask (R105). -/
def flagsClear (fclear tflags mask : Flags) : Flags × Flags := (fclear ||| mask, tflags &&& ~~~mask)

end Sys2Proof.Machine
end

