-- ==== Sys2Proof/Machine/Float.lean ====
section
/-! DEFINITION. Binary floating point: the formats of R38, RoundTo (R41, R42), the flags (R43) and the exact arithmetic of
R96 to R102 and R106. An exact value is a signed rational; every result is a pair of the delivered bits and its flags. -/

namespace Sys2Proof.Machine

open Sys2Proof

/-- Precision with the leading bit (R38). -/
def fprec : Ty → Nat
  | .f64 => 53 | .f32 => 24 | .f16 => 11 | .bf16 => 8 | _ => 1

/-- Exponent bias (R38). -/
def fbias : Ty → Nat
  | .f64 => 1023 | .f32 => 127 | .f16 => 15 | .bf16 => 127 | _ => 0

/-- Exponent of the unit of the subnormals. -/
def fmin2 (t : Ty) : Int := 1 - (fbias t : Int) - ((fprec t : Int) - 1)

/-- The exponent field of infinities and NaNs. -/
def fexpMax (t : Ty) : Nat := 2 * fbias t + 1

/-- +∞ of a format. -/
def finf (t : Ty) : Nat := fexpMax t * 2 ^ (fprec t - 1)

/-- The largest finite value of a format. -/
def fmaxFin (t : Ty) : Nat := finf t - 1

/-- The sign bit of a format. -/
def fsign (t : Ty) : Nat := 2 ^ (t.width - 1)

/-- The canonical NaN (R38, R40). -/
def fnan (t : Ty) : Nat := finf t + 2 ^ (fprec t - 2)

/-- A bit pattern with the sign given. -/
def fsigned (t : Ty) (neg : Bool) (mag : Nat) : Nat := mag + (if neg then fsign t else 0)

/-- A value of a format. A finite one is (−1)^neg × m × 2^e. -/
inductive FV where
  | nan (signalling : Bool)
  | inf (neg : Bool)
  | fin (neg : Bool) (m : Nat) (e : Int)
deriving DecidableEq, Repr, Inhabited

/-- The value of a bit pattern (R38). -/
def fdec (t : Ty) (v : Nat) : FV :=
  let p := fprec t
  let neg := bit v (t.width - 1)
  let mag := v % fsign t
  let ex := mag / 2 ^ (p - 1)
  let fr := mag % 2 ^ (p - 1)
  if ex = fexpMax t then (if fr = 0 then .inf neg else .nan (fr < 2 ^ (p - 2)))
  else if ex = 0 then .fin neg fr (fmin2 t)
  else .fin neg (fr + 2 ^ (p - 1)) (fmin2 t + ex - 1)

def FV.isNan : FV → Bool
  | .nan _ => true
  | _ => false

def FV.isSNan : FV → Bool
  | .nan s => s
  | _ => false

def FV.isInf : FV → Bool
  | .inf _ => true
  | _ => false

def FV.isZero : FV → Bool
  | .fin _ 0 _ => true
  | _ => false

def FV.neg : FV → Bool
  | .nan _ => false
  | .inf n => n
  | .fin n _ _ => n

/-- An exact value: (−1)^neg × num / den, den positive; the sign tells zeros apart. -/
structure Ex where
  neg : Bool
  num : Nat
  den : Nat
deriving DecidableEq, Repr, Inhabited

/-- m × 2^e. -/
def exDyadic (neg : Bool) (m : Nat) (e : Int) : Ex :=
  if 0 ≤ e then ⟨neg, m * 2 ^ e.toNat, 1⟩ else ⟨neg, m, 2 ^ (-e).toNat⟩

/-- The exact value of a finite value; infinities and NaNs do not come here. -/
def FV.ex : FV → Ex
  | .fin n m e => exDyadic n m e
  | _ => ⟨false, 0, 1⟩

/-- The signed numerator. -/
def Ex.int (x : Ex) : Int := if x.neg then -(x.num : Int) else x.num

/-- An exact value of an integer numerator. -/
def exInt (n : Int) (den : Nat) : Ex := ⟨decide (n < 0), n.natAbs, den⟩

/-- The exact product; the sign is the exclusive-or of the signs (R96). -/
def Ex.mul (x y : Ex) : Ex := ⟨x.neg != y.neg, x.num * y.num, x.den * y.den⟩

/-- The exact quotient of non-zero values. -/
def Ex.div (x y : Ex) : Ex := ⟨x.neg != y.neg, x.num * y.den, x.den * y.num⟩

def Ex.opp (x : Ex) : Ex := { x with neg := !x.neg }

/-- The exact sum; an exact zero from opposite signs is −0 only in .rdn (R42). -/
def Ex.add (rm : Rm) (x y : Ex) : Ex :=
  let n := x.int * (y.den : Int) + y.int * (x.den : Int)
  if n = 0 then ⟨if x.neg = y.neg then x.neg else rm == .rdn, 0, 1⟩
  else exInt n (x.den * y.den)

/-- Whether the integer below a magnitude, k, moves up to k + 1, when r / d of a unit is left (R41). -/
def roundsUp (rm : Rm) (neg : Bool) (k r d : Nat) : Bool :=
  if r = 0 then false else
  match rm with
  | .rne => decide (d < 2 * r) || (decide (2 * r = d) && k % 2 == 1)
  | .rtz => false
  | .rup => !neg
  | .rdn => neg
  | .rna => decide (d ≤ 2 * r)
  | .rod => k % 2 == 0

/-- floor(log2 (num / den)) of a positive rational. -/
def floorLog2 (num den : Nat) : Int :=
  let l : Int := (Nat.log2 num : Int) - (Nat.log2 den : Int)
  if (if 0 ≤ l then den * 2 ^ l.toNat ≤ num else den ≤ num * 2 ^ (-l).toNat) then l else l - 1

/-- num / den / 2^u as a quotient of naturals. -/
def scaleBy (num den : Nat) (u : Int) : Nat × Nat :=
  if 0 ≤ u then (num, den * 2 ^ u.toNat) else (num * 2 ^ (-u).toNat, den)

/-- The magnitude rounded to a multiple of 2^u, as the multiple, and whether it is exact. -/
def roundAt (rm : Rm) (x : Ex) (u : Int) : Nat × Bool :=
  let (n, d) := scaleBy x.num x.den u
  let k := n / d
  let r := n % d
  (if roundsUp rm x.neg k r d then k + 1 else k, decide (r = 0))

/-- The unit in the last place of an exact value with the exponent range unbounded. -/
def ulpExp (t : Ty) (x : Ex) : Int := floorLog2 x.num x.den - ((fprec t : Int) - 1)

/-- What an overflow delivers (R42). -/
def overflowTo (t : Ty) (rm : Rm) (neg : Bool) : Nat :=
  let big := match rm with
    | .rne | .rna => true
    | .rtz | .rod => false
    | .rup => !neg
    | .rdn => neg
  fsigned t neg (if big then finf t else fmaxFin t)

/-- A result is tiny when, rounded with unbounded exponent range, it lies below the smallest normal (R42). -/
def isTiny (t : Ty) (rm : Rm) (x : Ex) : Bool :=
  let u := ulpExp t x
  let k := (roundAt rm x u).1
  let minU := fmin2 t
  -- k × 2^u < 2^(minU + p - 1)
  decide (u < minU) && decide (k < 2 ^ ((minU - u).toNat + (fprec t - 1)))

/-- RoundTo (R41, R42): the delivered bits and the flags NX, UF and OF. -/
def roundTo (t : Ty) (rm : Rm) (x : Ex) : Nat × Flags :=
  if x.num = 0 then (fsigned t x.neg 0, 0) else
  let u := max (ulpExp t x) (fmin2 t)
  let (k, exact) := roundAt rm x u
  let mag := (u - fmin2 t).toNat * 2 ^ (fprec t - 1) + k
  if finf t ≤ mag then (overflowTo t rm x.neg, flOF ||| flNX)
  else (fsigned t x.neg mag, flagIf (!exact) flNX ||| flagIf (!exact && isTiny t rm x) flUF)

/-- The flag of reading values arithmetically: IV when one of them is a signalling NaN (R40). -/
def snanFlag (l : List FV) : Flags := flagIf (l.any FV.isSNan) flIV

/-- FADD (R96). -/
def fAdd (t : Ty) (rm : Rm) (a b : FV) : Nat × Flags :=
  if a.isNan || b.isNan then (fnan t, snanFlag [a, b])
  else match a, b with
    | .inf n, .inf m => if n = m then (fsigned t n (finf t), 0) else (fnan t, flIV)
    | .inf n, _ => (fsigned t n (finf t), 0)
    | _, .inf m => (fsigned t m (finf t), 0)
    | x, y => roundTo t rm (x.ex.add rm y.ex)

/-- A value with its sign inverted. -/
def FV.opp : FV → FV
  | .nan s => .nan s
  | .inf n => .inf (!n)
  | .fin n m e => .fin (!n) m e

/-- FMUL (R96). -/
def fMul (t : Ty) (rm : Rm) (a b : FV) : Nat × Flags :=
  if a.isNan || b.isNan then (fnan t, snanFlag [a, b])
  else if a.isInf || b.isInf then
    if a.isZero || b.isZero then (fnan t, flIV) else (fsigned t (a.neg != b.neg) (finf t), 0)
  else roundTo t rm (a.ex.mul b.ex)

/-- FMA (R96): a × b + c, rounded once; 0 × ∞ raises IV beside a NaN c. -/
def fFma (t : Ty) (rm : Rm) (a b c : FV) : Nat × Flags :=
  let zi := (a.isZero && b.isInf) || (a.isInf && b.isZero)
  if a.isNan || b.isNan || c.isNan then (fnan t, snanFlag [a, b, c] ||| flagIf zi flIV)
  else if zi then (fnan t, flIV)
  else if a.isInf || b.isInf then
    let n := a.neg != b.neg
    match c with
    | .inf m => if n = m then (fsigned t n (finf t), 0) else (fnan t, flIV)
    | _ => (fsigned t n (finf t), 0)
  else match c with
    | .inf m => (fsigned t m (finf t), 0)
    | _ => roundTo t rm ((a.ex.mul b.ex).add rm c.ex)

/-- The order of two values that are no NaN: less, equal, greater, with −0 = +0. -/
def fOrd (a b : FV) : Ordering :=
  match a, b with
  | .inf n, .inf m => if n = m then .eq else if n then .lt else .gt
  | .inf n, _ => if n then .lt else .gt
  | _, .inf m => if m then .gt else .lt
  | x, y =>
    let l := x.ex.int * (y.ex.den : Int)
    let r := y.ex.int * (x.ex.den : Int)
    if l < r then .lt else if l = r then .eq else .gt

/-- The ordering that minima and maxima use: −0 below +0 (R97). -/
def fBelow (a b : FV) : Bool :=
  match fOrd a b with
  | .lt => true
  | .eq => a.neg && !b.neg
  | .gt => false

/-- FMIN and FMAX (R97). -/
def fMinMax (t : Ty) (isMax : Bool) (x y : Nat) : Nat × Flags :=
  let a := fdec t x
  let b := fdec t y
  let fl := snanFlag [a, b]
  if a.isNan && b.isNan then (fnan t, fl)
  else if a.isNan then (y, fl)
  else if b.isNan then (x, fl)
  else if isMax then (if fBelow a b then y else x, fl)
  else (if fBelow b a then y else x, fl)

/-- Whether a condition holds of an order (R59). -/
def condHolds (c : Cond) (o : Ordering) : Bool :=
  match c, o with
  | .eq, .eq | .le, .eq | .ge, .eq | .ne, .lt | .ne, .gt | .lt, .lt | .le, .lt | .gt, .gt | .ge, .gt => true
  | _, _ => false

/-- FCMP and the float guards (R99, R112): whether the condition holds, and IV. -/
def fCompare (c : Cond) (a b : FV) : Bool × Flags :=
  if a.isNan || b.isNan then
    (c == .ne, if Cond.isEqNe c then snanFlag [a, b] else flIV)
  else (condHolds c (fOrd a b), 0)

/-- FCLS (R100): the number of the class bit. -/
def fClass (t : Ty) (v : Nat) : Nat :=
  match fdec t v with
  | .nan s => if s then 0 else 1
  | .inf n => if n then 2 else 9
  | .fin n 0 _ => if n then 5 else 6
  | .fin n m _ => if m < 2 ^ (fprec t - 1) then (if n then 4 else 7) else (if n then 3 else 8)

/-- An exact value rounded to an integer (R101): the magnitude and whether it is exact. -/
def roundInt (rm : Rm) (x : Ex) : Nat × Bool := roundAt rm x 0

/-- FRND (R101). -/
def fRnd (t : Ty) (rm : Rm) (v : Nat) : Nat × Flags :=
  match fdec t v with
  | .nan s => (fnan t, flagIf s flIV)
  | .inf _ => (v, 0)
  | .fin _ 0 _ => (v, 0)
  | .fin n m e =>
    let (k, exact) := roundInt rm (exDyadic n m e)
    ((roundTo t rm ⟨n, k, 1⟩).1, flagIf (!exact) flNX)

/-- FDIV (R102). -/
def fDiv (t : Ty) (rm : Rm) (a b : FV) : Nat × Flags :=
  let n := a.neg != b.neg
  if a.isNan || b.isNan then (fnan t, snanFlag [a, b])
  else if (a.isInf && b.isInf) || (a.isZero && b.isZero) then (fnan t, flIV)
  else if a.isInf then (fsigned t n (finf t), 0)
  else if b.isInf then (fsigned t n 0, 0)
  else if b.isZero then (fsigned t n (finf t), flDZ)
  else roundTo t rm (a.ex.div b.ex)

/-- The integer square root, found bit by bit from bit `k - 1` down. -/
def isqrtFrom (n : Nat) : Nat → Nat → Nat
  | 0, r => r
  | k + 1, r => let r' := r + 2 ^ k; isqrtFrom n k (if r' * r' ≤ n then r' else r)

/-- The integer square root. -/
def isqrt (n : Nat) : Nat := isqrtFrom n (Nat.log2 n / 2 + 1) 0

/-- The square root of m × 2^e, m positive, to `extra` bits and a sticky bit below them, so that it rounds as the exact root. -/
def exSqrt (m : Nat) (e : Int) (extra : Nat) : Ex :=
  let (m, e) := if e % 2 = 0 then (m, e) else (2 * m, e - 1)
  let n := m * 2 ^ (2 * extra)
  let r := isqrt n
  exDyadic false (2 * r + (if r * r = n then 0 else 1)) (e / 2 - extra - 1)

/-- FSQRT (R102). -/
def fSqrt (t : Ty) (rm : Rm) (a : FV) : Nat × Flags :=
  match a with
  | .nan s => (fnan t, flagIf s flIV)
  | .inf n => if n then (fnan t, flIV) else (finf t, 0)
  | .fin n 0 _ => (fsigned t n 0, 0)
  | .fin n m e => if n then (fnan t, flIV) else roundTo t rm (exSqrt m e 64)

/-- Float to float (R106): the same type and wider types are exact; the others round. -/
def cvtFF (s d : Ty) (rm : Rm) (v : Nat) : Nat × Flags :=
  match fdec s v with
  | .nan sg => (fnan d, flagIf sg flIV)
  | .inf n => (fsigned d n (finf d), 0)
  | x => roundTo d rm x.ex

/-- The range of an integer type. -/
def intMin (t : Ty) : Int := if t.isI then -(2 ^ (t.width - 1) : Nat) else 0
def intMax (t : Ty) : Int := if t.isI then (2 ^ (t.width - 1) : Nat) - 1 else (2 ^ t.width : Nat) - 1

/-- The low bits of a value as the integer its type denotes (R37). -/
def intOf (t : Ty) (v : Nat) : Int := if t.isI then signed t.width v else (v % 2 ^ t.width : Nat)

/-- Clamps an integer to the range of a type (R24 SatTo). -/
def satTo (t : Ty) (x : Int) : Int := max (intMin t) (min (intMax t) x)

/-- Integer to float (R106). -/
def cvtIF (s d : Ty) (rm : Rm) (v : Nat) : Nat × Flags := roundTo d rm (exInt (intOf s v) 1)

/-- Float to integer (R43, R106). -/
def cvtFI (s d : Ty) (rm : Rm) (v : Nat) : Nat × Flags :=
  match fdec s v with
  | .nan _ => (0, flIV)
  | .inf n => (wrap d.width (if n then intMin d else intMax d), flIV)
  | x =>
    let (k, exact) := roundInt rm x.ex
    let n : Int := if x.neg then -(k : Int) else k
    if n < intMin d || intMax d < n then (wrap d.width (satTo d n), flIV)
    else (wrap d.width n, flagIf (!exact) flNX)

/-- CVT (R106). -/
def cvt (s d : Ty) (rm : Rm) (v : Nat) : Nat × Flags :=
  if s.isFloat then (if d.isFloat then cvtFF s d rm v else cvtFI s d rm v) else cvtIF s d rm v

/-! KD8 (R44 to R47) -/

/-- What a KD8 code denotes. -/
inductive Kd where
  | zero | nav | sat (neg : Bool) | num (neg : Bool) (units : Nat)
deriving DecidableEq, Repr, Inhabited

/-- The decimal exponents of each group of bodies, plus 14 (R44). -/
def kdExp (k x : Nat) : Nat :=
  match k with
  | 0 => 13 + x
  | 1 => if x < 2 then 11 + x else 13 + x
  | 2 => if x < 4 then 7 + x else 13 + x
  | 3 => if x < 4 then 3 + x else 17 + x
  | 4 => if x < 2 then 1 + x else 23 + x
  | _ => if x = 0 then 0 else 27

/-- A body of group k has its marker at bit 6 − k; x and y are as wide as R44 says. -/
def kdParts (body : Nat) : Nat × Nat × Nat × Nat :=
  if 64 ≤ body then (0, bits body 5 1, bits body 0 5, 5)
  else if 32 ≤ body then (1, bits body 3 2, bits body 0 3, 3)
  else if 16 ≤ body then (2, bits body 1 3, bits body 0 1, 1)
  else if 8 ≤ body then (3, bits body 0 3, 0, 0)
  else if 4 ≤ body then (4, bits body 0 2, 0, 0)
  else (5, bits body 0 1, 0, 0)

/-- The magnitude of a finite body in units of 10^−14 / 32 (R44): the zero body has magnitude 0. -/
def kdUnits (body : Nat) : Nat :=
  if body = 0 then 0 else
  let (k, x, y, f) := kdParts body
  (32 + 9 * y * 2 ^ (5 - f)) * 10 ^ kdExp k x

/-- The value of a code (R44). -/
def kdDec (code : Nat) : Kd :=
  let body := code % 128
  let neg := bit code 7
  if body = 0 then (if neg then .nav else .zero)
  else if body = 1 then .sat neg
  else .num neg (kdUnits body)

/-- units × 10^s / (32 × 10^14), exact. -/
def kdEx (neg : Bool) (units : Nat) (s : Int) : Ex :=
  if 0 ≤ s then ⟨neg, units * 10 ^ s.toNat, 32 * 10 ^ 14⟩ else ⟨neg, units, 32 * 10 ^ 14 * 10 ^ (-s).toNat⟩

/-- Decoding an element with its block scale to a format (R46, R109). -/
def kdTo (t : Ty) (rm : Rm) (code : Nat) (s : Int) : Nat × Flags :=
  if s = -128 then (0, 0) else
  match kdDec code with
  | .zero => (0, 0)
  | .sat n => (fsigned t n (finf t), 0)
  | .nav => (fnan t, 0)
  | .num n u => roundTo t rm (kdEx n u s)

/-- |x| / 10^s in KD8 units, as a quotient. -/
def kdScaled (x : Ex) (s : Int) : Nat × Nat :=
  if 0 ≤ s then (x.num * 32 * 10 ^ 14, x.den * 10 ^ s.toNat) else (x.num * 32 * 10 ^ 14 * 10 ^ (-s).toNat, x.den)

/-- |x| / 10^s > 10^13, which saturates (R47). -/
def kdSaturates (x : Ex) (s : Int) : Bool :=
  let (n, d) := kdScaled x s
  decide (d * (32 * 10 ^ 27) < n)

/-- The distance of n / d from w, times d. -/
def kdDist (n d w : Nat) : Nat := max n (d * w) - min n (d * w)

/-- The better of two bodies for n / d: nearer, then bit 0 clear, then smaller (R47). -/
def kdBetter (n d b1 b2 : Nat) : Nat :=
  let d1 := kdDist n d (kdUnits b1)
  let d2 := kdDist n d (kdUnits b2)
  if d1 < d2 then b1
  else if d2 < d1 then b2
  else if b1 % 2 < b2 % 2 then b1
  else if b2 % 2 < b1 % 2 then b2
  else if kdUnits b1 ≤ kdUnits b2 then b1 else b2

/-- KdNearest (R47): the code nearest x / 10^s, and whether it denotes it exactly. -/
def kdNearest (x : Ex) (s : Int) : Nat × Bool :=
  let (n, d) := kdScaled x s
  let body := (upFrom 2 126).foldl (kdBetter n d) 0
  (if body = 0 then 0 else body + (if x.neg then 128 else 0), decide (n = d * kdUnits body))

/-- One element quantised at scale s (R47, R107): code, flags, whether it saturated. -/
def kdElem (v : FV) (s : Int) : Nat × Flags × Bool :=
  match v with
  | .nan _ => (0x80, flIV, false)
  | .inf n => (if n then 0x81 else 0x01, 0, false)
  | x =>
    if kdSaturates x.ex s then (if x.neg then 0x81 else 0x01, flNX, true)
    else
      let (c, exact) := kdNearest x.ex s
      (c, flagIf (!exact) flNX ||| flagIf (!x.isZero && c == 0) flUF, false)

/-- The scale that R47's retries reach for a block of a largest finite magnitude. -/
def kdScaleFrom (sat : Int → Bool) : Nat → Int → Int
  | 0, s => s
  | n + 1, s => if sat s && s < 127 then kdScaleFrom sat n (s + 1) else s

/-- QuantiseBlock (R47): codes, scale, flags. -/
def quantiseBlock (v : List FV) (s0 : Int) : List Nat × Int × Flags :=
  let satAt := fun s => v.any fun x => match x with
    | .fin .. => kdSaturates x.ex s
    | _ => false
  let s := kdScaleFrom satAt 3 s0
  let es := v.map (kdElem · s)
  (es.map (·.1), s, (es.foldl (fun f e => f ||| e.2.1) 0) ||| flagIf (es.any (·.2.2)) (flOF ||| flNX))

end Sys2Proof.Machine
end

