-- ==== Sys2Proof/WellFormed.lean ====
section
/-! DEFINITION. Well-formed instructions: a slot word whose every field its entry accepts (R65), and any event. -/

namespace Sys2Proof

/-- R65 for the fields of an instruction: none of them raises illegal-encoding. -/
abbrev Instr.WellFormed (i : Instr) : Prop := Machine.wfBool i = true

end Sys2Proof
end

