-- ==== Sys2Proof/Decode.lean ====
section
/-! DEFINITION. Decoding slot words (R56 to R65), and encoding them from the same layouts. A word is a number below 2^64. -/

namespace Sys2Proof

open Machine

/-- Why a slot word is no instruction (R65). -/
inductive DecodeError where
  /-- the opcode byte is unassigned, or a structure word's (R64) -/
  | unassigned
  /-- a reserved field is non-zero -/
  | reserved
  /-- a ty, rm, cond or P field holds a code that is not listed -/
  | code
  /-- a sub-operation that the entry does not have -/
  | subOperation
  /-- the entry does not accept the word's fields -/
  | notAccepted
  /-- a P word before a word that takes none, or with an ordering it does not accept (R61) -/
  | memoryPrefix
deriving DecidableEq, Repr, Inhabited

/-- Splits a number into fields of the given widths, lowest first. -/
def splitFields : List Nat → Nat → List Nat
  | [], _ => []
  | n :: t, w => w % 2 ^ n :: splitFields t (w / 2 ^ n)

/-- Puts fields together, lowest first. -/
def packFields : List (Nat × Nat) → Nat
  | [] => 0
  | (n, v) :: t => v % 2 ^ n + 2 ^ n * packFields t

/-- The opcode byte of a word (R56). -/
def opcodeOf (w : Nat) : Nat := bits w 56 8

def widthsA : List Nat := [10, 10, 10, 10, 2, 1, 1, 1, 2, 2, 3, 4]
def widthsI : List Nat := [20, 10, 10, 3, 1, 1, 2, 2, 3, 4]
def widthsG : List Nat := [24, 10, 10, 1, 1, 1, 1, 4, 4]
def widthsM : List Nat := [16, 10, 10, 10, 2, 1, 1, 2, 4]
def widthsX : List Nat := [10, 10, 10, 10, 4, 1, 1, 2, 4, 4]
def widthsS : List Nat := [20, 10, 10, 4, 12]
def widthsP : List Nat := [42, 2, 3, 3, 3, 3]

/-- Format A of R57. -/
def getA (w : Nat) : Except DecodeError FA :=
  match splitFields widthsA w with
  | [c, b, a, d, us, fc, fb, fa, gap, kp, rm, ty] =>
    match Ty.ofCode? ty, Rm.ofCode? rm with
    | some ty, some rm =>
      .ok { ty, rm, kp := .ofNat 2 kp, gap := .ofNat 2 gap, feA := fa == 1, feB := fb == 1, feC := fc == 1,
            us := .ofNat 2 us, d := .ofNat 10 d, a := .ofNat 10 a, b := .ofNat 10 b, c := .ofNat 10 c }
    | _, _ => .error .code
  | _ => .error .code

/-- Format I of R57. -/
def getI (w : Nat) : Except DecodeError FI :=
  match splitFields widthsI w with
  | [imm, a, d, res, us, fa, gap, kp, rm, ty] =>
    if res ≠ 0 then .error .reserved else
    match Ty.ofCode? ty, Rm.ofCode? rm with
    | some ty, some rm =>
      .ok { ty, rm, kp := .ofNat 2 kp, gap := .ofNat 2 gap, feA := fa == 1, usA := us == 1,
            d := .ofNat 10 d, a := .ofNat 10 a, imm := .ofNat 20 imm }
    | _, _ => .error .code
  | _ => .error .code

/-- Format G of R57 with its ib bit. -/
def getG (w : Nat) : Except DecodeError (Bool × FG) :=
  match splitFields widthsG w with
  | [alt, b, a, ib, us, fb, fa, cond, ty] =>
    match Ty.ofCode? ty, Cond.ofCode? cond with
    | some ty, some cond =>
      .ok (ib == 1, { ty, cond, feA := fa == 1, feB := fb == 1, usB := us == 1, a := .ofNat 10 a, b := .ofNat 10 b,
                      alt := .ofNat 24 alt })
    | _, _ => .error .code
  | _ => .error .code

/-- Format M of R57, with the P word before it and the offset that stepping adds (R30). -/
def getM (w : Nat) (pre : Option PWord) (extra : Int) : Except DecodeError FM :=
  match splitFields widthsM w with
  | [off, index, base, d, cnt, fd, fa, gap, ty] =>
    match Ty.ofCode? ty with
    | some ty =>
      .ok { ty, gap := .ofNat 2 gap, feAddr := fa == 1, feData := fd == 1, cnt := .ofNat 2 cnt, d := .ofNat 10 d,
            base := .ofNat 10 base, index := .ofNat 10 index, off := signed 16 off + extra, pre }
    | none => .error .code
  | _ => .error .code

/-- Format X of R57, with the P word before it. -/
def getX (w : Nat) (pre : Option PWord) : Except DecodeError FX :=
  match splitFields widthsX w with
  | [c, b, a, d, res, fb, fa, gap, fn, ty] =>
    if res ≠ 0 then .error .reserved else
    match Ty.ofCode? ty with
    | some ty =>
      .ok { ty, fn := .ofNat 4 fn, gap := .ofNat 2 gap, feA := fa == 1, feB := fb == 1, d := .ofNat 10 d,
            a := .ofNat 10 a, b := .ofNat 10 b, c := .ofNat 10 c, pre }
    | none => .error .code
  | _ => .error .code

/-- Format E of R57. -/
def getE (w : Nat) : Except DecodeError FE :=
  match splitFields widthsX w with
  | [c, b, a, d, acc, fb, fa, gap, fn, fmt] =>
    match Ty.ofCode? fmt with
    | some fmt =>
      .ok { fmt, fn := .ofNat 4 fn, gap := .ofNat 2 gap, feA := fa == 1, feB := fb == 1, acc := .ofNat 4 acc,
            d := .ofNat 10 d, a := .ofNat 10 a, b := .ofNat 10 b, c := .ofNat 10 c }
    | none => .error .code
  | _ => .error .code

/-- Format S of R57. -/
def getS (w : Nat) : Except DecodeError FS :=
  match splitFields widthsS w with
  | [imm, a, d, fn, csr] =>
    .ok { csr := .ofNat 12 csr, fn := .ofNat 4 fn, d := .ofNat 10 d, a := .ofNat 10 a, imm := .ofNat 20 imm }
  | _ => .error .code

/-- A P word (R57, R60): its reserved bits are zero and its codes are listed. -/
def decodeP (w : Nat) : Except DecodeError PWord :=
  if opcodeOf w ≠ 0xE4 then .error .unassigned else
  match splitFields widthsP w with
  | [res, race, cache, space, scope, ord] =>
    if res ≠ 0 then .error .reserved else
    match Ord.ofCode? ord, Scope.ofCode? scope, Space.ofCode? space, Cache.ofCode? cache, RaceAttr.ofCode? race with
    | some ord, some scope, some space, some cache, some race => .ok { ord, scope, space, cache, race }
    | _, _, _, _, _ => .error .code
  | _ => .error .code

/-- A word that has two spellings by its fn field. -/
def byFn (f : FS) (i0 i1 : FS → Instr) : Except DecodeError Instr :=
  if f.fn = 0 then .ok (i0 f) else if f.fn = 1 then .ok (i1 f) else .error .subOperation

/-- A guard that has no ib form (R111). -/
def noIb (i : FG → Instr) (p : Bool × FG) : Except DecodeError Instr :=
  if p.1 then .error .notAccepted else .ok (i p.2)

/-- The instruction of a word's fields (R64), before R65 asks whether its entry accepts them. -/
def decodeRaw (w : Nat) (pre : Option PWord) (extra : Int) : Except DecodeError Instr :=
  match opcodeOf w with
  | 0x00 => (getS w).map .nop
  | 0x01 => (getS w).map .trap
  | 0x02 => getS w >>= (byFn · .tretRe .tretSkip)
  | 0x03 => (getS w).map .csrr
  | 0x04 => getS w >>= (byFn · .csrw .csrwImm)
  | 0x05 => (getS w).map .fill
  | 0x06 => (getS w).map .void
  | 0x07 => (getS w).map .waitf
  | 0x08 => getS w >>= (byFn · .chkerr .chkerrAbort)
  | 0x09 => (getS w).map .prog
  | 0x0A => (getS w).map .yield
  | 0x0B => (getS w).map .launch
  | 0x10 => (getA w).map .iadd
  | 0x11 => (getA w).map .isub
  | 0x12 => (getA w).map .imul
  | 0x13 => (getA w).map .imulh
  | 0x14 => (getA w).map .imad
  | 0x15 => (getA w).map .imadw
  | 0x16 => (getA w).map .idiv
  | 0x17 => (getA w).map .irem
  | 0x18 => (getA w).map .ineg
  | 0x19 => (getA w).map .iabs
  | 0x1A => (getA w).map .imin
  | 0x1B => (getA w).map .imax
  | 0x1C => (getA w).map .iadds
  | 0x1D => (getA w).map .isubs
  | 0x1E => (getA w).map .and
  | 0x1F => (getA w).map .or
  | 0x20 => (getA w).map .xor
  | 0x21 => (getA w).map .andn
  | 0x22 => (getA w).map .lsl
  | 0x23 => (getA w).map .lsr
  | 0x24 => (getA w).map .asr
  | 0x25 => (getA w).map .rot
  | 0x26 => (getA w).map .bfx
  | 0x27 => (getA w).map .bfi
  | 0x28 => (getA w).map .popc
  | 0x29 => (getA w).map .clz
  | 0x2A => (getA w).map .ctz
  | 0x2B => (getA w).map .brev
  | 0x2C => (getA w).map .icmp
  | 0x2D => (getA w).map .sel
  | 0x2E => (getA w).map .mov
  | 0x2F => (getA w).map .lea
  | 0x30 => (getI w).map .iaddImm
  | 0x31 => (getI w).map .imulImm
  | 0x32 => (getI w).map .iminImm
  | 0x33 => (getI w).map .imaxImm
  | 0x34 => (getI w).map .andImm
  | 0x35 => (getI w).map .orImm
  | 0x36 => (getI w).map .xorImm
  | 0x37 => (getI w).map .bfxImm
  | 0x38 => (getI w).map .lslImm
  | 0x39 => (getI w).map .lsrImm
  | 0x3A => (getI w).map .asrImm
  | 0x3B => (getI w).map .rotImm
  | 0x3C => (getI w).map .icmpImm
  | 0x3D => (getI w).map .leaImm
  | 0x3E => (getI w).map .movi
  | 0x3F => (getI w).map .movh
  | 0x40 => (getA w).map .fadd
  | 0x41 => (getA w).map .fsub
  | 0x42 => (getA w).map .fmul
  | 0x43 => (getA w).map .fma
  | 0x44 => (getA w).map .fnma
  | 0x45 => (getA w).map .fmin
  | 0x46 => (getA w).map .fmax
  | 0x47 => (getA w).map .fabs
  | 0x48 => (getA w).map .fneg
  | 0x49 => (getA w).map .fcps
  | 0x4A => (getA w).map .fcmp
  | 0x4B => (getA w).map .fcls
  | 0x4C => (getA w).map .fdiv
  | 0x4D => (getA w).map .fsqrt
  | 0x4E => (getA w).map .frcp
  | 0x4F => (getA w).map .frsq
  | 0x50 => (getA w).map .fexp
  | 0x51 => (getA w).map .fexp2
  | 0x52 => (getA w).map .flog
  | 0x53 => (getA w).map .flog2
  | 0x54 => (getA w).map .fsin
  | 0x55 => (getA w).map .fcos
  | 0x56 => (getA w).map .ftanh
  | 0x57 => (getA w).map .fsigm
  | 0x58 => (getA w).map .ferf
  | 0x59 => (getA w).map .frnd
  | 0x5A => (getA w).map .flgr
  | 0x5B => (getI w).map .flgc
  | 0x70 => (getA w).map .cvt
  | 0x71 => (getA w).map .kdq
  | 0x72 => (getA w).map .kdx
  | 0x80 => (getG w).map fun p => if p.1 then .gcmpImm p.2 else .gcmp p.2
  | 0x81 => getG w >>= noIb .gz
  | 0x82 => getG w >>= noIb .gnz
  | 0x83 => getG w >>= noIb .grng
  | 0x84 => (getG w).map fun p => if p.1 then .gflgImm p.2 else .gflg p.2
  | 0x85 => getG w >>= noIb .gfull
  | 0x90 => (getA w).map .qenc
  | 0x91 => (getA w).map .qdec
  | 0x92 => (getA w).map .qadd
  | 0x93 => (getA w).map .qsub
  | 0x94 => (getA w).map .qmul
  | 0x95 => (getA w).map .qdiv
  | 0x96 => (getA w).map .qinv
  | 0x97 => (getA w).map .qneg
  | 0x98 => (getA w).map .qeq
  | 0xA0 => (getM w pre extra).map .ld
  | 0xA1 => (getM w pre extra).map .st
  | 0xA2 => (getM w pre extra).map .pref
  | 0xA3 => (getM w pre extra).map .ptog
  | 0xA4 => (getX w pre).map .ldx
  | 0xA5 => (getM w pre extra).map .fence
  | 0xA6 => (getM w pre extra).map .waitv
  | 0xA7 => (getM w pre extra).map .publish
  | 0xB0 => (getM w pre extra).map .atomAdd
  | 0xB1 => (getM w pre extra).map .atomSub
  | 0xB2 => (getM w pre extra).map .atomMin
  | 0xB3 => (getM w pre extra).map .atomMax
  | 0xB4 => (getM w pre extra).map .atomAnd
  | 0xB5 => (getM w pre extra).map .atomOr
  | 0xB6 => (getM w pre extra).map .atomXor
  | 0xB7 => (getM w pre extra).map .atomExch
  | 0xB8 => (getM w pre extra).map .atomCas
  | 0xB9 => (getM w pre extra).map .atomFadd
  | 0xBA => (getM w pre extra).map .atomFmin
  | 0xBB => (getM w pre extra).map .atomFmax
  | 0xC0 => (getX w pre).map .shfl
  | 0xC1 => (getX w pre).map .xred
  | 0xC2 => (getX w pre).map .scan
  | 0xC3 => (getX w pre).map .vote
  | 0xC4 => (getX w pre).map .gnew
  | 0xC5 => (getX w pre).map .join
  | 0xC6 => (getX w pre).map .leave
  | 0xC7 => (getX w pre).map .gbar
  | 0xC8 => (getX w pre).map .grank
  | 0xC9 => (getX w pre).map .gsize
  | 0xCA => (getX w pre).map .gset
  | 0xD0 => (getE w).map .mma
  | 0xD1 => (getE w).map .mzero
  | 0xD2 => (getE w).map .mlda
  | 0xD3 => (getE w).map .msta
  | 0xD4 => (getE w).map .mdrn
  | 0xD5 => (getE w).map .cpygo
  | 0xD6 => (getE w).map .cpyw
  | 0xD7 => (getE w).map .binit
  | 0xD8 => (getE w).map .barv
  | 0xD9 => (getE w).map .bwait
  | 0xDA => (getE w).map .btest
  | 0xDB => (getE w).map .flinit
  | 0xDC => (getE w).map .flacq
  | 0xDD => (getE w).map .flrel
  | _ => .error .unassigned

/-- The instruction of a slot word, stepped offset and P word included (R56 to R65), or the reason there is none. -/
def decodeSlot (w : Nat) (pre : Option PWord) (extra : Int) : Except DecodeError Instr :=
  match decodeRaw w pre extra with
  | .error e => .error e
  | .ok i => if wfBool i then .ok i else .error .notAccepted

/-- The instruction of a word that stands alone. -/
def decodeWord (w : Nat) : Except DecodeError Instr := decodeSlot w none 0

/-- A word is in format M or X (R64): the words that may follow a P word (R16). -/
def isMX (w : Nat) : Bool :=
  let op := opcodeOf w
  (0xA0 ≤ op && op ≤ 0xA7) || (0xB0 ≤ op && op ≤ 0xBB) || (0xC0 ≤ op && op ≤ 0xCA)

/-- The words before which a P word may stand and the orderings each accepts (R61 and the entries of the memory
instructions). -/
def ordsOf? (w : Nat) : Option (Ord → Bool) :=
  let op := opcodeOf w
  if op = 0xA0 then some ordLd
  else if op = 0xA1 then some ordSt
  else if op = 0xA2 || op = 0xA4 then some ordPlain
  else if op = 0xA5 then some ordAny
  else if op = 0xA6 then some ordWaitv
  else if op = 0xA7 then some ordPublish
  else if 0xB0 ≤ op && op ≤ 0xBB then some ordAny
  else none

/-- R61 for a P word and the word after it. -/
def decodePrefix (w next : Nat) : Except DecodeError PWord :=
  match decodeP w with
  | .error e => .error e
  | .ok p =>
    match ordsOf? next with
    | some acc => if acc p.ord then .ok p else .error .memoryPrefix
    | none => .error .memoryPrefix

/-- The words of an instruction: one word, or a P word and the word it stands before. -/
def decodeWords : List Nat → Except DecodeError Instr
  | [w] => decodeWord w
  | [p, w] =>
    match decodePrefix p w with
    | .error e => .error e
    | .ok pre => decodeSlot w (some pre) 0
  | _ => .error .unassigned

/-- Eight bytes as a word, little-endian (R56). -/
def wordsOfBytes : List Byte → List Nat
  | b0 :: b1 :: b2 :: b3 :: b4 :: b5 :: b6 :: b7 :: t => ofLe [b0, b1, b2, b3, b4, b5, b6, b7] :: wordsOfBytes t
  | _ => []

/-- Decodes bytes: one or two whole words. -/
def decodeBytes (l : List Byte) : Except DecodeError Instr :=
  if l.length % 8 = 0 then decodeWords (wordsOfBytes l) else .error .unassigned

/-- How many words an instruction whose table row gives `nbits` bits takes: two where the first is a P word. -/
def tableWords (w : Nat) : List Nat :=
  if opcodeOf w = 0xE4 then [w % 2 ^ 64, w / 2 ^ 64 % 2 ^ 64] else [w % 2 ^ 64]

/-- The instruction that the decoder reads from bits `w`; the bits above `nbits` are zero. -/
def decodeTableWord (nbits w : Nat) : Option Instr :=
  match decodeWords (tableWords (w % 2 ^ nbits)) with
  | .ok i => some i
  | .error _ => none

/-! Encoding -/

def putA (op : Nat) (f : FA) : Nat :=
  packFields [(10, f.c.toNat), (10, f.b.toNat), (10, f.a.toNat), (10, f.d.toNat), (2, f.us.toNat), (1, b2n f.feC),
    (1, b2n f.feB), (1, b2n f.feA), (2, f.gap.toNat), (2, f.kp.toNat), (3, f.rm.code), (4, f.ty.code), (8, op)]

def putI (op : Nat) (f : FI) : Nat :=
  packFields [(20, f.imm.toNat), (10, f.a.toNat), (10, f.d.toNat), (3, 0), (1, b2n f.usA), (1, b2n f.feA),
    (2, f.gap.toNat), (2, f.kp.toNat), (3, f.rm.code), (4, f.ty.code), (8, op)]

def putG (op ib : Nat) (f : FG) : Nat :=
  packFields [(24, f.alt.toNat), (10, f.b.toNat), (10, f.a.toNat), (1, ib), (1, b2n f.usB), (1, b2n f.feB),
    (1, b2n f.feA), (4, f.cond.code), (4, f.ty.code), (8, op)]

def putM (op : Nat) (f : FM) : Nat :=
  packFields [(16, wrap 16 f.off), (10, f.index.toNat), (10, f.base.toNat), (10, f.d.toNat), (2, f.cnt.toNat),
    (1, b2n f.feData), (1, b2n f.feAddr), (2, f.gap.toNat), (4, f.ty.code), (8, op)]

def putX (op : Nat) (f : FX) : Nat :=
  packFields [(10, f.c.toNat), (10, f.b.toNat), (10, f.a.toNat), (10, f.d.toNat), (4, 0), (1, b2n f.feB),
    (1, b2n f.feA), (2, f.gap.toNat), (4, f.fn.toNat), (4, f.ty.code), (8, op)]

def putE (op : Nat) (f : FE) : Nat :=
  packFields [(10, f.c.toNat), (10, f.b.toNat), (10, f.a.toNat), (10, f.d.toNat), (4, f.acc.toNat), (1, b2n f.feB),
    (1, b2n f.feA), (2, f.gap.toNat), (4, f.fn.toNat), (4, f.fmt.code), (8, op)]

def putS (op : Nat) (f : FS) : Nat :=
  packFields [(20, f.imm.toNat), (10, f.a.toNat), (10, f.d.toNat), (4, f.fn.toNat), (12, f.csr.toNat), (8, op)]

def putP (p : PWord) : Nat :=
  packFields [(42, 0), (2, p.race.code), (3, p.cache.code), (3, p.space.code), (3, p.scope.code), (3, p.ord.code), (8, 0xE4)]

/-- A word after the P word it takes, if it takes one. -/
def withP (pre : Option PWord) (w : Nat) : List Nat :=
  match pre with
  | some p => [putP p, w]
  | none => [w]

/-- The words of an instruction (R56 to R64); an event has none. -/
def encode : Instr → List Nat
  | .nop f => [putS 0x00 f]
  | .trap f => [putS 0x01 f]
  | .tretRe f => [putS 0x02 f]
  | .tretSkip f => [putS 0x02 f]
  | .csrr f => [putS 0x03 f]
  | .csrw f => [putS 0x04 f]
  | .csrwImm f => [putS 0x04 f]
  | .fill f => [putS 0x05 f]
  | .void f => [putS 0x06 f]
  | .waitf f => [putS 0x07 f]
  | .chkerr f => [putS 0x08 f]
  | .chkerrAbort f => [putS 0x08 f]
  | .prog f => [putS 0x09 f]
  | .yield f => [putS 0x0A f]
  | .launch f => [putS 0x0B f]
  | .iadd f => [putA 0x10 f]
  | .isub f => [putA 0x11 f]
  | .imul f => [putA 0x12 f]
  | .imulh f => [putA 0x13 f]
  | .imad f => [putA 0x14 f]
  | .imadw f => [putA 0x15 f]
  | .idiv f => [putA 0x16 f]
  | .irem f => [putA 0x17 f]
  | .ineg f => [putA 0x18 f]
  | .iabs f => [putA 0x19 f]
  | .imin f => [putA 0x1A f]
  | .imax f => [putA 0x1B f]
  | .iadds f => [putA 0x1C f]
  | .isubs f => [putA 0x1D f]
  | .and f => [putA 0x1E f]
  | .or f => [putA 0x1F f]
  | .xor f => [putA 0x20 f]
  | .andn f => [putA 0x21 f]
  | .lsl f => [putA 0x22 f]
  | .lsr f => [putA 0x23 f]
  | .asr f => [putA 0x24 f]
  | .rot f => [putA 0x25 f]
  | .bfx f => [putA 0x26 f]
  | .bfi f => [putA 0x27 f]
  | .popc f => [putA 0x28 f]
  | .clz f => [putA 0x29 f]
  | .ctz f => [putA 0x2A f]
  | .brev f => [putA 0x2B f]
  | .icmp f => [putA 0x2C f]
  | .sel f => [putA 0x2D f]
  | .mov f => [putA 0x2E f]
  | .lea f => [putA 0x2F f]
  | .iaddImm f => [putI 0x30 f]
  | .imulImm f => [putI 0x31 f]
  | .iminImm f => [putI 0x32 f]
  | .imaxImm f => [putI 0x33 f]
  | .andImm f => [putI 0x34 f]
  | .orImm f => [putI 0x35 f]
  | .xorImm f => [putI 0x36 f]
  | .bfxImm f => [putI 0x37 f]
  | .lslImm f => [putI 0x38 f]
  | .lsrImm f => [putI 0x39 f]
  | .asrImm f => [putI 0x3A f]
  | .rotImm f => [putI 0x3B f]
  | .icmpImm f => [putI 0x3C f]
  | .leaImm f => [putI 0x3D f]
  | .movi f => [putI 0x3E f]
  | .movh f => [putI 0x3F f]
  | .fadd f => [putA 0x40 f]
  | .fsub f => [putA 0x41 f]
  | .fmul f => [putA 0x42 f]
  | .fma f => [putA 0x43 f]
  | .fnma f => [putA 0x44 f]
  | .fmin f => [putA 0x45 f]
  | .fmax f => [putA 0x46 f]
  | .fabs f => [putA 0x47 f]
  | .fneg f => [putA 0x48 f]
  | .fcps f => [putA 0x49 f]
  | .fcmp f => [putA 0x4A f]
  | .fcls f => [putA 0x4B f]
  | .fdiv f => [putA 0x4C f]
  | .fsqrt f => [putA 0x4D f]
  | .frcp f => [putA 0x4E f]
  | .frsq f => [putA 0x4F f]
  | .fexp f => [putA 0x50 f]
  | .fexp2 f => [putA 0x51 f]
  | .flog f => [putA 0x52 f]
  | .flog2 f => [putA 0x53 f]
  | .fsin f => [putA 0x54 f]
  | .fcos f => [putA 0x55 f]
  | .ftanh f => [putA 0x56 f]
  | .fsigm f => [putA 0x57 f]
  | .ferf f => [putA 0x58 f]
  | .frnd f => [putA 0x59 f]
  | .flgr f => [putA 0x5A f]
  | .flgc f => [putI 0x5B f]
  | .cvt f => [putA 0x70 f]
  | .kdq f => [putA 0x71 f]
  | .kdx f => [putA 0x72 f]
  | .gcmp f => [putG 0x80 0 f]
  | .gcmpImm f => [putG 0x80 1 f]
  | .gz f => [putG 0x81 0 f]
  | .gnz f => [putG 0x82 0 f]
  | .grng f => [putG 0x83 0 f]
  | .gflg f => [putG 0x84 0 f]
  | .gflgImm f => [putG 0x84 1 f]
  | .gfull f => [putG 0x85 0 f]
  | .qenc f => [putA 0x90 f]
  | .qdec f => [putA 0x91 f]
  | .qadd f => [putA 0x92 f]
  | .qsub f => [putA 0x93 f]
  | .qmul f => [putA 0x94 f]
  | .qdiv f => [putA 0x95 f]
  | .qinv f => [putA 0x96 f]
  | .qneg f => [putA 0x97 f]
  | .qeq f => [putA 0x98 f]
  | .ld f => withP f.pre (putM 0xA0 f)
  | .st f => withP f.pre (putM 0xA1 f)
  | .pref f => withP f.pre (putM 0xA2 f)
  | .ptog f => withP f.pre (putM 0xA3 f)
  | .ldx f => withP f.pre (putX 0xA4 f)
  | .fence f => withP f.pre (putM 0xA5 f)
  | .waitv f => withP f.pre (putM 0xA6 f)
  | .publish f => withP f.pre (putM 0xA7 f)
  | .atomAdd f => withP f.pre (putM 0xB0 f)
  | .atomSub f => withP f.pre (putM 0xB1 f)
  | .atomMin f => withP f.pre (putM 0xB2 f)
  | .atomMax f => withP f.pre (putM 0xB3 f)
  | .atomAnd f => withP f.pre (putM 0xB4 f)
  | .atomOr f => withP f.pre (putM 0xB5 f)
  | .atomXor f => withP f.pre (putM 0xB6 f)
  | .atomExch f => withP f.pre (putM 0xB7 f)
  | .atomCas f => withP f.pre (putM 0xB8 f)
  | .atomFadd f => withP f.pre (putM 0xB9 f)
  | .atomFmin f => withP f.pre (putM 0xBA f)
  | .atomFmax f => withP f.pre (putM 0xBB f)
  | .shfl f => withP f.pre (putX 0xC0 f)
  | .xred f => withP f.pre (putX 0xC1 f)
  | .scan f => withP f.pre (putX 0xC2 f)
  | .vote f => withP f.pre (putX 0xC3 f)
  | .gnew f => withP f.pre (putX 0xC4 f)
  | .join f => withP f.pre (putX 0xC5 f)
  | .leave f => withP f.pre (putX 0xC6 f)
  | .gbar f => withP f.pre (putX 0xC7 f)
  | .grank f => withP f.pre (putX 0xC8 f)
  | .gsize f => withP f.pre (putX 0xC9 f)
  | .gset f => withP f.pre (putX 0xCA f)
  | .mma f => [putE 0xD0 f]
  | .mzero f => [putE 0xD1 f]
  | .mlda f => [putE 0xD2 f]
  | .msta f => [putE 0xD3 f]
  | .mdrn f => [putE 0xD4 f]
  | .cpygo f => [putE 0xD5 f]
  | .cpyw f => [putE 0xD6 f]
  | .binit f => [putE 0xD7 f]
  | .barv f => [putE 0xD8 f]
  | .bwait f => [putE 0xD9 f]
  | .btest f => [putE 0xDA f]
  | .flinit f => [putE 0xDB f]
  | .flacq f => [putE 0xDC f]
  | .flrel f => [putE 0xDD f]
  | .bundleFormation .. | .promotion .. | .traceFetch .. | .commit .. | .postedLoadFill .. | .deferredFault ..
  | .pageWalkComplete .. | .priResponse .. | .storeBlockDrain .. | .waitvTimeoutCheck .. | .replayCheck ..
  | .syncPacket .. | .pcSample .. | .hangEvent .. | .barrierObjectHang .. | .tileStep .. | .drainComplete ..
  | .copyCommandStart .. | .copyCommandComplete .. | .haloStart .. | .flumeSlotWrite .. | .ldxTransferComplete ..
  | .mailboxSignal .. | .swapOut .. | .groupRestore .. | .sliceBoundary .. | .stopRequest .. | .submission ..
  | .breuzTranslation .. | .nodeStart .. | .threadCreate .. | .nodeRunEnd .. | .patrolScrub .. | .reencryption ..
  | .create .. | .destroy .. | .inval .. | .race .. | .peer .. | .debug .. | .debugResume .. | .debugResumeOneTimePass ..
  | .slotStep .. | .debugAbandon .. | .image .. | .install .. | .start .. | .log | .powerOnStart .. | .heartbeat ..
  | .heartbeatMiss | .thermalTrip | .throttle .. | .getVersion .. | .getCapabilities .. | .negotiateAlgorithms ..
  | .getDigests .. | .getCertificate .. | .challenge .. | .getMeasurements .. | .hostPostedWrite .. | .bar2Read ..
  | .bar2Write .. | .bar2Atomic .. | .flitReceive .. | .nakReplay .. | .ackTimeout .. | .laneLoss .. | .peerRequest ..
  | .registerWrite .. | .debugHalt .. | .hingeFill .. | .storePerformedAtHome .. | .roundBoundary .. | .powerGating ..
  | .coreReset .. | .healthMonitorUpdate .. | .tdispRequest .. => []

end Sys2Proof
end

