-- ==== Sys2Proof/Machine/Link.lean ====
section
/-! DEFINITION. The link layer of a fabric port (R376 to R379): the flits that it forms, keeps, replays and takes, and its credits (log 57 and 59,
DESIGN CHOICE). -/

namespace Sys2Proof.Machine

open Sys2Proof

/-- One byte into the CRC-32C register, bit by bit: the polynomial 0x1EDC6F41 in the order in which bits are sent. -/
def crcBits : Nat → BitVec 32 → BitVec 32
  | 0, c => c
  | n + 1, c => crcBits n (if c.getLsbD 0 then (c >>> 1) ^^^ 0x82F63B78 else c >>> 1)
def crc32c (l : List Byte) : BitVec 32 := ~~~(l.foldl (fun (c : BitVec 32) b => crcBits 8 (c ^^^ b.zeroExtend 32)) 0xFFFFFFFF)

/-- Sequence number `a` is at or before `b`, within half the circle. -/
def seqLe (a b : Nat) : Bool := decide ((b + 4096 - a) % 4096 < 2048)

/-- Flits that the replay buffer holds (R378). -/
def replayRoom : Nat := 2048

/-- A flit is formed, while the replay buffer has room: it takes the next sequence number, says what has been received, returns credits in units of 8
flits, and is kept until it is acknowledged (R377, R378). -/
def FPort.form (x : FPort) (type now : Nat) (payload : List Byte) : FPort :=
  if replayRoom ≤ x.replay.length then x else
  let seq := (x.txSeq + 1) % 4096
  let back := min 15 (x.owed / 8)
  let head := leBytes 2 (seq + 2 ^ 12 * type) ++ leBytes 2 (x.rxSeq + 2 ^ 12 * back)
  let body := head ++ (payload ++ List.replicate 56 0).take 56
  { x with txSeq := seq, owed := x.owed - 8 * back, replay := x.replay ++ [(seq, body ++ leBytes 4 (crc32c body).toNat)],
           lastAck := if x.replay.isEmpty then now else x.lastAck }

/-- Requests and responses that wait are formed in order: each spends a credit. -/
def FPort.pump (x : FPort) (now : Nat) : Nat → FPort
  | 0 => x
  | n + 1 => match x.queue with
    | [] => x
    | (type, payload) :: rest =>
      if x.credits = 0 ∨ replayRoom ≤ x.replay.length then x
      else FPort.pump ({ x with queue := rest, credits := x.credits - 1 }.form type now payload) now n

/-- A request (type 1) or a response (type 2) to send. -/
def FPort.send (x : FPort) (type now : Nat) (payload : List Byte) : FPort :=
  FPort.pump { x with queue := x.queue ++ [(type, payload)] } now (x.queue.length + 1)

/-- An acknowledgement: the flits up to it leave the replay buffer. -/
def FPort.acknowledge (x : FPort) (ack now : Nat) : FPort :=
  let left := x.replay.filter fun f => !seqLe f.1 ack
  if left.length = x.replay.length then x else { x with replay := left, acked := ack, lastAck := now, again := 0 }

/-- The flits after the last one received in order are sent again. -/
def FPort.resend (x : FPort) : FPort :=
  if x.replay.isEmpty then x
  else { x with replays := min (2 ^ 32 - 1) (x.replays + x.replay.length), again := x.again + 1 }

/-- A flit that is received in order: its acknowledgement and credits; a request or a response is delivered, and its room is owed to the partner as a
credit; after a NAK the flits behind the one that it names are sent again. -/
def FPort.accept (x : FPort) (bytes : List Byte) (now : Nat) : FPort :=
  let w := ofLe (bytes.take 4)
  let x := { x.acknowledge (bits w 16 12) now with rxSeq := bits w 0 12, nak := none, credits := x.credits + 8 * bits w 28 4 }
  if bits w 12 4 = 1 ∨ bits w 12 4 = 2 then { x with delivered := x.delivered ++ [bytes], owed := x.owed + 1 }
  else if bits w 12 4 = 4 then x.resend else x

/-- A NAK is sent: its ACK field names the last good flit. -/
def FPort.refuse (x : FPort) (now : Nat) : FPort := { x with nak := some x.rxSeq }.form 4 now []

/-- What a port sends once it has taken a flit that is not idle: what has waited for its credits or for room, else an idle flit, or a credit flit where
credits are to be returned. -/
def FPort.respond (x : FPort) (type now : Nat) : FPort :=
  let y := FPort.pump x now x.queue.length
  if type = 0 ∨ y.txSeq ≠ x.txSeq then y else y.form (if 8 ≤ y.owed then 3 else 0) now []

/-- FLIT_RECEIVE (R377, R378): a flit whose CRC fails is discarded and answered with a NAK that carries the last good number, and every flit after
it is discarded; one that was delivered before is discarded. -/
def FPort.receive (x : FPort) (bytes : List Byte) (now : Nat) : FPort :=
  let head := ofLe (bytes.take 2)
  let seq := bits head 0 12
  if bytes.length ≠ 64 || ofLe (bytes.drop 60) != (crc32c (bytes.take 60)).toNat then x.refuse now
  else if seq = (x.rxSeq + 1) % 4096 then (x.accept bytes now).respond (bits head 12 4) now
  else if seqLe seq x.rxSeq || x.nak.isSome then x
  else x.refuse now

/-- A port that has trained with its partner: what the partner offers in lanes and credits (R376, R377). -/
def FPort.trained (x : FPort) (tick now : Nat) : FPort :=
  { x with state := 2, narrow := Config.partnerNarrow tick x.id, credits := Config.partnerCredits tick x.id, lastAck := now }

/-- A port that is training comes up once its partner is there (R376, R379). -/
def FPort.train (x : FPort) (tick now : Nat) : FPort :=
  if x.state = 1 && Config.portTrains tick x.id then x.trained tick now else x

end Sys2Proof.Machine
end

