-- ==== Sys2Proof/Machine/Base.lean ====
section
/-! DEFINITION. Reaching the parts of the state, the bytes of every kind of memory (R290, R294), address translation (R278 to R286),
and the writes that the hardware itself makes into context memory (R198, R318, R327). -/

namespace Sys2Proof.Machine

open Sys2Proof

/-! Parts of the state, by their keys -/

def State.thread? (s : State) (r : Nat) : Option Thread := s.threads.find? (·.r == r)
def State.modThread (s : State) (r : Nat) (f : Thread → Thread) : State :=
  { s with threads := s.threads.map fun t => if t.r = r then f t else t }
def State.group? (s : State) (gid : Nat) : Option Group := s.groups.find? (·.gid == gid)
def State.modGroup (s : State) (gid : Nat) (f : Group → Group) : State :=
  { s with groups := s.groups.map fun g => if g.gid = gid then f g else g }
def State.ctx? (s : State) (id : Nat) : Option Context := s.contexts.find? (·.id == id)
def State.modCtx (s : State) (id : Nat) (f : Context → Context) : State :=
  { s with contexts := s.contexts.map fun c => if c.id = id then f c else c }
def State.run? (s : State) (id : Nat) : Option Run := s.runs.find? (·.id == id)
def State.modRun (s : State) (id : Nat) (f : Run → Run) : State :=
  { s with runs := s.runs.map fun x => if x.id = id then f x else x }
def State.graph? (s : State) (id : Nat) : Option Graph := s.graphs.find? (·.id == id)
def State.modGraph (s : State) (id : Nat) (f : Graph → Graph) : State :=
  { s with graphs := s.graphs.map fun x => if x.id = id then f x else x }
def State.bundle? (s : State) (p : PortId) : Option Bundle := s.bundles.find? (·.p == p)
def State.modBundle (s : State) (p : PortId) (f : Bundle → Bundle) : State :=
  { s with bundles := s.bundles.map fun b => if b.p = p then f b else b }
def State.tag? (s : State) (r : Nat) : Option TagEntry := s.tags.find? (·.r == r)
def State.modTag (s : State) (r : Nat) (f : TagEntry → TagEntry) : State :=
  { s with tags := s.tags.map fun e => if e.r = r then f e else e }
def State.port? (s : State) (id : Nat) : Option FPort := s.ports.find? (·.id == id)
def State.modPort (s : State) (id : Nat) (f : FPort → FPort) : State :=
  { s with ports := s.ports.map fun x => if x.id = id then f x else x }
def State.vf? (s : State) (id : Nat) : Option Vf := s.vfs.find? (·.id == id)
def State.modVf (s : State) (id : Nat) (f : Vf → Vf) : State :=
  { s with vfs := s.vfs.map fun x => if x.id = id then f x else x }

/-- A core, a cluster and a die that the state does not list are as reset. -/
def State.core (s : State) (c : Nat) : Core := (s.cores.find? (·.id == c)).getD { id := c }
def State.modCore (s : State) (c : Nat) (f : Core → Core) : State :=
  if s.cores.any (·.id == c) then { s with cores := s.cores.map fun x => if x.id = c then f x else x }
  else { s with cores := insertBy Core.id (f { id := c }) s.cores }
def State.cluster (s : State) (c : Nat) : Cluster := (s.clusters.find? (·.id == c)).getD { id := c }
def State.modCluster (s : State) (c : Nat) (f : Cluster → Cluster) : State :=
  if s.clusters.any (·.id == c) then { s with clusters := s.clusters.map fun x => if x.id = c then f x else x }
  else { s with clusters := insertBy Cluster.id (f { id := c }) s.clusters }
def State.die (s : State) (d : Nat) : Die := (s.diesS.find? (·.id == d)).getD { id := d }
def State.modDie (s : State) (d : Nat) (f : Die → Die) : State :=
  if s.diesS.any (·.id == d) then { s with diesS := s.diesS.map fun x => if x.id = d then f x else x }
  else { s with diesS := insertBy Die.id (f { id := d }) s.diesS }

/-- Element `n` of a list changed. -/
def modAt {α : Type} (f : α → α) : Nat → List α → List α
  | _, [] => []
  | 0, x :: t => f x :: t
  | n + 1, x :: t => x :: modAt f n t

/-- The counters of one partition changed (R167). -/
def State.modPart (s : State) (core part : Nat) (f : PartCounters → PartCounters) : State :=
  s.modCore core fun c => { c with parts := modAt f part c.parts }

/-- The lane of a thread in a bundle. -/
def Bundle.lane? (b : Bundle) (r : Nat) : Option Lane := b.lanes.find? (·.r == r)
def State.modLane (s : State) (p : PortId) (r : Nat) (f : Lane → Lane) : State :=
  s.modBundle p fun b => { b with lanes := b.lanes.map fun l => if l.r = r then f l else l }

/-! Names: slots, cores, tags, groups (R14, R148, log 11, DESIGN CHOICE) -/

def coreOfSlot (r : Nat) : Nat := r / Config.slotsPerCore
def partOfSlot (r : Nat) : Nat := r % Config.slotsPerCore / Config.slotsPerPart
def blockOfSlot (r : Nat) : Nat := r / 64
def clusterOfCore (c : Nat) : Nat := c / Config.coresPerCluster
def dieOfCore (c : Nat) : Nat := c / Config.coresPerDie
def clusterOfSlot (r : Nat) : Nat := clusterOfCore (coreOfSlot r)
def dieOfSlot (r : Nat) : Nat := dieOfCore (coreOfSlot r)

/-- The thread tag (R14): resident slot and generation. A saved thread keeps its tag (log 41, DESIGN CHOICE). -/
def tagNo (r gen : Nat) : Nat := r * 32 + gen
def Thread.tag (t : Thread) : Nat := tagNo (t.r % Config.numSlots) t.gen

/-- A group as the machine names it, and its handle (R183). -/
def gidOf (ctx handle : Nat) : Nat := ctx * 2 ^ 20 + handle
def handleOf (gid : Nat) : Nat := gid % 2 ^ 20
def ctxOfGid (gid : Nat) : Nat := gid / 2 ^ 20

/-- Membership slot m0 to m3. -/
def Thread.mem (t : Thread) (m : Nat) : Option Membership :=
  match m with
  | 0 => t.m0 | 1 => t.m1 | 2 => t.m2 | 3 => t.m3 | _ => none
def Thread.setMem (t : Thread) (m : Nat) (v : Option Membership) : Thread :=
  match m with
  | 0 => { t with m0 := v } | 1 => { t with m1 := v } | 2 => { t with m2 := v } | 3 => { t with m3 := v } | _ => t

/-- The home group as gid, or 0 when m0 is empty. -/
def Thread.homeGid (t : Thread) : Nat := (t.m0.map (·.gid)).getD 0
/-- The handle of the home group, or 0 (R306). -/
def Thread.home (t : Thread) : Nat := handleOf t.homeGid

/-- Bytes of scratch a group has (R160). -/
def Group.alloc (g : Group) : Nat := g.scrg * 256

/-- Registers a thread may name: v1 to v(min(1015, 64u)) (R159). -/
def Thread.inLimit (t : Thread) (code : Nat) : Bool := code ≤ t.limit || 1016 ≤ code

/-- The thread of a launch counts among a run. -/
def State.node? (s : State) (x : Run) : Option Node := (s.graph? x.graph).bind fun g => g.nodes.find? (·.idx == x.node)

/-! Registers (R9 to R11) -/

/-- A register as committed (R10): v0 reads zero. -/
def Thread.reg (t : Thread) (code : Nat) : Word := if code = 0 then 0 else sGet t.regs code
/-- WriteReg (R24). A register is a part of its line, which is not written while it is poisoned (R290). -/
def Thread.setReg (t : Thread) (code : Nat) (v : Word) : Thread :=
  if code = 0 || 1016 ≤ code || t.badRegs.contains code then t else { t with regs := sSet t.regs code v }
/-- EmptyOf (R24). -/
def Thread.isEmpty (t : Thread) (code : Nat) : Bool := t.empty.contains code
/-- SetFull and MarkEmpty (R24). -/
def Thread.setFull (t : Thread) (code : Nat) : Thread :=
  { t with empty := setDel code t.empty, fills := setDel code t.fills }
def Thread.markEmpty (t : Thread) (code : Nat) : Thread :=
  if code = 0 then t else { t with empty := setAdd code t.empty, fills := setDel code t.fills }
def Thread.markFill (t : Thread) (code : Nat) : Thread :=
  if code = 0 then t else { t with empty := setAdd code t.empty, fills := setAdd code t.fills }

/-- TSTAT with its CAUSE field set (R13). -/
def setCause (w : Word) (cause : Nat) : Word := (w &&& 0x00FFFFFF) ||| (BitVec.ofNat 32 cause <<< 24)
def tstatPEN : Nat := 15
def tstatPRB : Nat := 14
def tstatQR : Nat := 13
def tstatQCFG : Nat := 12
def tstatRPASS : Nat := 11
def Thread.pen (t : Thread) : Bool := bit t.tstat.toNat tstatPEN
def Thread.rpass (t : Thread) : Bool := bit t.tstat.toNat tstatRPASS

/-- A bit of a word set or cleared. -/
def setBit (w : Word) (i : Nat) (v : Bool) : Word :=
  if v then w ||| (1#32 <<< i) else w &&& ~~~(1#32 <<< i)

/-- The management firmware and the scheduler microcode run, and dispatch is not paused (R357, R360, R362). -/
def State.dispatching (s : State) : Bool := s.pkg.state == 4 && (s.pkg.pause.map fun x => x.new.kind != 2).getD true

/-- The host link of a virtual function (R370): configuration record 3 splits them; by default 0 to 31 are on link 0. -/
def State.linkOf (s : State) (vf : Nat) : Nat :=
  match s.pkg.records.find? (·.id == 3) with
  | some c => b2n (Config.onLink1 c.body vf)
  | none => b2n (decide (32 ≤ vf))

/-! CIR (R325, R326) -/

def cirPOISON : Nat := 0
def cirPIPEERR : Nat := 1
def cirLOSTCMP : Nat := 2
def cirRACESUP : Nat := 3
def cirABORT : Nat := 5
def State.setCir (s : State) (run i : Nat) : State := s.modRun run fun x => { x with cir := setBit x.cir i true }

/-! Bytes of memory (R289, R290, R294) -/

/-- The byte `n` further on. -/
def Place.add : Place → Nat → Place
  | .dev a, n => .dev (a + n)
  | .host vf a, n => .host vf (a + n)
  | .peer k a, n => .peer k (a + n)
  | .scr g o, n => .scr g (o + n)

/-- The first byte of the 64-byte line that holds a byte. -/
def Place.line : Place → Place
  | .dev a => .dev (a / 64 * 64)
  | .host vf a => .host vf (a / 64 * 64)
  | .peer k a => .peer k (a / 64 * 64)
  | .scr g o => .scr g (o / 64 * 64)

/-- The offset of a byte in its line. -/
def Place.lineOff : Place → Nat
  | .dev a | .host _ a | .peer _ a | .scr _ a => a % 64

/-- The number of a byte among a kind's bytes. -/
def Place.num : Place → Nat
  | .dev a | .host _ a | .peer _ a | .scr _ a => a

/-- Whether a place is the `k`-th byte after another, and which. -/
def Place.sub? (p q : Place) : Option Nat :=
  match p, q with
  | .dev a, .dev b => if b ≤ a then some (a - b) else none
  | .host v a, .host w b => if v = w ∧ b ≤ a then some (a - b) else none
  | .peer v a, .peer w b => if v = w ∧ b ≤ a then some (a - b) else none
  | .scr v a, .scr w b => if v = w ∧ b ≤ a then some (a - b) else none
  | _, _ => none

/-- Host and peer memory: the key of a byte. -/
def farKey (k a : Nat) : Nat := k * 2 ^ 64 + a

/-- The module and the context that a peer number is bound to, as one number (R380). -/
def State.peerKey (s : State) (num : Nat) : Nat :=
  match s.peers.find? (·.num == num) with
  | some b => farKey b.module b.ctx
  | none => 0

/-- The byte a place holds. -/
def State.byteAt (s : State) : Place → Byte
  | .dev a => s.mem.read a
  | .host vf a => s.hostMem.read (farKey vf a)
  | .peer k a => s.peerMem.read (farKey (s.peerKey k) a)
  | .scr gid o => match s.group? gid with
    | some g => g.scr.read o
    | none => 0

/-- Writes the byte of a place. -/
def State.putByte (s : State) (p : Place) (b : Byte) : State :=
  match p with
  | .dev a => { s with mem := s.mem.write a b }
  | .host vf a => { s with hostMem := s.hostMem.write (farKey vf a) b }
  | .peer k a => { s with peerMem := s.peerMem.write (farKey (s.peerKey k) a) b }
  | .scr gid o => s.modGroup gid fun g => { g with scr := g.scr.write o b }

/-- The live port of a peer's mask that a line's traffic takes: a hash of the line address chooses among them (R380, log 9, DESIGN CHOICE). -/
def State.peerPort (s : State) (num line : Nat) : Option FPort :=
  match s.peers.find? (·.num == num) with
  | none => none
  | some b =>
    let live := s.ports.filter fun x => bit b.mask x.id && x.state == 2
    live[(Config.portHash line) % max 1 live.length]?

/-- An access of this module to a byte of a peer goes out as a request (R377, R380); to other memory none does. -/
def State.askPeer (s : State) (l : List Byte) (p : Place) : State :=
  match p with
  | .peer k a => match s.peerPort k (a / 64) with
    | some x => s.modPort x.id fun y => y.send 1 s.clk.toNat (Config.flitPayload (leBytes 8 a ++ l))
    | none => s
  | _ => s

/-- No port of a peer's mask is up, or the peer is not bound (R380, R381). -/
def State.peerDown (s : State) (num : Nat) : Bool :=
  match s.peers.find? (·.num == num) with
  | none => true
  | some b => !s.ports.any fun x => bit b.mask x.id && x.state == 2

/-- A peer's byte that an access does not reach: its ports are lost, or the peer's own translation, protection or line fails it, which is
the peer's matter (R381); or a host byte whose access the host answers with an error (R282). Log 46, DESIGN CHOICE. -/
def State.lost (s : State) (p : Place) : Bool :=
  match p with
  | .peer k a => s.peerDown k || Config.peerFails s.tick k (a / 64)
  | .host vf a => Config.hostFails s.tick vf (a / 64)
  | _ => false

/-- A line that reads as uncorrectable (R282, R290, R381). -/
def State.poisoned (s : State) (p : Place) : Bool := s.poison.contains p.line || s.lost p

/-- A byte as a read delivers it: all-ones from a poisoned line (R290). -/
def State.readByte (s : State) (p : Place) : Byte := if s.poisoned p then 0xFF else s.byteAt p

/-- `n` bytes from a place up. -/
def State.readAt (s : State) (p : Place) : Nat → List Byte
  | 0 => []
  | n + 1 => s.readByte p :: s.readAt (p.add 1) n

/-- Whether a read of `n` bytes meets a poisoned line. -/
def State.meetsPoison (s : State) (p : Place) (n : Nat) : Bool :=
  s.lost p || s.poison.any fun l => ((l.sub? p.line).map (fun k => decide (k < n + p.lineOff))).getD false

/-- Writes bytes from a place up. -/
def State.writeAt (s : State) (p : Place) : List Byte → State
  | [] => s
  | b :: t => (s.putByte p b).writeAt (p.add 1) t

/-- A whole write of a poisoned line clears its poison (R290). A page whose counter block has failed stays poisoned until every line of it has been
rewritten (R292). -/
def State.heal (s : State) (line : Place) : State :=
  let plain : State := { s with poison := s.poison.filter (· ≠ line) }
  match line with
  | .dev a =>
    match s.encPages.find? fun e => e.page == a / 4096 && e.broken.isSome with
    | none => plain
    | some e =>
      let done := setAdd (a % 4096 / 64) (e.broken.getD [])
      if done.length < 64 then
        { s with encPages := s.encPages.map fun x => if x.page = e.page then { x with broken := some done } else x }
      else
        { s with
          encPages := s.encPages.map fun x => if x.page = e.page then { x with broken := none } else x
          poison := s.poison.filter fun p => match p with
            | .dev b => b / 4096 ≠ e.page
            | _ => true }
  | _ => plain

/-- A single write of the machine at a place: on a poisoned line it performs only when it covers the whole line, and it then clears
the poison; a part of a poisoned line is refused and sets POISON in the CIR of the run responsible (R290). `n` is how many bytes are
left of a write that began at offset 0 of the line or before. -/
def State.storeLine (s : State) (run : Option Nat) (p : Place) (l : List Byte) : State :=
  let s := s.askPeer l p
  if s.poisoned p then
    if p.lineOff = 0 ∧ l.length = 64 ∧ !s.lost p then (s.writeAt p l).heal p
    else match run with
      | some x => s.setCir x cirPOISON
      | none => s
  else s.writeAt p l

/-- Writes bytes as one write, line by line. The first argument bounds the number of lines. -/
def State.storeLines (s : State) (run : Option Nat) : Nat → Place → List Byte → State
  | 0, _, _ => s
  | n + 1, p, l =>
    if l.isEmpty then s else
    let k := 64 - p.lineOff
    (s.storeLine run p (l.take k)).storeLines run n (p.add k) (l.drop k)

/-- One write of the machine (R290). -/
def State.store (s : State) (run : Option Nat) (p : Place) (l : List Byte) : State :=
  s.storeLines run (l.length / 64 + 2) p l

/-- The number of `n` bytes of device memory, little-endian. -/
def State.dev (s : State) (a n : Nat) : Nat := ofLe (s.readAt (.dev a) n)

/-- A run's view of a byte: the run's reads and writes of a shadowed page reach its shadow (R345). -/
def State.runView (s : State) (run : Nat) (p : Place) : Place :=
  match p with
  | .dev a => match ((s.run? run).map (·.shadows)).getD [] |>.find? fun h => h.2.1 == a / 65536 with
    | some h => .dev (h.2.2 * 65536 + a % 65536)
    | none => p
  | _ => p

/-! Translation (R278 to R286) -/

def scratchBase : Nat := 0x0100000000000000
def privateBase : Nat := 0x0140000000000000
def hostBase : Nat := 0x0180000000000000

/-- The windows of R278, with the space code of R60 that asserts each. -/
inductive Window where
  | global | scratch | own | host
deriving DecidableEq, Repr, Inhabited

/-- The window of an address (R278). -/
def windowOf (va : Nat) : Option Window :=
  if va < 2 ^ 56 then some .global
  else if scratchBase ≤ va ∧ va < scratchBase + 2 ^ 24 then some .scratch
  else if privateBase ≤ va ∧ va < privateBase + 2 ^ 32 then some .own
  else if hostBase ≤ va ∧ va < hostBase + 2 ^ 52 then some .host
  else none

/-- Whether a space asserts a window (R279). -/
def spaceAllows (sp : Space) (w : Window) : Bool :=
  match sp, w with
  | .generic, _ | .global, .global | .scratch, .scratch | .own, .own | .hostwin, .host => true
  | _, _ => false

/-- The levels of the page table: level, lowest address bit, index bits (R283). -/
def walkLevels : List (Nat × Nat × Nat) := [(0, 48, 8), (1, 39, 9), (2, 30, 9), (3, 21, 9), (4, 16, 5)]

/-- Whether the walker treats an entry as no mapping (R285). -/
def badEntry (e level shift : Nat) : Bool :=
  !bit e 0 || bits e 2 6 != 0 ||
  (if bit e 1 then
    level < 2 || (bits e 16 40 * 2 ^ 16) % 2 ^ shift != 0 || bits e 14 2 == 3 ||
    (bit e 13 && bits e 14 2 != 0) || (bits e 14 2 == 0 && Config.devBytes ≤ bits e 16 40 * 2 ^ 16) ||
    (bits e 56 8 != 0 && bits e 14 2 != 2)
  else level == 4 || bits e 56 8 != 0)

/-- Walks a page table from a table address (R283 to R285): the leaf and the lowest address bit it translates. -/
def State.walkFrom (s : State) (va : Nat) : List (Nat × Nat × Nat) → Nat → Option (Nat × Nat)
  | [], _ => none
  | (level, shift, n) :: t, table =>
    let e := s.dev (table + 8 * bits va shift n) 8
    if badEntry e level shift then none
    else if bit e 1 then some (e, shift)
    else s.walkFrom va t (bits e 8 48 * 256)

/-- The walk of a context's page table. -/
def State.walk (s : State) (ctx va : Nat) : Option (Nat × Nat) :=
  (s.ctx? ctx).bind fun c => s.walkFrom va walkLevels c.par.root

/-- A cached translation of a global address, in a core's TLB or its cluster's (R286). -/
def State.cached (s : State) (core ctx va : Nat) : Option (Nat × Nat) :=
  let hit := fun (e : TlbEntry) => e.ctx == ctx && decide (e.page ≤ va) && decide (va < e.page + e.size)
  match (s.core core).tlb.find? hit with
  | some e => some (e.leaf.toNat, Nat.log2 e.size)
  | none => ((s.cluster (clusterOfCore core)).tlb.find? hit).map fun e => (e.leaf.toNat, Nat.log2 e.size)

/-- Adds a translation to both TLBs, dropping the oldest entry of a full one (log 18, DESIGN CHOICE). -/
def State.cacheLeaf (s : State) (core ctx va leaf shift : Nat) : State :=
  let e : TlbEntry := { ctx, page := va / 2 ^ shift * 2 ^ shift, size := 2 ^ shift, leaf := .ofNat 64 leaf }
  let add := fun (n : Nat) (l : List TlbEntry) => (e :: l.filter (· ≠ e)).take n
  (s.modCore core fun c => { c with tlb := add Config.l1Tlb c.tlb }).modCluster (clusterOfCore core)
    fun c => { c with tlb := add Config.l2Tlb c.tlb }

/-- What a translation gives: the place, whether its page is race-checked, or a fault with its cause and DETAIL, or a wait for the
host (R282). -/
inductive Xlat where
  | ok (p : Place) (chk : Bool)
  | fault (cause detail : Nat)
  | wait
deriving DecidableEq, Repr, Inhabited

/-- A host page's translation in hand (R282): a store to a page that the host marks read-only is the protection fault. -/
def hostUse (vf a : Nat) (writable write : Bool) : Xlat :=
  if write && !writable then .fault 0x0D 1 else .ok (.host vf a) false

/-- Asks the host for a page, by ATS, and by PRI where the host does not present it (R282); a link keeps 1,024 requests outstanding (R370). A refusal
answers every agent that waits for the page, once (log 24, DEDUCED). -/
def State.hostAsk (s : State) (vf a : Nat) (write : Bool) (agent : Nat) : State × Xlat :=
  let page := a / 4096
  match s.hostPages.find? (fun h => h.vf == vf && h.page == page) with
  | some h => (s, hostUse vf a h.writable write)
  | none =>
    if s.priBad.contains (vf, page, agent) then ({ s with priBad := s.priBad.filter (· ≠ (vf, page, agent)) }, .fault 0x0C 2) else
    match s.pri.find? (fun q => q.vf == vf && q.page == page) with
    | some q =>
      if q.agents.contains agent then (s, .wait) else
      ({ s with pri := s.pri.map fun x => if x = q then { x with agents := x.agents ++ [agent] } else x }, .wait)
    | none =>
      let out := (s.pri.filter fun q => s.linkOf q.vf == s.linkOf vf).length
      (if out < Config.priPerLink then { s with pri := s.pri ++ [{ vf, page, agents := [agent] }] } else s, .wait)

/-- Changes a die's outstanding miss of a page. -/
def Die.modMiss (d : Die) (ctx page : Nat) (f : Miss → Miss) : Die :=
  { d with misses := d.misses.map fun m => if m.ctx = ctx ∧ m.page = page then f m else m }

/-- A miss joins the entry of its page in the die's miss table, or makes one, and TLBMISS counts it; it waits while the table is full
(R286). `who` names the access that waits. -/
def State.askWalk (s : State) (core ctx page who : Nat) : State :=
  let d := dieOfCore core
  match (s.die d).misses.find? fun m => m.ctx == ctx && m.page == page with
  | some m =>
    if m.waiters.contains (core, who) then s
    else s.modDie d fun x => { (x.modMiss ctx page fun m => { m with waiters := m.waiters ++ [(core, who)] }) with tlbmiss := count48 x.tlbmiss 1 }
  | none => s.modDie d fun x =>
    if Config.missTable ≤ x.misses.length then { x with misswait := count48 x.misswait 1 }
    else { x with misses := x.misses ++ [{ ctx, page, waiters := [(core, who)] }], tlbmiss := count48 x.tlbmiss 1 }

/-- An access that no TLB answers takes the failure of the walk it waited for, once, or waits for a walk (R285 to R287). -/
def State.missed (s : State) (core ctx page who detail : Nat) : State × Xlat :=
  let d := dieOfCore core
  if (s.die d).bad.contains (ctx, page, who) then
    (s.modDie d fun x => { x with bad := x.bad.filter (· ≠ (ctx, page, who)) }, .fault 0x0C detail)
  else (s.askWalk core ctx page who, .wait)

/-- Who asks for a translation: an access of a core, which goes through its TLBs and the walker, or an agent of the module that has none: the host's
and the peers' accesses, the loader, the scheduler. -/
inductive Asker where
  | core (core who : Nat)
  | agent (n : Nat)
deriving DecidableEq, Repr, Inhabited

/-- The host translations among the pages that the miss table and the TLBs name: 4 KiB pages of the host window, whichever way an access reaches
host memory (R282; log 96, DESIGN CHOICE). -/
def hostPageNo (a : Nat) : Nat := (hostBase + a) / 4096
def isHostPage (page : Nat) : Bool := hostBase / 4096 ≤ page

/-- Translates a host I/O virtual address of a context's virtual function (R282): for a core by its TLBs and the walker (R286). -/
def State.hostXlat (s : State) (ctx vf a : Nat) (write : Bool) (by_ : Asker) : State × Xlat :=
  match by_ with
  | .agent n => s.hostAsk vf a write n
  | .core core who =>
    match s.cached core ctx (hostBase + a) with
    | some (leaf, _) => (s, hostUse vf a (bit leaf 8) write)
    | none => s.missed core ctx (hostPageNo a) who 2

/-- A write to a page with W = 0 whose translation is in hand (R118, R285). -/
def Xlat.readOnly : Xlat → Xlat
  | .ok _ _ => .fault 0x0D 1
  | x => x

/-- Checks 5 and 6 on a leaf (R284, R285): a host page's own translation comes before its protection. A page that is both read-only and
not owned gives a store DETAIL 1 (log 76, DEDUCED). -/
def State.leafXlat (s : State) (ctx va leaf shift : Nat) (write : Bool) (by_ : Asker := .agent 0) : State × Xlat :=
  let a := bits leaf 16 40 * 2 ^ 16 + va % 2 ^ shift
  let ro := write && !bit leaf 8
  match bits leaf 14 2 with
  | 1 => match s.ctx? ctx with
    | some c => let (s, x) := s.hostXlat ctx c.par.vf a (write && !ro) by_; (s, if ro then x.readOnly else x)
    | none => (s, .fault 0x0C 1)
  | 2 => (s, if ro then .fault 0x0D 1 else .ok (.peer (bits leaf 56 8) a) false)
  | _ =>
    if ro then (s, .fault 0x0D 1)
    else if assocD (2 ^ 64) s.owners (a / 65536) = ctx then (s, .ok (.dev a) (bit leaf 12)) else (s, .fault 0x0D 2)

/-- Translates a global address for an access of a core. Where no TLB has it, the access waits for a walk (R285, R286). -/
def State.xlatGlobal (s : State) (core ctx va : Nat) (write : Bool) (who : Nat) : State × Xlat :=
  match s.cached core ctx va with
  | some (leaf, shift) => s.leafXlat ctx va leaf shift write (.core core who)
  | none => s.missed core ctx (va / 65536) who 1

/-- The accesses that wait for walks: a thread's slot by its thread; a posted load by its entry; the copy engine's by the command's group; a walk
that asks the host, by its die. -/
def loadWho (id : Nat) : Nat := 2 ^ 41 + id
def engineWho (gid : Nat) : Nat := 2 ^ 40 + gid
def walkerAgent (die ctx : Nat) : Nat := 1 + 4 * (die + 64 * ctx)

/-- Translates an address of the global or the host window (R282, R285) for an access of a core. -/
def State.xlat (s : State) (core ctx va : Nat) (write : Bool) (who : Nat) : State × Xlat :=
  match windowOf va with
  | some .global => s.xlatGlobal core ctx va write who
  | some .host => match s.ctx? ctx with
    | some c => s.hostXlat ctx c.par.vf (va - hostBase) write (.core core who)
    | none => (s, .fault 0x0C 2)
  | _ => (s, .fault 0x08 0)

/-- The device place of a global address that a context may read, or write, by its page table alone: how the hardware itself
reaches context memory. -/
def State.devPlace (s : State) (ctx va : Nat) (write : Bool) : Option Place :=
  if 2 ^ 56 ≤ va then none else
  match s.walk ctx va with
  | some (leaf, shift) =>
    match s.leafXlat ctx va leaf shift write with
    | (_, .ok (.dev a) _) => some (.dev a)
    | _ => none
  | none => none

/-- Writes context memory at a global address as one write. None where the address is not mapped writable to device memory. -/
def State.writeCtx (s : State) (ctx va : Nat) (l : List Byte) : Option State :=
  (s.devPlace ctx va true).map fun p => s.store none p l

/-- Reads context memory at a global address. -/
def State.readCtx (s : State) (ctx va n : Nat) : Option Nat :=
  (s.devPlace ctx va false).map fun p => ofLe (s.readAt p n)

/-- Places an event in a context's event queue (R327); when the ring is full it is dropped and counted. The
vector 0 of the context's VF fires (R371). -/
def State.event (s : State) (ctx kind node arg0 arg1 : Nat) : State :=
  match s.ctx? ctx with
  | none => s
  | some c =>
    let drop := s.modCtx ctx fun c => { c with evDropped := (c.evDropped + 1) % 2 ^ 64 }
    if c.par.evqEntries ≤ (c.evProd + 2 ^ 64 - c.evCons) % 2 ^ 64 then drop else
    match s.writeCtx ctx (c.par.evqBase + 32 * (c.evProd % c.par.evqEntries))
        (leBytes 2 kind ++ leBytes 2 0 ++ leBytes 4 node ++ leBytes 8 arg0 ++ leBytes 8 arg1 ++ leBytes 8 s.clk.toNat) with
    | some s' => (s'.modCtx ctx fun c => { c with evProd := (c.evProd + 1) % 2 ^ 64 }).modVf c.par.vf fun v => { v with msi0 := v.msi0 + 1 }
    | none => drop

/-- The node index that an event about a thread or a run carries (R327). -/
def State.nodeNo (s : State) (run : Nat) : Nat := ((s.run? run).map (·.node)).getD 0xFFFFFFFF

/-- The fault record (R202) as eight words from byte 0. -/
def recordWords (t : Thread) (i : FaultInfo) (seq : Nat) : List Nat :=
  [i.savePc, i.addr,
   i.cause + 2 ^ 8 * t.tag + 2 ^ 32 * t.tid,
   i.size % 16 + 2 ^ 4 * (i.opnd % 4) + 2 ^ 6 * (i.reg % 1024) + 2 ^ 16 * b2n i.deferred + 2 ^ 17 * (i.slotNo % 32) +
     2 ^ 22 * (i.pos % 1024) + 2 ^ 32 * i.ttag,
   i.instr, i.pre, i.detail, seq]

/-- The address of a thread's fault record (R198). -/
def recordAddr (c : Context) (r : Nat) : Nat := c.par.faultArea + 64 * r

/-- Writes a thread's fault record as one 64-byte write (R198); none where its entry cannot be written. -/
def State.writeRecord (s : State) (t : Thread) (i : FaultInfo) : Option State :=
  (s.ctx? t.ctx).bind fun c =>
    s.writeCtx t.ctx (recordAddr c t.r) ((recordWords t i s.clk.toNat).flatMap (leBytes 8))

/-! The PC table (R153) -/

/-- A thread enters its partition's PC table at its PC (R154, R198), youngest at its address. -/
def State.enterTable (s : State) (r : Nat) : State :=
  match s.thread? r with
  | none => s
  | some t =>
    { (s.modThread r fun t => { t with status := .runnable }) with
      seq := s.seq + 1,
      table := s.table ++ [{ core := coreOfSlot r, part := partOfSlot r, addr := t.pc.toNat, threads := [r], gather := none,
                             seq := s.seq, since := s.clk.toNat, promoted := none }] }

/-- A thread's own entry leaves the table. A lane set's entry leaves with any of its members. -/
def State.leaveTable (s : State) (r : Nat) : State := { s with table := s.table.filter fun e => !e.threads.contains r }

/-- A saved thread has a name past the resident slots until it is restored (R247, R342, log 41, DESIGN CHOICE). -/
def away (r : Nat) : Bool := Config.numSlots ≤ r

/-- A thread is woken: it re-enters the table (R34), or waits for its restore (R247, R342). -/
def State.wake (s : State) (r : Nat) : State :=
  if away r then s.modThread r fun t => { t with status := .saved } else s.enterTable r

end Sys2Proof.Machine
end

