-- ==== Sys2Proof/Machine/Race.lean ====
section
/-! DEFINITION. Race detection: metadata, clocks, horizons, stamps, the judgement and its records (R301 to R319). -/

namespace Sys2Proof.Machine

open Sys2Proof

/-- MODE of RACECTL (R301): 0 OFF, 1 PRECISE, 2 REPORT. -/
def Context.mode (c : Context) : Nat := c.racectl.toNat % 4
/-- The mode for a run: RACECTL as it stood at the start of its node (R301); for an act of no run, the context's. -/
def State.raceMode (s : State) (ctx run : Nat) : Nat :=
  match s.run? run with
  | some x => x.racectl.toNat % 4
  | none => ((s.ctx? ctx).map Context.mode).getD 0
/-- The race ring of a run (R301, R318). -/
def State.ringOf (s : State) (ctx run : Nat) : Option RaceRing :=
  match s.run? run with
  | some x => x.raceRing
  | none => (s.ctx? ctx).bind (·.raceRing)

/-- An access as the detector sees it (R302, R310). `clk`: K of the home group. `write` holds for stores and atomics. -/
structure Acc where
  r : Nat
  gen : Nat
  ctx : Nat
  run : Nat
  home : Nat
  clk : Nat
  place : Place
  va : Nat
  size : Nat
  write : Bool
  atomic : Bool
  ord : Ord
  scope : Scope
deriving DecidableEq, Repr, Inhabited

/-- A recorded access (R305): kind is WKIND, 0 for a read. -/
structure Prior where
  tag : Nat
  clk : Nat
  scope : Scope
  kind : Nat
  off : Nat
  size : Nat
  write : Bool
deriving DecidableEq, Repr, Inhabited

def RaceW.prior (w : RaceW) : Prior :=
  { tag := w.tag, clk := w.clk, scope := w.scope, kind := w.kind, off := w.off, size := w.size, write := true }
def RaceR.prior (w : RaceR) : Prior :=
  { tag := w.tag, clk := w.clk, scope := w.scope, kind := 0, off := w.off, size := w.size, write := false }

/-- K of a group (R307). -/
def State.clockOf (s : State) (gid : Nat) : Nat := ((s.group? gid).map (·.k)).getD 0
def clockMax : Nat := 2 ^ 24 - 1

/-- K_g advances by one and stops at 2^24 − 1 (R307). -/
def State.tickGroup (s : State) (gid : Nat) : State := s.modGroup gid fun g => { g with k := min clockMax (g.k + 1) }

/-- Thread slots `a` and `b` lie within a scope of each other (R293). -/
def within (sc : Scope) (a b : Nat) : Bool :=
  match sc with
  | .core => coreOfSlot a == coreOfSlot b
  | .clu => clusterOfSlot a == clusterOfSlot b
  | .die => dieOfSlot a == dieOfSlot b
  | .dev | .sys => true

/-- ScopesMeet (R310). -/
def scopesMeet (p : Prior) (c : Acc) : Bool := within p.scope (p.tag / 32) c.r && within c.scope c.r (p.tag / 32)

/-- LookupTag (R306). -/
def State.lookupTag (s : State) (tag : Nat) : Option TagEntry := (s.tag? (tag / 32)).filter fun e => e.gen == tag % 32

/-- What Judge answers (R311). -/
inductive Verdict where
  | ordered
  | clkSup
  | hzSup
  | report
deriving DecidableEq, Repr, Inhabited

/-- The acquire side of an access, a read or an atomic (R311). -/
def Acc.acquires (c : Acc) : Bool := c.ord.acquires && (!c.write || c.atomic)

/-- Judge (R311), clause by clause. -/
def State.judge (s : State) (p : Prior) (c : Acc) : Verdict :=
  if p.tag = tagNo c.r c.gen then .ordered else
  match s.lookupTag p.tag with
  | none => .clkSup
  | some e =>
    let h := gidOf c.ctx e.home
    let hz := ((s.thread? c.r).map (·.hz)).getD []
    let lost := ((s.thread? c.r).map (·.hzlost)).getD false
    if (p.kind == 1 || p.kind == 3) && c.atomic && scopesMeet p c then .ordered
    else if (p.kind == 2 || p.kind == 3) && c.acquires && scopesMeet p c then .ordered
    else if c.home ≠ 0 && e.home ≠ 0 && h == c.home && !e.hchg && decide (p.clk < s.clockOf c.home) then .ordered
    else if e.home ≠ 0 && !e.hchg && hz.any (fun x => x.1 == h && decide (p.clk < x.2)) then .ordered
    else if lost then .hzSup
    else if e.hchg || e.home == 0 then .hzSup
    else if p.clk == clockMax || s.clockOf h == clockMax then .clkSup
    else .report

/-! Metadata (R304, R305) -/

/-- The race epoch of a context (R304). -/
def State.epoch (s : State) (ctx : Nat) : Nat := ((s.ctx? ctx).map (·.epoch)).getD 0

/-- The valid metadata of a line, or none. -/
def State.raceLine? (s : State) (ctx : Nat) (line : Place) : Option RaceLine :=
  s.lines.find? fun l => l.line == line && l.ctx == ctx && l.epoch == s.epoch ctx

/-- Replaces the metadata of a line. -/
def State.setRaceLine (s : State) (l : RaceLine) : State := { s with lines := l :: s.lines.filter (·.line ≠ l.line) }

/-- The race epoch advances, and older metadata is invalid (R304). -/
def State.nextEpoch (s : State) (ctx : Nat) : State :=
  { (s.modCtx ctx fun c => { c with epoch := (c.epoch + 1) % 2 ^ 16 }) with lines := s.lines.filter (·.ctx ≠ ctx) }

/-- A loss that sets RACESUP in the accessing run's CIR (R313). -/
def State.countLoss (s : State) (ctx run : Nat) (f : Context → Context) : State := (s.modCtx ctx f).setCir run cirRACESUP

/-- A global line's shadow page (R304): assigned at the first checked access; the oldest is taken back when the region is full. False
where the context holds none, which is counted at the check alone (R313). -/
def State.shadowPage (s : State) (ctx run : Nat) (p : Place) (count : Bool) : State × Bool :=
  match p, s.ctx? ctx with
  | .dev a, some c =>
    let page := a / 65536
    if c.shadowPages = 0 then (if count then s.countLoss ctx run fun c => { c with evsup := count48 c.evsup 1 } else s, false)
    else if c.shadowMap.contains page then (s, true)
    else if c.shadowMap.length < c.shadowPages then (s.modCtx ctx fun c => { c with shadowMap := c.shadowMap ++ [page] }, true)
    else
      let old := c.shadowMap.headD 0
      let s := s.countLoss ctx run fun c => { c with evsup := count48 c.evsup 1, shadowMap := c.shadowMap.drop 1 ++ [page] }
      ({ s with lines := s.lines.filter fun l => match l.line with
          | .dev b => b / 65536 ≠ old
          | _ => true }, true)
  | .scr _ _, _ => (s, true)
  | _, _ => (s, false)

/-! Stamps and horizons (R308, R309) -/

/-- One pair of a stamp merged into a horizon table of 8 entries. -/
def mergePair (t : Thread) (x : Nat × Nat) : Thread :=
  if t.hz.any (·.1 == x.1) then { t with hz := t.hz.map fun y => if y.1 = x.1 then (y.1, max y.2 x.2) else y }
  else if t.hz.length < 8 then { t with hz := t.hz ++ [x] }
  else { t with hzlost := true }

/-- Merge (R308). -/
def Thread.merge (t : Thread) (st : Stamp) : Thread :=
  let t := st.entries.foldl mergePair t
  if st.degraded then { t with hzlost := true } else t

/-- A horizon with the entry (home, K + 1) added; K is at least `least`, the clock of a group that may have dissolved. -/
def State.stampWith (s : State) (home least : Nat) (st : Stamp) : Stamp :=
  let k := max least (s.clockOf home) + 1
  { st with entries :=
      if home = 0 then st.entries
      else if st.entries.any (·.1 == home) then st.entries.map fun y => if y.1 = home then (y.1, max y.2 k) else y
      else st.entries ++ [(home, k)] }

/-- Stamp(T) (R309). -/
def State.stampOf (s : State) (t : Thread) : Stamp := s.stampWith t.homeGid 0 { entries := t.hz, degraded := t.hzlost }

/-- A thread's stores on their way keep its horizon when it exits (log 51, DEDUCED). -/
def State.keepHorizon (s : State) (t : Thread) : State :=
  let up := fun (st : Store) => if st.r = t.r ∧ st.gen = t.gen then { st with gone := some { entries := t.hz, degraded := t.hzlost } } else st
  { s with
    blocks := s.blocks.map fun b => if b.r = t.r then { b with stores := b.stores.map up } else b
    out := s.out.map fun o => { o with st := up o.st } }

/-- Two stamps merged; more than 9 entries keep 9 and degrade (R309). -/
def Stamp.merge (a b : Stamp) : Stamp :=
  let all := b.entries.foldl (fun l x =>
    if l.any (·.1 == x.1) then l.map fun (y : Nat × Nat) => if y.1 = x.1 then (y.1, max y.2 x.2) else y else l ++ [x]) a.entries
  { entries := all.take 9, degraded := a.degraded || b.degraded || decide (9 < all.length) }

/-- The die that is home to a line (R289, R309). -/
def State.homeDie (s : State) : Place → Nat
  | .dev a => a / Config.dieBytes
  | .scr gid _ => ((s.group? gid).map fun g => dieOfCore g.home).getD 0
  | _ => 0

def State.snap? (s : State) (k : SnapKey) : Option Stamp := (s.snaps.find? (·.key == k)).map (·.st)
def State.dropSnap (s : State) (k : SnapKey) : State := { s with snaps := s.snaps.filter (·.key ≠ k) }

/-- Keeps a snapshot in a die's pool; false where the pool is full (R309). -/
def State.setSnap (s : State) (die : Nat) (k : SnapKey) (st : Stamp) : State × Bool :=
  let t := s.dropSnap k
  if (t.snaps.filter (·.die == die)).length < Config.snapPool then ({ t with snaps := t.snaps ++ [⟨die, k, st⟩] }, true)
  else (t, false)

/-- A thread merges a stamp (R309). -/
def State.mergeInto (s : State) (r : Nat) (st : Stamp) : State := s.modThread r (·.merge st)
def State.loseHorizon (s : State) (r : Nat) : State := s.modThread r fun t => { t with hzlost := true }

/-- The acquire side of an access on a line (R309). -/
def State.acquireLine (s : State) (r ctx : Nat) (line : Place) : State :=
  match s.snap? (.line line) with
  | some st => s.mergeInto r st
  | none => match (s.raceLine? ctx line).bind (·.w) with
    | some w => if 2 ≤ w.kind then s.loseHorizon r else s
    | none => s

/-- A plain load of a line with a snapshot records it as pending; a fifth sets HZLOST (R309). -/
def State.pendLine (s : State) (r : Nat) (line : Place) : State :=
  match s.snap? (.line line) with
  | none => s
  | some st => s.modThread r fun t =>
    if t.pend.length < 4 then { t with pend := t.pend ++ [st] } else { t with pend := t.pend.drop 1 ++ [st], hzlost := true }

/-- FENCE.acq merges the pending snapshots and clears them (R309). -/
def State.mergePending (s : State) (r : Nat) : State :=
  s.modThread r fun t => { t.pend.foldl Thread.merge t with pend := [] }

/-! Records (R315 to R318) -/

/-- Two byte ranges of one line overlap. -/
def overlaps (o1 n1 o2 n2 : Nat) : Bool := o1 < o2 + n2 && o2 < o1 + n1

/-- AKIND of the current access (R317). -/
def Acc.kind (c : Acc) : Nat :=
  if c.atomic then (if c.ord == .plain then 1 else 3) else if c.ord == .plain then 0 else 2

/-- The race record (R317) as eight words from byte 0, with SEQ left 0. -/
def State.raceWords (s : State) (p : Prior) (c : Acc) (trace slotNo pos mode : Nat) : List Nat :=
  let cx := s.ctx? c.ctx
  let low := fun (f : Context → Nat) => ((cx.map f).getD 0) % 2 ^ 16
  let e := s.lookupTag p.tag
  let pg := (e.map (·.home)).getD 0
  let t := s.thread? c.r
  let hz := (t.map (·.hz)).getD []
  let lost := (t.map (·.hzlost)).getD false
  let k := assocD 0 hz (gidOf c.ctx pg)
  [c.va,
   (if p.write then (if c.write then 1 else 2) else 3) + 2 ^ 8 * tagNo c.r c.gen + 2 ^ 32 * (t.map (·.tid)).getD 0,
   c.size + 2 ^ 3 * mode + 2 ^ 5 * (slotNo % 32) + 2 ^ 10 * bits trace 3 54,
   2 ^ 8 * c.kind + 2 ^ 10 * c.scope.code + 2 ^ 13 * b2n c.write + 2 ^ 14 * b2n p.write + 2 ^ 15 * p.kind + 2 ^ 17 * p.scope.code +
     2 ^ 20 * pg + 2 ^ 40 * p.tag,
   2 ^ 6 * (pos % 1024) + 2 ^ 16 * s.clockOf c.home + 2 ^ 40 * p.clk,
   (k % 2 ^ 24 + 2 ^ 27 * b2n lost + 2 ^ 28 * hz.length) + 2 ^ 35 * p.size + 2 ^ 38 * p.off + 2 ^ 44 * handleOf c.home,
   low (·.clksup) + 2 ^ 16 * low (·.snpsup) + 2 ^ 32 * low (·.hzsup) + 2 ^ 48 * low (·.evsup),
   bits s.clk.toNat 0 32]

/-- Writes a race record to the context's ring (R318); the sequence number advances whether it is written or dropped. -/
def State.raceRecord (s : State) (ctx run : Nat) (words : List Nat) : State :=
  match s.ctx? ctx with
  | none => s
  | some c =>
    let seq := c.raceSeq
    let s := s.modCtx ctx fun c => { c with raceSeq := (seq + 1) % 2 ^ 32 }
    match s.ringOf ctx run with
    | none => s.modCtx ctx fun c => { c with ringloss := count48 c.ringloss 1 }
    | some ring =>
      match s.readCtx ctx (ring.block + 16) 8, s.readCtx ctx (ring.block + 24) 8 with
      | some prod, some cons =>
        if (prod + 2 ^ 64 - cons) % 2 ^ 64 < ring.entries then
          let l := words.take 7 ++ [words.getD 7 0 + 2 ^ 32 * seq]
          match s.writeCtx ctx (ring.base + 64 * (prod % ring.entries)) (l.flatMap (leBytes 8)) with
          | some s' => (s'.writeCtx ctx (ring.block + 16) (leBytes 8 (prod + 1))).getD s'
          | none => s.modCtx ctx fun c => { c with ringloss := count48 c.ringloss 1 }
        else
          let d := (s.readCtx ctx (ring.block + 32) 8).getD 0
          (s.writeCtx ctx (ring.block + 32) (leBytes 8 (d + 1))).getD s
      | _, _ => s.modCtx ctx fun c => { c with ringloss := count48 c.ringloss 1 }

/-- The control block of a ring that comes into force (log 72, DESIGN CHOICE). -/
def State.writeRing (s : State) (ctx : Nat) (ring : Option RaceRing) : State :=
  match ring with
  | none => s
  | some r => (s.writeCtx ctx r.block (leBytes 8 r.base ++ leBytes 4 r.entries ++ leBytes 52 0)).getD s

/-! The check (R310 to R316) -/

/-- The suppression counters of a judgement (R313). -/
def State.countVerdict (s : State) (c : Acc) : Verdict → State
  | .clkSup => s.countLoss c.ctx c.run fun x => { x with clksup := count48 x.clksup 1 }
  | .hzSup => s.countLoss c.ctx c.run fun x => { x with hzsup := count48 x.hzsup 1 }
  | _ => s

/-- Judges one prior access: the state with its counters, and the prior when a race is found (R310). -/
def State.judgePrior (s : State) (c : Acc) (p : Option Prior) : State × Option Prior :=
  match p with
  | none => (s, none)
  | some p =>
    if !overlaps p.off (2 ^ p.size) c.place.lineOff (2 ^ c.size) || (!p.write && !c.write) then (s, none) else
    let v := s.judge p c
    (s.countVerdict c v, if v = .report then some p else none)

/-- Check 7 of one value (R312): judged against the metadata as it stands. The tag table learns that the thread has made a checked
access (R306). -/
def State.checkRace (s : State) (c : Acc) : State × Option Prior :=
  let s := s.modTag c.r fun e => if e.gen = c.gen then { e with touched := true } else e
  let (s, judged) := s.shadowPage c.ctx c.run c.place true
  if !judged then (s, none) else
  match s.raceLine? c.ctx c.place.line with
  | none => (s, none)
  | some l =>
    let s := if c.write && ((l.rd.map (·.shared)).getD false) then s.modCtx c.ctx fun x => { x with shrsup := count48 x.shrsup 1 } else s
    let (s, a) := s.judgePrior c (l.w.map RaceW.prior)
    let (s, b) := if c.write then s.judgePrior c (l.rd.map RaceR.prior) else (s, none)
    (s, a.or b)

/-- The metadata of a load (R312). -/
def State.raceLoad (s : State) (c : Acc) : State :=
  let (s, judged) := s.shadowPage c.ctx c.run c.place false
  if !judged then s else
  let line := c.place.line
  let l := (s.raceLine? c.ctx line).getD { line, ctx := c.ctx, epoch := s.epoch c.ctx, w := none, rd := none }
  let new : RaceR := { tag := tagNo c.r c.gen, clk := c.clk, scope := c.scope, shared := false, off := c.place.lineOff, size := c.size }
  let rd := match l.rd with
    | none => new
    | some b => if s.judge b.prior c = .ordered then new else { b with shared := true }
  s.setRaceLine { l with rd := some rd }

/-- The metadata and the snapshot of a store or an atomic that performs on checked memory (R309, R312). `rel`: it counts as a release.
`judge`: it is a checked access; an .exempt one leaves the metadata as it is (R122), as every access does where the context holds no shadow page
(R304). An acquiring atomic merges the snapshot first, and its stamp tells of what that has lost (R313). -/
def State.raceWrite (s : State) (c : Acc) (judge rel : Bool) (gone : Option Stamp) : State :=
  let (s, judged) := if judge then s.shadowPage c.ctx c.run c.place false else (s, false)
  let line := c.place.line
  let k := SnapKey.line line
  let old := s.snap? k
  let s := if c.atomic && c.acquires then s.acquireLine c.r c.ctx line else s
  let st : Stamp := match gone, s.thread? c.r with
    | some st, _ => s.stampWith c.home c.clk st
    | none, some t => s.stampOf t
    | none, none => s.stampWith c.home c.clk { entries := [], degraded := true }
  let die := s.homeDie line
  let (s, kept) :=
    if rel then s.setSnap die k (if c.atomic then (old.map (·.merge st)).getD st else st)
    else if c.atomic then (s, true)
    else (s.dropSnap k, true)
  let s := if kept then s else s.countLoss c.ctx c.run fun x => { x with snpsup := count48 x.snpsup 1 }
  let kind := if c.atomic then (if rel || old.isSome then 3 else 1) else if rel then 2 else 0
  if !judged then s else
  s.setRaceLine { line, ctx := c.ctx, epoch := s.epoch c.ctx, rd := none,
                  w := some { tag := tagNo c.r c.gen, clk := c.clk, scope := c.scope, kind, off := c.place.lineOff, size := c.size } }

/-- A write by an engine, the LDX path, the host or a peer to one checked line (R303). -/
def State.resetLine (s : State) (ctx : Nat) (line : Place) : State :=
  { ((s.dropSnap (.line line)).modCtx ctx fun c => { c with engrst := count48 c.engrst 1 }) with
    lines := s.lines.filter (·.line ≠ line) }

/-- The lines that `n` bytes at a place touch. -/
def Place.lines (p : Place) (n : Nat) : List Place :=
  if n = 0 then [] else (upFrom 0 ((p.lineOff + n + 63) / 64)).map fun i => p.line.add (64 * i)

/-- A write of `n` bytes covers a line whole. -/
def Place.covers (p : Place) (n : Nat) (line : Place) : Bool :=
  ((line.sub? p).map fun k => decide (k + 64 ≤ n)).getD false

/-- The lines of a write that R290 does not refuse. -/
def State.written (s : State) (p : Place) (n : Nat) : List Place :=
  (p.lines n).filter fun l => !s.poisoned l || (p.covers n l && !s.lost l)

/-- The detector works for a context: by its RACECTL, or for a run that began before that has changed (R301). -/
def State.raceOn (s : State) (ctx : Nat) : Bool :=
  ((s.ctx? ctx).map Context.mode).getD 0 != 0 || s.runs.any fun x => x.ctx == ctx && !x.ended && x.racectl.toNat % 4 != 0

/-- Lines of checked memory that such a write has performed on (R303). -/
def State.resetLines (s : State) (ctx : Nat) (chk : Bool) (ls : List Place) : State :=
  if !chk || !s.raceOn ctx then s else ls.foldl (fun s l => s.resetLine ctx l) s

end Sys2Proof.Machine
end

