-- ==== Sys2Proof/Machine/Memory.lean ====
section
/-! DEFINITION. What a thread's loads see, how a store performs, and the waits that a write ends (R18, R162, R163, R175, R290). -/

namespace Sys2Proof.Machine

open Sys2Proof

/-- The byte a store writes at a place. -/
def Store.byte? (st : Store) (p : Place) : Option Byte := (p.sub? st.place).bind fun k => st.bytes[k]?

/-- The newest byte that a list of stores, oldest first, holds for a place. -/
def newestByte (l : List Store) (p : Place) : Option Byte := l.foldl (fun acc st => (st.byte? p).or acc) none

/-- The stores a thread has queued, oldest first (R162). -/
def State.queued (s : State) (r gen : Nat) : List Store :=
  (s.blocks.filter (·.r == r)).flatMap fun b => b.stores.filter (·.gen == gen)

/-- The stores that have drained into a core and have still to perform at their homes, oldest first (log 4, DEDUCED). -/
def State.drained (s : State) (core : Nat) : List Store := (s.out.filter (·.core == core)).map (·.st)

/-- The byte a load of a thread returns: its pond, its own queue, its core, memory (R18, R163 rule 3); and whether it comes from a
poisoned line (R290). -/
def State.viewByte (s : State) (t : Thread) (pond : List Store) (p : Place) : Byte × Bool :=
  match (newestByte pond p).or ((newestByte (s.queued t.r t.gen) p).or (newestByte (s.drained (coreOfSlot t.r)) p)) with
  | some b => (b, false)
  | none => (s.readByte p, s.poisoned p)

/-- The bytes a load of a thread returns. -/
def State.viewBytes (s : State) (t : Thread) (pond : List Store) (p : Place) : Nat → List Byte × Bool
  | 0 => ([], false)
  | n + 1 =>
    let (b, x) := s.viewByte t pond p
    let (l, y) := s.viewBytes t pond (p.add 1) n
    (b :: l, x || y)

/-- A read of a poisoned line sets POISON in the CIR of the run (R290, R326). -/
def State.notePoison (s : State) (run : Nat) (poisoned : Bool) : State := if poisoned then s.setCir run cirPOISON else s

/-- So does a thread's access to its registers in a poisoned line of the pool. -/
def State.noteRegs (s : State) (r : Nat) (codes : List Nat) : State :=
  match s.thread? r with
  | some t => s.notePoison t.run (codes.any t.badRegs.contains)
  | none => s

/-- Whether the memory plan gives a node a region that it writes and that no shadow covers (R344, R347). -/
def State.unshadowed (s : State) (x : Run) (va : Nat) : Bool :=
  ((s.graph? x.graph).map fun g => g.plan.any fun m =>
    m.node == x.node && bit m.use 1 && !bit m.use 0 && !bit m.use 2 && decide (m.base ≤ va) && decide (va < m.base + m.len)).getD false

/-- What R347 has recorded of a run when one of its writes performs: a write without a shadow, a write to host or peer memory, and a
synchronising access of a coresident run. -/
def State.noteWrite (s : State) (run va : Nat) (p : Place) (sync : Bool) : State :=
  match s.run? run with
  | none => s
  | some x =>
    let out := match p with
      | .host .. | .peer .. => true
      | _ => false
    let wrote := s.unshadowed x va
    let synced := sync && x.coresident && !(x.shadows.any fun h => match p with
      | .dev a => h.2.2 == a / 65536
      | _ => false)
    if out || wrote || synced then
      s.modRun run fun x => { x with outward := x.outward || out, wrote := x.wrote || wrote, synced := x.synced || synced }
    else s

/-- Whether a WAITV condition holds of a value (R175): 0 .eq, 1 .ne, 2 .ge, 3 .lt. -/
def waitvHolds (ty : Ty) (cond v cmp : Nat) : Bool :=
  let w := ty.width
  let lt := if ty.isI then decide (signed w v < signed w cmp) else decide (v % 2 ^ w < cmp % 2 ^ w)
  match cond with
  | 0 => v % 2 ^ w == cmp % 2 ^ w
  | 1 => v % 2 ^ w != cmp % 2 ^ w
  | 2 => !lt
  | _ => lt

/-- The access of a WAITV's final load (R302). -/
def WaitV.acc (s : State) (t : Thread) (w : WaitV) : Acc :=
  { r := t.r, gen := t.gen, ctx := t.ctx, run := t.run, home := t.homeGid, clk := s.clockOf t.homeGid, place := w.place, va := w.va,
    size := Nat.log2 w.ty.bytes, write := false, atomic := false, ord := if w.acq then .acq else .plain, scope := w.scope }

/-- The check of that load: a Report writes a record (R302, R316, R317). -/
def State.waitvCheck (s : State) (t : Thread) (w : WaitV) : State :=
  let c := w.acc s t
  let (s, rep) := s.checkRace c
  let s := match rep with
    | some p => s.raceRecord t.ctx t.run (s.raceWords p c w.trace w.slotNo w.pos (if s.raceMode t.ctx t.run = 1 then 3 else 0))
    | none => s
  s.raceLoad c

/-- The final load of a WAITV on checked memory is judged again when it performs, unless its prefix exempts it (R302); it takes the
acquire side of R309 in either case. -/
def State.waitvJudge (s : State) (t : Thread) (w : WaitV) : State :=
  let s := if w.race == .check then s.waitvCheck t w else s
  if w.acq then s.acquireLine t.r t.ctx w.place.line else s.pendLine t.r w.place.line

/-! Trace records (R214) -/

/-- A trace record of 128 bits. -/
def traceRec (kind tag tid pc slotNo pos : Nat) : Nat :=
  pos % 1024 + 2 ^ 10 * (slotNo % 32) + 2 ^ 15 * bits pc 3 54 + 2 ^ 69 * (tid % 2 ^ 32) + 2 ^ 101 * tag + 2 ^ 125 * kind

/-- Writes one record to a core's trace buffer, where the context is traced there. -/
def State.putTrace (s : State) (core ctx : Nat) (rec : Nat) : State :=
  match (s.core core).trace with
  | some b =>
    if b.ctx = ctx ∧ 16 ≤ b.size then
      let s := (s.writeCtx ctx (b.base + 16 * (b.next % (b.size / 16))) (leBytes 16 rec)).getD s
      s.modCore core fun c => { c with trace := some { b with next := b.next + 1 } }
    else s
  | none => s

/-- A record of kinds 0 to 5: after the 512th the sync packet is due at once, and further records stand behind it (R215). -/
def State.writeTrace (s : State) (core ctx : Nat) (rec : Nat) : State :=
  match (s.core core).trace with
  | some b =>
    if b.ctx ≠ ctx then s
    else if 512 ≤ b.since then s.modCore core fun c => { c with trace := some { b with pend := b.pend ++ [rec] } }
    else
      let s := (s.putTrace core ctx rec).modCore core fun c => { c with trace := c.trace.map fun x => { x with since := x.since + 1 } }
      if b.since = 511 then { s with agenda := .event (.syncPacket core) :: s.agenda } else s
  | none => s

/-- A record of a thread: written when the event occurs, or with the records of the bundle that still holds the thread's lane. -/
def State.keepRec (s : State) (r ctx : Nat) (rec' : Nat) : State :=
  match s.bundles.find? (fun b => b.lanes.any (·.r == r)) with
  | some b => s.modLane b.p r fun l => { l with recs := l.recs ++ [rec'] }
  | none => s.writeTrace (coreOfSlot r) ctx rec'

/-- A park, wake or exit record (R214). -/
def State.traceThread (s : State) (r kind : Nat) : State :=
  match s.thread? r with
  | none => s
  | some t => s.keepRec r t.ctx (traceRec kind t.tag t.tid t.pc.toNat 0 t.pos)

/-- A parked thread is woken, with its wake record (R34, R214): a saved one has no core to write it, and gets it at its restore. -/
def State.unpark (s : State) (r : Nat) : State :=
  if away r then (s.modThread r fun t => { t with woken := true }).wake r else (s.traceThread r 4).wake r

/-- A thread parks (R34). -/
def State.park (s : State) (r : Nat) (st : Status) : State :=
  (s.modThread r fun t => { t with status := st }).traceThread r 3

/-- The loads of a thread in the log that have still to fill. -/
def State.outstanding (s : State) (r : Nat) : List LogEntry := s.oplog.filter fun e => e.r == r && !e.cancelled

/-- A logged load of a thread has still to perform: its translation is not known, and no fault of it is (R163 rule 2). -/
def State.loadsWait (s : State) (r : Nat) : Bool := (s.outstanding r).any fun e => e.data.isNone && e.fault.isNone

/-- One turn of a WAITV's loop (R175): whether the value meets the condition, which ends the wait. `race` is `.dflt` where the memory is
not checked or the mode is OFF. -/
def State.waitvNow (s : State) (t : Thread) (w : WaitV) : State × Bool :=
  let (l, poisoned) := s.viewBytes t [] w.place w.ty.bytes
  let s := (s.askPeer [] w.place).notePoison t.run poisoned
  if waitvHolds w.ty w.cond (ofLe l) w.cmp then
    let s := if w.race == .dflt then s else s.waitvJudge t w
    (s.modThread t.r fun t => { t with wait := none }, true)
  else (s.modThread t.r fun t => { t with wait := some (.waitv { w with since := s.clk.toNat }) }, false)

/-- A thread parked in a WAITV loads again, once its earlier loads have performed: when the condition holds it is woken. -/
def State.waitvTry (s : State) (r : Nat) : State :=
  if away r then s else
  match s.thread? r with
  | none => s
  | some t =>
    if s.loadsWait r then s else
    match t.wait, t.status with
    | some (.waitv w), .waiting =>
      match s.waitvNow t w with
      | (s, true) => s.unpark r
      | (s, false) => s
    | _, _ => s

/-- A thread reaches its WAITV, or comes back to it after a trap (R27, R175): it goes on, or parks. -/
def State.waitvOpen (s : State) (r : Nat) (w : WaitV) : State :=
  match s.thread? r with
  | none => s
  | some t =>
    match s.waitvNow t w with
    | (s, true) => s
    | (s, false) => s.park r .waiting

/-- A write to a line wakes every WAITV parked on it (R175). -/
def State.wakeLine (s : State) (line : Place) : State :=
  (s.threads.filter fun t => match t.wait with
    | some (.waitv w) => w.place.line == line
    | _ => false).foldl (fun s t => s.waitvTry t.r) s

/-- Wakes the waits on every line that `n` bytes touch. -/
def State.wakeLines (s : State) (p : Place) (n : Nat) : State :=
  (upFrom 0 ((p.lineOff + n + 63) / 64)).foldl (fun s i => s.wakeLine (p.line.add (64 * i))) s

/-- The access of a store that performs. -/
def Store.acc (st : Store) : Acc :=
  { r := st.r, gen := st.gen, ctx := st.ctx, run := st.run, home := st.home, clk := st.kclk, place := st.place, va := st.va,
    size := Nat.log2 st.bytes.length, write := true, atomic := false, ord := st.ord, scope := st.scope }

/-- What a store that performs leaves beside its bytes: the race metadata (R309, R312), and what R347 records of its run. -/
def State.storeNotes (s : State) (st : Store) : State :=
  let s := if st.mem then s.raceWrite st.acc st.checked st.rel st.gone else s
  s.noteWrite st.run st.va st.place (st.ord.releases && (st.scope == .dev || st.scope == .sys))

/-- A store performs at its line's home, which wakes no wait yet. One that R290 or R381 refuses leaves nothing but POISON. -/
def State.putStore (s : State) (st : Store) : State :=
  let s := if (s.written st.place st.bytes.length).isEmpty then s else s.storeNotes st
  s.store (some st.run) st.place st.bytes

/-- The waits on the lines that stores have written are tried. -/
def State.wakeStores (s : State) (l : List Store) : State := l.foldl (fun s st => s.wakeLines st.place st.bytes.length) s

/-- A store performs at its line's home (R290, R309, R312). -/
def State.performStore (s : State) (st : Store) : State := (s.putStore st).wakeStores [st]

/-- A write by an engine, the LDX path, the host or a peer (R303). -/
def State.engineWrite (s : State) (run : Option Nat) (ctx va : Nat) (chk : Bool) (p : Place) (l : List Byte) : State :=
  let done := s.written p l.length
  let s := s.store run p l
  let s := match run with
    | some x => if done.isEmpty then s else s.noteWrite x va p false
    | none => s
  (s.resetLines ctx chk done).wakeLines p l.length

/-- The drained stores that a predicate chooses and those that they follow, with the rest: a releasing store follows everything that its core has
drained before it (R122, R295, R298). The list is newest first; `cs` names the cores of the releases met. -/
def splitOut (p : OutStore → Bool) (cs : List Nat) : List OutStore → List OutStore × List OutStore
  | [] => ([], [])
  | o :: l =>
    if p o || cs.contains o.core then
      let (a, b) := splitOut p (if o.st.rel then o.core :: cs else cs) l
      (a ++ [o], b)
    else
      let (a, b) := splitOut p cs l
      (a, b ++ [o])

/-- Performs the drained stores that a predicate chooses, oldest first, and before each release what it follows, as one act: the waits are tried
when every one has. -/
def State.putOut (s : State) (p : OutStore → Bool) : State :=
  let (a, b) := splitOut p [] s.out.reverse
  a.foldl (fun s o => s.putStore o.st) { s with out := b }
def State.flushOut (s : State) (p : OutStore → Bool) : State :=
  (s.putOut p).wakeStores ((splitOut p [] s.out.reverse).1.map (·.st))

/-- The bytes of full lines of a block: a line is covered when the block stores all 64 of its bytes (R290). -/
def coversLine (l : List Store) (line : Place) : Bool :=
  (upFrom 0 64).all fun i => (newestByte l (line.add i)).isSome

/-- A whole-line write of a poisoned line by one block: performed at once, and the poison is cleared (R290). -/
def State.fullLine (s : State) (l : List Store) (line : Place) : State :=
  let bytes := (upFrom 0 64).map fun i => (newestByte l (line.add i)).getD 0
  (s.writeAt line bytes).heal line

/-- Scratch cycles beyond the minimum of one act that touches the bytes listed, by group and offset (R161). -/
def bankExtra (l : List (Nat × Nat)) : Nat :=
  let words := (l.map fun x => (x.1, x.2 / 4)).foldl (fun (a : List (Nat × Nat)) x => if a.contains x then a else a ++ [x]) []
  let most := (upFrom 0 64).foldl (fun m b => max m (words.filter (·.2 % 64 == b)).length) 0
  most - ceilDiv words.length 64

/-- The scratch bytes of a value. -/
def Place.scrBytes : Place → Nat → List (Nat × Nat)
  | .scr g o, n => (upFrom o n).map fun a => (g, a)
  | _, _ => []

/-- One store of a block that drains. One in the lines that the block covers whole has its bytes there already; one to scratch performs in the
core; any other goes to its home. A releasing one makes what drained before it perform first (R122, R296; log 6, DEDUCED). -/
def State.drainStore (s : State) (core blk : Nat) (lines : List Place) (st : Store) : State :=
  let first := fun (s : State) => if st.rel then s.putOut fun o => o.core == core else s
  if lines.contains st.place.line then (first s).storeNotes st
  else match st.place with
    | .scr _ _ => (first s).putStore st
    | _ => { s with out := s.out ++ [{ core, blk, st }] }

/-- A store of a block performs in its drain. -/
def Store.stays (st : Store) (lines : List Place) : Bool :=
  lines.contains st.place.line || match st.place with
    | .scr _ _ => true
    | _ => false

/-- A block drains into the core and becomes visible there as a whole, to a parked WAITV too (R162, R163). Stores to scratch perform at once; the
others go to their homes. A poisoned line that the block covers whole is rewritten in the same act; a store that covers part of one is left
out (R290). -/
def State.drainBlock (s : State) (b : Block) : State :=
  let hit := s.poison.filter fun l => b.stores.any (·.place.line == l)
  let lines := hit.filter (coversLine b.stores)
  let extra := bankExtra (b.stores.flatMap fun st => st.place.scrBytes st.bytes.length)
  let s := if extra = 0 then s else s.modPart b.core b.part fun c => { c with bankxtra := count48 c.bankxtra extra }
  let awake := if b.stores.any (·.stays lines) then s.drained b.core ++ b.stores else []
  let s := lines.foldl (fun s l => (s.putOut fun o => o.core == b.core && o.st.place.line == l).fullLine b.stores l) s
  let blk := s.seq
  let s : State := { s with seq := s.seq + 1 }
  (b.stores.foldl (fun s st =>
    if hit.contains st.place.line && !lines.contains st.place.line then s.setCir st.run cirPOISON else s.drainStore b.core blk lines st) s).wakeStores awake

/-- Drains every block that a thread has queued, with the blocks before them in their partition's queue (log 6, DEDUCED). -/
def State.drainThread (s : State) (r : Nat) : State :=
  let c := coreOfSlot r
  let p := partOfSlot r
  let mine := fun (b : Block) => b.core == c && b.part == p
  let q := s.blocks.filter mine
  let n := q.length - (q.reverse.takeWhile (·.r ≠ r)).length
  (q.take n).foldl State.drainBlock { s with blocks := (s.blocks.filter fun b => !mine b) ++ q.drop n }

/-- Every earlier store of a thread performs at its home (R172, R174, R188): its blocks drain and its core's outbox performs. -/
def State.flushThread (s : State) (r : Nat) : State :=
  (s.drainThread r).flushOut fun o => o.core == coreOfSlot r

/-! Posted loads in the operand log (R25 to R27) -/

/-- The bytes a list of values' places hold for a thread, each value `n` bytes. -/
def State.viewValues (s : State) (t : Thread) (pond : List Store) (n : Nat) : List Place → List Byte × Bool
  | [] => ([], false)
  | p :: ps =>
    let (a, x) := s.viewBytes t pond p n
    let (b, y) := s.viewValues t pond n ps
    (a ++ b, x || y)

/-- A posted load performs: it takes the bytes that are visible now (R18, R26, log 4, DEDUCED). Nothing is done where it has performed or its
translation is not at hand. -/
def State.capture (s : State) (pond : List Store) (e : LogEntry) : State × LogEntry :=
  if e.walk || e.data.isSome then (s, e) else
  match s.thread? e.r with
  | none => (s, e)
  | some t =>
    let (l, poisoned) := s.viewValues t pond e.ty.bytes e.places
    let s := e.places.foldl (State.askPeer · []) s
    let s := if e.chk then e.places.foldl (fun (s : State) p => s.pendLine e.r p.line) s else s
    (s.notePoison e.run poisoned, { e with data := some l })

/-- Performs the logged loads that a predicate chooses. -/
def State.captureLog (s : State) (p : LogEntry → Bool) : State :=
  (s.oplog.filter p).foldl (fun s e =>
    let (s, e') := s.capture [] e
    { s with oplog := s.oplog.map fun x => if x.id = e.id then e' else x }) s

/-- The bytes of a store and of values of `n` bytes at some places meet. -/
def Store.meetsAt (st : Store) (n : Nat) (ps : List Place) : Bool :=
  ps.any fun p =>
    ((p.sub? st.place).map (fun k => decide (k < st.bytes.length))).getD false ||
    ((st.place.sub? p).map (fun k => decide (k < n))).getD false
def LogEntry.meets (e : LogEntry) (st : Store) : Bool := st.meetsAt e.ty.bytes e.places

end Sys2Proof.Machine
end

