-- ==== Sys2Proof/Machine/Members.lean ====
section
/-! DEFINITION. What ties threads together: barrier objects (R241, R262 to R264), the barrier of a group (R188), gather arrivals
(R157), departures and exits (R29, R186), discarded lanes (R17), and the end of a run by force (R346). -/

namespace Sys2Proof.Machine

open Sys2Proof


/-- The membership slot and the offset of a scratch reference (R225). -/
def refSlot (r : Nat) : Nat := bits r 30 2
def refOff (r : Nat) : Nat := bits r 0 22

/-- `n` bytes of a group's scratch as a number. -/
def Group.rd (g : Group) (off n : Nat) : Nat := ofLe (g.scr.readN off n)
/-- Writes a number into a group's scratch. -/
def Group.wr (g : Group) (off n v : Nat) : Group := { g with scr := g.scr.writeN off (leBytes n v) }

def State.scrRd (s : State) (gid off n : Nat) : Nat := ((s.group? gid).map fun g => g.rd off n).getD 0
/-- A write into an object of scratch, which lies in one line: it is not performed while that line is poisoned (R290). -/
def State.scrBad (s : State) (gid off : Nat) : Bool := s.poison.contains (Place.scr gid off).line
def State.scrWr (s : State) (gid off n v : Nat) : State :=
  if s.scrBad gid off then s else (s.modGroup gid fun g => g.wr off n v).wakeLines (.scr gid off) n

/-- A run's access to such an object sets POISON in its CIR while the line is poisoned (R290, R326). -/
def State.noteScr (s : State) (run gid off : Nat) : State := s.notePoison run (s.scrBad gid off)

/-- Whether a thread is parked (R34). -/
def Status.parked : Status → Bool
  | .waiting | .waitf _ _ | .bwait _ _ _ | .flacq _ _ | .gather _ => true
  | _ => false

/-- A thread halts with an event to the debugger (R29, R210, R213); one that is parked no longer is (R214). -/
def State.halt (s : State) (r kind arg1 : Nat) : State :=
  match s.thread? r with
  | some t => ((if t.status.parked then s.traceThread r 4 else s).modThread r fun t => { t with status := .halted, stepping := false }).event t.ctx kind (s.nodeNo t.run) t.tag arg1
  | none => s

/-! Barrier objects (R262, R263) -/

/-- The word at the start of a barrier object, from its fields. -/
def barWord (phase beyond : Bool) (expa arra : Nat) : Nat := arra + 2 ^ 14 * expa + 2 ^ 30 * b2n beyond + 2 ^ 31 * b2n phase

/-- The snapshot of a barrier object or a GBAR phase merges a stamp; a full pool degrades it (R309), which SNPSUP counts for the thread
that arrives (R313). -/
def State.stampOn (s : State) (die : Nat) (k : SnapKey) (t : Thread) : State :=
  let st := s.stampOf t
  match s.snap? k with
  | some old => (s.setSnap die k (old.merge st)).1
  | none =>
    let (x, kept) := s.setSnap die k st
    if kept then x else
      State.countLoss { x with snaps := x.snaps ++ [⟨die, k, { entries := [], degraded := true }⟩] } t.ctx t.run
        fun c => { c with snpsup := count48 c.snpsup 1 }

/-- A BARV by a thread stamps its object, while race checking is on (R309). -/
def State.barStamp (s : State) (gid off r : Nat) : State :=
  match s.thread? r with
  | some t => if s.raceMode t.ctx t.run = 0 then s else s.stampOn (s.homeDie (.scr gid off)) (.bar gid off) t
  | none => s

/-- A flip opens the gate of every HALO command that waits for the phase it brings (R240, R263). -/
def State.openGates (s : State) (gid off : Nat) (phase : Bool) : State :=
  { s with groups := s.groups.map fun g => { g with ring := g.ring.map fun k => { k with cur := k.cur.map fun c =>
      if c.gated && c.gateGid == gid && c.gateOff == off && c.gatePhase == phase then { c with gated := false } else c } } }

/-- Every BWAIT parked on an object is woken by its flip (R263, R266). -/
def State.wakeBar (s : State) (gid off : Nat) : State :=
  (s.threads.filter fun t => match t.status with
    | .bwait g o _ => g == gid && o == off
    | _ => false).foldl (fun (s : State) t => s.unpark t.r) s

/-- Arrive (R263): one event. `pure`: the arrivals are a BARV by a thread whose home is this group (R307). It is not performed on a poisoned
line (R290). -/
def State.arriveAt (s : State) (gid off na nb : Nat) (pure : Bool) : State :=
  match s.group? gid with
  | none => s
  | some g =>
    if s.scrBad gid off then s else
    let w := g.rd off 4
    let expa := bits w 14 14
    let expb := g.rd (off + 4) 6
    let a0 := bits w 0 14 + na
    let b0 := g.rd (off + 10) 6 + nb
    let a := min a0 16383
    let b := min b0 (2 ^ 48 - 1)
    let beyond := bit w 30 || decide (16383 < a0) || decide (2 ^ 48 - 1 < b0) || decide (expa < a) || decide (expb < b)
    let pures := if na = 0 then g.pureArr else assocSet g.pureArr off (assocD true g.pureArr off && pure)
    let flip := decide (expa ≤ a) && decide (expb ≤ b)
    let put := fun (ph : Bool) (x y : Nat) (ps : List (Nat × Bool)) (s : State) =>
      (s.modGroup gid fun g => { (g.wr off 4 (barWord ph beyond expa x)).wr (off + 10) 6 y with pureArr := ps, barWaited := assocSet g.barWaited off 0 }).wakeLines
        (.scr gid off) 16
    if flip then
      let tick := expa == g.members.length && !beyond && expb == 0 && assocD true pures off
      let s := put (!bit w 31) (a - expa) (b - expb) (pures.filter (·.1 ≠ off)) s
      let s := if tick then s.tickGroup gid else s
      (s.openGates gid off (!bit w 31)).wakeBar gid off
    else put (bit w 31) a b pures s

/-- The phase bit of an absent group's object once the signals mailed so far have been applied (R248, R265). -/
def State.phaseMailed (s : State) (gid off : Nat) : Bool :=
  let u := (s.mailbox.filter fun x => x.gid == gid && x.off == off).foldl (fun (s : State) x => s.arriveAt gid off x.arrivals x.bytes x.pure) s
  bit (u.scrRd gid off 4) 31

/-- Whether a group is absent: its signals go to the mailbox (R248). -/
def State.absent (s : State) (g : Group) : Bool := !g.resident || (s.core g.home).gated

/-- Whether the mailbox of a group's die has room (R248). -/
def State.mailRoom (s : State) (gid : Nat) : Bool :=
  match s.group? gid with
  | some g => !s.absent g || decide ((s.mailbox.filter (·.die == dieOfCore g.home)).length < Config.mailbox)
  | none => true

/-! The barrier of a group (R188) -/

/-- The phase's snapshot merges an arriving member's stamp, while race checking is on (R309). -/
def State.gbarStamp (s : State) (gid r : Nat) : State :=
  match s.thread? r with
  | none => s
  | some t =>
    if s.raceMode t.ctx t.run = 0 then s
    else s.stampOn (((s.group? gid).map fun g => dieOfCore g.home).getD 0) (.gbar gid) t

/-- The waits for a phase of a group that a thread has set aside, in trap handling or until they are resumed, are over (R27). -/
def Thread.observe (t : Thread) (gid : Nat) : Thread :=
  { t with trap := t.trap.map fun x => { x with waits := x.waits.filter (· ≠ .gbarPhase gid) }, more := t.more.filter (· ≠ .gbarPhase gid) }
def Thread.setAside (t : Thread) : List Wait := ((t.trap.map (·.waits)).getD []) ++ t.more

/-- A member whose phase has completed: it merges the snapshot and is woken. A wait that a trap has set aside is the older one; its
completion counts as observed (R27, R188). -/
def State.gbarWake (s : State) (gid : Nat) (st : Option Stamp) (r : Nat) : State :=
  let s := match st with
    | some x => s.mergeInto r x
    | none => s
  match s.thread? r with
  | none => s
  | some t =>
    if t.setAside.contains (.gbarPhase gid) then s.modThread r (·.observe gid)
    else
      let s := s.modThread r fun t => { t with wait := none }
      match t.status with
      | .waiting => s.unpark r
      | _ => s

/-- Completes the phase when every expected member has arrived; the held arrivals then open the next phase. The first argument bounds
the phases completed in one act: no phase is held beyond the next. -/
def State.gbarCheck (s : State) (gid : Nat) : Nat → State
  | 0 => s
  | n + 1 =>
    match s.group? gid with
    | none => s
    | some g =>
      match g.gbar with
      | none => s
      | some ph =>
        if ph.expected.all ph.arrived.contains then
          let st := s.snap? (.gbar gid)
          let s := ((s.dropSnap (.gbar gid)).tickGroup gid).modGroup gid fun g => { g with gbar := none }
          let s := ph.arrived.foldl (fun (s : State) r => s.gbarWake gid st r) s
          if ph.held.isEmpty then s else
          let s := s.modGroup gid fun g =>
            { g with gbar := some { expected := g.members.map (·.1), arrived := ph.held, held := [], waited := 0 } }
          (ph.held.foldl (fun (s : State) r => s.gbarStamp gid r) s).gbarCheck gid n
        else s

/-- An arrival at the barrier of a group (R188). One by a member that the phase does not await, or that has arrived in it, is held for the
next phase. -/
def State.gbarArrive (s : State) (gid r : Nat) : State :=
  let s := s.modThread r fun t => { t with wait := some (.gbarPhase gid) }
  match s.group? gid with
  | none => s
  | some g =>
    match g.gbar with
    | none =>
      ((s.modGroup gid fun g =>
        { g with gbar := some { expected := g.members.map (·.1), arrived := [r], held := [], waited := 0 } }).gbarStamp gid r).gbarCheck gid 2
    | some ph =>
      if ph.expected.contains r && !ph.arrived.contains r then
        ((s.modGroup gid fun g => { g with gbar := some { ph with arrived := setAdd r ph.arrived, waited := 0 } }).gbarStamp gid r).gbarCheck gid 2
      else s.modGroup gid fun g => { g with gbar := some { ph with held := ph.held ++ [r] } }

/-- A GBAR arrival that waits for posted loads arrives once none is outstanding, and every store before it has performed (R188); one that a trap
has set aside waits for TRET. -/
def State.gbarResume (s : State) (r : Nat) : State :=
  match s.thread? r with
  | some t => match t.wait with
    | some (.gbarArrive gid) => if (s.outstanding r).isEmpty then (s.flushThread r).gbarArrive gid r else s
    | _ => s
  | none => s

/-! Gather arrivals (R32, R157) -/

def State.modArrival (s : State) (block : Nat) (f : Arrival → Arrival) : State :=
  { s with arrivals := s.arrivals.map fun x => if x.block = block then f x else x }
def State.addArrival (s : State) (a : Arrival) : State := { s with arrivals := s.arrivals ++ [a] }

/-- The live members of a lane set (R32): resident slot and rank. A member that holds the group in m1 to m3 is awaited by its
rank like the others (log 77, DEDUCED). -/
def Group.laneSet (g : Group) (set : Nat) : List (Nat × Nat) := g.members.filter fun m => m.2 / 64 == set

/-- The record of a lane set is complete: the set enters the PC table as one entry. -/
def State.gatherCheck (s : State) (block : Nat) : State :=
  match s.arrivals.find? (·.block == block) with
  | none => s
  | some a =>
    let live := ((s.group? a.gid).map fun g => (g.laneSet a.set).map (·.1)).getD []
    let expected := live.filter fun r => !a.arrived.contains r
    let s : State := { s with arrivals := s.arrivals.map fun x => if x.block = block then { x with expected } else x }
    if a.arrived.isEmpty then { s with arrivals := s.arrivals.filter (·.block ≠ block) }
    else if expected.isEmpty then
      let r0 := a.arrived.headD 0
      { (a.arrived.foldl (fun (s : State) r => (s.traceThread r 4).modThread r fun t => { t with status := .runnable }) s) with
        arrivals := s.arrivals.filter (·.block ≠ block), seq := s.seq + 1,
        table := s.table ++ [{ core := coreOfSlot r0, part := partOfSlot r0, addr := a.addr, threads := a.arrived,
                               gather := some a.gid, seq := s.seq, since := s.clk.toNat, promoted := none }] }
    else s

/-- A thread that reaches a gather trace parks on its lane set's record (R157). -/
def State.gatherArrive (s : State) (r : Nat) : State :=
  match s.thread? r with
  | none => s
  | some t =>
    match t.m0 with
    | none => s
    | some m =>
      let addr := t.pc.toNat
      let block := blockOfSlot r
      let s := (s.leaveTable r).park r (.gather addr)
      match s.arrivals.find? (·.block == block) with
      | some a =>
        if a.addr = addr then
          (s.modArrival block fun x => { x with arrived := setAdd r x.arrived, waited := 0 }).gatherCheck block
        else s.modPart (coreOfSlot r) (partOfSlot r) fun c => { c with gatherwait := count48 c.gatherwait 1 }
      | none =>
        (s.addArrival { block, gid := m.gid, set := m.rank / 64, addr, expected := [], arrived := [r], waited := 0 }).gatherCheck
          block

/-- A thread leaves wherever it waits to issue: the table, its lane set's entry, which the others leave for the record again, and the
record (R27, R35). -/
def State.detach (s : State) (r : Nat) : State :=
  let block := blockOfSlot r
  let sets := s.table.filter fun e => e.threads.contains r && e.gather.isSome
  let s := s.leaveTable r
  let s : State := { s with arrivals := s.arrivals.map fun x => { x with arrived := setDel r x.arrived } }
  let s : State := { s with arrivals := s.arrivals.filter (!·.arrived.isEmpty) }
  sets.foldl (fun (s : State) e =>
    let rest := setDel r e.threads
    if rest.isEmpty then s else
    let s := rest.foldl (fun (s : State) x => s.park x (.gather e.addr)) s
    let set := (((s.thread? (rest.headD 0)).bind (·.m0)).map fun m => m.rank / 64).getD 0
    { s with arrivals := s.arrivals ++ [{ block, gid := e.gather.getD 0, set, addr := e.addr, expected := [r], arrived := rest, waited := 0 }] }) s

/-! Lanes (R17, R35) -/

/-- A lane that has dropped what R17 discards, and is inactive. -/
def Lane.clear (l : Lane) : Lane :=
  { l with active := false, temps := [], res := [], pond := [], tflags := 0, fclear := 0, qr := false, prb := false, tstatW := none,
           pselW := none, hinge := none, posted := [], gsets := [], progs := [], yields := false, tret := none, abort := false,
           notes := [], scReads := [], flumes := [], stage := 0, next := none }

/-- A flume slot taken by a lane that does not commit is given back (R270). -/
def State.giveBack (s : State) (f : Nat × Nat × Nat) : State :=
  let s := s.scrWr f.1 (f.2.1 + 14) 2 (s.scrRd f.1 (f.2.1 + 14) 2 + 1)
  let s := s.modGroup f.1 fun g => { g with flumeBack := g.flumeBack ++ [(f.2.1, f.2.2)] }
  (s.threads.filter fun t => match t.status with
    | .flacq g o => g == f.1 && o == f.2.1
    | _ => false).foldl (fun (s : State) t => s.unpark t.r) s

/-- The replay-queue operations of a thread are retired with its trace; those left are unchecked (R165). -/
def State.retireOps (s : State) (r : Nat) : State :=
  let c := coreOfSlot r
  let n := ((s.core c).replay.filter (·.r == r)).length
  if n = 0 then s else
  (s.modCore c fun x => { x with replay := x.replay.filter (·.r ≠ r) }).modPart c (partOfSlot r) fun x =>
    { x with replaydrop := count48 x.replaydrop n }

/-- Discard (R24): the lane loses its work, flume slots and table reservations go back (R264, R270). RPASS ends with a discarded trace,
and stays for one that is abandoned (R13, R35). A lane that is not active has nothing to lose. -/
def State.discard (s : State) (p : PortId) (r : Nat) (abandoned : Bool) : State :=
  match (s.bundle? p).bind (·.lane? r) with
  | none => s
  | some l =>
    if !l.active then s else
    let s := (l.flumes.foldl State.giveBack s).retireOps r
    let s : State := { s with groups := s.groups.map fun g => if g.reserved.any (·.1 == r) then { g with reserved := g.reserved.filter (·.1 ≠ r) } else g }
    let s := s.modThread r fun t =>
      { t with onePass := false, tstat := if abandoned then t.tstat else setBit t.tstat tstatRPASS false }
    s.modLane p r Lane.clear

/-- A bundle formed outside the range of a brake trial adds the cycles it has held its port, less the injected delay (R218). -/
def State.brakeLeave (s : State) (b : Bundle) : State :=
  match b.brake with
  | some d => s.modPart b.p.core b.p.part fun c => { c with brkocc := count48 c.brkocc (s.clk.toNat - b.since - d) }
  | none => s

/-- The scratch cycles of the slot that a bundle has issued are counted once all its lanes have left it (R161). -/
def State.closeBanks (s : State) (p : PortId) : State :=
  match s.bundle? p with
  | none => s
  | some b =>
    if b.banks.isEmpty then s else
    let extra := bankExtra b.banks
    let s := s.modBundle p fun b => { b with banks := [] }
    if extra = 0 then s else s.modPart p.core p.part fun c => { c with bankxtra := count48 c.bankxtra extra }

/-- The bundle leaves the trace once it has no active lane: its records are written and its threads re-enter the table at their PCs
(R154, R214); a thread that was slot-stepped halts there, and one that has parked is stepped on once it is woken (R211). -/
def State.leaveBundle (s : State) (p : PortId) : State :=
  match s.bundle? p with
  | none => s
  | some b =>
    if b.lanes.any (·.active) then s else
    let s := s.closeBanks p
    let s := State.brakeLeave { s with bundles := s.bundles.filter (·.p ≠ p) } b
    let s := b.lanes.foldl (fun (s : State) l => l.recs.foldl (fun (s : State) x => s.writeTrace p.core l.ctx x) s) s
    b.lanes.foldl (fun (s : State) l => match s.thread? l.r with
      | some t =>
        if t.status = .issuing p then
          (if t.stepping then s.modThread l.r fun t => { t with status := .halted, stepping := false } else s.enterTable l.r)
        else s
      | none => s) s

/-- Abandons a lane as R35 does: PC and loop position are kept. -/
def State.abandon (s : State) (p : PortId) (r : Nat) : State := s.discard p r true

/-- The port where a thread is issuing. -/
def Thread.port? (t : Thread) : Option PortId :=
  match t.status with
  | .issuing p => some p
  | _ => none

/-! Departures, exits and runs (R29, R186, R346) -/

/-- The CPYGO covers an entry that stands at or after a ring position. -/
def RingSnap.past (x : RingSnap) (pos : Nat) : Bool :=
  let d := (x.prod + 2 ^ 32 - pos) % 2 ^ 32
  decide (1 ≤ d) && decide (d ≤ 2 ^ 31)

/-- The CPYGO that covers a ring position: the first whose PROD lies past it. -/
def Ring.snapFor (k : Ring) (pos : Nat) : Option RingSnap :=
  k.snaps.find? (·.past pos)

/-- The groups that a published entry names, as its CPYGO found them (R225, R255, R256). -/
def entryGids (g : Group) (k : Ring) (snap : RingSnap) (pos : Nat) : List Nat :=
  let e := k.entries + 64 * (pos % k.nent)
  let h := g.rd e 4
  let kind := bits h 0 4
  let mem := fun (ref : Nat) => (snap.mems.getD (refSlot ref) none).toList
  mem (g.rd (e + 4) 4) ++ (if bit h 8 then mem (g.rd (e + 8) 8) else []) ++
    (if bit h 9 || kind == 2 then mem (g.rd (e + 16) 8) else []) ++
    (if kind = 1 then mem (g.rd (k.entries + 64 * ((pos + 1) % k.nent) + 12) 4) else [])

/-- The groups that the published entries of a ring name, from a position on; the first argument bounds their number. -/
def ringGids (g : Group) (k : Ring) : Nat → Nat → List Nat
  | 0, _ => []
  | n + 1, pos =>
    match k.snapFor pos with
    | none => []
    | some snap =>
      let ext := bit (g.rd (k.entries + 64 * (pos % k.nent)) 4) 10
      entryGids g k snap pos ++ ringGids g k n (pos + if ext then 2 else 1)

/-- The groups that a ring's published entries keep: their own, and those they name (R225, R256). -/
def Group.ringKeeps (g : Group) : List Nat :=
  match g.ring with
  | some k => if k.snaps.isEmpty then [] else g.gid :: ringGids g k (k.nent + 1) (g.rd (k.off + 4) 4)
  | none => []

/-- Whether a released engine command still names a group (R225), or a committed store to its scratch is still queued (R164). -/
def State.named (s : State) (gid : Nat) : Bool :=
  s.groups.any (fun g =>
    g.mq.any (fun c => (g.gid == gid) || c.bGid == gid || c.blk.outGid == gid || c.blk.resGid == gid || c.blk.barGid == gid ||
      c.rows.any (·.aGid == gid)) ||
    (g.drain.map fun d => g.gid == gid || d.cmd.bGid == gid || d.cmd.blk.barGid == gid || d.cmd.blk.outGid == gid).getD false ||
    g.ringKeeps.contains gid ||
    (g.ring.bind (·.cur)).any (fun c => g.gid == gid || c.srcGid == gid || c.dstGid == gid || c.barGid == some gid || c.gateGid == gid)) ||
  s.ldxs.any (·.gid == gid) || s.blocks.any fun b => b.stores.any fun st => match st.place with
    | .scr g _ => g == gid
    | _ => false

/-- Frees every dissolved group that no released command and no queued store names (R164, R186, R225). -/
def State.freeGroups (s : State) : State := { s with groups := s.groups.filter fun g => !g.dissolved || s.named g.gid }

/-- A member departs from a group: from its barrier, its lane set and its record; the last one dissolves it (R186, R188). The phase that it has
opened still awaits the others. -/
def State.depart (s : State) (r gid : Nat) : State :=
  let s := s.modGroup gid fun g =>
    let members := g.members.filter (·.1 ≠ r)
    let sets := members.map fun m => m.2 / 64
    { g with
      members, dissolved := members.isEmpty
      blocks := g.blocks.filter fun b => sets.contains b.1
      gbar := g.gbar.map fun ph => { ph with expected := setDel r ph.expected, arrived := setDel r ph.arrived, held := setDel r ph.held } }
  let s : State := { s with arrivals := s.arrivals.map fun a => if a.gid = gid then { a with arrived := setDel r a.arrived } else a }
  let blocks := (s.arrivals.filter (·.gid == gid)).map (·.block)
  ((blocks.foldl State.gatherCheck s).gbarCheck gid 2).freeGroups

/-- A thread ends (R29, R346): it leaves its groups, its slot is free, its tag entry stays with LIVE = 0. -/
def State.exitThread (s : State) (r : Nat) : State :=
  match s.thread? r with
  | none => s
  | some t =>
    let s := (s.keepHorizon t).detach r
    let s := [t.m0, t.m1, t.m2, t.m3].foldl (fun (s : State) m => match m with
      | some x => s.depart r x.gid
      | none => s) s
    let s : State := { s with threads := s.threads.filter (·.r ≠ r), oplog := s.oplog.filter (·.r ≠ r) }
    let s : State := if away r then { s with tags := s.tags.filter (·.r ≠ r) } else s
    (s.modTag (t.r % Config.numSlots) fun e => if e.gen = t.gen then { e with live := false } else e).modRun t.run fun x =>
      { x with exited := x.exited + 1 }

/-- The lanes of a run that stand before their commit are abandoned, as R341 stops cores. -/
def State.abandonRun (s : State) (run : Nat) : State :=
  let mine := fun (l : Lane) => l.active && l.stage == 0 && ((s.thread? l.r).map (·.run == run)).getD false
  s.bundles.foldl (fun (s : State) b => (b.lanes.filter mine).foldl (fun (s : State) l => s.abandon b.p l.r) s) s

/-- A lane of a run is at commit, which finishes it (R341). -/
def State.runCommits (s : State) (run : Nat) : Bool :=
  s.bundles.any fun b => b.lanes.any fun l => l.active && decide (1 ≤ l.stage) && ((s.thread? l.r).map (·.run == run)).getD false

/-- Ends a run of which no lane is at commit: its threads count as exited, its copy commands stop and are dropped; its matrix commands go on. -/
def State.endRunNow (s : State) (run : Nat) : State :=
  let rs := (s.threads.filter (·.run == run)).map (·.r)
  let s := rs.foldl State.exitThread s
  let s : State := { s with groups := s.groups.map fun g => { g with ring := g.ring.map fun k =>
    { k with cur := k.cur.filter (·.run ≠ run), snaps := k.snaps.filter (·.run ≠ run) } } }
  ((s.bundles.foldl (fun (s : State) b => s.leaveBundle b.p) s).modRun run fun x => { x with ended := true, failing := false }).freeGroups

/-- Ends a run at once (R346, R348): its lanes at commit finish it first (R341). -/
def State.endRun (s : State) (run : Nat) : State :=
  let s := s.abandonRun run
  if s.runCommits run then (s.bundles.foldl (fun (s : State) b => s.leaveBundle b.p) s).modRun run fun x => { x with failing := true }
  else s.endRunNow run

/-- A run is ending at once: no thread of it issues. -/
def State.failing (s : State) (run : Nat) : Bool := ((s.run? run).map (·.failing)).getD false

/-- The runs that are ending at once and have no lane left at commit are ended. -/
def State.endFailing (s : State) : State :=
  (s.runs.filter fun x => x.failing && !x.ended).foldl (fun (s : State) x => s.endRun x.id) s

/-- A node fails (R199, R207, R346): its run is ended at once as a run with ABORT set. -/
def State.failNode (s : State) (run : Nat) : State := (s.setCir run cirABORT).endRun run

/-! Completion signals (R242, R248) -/

/-- A signal whose barrier lay on a core that has been reset since its command was released: LOSTCMP is set, and the group is failed, its
run ending at once (R248, R326, R346). -/
def State.loseSignal (s : State) (run gid : Nat) : State :=
  let s := s.setCir run cirLOSTCMP
  match s.group? gid with
  | none => s
  | some g => (s.setCir g.run cirLOSTCMP).endRun g.run

/-- A completion signal: an engine adds bytes to a barrier object, through the mailbox where its group is absent. -/
def State.signal (s : State) (run gid off bytes resets : Nat) : State :=
  match s.group? gid with
  | none => s
  | some g =>
    if g.resets ≠ resets then s.loseSignal run gid
    else if s.absent g then
      { s with mailbox := s.mailbox ++ [{ die := dieOfCore g.home, gid, off, arrivals := 0, bytes, pure := false, run, resets }] }
    else (s.noteScr run gid off).arriveAt gid off 0 bytes false

/-- One mailboxed signal reaches the saved barrier state. -/
def State.applySignal (s : State) (x : Signal) : State :=
  match s.group? x.gid with
  | none => s
  | some g =>
    if g.resets ≠ x.resets then s.loseSignal x.run x.gid else (s.noteScr x.run x.gid x.off).arriveAt x.gid x.off x.arrivals x.bytes x.pure

/-- The mailboxed signals of an absent group's object reach it, in arrival order: before a BINIT, which discards the events before it (R248, R264). -/
def State.mailObject (s : State) (gid off : Nat) : State :=
  (s.mailbox.filter fun x => x.gid == gid && x.off == off).foldl State.applySignal
    { s with mailbox := s.mailbox.filter fun x => !(x.gid == gid && x.off == off) }

end Sys2Proof.Machine
end

