-- ==== Sys2Proof/Machine/Ops.lean ====
section
/-! DEFINITION. The named operations over memory and traps: the checks of an access (R118, R279, R280), the attributes of a prefix
(R61, R62), and taking a trap and returning from it (R131, R132, R198 to R207). -/

namespace Sys2Proof.Machine

open Sys2Proof

/-! Prefix attributes -/

/-- The attributes that MDEF gives (R62). -/
def mdefWord (m : BitVec 32) : PWord :=
  { ord := (Ord.ofCode? (bits m.toNat 11 3)).getD .plain, scope := (Scope.ofCode? (bits m.toNat 8 3)).getD .dev,
    space := (Space.ofCode? (bits m.toNat 5 3)).getD .generic, cache := (Cache.ofCode? (bits m.toNat 2 3)).getD .dflt,
    race := (RaceAttr.ofCode? (bits m.toNat 0 2)).getD .dflt }

/-- The attributes of an access: its P word, or MDEF with an ordering that the instruction does not accept taken as plain (R61). -/
def State.attrs (s : State) (t : Thread) (pre : Option PWord) (acc : Ord → Bool) : PWord :=
  match pre with
  | some p => p
  | none =>
    let p := mdefWord (((s.ctx? t.ctx).map (·.par.mdef)).getD 0x300)
    if acc p.ord then p else { p with ord := .plain }

/-! Checks 1 to 6 (R118) -/

/-- What the checks of an access give: the place of each value and whether it is race-checked memory, a fault with cause, DETAIL and
address, or a wait for a translation. -/
inductive Chk where
  | ok (ps : List (Place × Bool))
  | fault (cause detail addr : Nat)
  | wait
deriving DecidableEq, Repr, Inhabited

/-- A byte lies in a window, and in the private window below the thread's private size (R278, R279). -/
def byteIn (t : Thread) (a : Nat) : Bool :=
  match windowOf a with
  | some .own => decide (a - privateBase < t.psize)
  | some _ => true
  | none => false

/-- Check 1 of one value (R279). A value is shorter than a window and than the gap before one, so its ends tell. -/
def inWindows (t : Thread) (va size : Nat) : Bool := byteIn t va && byteIn t (va + size - 1)

/-- Check 2 of one value (R279): every byte lies in the window that the space names. -/
def inSpace (sp : Space) (va size : Nat) : Bool :=
  [va, va + size - 1].all fun a => ((windowOf a).map (spaceAllows sp)).getD false

/-- The group and offset of a scratch-window address, with the group's allocation (R280). -/
def State.scratchAt (s : State) (t : Thread) (va : Nat) : Option (Nat × Nat × Nat) :=
  let m := (va - scratchBase) / 0x400000
  (t.mem m).bind fun x => (s.group? x.gid).map fun g => (x.gid, (va - scratchBase) % 0x400000, g.alloc)

/-- Check 4 of one value: the allocation it runs past, or none (R118, R280). -/
def State.scratchBreach (s : State) (t : Thread) (va size : Nat) : Option Nat :=
  if windowOf va = some .scratch then
    match s.scratchAt t va with
    | some (_, off, alloc) => if off + size ≤ alloc then none else some alloc
    | none => some 0
  else none

/-- The global address behind a private offset: the fault record as last written for the first 64 bytes (in the entry of the slot that the thread
had then; log 95, DEDUCED), the thread's store above (R204, R281). -/
def State.privateAt (s : State) (t : Thread) (off : Nat) : Nat :=
  if off < 64 then ((s.ctx? t.ctx).map fun c => recordAddr c (t.recSlot.getD t.r) + off).getD 0 else t.storeBase + off

/-- Translates an address in the view of a thread's run (R345). `who`: the access, in the walker's books. -/
def State.xlatAs (s : State) (t : Thread) (va : Nat) (write : Bool) (who : Nat := t.r) : State × Xlat :=
  match s.xlat (coreOfSlot t.r) t.ctx va write who with
  | (s, .ok p c) => (s, .ok (s.runView t.run p) c)
  | x => x

/-- The byte of a group's scratch behind a scratch-window address, and whether it is race-checked (R280, R302). -/
def State.scrPlace (s : State) (t : Thread) (va : Nat) : Xlat :=
  match s.scratchAt t va with
  | some (gid, off, _) => .ok (.scr gid off) (((s.group? gid).map (·.rchk)).getD false)
  | none => .fault 0x0B 0

/-- Checks 5 and 6 at a private offset: the first 64 bytes are the thread's fault record, which is read-only (R204, R281). -/
def State.ownPlace (s : State) (t : Thread) (off : Nat) (write : Bool) (who : Nat := t.r) : State × Xlat :=
  if off < 64 then
    match s.xlat (coreOfSlot t.r) t.ctx (s.privateAt t off) false who with
    | (s, .ok p c) => (s, if write then .fault 0x0D 1 else .ok p c)
    | x => x
  else s.xlatAs t (s.privateAt t off) write who

/-- Checks 5 and 6 of one value. -/
def State.placeOf (s : State) (t : Thread) (va : Nat) (write : Bool) (who : Nat := t.r) : State × Xlat :=
  match windowOf va with
  | some .scratch => (s, s.scrPlace t va)
  | some .own => s.ownPlace t (va - privateBase) write who
  | _ => s.xlatAs t va write who

/-- Checks 5 and 6 over the values of an access, in order: a translation fault of any value comes before a protection fault. -/
def State.placesOf (s : State) (t : Thread) (write : Bool) (vas : List Nat) (who : Nat := t.r) : State × Chk :=
  match vas with
  | [] => (s, .ok [])
  | va :: l =>
    match s.placeOf t va write who with
    | (s, .wait) => (s, .wait)
    | (s, .ok p k) => match s.placesOf t write l who with
      | (s, .ok ps) => (s, .ok ((p, k) :: ps))
      | x => x
    | (s, .fault c d) => if c = 0x0C then (s, .fault c d va) else
      match s.placesOf t write l who with
      | (s, .fault c' d' a) => (s, if c' = 0x0C then .fault c' d' a else .fault c d va)
      | (s, .wait) => (s, .wait)
      | (s, .ok _) => (s, .fault c d va)

/-- The addresses of the values of an access. -/
def valueAddrs (va size n : Nat) : List Nat := (upFrom 0 n).map fun i => va + i * size

/-- Checks 1 to 4, in order; none when they pass. -/
def State.check14 (s : State) (t : Thread) (sp : Space) (va size n : Nat) : Option Chk :=
  let vs := valueAddrs va size n
  match vs.find? (fun v => !inWindows t v size) with
  | some v => some (.fault 0x08 0 v)
  | none =>
    match vs.find? (fun v => !inSpace sp v size) with
    | some v => some (.fault 0x09 sp.code v)
    | none =>
      if va % size ≠ 0 then some (.fault 0x0A 0 va) else
      (vs.find? (fun v => (s.scratchBreach t v size).isSome)).map fun v => .fault 0x0B ((s.scratchBreach t v size).getD 0) v

/-- Checks 1 to 6 of an access of `n` values of `size` bytes (R118). -/
def State.checkAccess (s : State) (t : Thread) (sp : Space) (va size n : Nat) (write : Bool) (who : Nat := t.r) : State × Chk :=
  match s.check14 t sp va size n with
  | some f => (s, f)
  | none => s.placesOf t write (valueAddrs va size n) who

/-- Whether the detector works on an access to a value: on checked memory, while the mode of its run is not OFF (R301, R302). -/
def State.raceMem (s : State) (t : Thread) (chk : Bool) : Bool := chk && s.raceMode t.ctx t.run != 0

/-- Whether an access to a value is race-checked (R302): the mode, the memory and the prefix. -/
def State.raceChecked (s : State) (t : Thread) (race : RaceAttr) (chk : Bool) : Bool := s.raceMem t chk && race != .exempt

/-! Taking a trap -/

/-- A fault record with every field that does not apply left 0 (R202). -/
def faultInfo (cause detail : Nat) : FaultInfo :=
  { cause, detail, pre := 0, instr := 0, ttag := 0, pos := 0, slotNo := 0, deferred := false, reg := 0, opnd := 0, size := 0, addr := 0,
    savePc := 0 }

/-- What a thread that cannot go on meets (R199, R200): it halts when a debugger is attached, else its node fails. -/
def State.haltOrFail (s : State) (r kind arg1 : Nat) : State :=
  match s.thread? r with
  | none => s
  | some t => if ((s.ctx? t.ctx).map (·.debugger)).getD false then (s.detach r).halt r kind arg1 else s.failNode t.run

/-- A double trap (R200): no record, CAUSE 0x30, an event with the second cause. -/
def State.doubleTrap (s : State) (r cause : Nat) : State :=
  match s.thread? r with
  | none => s
  | some t =>
    let s := s.modThread r fun t => { t with tstat := setCause t.tstat 0x30 }
    let s := s.event t.ctx 8 (s.nodeNo t.run) t.tag cause
    if ((s.ctx? t.ctx).map (·.debugger)).getD false then
      (s.detach r).modThread r fun t => { t with status := .halted, stepping := false }
    else s.failNode t.run

/-- A pipeline-error enters the default handler, which sets PIPEERR and returns with TRET.re; a second one at the same trace and loop
position before that trace commits fails the node (R199, R207). -/
def State.pipelineTrap (s : State) (t : Thread) : State :=
  if t.pipes.contains (t.pc.toNat, t.pos) then s.failNode t.run
  else (s.setCir t.run cirPIPEERR).modThread t.r fun t => { t with pipes := t.pipes ++ [(t.pc.toNat, t.pos)] }

/-- A thread whose PC has been set goes on from there: a thread of a bundle re-enters the table when the bundle leaves the trace, any
other at once (R154, R198). A halted thread stays halted (R29, R34). -/
def State.goOn (s : State) (r : Nat) : State :=
  match s.thread? r with
  | none => s
  | some t => match t.status with
    | .issuing _ | .halted => s
    | .runnable | .saved => (s.detach r).wake r
    | _ => (s.detach r).unpark r

/-- The waits of a thread, the current one first. -/
def Thread.waits (t : Thread) : List Wait := t.wait.toList ++ t.more

/-- The thread enters trap handling: a deferred fault sets the holds on its next trace and its pending waits aside (R27). -/
def Thread.enterTrap (t : Thread) (kind : TrapKind) (succ : Option Succ) (resume : Resume) : Thread :=
  let saved : TrapState := { kind, pc := t.pc.toNat, pos := t.pos, cnt := t.cnt, succ, resume, holds := ⟨false, false, false⟩, waits := [],
                             ending := none }
  match kind with
  | .deferred _ =>
    { t with trap := some { saved with holds := t.hold, waits := t.waits, ending := t.ending }, hold := ⟨false, false, false⟩, wait := none
             more := [], ending := none, pos := 0, cnt := none }
  | _ => { t with trap := some saved, pos := 0, cnt := none }

/-- TAKING A TRAP (R198): the record is written, CAUSE takes the code, the thread is in trap handling and its PC is the handler's
trace address. The lane's trace has been discarded, or committed for TRAP. Where the record cannot be written the run ends as one
with ABORT; in trap handling it is a double trap (R200); a pipeline-error takes the default handler, and so does a context that names
none (R199; where the thread then stands is log 12, DEDUCED). `trace`, `pos`: the trace and position that the trap record of R214 names. -/
def State.takeTrap (s : State) (r : Nat) (kind : TrapKind) (info : FaultInfo) (succ : Option Succ) (resume : Resume) (trace pos : Nat) :
    State :=
  match s.thread? r with
  | none => s
  | some t =>
    if t.trap.isSome && info.cause != 0x28 then s.doubleTrap r info.cause else
    match s.writeRecord t info with
    | none => s.failNode t.run
    | some s =>
      let s := s.keepRec r t.ctx (traceRec 2 t.tag t.tid trace info.slotNo pos)
      let s := s.modThread r fun t => { t with tstat := setCause t.tstat info.cause, recSlot := some r }
      if info.cause = 0x28 then s.pipelineTrap t else
      let handler := ((s.ctx? t.ctx).map (·.par.handler)).getD 0
      let s := s.modThread r fun t => t.enterTrap kind succ resume
      if handler = 0 then s.haltOrFail r 5 0
      else (s.modThread r fun t => { t with pc := .ofNat 64 handler }).goOn r

/-- The record kinds of a lane, kept until its bundle leaves (R214). -/
def State.noteRec (s : State) (p : PortId) (r kind slotNo : Nat) : State :=
  match s.thread? r with
  | none => s
  | some t => s.modLane p r fun l => { l with recs := l.recs ++ [traceRec kind t.tag t.tid t.pc.toNat slotNo t.pos] }

/-- A lane of a bundle traps in a slot or at fetch (R20, R198): its trace is discarded, then the trap is taken. -/
def State.trapLane (s : State) (p : PortId) (r : Nat) (kind : TrapKind) (info : FaultInfo) (succ : Option Succ) : State :=
  match s.thread? r with
  | none => s
  | some t => (s.discard p r false).takeTrap r kind { info with savePc := t.pc.toNat } succ (.at_ t.pc.toNat) t.pc.toNat t.pos

/-- A deferred fault reaches a thread that is not in trap handling (R27): a trace in progress is discarded, a parked thread is woken;
the record names the load's own trace and slot. The trap record of R214 names the trace and the loop position at which the thread is interrupted, and the
load's slot (log 105, DEDUCED). -/
def State.deferredTrap (s : State) (r : Nat) (h : HeldFault) : State :=
  match s.thread? r with
  | none => s
  | some t =>
    let s := match t.port? with
      | some p => s.discard p r false
      | none => s
    s.takeTrap r (.deferred h.id) { h.info with savePc := t.pc.toNat } none (.at_ t.pc.toNat) t.pc.toNat t.pos

/-- A deferred fault arrives (R27, R201): the destination stays empty with no fill pending. In trap handling the fault is held, and for a
thread that stays halted until it is resumed (R29, R34; log 78, DEDUCED). -/
def State.deferFault (s : State) (e : LogEntry) (info : FaultInfo) : State :=
  let s : State := { s with oplog := s.oplog.map fun x => if x.id = e.id then { x with cancelled := true } else x }
  let s := s.modThread e.r fun t => { t with fills := t.fills.filter fun c => !(e.regs.any (·.1 == c)) }
  match s.thread? e.r with
  | none => s
  | some t =>
    let h : HeldFault := { id := e.id, info }
    if t.trap.isSome || t.status == .halted then s.modThread e.r fun t => { t with held := t.held ++ [h] }
    else (s.deferredTrap e.r h).leaveBundle ((t.port?).getD { core := 0, part := 0, port := 0 })

/-! Posted loads that perform (R26, R119, R163) -/

/-- The record of a posted load's fault (R27, R202): its own trace and slot. -/
def LogEntry.info (e : LogEntry) (cause detail addr : Nat) (deferred : Bool) : FaultInfo :=
  { faultInfo cause detail with
    pre := e.preWord, instr := e.word.toNat, ttag := e.ttag, pos := e.pos, slotNo := e.slotNo, deferred,
    reg := if deferred then e.dest else 0, opnd := if deferred then 3 else 0, size := Nat.log2 e.ty.bytes, addr }

/-- Translates a posted load whose translation is not at hand (R119): its entry with the places, a fault or a wait. -/
def State.translateLoad (s : State) (t : Thread) (e : LogEntry) : State × Except (Option FaultInfo) LogEntry :=
  if !e.walk then (s, .ok e) else
  match s.placesOf t false (valueAddrs e.va e.ty.bytes e.n) (loadWho e.id) with
  | (s, .ok ps) => (s, .ok { e with walk := false, places := ps.map (·.1), chk := ps.any fun x => s.raceMem t x.2 })
  | (s, .fault c d a) => (s, .error (some (e.info c d a false)))
  | (s, .wait) => (s, .error none)

def State.setLog (s : State) (e : LogEntry) : State := { s with oplog := s.oplog.map fun x => if x.id = e.id then e else x }

/-- The stores before a logged load in its own trace that still stand in the pond of its lane, whose commit has not passed step 4 (R18). -/
def State.pondOf (s : State) (e : LogEntry) : List Store :=
  match s.bundles.findSome? fun b => b.lanes.find? fun l => l.r == e.r && l.posted.any (·.id == e.id) with
  | some l => (l.pond.filterMap fun x => match x with
    | .store st => some st
    | .eng _ _ => none).filter (·.slotNo < e.slotNo)
  | none => []

/-- A logged load of a thread performs, with its translation where that can be had; a fault of it is kept for its delivery (R27). -/
def State.performEntry (s : State) (t : Thread) (e : LogEntry) : State :=
  if e.fault.isSome then s else
  match s.translateLoad t e with
  | (s, .ok e) => let (s, e) := s.capture (s.pondOf e) e; s.setLog e
  | (s, .error (some f)) => s.setLog { e with fault := some (f.cause, f.detail, f.addr) }
  | (s, .error none) => s

def State.logEntry? (s : State) (id : Nat) : Option LogEntry := s.oplog.find? (·.id == id)

/-- Loads of a thread perform in their order, up to one that waits for its translation (R163 rule 2). -/
def State.performInOrder (s : State) (t : Thread) : List LogEntry → State
  | [] => s
  | e :: l =>
    let s := s.performEntry t e
    if ((s.logEntry? e.id).map fun x => x.data.isNone && x.fault.isNone).getD false then s else s.performInOrder t l

/-- The committed loads of a thread that are outstanding perform, oldest first; `upTo` bounds their ids. -/
def State.performLog (s : State) (t : Thread) (upTo : Nat) : State :=
  s.performInOrder t ((s.outstanding t.r).filter (·.id < upTo))

/-! Pending waits -/

/-- The next wait that a TRET has brought back is resumed, before the thread's next trace issues (R27): a WAITV is evaluated again, once the
thread's earlier loads have performed; a GBAR arrives or goes on waiting. -/
def State.resumeWaits (s : State) (r : Nat) : State :=
  match s.thread? r with
  | none => s
  | some t => match t.wait, t.more with
    | some _, _ | none, [] => s
    | none, w :: rest =>
      let s := s.modThread r fun t => { t with wait := some w, more := rest }
      match w with
      | .waitv w =>
        let s := s.performLog t s.seq
        if s.loadsWait r then (s.detach r).park r .waiting else
        match s.waitvNow t w with
        | (s, true) => s
        | (s, false) => (s.detach r).park r .waiting
      | _ => ((s.detach r).park r .waiting).gbarResume r

/-- A lane of the thread has begun its commit, which completes first (R21, R27, R35). -/
def State.committing (s : State) (r : Nat) : Bool := s.bundles.any fun b => b.lanes.any fun l => l.r == r && decide (1 ≤ l.stage)

end Sys2Proof.Machine
end

