-- ==== Sys2Proof/Machine/Trace.lean ====
section
/-! DEFINITION. Traces: the structure words (R63), stepped words (R30), fetching a trace and checking it (R16). -/

namespace Sys2Proof.Machine

open Sys2Proof

/-! Structure words (R63) -/

def hLen (h : Nat) : Nat := bits h 51 5
def hPond (h : Nat) : Nat := bits h 47 4
def hNres (h : Nat) : Nat := bits h 44 3
def hHinge (h : Nat) : Bool := bit h 43
def hGather (h : Nat) : Bool := bit h 42
def hRepeat (h : Nat) : Bool := bit h 41
def hMask (h : Nat) : Nat := bits h 32 8
def hTag (h : Nat) : Nat := bits h 0 32
def tKind (t : Nat) : Nat := bits t 53 3
def tLink (t : Nat) : Nat := bits t 43 10
def tOffset (t : Nat) : Int := signed 24 (bits t 0 24)
def lReg (l : Nat) : Nat := bits l 46 10
def lImm (l : Nat) : Nat := bits l 36 10

/-- A step field (R63): slot, operand (0 d, 1 a, 2 b, 3 c), step. -/
structure StepField where
  slot : Nat
  operand : Nat
  step : Int
deriving DecidableEq, Repr, Inhabited

def stepField (v : Nat) : StepField := { slot := bits v 7 5, operand := bits v 5 2, step := signed 5 (bits v 0 5) }

/-- The three step fields of an L word. -/
def lSteps (l : Nat) : List StepField := [stepField (bits l 0 12), stepField (bits l 12 12), stepField (bits l 24 12)]

/-- The N word's named results, `n` of them. -/
def nFields (w n : Nat) : List Nat := (upFrom 0 n).map fun i => bits w (10 * i) 10

def Trace.h (t : Trace) : Nat := t.hword.toNat
def Trace.len (t : Trace) : Nat := hLen t.h
def Trace.slot (t : Trace) (n : Nat) : Nat := (t.slots.getD (n - 1) 0).toNat
def Trace.succ (t : Trace) : Succ := { hAddr := t.hAddr, tword := t.tword, after := t.after }

/-! Stepped words (R30) -/

/-- Instruction formats (R57). -/
inductive Fmt where
  | A | I | G | M | X | E | S
deriving DecidableEq, Repr, Inhabited

/-- The format of an opcode byte (R64); none for the bytes that R64 leaves unassigned, and for structure words. -/
def fmtOf (op : Nat) : Option Fmt :=
  if op ≤ 0x0B then some .S
  else if 0x10 ≤ op && op ≤ 0x2F then some .A
  else if 0x30 ≤ op && op ≤ 0x3F then some .I
  else if 0x40 ≤ op && op ≤ 0x5A then some .A
  else if op = 0x5B then some .I
  else if 0x70 ≤ op && op ≤ 0x72 then some .A
  else if 0x80 ≤ op && op ≤ 0x85 then some .G
  else if 0x90 ≤ op && op ≤ 0x98 then some .A
  else if op = 0xA4 then some .X
  else if (0xA0 ≤ op && op ≤ 0xA7) || (0xB0 ≤ op && op ≤ 0xBB) then some .M
  else if 0xC0 ≤ op && op ≤ 0xCA then some .X
  else if 0xD0 ≤ op && op ≤ 0xDD then some .E
  else none

/-- The hinge opcodes (R64 class H). -/
def opIsHinge (op : Nat) : Bool :=
  op == 0x01 || op == 0x0B || (0xA5 ≤ op && op ≤ 0xA7) || (0xB0 ≤ op && op ≤ 0xBB) || (0xC4 ≤ op && op ≤ 0xC7) || op == 0xD5 || op == 0xD8

/-- The opcodes of R64 class Ga. -/
def opIsGather (op : Nat) : Bool := (0xC0 ≤ op && op ≤ 0xC3) || op == 0xD0

/-- Whether a word can step an operand (R30). -/
def canStep (w operand : Nat) : Bool :=
  match fmtOf (opcodeOf w) with
  | some .I | some .S => operand != 2
  | some .G => operand == 1 || operand == 2
  | some _ => true
  | none => false

/-- A stepped field leaves what it held on pass 0 (R16 row 11): registers by class, a g index, a number in a range. -/
inductive FieldClass where
  | reg | greg
  | num (lo hi : Int)
deriving DecidableEq, Repr, Inhabited

/-- Whether a register code stays in the class of its code on pass 0. -/
def sameClass (c0 : Nat) (v : Int) : Bool :=
  if c0 = 0 then decide (v = 0)
  else if c0 ≤ 1015 then decide (1 ≤ v) && decide (v ≤ 1015)
  else decide (1016 ≤ v) && decide (v ≤ 1023)

/-- A field of `n` bits at `lo` of a word moved by `by_`, and whether row 11 of R16 lets it stand. `base` is the value the field stands
for. -/
def stepNum (w lo n : Nat) (base by_ : Int) (cls : FieldClass) : Option (Nat × Bool) :=
  let v := base + by_
  let ok := match cls with
    | .reg => sameClass (bits w lo n) v
    | .greg => decide (0 ≤ v) && decide (v ≤ 383)
    | .num a b => decide (a ≤ v) && decide (v ≤ b)
  some (w - bits w lo n * 2 ^ lo + wrap n v * 2 ^ lo, ok)

/-- A register field moved. -/
def stepReg (w lo : Nat) (g : Bool) (by_ : Int) : Option (Nat × Bool) :=
  stepNum w lo 10 (bits w lo 10 : Nat) by_ (if g then .greg else .reg)

/-- The range that nlsasm accepts for an immediate of an I word, with the sign it is read with (R79, R91; log 22, DEDUCED). -/
def immRange (op ty : Nat) : Bool × Int × Int :=
  let w := ((Ty.ofCode? ty).map Ty.width).getD 32
  let isI := 1 ≤ ty && ty ≤ 4
  let hiU : Int := min (2 ^ 20 - 1) ((2 ^ w : Nat) - 1)
  let loS : Int := max (-(2 ^ 19)) (-((2 ^ (w - 1) : Nat) : Int))
  let hiS : Int := min (2 ^ 19 - 1) (if isI then (2 ^ (w - 1) : Nat) - 1 else (2 ^ w : Nat) - 1)
  if op = 0x30 || op = 0x31 || op = 0x3D then (true, loS, hiS)
  else if op = 0x32 || op = 0x33 || op = 0x3E then (if isI then (true, loS, hiS) else (false, 0, hiU))
  else if op = 0x34 || op = 0x35 || op = 0x36 then (false, 0, hiU)
  else (false, 0, 2 ^ 20 - 1)

/-- The access size in bytes of an M word, by which a stepped offset counts (R30). -/
def accessBytes (w : Nat) : Nat := max 1 (((Ty.ofCode? (bits w 52 4)).map Ty.bytes).getD 1)

/-- StepWord for one step field (R30): the word, the offset carried beside it, and whether the field stands. -/
def stepOne (w : Nat) (extra : Int) (operand : Nat) (by_ : Int) : Nat × Int × Bool :=
  let op := opcodeOf w
  let keep := fun (x : Option (Nat × Bool)) => match x with
    | some (w', ok) => (w', extra, ok)
    | none => (w, extra, false)
  match fmtOf op, operand with
  | some .A, 0 => keep (stepReg w 30 false by_)
  | some .A, 1 => keep (stepReg w 20 (bits w 40 2 == 1) by_)
  | some .A, 2 => keep (stepReg w 10 (bits w 40 2 == 2) by_)
  | some .A, _ =>
    if op = 0x2C || op = 0x4A || op = 0x70 then keep (stepNum w 0 10 (bits w 0 10 : Nat) by_ (.num 0 1023))
    else keep (stepReg w 0 (bits w 40 2 == 3) by_)
  | some .I, 0 => keep (stepReg w 30 false by_)
  | some .I, 1 => keep (stepReg w 20 (bit w 43) by_)
  | some .I, _ =>
    if op = 0x3C then
      let isI := 1 ≤ bits w 52 4 && bits w 52 4 ≤ 4
      if isI then keep (stepNum w 0 16 (signed 16 (bits w 0 16)) by_ (.num (-32768) 32767))
      else keep (stepNum w 0 16 (bits w 0 16 : Nat) by_ (.num 0 65535))
    else
      let (sg, lo, hi) := immRange op (bits w 52 4)
      keep (stepNum w 0 20 (if sg then signed 20 (bits w 0 20) else (bits w 0 20 : Nat)) by_ (.num lo hi))
  | some .G, 1 => keep (stepReg w 34 false by_)
  | some .G, _ =>
    if bit w 44 then keep (stepNum w 24 10 (signed 10 (bits w 24 10)) by_ (.num (-512) 511)) else keep (stepReg w 24 (bit w 45) by_)
  | some .M, 0 => keep (stepReg w 36 false by_)
  | some .M, 1 => keep (stepReg w 26 false by_)
  | some .M, 2 => keep (stepReg w 16 false by_)
  | some .M, _ => (w, extra + by_ * (accessBytes w : Int), true)
  | some .X, 0 => if op = 0xCA then keep (stepNum w 30 10 (bits w 30 10 : Nat) by_ (.num 0 1023)) else keep (stepReg w 30 false by_)
  | some .X, 1 => keep (stepReg w 20 false by_)
  | some .X, 2 => keep (stepReg w 10 false by_)
  | some .X, _ =>
    if (0xC0 ≤ op && op ≤ 0xC3) || (0xC7 ≤ op && op ≤ 0xC9) then keep (stepNum w 0 10 (bits w 0 10 : Nat) by_ (.num 0 1023))
    else keep (stepReg w 0 false by_)
  | some .E, 0 => keep (stepReg w 30 false by_)
  | some .E, 1 => keep (stepReg w 20 false by_)
  | some .E, 2 => keep (stepReg w 10 false by_)
  | some .E, _ => keep (stepNum w 40 4 (bits w 40 4 : Nat) by_ (.num 0 15))
  | some .S, 0 => keep (stepReg w 30 false by_)
  | some .S, 1 => keep (stepReg w 20 false by_)
  | some .S, _ => keep (stepNum w 0 20 (bits w 0 20 : Nat) by_ (.num 0 (2 ^ 20 - 1)))
  | none, _ => (w, extra, true)

/-- StepWord over the step fields that name a slot. Two fields that name one operand are added one after the other, and row 11 of R16 judges
the field after each (log 75, DEDUCED). -/
def stepAll (w : Nat) (extra : Int) (pass : Nat) : List StepField → Nat × Int × Bool
  | [] => (w, extra, true)
  | f :: l =>
    let (w', x', ok) := stepOne w extra f.operand (f.step * pass)
    if ok then stepAll w' x' pass l else (w', x', false)

/-- StepWord (R30): the word of a slot on a pass, with the offset that stepping adds; false where row 11 of R16 traps. -/
def Trace.stepWord (t : Trace) (slotNo pass : Nat) : Nat × Int × Bool :=
  match t.lword with
  | none => (t.slot slotNo, 0, true)
  | some l => stepAll (t.slot slotNo) 0 pass ((lSteps l.toNat).filter (·.slot == slotNo))

/-- The P word of the slot before, where there is one (R61). -/
def Trace.prefixAt (t : Trace) (slotNo : Nat) : Option Nat :=
  if 2 ≤ slotNo && opcodeOf (t.slot (slotNo - 1)) == 0xE4 then some (t.slot (slotNo - 1)) else none

/-! Fetch (R16) -/

/-- What fetching a trace gives: a checked trace; a trap of every lane with cause, DETAIL, address and the trace tag, where H was read; or a
wait. -/
inductive Fetched where
  | ok (t : Trace)
  | trap (cause detail addr ttag : Nat)
  | wait
deriving DecidableEq, Repr, Inhabited

/-- The word at a place as a core's fetch for a run reads it, and whether its line is poisoned (R290). -/
def State.codeAt (s : State) (core run : Nat) (p0 : Place) : Nat × Bool :=
  let p := s.runView run p0
  let d := s.drained core
  (ofLe ((upFrom 0 8).map fun i => (newestByte d (p.add i)).getD (s.readByte (p.add i))), s.poisoned p)

/-- The stores that lanes of the fetching bundle have queued to a word of the trace drain before the word is read, since each lane's own stores come
before its load (R16, R163; log 92, DEDUCED). `who`: a lane of the bundle. -/
def State.codeSettle (s : State) (who : Nat) (p : Place) : State :=
  match ((s.thread? who).bind (·.port?)).bind s.bundle? with
  | none => s
  | some b => (b.lanes.filterMap fun l => s.thread? l.r).foldl (fun (s : State) t =>
      if (upFrom 0 8).any (fun i => (newestByte (s.queued t.r t.gen) (p.add i)).isSome) then s.drainThread t.r else s) s

/-- A word of code (R16): a load from the global window, never race-checked; all-ones from a poisoned line, which the CIR of the run of each lane
reports (R290). `runs`: those of the bundle, the first lane's first, whose view the fetch takes. -/
def State.codeWord (s : State) (core ctx : Nat) (runs : List Nat) (who va : Nat) : State × Except Fetched Nat :=
  let run := runs.headD 0
  if 2 ^ 56 ≤ va + 7 then (s, .error (.trap 0x08 0 va 0)) else
  match s.xlat core ctx va false who with
  | (s, .ok p _) =>
    let s := s.codeSettle who (s.runView run p)
    let (w, poisoned) := s.codeAt core run p
    (runs.foldl (fun (s : State) x => s.notePoison x poisoned) (s.askPeer [] (s.runView run p)), .ok w)
  | (s, .fault c d) => (s, .error (.trap c d va 0))
  | (s, .wait) => (s, .error .wait)

/-- Consecutive words of code. -/
def State.codeWords (s : State) (core ctx : Nat) (runs : List Nat) (who : Nat) : Nat → Nat → State × Except Fetched (List Nat)
  | _, 0 => (s, .ok [])
  | va, n + 1 =>
    match s.codeWord core ctx runs who va with
    | (s, .error e) => (s, .error e)
    | (s, .ok w) =>
      match s.codeWords core ctx runs who (va + 8) n with
      | (s, .error e) => (s, .error e)
      | (s, .ok l) => (s, .ok (w :: l))

/-- The codes that an instruction names as registers, for the temporaries-used check (R16). -/
def namedTemps (i : Instr) : List Nat :=
  ((srcsOf i).filter (!·.us)).flatMap (fun x => upFrom x.code x.words) ++
  (dstsOf i ++ namedOf i).flatMap (fun x => upFrom x.code x.words) |>.filter (1016 ≤ ·)

/-- Every register in 1 to 1015 that an instruction writes (R16, R128). -/
def writtenRegs (i : Instr) : List Nat :=
  ((dstsOf i).flatMap fun x => if x.code = 0 then [] else upFrom x.code x.words).filter (· ≤ 1015)

/-- The instructions of a trace's slots as stored; a word that raises illegal-encoding counts nothing (R64). -/
def slotInstrs (slots : List Nat) : List Instr :=
  slots.filterMap fun w => match decodeWord w with
    | .ok i => some i
    | .error _ => none

/-- Whether a P word stands where it may (R16 row 3). -/
def prefixesOk : List Nat → Bool
  | [] => true
  | [w] => opcodeOf w != 0xE4
  | w :: v :: t => (opcodeOf w != 0xE4 || isMX v) && prefixesOk (v :: t)

/-- The first row of R16's table, from row 2 on, whose condition holds at fetch. `inSet`: the bundle is a lane set. -/
def badRow (t : Trace) (n : Nat) (inSet : Bool) : Option Nat :=
  let h := t.h
  let slots := t.slots.map (·.toNat)
  let ops := slots.map opcodeOf
  let last := ops.getLastD 0
  let is := slotInstrs slots
  let fields := nFields n 6
  if ops.any (fun o => 0xE0 ≤ o && o ≤ 0xE3) || !prefixesOk slots then some 3
  else if (ops.dropLast.any opIsHinge) || hHinge h != opIsHinge last then some 4
  else if opcodeOf t.tword.toNat ≠ 0xE1 then some 5
  else if bits n 60 4 ≠ hNres h || !distinct t.results || t.results.any (1016 ≤ ·) || (fields.drop (hNres h)).any (· ≠ 0) then some 6
  else if is.any (fun i => (writtenRegs i).any fun c => !t.results.contains c) ||
      (tKind t.tword.toNat == 3 && (t.results.contains (tLink t.tword.toNat) || t.results.contains (tLink t.tword.toNat + 1))) then some 7
  else if hPond h < (is.map pondOf).sum then some 8
  else if is.any (fun i => (namedTemps i).any fun c => !bit (hMask h) (c - 1016)) then some 9
  else if (!hGather h && ops.any opIsGather) || (hGather h && !inSet) then some 10
  else none

/-- Whether a step field is one that fetch accepts (R30, R63). -/
def stepOk (t : Trace) (v : Nat) : Bool :=
  let f := stepField v
  if f.slot = 0 then v == 0
  else f.slot ≤ t.len && f.step != -16 && opcodeOf (t.slot f.slot) != 0xE4 && canStep (t.slot f.slot) f.operand

/-- The fields of a T word fit its kind (R28). -/
def tOk (w : Nat) : Bool :=
  let k := tKind w
  let link := tLink w
  let linked := link % 2 == 0 && 2 ≤ link && link ≤ 1014
  bits w 24 19 == 0 && k ≤ 5 &&
  (if k = 1 then link == 0 else if k = 2 then linked && bits w 0 24 == 0 else if k = 3 then linked
   else link == 0 && bits w 0 24 == 0)

/-- The structure words of a trace are encodings (R16, R28, R63): none of the conditions that raise illegal-encoding at fetch. -/
def structureOk (t : Trace) : Bool :=
  !bit t.h 40 && tOk t.tword.toNat &&
  (match t.lword with
   | none => true
   | some l => (lReg l.toNat != 0 || lImm l.toNat != 0) &&
      [bits l.toNat 0 12, bits l.toNat 12 12, bits l.toNat 24 12].all (stepOk t))

/-- A trap at fetch names the trace tag once H has been read (R202). -/
def Fetched.tagged (ttag : Nat) : Fetched → Fetched
  | .trap c d a _ => .trap c d a ttag
  | x => x

/-- Fetches and checks the trace at an address for an agent (R16). A fault of a word comes before every row; illegal-encoding of a structure
word comes after the rows, and an aligned address that holds no trace is row 1 (log 23, DEDUCED). The words behind an H are those that its
len tells, so an impossible len has none. -/
def State.fetchTrace (s : State) (core ctx : Nat) (runs : List Nat) (who va : Nat) (inSet : Bool) : State × Fetched :=
  if va % 8 ≠ 0 then (s, .trap 0x02 12 va 0) else
  match s.codeWord core ctx runs who va with
  | (s, .error e) => (s, e)
  | (s, .ok w0) =>
    let hasL := opcodeOf w0 == 0xE3
    let ha := if hasL then va + 8 else va
    match (if hasL then s.codeWord core ctx runs who ha else (s, .ok w0)) with
    | (s, .error e) => (s, e)
    | (s, .ok h) =>
      if opcodeOf h ≠ 0xE0 then (s, .trap 0x02 1 va 0)
      else if hLen h = 0 || 24 < hLen h then (s, .trap 0x02 (if hRepeat h != hasL then 1 else 2) va (hTag h))
      else
        match s.codeWords core ctx runs who (ha + 8) (hLen h + 2) with
        | (s, .error e) => (s, e.tagged (hTag h))
        | (s, .ok ws) =>
          let n := ws.getD (hLen h + 1) 0
          let t : Trace :=
            { addr := va, lword := if hasL then some (.ofNat 64 w0) else none, hword := .ofNat 64 h, hAddr := ha,
              slots := (ws.take (hLen h)).map (.ofNat 64 ·), tword := .ofNat 64 (ws.getD (hLen h) 0), results := nFields n (hNres h),
              after := ha + 8 * (hLen h + 3) }
          match (if hRepeat h != hasL then some 1 else if 8 < hPond h || 6 < hNres h then some 2 else badRow t n inSet) with
          | some row => (s, .trap 0x02 row va (hTag h))
          | none => if structureOk t then (s, .ok t) else (s, .trap 0x01 0 va (hTag h))

/-- A word of code that the page table alone reaches, as far as it can be read without a fault or a wait. -/
def State.peekWord (s : State) (core ctx run va : Nat) : Option Nat :=
  if 2 ^ 56 ≤ va + 7 then none else
  match s.walk ctx va with
  | some (leaf, shift) =>
    match (s.leafXlat ctx va leaf shift false).2 with
    | .ok p _ => some (s.codeAt core run p).1
    | _ => none
  | none => none

/-- Whether the trace at an address is a gather trace (R157): known without an access of the thread. -/
def State.gatherAt (s : State) (core ctx run va : Nat) : Bool :=
  match s.peekWord core ctx run va with
  | some w0 =>
    if opcodeOf w0 = 0xE0 then hGather w0
    else if opcodeOf w0 = 0xE3 then
      match s.peekWord core ctx run (va + 8) with
      | some h => opcodeOf h == 0xE0 && hGather h
      | none => false
    else false
  | none => false

end Sys2Proof.Machine
end

