-- ==== Sys2Proof/Machine/Lane.lean ====
section
/-! DEFINITION. A slot of a lane: what every slot instruction checks and reads before its own effect (R10, R11, R18, R20, R65 to R67,
R159), and how its effect is put into the lane. -/

namespace Sys2Proof.Machine

open Sys2Proof

/-- The lane at a slot: its port, bundle, fetched trace, lane and thread. -/
structure View where
  p : PortId
  b : Bundle
  tr : Trace
  l : Lane
  t : Thread
deriving DecidableEq, Repr, Inhabited

/-- An active lane of a bundle that holds a trace. -/
def State.viewOf (s : State) (p : PortId) (r : Nat) : Option View :=
  match s.bundle? p with
  | none => none
  | some b =>
    match b.trace, b.lane? r, s.thread? r with
    | some tr, some l, some t => if l.active then some { p, b, tr, l, t } else none
    | _, _, _ => none

/-- The lane that `step` has chosen. -/
def State.view (s : State) : Option View := s.cur.bind fun c => s.viewOf c.1 c.2

/-- How a value of a type stands in registers (R36): i8 and i16 are sign-extended to 32 bits, the others zero-extended. -/
def regImage (t : Ty) (v : Nat) : Nat :=
  match t with
  | .i8 => wrap 32 (signed 8 v)
  | .i16 => wrap 32 (signed 16 v)
  | _ => v % 2 ^ (max 32 t.width)

/-- What a register code holds for a lane (R10, R18): temporaries, results of this trace, else the committed value. -/
def laneReg (l : Lane) (t : Thread) (code : Nat) : Word :=
  if 1016 ≤ code then sGet l.temps (code - 1016)
  else match l.res.find? (·.code == code) with
    | some h => if h.keep then t.reg code else h.value
    | none => t.reg code

/-- A value of `n` registers, lowest code least significant; v0 reads as zero of any width (R10). -/
def spanVal (get : Nat → Word) : Nat → Nat → Nat
  | _, 0 => 0
  | code, n + 1 => if code = 0 then 0 else (get code).toNat + 2 ^ 32 * spanVal get (code + 1) n

/-- Writes one register of a lane (R10, R18, R120): a temporary at once, a named result held; v0 is discarded. A posted load of this
trace loses the register. -/
def Lane.put1 (l : Lane) (code : Nat) (w : Word) : Lane :=
  if code = 0 then l
  else if 1016 ≤ code then { l with temps := sSet l.temps (code - 1016) w }
  else
    { l with
      res := (l.res.filter (·.code ≠ code)) ++ [{ code, value := w, full := true, keep := false, load := false }]
      posted := l.posted.map fun e => { e with regs := e.regs.filter (·.1 ≠ code) } }

/-- Writes a value of `n` registers (R24 WriteRes). -/
def Lane.putN (l : Lane) (code v : Nat) : Nat → Lane
  | 0 => l
  | n + 1 => if code = 0 then l else (l.put1 code (.ofNat 32 v)).putN (code + 1) (v / 2 ^ 32) n

/-- Raises flags (R24 SetFlag). -/
def Lane.raise (l : Lane) (f : Flags) : Lane := { l with tflags := l.tflags ||| f }

/-- The flags a lane sees (R18). -/
def View.flags (v : View) : Flags := flagsSeen v.t.flg v.l.fclear v.l.tflags

/-- The stores in a lane's pond, oldest first. -/
def Lane.stores (l : Lane) : List Store := l.pond.filterMap fun e => match e with
  | .store st => some st
  | .eng _ _ => none

/-- The P word that an instruction carries, as a word, or 0 (R202). -/
def prefixWord (i : Instr) : Nat :=
  match encode i with
  | [p, _] => p
  | _ => 0

/-- The fields of a fault record that a slot gives (R202). -/
def View.info (v : View) (i : Instr) (cause detail : Nat) : FaultInfo :=
  { faultInfo cause detail with
    pre := prefixWord i, instr := (encode i).getLastD 0, ttag := hTag v.tr.h, pos := v.l.pass, slotNo := v.l.at_ }

/-- A lane traps in its slot; the bundle leaves when no lane is left (R20). -/
def State.slotFault (s : State) (v : View) (info : FaultInfo) : State :=
  (s.trapLane v.p v.t.r .slot info (some v.tr.succ)).leaveBundle v.p

/-- Illegal-encoding at a slot (R66), which under probe mode acts as NOP and sets PRB when the trace commits (R67). `slots`: how many
slots act as NOP, two where a P word is rejected. -/
def State.illegal (s : State) (v : View) (info : FaultInfo) (slots : Nat) : State :=
  if v.t.pen then s.modLane v.p v.t.r fun l => { l with prb := true, at_ := l.at_ + slots } else s.slotFault v info

/-- The register of an instruction above the thread's limit, with its operand number (R159): of several, the first in the order a, b, c, then d
and what d names (log 14, DEDUCED). -/
def outOfRange (i : Instr) (t : Thread) : Option (Nat × Nat) :=
  let all := ((srcsOf i).filter (!·.us)).map (fun x => (x.code, x.words, x.opnd)) ++
    (dstsOf i ++ namedOf i).map fun x => (x.code, x.words, 3)
  (all.flatMap fun x => (upFrom x.1 x.2.1).map fun c => (c, x.2.2)).find? fun c => !t.inLimit c.1

/-! Posted loads of the running trace (R18, R27) -/

/-- The register images of the values a load delivers (R36, R119). -/
def loadImages (t : Ty) : Nat → List Byte → List Word
  | 0, _ => []
  | n + 1, l =>
    let v := regImage t (ofLe (l.take t.bytes))
    (upFrom 0 t.words).map (fun i => BitVec.ofNat 32 (v / 2 ^ (32 * i))) ++ loadImages t n (l.drop t.bytes)

/-- Gives a lane the registers that a load still fills. -/
def Lane.takeLoad (l : Lane) (e : LogEntry) (data : List Byte) : Lane :=
  let im := loadImages e.ty e.n data
  { l with
    res := (l.res.filter fun h => !e.regs.any (·.1 == h.code)) ++
      e.regs.map (fun x => { code := x.1, value := im.getD x.2 0, full := true, keep := false, load := true })
    posted := l.posted.filter (·.id ≠ e.id) }

/-- What reading the sources of a slot gives. -/
inductive Read where
  | ok (s : State) (l : Lane) (vals : List Nat)
  | fault (s : State) (info : FaultInfo)
  | stall (s : State) (l : Lane)
deriving Repr, Inhabited

/-- An access of a thread as the race detector sees it. -/
def State.accOf (s : State) (t : Thread) (pw : PWord) (p : Place) (va size : Nat) (write atomic : Bool) : Acc :=
  { r := t.r, gen := t.gen, ctx := t.ctx, run := t.run, home := t.homeGid, clk := s.clockOf t.homeGid, place := p, va,
    size := Nat.log2 size, write, atomic, ord := pw.ord, scope := pw.scope }

/-- Where an access stands: its prefix attributes, value size, trace, slot and position (R317). -/
structure AccAt where
  pw : PWord
  size : Nat
  trace : Nat
  slotNo : Nat
  pos : Nat
deriving DecidableEq, Repr, Inhabited

/-- The mode field of the record of a racing access: 0 in REPORT, 1 for a PRECISE fault, 2 past RPASS (R316, R317, R319). -/
def State.raceKind (s : State) (t : Thread) : Nat := if s.raceMode t.ctx t.run = 1 then (if t.rpass then 2 else 1) else 0

/-- Where an access of a lane's slot stands. -/
def View.accAt (v : View) (pw : PWord) (size : Nat) : AccAt := { pw, size, trace := v.tr.addr, slotNo := v.l.at_, pos := v.l.pass }

/-- Check 7 of the values of an access, in order (R302, R312): the notes to be taken at commit, or the first racing value in PRECISE mode,
whose record is written at once: the record's sequence number and the value's address. -/
def State.judgeValues (s : State) (t : Thread) (x : AccAt) (write atomic : Bool) :
    List (Nat × Place × Bool) → State × List RaceNote × Option (Nat × Nat)
  | [] => (s, [], none)
  | (va, p, chk) :: l =>
    if !s.raceChecked t x.pw.race chk then s.judgeValues t x write atomic l else
    let c := s.accOf t x.pw p va x.size write atomic
    let (s, rep) := s.checkRace c
    let mode := s.raceKind t
    let words := (rep.map fun q => s.raceWords q c x.trace x.slotNo x.pos mode).getD []
    if rep.isSome ∧ mode = 1 then (s.raceRecord t.ctx t.run words, [], some (((s.ctx? t.ctx).map (·.raceSeq)).getD 0, va))
    else
      let (s, notes, bad) := s.judgeValues t x write atomic l
      (s, (if rep.isSome then [.record words] else []) ++
        (if write then [] else [.load p va (Nat.log2 x.size) x.pw.scope x.pw.ord.acquires]) ++ notes, bad)

/-- Check 7 of a posted load of the running trace whose translation has come since its slot (R119). -/
def State.judgeEntry (s : State) (t : Thread) (e : LogEntry) : State × List RaceNote × Option FaultInfo :=
  let x : AccAt := { pw := e.pre, size := e.ty.bytes, trace := e.trace, slotNo := e.slotNo, pos := e.pos }
  match s.judgeValues t x false false ((valueAddrs e.va e.ty.bytes e.n).zip (e.places.map fun p => (p, e.chk))) with
  | (s, notes, bad) => (s, notes, bad.map fun y => e.info 0x10 y.1 y.2 false)

/-- A posted load of the running trace, changed. -/
def Lane.setPosted (l : Lane) (e : LogEntry) : Lane := { l with posted := l.posted.map fun x => if x.id = e.id then e else x }

/-- A posted load of the running trace is translated, with check 7 where its translation comes now (R119). -/
def State.settleEntry (s : State) (t : Thread) (l : Lane) (e : LogEntry) : Read :=
  match e.fault with
  | some (c, d, a) => .fault s (e.info c d a false)
  | none =>
  match s.translateLoad t e with
  | (s, .error (some f)) => .fault s f
  | (s, .error none) => .stall s l
  | (s, .ok e') =>
    if !e.walk then .ok s l [] else
    match s.judgeEntry t e' with
    | (s, _, some f) => .fault s f
    | (s, notes, none) => .ok s { l.setPosted e' with notes := l.notes ++ notes } []

/-- A posted load of the running trace performs (R18): its pond's earlier stores stand before memory. -/
def State.performPosted (s : State) (t : Thread) (l : Lane) (id : Nat) : Read :=
  match l.posted.find? (·.id == id) with
  | none => .ok s l []
  | some e =>
    match s.settleEntry t l e with
    | .ok s l _ =>
      let (s, e) := s.capture (l.stores.filter (·.slotNo < e.slotNo)) ((l.posted.find? (·.id == id)).getD e)
      .ok s (l.setPosted e) []
    | r => r

/-- Posted loads of the running trace perform, in their order. -/
def State.performEach (s : State) (t : Thread) (l : Lane) : List Nat → Read
  | [] => .ok s l []
  | id :: ids =>
    match s.performPosted t l id with
    | .ok s l _ => s.performEach t l ids
    | r => r

/-- The loads of a lane that come before a load number perform: the committed ones, then those of its trace (R26, R163 rule 2). -/
def State.performLoads (s : State) (t : Thread) (l : Lane) (upTo : Nat) : Read :=
  let s := s.performLog t upTo
  if s.loadsWait t.r then .stall s l else s.performEach t l ((l.posted.filter (·.id < upTo)).map (·.id))

/-- A posted load of this trace completes inside the trace (R18, R27), after the loads before it. -/
def State.finishLoad (s : State) (t : Thread) (l : Lane) (e : LogEntry) : Read :=
  match s.performLoads t l (e.id + 1) with
  | .ok s l _ =>
    let e := (l.posted.find? (·.id == e.id)).getD e
    .ok s (l.takeLoad e (e.data.getD [])) []
  | r => r

/-- Applies R11 and R18 to one register of a source. -/
def State.readReg1 (s : State) (v : View) (i : Instr) (l : Lane) (x : Src) (code : Nat) : Read :=
  if code = 0 || 1016 ≤ code || l.res.any (·.code == code) then .ok s l [] else
  match l.posted.find? (fun e => e.regs.any (·.1 == code)) with
  | some e => s.finishLoad v.t l e
  | none =>
    if !v.t.isEmpty code then .ok s l [] else
    let pending := v.t.fills.contains code
    if pending && !x.fe then .stall s l
    else .fault s { v.info i 0x03 (b2n pending + 2 * b2n x.fe) with reg := code, opnd := x.opnd }

/-- Applies R11 and R18 to the registers of a source. -/
def State.readRegs (s : State) (v : View) (i : Instr) (l : Lane) (x : Src) : List Nat → Read
  | [] => .ok s l []
  | c :: cs =>
    match s.readReg1 v i l x c with
    | .ok s l _ => s.readRegs v i l x cs
    | r => r

/-- The uniform registers of the home group (R10). -/
def State.uniform (s : State) (gid code : Nat) : Word := ((s.group? gid).map fun g => sGet g.uni code).getD 0

/-- Makes every source of a slot available, in field order (R10, R11; log 14, DEDUCED): a register, or the home group of a g source. -/
def State.readAll (s : State) (v : View) (i : Instr) (l : Lane) : List Src → Read
  | [] => .ok s l []
  | x :: xs =>
    if x.us then (if v.t.m0.isNone then .fault s (v.info i 0x19 0) else s.readAll v i l xs)
    else match s.readRegs v i l x (if x.code = 0 then [] else upFrom x.code x.words) with
      | .ok s l _ => s.readAll v i l xs
      | r => r

/-- The value of a source (R24 ReadSrc), once it is available. -/
def State.srcVal (s : State) (v : View) (l : Lane) (x : Src) : Nat :=
  if x.us then (upFrom 0 x.words).foldl (fun a j => a + 2 ^ (32 * j) * (s.uniform v.t.homeGid (x.code + j)).toNat) 0
  else spanVal (laneReg l v.t) x.code x.words

/-- The registers of a slot's sources that it reads from the thread, not from the trace. -/
def regsRead (l : Lane) (xs : List Src) : List Nat :=
  (xs.flatMap fun x => if x.us then [] else upFrom x.code x.words).filter fun c => !l.res.any fun h => h.code == c && !h.keep

/-- Reads the sources of a slot (R10, R11, R18), before the faults of the instruction itself (R20, R205), of which the register range is the
first (R159). -/
def State.readSources (s : State) (v : View) (i : Instr) : Read :=
  match s.readAll v i v.l (srcsOf i) with
  | .ok s l _ =>
    match outOfRange i v.t with
    | some (c, o) => .fault s { v.info i 0x04 v.t.limit with reg := c, opnd := o }
    | none => .ok (s.noteRegs v.t.r (regsRead l (srcsOf i))) l ((srcsOf i).map (s.srcVal v l))
  | r => r

/-! Slots -/

/-- What the effect of an instruction does with its lane. -/
inductive Act where
  /-- the lane goes on with the next slot -/
  | done (s : State) (l : Lane)
  /-- the guard fails (R19) -/
  | alt (s : State)
  | fault (s : State) (info : FaultInfo)
  /-- the bundle stalls at this slot; the lane keeps what its loads have done -/
  | stall (s : State) (l : Lane)
  /-- the lane abandons its trace and parks (R129, R266, R270) -/
  | park (s : State) (st : Status)
deriving Repr, Inhabited

/-- FailGuard (R19): PC becomes the alternative, the loop ends, everything is discarded. -/
def State.failGuard (s : State) (v : View) (alt : Int) : State :=
  let s := s.noteRec v.p v.t.r 1 v.l.at_
  let s := s.modThread v.t.r fun t =>
    { t with pc := .ofNat 64 (wrap 64 ((v.tr.hAddr : Int) + 8 * alt)), pos := 0, cnt := none }
  (s.discard v.p v.t.r false).leaveBundle v.p

/-- The alternative of a guard. -/
def altOf : Instr → Int
  | .gcmp f | .gcmpImm f | .gz f | .gnz f | .grng f | .gflg f | .gflgImm f | .gfull f => signed 24 f.alt.toNat
  | _ => 0

/-- Puts what an instruction did into the machine. -/
def settle (v : View) (i : Instr) : Act → State
  | .done s l => s.modLane v.p v.t.r fun _ => { l with at_ := v.l.at_ + 1 }
  | .alt s => s.failGuard v (altOf i)
  | .fault s info => s.slotFault v info
  | .stall s l => s.modLane v.p v.t.r fun _ => l
  | .park s st => ((s.park v.t.r st).abandon v.p v.t.r).leaveBundle v.p

/-- One slot of one lane. -/
def State.slot (s : State) (v : View) (i : Instr) (k : State → View → List Nat → Act) : State :=
  if !wfBool i then s.illegal v (v.info i 0x01 0) 1 else
  match s.readSources v i with
  | .fault s f => s.slotFault v f
  | .stall s l => s.modLane v.p v.t.r fun _ => l
  | .ok s l vals => let v := { v with l }; settle v i (k s v vals)

/-- A slot instruction executed for the lane that `step` has chosen: `k` is its own effect, given its sources. -/
def runSlot (i : Instr) (s : State) (k : State → View → List Nat → Act) : Host.Outcome State Fault Refusal :=
  match s.view with
  | none => .fault .noLane
  | some v => .next (s.slot v i k)

/-- Puts a result into the destination of an instruction (R36). -/
def putResult (i : Instr) (l : Lane) (t : Ty) (x : Nat) : Lane :=
  match dstsOf i with
  | d :: _ => l.putN d.code (regImage t x) d.words
  | [] => l

/-- An instruction that only computes: a result of a type and the flags it raises. -/
def runPure (i : Instr) (s : State) (t : Ty) (f : List Nat → Nat × Flags) : Host.Outcome State Fault Refusal :=
  runSlot i s fun s v vals =>
    let (x, fl) := f vals
    .done s ((putResult i v.l t x).raise fl)

/-- An instruction that computes and raises no flag. -/
def runInt (i : Instr) (s : State) (t : Ty) (f : List Nat → Nat) : Host.Outcome State Fault Refusal :=
  runPure i s t fun vals => (f vals, 0)

end Sys2Proof.Machine
end

