-- ==== Sys2Proof/Machine/Integer.lean ====
section
/-! DEFINITION. Integer and address instructions (R78 to R93). Every value is computed on unbounded integers and reduced when it is
written (R78). -/

namespace Sys2Proof.Machine

open Sys2Proof

/-- The integer a source of a type denotes (R78): signed for the i-types. -/
def iv (t : Ty) (v : Nat) : Int := intOf t v

/-- The bit pattern of a source (R78, R88). -/
def bv (t : Ty) (v : Nat) : Nat := v % 2 ^ t.width

/-- The extensions of imm20 (R79): sign, zero, and by type. -/
def immS (f : FI) : Int := signed 20 f.imm.toNat
def immZ (f : FI) : Int := (f.imm.toNat : Nat)
def immE (f : FI) : Int := if f.ty.isI then immS f else immZ f

/-- A result reduced to a type's width (R78). -/
def red (t : Ty) (x : Int) : Nat := wrap t.width x

/-- An immediate in the place of source b: reduced to the type's width like any source (R79). -/
def immB (t : Ty) (x : Int) : Nat := wrap t.width x

/-- Source `n` of the values read. -/
def arg (vals : List Nat) (n : Nat) : Nat := vals.getD n 0

/-- Binary and unary operations of a type on integers. -/
def int2 (t : Ty) (op : Int → Int → Int) (vals : List Nat) : Nat := red t (op (iv t (arg vals 0)) (iv t (arg vals 1)))
def int1 (t : Ty) (op : Int → Int) (vals : List Nat) : Nat := red t (op (iv t (arg vals 0)))
/-- The same with an immediate for source b. -/
def intI (t : Ty) (imm : Int) (op : Int → Int → Int) (vals : List Nat) : Nat :=
  red t (op (iv t (arg vals 0)) (iv t (immB t imm)))
/-- Operations on bit patterns. -/
def bit2 (t : Ty) (op : Nat → Nat → Nat) (vals : List Nat) : Nat := op (bv t (arg vals 0)) (bv t (arg vals 1)) % 2 ^ t.width
def bitI (t : Ty) (imm : Int) (op : Nat → Nat → Nat) (vals : List Nat) : Nat := op (bv t (arg vals 0)) (immB t imm) % 2 ^ t.width

def minI (a b : Int) : Int := if a ≤ b then a else b
def maxI (a b : Int) : Int := if b ≤ a then a else b

/-- The wide type of IMADW (R83). -/
def wideOf : Ty → Ty
  | .i8 => .i16 | .i16 => .i32 | .i32 => .i64 | .n8 => .n16 | .n16 => .n32 | .n32 => .n64 | t => t

/-- Truncating division with the edges of R84: quotient and remainder. -/
def divRem (t : Ty) (a b : Int) : Int × Int :=
  if b = 0 then (if t.isI then -1 else intMax t, a)
  else if t.isI && a == intMin t && b == -1 then (a, 0)
  else (Int.tdiv a b, Int.tmod a b)

/-- Shifts and rotation of a bit pattern (R88). -/
def shl (w x n : Nat) : Nat := if w ≤ n then 0 else x * 2 ^ n % 2 ^ w
def shr (w x n : Nat) : Nat := if w ≤ n then 0 else x / 2 ^ n
def sar (w x n : Nat) : Nat := wrap w (signed w x / (2 ^ min n (w - 1) : Nat))
def rotl (w x n : Nat) : Nat := let s := n % w; (x * 2 ^ s + x / 2 ^ (w - s)) % 2 ^ w

/-- BFX (R89). -/
def bfx (t : Ty) (a desc : Nat) : Nat :=
  let w := t.width
  let pos := bits desc 0 7
  let len := min (bits desc 8 7) w
  let f := if w ≤ pos then 0 else bv t a / 2 ^ pos % 2 ^ len
  if t.isI && 0 < len && bit f (len - 1) then wrap w ((f : Int) - (2 ^ len : Nat)) else f % 2 ^ w

/-- BFI (R89). -/
def bfi (t : Ty) (a b desc : Nat) : Nat :=
  let w := t.width
  let pos := bits desc 0 7
  let len := min (bits desc 8 7) w
  let mask := if w ≤ pos then 0 else (2 ^ len - 1) * 2 ^ pos % 2 ^ w
  (bv t a &&& (2 ^ w - 1 - mask)) ||| (bv t b * 2 ^ pos &&& mask)

/-- Counts and reversal over `n` bits (R90). -/
def popcount (x : Nat) : Nat → Nat
  | 0 => 0
  | n + 1 => b2n (bit x n) + popcount x n
def clz (w x : Nat) : Nat := if x = 0 then w else w - 1 - Nat.log2 x
def ctz (x : Nat) : Nat → Nat → Nat
  | 0, i => i
  | n + 1, i => if bit x i then i else ctz x n (i + 1)
def brev (x w : Nat) : Nat → Nat
  | 0 => 0
  | n + 1 => b2n (bit x n) * 2 ^ (w - 1 - n) + brev x w n

/-- A comparison of integers (R91). -/
def intCond (c : Cond) (a b : Int) : Bool :=
  condHolds c (if a < b then .lt else if a = b then .eq else .gt)

def execIadd (f : FA) (s : State) := runInt (.iadd f) s f.ty (int2 f.ty (· + ·))
def execIaddImm (f : FI) (s : State) := runInt (.iaddImm f) s f.ty (intI f.ty (immS f) (· + ·))
def execIsub (f : FA) (s : State) := runInt (.isub f) s f.ty (int2 f.ty (· - ·))
def execImul (f : FA) (s : State) := runInt (.imul f) s f.ty (int2 f.ty (· * ·))
def execImulImm (f : FI) (s : State) := runInt (.imulImm f) s f.ty (intI f.ty (immS f) (· * ·))
/-- R83: the high half of the exact product. -/
def execImulh (f : FA) (s : State) :=
  runInt (.imulh f) s f.ty (int2 f.ty fun a b => Int.fdiv (a * b) (2 ^ f.ty.width : Nat))
def execImad (f : FA) (s : State) :=
  runInt (.imad f) s f.ty fun v => red f.ty (iv f.ty (arg v 0) * iv f.ty (arg v 1) + iv f.ty (arg v 2))
/-- R83: the product at the wide type, with a wide addend. -/
def execImadw (f : FA) (s : State) :=
  runInt (.imadw f) s (wideOf f.ty) fun v =>
    red (wideOf f.ty) (iv f.ty (arg v 0) * iv f.ty (arg v 1) + iv (wideOf f.ty) (arg v 2))
def execIdiv (f : FA) (s : State) := runInt (.idiv f) s f.ty (int2 f.ty fun a b => (divRem f.ty a b).1)
def execIrem (f : FA) (s : State) := runInt (.irem f) s f.ty (int2 f.ty fun a b => (divRem f.ty a b).2)
def execIneg (f : FA) (s : State) := runInt (.ineg f) s f.ty (int1 f.ty fun a => -a)
def execIabs (f : FA) (s : State) := runInt (.iabs f) s f.ty (int1 f.ty fun a => (a.natAbs : Int))
def execImin (f : FA) (s : State) := runInt (.imin f) s f.ty (int2 f.ty minI)
def execIminImm (f : FI) (s : State) := runInt (.iminImm f) s f.ty (intI f.ty (immE f) minI)
def execImax (f : FA) (s : State) := runInt (.imax f) s f.ty (int2 f.ty maxI)
def execImaxImm (f : FI) (s : State) := runInt (.imaxImm f) s f.ty (intI f.ty (immE f) maxI)
def execIadds (f : FA) (s : State) := runInt (.iadds f) s f.ty (int2 f.ty fun a b => satTo f.ty (a + b))
def execIsubs (f : FA) (s : State) := runInt (.isubs f) s f.ty (int2 f.ty fun a b => satTo f.ty (a - b))
def execAnd (f : FA) (s : State) := runInt (.and f) s f.ty (bit2 f.ty (· &&& ·))
def execAndImm (f : FI) (s : State) := runInt (.andImm f) s f.ty (bitI f.ty (immZ f) (· &&& ·))
def execOr (f : FA) (s : State) := runInt (.or f) s f.ty (bit2 f.ty (· ||| ·))
def execOrImm (f : FI) (s : State) := runInt (.orImm f) s f.ty (bitI f.ty (immZ f) (· ||| ·))
def execXor (f : FA) (s : State) := runInt (.xor f) s f.ty (bit2 f.ty (· ^^^ ·))
def execXorImm (f : FI) (s : State) := runInt (.xorImm f) s f.ty (bitI f.ty (immZ f) (· ^^^ ·))
def execAndn (f : FA) (s : State) := runInt (.andn f) s f.ty (bit2 f.ty fun a b => a &&& (2 ^ f.ty.width - 1 - b))
def execLsl (f : FA) (s : State) := runInt (.lsl f) s f.ty fun v => shl f.ty.width (bv f.ty (arg v 0)) (arg v 1)
def execLslImm (f : FI) (s : State) := runInt (.lslImm f) s f.ty fun v => shl f.ty.width (bv f.ty (arg v 0)) f.imm.toNat
def execLsr (f : FA) (s : State) := runInt (.lsr f) s f.ty fun v => shr f.ty.width (bv f.ty (arg v 0)) (arg v 1)
def execLsrImm (f : FI) (s : State) := runInt (.lsrImm f) s f.ty fun v => shr f.ty.width (bv f.ty (arg v 0)) f.imm.toNat
def execAsr (f : FA) (s : State) := runInt (.asr f) s f.ty fun v => sar f.ty.width (bv f.ty (arg v 0)) (arg v 1)
def execAsrImm (f : FI) (s : State) := runInt (.asrImm f) s f.ty fun v => sar f.ty.width (bv f.ty (arg v 0)) f.imm.toNat
def execRot (f : FA) (s : State) := runInt (.rot f) s f.ty fun v => rotl f.ty.width (bv f.ty (arg v 0)) (arg v 1)
def execRotImm (f : FI) (s : State) := runInt (.rotImm f) s f.ty fun v => rotl f.ty.width (bv f.ty (arg v 0)) f.imm.toNat
def execBfx (f : FA) (s : State) := runInt (.bfx f) s f.ty fun v => bfx f.ty (arg v 0) (arg v 1)
def execBfxImm (f : FI) (s : State) := runInt (.bfxImm f) s f.ty fun v => bfx f.ty (arg v 0) f.imm.toNat
def execBfi (f : FA) (s : State) := runInt (.bfi f) s f.ty fun v => bfi f.ty (arg v 0) (arg v 1) (arg v 2)
def execPopc (f : FA) (s : State) := runInt (.popc f) s .n32 fun v => popcount (bv f.ty (arg v 0)) f.ty.width
def execClz (f : FA) (s : State) := runInt (.clz f) s .n32 fun v => clz f.ty.width (bv f.ty (arg v 0))
def execCtz (f : FA) (s : State) := runInt (.ctz f) s .n32 fun v => ctz (bv f.ty (arg v 0)) f.ty.width 0
def execBrev (f : FA) (s : State) := runInt (.brev f) s f.ty fun v => brev (bv f.ty (arg v 0)) f.ty.width f.ty.width
/-- R91: the condition is the literal in c. -/
def execIcmp (f : FA) (s : State) :=
  runInt (.icmp f) s .n32 fun v => b2n (intCond ((condLit f.c.toNat).getD .eq) (iv f.ty (arg v 0)) (iv f.ty (arg v 1)))
/-- R91: condition in imm20[19:16], value in imm20[15:0] extended by key e from 16 bits. -/
def execIcmpImm (f : FI) (s : State) :=
  runInt (.icmpImm f) s .n32 fun v =>
    let x : Int := if f.ty.isI then signed 16 f.imm.toNat else (f.imm.toNat % 2 ^ 16 : Nat)
    b2n (intCond ((condLit (f.imm.toNat / 2 ^ 16)).getD .eq) (iv f.ty (arg v 0)) (iv f.ty (immB f.ty x)))
def execSel (f : FA) (s : State) :=
  runInt (.sel f) s f.ty fun v => if arg v 2 ≠ 0 then bv f.ty (arg v 0) else bv f.ty (arg v 1)
def execMov (f : FA) (s : State) := runInt (.mov f) s f.ty fun v => bv f.ty (arg v 0)
def execMovi (f : FI) (s : State) := runInt (.movi f) s f.ty fun _ => red f.ty (immE f)
/-- R92: replaces bits [31:12] and keeps bits [11:0]. -/
def execMovh (f : FI) (s : State) := runInt (.movh f) s .b32 fun v => f.imm.toNat * 2 ^ 12 + arg v 0 % 2 ^ 12
/-- R93: base n64, index of ty, stride n32. -/
def execLea (f : FA) (s : State) :=
  runInt (.lea f) s .n64 fun v => wrap 64 ((arg v 0 : Int) + iv f.ty (arg v 1) * (arg v 2 : Int))
def execLeaImm (f : FI) (s : State) := runInt (.leaImm f) s .n64 fun v => wrap 64 ((arg v 0 : Int) + immS f)

end Sys2Proof.Machine
end

