-- ==== Sys2Proof/Machine/Transcend.lean ====
section
/-! DEFINITION. The instructions whose results the spec bounds and does not fix (R55, R102, R103): FRCP, FRSQ, FEXP, FEXP2, FLOG,
FLOG2, FSIN, FCOS, FTANH, FSIGM, FERF. Each computes the exact mathematical value far beyond the format's precision, collects every
result that R55 allows, and takes the one that `Config.ulpPick` picks (log 7, DEDUCED). -/

namespace Sys2Proof.Machine

open Sys2Proof

/-- Bits after the point of the fixed-point series, and of the value of π. -/
def trP : Nat := 400
def piP : Nat := 1400

/-- Sum of z^(2i+1)/(2i+1) in fixed point with `p` bits, with z given and z2 its square; `alt` alternates the signs. -/
def oddSeries (p : Nat) (alt : Bool) (z2 : Nat) : Nat → Nat → Nat → Int → Int
  | 0, _, _, acc => acc
  | n + 1, i, t, acc =>
    let term : Int := (t / (2 * i + 1) : Nat)
    oddSeries p alt z2 n (i + 1) (t * z2 / 2 ^ p) (if alt && i % 2 == 1 then acc - term else acc + term)

/-- atanh of a / b, |a / b| ≤ 1/3, in fixed point. -/
def fxAtanh (p n : Nat) (a b : Nat) : Int :=
  oddSeries p false (a * a * 2 ^ p / (b * b)) n 0 (a * 2 ^ p / b) 0

/-- arctan of 1 / k in fixed point. -/
def fxArctanInv (p n k : Nat) : Int :=
  oddSeries p true (2 ^ p / (k * k)) n 0 (2 ^ p / k) 0

/-- ln 2 in fixed point. -/
def fxLn2 : Nat := (2 * fxAtanh trP 140 1 3).toNat

/-- π in fixed point with `piP` bits (Machin). -/
def fxPi : Nat := (16 * fxArctanInv piP 320 5 - 4 * fxArctanInv piP 100 239).toNat

/-- Sum of r^i / i! for signed fixed-point r. -/
def expSeries (r : Int) : Nat → Nat → Int → Int → Int
  | 0, _, _, acc => acc
  | n + 1, i, t, acc => expSeries r n (i + 1) (t * r / ((2 ^ trP : Nat) * ((i : Int) + 1))) (acc + t)

/-- e^r in fixed point, |r| below 1. -/
def fxExp (r : Int) : Nat := (expSeries r 90 0 (2 ^ trP : Nat) 0).toNat

/-- e^x for fixed-point x: as a magnitude (E, k), E × 2^(k − trP). -/
def fxExpFull (x : Int) : Nat × Int :=
  let k := x / (fxLn2 : Int)
  (fxExp (x - k * fxLn2), k)

/-- The magnitude m × 2^k / 2^p as an exact value. -/
def exFx (neg : Bool) (m : Nat) (k : Int) (p : Nat) : Ex := exDyadic neg m (k - p)

/-- A rational in fixed point, toward −∞. -/
def toFx (p : Nat) (x : Ex) : Int := x.int * (2 ^ p : Nat) / (x.den : Int)

/-- Sum for sine (start t = r, i = 1) and cosine (start t = 1, i = 0): terms t × r² / ((i+1)(i+2)), alternating. -/
def sinSeries (r2 : Nat) : Nat → Nat → Nat → Bool → Int → Int
  | 0, _, _, _, acc => acc
  | n + 1, i, t, s, acc =>
    sinSeries r2 n (i + 2) (t * r2 / 2 ^ trP / ((i + 1) * (i + 2))) (!s) (if s then acc - (t : Int) else acc + (t : Int))

/-- A magnitude is below 2^−100: the series would lose its digits, and the value is told from its limit by its side alone. -/
def isSmall (x : Ex) : Bool := decide (x.num * 2 ^ 100 < x.den)

/-- 1 ± 2^−200 times a value: on the far or the near side of it. -/
def nudge (up : Bool) (x : Ex) : Ex :=
  ⟨x.neg, x.num * (if up then 2 ^ 200 + 1 else 2 ^ 200 - 1), x.den * 2 ^ 200⟩

/-- |x| is at least n. -/
def atLeast (x : Ex) (n : Nat) : Bool := decide (n * x.den ≤ x.num)

/-- The value of e^x. -/
def exExp (x : Ex) : Ex :=
  if isSmall x then nudge (!x.neg) ⟨false, 1, 1⟩
  else if atLeast x 3000 then (if x.neg then ⟨false, 1, 2 ^ 4000⟩ else ⟨false, 2 ^ 4000, 1⟩)
  else let (m, k) := fxExpFull (toFx trP x); exFx false m k trP

/-- The value of 2^x, x no integer. -/
def exExp2 (x : Ex) : Ex :=
  if isSmall x then nudge (!x.neg) ⟨false, 1, 1⟩
  else if atLeast x 3000 then (if x.neg then ⟨false, 1, 2 ^ 4000⟩ else ⟨false, 2 ^ 4000, 1⟩)
  else
    let n := x.int / (x.den : Int)
    let f := toFx trP x - n * (2 ^ trP : Nat)
    exFx false (fxExp (f * fxLn2 / (2 ^ trP : Nat))) n trP

/-- The value of ln x in fixed point, from x = m × 2^e positive and not 1: sign and magnitude. -/
def fxLog (m : Nat) (e : Int) : Int :=
  let l := Nat.log2 m
  -- f = m / 2^l in [1, 2), moved to [3/4, 3/2)
  let big := decide (3 * 2 ^ l ≤ 2 * m)
  let d := if big then 2 ^ (l + 1) else 2 ^ l
  let k : Int := e + l + (if big then 1 else 0)
  let a : Int := 2 * (if d ≤ m then fxAtanh trP 110 (m - d) (m + d) else -fxAtanh trP 110 (d - m) (m + d))
  k * fxLn2 + a

/-- The value of ln x. -/
def exLog (m : Nat) (e : Int) : Ex := exInt (fxLog m e) (2 ^ trP)

/-- The value of log2 x. -/
def exLog2 (m : Nat) (e : Int) : Ex := exInt (fxLog m e) fxLn2

/-- sin or cos of a magnitude x, reduced against π: quadrant and remainder r in (−π/4, π/4]. -/
def exTrig (cosine : Bool) (x : Ex) : Ex :=
  let fx := toFx piP { x with neg := false }
  let half : Int := (fxPi : Int) / 2
  let q := (2 * fx + half) / (2 * half)
  let r := (2 * fx - q * fxPi) / (2 * 2 ^ (piP - trP) : Nat)
  let quad := ((q + (if cosine then 1 else 0)) % 4).toNat
  let r2 := (r * r).toNat / 2 ^ trP
  let s := sinSeries r2 60 1 r.natAbs false 0
  let c := sinSeries r2 60 0 (2 ^ trP) false 0
  let v : Int := match quad with
    | 0 => if r < 0 then -s else s
    | 1 => c
    | 2 => if r < 0 then s else -s
    | _ => -c
  let v := if x.neg && !cosine then -v else v
  exInt v (2 ^ trP)

/-- The value of sin x. -/
def exSin (x : Ex) : Ex := if isSmall x then nudge false x else exTrig false x

/-- The value of cos x. -/
def exCos (x : Ex) : Ex := if isSmall x then nudge false ⟨false, 1, 1⟩ else exTrig true x

/-- The value of tanh x. -/
def exTanh (x : Ex) : Ex :=
  if isSmall x then nudge false x
  else if atLeast x 60 then nudge false ⟨x.neg, 1, 1⟩
  else
    let (m, k) := fxExpFull (toFx trP ⟨false, 2 * x.num, x.den⟩)
    let e := m * 2 ^ k.toNat
    ⟨x.neg, e - 2 ^ trP, e + 2 ^ trP⟩

/-- The value of 1 / (1 + e^−x). -/
def exSigm (x : Ex) : Ex :=
  if isSmall x then nudge (!x.neg) ⟨false, 1, 2⟩
  else if atLeast x 3000 then (if x.neg then ⟨false, 1, 2 ^ 4000⟩ else nudge false ⟨false, 1, 1⟩)
  else
    let (m, k) := fxExpFull (toFx trP { x with neg := false })
    let e := m * 2 ^ k.toNat
    ⟨false, if x.neg then 2 ^ trP else e, e + 2 ^ trP⟩

/-- Sum of (−1)^n x^(2n+1) / (n! (2n+1)). -/
def erfSeries (x2 : Nat) : Nat → Nat → Nat → Int → Int
  | 0, _, _, acc => acc
  | n + 1, i, t, acc =>
    let term : Int := (t / (2 * i + 1) : Nat)
    erfSeries x2 n (i + 1) (t * x2 / 2 ^ trP / (i + 1)) (if i % 2 = 1 then acc - term else acc + term)

/-- √π in fixed point. -/
def fxSqrtPi : Nat := isqrt (fxPi / 2 ^ (piP - 2 * trP))

/-- The value of erf x. -/
def exErf (x : Ex) : Ex :=
  if isSmall x then nudge false ⟨x.neg, 2 * x.num * 2 ^ trP, x.den * fxSqrtPi⟩
  else if atLeast x 7 then ⟨x.neg, 2 ^ 74 - 1, 2 ^ 74⟩
  else
    let fx := (toFx trP { x with neg := false }).toNat
    ⟨x.neg, (2 * erfSeries (fx * fx / 2 ^ trP) 420 0 fx 0).toNat, fxSqrtPi⟩

/-- The value of 1 / √(m × 2^e), not an even power of 2. -/
def exRsqrt (m : Nat) (e : Int) : Ex :=
  let s := exSqrt m e 400
  ⟨false, s.den, s.num⟩

/-- The value of an ordinal of a format's magnitudes, with the exponent range unbounded above. -/
def ordValue (t : Ty) (o : Nat) : Ex :=
  let h := 2 ^ (fprec t - 1)
  if o < h then exDyadic false o (fmin2 t) else exDyadic false (o % h + h) (fmin2 t + (o / h - 1 : Nat))

/-- The ordinal at or below a positive value. -/
def ordFloor (t : Ty) (y : Ex) : Nat :=
  let u := max (ulpExp t y) (fmin2 t)
  let (n, d) := scaleBy y.num y.den u
  (u - fmin2 t).toNat * 2 ^ (fprec t - 1) + n / d

def exLe (x y : Ex) : Bool := decide (x.num * y.den ≤ y.num * x.den)

/-- Whether a rounding mode keeps a magnitude at most, or at least, at the exact one (R55). -/
def sideAtMost (rm : Rm) (neg : Bool) : Bool :=
  match rm with
  | .rtz => true
  | .rup => neg
  | .rdn => !neg
  | _ => false
def sideAtLeast (rm : Rm) (neg : Bool) : Bool :=
  match rm with
  | .rup => !neg
  | .rdn => neg
  | _ => false

/-- Whether R55 lets magnitude ordinal `o` be delivered for the value y: within `b` ulps, on the side of the mode, no adjacent
even significand under .rod, within the range and the neighbouring exact points [lo, hi], and at or above the ordinal `cap`. -/
def ulpAllowed (t : Ty) (rm : Rm) (b cap : Nat) (lo hi : Option Ex) (y : Ex) (o : Nat) : Bool :=
  let v := ordValue t o
  let u := max (ulpExp t y) (fmin2 t)
  let ulp := exDyadic false 1 u
  -- |v - y| ≤ b × ulp
  let d := exInt (({ v with neg := false } : Ex).int * (y.den : Int) - (y.num : Int) * (v.den : Int)) (v.den * y.den)
  let near := exLe { d with neg := false } ⟨false, b * ulp.num, ulp.den⟩
  let atMost := !sideAtMost rm y.neg || exLe v y
  let atLeast := !sideAtLeast rm y.neg || exLe y v
  let fl := ordFloor t y
  let odd := !(rm == .rod && (o == fl || o == fl + 1) && o % 2 == 0)
  let inLo := match lo with
    | some l => exLe l v
    | none => true
  let inHi := match hi with
    | some h => exLe v h
    | none => true
  near && atMost && atLeast && odd && inLo && inHi && decide (cap ≤ o)

/-- The ordinals that R55 allows for y, ascending. -/
def ulpCandidates (t : Ty) (rm : Rm) (b cap : Nat) (lo hi : Option Ex) (y : Ex) : List Nat :=
  let f := ordFloor t y
  (upFrom (f - 2 * b) (min f (2 * b) + b + 2)).filter (ulpAllowed t rm b cap lo hi y)

/-- The order of a format's values as naturals: the operands by which the monotonic functions are non-decreasing. -/
def fOrdinal (t : Ty) (v : Nat) : Nat :=
  let mag := v % fsign t
  if bit v (t.width - 1) then fsign t - mag else fsign t + mag

/-- The pattern at a place of that order. -/
def fOfOrdinal (t : Ty) (k : Nat) : Nat :=
  if k < fsign t then fsign t + (fsign t - k) else k - fsign t

/-- The result that token (o, up) stands for among the allowed ordinals `cs`, `fl` the ordinal at or below the value. Under .rod an
even o is barred while the value is next to it: its down token gives o only for values above it and the ordinal below before, its up
token gives o only for values below it and the ordinal above after. So a token's result never falls as the value rises. -/
def tokenResult (rm : Rm) (fl : Nat) (cs : List Nat) (o : Nat) (up : Bool) : Nat :=
  let stays := !(rm == .rod && o % 2 == 0) || (if up then decide (fl < o) else decide (o ≤ fl))
  if up then (cs.find? fun c => decide (o < c) || (stays && c == o)).getD (cs.getLastD fl)
  else (cs.reverse.find? fun c => decide (c < o) || (stays && c == o)).getD (cs.headD fl)

/-- The place of a token in the order of values. -/
def tokenPlace (t : Ty) (neg : Bool) (o : Nat) (up : Bool) : Nat :=
  let k := 2 * o + up.toNat
  if neg then 2 * fsign t - k else 2 * fsign t + k

/-- The last token, in the order of values, whose threshold operand is not above x; else the first. -/
def pickToken (op : Nat) (t : Ty) (rm : Rm) (x : Nat) (neg : Bool) : List (Nat × Bool) → Nat × Bool → Nat × Bool
  | [], acc => acc
  | (o, up) :: l, acc =>
    pickToken op t rm x neg l (if Config.ulpPick op t rm (tokenPlace t neg o up) ≤ fOrdinal t x then (o, up) else acc)

/-- The pick of a monotonic function among the allowed ordinals. A token's threshold is the least operand that has it or a greater
one; tokens and what each stands for rise with the operand, so every choice of thresholds is a non-decreasing function (R55). -/
def pickMono (op : Nat) (t : Ty) (rm : Rm) (x : Nat) (neg : Bool) (fl : Nat) (cs : List Nat) : Nat :=
  let lo := cs.headD fl
  let tokens := (upFrom lo (cs.getLastD fl + 1 - lo)).flatMap fun o => [(o, false), (o, true)]
  let tokens := if neg then tokens.reverse else tokens
  let (o, up) := pickToken op t rm x neg tokens (tokens.headD (fl, false))
  tokenResult rm fl cs o up

/-- The least j in [lo, lo + 2^n) or its end at which a property that stays true once true holds. -/
def firstAt (p : Nat → Bool) : Nat → Nat → Nat
  | 0, lo => lo
  | n + 1, lo => if p (lo + 2 ^ n - 1) then firstAt p n lo else firstAt p n (lo + 2 ^ n)

/-- The value at the operand `j` places from x, where the value is further from 0 (`far`) or nearer to it, as long as it has y's sign. -/
def monoAt (t : Ty) (value : Nat → Option Ex) (x : Nat) (y : Ex) (far : Bool) (j : Nat) : Option Ex :=
  let k := fOrdinal t x
  if k < j || 2 * fsign t ≤ k + j then none else
  match value (fOfOrdinal t (if y.neg == far then k - j else k + j)) with
  | some z => if z.neg == y.neg && z.num != 0 then some z else none
  | none => none

/-- Under .rod with 2 ulps: a value in the last place below a binade boundary may not give the boundary, whose significand is even, and nothing above it
is near enough; so, where some operand has such a value, no value before it may give the boundary either. True: y may not. -/
def rodTop (t : Ty) (value : Nat → Option Ex) (x : Nat) (y : Ex) (fl : Nat) : Bool :=
  let h := 2 ^ (fprec t - 1)
  let next := fun (j : Nat) => (monoAt t value x y true j).map (ordFloor t)
  (fl + 2) % h == 0 && decide (2 * h ≤ fl + 2) &&
    next (firstAt (fun j => ((next j).map fun o => decide (fl < o)).getD true) t.width 1) == some (fl + 1)

/-- Under .rod with 2 ulps: a value below the smallest subnormal gives 1 or 2 of it, so, where some operand has such a value, the values up to twice
the subnormal may not give 0. True: y may not. -/
def rodBottom (t : Ty) (value : Nat → Option Ex) (x : Nat) (y : Ex) (fl : Nat) : Bool :=
  let before := fun (j : Nat) => (monoAt t value x y false j).map (ordFloor t)
  fl == 1 && before (firstAt (fun j => ((before j).map fun o => o == 0).getD true) t.width 1) == some 0

/-- The allowed ordinals that leave a monotonic function its way on both sides (R55). -/
def monoKeeps (t : Ty) (rm : Rm) (b : Nat) (value : Nat → Option Ex) (x : Nat) (y : Ex) (fl : Nat) (cs : List Nat) : List Nat :=
  if rm != .rod || b != 2 then cs
  else cs.filter fun o => !(o == fl + 2 && rodTop t value x y fl) && !(o == 0 && rodBottom t value x y fl)

/-- The least ordinal that monotonicity leaves to a value y just above a binade boundary 2^n, where y's own ulps reach below what
any operand below the boundary may deliver: the least allowed ordinal of the nearest operand whose magnitude is below 2^n. `value`
gives the function's value at an operand. -/
def monoCap (t : Ty) (rm : Rm) (b : Nat) (value : Nat → Option Ex) (lo hi : Option Ex) (x : Nat) (y : Ex) : Nat :=
  let u := max (ulpExp t y) (fmin2 t)
  let h := 2 ^ (fprec t - 1)
  let edge := exDyadic false h u
  let above := exLe { y with neg := false } (exDyadic false (h + b) u)
  if above && decide (fmin2 t < u) then
    let at_ := monoAt t value x y false
    let below (j : Nat) : Bool :=
      match at_ j with
      | some z => !exLe edge z
      | none => true
    match at_ (firstAt below 14 1) with
    | some z => (ulpCandidates t rm b 0 lo hi z).headD 0
    | none => 0
  else 0

/-- A bounded result (R55): the pick among the candidates, rounded to the format's range; NX always, UF when the value is tiny,
OF when the result overflows. `mono`: the function's values, for a function that R55 makes monotonic. Only results of the value's own sign are
candidates (log 7, DEDUCED). -/
def ulpResult (op : Nat) (t : Ty) (rm : Rm) (b : Nat) (mono : Option (Nat → Option Ex)) (lo hi : Option Ex) (x : Nat) (y : Ex) :
    Nat × Flags :=
  let fl := ordFloor t y
  let o := match mono with
    | some value =>
      pickMono op t rm x y.neg fl (monoKeeps t rm b value x y fl (ulpCandidates t rm b (monoCap t rm b value lo hi x y) lo hi y))
    | none =>
      let cs := ulpCandidates t rm b 0 lo hi y
      cs.getD (Config.ulpPick op t rm x % max 1 cs.length) fl
  let (r, f) := roundTo t rm { ordValue t o with neg := y.neg }
  (r, f ||| flNX ||| flagIf (isTiny t rm y) flUF)

/-- The four and nine functions. -/
inductive SfFn where
  | rcp | rsq | exp | exp2 | log | log2 | sin | cos | tanh | sigm | erf
deriving DecidableEq, Repr, Inhabited

/-- The opcode byte of a function's instruction (R94). -/
def SfFn.opcode : SfFn → Nat
  | .rcp => 0x4E | .rsq => 0x4F | .exp => 0x50 | .exp2 => 0x51 | .log => 0x52 | .log2 => 0x53 | .sin => 0x54
  | .cos => 0x55 | .tanh => 0x56 | .sigm => 0x57 | .erf => 0x58

def exOne : Ex := ⟨false, 1, 1⟩
def exHalf : Ex := ⟨false, 1, 2⟩

/-- m × 2^e is a power of two. -/
def isPow2 (m : Nat) : Bool := decide (m = 2 ^ Nat.log2 m)

/-- The greatest result of the functions that approach 1: 1, and under .rod the value below it, whose significand is odd (R55). -/
def oneCap (t : Ty) (rm : Rm) : Ex := if rm == .rod then ordValue t ((roundTo t .rne exOne).1 - 1) else exOne

/-- The exact value of a monotonic function at a pattern, where it has one. -/
def sfMono (f : SfFn) (t : Ty) (v : Nat) : Option Ex :=
  match fdec t v with
  | .fin n m e =>
    let x := exDyadic n m e
    if m = 0 then none
    else match f with
      | .exp => some (exExp x)
      | .exp2 => some (exExp2 x)
      | .log => if n then none else some (exLog m e)
      | .log2 => if n then none else some (exLog2 m e)
      | .tanh => some (exTanh x)
      | .sigm => some (exSigm x)
      | .erf => some (exErf x)
      | _ => none
  | _ => none

/-- FTANH, FERF and FSIGM: an argument so large that the value rounds to 1, or FSIGM's to 0, rounds according to rm (R103). -/
def satResult (f : SfFn) (t : Ty) (rm : Rm) (lo hi : Option Ex) (x : Nat) (y : Ex) : Nat × Flags :=
  let r := (roundTo t .rne { y with neg := false }).1
  if r = (roundTo t .rne exOne).1 || (f = .sigm && r = 0) then roundTo t rm y
  else ulpResult f.opcode t rm 2 (some (sfMono f t)) lo hi x y

/-- A finite non-zero operand (−1)^n × m × 2^e, away from invalid arguments (R55, R102, R103). -/
def sfFinite (f : SfFn) (t : Ty) (rm : Rm) (v : Nat) (n : Bool) (m : Nat) (e : Int) : Nat × Flags :=
  let x := exDyadic n m e
  let op := f.opcode
  let mono := some (sfMono f t)
  match f with
  | .rcp =>
    if isPow2 m then roundTo t rm (exOne.div x) else ulpResult op t rm 1 none none none v (exOne.div x)
  | .rsq =>
    if isPow2 m && (e + Nat.log2 m) % 2 == 0 then roundTo t rm (exDyadic false 1 (-((e + Nat.log2 m) / 2)))
    else ulpResult op t rm 1 none none none v (exRsqrt m e)
  | .exp => ulpResult op t rm 2 mono (if n then none else some exOne) (if n then some exOne else none) v (exExp x)
  | .exp2 =>
    let whole := x.num % x.den == 0
    let k := x.int / (x.den : Int)
    if whole && decide (fmin2 t ≤ k) && decide (k < 2000) then roundTo t rm (exDyadic false 1 k)
    else if whole && decide (-2000 < k) && decide (k < 2000) then
      ulpResult op t rm 1 mono none none v (exDyadic false 1 k)
    else
      let lo := if decide (fmin2 t ≤ k) && decide (k < 2000) then some (exDyadic false 1 k) else none
      let hi := if decide (fmin2 t ≤ k + 1) && decide (k < 2000) then some (exDyadic false 1 (k + 1)) else none
      ulpResult op t rm 1 mono lo hi v (exExp2 x)
  | .log => if m = 2 ^ Nat.log2 m ∧ e + Nat.log2 m = 0 then (0, 0) else ulpResult op t rm 2 mono none none v (exLog m e)
  | .log2 =>
    if isPow2 m then roundTo t rm (exInt (e + Nat.log2 m) 1)
    else
      let y := exLog2 m e
      ulpResult op t rm 1 mono (some ⟨false, y.num / y.den, 1⟩) (some ⟨false, y.num / y.den + 1, 1⟩) v y
  | .sin => ulpResult op t rm 2 none none (some exOne) v (exSin x)
  | .cos => ulpResult op t rm 2 none none (some exOne) v (exCos x)
  | .tanh => satResult f t rm none (some (oneCap t rm)) v (exTanh x)
  | .sigm =>
    satResult f t rm (if n then none else some exHalf) (some (if n then exHalf else oneCap t rm)) v (exSigm x)
  | .erf => satResult f t rm none (some (oneCap t rm)) v (exErf x)

/-- ±0 (R102, R103). -/
def sfZero (f : SfFn) (t : Ty) (n : Bool) : Nat × Flags :=
  match f with
  | .rcp | .rsq => (fsigned t n (finf t), flDZ)
  | .exp | .exp2 | .cos => ((roundTo t .rne exOne).1, 0)
  | .log | .log2 => (fsigned t true (finf t), flDZ)
  | .sin | .tanh | .erf => (fsigned t n 0, 0)
  | .sigm => ((roundTo t .rne exHalf).1, 0)

/-- ±∞ (R102, R103). -/
def sfInf (f : SfFn) (t : Ty) (n : Bool) : Nat × Flags :=
  match f with
  | .rcp => (fsigned t n 0, 0)
  | .rsq => if n then (fnan t, flIV) else (0, 0)
  | .exp | .exp2 => (if n then 0 else finf t, 0)
  | .log | .log2 => if n then (fnan t, flIV) else (finf t, 0)
  | .sin | .cos => (fnan t, flIV)
  | .tanh | .erf => (fsigned t n (roundTo t .rne exOne).1, 0)
  | .sigm => (if n then 0 else (roundTo t .rne exOne).1, 0)

/-- The functions of R102 and R103 on a bit pattern. -/
def sfEval (f : SfFn) (t : Ty) (rm : Rm) (v : Nat) : Nat × Flags :=
  match fdec t v with
  | .nan s => (fnan t, flagIf s flIV)
  | .inf n => sfInf f t n
  | .fin n 0 _ => sfZero f t n
  | .fin n m e =>
    if n && (f == .rsq || f == .log || f == .log2) then (fnan t, flIV) else sfFinite f t rm v n m e

end Sys2Proof.Machine
end

