-- ==== Sys2Proof/Machine/FloatOps.lean ====
section
/-! DEFINITION. Floating-point, conversion and KD8 instructions (R94 to R109). -/

namespace Sys2Proof.Machine

open Sys2Proof

/-- Source `n` of the values read, as a value of a format. -/
def fv (t : Ty) (vals : List Nat) (n : Nat) : FV := fdec t (arg vals n % 2 ^ t.width)

def execFadd (f : FA) (s : State) := runPure (.fadd f) s f.ty fun v => fAdd f.ty f.rm (fv f.ty v 0) (fv f.ty v 1)
def execFsub (f : FA) (s : State) := runPure (.fsub f) s f.ty fun v => fAdd f.ty f.rm (fv f.ty v 0) (fv f.ty v 1).opp
def execFmul (f : FA) (s : State) := runPure (.fmul f) s f.ty fun v => fMul f.ty f.rm (fv f.ty v 0) (fv f.ty v 1)
def execFma (f : FA) (s : State) :=
  runPure (.fma f) s f.ty fun v => fFma f.ty f.rm (fv f.ty v 0) (fv f.ty v 1) (fv f.ty v 2)
/-- R96: the product is negated before the addition. -/
def execFnma (f : FA) (s : State) :=
  runPure (.fnma f) s f.ty fun v => fFma f.ty f.rm (fv f.ty v 0).opp (fv f.ty v 1) (fv f.ty v 2)
def execFmin (f : FA) (s : State) :=
  runPure (.fmin f) s f.ty fun v => fMinMax f.ty false (arg v 0 % 2 ^ f.ty.width) (arg v 1 % 2 ^ f.ty.width)
def execFmax (f : FA) (s : State) :=
  runPure (.fmax f) s f.ty fun v => fMinMax f.ty true (arg v 0 % 2 ^ f.ty.width) (arg v 1 % 2 ^ f.ty.width)
/-- R98: the sign operations move bits. -/
def execFabs (f : FA) (s : State) := runInt (.fabs f) s f.ty fun v => arg v 0 % fsign f.ty
def execFneg (f : FA) (s : State) := runInt (.fneg f) s f.ty fun v => (arg v 0 + fsign f.ty) % 2 ^ f.ty.width
def execFcps (f : FA) (s : State) :=
  runInt (.fcps f) s f.ty fun v => arg v 0 % fsign f.ty + arg v 1 / fsign f.ty % 2 * fsign f.ty
def execFcmp (f : FA) (s : State) :=
  runPure (.fcmp f) s .n32 fun v =>
    let (b, fl) := fCompare ((condLit f.c.toNat).getD .eq) (fv f.ty v 0) (fv f.ty v 1)
    (b2n b, fl)
def execFcls (f : FA) (s : State) := runInt (.fcls f) s .n32 fun v => 2 ^ fClass f.ty (arg v 0 % 2 ^ f.ty.width)
def execFdiv (f : FA) (s : State) := runPure (.fdiv f) s f.ty fun v => fDiv f.ty f.rm (fv f.ty v 0) (fv f.ty v 1)
def execFsqrt (f : FA) (s : State) := runPure (.fsqrt f) s f.ty fun v => fSqrt f.ty f.rm (fv f.ty v 0)

/-- A function of R102 or R103 on source a. -/
def sfOn (fn : SfFn) (f : FA) (v : List Nat) : Nat × Flags := sfEval fn f.ty f.rm (arg v 0 % 2 ^ f.ty.width)
def execFrcp (f : FA) (s : State) := runPure (.frcp f) s f.ty (sfOn .rcp f)
def execFrsq (f : FA) (s : State) := runPure (.frsq f) s f.ty (sfOn .rsq f)
def execFexp (f : FA) (s : State) := runPure (.fexp f) s f.ty (sfOn .exp f)
def execFexp2 (f : FA) (s : State) := runPure (.fexp2 f) s f.ty (sfOn .exp2 f)
def execFlog (f : FA) (s : State) := runPure (.flog f) s f.ty (sfOn .log f)
def execFlog2 (f : FA) (s : State) := runPure (.flog2 f) s f.ty (sfOn .log2 f)
def execFsin (f : FA) (s : State) := runPure (.fsin f) s f.ty (sfOn .sin f)
def execFcos (f : FA) (s : State) := runPure (.fcos f) s f.ty (sfOn .cos f)
def execFtanh (f : FA) (s : State) := runPure (.ftanh f) s f.ty (sfOn .tanh f)
def execFsigm (f : FA) (s : State) := runPure (.fsigm f) s f.ty (sfOn .sigm f)
def execFerf (f : FA) (s : State) := runPure (.ferf f) s f.ty (sfOn .erf f)
def execFrnd (f : FA) (s : State) := runPure (.frnd f) s f.ty fun v => fRnd f.ty f.rm (arg v 0 % 2 ^ f.ty.width)

/-- R104: the flags as this trace sees them. -/
def execFlgr (f : FA) (s : State) :=
  runSlot (.flgr f) s fun s v _ => .done s (putResult (.flgr f) v.l .n32 v.flags.toNat)
/-- R105: reads the flags, then clears those of the mask. -/
def execFlgc (f : FI) (s : State) :=
  runSlot (.flgc f) s fun s v _ =>
    let (fc, tf) := flagsClear v.l.fclear v.l.tflags (.ofNat 5 f.imm.toNat)
    .done s { putResult (.flgc f) v.l .n32 v.flags.toNat with fclear := fc, tflags := tf }

/-- R106: the source type is the literal in c. -/
def execCvt (f : FA) (s : State) :=
  runPure (.cvt f) s f.ty fun v =>
    let st := (Ty.ofCode? (f.c.toNat % 16)).getD .b32
    Machine.cvt st f.ty f.rm (arg v 0 % 2 ^ st.width)

/-- The bits of element `e` of a quad of registers. -/
def quadElem (t : Ty) (v e : Nat) : Nat := bits v (32 * e) t.width

/-- KDQ (R107): four codes in the low word, the scale in the high word, and the flags. -/
def kdq (t : Ty) (a b c : Nat) : Nat × Flags :=
  let s0 := if c % 256 = 128 then -127 else signed 8 c
  let m := fdec t (b % 2 ^ t.width)
  let beyond := fun (sc : Int) => match m with
    | .nan _ => false
    | .inf _ => true
    | x => kdSaturates x.ex sc
  let sc := kdScaleFrom beyond 3 s0
  let es := (upFrom 0 4).map fun e => kdElem (fdec t (quadElem t a e)) sc
  let codes := (upFrom 0 4).foldl (fun x e => x + 2 ^ (8 * e) * ((es.map (·.1)).getD e 0)) 0
  let sat := beyond sc || es.any (·.2.2)
  (codes + 2 ^ 32 * wrap 32 sc,
   flagIf m.isNan flIV ||| es.foldl (fun f e => f ||| e.2.1) 0 ||| flagIf sat (flOF ||| flNX))

def execKdq (f : FA) (s : State) :=
  runPure (.kdq f) s .n64 fun v => kdq f.ty (arg v 0) (arg v 1) (arg v 2)

/-- KDX (R109): four elements, one to a register. -/
def kdx (t : Ty) (rm : Rm) (a b : Nat) : Nat × Flags :=
  (upFrom 0 4).foldl (fun x e =>
    let (r, fl) := kdTo t rm (bits a (8 * e) 8) (signed 8 b)
    (x.1 + 2 ^ (32 * e) * r, x.2 ||| fl)) (0, 0)

def execKdx (f : FA) (s : State) := runPure (.kdx f) s .q128 fun v => kdx f.ty f.rm (arg v 0) (arg v 1)

end Sys2Proof.Machine
end

