-- ==== Sys2Proof/Machine/CrossLane.lean ====
section
/-! DEFINITION. Cross-lane instructions (R178 to R182). One operation covers the active lanes of the bundle whose stepped words hold
the same fields that are not register fields (R33). -/

namespace Sys2Proof.Machine

open Sys2Proof

/-- The instruction of a lane at its slot: the stepped word with its P word (R30, R61). -/
def View.instr? (v : View) : Option Instr :=
  match v.tr.stepWord v.l.at_ v.l.pass with
  | (_, _, false) => none
  | (w, extra, true) =>
    let pre : Option PWord := (v.tr.prefixAt v.l.at_).bind fun p => (decodePrefix p w).toOption
    (decodeSlot w pre extra).toOption

/-- Two words form one operation (R33). -/
def sameOp : Instr → Instr → Bool
  | .shfl f, .shfl g | .xred f, .xred g | .scan f, .scan g | .vote f, .vote g => f.c == g.c && f.fn == g.fn
  | .mma f, .mma g => f.acc == g.acc
  | _, _ => false

/-- The lanes of an operation, in ascending thread-tag order. -/
def State.crossPeers (s : State) (v : View) (i : Instr) : List (View × Instr) :=
  v.b.lanes.filterMap fun l =>
    if l.r = v.t.r then some (v, i)
    else if l.at_ = v.l.at_ then
      (s.viewOf v.p l.r).bind fun x => x.instr?.bind fun j => if sameOp i j then some (x, j) else none
    else none

/-- A lane of an operation with its sources read. -/
structure Peer where
  v : View
  i : Instr
  vals : List Nat
deriving Repr, Inhabited

/-- Reads the sources of the lanes of an operation: a lane that faults leaves the operation (R33); a lane that waits holds it. -/
def State.readPeers (s : State) : List (View × Instr) → State × Option (List Peer)
  | [] => (s, some [])
  | (v, i) :: l =>
    if !wfBool i then (s.illegal v (v.info i 0x01 0) 1).readPeers l else
    match s.readSources v i with
    | .fault s f => (s.slotFault v f).readPeers l
    | .stall s l => (s.modLane v.p v.t.r fun _ => l, none)
    | .ok s lane vals =>
      match s.readPeers l with
      | (s, some ps) => (s, some ({ v := { v with l := lane }, i, vals } :: ps))
      | (s, none) => (s, none)

/-- Gives each lane of an operation its result and flags, and moves it on. -/
def State.givePeers (s : State) (ps : List Peer) (t : Ty) (res : Peer → Nat × Flags) : State :=
  ps.foldl (fun (s : State) p =>
    let (x, fl) := res p
    s.modLane p.v.p p.v.t.r fun _ => { (putResult p.i p.v.l t x).raise fl with at_ := p.v.l.at_ + 1 }) s

/-- An operation over lanes: `res` gives each lane its result from the lanes of the operation. -/
def runCross (i : Instr) (s : State) (t : Ty) (res : List Peer → Peer → Nat × Flags) : Host.Outcome State Fault Refusal :=
  match s.view with
  | none => .fault .noLane
  | some v =>
    match s.readPeers (s.crossPeers v i) with
    | (s, none) => .next s
    | (s, some ps) => .next (s.givePeers ps t (res ps))

/-- The segment width of a code (R178). -/
def segWidth (c : Nat) : Nat := max 1 (Config.W / 2 ^ (c % 8))

/-- The lane at a position of the segment of a lane. -/
def segLane (ps : List Peer) (p : Peer) (sw j : Nat) : Option Peer := ps.find? fun q => q.v.l.no == p.v.l.no / sw * sw + j

/-- SHFL (R179): the source position. -/
def shflFrom (fn j sel sw : Nat) : Option Nat :=
  match fn with
  | 0 => some (sel % sw)
  | 1 => if sel ≤ j then some (j - sel) else none
  | 2 => if j + sel < sw then some (j + sel) else none
  | _ => some ((j ^^^ sel) % sw)

def execShfl (f : FX) (s : State) :=
  runCross (.shfl f) s f.ty fun ps p =>
    let sw := segWidth f.c.toNat
    let src := (shflFrom f.fn.toNat (p.v.l.no % sw) (arg p.vals 1) sw).bind (segLane ps p sw)
    (bv f.ty (arg ((src.map (·.vals)).getD p.vals) 0), 0)

/-- A value of a reduction: its bits, the flags of every Combine in it, and whether it has met a Combine. -/
structure RedVal where
  bits : Nat
  fl : Flags
  met : Bool
deriving DecidableEq, Repr, Inhabited

/-- The operations of R180 on two values: 0 add, 1 min, 2 max, 3 and, 4 or, 5 xor. -/
def redOp (t : Ty) (op : Nat) (rm : Rm) (u v : Nat) : Nat × Flags :=
  if t.isFloat then
    (match op with
     | 0 => fAdd t rm (fdec t u) (fdec t v)
     | 1 => fMinMax t false u v
     | _ => fMinMax t true u v)
  else
    (match op with
     | 0 => red t (iv t u + iv t v)
     | 1 => red t (minI (iv t u) (iv t v))
     | 2 => red t (maxI (iv t u) (iv t v))
     | 3 => u &&& v
     | 4 => u ||| v
     | _ => u ^^^ v, 0)

/-- Combine (R180). -/
def combine (t : Ty) (op : Nat) (rm : Rm) (u v : Option RedVal) : Option RedVal :=
  match u, v with
  | some a, some b =>
    let (x, fl) := redOp t op rm a.bits b.bits
    some { bits := x, fl := a.fl ||| b.fl ||| fl, met := true }
  | some a, none => some a
  | none, b => b

/-- XRED's tree (R181); the first argument bounds the steps. -/
def xredTree (c : Option RedVal → Option RedVal → Option RedVal) : Nat → Nat → List (Option RedVal) → Option RedVal
  | 0, _, y => (y.head?).join
  | k + 1, step, y =>
    if y.length ≤ step then (y.head?).join
    else
      xredTree c k (2 * step) ((upFrom 0 y.length).map fun j =>
        if j % (2 * step) = 0 then c ((y[j]?).join) ((y[j + step]?).join) else (y[j]?).join)

/-- SCAN's steps (R181). -/
def scanTree (c : Option RedVal → Option RedVal → Option RedVal) : Nat → Nat → List (Option RedVal) → List (Option RedVal)
  | 0, _, z => z
  | k + 1, step, z =>
    if z.length ≤ step then z
    else
      scanTree c k (2 * step) ((upFrom 0 z.length).map fun j =>
        if step ≤ j then c ((z[j - step]?).join) ((z[j]?).join) else (z[j]?).join)

/-- The identity of an operation (R49). -/
def redIdentity (t : Ty) (op : Nat) : Nat :=
  match op with
  | 1 => if t.isFloat then finf t else red t (intMax t)
  | 2 => if t.isFloat then fsigned t true (finf t) else red t (intMin t)
  | 3 => 2 ^ t.width - 1
  | _ => 0

/-- What a lane receives of a reduced value (R181): a NaN that has met no Combine becomes the canonical NaN. -/
def redResult (t : Ty) (op : Nat) : Option RedVal → Nat × Flags
  | none => (redIdentity t op, 0)
  | some x =>
    if t.isFloat && !x.met then
      (match fdec t x.bits with
       | .nan sn => (fnan t, flagIf sn flIV)
       | _ => (x.bits, x.fl))
    else (x.bits, x.fl)

/-- The values of a lane's segment: source a, or the lanes' flags. -/
def segVals (ps : List Peer) (p : Peer) (sw : Nat) (val : Peer → Nat) : List (Option RedVal) :=
  (upFrom 0 sw).map fun j => (segLane ps p sw j).map fun q => { bits := val q, fl := 0, met := false }

/-- The combining step of a word's fields. -/
def redStep (f : FX) : Option RedVal → Option RedVal → Option RedVal :=
  combine f.ty (f.fn.toNat % 8) ((Rm.ofCode? (bits f.c.toNat 3 3)).getD .rne)

/-- XRED (R181): with fn[3] the source is the lane's flags. -/
def execXred (f : FX) (s : State) :=
  runCross (.xred f) s f.ty fun ps p =>
    let sw := segWidth f.c.toNat
    let val := fun (q : Peer) => if bit f.fn.toNat 3 then q.v.flags.toNat else bv f.ty (arg q.vals 0)
    redResult f.ty (f.fn.toNat % 8) (xredTree (redStep f) 7 1 (segVals ps p sw val))

/-- SCAN (R181): with fn[3] it is exclusive. -/
def execScan (f : FX) (s : State) :=
  runCross (.scan f) s f.ty fun ps p =>
    let sw := segWidth f.c.toNat
    let j := p.v.l.no % sw
    let z := scanTree (redStep f) 7 1 (segVals ps p sw fun q => bv f.ty (arg q.vals 0))
    redResult f.ty (f.fn.toNat % 8) (if bit f.fn.toNat 3 then (if j = 0 then none else (z[j - 1]?).join) else (z[j]?).join)

/-- VOTE's predicate (R182). -/
def votePred (f : FX) (q : Peer) : Bool :=
  if bit f.fn.toNat 3 then q.v.flags.toNat &&& bits f.c.toNat 3 5 != 0 else arg q.vals 0 % 2 ^ 32 != 0

def execVote (f : FX) (s : State) :=
  runCross (.vote f) s f.ty fun ps p =>
    let sw := segWidth f.c.toNat
    let seg := ps.filter fun q => q.v.l.no / sw == p.v.l.no / sw
    let yes := seg.filter (votePred f)
    ((match f.fn.toNat % 4 with
      | 0 => b2n (!yes.isEmpty)
      | 1 => b2n (yes.length == seg.length)
      | 2 => (yes.foldl (fun a q => a + 2 ^ (q.v.l.no % sw)) 0) % 2 ^ f.ty.width
      | _ => yes.length), 0)

end Sys2Proof.Machine
end

