-- ==== Sys2Proof/Machine/Rational.lean ====
section
/-! DEFINITION. Exact-rational instructions (R133 to R143). -/

namespace Sys2Proof.Machine

open Sys2Proof

/-- P and K of a PSEL value (R134). -/
def pselP (w : DWord) : Nat := bits w.toNat 0 31
def pselK (w : DWord) : Nat := bits w.toNat 32 8

/-- The modulus M = p^k (R133). -/
def pselM (w : DWord) : Nat := pselP w ^ pselK w

/-- Whether a CSRW to PSEL is accepted (R135). -/
def pselOk (w : DWord) : Bool :=
  pselP w % 2 == 1 && 3 ≤ pselP w && 1 ≤ pselK w && pselM w < 2 ^ 124 && !bit w.toNat 31 && bits w.toNat 40 24 == 0

/-- The bound N within which a fraction decodes (R136). -/
def pselN (w : DWord) : Nat := isqrt ((pselM w - 1) / 2)

/-- The extended Euclidean algorithm from (w0, s0), (w1, s1) until the second remainder is at most `n` (R143). The first argument
bounds the passes: the remainders fall at least by half in two of them. -/
def euclid (n : Nat) : Nat → Nat → Int → Nat → Int → Nat × Int
  | 0, _, _, w1, s1 => (w1, s1)
  | k + 1, w0, s0, w1, s1 =>
    if w1 ≤ n then (w1, s1)
    else euclid n k w1 s1 (w0 - w0 / w1 * w1) (s0 - (w0 / w1 : Nat) * s1)

/-- The inverse of a unit modulo M (R141): the remainder sequence of (M, y) reaches 1, and the multiplier beside it is the inverse. -/
def invMod (m y : Nat) : Nat := ((euclid 1 256 m 0 (y % m) 1).2 % (m : Int)).toNat

/-- QDEC (R143): numerator, denominator and whether the decode failed. -/
def qdec (w : DWord) (a : Nat) : Int × Nat × Bool :=
  let m := pselM w
  let n := pselN w
  let (w1, s1) := euclid n 256 m 0 (a % m) 1
  if s1.natAbs ≤ n ∧ Nat.gcd w1 s1.natAbs = 1 then (if 0 < s1 then (w1 : Int) else -(w1 : Int), s1.natAbs, false)
  else (0, 0, true)

/-- Whether a number is a unit (R141): prime to p. -/
def pselUnit (w : DWord) (y : Nat) : Bool := Nat.gcd y (pselP w) == 1

/-- QENC (R142) of a numerator and a denominator that is a unit: the residue, and whether QR is set. -/
def qenc (w : DWord) (num : Int) (den : Nat) : Nat × Bool :=
  let m := pselM w
  ((num % (m : Int)).toNat * invMod m den % m, decide (pselN w < num.natAbs) || decide (pselN w < den))

/-- QINV and QDIV (R141). -/
def qdiv (w : DWord) (x y : Nat) : Nat := x % pselM w * invMod (pselM w) y % pselM w

/-- A Q instruction that cannot trap: its result at a type and whether it sets QR pending (R138). PSEL is as the last pass has committed it (R31, R133;
log 81, DEDUCED). -/
def runQ (i : Instr) (s : State) (t : Ty) (f : DWord → List Nat → Nat × Bool) : Host.Outcome State Fault Refusal :=
  runSlot i s fun s v vals =>
    let (x, qr) := f v.t.psel vals
    .done s { putResult i v.l t x with qr := v.l.qr || qr }

/-- A Q instruction with a divisor: operand `opnd` of the word, the `n`-th source (R138, R141). -/
def runQDiv (i : Instr) (s : State) (n : Nat) (f : DWord → List Nat → Nat × Bool) : Host.Outcome State Fault Refusal :=
  runSlot i s fun s v vals =>
    if pselUnit v.t.psel (arg vals n) then
      let (x, qr) := f v.t.psel vals
      .done s { putResult i v.l .q128 x with qr := v.l.qr || qr }
    else .fault s { v.info i 0x14 0 with opnd := n }

def execQenc (f : FA) (s : State) := runQDiv (.qenc f) s 1 fun w v => qenc w (iv .i64 (arg v 0)) (arg v 1)
def execQdec (f : FA) (s : State) :=
  runQ (.qdec f) s .q128 fun w v =>
    let (num, den, bad) := qdec w (arg v 0)
    (wrap 64 num + 2 ^ 64 * den, bad)
def execQadd (f : FA) (s : State) := runQ (.qadd f) s .q128 fun w v => ((arg v 0 + arg v 1) % pselM w, false)
/-- R139: the difference of residues. -/
def execQsub (f : FA) (s : State) :=
  runQ (.qsub f) s .q128 fun w v => ((((arg v 0 : Int) - arg v 1) % (pselM w : Int)).toNat, false)
def execQmul (f : FA) (s : State) := runQ (.qmul f) s .q128 fun w v => (arg v 0 * arg v 1 % pselM w, false)
def execQdiv (f : FA) (s : State) := runQDiv (.qdiv f) s 1 fun w v => (qdiv w (arg v 0) (arg v 1), false)
def execQinv (f : FA) (s : State) := runQDiv (.qinv f) s 0 fun w v => (qdiv w 1 (arg v 0), false)
def execQneg (f : FA) (s : State) := runQ (.qneg f) s .q128 fun w v => (((-(arg v 0 : Int)) % (pselM w : Int)).toNat, false)
def execQeq (f : FA) (s : State) :=
  runQ (.qeq f) s .n32 fun w v => (b2n (arg v 0 % pselM w == arg v 1 % pselM w), false)

end Sys2Proof.Machine
end

