-- ==== Sys2Proof/Machine/ThreadCtl.lean ====
section
/-! DEFINITION. Thread control in the slot: CSR access, full/empty control, NOP, TRAP and TRET, CHKERR, PROG, YIELD and LAUNCH (R126 to
R132, R192 to R195). What they do at commit is in `Commit`. -/

namespace Sys2Proof.Machine

open Sys2Proof

/-- The run's CIR as it reads now (R126). -/
def State.cirOf (s : State) (t : Thread) : Word := ((s.run? t.run).map (·.cir)).getD 0

/-- RACECTL as a run's threads read it: as it stood at the start of their node (R301). -/
def State.racectlOf (s : State) (t : Thread) : Word :=
  match s.run? t.run with
  | some x => x.racectl
  | none => ((s.ctx? t.ctx).map (·.racectl)).getD 0

/-- The value that CSRR delivers (R126): TSTAT and PSEL as committed, CLK and CIR live. -/
def State.csrValue (s : State) (t : Thread) (csr : Nat) : Nat :=
  if csr = 0x000 then Config.W
  else if csr = 0x001 then t.tid
  else if csr = csrTSTAT then t.tstat.toNat
  else if csr = csrPSEL then t.psel.toNat
  else if csr = 0x100 then ((s.ctx? t.ctx).map (·.par.mdef.toNat)).getD 0
  else if csr = 0x101 then (s.cirOf t).toNat
  else if csr = 0x102 then (s.racectlOf t).toNat
  else s.clk.toNat

/-- Keeps a hinge for step 6 of commit (R22). -/
def Lane.hold (l : Lane) (h : Hinge) : Lane := { l with hinge := some h }

/-- R130. -/
def execNop (f : FS) (s : State) := runSlot (.nop f) s fun s v _ => .done s v.l

/-- R131. -/
def execTrap (f : FS) (s : State) :=
  runSlot (.trap f) s fun s v _ => .done s (v.l.hold (.trap f.imm.toNat ((encode (.trap f)).getLastD 0)))

/-- R132: a lane in trap handling leaves it when its trace commits; any other traps. Of two TRETs in a trace the last slot's form applies (log 102,
DEDUCED). -/
def tretSlot (i : Instr) (skip : Bool) (s : State) : Host.Outcome State Fault Refusal :=
  runSlot i s fun s v _ =>
    if v.t.trap.isSome then .done s { v.l with tret := some skip } else .fault s (v.info i 0x21 0)
def execTretRe (f : FS) (s : State) := tretSlot (.tretRe f) false s
def execTretSkip (f : FS) (s : State) := tretSlot (.tretSkip f) true s

def execCsrr (f : FS) (s : State) :=
  runSlot (.csrr f) s fun s v _ =>
    let w := (csrWords? f.csr.toNat).getD 1
    .done s (v.l.putN f.d.toNat (s.csrValue v.t f.csr.toNat) w)

/-- R127: the write is kept for commit; the last slot's applies. -/
def execCsrw (f : FS) (s : State) :=
  runSlot (.csrw f) s fun s v vals =>
    .done s (if f.csr.toNat = csrPSEL then { v.l with pselW := some (.ofNat 64 (arg vals 0)) }
      else { v.l with tstatW := some (.ofNat 32 (arg vals 0)) })
def execCsrwImm (f : FS) (s : State) :=
  runSlot (.csrwImm f) s fun s v _ => .done s { v.l with tstatW := some (.ofNat 32 f.imm.toNat) }

/-- FILL and VOID (R128): the register keeps its value, and its full/empty bit changes at commit. The data of a posted load of this trace
are dropped, also where a slot has read them (R120). -/
def Lane.setState (l : Lane) (code : Nat) (full : Bool) : Lane :=
  match l.res.find? (·.code == code) with
  | some _ => { l with res := l.res.map fun h =>
      if h.code = code then { h with full, keep := h.keep || h.load, load := false } else h }
  | none =>
    { l with
      res := l.res ++ [{ code, value := 0, full, keep := true, load := false }]
      posted := l.posted.map fun e => { e with regs := e.regs.filter (·.1 ≠ code) } }
def execFill (f : FS) (s : State) := runSlot (.fill f) s fun s v _ => .done s (v.l.setState f.d.toNat true)
def execVoid (f : FS) (s : State) := runSlot (.void f) s fun s v _ => .done s (v.l.setState f.d.toNat false)

/-- Whether an earlier slot of the trace has written a register, a posted load included (R129). -/
def Lane.wrote (l : Lane) (code : Nat) : Bool :=
  code == 0 || decide (1016 ≤ code) || l.res.any (·.code == code) || l.posted.any fun e => e.regs.any (·.1 == code)

/-- WAITF (R129). -/
def waitf (i : Instr) (d n : Nat) (s : State) (v : View) : Act :=
  let span := (if d = 0 then [] else upFrom d n).filter (!v.l.wrote ·)
  match span.find? (fun c => v.t.isEmpty c && !v.t.fills.contains c) with
  | some c => .fault s { v.info i 0x03 0 with reg := c, opnd := 3 }
  | none => if span.all (!v.t.isEmpty ·) then .done s v.l else .park s (.waitf d n)
def execWaitf (f : FS) (s : State) :=
  runSlot (.waitf f) s fun s v _ => waitf (.waitf f) f.d.toNat f.imm.toNat s v

/-- R192. -/
def execChkerr (f : FS) (s : State) :=
  runSlot (.chkerr f) s fun s v _ => .done s (v.l.putN f.d.toNat (s.cirOf v.t).toNat 1)
def execChkerrAbort (f : FS) (s : State) :=
  runSlot (.chkerrAbort f) s fun s v _ => .done s { v.l.putN f.d.toNat (s.cirOf v.t).toNat 1 with abort := true }

/-- R193, R194. -/
def execProg (f : FS) (s : State) :=
  runSlot (.prog f) s fun s v _ => .done s { v.l with progs := v.l.progs ++ [f.imm.toNat % 16] }
def execYield (f : FS) (s : State) := runSlot (.yield f) s fun s v _ => .done s { v.l with yields := true }

/-- The record of a fault of a memory access (R202). -/
def View.memInfo (v : View) (i : Instr) (size : Nat) (cause detail addr : Nat) : FaultInfo :=
  { v.info i cause detail with size := Nat.log2 size, addr }

/-- LAUNCH in the slot (R195): the descriptor address is checked as an 8-byte load by checks 1 to 6, with the space of MDEF (R61). -/
def execLaunch (f : FS) (s : State) :=
  runSlot (.launch f) s fun s v vals =>
    let va := arg vals 0
    match s.checkAccess v.t (s.attrs v.t none ordLd).space va 8 1 false with
    | (s, .fault c d a) => .fault s (v.memInfo (.launch f) 8 c d a)
    | (s, .wait) => .stall s v.l
    | (s, .ok ps) => .done s (v.l.hold (.launch f.d.toNat va (ps.headD default).1 f.imm.toNat))

end Sys2Proof.Machine
end

