-- ==== Sys2Proof/Machine/ClusterOps.lean ====
section
/-! DEFINITION. Cluster instructions in the slot (R225, R226, R231, R232, R249 to R271): the checks of references and values in the
order of R250, and the commands, hinges and results that follow. -/

namespace Sys2Proof.Machine

open Sys2Proof

/-! Scratch references (R225) -/

/-- A record with an address. -/
def FaultInfo.withAddr (f : FaultInfo) (a : Nat) : FaultInfo := { f with addr := a }

/-- Checks a reference and the extent named with it (R225, R250 step 4): the group and offset it names. The record of a failed check has the offset alone
as its address, and SIZE 0 (log 104, DEDUCED). -/
def State.refCheck (s : State) (v : View) (i : Instr) (ref align extent : Nat) : Except FaultInfo (Nat × Nat) :=
  match (v.t.mem (refSlot ref)).bind fun m => s.group? m.gid with
  | none => .error (v.info i 0x19 (refSlot ref))
  | some g =>
    let off := refOff ref
    if bits ref 22 8 ≠ 0 then .error ((v.info i 0x0B g.alloc).withAddr off)
    else if off % align ≠ 0 then .error ((v.info i 0x0A 0).withAddr off)
    else if g.alloc < off + extent then .error ((v.info i 0x0B g.alloc).withAddr off)
    else .ok (g.gid, off)

/-- The home group of a lane, for the instructions that need one (R226, R250 step 2). -/
def State.homeOf (s : State) (v : View) (i : Instr) : Except FaultInfo Group :=
  match v.t.m0.bind fun m => s.group? m.gid with
  | some g => .ok g
  | none => .error (v.info i 0x19 0)

/-- Steps 2 and 3 of R250: the home group, and the tile index against its TILE. -/
def State.tileCheck (s : State) (v : View) (i : Instr) (tile : Nat) : Except FaultInfo Group := do
  let g ← s.homeOf v i
  if g.tile ≤ tile then .error ((v.info i 0x0B g.alloc).withAddr tile) else .ok g

/-- Bytes of a group's scratch as a lane's load reads them: its pond, its queue, the scratch (R18). -/
def State.scrView (s : State) (v : View) (gid off n : Nat) : Nat := ofLe (s.viewBytes v.t v.l.stores (.scr gid off) n).1

/-- Such a read sets POISON where it meets a poisoned line (R290). -/
def State.noteView (s : State) (v : View) (gid off n : Nat) : State :=
  s.notePoison v.t.run (s.viewBytes v.t v.l.stores (.scr gid off) n).2

/-- A slot whose checks give a fault or an effect. -/
def ofExcept (s : State) : Except FaultInfo Act → Act
  | .ok a => a
  | .error f => .fault s f

/-- A lane with an engine command in its pond. -/
def View.issue (v : View) (c : EngCmd) : Lane := { v.l with pond := v.l.pond ++ [.eng v.l.at_ c] }

def noBlock : DrainBlock :=
  { outGid := 0, outOff := 0, resGid := 0, resOff := 0, seed := 0, row0 := 0, col0 := 0, keep := 0, kscale := 0, barGid := 0, barOff := 0 }

/-! The format word (R231) -/

def fwS0 (w : Nat) : Int := signed 8 (bits w 24 8)
def fwNcol (w : Nat) : Nat := bits w 17 7
def fwKlen (w : Nat) : Nat := bits w 11 6
def fwRm (w : Nat) : Nat := bits w 8 3
def fwOfmt (w : Nat) : Nat := bits w 6 2
def fwRes (w : Nat) : Bool := bit w 5
def fwDrop (w : Nat) : Bool := bit w 4
def fwRst (w : Nat) : Bool := bit w 3

/-- The longest K of a format (R231). -/
def kMax (t : Ty) : Nat := if t.isWideFloat then 8 else 32

/-- A format word of MMA keeps the rules of R231 and R252. -/
def mmaWordOk (t : Ty) (w : Nat) : Bool :=
  bits w 24 8 == 0 && bits w 0 8 == 0 && 1 ≤ fwNcol w && fwNcol w ≤ 64 && 1 ≤ fwKlen w && fwKlen w ≤ kMax t &&
  (if t.isWideFloat then (Rm.ofCode? (fwRm w)).isSome else fwRm w == 0)

/-- A format word of MDRN keeps the rules of R231 and R254. -/
def mdrnWordOk (t : Ty) (w : Nat) : Bool :=
  bits w 0 3 == 0 && 1 ≤ fwNcol w && fwNcol w ≤ 64 && fwKlen w == 0 && fwRm w == 0 && bits w 24 8 != 128 &&
  (if t == .f32 then fwOfmt w != 3 else bits w 4 4 == 0)

/-- Bytes of `k` elements of a row of A or a column of B (R251). -/
def rowBytes (t : Ty) (k : Nat) : Nat := if t == .kd8 then 4 + 4 * ceilDiv k 4 else t.bytes * k

/-- The pitch of the columns of B (R251). -/
def colPitch (t : Ty) (k : Nat) : Nat :=
  match t with
  | .kd8 => 4 + 4 * ceilDiv k 4
  | .bf16 | .f16 | .f64 => 64
  | _ => 32

def mmaAlign (t : Ty) : Nat := if t == .f64 then 8 else 4

/-- The extent of B to the end of column NCOL − 1 (R251). -/
def bExtent (t : Ty) (w : Nat) : Nat := if fwNcol w = 0 then 0 else (fwNcol w - 1) * colPitch t (fwKlen w) + rowBytes t (fwKlen w)

/-! Operations of several lanes -/

/-- The lanes of an MDRN: every active lane at the slot (R232). -/
def State.drainPeers (s : State) (v : View) (i : Instr) : List (View × Instr) :=
  v.b.lanes.filterMap fun l =>
    if l.r = v.t.r then some (v, i)
    else if l.at_ = v.l.at_ then
      (s.viewOf v.p l.r).bind fun x => x.instr?.bind fun j => match j with
        | .mdrn _ => some (x, j)
        | _ => none
    else none

/-- Applies a check to each lane: a lane that breaks it takes its fault and leaves the operation. -/
def State.filterPeers {α : Type} (s : State) (chk : State → Peer → Except FaultInfo α) : List Peer → State × List (Peer × α)
  | [] => (s, [])
  | p :: l =>
    match chk s p with
    | .ok x => let (s, r) := s.filterPeers chk l; (s, (p, x) :: r)
    | .error f => (s.slotFault p.v f).filterPeers chk l

/-- The lowest-rank lane of a home group among the lanes of an operation. -/
def lowestOf (ps : List Peer) (gid : Nat) : Option Peer :=
  (ps.filter fun q => q.v.t.homeGid == gid).foldl (fun (b : Option Peer) q =>
    match b with
    | none => some q
    | some x => if (q.v.t.m0.map (·.rank)).getD 0 < (x.v.t.m0.map (·.rank)).getD 0 then some q else some x) none

/-- The vote of R232 for one lane: every lane of its group passes the same word, and the word keeps the rules. -/
def voteCheck (ps : List Peer) (word : Peer → Nat) (ok : Nat → Bool) (p : Peer) : Except FaultInfo Unit :=
  let mine := ps.filter fun q => q.v.t.homeGid == p.v.t.homeGid
  if mine.all (fun q => word q == word p) && ok (word p) then .ok ()
  else
    let low := ((lowestOf ps p.v.t.homeGid).map word).getD 0
    .error (p.v.info p.i 0x15 (word p + 2 ^ 32 * low))

/-- Puts a command into each lane's pond and moves it on. -/
def State.issuePeers (s : State) (ps : List (Peer × EngCmd)) : State :=
  ps.foldl (fun (s : State) x => s.modLane x.1.v.p x.1.v.t.r fun _ => { x.1.v.issue x.2 with at_ := x.1.v.l.at_ + 1 }) s

/-- Steps 1 to 5 of R250 over the lanes of an operation: checks of each lane, the vote, then what the vote
leaves. `reads`: what a lane's last checks read. -/
def runVote (s : State) (peers : State → View → List (View × Instr)) (chk : State → Peer → Except FaultInfo (Nat × Nat × Nat × Nat))
    (word : Peer → Nat) (ok : Nat → Bool) (fin : State → Peer → Nat × Nat × Nat × Nat → Except FaultInfo EngCmd)
    (reads : State → Peer → Nat × Nat × Nat × Nat → State := fun s _ _ => s) :
    Host.Outcome State Fault Refusal :=
  match s.view with
  | none => .fault .noLane
  | some v =>
    match s.readPeers (peers s v) with
    | (s, none) => .next s
    | (s, some ps) =>
      let (s, a) := s.filterPeers chk ps
      let still := a.map (·.1)
      let (s, b) := s.filterPeers (fun _ p => voteCheck still word ok p) still
      let refs := fun (p : Peer) => ((a.find? fun x => x.1.v.t.r == p.v.t.r).map (·.2)).getD (0, 0, 0, 0)
      let s := b.foldl (fun (s : State) x => reads s x.1 (refs x.1)) s
      let (s, c) := s.filterPeers (fun s p => fin s p (refs p)) (b.map (·.1))
      .next (s.issuePeers c)

/-- MMA (R252). -/
def execMma (f : FE) (s : State) :=
  runVote s (fun s v => s.crossPeers v (.mma f))
    (fun s p => do
      let tile := (match p.i with | .mma g => g.acc.toNat | _ => f.acc.toNat)
      let _ ← s.tileCheck p.v p.i tile
      let w := arg p.vals 2
      let a ← s.refCheck p.v p.i (arg p.vals 0) (mmaAlign f.fmt) (rowBytes f.fmt (fwKlen w))
      let b ← s.refCheck p.v p.i (arg p.vals 1) (mmaAlign f.fmt) (bExtent f.fmt w)
      return (a.1, a.2, b.1, b.2))
    (fun p => arg p.vals 2) (mmaWordOk f.fmt)
    (fun _ p x =>
      let tile := (match p.i with | .mma g => g.acc.toNat | _ => f.acc.toNat)
      .ok (.matrix .mma tile f.fmt (arg p.vals 2) x.1 x.2.1 x.2.2.1 x.2.2.2 noBlock))

/-- MZERO, MLDA and MSTA (R253): `refs` checks the references of a lane. -/
def tileSlot (i : Instr) (op : MOp) (f : FE) (s : State) (refs : State → View → List Nat → Except FaultInfo (Nat × Nat × Nat × Nat)) :
    Host.Outcome State Fault Refusal :=
  runSlot i s fun s v vals => ofExcept s do
    let _ ← s.tileCheck v i f.acc.toNat
    let x ← refs s v vals
    return .done s (v.issue (.matrix op f.acc.toNat f.fmt 0 x.1 x.2.1 x.2.2.1 x.2.2.2 noBlock))

/-- The pitch of tile rows in scratch (R251). -/
def tilePitch (t : Ty) : Nat := if t == .f64 then 512 else 256

def execMzero (f : FE) (s : State) := tileSlot (.mzero f) .mzero f s fun _ _ _ => .ok (0, 0, 0, 0)
def execMlda (f : FE) (s : State) :=
  tileSlot (.mlda f) .mlda f s fun s v vals => do
    let a ← s.refCheck v (.mlda f) (arg vals 0) 16 (64 * tilePitch f.fmt)
    return (a.1, a.2, 0, 0)
def execMsta (f : FE) (s : State) :=
  tileSlot (.msta f) .msta f s fun s v vals => do
    let a ← s.refCheck v (.msta f) (arg vals 0) 16 (64 * tilePitch f.fmt)
    let b ← s.refCheck v (.msta f) (arg vals 1) 16 16
    return (a.1, a.2, b.1, b.2)

/-- The pitch of output rows (R254). -/
def outPitch (t : Ty) (w : Nat) : Nat :=
  if t == .f64 then 512 else if t == .f32 && fwOfmt w == 1 then 128 else if t == .f32 && fwOfmt w == 2 then 72 else 256

/-- The parameter block of a drain (R234): its reserved bytes, then its references. -/
def State.drainBlockOf (s : State) (v : View) (i : Instr) (t : Ty) (w gid off : Nat) : Except FaultInfo DrainBlock := do
  let rd := fun (o n : Nat) => s.scrView v gid (off + o) n
  match ([26, 27] ++ upFrom 36 28).find? (fun o => rd o 1 != 0) with
  | some o => .error (v.info i 0x15 (rd o 1))
  | none =>
    let out ← s.refCheck v i (rd 0 4) 8 (64 * outPitch t w)
    let res ← if fwRes w then s.refCheck v i (rd 4 4) 4 (64 * 256) else .ok (0, 0)
    let bar ← s.refCheck v i (rd 32 4) 16 16
    return { outGid := out.1, outOff := out.2, resGid := res.1, resOff := res.2, seed := rd 8 8, row0 := rd 16 4, col0 := rd 20 4,
             keep := rd 24 2, kscale := rd 28 4, barGid := bar.1, barOff := bar.2 }

/-- MDRN (R254). -/
def execMdrn (f : FE) (s : State) :=
  runVote s (fun s v => s.drainPeers v (.mdrn f))
    (fun s p => do
      let tile := (match p.i with | .mdrn g => g.acc.toNat | _ => f.acc.toNat)
      let _ ← s.tileCheck p.v p.i tile
      let a := arg p.vals 0
      if refSlot a ≠ 0 then .error (p.v.info p.i 0x15 a) else
      let x ← s.refCheck p.v p.i a 64 64
      return (x.1, x.2, 0, 0))
    (fun p => arg p.vals 1) (mdrnWordOk f.fmt)
    (fun s p x => do
      let tile := (match p.i with | .mdrn g => g.acc.toNat | _ => f.acc.toNat)
      let w := arg p.vals 1
      let b ← s.drainBlockOf p.v p.i f.fmt w x.1 x.2.1
      return .matrix .mdrn tile f.fmt w x.1 x.2.1 0 0 b)
    fun s p x => s.noteView p.v x.1 x.2.1 64

/-! The copy ring -/

/-- CPYGO in its slot (R260). -/
def execCpygo (f : FE) (s : State) :=
  runSlot (.cpygo f) s fun s v vals =>
    let i : Instr := .cpygo f
    match s.refCheck v i (arg vals 0) 64 64 with
    | .error x => .fault s x
    | .ok (gid, off) =>
    let s := s.noteView v gid off 18
    ofExcept s do
    let alloc := ((s.group? gid).map (·.alloc)).getD 0
    let rd := fun (o n : Nat) => s.scrView v gid (off + o) n
    let n := rd 16 2
    if n = 0 ∨ 1024 < n ∨ 2 ^ Nat.log2 n ≠ n then .error (v.info i 0x15 n)
    else if rd 8 4 % 64 ≠ 0 ∨ rd 12 4 % 32 ≠ 0 then .error ((v.info i 0x0A 0).withAddr off)
    else if alloc < rd 8 4 + 64 * n ∨ alloc < rd 12 4 + 32 * n then .error ((v.info i 0x0B alloc).withAddr off)
    else return .done s (v.l.hold (.cpygo gid off (arg vals 1)))

/-- CPYW (R261). -/
def execCpyw (f : FE) (s : State) :=
  runSlot (.cpyw f) s fun s v vals => ofExcept s do
    let (gid, off) ← s.refCheck v (.cpyw f) (arg vals 0) 64 64
    let d := (s.scrView v gid (off + 4) 4 + 2 ^ 32 - arg vals 1 % 2 ^ 32) % 2 ^ 32
    return .done (s.noteView v gid (off + 4) 4) (putResult (.cpyw f) v.l .n32 (b2n (decide (1 ≤ d) && decide (d ≤ 2 ^ 31))))

/-! Barrier objects -/

/-- BINIT in its slot (R264): value checks, then an entry of the group's table. -/
def execBinit (f : FE) (s : State) :=
  runSlot (.binit f) s fun s v vals => ofExcept s do
    let i : Instr := .binit f
    let (gid, off) ← s.refCheck v i (arg vals 0) 16 16
    let expA := arg vals 1
    let expB := arg vals 2
    if 16383 < expA then .error (v.info i 0x15 expA)
    else if 2 ^ 48 ≤ expB then .error (v.info i 0x15 expB)
    else match s.group? gid with
      | none => .error (v.info i 0x19 0)
      | some g =>
        let known := g.barTable.contains off || g.reserved.any (·.2 == off)
        let offs := g.reserved.foldl (fun l x => setAdd x.2 l) g.barTable
        if !known && g.bars ≤ offs.length then .error ((v.info i 0x0B g.alloc).withAddr off)
        else
          let s := s.modGroup gid fun g => { g with reserved := g.reserved ++ [(v.t.r, off)] }
          return .done s (v.issue (.binit gid off expA expB))

/-- BARV in its slot (R265). -/
def execBarv (f : FE) (s : State) :=
  runSlot (.barv f) s fun s v vals => ofExcept s do
    let (gid, off) ← s.refCheck v (.barv f) (arg vals 0) 16 16
    return .done s (v.l.hold (.barv f.d.toNat gid off))

/-- PHASE of an object. -/
def State.phaseOf (s : State) (gid off : Nat) : Bool := bit (s.scrRd gid off 4) 31

/-- A thread that observes a flip merges the object's snapshot, while race checking is on (R309). -/
def State.observeFlip (s : State) (t : Thread) (gid off : Nat) : State :=
  if s.raceMode t.ctx t.run = 0 then s else
  match s.snap? (.bar gid off) with
  | some st => s.mergeInto t.r st
  | none => s

/-- BWAIT (R266): NOP once the phase has changed, else the lane parks. -/
def execBwait (f : FE) (s : State) :=
  runSlot (.bwait f) s fun s v vals => ofExcept s do
    let (gid, off) ← s.refCheck v (.bwait f) (arg vals 0) 16 16
    let p := bit (arg vals 1) 0
    let s := s.noteScr v.t.run gid off
    if s.phaseOf gid off != p then return .done (s.observeFlip v.t gid off) v.l
    else return .park s (.bwait gid off p)

/-- BTEST (R266). -/
def execBtest (f : FE) (s : State) :=
  runSlot (.btest f) s fun s v vals => ofExcept s do
    let (gid, off) ← s.refCheck v (.btest f) (arg vals 0) 16 16
    let flipped := s.phaseOf gid off != bit (arg vals 1) 0
    let s := s.noteScr v.t.run gid off
    let s := if flipped then s.observeFlip v.t gid off else s
    return .done s (putResult (.btest f) v.l .n32 (b2n flipped))

/-! Flumes -/

/-- FLINIT in its slot (R269). -/
def execFlinit (f : FE) (s : State) :=
  runSlot (.flinit f) s fun s v vals => ofExcept s do
    let i : Instr := .flinit f
    let (gid, off) ← s.refCheck v i (arg vals 0) 32 32
    let base := arg vals 1
    let c := arg vals 2
    let nslot := bits c 0 16
    let z := bits c 16 16
    let alloc := ((s.group? gid).map (·.alloc)).getD 0
    if base % 16 ≠ 0 then .error ((v.info i 0x0A 0).withAddr base)
    else if nslot = 0 ∨ z = 0 ∨ 4096 < nslot ∨ 4096 < z then .error (v.info i 0x15 c)
    else if alloc < base + nslot * (16 * z) then .error ((v.info i 0x0B alloc).withAddr base)
    else return .done s (v.issue (.flinit gid off base nslot (16 * z)))

/-- Takes the next filled slot of a flume (R270): a given-back slot of the lowest index, else TAIL. -/
def State.takeSlot (s : State) (gid off : Nat) : State × Nat :=
  let s := s.scrWr gid (off + 14) 2 (s.scrRd gid (off + 14) 2 - 1)
  let back := ((s.group? gid).map fun g => (g.flumeBack.filter (·.1 == off)).map (·.2)).getD []
  match back with
  | k :: ks =>
    let low := ks.foldl min k
    (s.modGroup gid fun g => { g with flumeBack := g.flumeBack.filter fun x => !(x.1 == off && x.2 == low) }, low)
  | [] =>
    let tail := s.scrRd gid (off + 18) 2
    (s.scrWr gid (off + 18) 2 ((tail + 1) % s.scrRd gid (off + 8) 2), tail)

/-- FLACQ (R270). -/
def execFlacq (f : FE) (s : State) :=
  runSlot (.flacq f) s fun s v vals => ofExcept s do
    let (gid, off) ← s.refCheck v (.flacq f) (arg vals 0) 32 32
    let s := s.noteScr v.t.run gid off
    if s.scrRd gid (off + 14) 2 = 0 then return .park s (.flacq gid off)
    else
      let (s, k) := s.takeSlot gid off
      return .done s { putResult (.flacq f) v.l .n32 k with flumes := v.l.flumes ++ [(gid, off, k)] }

/-- FLREL in its slot (R271). -/
def execFlrel (f : FE) (s : State) :=
  runSlot (.flrel f) s fun s v vals => ofExcept s do
    let (gid, off) ← s.refCheck v (.flrel f) (arg vals 0) 32 32
    return .done s (v.issue (.flrel gid off (arg vals 1)))

end Sys2Proof.Machine
end

