-- ==== Sys2Proof/Machine/Groups.lean ====
section
/-! DEFINITION. Groups: GNEW, JOIN, LEAVE, GBAR, GRANK, GSIZE and GSET in the slot, and what their hinges do at step 6 of commit (R183
to R191); pool units (R159, R160). -/

namespace Sys2Proof.Machine

open Sys2Proof

/-! Pool units (R159) -/

/-- Register units per slot block of a thread or a group. -/
def unitsOfLimit (limit : Nat) : Nat := max 1 (ceilDiv limit 64)

/-- Scratch units of an allocation in granules. -/
def scratchUnits (scrg : Nat) (rchk : Bool) : Nat := ceilDiv (scrg + (if rchk then ceilDiv scrg 4 else 0)) 64

/-- The core of a slot block. -/
def coreOfBlock (b : Nat) : Nat := coreOfSlot (b * 64)

/-- Pool units in use on a core: the register units that groups hold, those of other slot blocks with a thread, and the scratch and tiles of
the groups at home there. -/
def State.poolUsed (s : State) (core : Nat) : Nat :=
  let holders := s.groups.filter fun g => g.resident && !g.dissolved
  let held := holders.flatMap (·.regBlocks)
  let here := s.threads.filter fun t => coreOfSlot t.r == core && t.status != .saved && !held.contains (blockOfSlot t.r)
  let blocks := here.foldl (fun l t => setAdd (blockOfSlot t.r) l) []
  let regs := blocks.map fun b => (here.filter fun t => blockOfSlot t.r == b).foldl (fun m t => max m (unitsOfLimit t.limit)) 1
  regs.sum + (holders.map fun g => (g.regBlocks.filter (coreOfBlock · == core)).length * g.u).sum + ((s.groups.filter fun g => g.resident && g.home == core).map fun g => scratchUnits g.scrg g.rchk + 2 * g.tile).sum

/-- Uniform-store entries in use on a core (R148, R160). -/
def State.uniformUsed (s : State) (core : Nat) : Nat :=
  (s.groups.filter fun g => g.resident && (g.home == core || g.members.any fun m => coreOfSlot m.1 == core)).length

/-! Ranks and bindings (R183) -/

/-- The slot block is bound to a lane set of another group. -/
def State.blockTaken (s : State) (gid block : Nat) : Bool := s.groups.any fun g => g.gid != gid && g.blocks.any (·.2 == block)

/-- The lowest free rank that meets a condition. -/
def Group.lowRank (g : Group) (ok : Nat → Bool) : Option Nat := (upFrom 0 8192).find? fun k => ok k && !g.members.any (·.2 == k)

/-- The rank that a thread takes in a home group: of a lane set bound to its slot block, else of an unbound lane set. A block whose own lane set has no
rank left binds no other, and the join is refused (log 103, DEDUCED). -/
def State.homeRank (s : State) (g : Group) (r : Nat) : Option Nat :=
  let block := blockOfSlot r
  if s.blockTaken g.gid block then none else
  match g.lowRank (fun k => g.blocks.any fun b => b.1 == k / 64 && b.2 == block) with
  | some k => some k
  | none => if g.blocks.any (·.2 == block) then none else g.lowRank fun k => !g.blocks.any fun b => b.1 == k / 64

/-- A thread's membership slot set, with what the tag table keeps of its home (R306). -/
def State.setMember (s : State) (r m : Nat) (x : Option Membership) : State :=
  let s := s.modThread r fun t => t.setMem m x
  if m = 0 then s.modTag r fun e => { e with home := (x.map fun y => handleOf y.gid).getD 0, hchg := e.hchg || e.touched } else s

/-- The slot that a new membership takes: m0 when empty, else the lowest free of m1 to m3 (R184, R185). -/
def Thread.freeSlot (t : Thread) : Option Nat := [0, 1, 2, 3].find? fun m => (t.mem m).isNone

/-- Adds a thread to a group under R183: its rank, or none where R183 refuses. -/
def State.joinGroup (s : State) (r : Nat) (g : Group) : State × Option Nat :=
  match s.thread? r with
  | none => (s, none)
  | some t =>
    match t.freeSlot with
    | none => (s, none)
    | some m =>
      match if m = 0 then s.homeRank g r else g.lowRank fun _ => true with
      | none => (s, none)
      | some k =>
        let bind := m == 0 && !g.blocks.any fun b => b.1 == k / 64
        let s := s.modGroup g.gid fun g =>
          { g with members := g.members ++ [(r, k)], blocks := if bind then g.blocks ++ [(k / 64, blockOfSlot r)] else g.blocks }
        (s.setMember r m (some { gid := g.gid, rank := k }), some k)

/-- A new group (R69, R184): zeroed uniforms, scratch and tiles, no member. -/
def Group.fresh (gid ctx run home scrg tile bars u : Nat) (rchk cores : Bool) (slotsTable : List Nat) : Group :=
  { gid, ctx, run, home, members := [], uni := [], scr := [], scrg, tile, bars, rchk, u, regBlocks := [], tiles := [], rowFlags := [], mq := [],
    drain := none, ring := none, gbar := none, k := 0, barTable := [], reserved := [], pureArr := [], flumeBack := [], blocks := [],
    resident := true, dissolved := false, wake := [], coresident := cores, slotsTable, idle := 0, barWaited := [], resets := 0 }

/-- A group is made, in units that have been written with zeros: no line of its scratch is poisoned (R160, R290). -/
def State.putGroup (s : State) (g : Group) : State :=
  { s with groups := s.groups ++ [g], poison := s.poison.filter fun p => match p with
      | .scr k _ => k ≠ g.gid
      | _ => true }

/-- The first handle from `h` on, cyclically, that is not in use; the first argument bounds the search. -/
def nextHandle (used : List Nat) : Nat → Nat → Nat
  | 0, h => h
  | n + 1, h => if used.contains h then nextHandle used n (h % (2 ^ 20 - 1) + 1) else h

/-- A fresh group handle of a context (R183, log 8, DESIGN CHOICE). -/
def State.newHandle (s : State) (ctx : Nat) : State × Nat :=
  let issued := ((s.ctx? ctx).map (·.handles)).getD []
  let used := issued ++ (s.groups.filter (·.ctx == ctx)).map fun g => handleOf g.gid
  let h := nextHandle used used.length (Config.freeNat s.free % (2 ^ 20 - 1) + 1)
  (({ s with free := s.free + 1 }).modCtx ctx fun c =>
    { c with handles := (c.handles ++ [h]).drop (c.handles.length + 1 - (2 ^ 20 - 2)) }, h)

/-- GNEW at step 6 (R184): the handle, or 0 with nothing created. -/
def State.groupNew (s : State) (r scratch tiles : Nat) : State × Nat :=
  match s.thread? r with
  | none => (s, 0)
  | some t =>
    let core := coreOfSlot r
    let run := s.run? t.run
    let rchk := (run.map (·.rchk)).getD false
    let scrg := ceilDiv scratch 256
    let m0 := t.m0.isNone
    if 4128768 < scratch || 16 < tiles || Config.poolUnits < s.poolUsed core + scratchUnits scrg rchk + 2 * tiles ||
        Config.uniformStore ≤ s.uniformUsed core || (m0 && s.groups.any fun g => g.blocks.any (·.2 == blockOfSlot r)) then (s, 0) else
    let (s, h) := s.newHandle t.ctx
    let gid := gidOf t.ctx h
    let bars := (run.map fun x => bits x.kd.part.toNat 6 10).getD 0
    let g := Group.fresh gid t.ctx t.run core scrg tiles bars (unitsOfLimit t.limit) rchk ((run.map (·.coresident)).getD false)
      ((run.map (·.kd.slotsTable)).getD [])
    let s := s.putGroup { g with resets := (s.core core).resets }
    ((s.joinGroup r g).1, h)

/-- JOIN at step 6 (R185): the rank, or all ones with nothing changed. -/
def State.groupJoin (s : State) (r handle : Nat) : State × Nat :=
  match s.thread? r with
  | none => (s, 2 ^ 32 - 1)
  | some t =>
    let gid := gidOf t.ctx handle
    match if handle = 0 ∨ 2 ^ 20 ≤ handle then none else s.group? gid with
    | none => (s, 2 ^ 32 - 1)
    | some g =>
      if g.dissolved || g.members.any (·.1 == r) || 8192 ≤ g.members.length || clusterOfCore g.home != clusterOfSlot r then (s, 2 ^ 32 - 1)
      else
        match s.joinGroup r g with
        | (s, some k) => (s, k)
        | (s, none) => (s, 2 ^ 32 - 1)

/-- LEAVE at step 6 (R186). -/
def State.groupLeave (s : State) (r handle : Nat) : State :=
  match s.thread? r with
  | none => s
  | some t =>
    match [0, 1, 2, 3].find? fun m => (t.mem m).any fun x => handleOf x.gid == handle with
    | none => s
    | some m => (s.setMember r m none).depart r (gidOf t.ctx handle)

/-! Slots -/

/-- GNEW and JOIN need a free membership slot (R184, R185). -/
def joinSlot (i : Instr) (s : State) (detail : List Nat → Nat) (h : List Nat → Hinge) : Host.Outcome State Fault Refusal :=
  runSlot i s fun s v vals =>
    if v.t.freeSlot.isNone then .fault s (v.info i 0x18 (detail vals)) else .done s (v.l.hold (h vals))

def execGnew (f : FX) (s : State) := joinSlot (.gnew f) s (fun _ => 0) fun v => .gnew f.d.toNat (arg v 0) (arg v 1)
def execJoin (f : FX) (s : State) := joinSlot (.join f) s (fun v => arg v 0) fun v => .join f.d.toNat (arg v 0)
def execLeave (f : FX) (s : State) := runSlot (.leave f) s fun s v vals => .done s (v.l.hold (.leave (arg vals 0)))

/-- GBAR in its slot (R188): the membership slot must be valid. -/
def execGbar (f : FX) (s : State) :=
  runSlot (.gbar f) s fun s v _ =>
    let m := f.c.toNat % 4
    if (v.t.mem m).isNone then .fault s (v.info (.gbar f) 0x19 m) else .done s (v.l.hold (.gbar m))

/-- R190. -/
def execGrank (f : FX) (s : State) :=
  runSlot (.grank f) s fun s v _ =>
    .done s (putResult (.grank f) v.l .n32 (((v.t.mem (f.c.toNat % 4)).map (·.rank)).getD (2 ^ 32 - 1)))
def execGsize (f : FX) (s : State) :=
  runSlot (.gsize f) s fun s v _ =>
    let n := ((v.t.mem (f.c.toNat % 4)).bind fun m => (s.group? m.gid).map (·.members.length)).getD 0
    .done s (putResult (.gsize f) v.l .n32 n)

/-- GSET in its slot (R191): kept for step 2 of commit. -/
def execGset (f : FX) (s : State) :=
  runSlot (.gset f) s fun s v vals =>
    if v.t.m0.isNone then .fault s (v.info (.gset f) 0x19 0) else
    let ws := (upFrom 0 f.ty.words).map fun j => (f.d.toNat + j, BitVec.ofNat 32 (arg vals 0 / 2 ^ (32 * j)))
    .done s { v.l with gsets := (v.l.gsets.filter fun x => !ws.any (·.1 == x.1)) ++ ws }

end Sys2Proof.Machine
end

