-- ==== Sys2Proof/Machine/Graphs.lean ====
section
/-! DEFINITION. Graph binaries and launches: the sections of an image (R328), the choice of native code (R330), the acceptance of a
launch (R333, R340), and the entry of a node into its queue (R332, R335). -/

namespace Sys2Proof.Machine

open Sys2Proof

/-- Bytes of context memory page by page; the number bounds the pages. -/
def State.pageBytes (s : State) (view : Place → Place) (ctx va : Nat) : Nat → Nat → List Byte
  | 0, _ => []
  | k + 1, n =>
    let m := min n (65536 - va % 65536)
    (match s.devPlace ctx va false with
      | some p => s.readAt (view p) m
      | none => List.replicate m 0) ++ (if n ≤ m then [] else s.pageBytes view ctx (va + m) k (n - m))

/-- Bytes of context memory at a global address as a run sees them; a byte that the context cannot read is 0. -/
def State.bytesAs (s : State) (view : Place → Place) (ctx va n : Nat) : List Byte :=
  s.pageBytes view ctx va (n / 65536 + 2) n
def State.ctxBytes (s : State) (ctx va n : Nat) : List Byte := s.bytesAs (fun p => p) ctx va n

/-- The number of `n` bytes of an image from offset `o`. -/
def imgNum (img : List Byte) (o n : Nat) : Nat := ofLe ((img.drop o).take n)

/-- A section of an image: kind, count, offset (R328). -/
structure Section where
  kind : Nat
  count : Nat
  off : Nat
deriving DecidableEq, Repr, Inhabited

def imgSections (img : List Byte) : List Section :=
  (upFrom 0 (imgNum img 6 2)).map fun i =>
    { kind := imgNum img (16 + 16 * i) 2, count := imgNum img (20 + 16 * i) 4, off := imgNum img (24 + 16 * i) 8 }

/-- The records of the sections of a kind: their offsets, each record `size` bytes. -/
def imgRecords (img : List Byte) (kind size : Nat) : List Nat :=
  ((imgSections img).filter (·.kind == kind)).flatMap fun x => (upFrom 0 x.count).map fun i => x.off + size * i

def imgKernels (img : List Byte) : List KernelDesc := (imgRecords img 1 64).map (Config.kernelAt img)
def imgNodes (img : List Byte) : List NodeRec := (imgRecords img 2 32).map fun o => Config.nodeOf ((img.drop o).take 32)
def imgEdges (img : List Byte) : List (Nat × Nat) := (imgRecords img 3 8).map fun o => (imgNum img o 4, imgNum img (o + 4) 4)
def imgPlan (img : List Byte) : List Region :=
  (imgRecords img 4 32).map fun o => { base := imgNum img o 8, len := imgNum img (o + 8) 8, node := imgNum img (o + 16) 4,
                                       use := imgNum img (o + 20) 1 }
def imgCodes (img : List Byte) : List CodeRec := (imgRecords img 5 16).map fun o => Config.codeOf ((img.drop o).take 16)

/-- The native code of a kernel (R330): the device's own configuration, else the highest revision of its class and width. -/
def nativeCode (img : List Byte) (kernel : Nat) : Option CodeRec :=
  let mine := (imgCodes img).filter (·.kernel == kernel)
  match mine.find? (·.config == Config.configId) with
  | some c => some c
  | none =>
    (mine.filter fun c => c.config / 256 == Config.configId / 256 && c.config % 256 < Config.configId % 256).foldl
      (fun (b : Option CodeRec) c => match b with
        | none => some c
        | some x => if x.config < c.config then some c else some x) none

/-- Edges that form no cycle: repeatedly dropping the nodes without an incoming edge leaves none. -/
def acyclic : Nat → List Nat → List (Nat × Nat) → Bool
  | 0, nodes, _ => nodes.isEmpty
  | n + 1, nodes, edges =>
    let left := nodes.filter fun x => edges.any (·.2 == x)
    if left.length = nodes.length then left.isEmpty else acyclic n left (edges.filter fun e => left.contains e.1)

/-- Bytes of a record of a section kind (R328, R329); the records of kind 6 have no size of their own. -/
def recordSize (kind : Nat) : Nat :=
  match kind with
  | 1 => 64 | 2 => 32 | 3 => 8 | 4 => 32 | 5 => 16 | _ => 0

/-- The image holds a Breuz program for a kernel: one for each kernel, in the kernels' order (R328). -/
def hasBreuz (img : List Byte) (kernel : Nat) : Bool := decide (kernel < (((imgSections img).filter (·.kind == 6)).map (·.count)).sum)

/-- The extents that an image names lie within it (R328). -/
def imgExtents (img : List Byte) : Bool :=
  decide (16 + 16 * imgNum img 6 2 ≤ img.length) &&
  (imgSections img).all (fun x => decide (x.off + recordSize x.kind * x.count ≤ img.length)) &&
  (imgKernels img).all (fun k => decide (k.dataOff + k.dataSize ≤ img.length)) &&
  (imgCodes img).all fun c => decide (c.off + c.size ≤ img.length)

/-- The loader accepts an image (R328): magic, version, sizes, no cycle, and code for every kernel. -/
def imgOk (img : List Byte) : Bool :=
  let n := imgNodes img
  let ks := imgKernels img
  imgNum img 0 4 == 0x4247434B && imgNum img 4 2 == 1 && 1 ≤ imgNum img 6 2 && imgNum img 6 2 ≤ 64 && imgNum img 8 8 == img.length &&
  imgExtents img &&
  n.all (fun x => decide (x.kernel < ks.length)) && (imgEdges img).all (fun e => decide (e.1 < n.length) && decide (e.2 < n.length)) &&
  acyclic n.length (upFrom 0 n.length) (imgEdges img) &&
  ((upFrom 0 ks.length).all fun k => (nativeCode img k).isSome || hasBreuz img k)

/-! Acceptance (R333, R340) -/

def kdRegs (k : KernelDesc) : Nat := bits k.part.toNat 37 10
def kdScrg (k : KernelDesc) : Nat := bits k.part.toNat 22 15
def kdTile (k : KernelDesc) : Nat := bits k.part.toNat 17 5
def kdRchk (k : KernelDesc) : Bool := bit k.part.toNat 16
def kdBars (k : KernelDesc) : Nat := bits k.part.toNat 6 10

/-- Slot blocks that a core without other work gives to groups of which `h` are at home there (R159): `u` units a block, `sz` units
at each home. None where the homes alone do not fit; each home core holds its group's rank-0 thread. -/
def coreBlocks (u sz h : Nat) : Option Nat :=
  if Config.poolUnits < h * sz then none
  else
    let b := min Config.blocksPerCore ((Config.poolUnits - h * sz) / u)
    if b < h then none else some b

/-- The most slot blocks that `k` empty cores give to `m` groups at home on them. -/
def clusterBlocks (u sz : Nat) : Nat → Nat → Option Nat
  | 0, m => if m = 0 then some 0 else none
  | k + 1, m =>
    (upFrom 0 (m + 1)).foldl (fun (best : Option Nat) h =>
      match coreBlocks u sz h, clusterBlocks u sz k (m - h) with
      | some a, some b => some (max (best.getD 0) (a + b))
      | _, _ => best) none

/-- `m` groups with `blocks` slot blocks in all fit in one empty cluster. -/
def clusterFits (u sz m blocks : Nat) : Bool := ((clusterBlocks u sz 4 m).map fun b => decide (blocks ≤ b)).getD false

/-- The most whole groups of `b` blocks that one empty cluster holds; the first argument bounds the search. -/
def groupsPerCluster (u sz b : Nat) : Nat → Nat
  | 0 => 0
  | n + 1 => if clusterFits u sz (n + 1) ((n + 1) * b) then n + 1 else groupsPerCluster u sz b n

/-- The coresident check (R340) of `nthr` threads in groups of `grp`, over `limit` empty cores. -/
def coresidentFits (k : KernelDesc) (nthr grp limit : Nat) (rchk : Bool) : Bool :=
  let u := unitsOfLimit (kdRegs k)
  let sz := if grp = 0 then 0 else scratchUnits (kdScrg k) rchk + 2 * kdTile k
  let g := if grp = 0 then 64 else grp
  let b := ceilDiv g 64
  let per := groupsPerCluster u sz b (128 / b)
  let whole := nthr / g
  let rest := nthr % g
  let room := limit / 4 * per
  decide (whole ≤ room) && (rest == 0 || decide (whole < room) || (limit ≠ 0 && clusterFits u sz (per + 1) (per * b + ceilDiv rest 64)))

/-- One group of a kernel fits in an empty cluster (R159, R160): what the device gives one group (R333, log 52, DEDUCED). -/
def groupFits (k : KernelDesc) (grp : Nat) (rchk : Bool) : Bool :=
  grp == 0 || clusterFits (unitsOfLimit (kdRegs k)) (scratchUnits (kdScrg k) rchk + 2 * kdTile k) 1 (ceilDiv grp 64)

/-- The run of a node; one run of a node stands at a time. -/
def runId (graph node : Nat) : Nat := graph * 2 ^ 32 + node

/-- A node stands in its queue from its entry until its last group is placed (R336, log 53, DEDUCED). -/
def State.inQueue (s : State) (g : Graph) (n : Node) : Bool :=
  n.state == .queued ||
  (n.state == .running && ((s.run? (runId g.id n.idx)).map fun x => !x.ended && decide (x.created < x.nthr)).getD false)

/-- Nodes in a context's priority queue. -/
def State.queueLength (s : State) (ctx q : Nat) : Nat :=
  ((s.graphs.filter (·.ctx == ctx)).map fun g => (g.nodes.filter fun n => s.inQueue g n && n.info.queue == q).length).sum

/-- No node of its queue stands before a node (R336). -/
def State.queueHead (s : State) (g : Graph) (n : Node) : Bool :=
  s.graphs.all fun h => h.ctx != g.ctx || h.nodes.all fun m => !s.inQueue h m || m.info.queue != n.info.queue || decide (n.order ≤ m.order)

/-- The status code of a launch (R333), 0 where it is accepted. -/
def State.launchStatus (s : State) (ctx : Nat) (k : KernelDesc) (nthr grp flags q : Nat) : Nat :=
  match s.ctx? ctx with
  | none => 0x101
  | some c =>
    if nthr = 0 ∨ 2 ^ 31 < nthr ∨ 8192 < grp ∨ 8 ≤ flags ∨ c.par.drain < k.drain ∨ (k.coresident ∧ !bit flags 0) then 0x101
    else if 1015 < kdRegs k ∨ 16128 < kdScrg k ∨ 16 < kdTile k ∨ (k.devClass.any (· ≠ Config.devClass)) ∨
        !groupFits k grp (kdRchk k || bit flags 2) then 0x102
    else if bit flags 0 && !coresidentFits k nthr grp c.par.coreLimit (kdRchk k || bit flags 2) then 0x103
    else if Config.queueNodes ≤ s.queueLength ctx q then 0x104
    else 0

/-- The copy of a loaded graph's image (R332). -/
def State.graphImage (s : State) (g : Graph) : List Byte := s.ctxBytes g.ctx g.base g.size

/-- The kernel that a descriptor address names: a loaded graph of the context and the kernel's index in it (R332). -/
def State.kernelNamed (s : State) (ctx va : Nat) : Option (Graph × Nat) :=
  (s.graphs.filter (·.ctx == ctx)).findSome? fun g =>
    if va < g.base ∨ va % 64 ≠ 0 then none
    else ((imgRecords (s.graphImage g) 1 64).findIdx? (· == va - g.base)).map fun k => (g, k)

/-- The address of a kernel's code in a graph: its native code, or its translation; 0 until there is one (R330, R350). -/
def State.codeAddr (s : State) (g : Graph) (kernel : Nat) : Nat :=
  match nativeCode (s.graphImage g) kernel with
  | some c => g.base + c.off
  | none => assocD 0 g.translated kernel

/-- A node enters its queue (R335): it is served after those that entered before it. -/
def State.enqueue (s : State) (graph idx : Nat) : State :=
  let up := fun (n : Node) => if n.idx = idx then { n with state := .queued, order := s.seq } else n
  State.modGraph { s with seq := s.seq + 1 } graph fun g => { g with nodes := g.nodes.map up }

/-- LAUNCH_ACCEPT (R195, R332, R333): the descriptor, which lies at a place, is read and checked; an accepted launch is a new node of the
launching run's graph, in queue q at once. The status code is what d receives. -/
def State.acceptLaunch (s : State) (ctx run va : Nat) (p : Place) (queue : Nat) : State × Nat :=
  let rd := fun (o n : Nat) => ofLe (s.readAt (p.add o) n)
  let psize := rd 16 4
  let s := s.notePoison run (s.meetsPoison p 64)
  if va % 64 ≠ 0 ∨ rd 20 4 ≠ 0 ∨ rd 40 24 ≠ 0 ∨ 2 ^ 24 < psize then (s, 0x101) else
  match s.kernelNamed ctx (rd 0 8), s.run? run with
  | some (g, kernel), some x =>
    match (imgKernels (s.graphImage g))[kernel]? with
    | none => (s, 0x101)
    | some k =>
      let flags := rd 14 2
      match s.launchStatus ctx k (rd 8 4) (rd 12 2) flags queue with
      | 0 =>
        let idx := ((s.graph? x.graph).map (·.nodes.length)).getD 0
        let n : Node :=
          { idx, img := g.id, info := { kernel, threads := rd 8 4, group := rd 12 2, queue, flags }, kd := k, deps := 0,
            succs := [], state := .blocked, retry := 0, parent := some x.node, doneAddr := rd 32 8,
            psize := if psize = 0 then 65536 else 256 * psize, patch := rd 24 8, order := 0, data := none }
        let s := (s.modGraph x.graph fun y => { y with nodes := y.nodes ++ [n] }).enqueue x.graph idx
        ((s.nextEpoch ctx).modRun run fun y => { y with outward := true }, 0)
      | code => (s, code)
  | _, _ => (s, 0x101)

/-- A launch is handed to the die scheduler (R195): its status, or none while a pause of dispatch holds it (R363). -/
def State.handLaunch (s : State) (x : HeldLaunch) : State × Option Nat :=
  if s.dispatching then let (s, code) := s.acceptLaunch x.ctx x.run x.va x.place x.queue; (s, some code)
  else ({ s with held := s.held ++ [x] }, none)

/-- The launches that a pause has held are acted on in their order, and their statuses are written (R363). -/
def State.serveHeld (s : State) : State :=
  s.held.foldl (fun (s : State) x =>
    let (s, code) := s.acceptLaunch x.ctx x.run x.va x.place x.queue
    if x.d = 0 then s else s.modThread x.r fun t =>
      if t.gen = x.gen then { t with hingeFills := t.hingeFills ++ [{ code := x.d, words := 1, value := code }] } else t) { s with held := [] }

end Sys2Proof.Machine
end

