-- ==== Sys2Proof/Machine/Guards.lean ====
section
/-! DEFINITION. Guards (R110 to R116). A guard that passes has no effect but its flags; one that fails makes the lane take its
alternative (R19). -/

namespace Sys2Proof.Machine

open Sys2Proof

/-- The outcome of a guard. -/
def guardAct (s : State) (l : Lane) (ok : Bool) (fl : Flags) : Act := if ok then .done s (l.raise fl) else .alt s

/-- A guard that tests its sources. -/
def runGuard (i : Instr) (s : State) (f : List Nat → Bool × Flags) : Host.Outcome State Fault Refusal :=
  runSlot i s fun s v vals => guardAct s v.l (f vals).1 (f vals).2

/-- A comparison of two values of a type (R112). -/
def guardCompare (t : Ty) (c : Cond) (a b : Nat) : Bool × Flags :=
  if t.isFloat then fCompare c (fdec t (a % 2 ^ t.width)) (fdec t (b % 2 ^ t.width)) else (intCond c (iv t a) (iv t b), 0)

/-- Immediate of a guard (R58): sign-extended to the type's width, or converted for a floating-point type. With an 8-bit type the ten bits
are reduced modulo 2^8, as R79 has it of format I (log 73, DEDUCED). -/
def guardImm (t : Ty) (b : RegCode) : Nat :=
  let x := signed 10 b.toNat
  if t.isFloat then (roundTo t .rne (exInt x 1)).1 else immB t x

/-- R113: whether a value is zero, and IV. -/
def guardZero (t : Ty) (a : Nat) : Bool × Flags :=
  if t.isFloat then
    let v := fdec t (a % 2 ^ t.width)
    (v.isZero, snanFlag [v])
  else (bv t a == 0, 0)

/-- R114: lo in the low half of the bounds, hi in the high half. -/
def guardRange (t : Ty) (a bounds : Nat) : Bool × Flags :=
  let lo := bounds % 2 ^ (32 * t.words)
  let hi := bounds / 2 ^ (32 * t.words)
  let x := guardCompare t .le lo a
  let y := guardCompare t .le a hi
  (x.1 && y.1, x.2 ||| y.2)

def execGcmp (f : FG) (s : State) := runGuard (.gcmp f) s fun v => guardCompare f.ty f.cond (arg v 0) (arg v 1)
def execGcmpImm (f : FG) (s : State) := runGuard (.gcmpImm f) s fun v => guardCompare f.ty f.cond (arg v 0) (guardImm f.ty f.b)
def execGz (f : FG) (s : State) := runGuard (.gz f) s fun v => guardZero f.ty (arg v 0)
def execGnz (f : FG) (s : State) := runGuard (.gnz f) s fun v => let x := guardZero f.ty (arg v 0); (!x.1, x.2)
def execGrng (f : FG) (s : State) := runGuard (.grng f) s fun v => guardRange f.ty (arg v 0) (arg v 1)

/-- R115: fails when a flag of the mask is set. -/
def flgPass (v : View) (mask : Nat) : Bool := v.flags &&& BitVec.ofNat 5 mask == 0
def execGflg (f : FG) (s : State) :=
  runSlot (.gflg f) s fun s v vals => guardAct s v.l (flgPass v (arg vals 0)) 0
def execGflgImm (f : FG) (s : State) :=
  runSlot (.gflgImm f) s fun s v _ => guardAct s v.l (flgPass v f.b.toNat) 0

/-- R116: whether a register counts as full. -/
def View.countsFull (v : View) (code : Nat) : Bool :=
  code == 0 || decide (1016 ≤ code) || v.l.res.any (·.code == code) || v.l.posted.any (fun e => e.regs.any (·.1 == code)) ||
    !v.t.isEmpty code || v.t.fills.contains code
def execGfull (f : FG) (s : State) :=
  runSlot (.gfull f) s fun s v _ => guardAct s v.l (v.countsFull f.a.toNat) 0

end Sys2Proof.Machine
end

