-- ==== Sys2Proof/Machine/MemoryOps.lean ====
section
/-! DEFINITION. Memory instructions in the slot: LD, ST, PREF, PTOG, LDX, FENCE, WAITV, PUBLISH and ATOM (R117 to R125, R171 to R177).
Stores, transfers and hinges take effect at commit. -/

namespace Sys2Proof.Machine

open Sys2Proof

/-- The address of an access (R118): base + index × size + offset, modulo 2^64. -/
def memAddr (vals : List Nat) (size : Nat) (off : Int) : Nat :=
  wrap 64 ((arg vals 0 : Int) + signed 32 (arg vals 1) * (size : Int) + off)

/-- The address of an access without an index. -/
def baseAddr (vals : List Nat) (off : Int) : Nat := wrap 64 ((arg vals 0 : Int) + off)

/-- Checks 1 to 7 of an access (R118), and what follows when they pass: the places of its values, and the lane with its race notes. -/
def accessThen (i : Instr) (s : State) (v : View) (pw : PWord) (va size n : Nat) (write atomic : Bool)
    (pre : Place → Option FaultInfo) (k : State → View → List (Place × Bool) → Act) : Act :=
  match s.checkAccess v.t pw.space va size n write with
  | (s, .fault c d a) => .fault s (v.memInfo i size c d a)
  | (s, .wait) => .stall s v.l
  | (s, .ok ps) =>
    match ps.findSome? (fun x => pre x.1) with
    | some f => .fault s f
    | none =>
      match s.judgeValues v.t (v.accAt pw size) write atomic ((valueAddrs va size n).zip ps) with
      | (s, _, some (seq, a)) => .fault s (v.memInfo i size 0x10 seq a)
      | (s, notes, none) => k s { v with l := { v.l with notes := v.l.notes ++ notes } } ps

/-- How an access of a hinge stands to the detector: judged, exempt on checked memory, or outside it (R302, R309). -/
def State.raceHow (s : State) (t : Thread) (race : RaceAttr) (chk : Bool) : RaceAttr :=
  if s.raceChecked t race chk then .check else if s.raceMem t chk then .exempt else .dflt

/-! LD -/

/-- The registers of a posted load take its fill and no earlier slot's value (R120). Where a FILL or VOID of the same trace then drops the fill, such a
register keeps the value that it had before the trace (log 101, DEDUCED). -/
def Lane.post (l : Lane) (e : LogEntry) : Lane :=
  let mine := fun (c : Nat) => e.regs.any (·.1 == c)
  { l with
    res := l.res.filter fun h => !mine h.code
    posted := (l.posted.map fun x => { x with regs := x.regs.filter fun y => !mine y.1 }) ++ [e] }

/-- The operand-log entry of a load (R25). -/
def loadEntry (i : Instr) (f : FM) (v : View) (pw : PWord) (va id : Nat) (walk chk : Bool) (places : List Place) : LogEntry :=
  { id, core := coreOfSlot v.t.r, part := partOfSlot v.t.r, r := v.t.r, gen := v.t.gen, ctx := v.t.ctx, run := v.t.run,
    dest := f.d.toNat, ty := f.ty, n := cntOf f.cnt,
    regs := (upFrom 0 (cntOf f.cnt * f.ty.words)).map fun j => (f.d.toNat + j, j),
    va, pre := pw, preWord := prefixWord i, word := .ofNat 64 ((encode i).getLastD 0), trace := v.tr.addr, ttag := hTag v.tr.h,
    slotNo := v.l.at_, pos := v.l.pass, walk, chk, places, data := none, fault := none, cancelled := false }

/-- What an sc load behind an sc store of its own trace has seen: its commit tells whether it still stands (R298). -/
def Lane.noteSc (l : Lane) (sc : Bool) (n : Nat) (ps : List Place) (bytes : List Byte) : Lane :=
  if sc && l.stores.any (·.ord == .sc) then { l with scReads := l.scReads ++ [(l.at_, n, ps, bytes)] } else l

/-- A load performs in its slot (R119): every load before it has (R26, R163 rule 2). An sc load follows the sc stores that have drained into
its core (R298). -/
def State.loadNow (s : State) (f : FM) (v : View) (pw : PWord) (ps : List (Place × Bool)) : State × Lane :=
  let c := coreOfSlot v.t.r
  let s := if pw.ord == .sc && (s.drained c).any (·.ord == .sc) then s.flushOut fun o => o.core == c else s
  let (bytes, poisoned) := s.viewValues v.t v.l.stores f.ty.bytes (ps.map (·.1))
  let s := (ps.foldl (fun (s : State) x => s.askPeer [] x.1) s).notePoison v.t.run poisoned
  let s := ps.foldl (fun (s : State) x =>
    if !s.raceMem v.t x.2 then s
    else if pw.ord.acquires then s.acquireLine v.t.r v.t.ctx x.1.line else s.pendLine v.t.r x.1.line) s
  let words := loadImages f.ty (cntOf f.cnt) bytes
  let l := v.l.noteSc (pw.ord == .sc) f.ty.bytes (ps.map (·.1)) bytes
  (s, if f.d.toNat = 0 then l else (words.zip (upFrom f.d.toNat words.length)).foldl (fun (l : Lane) x => l.put1 x.2 x.1) l)

/-- Check 7 of a load whose places are known, and what follows. -/
def loadJudged (f : FM) (s : State) (v : View) (pw : PWord) (va : Nat) (ps : List (Place × Bool)) (k : State → View → Act) : Act :=
  match s.judgeValues v.t (v.accAt pw f.ty.bytes) false false ((valueAddrs va f.ty.bytes (cntOf f.cnt)).zip ps) with
  | (s, _, some (seq, a)) => .fault s (v.memInfo (.ld f) f.ty.bytes 0x10 seq a)
  | (s, notes, none) => k s { v with l := { v.l with notes := v.l.notes ++ notes } }

/-- LD (R117 to R120): a plain load into registers v1 up is posted, its checks 5 to 7 made now where its translation is at hand; any other
completes in the slot. One that is told that its walk found no mapping goes its way with that fault, for R27 to deliver. -/
def execLd (f : FM) (s : State) :=
  runSlot (.ld f) s fun s v vals =>
    let i : Instr := .ld f
    let size := f.ty.bytes
    let n := cntOf f.cnt
    let va := memAddr vals size f.off
    let pw := s.attrs v.t f.pre ordLd
    let posts := 1 ≤ f.d.toNat && f.d.toNat ≤ 1015 && pw.ord == .plain
    match s.checkAccess v.t pw.space va size n false (if posts then loadWho s.seq else v.t.r) with
    | (s, .fault c d a) =>
      if posts && c == 0x0C then
        .done { s with seq := s.seq + 1 } (v.l.post { loadEntry i f v pw va s.seq false false [] with fault := some (c, d, a) })
      else .fault s (v.memInfo i size c d a)
    | (s, .wait) =>
      if posts then .done { s with seq := s.seq + 1 } (v.l.post (loadEntry i f v pw va s.seq true false [])) else .stall s v.l
    | (s, .ok ps) =>
      if posts then
        loadJudged f s v pw va ps fun s v =>
          .done { s with seq := s.seq + 1 } (v.l.post (loadEntry i f v pw va s.seq false (ps.any fun x => s.raceMem v.t x.2) (ps.map (·.1))))
      else match s.performLoads v.t v.l s.seq with
        | .fault s f => .fault s f
        | .stall s l => .stall s l
        | .ok s l _ => loadJudged f s { v with l } pw va ps fun s v => let (s, l) := s.loadNow f v pw ps; .done s l

/-! ST, PREF, PTOG -/

/-- The stores of an ST (R121), one for each value. -/
def storesOf (f : FM) (v : View) (s : State) (pw : PWord) (va data : Nat) (ps : List (Place × Bool)) : List PondEntry :=
  (ps.zip (upFrom 0 ps.length)).map fun x =>
    .store { r := v.t.r, gen := v.t.gen, ctx := v.t.ctx, run := v.t.run, slotNo := v.l.at_, place := x.1.1, va := va + x.2 * f.ty.bytes,
             bytes := leBytes f.ty.bytes (bits data (32 * f.ty.words * x.2) f.ty.width), ord := pw.ord, scope := pw.scope,
             mem := s.raceMem v.t x.1.2, checked := s.raceChecked v.t pw.race x.1.2, kclk := 0, home := v.t.homeGid,
             rel := pw.ord.releases, gone := none }

/-- ST (R117, R121). -/
def execSt (f : FM) (s : State) :=
  runSlot (.st f) s fun s v vals =>
    let size := f.ty.bytes
    let va := memAddr vals size f.off
    let pw := s.attrs v.t f.pre ordSt
    accessThen (.st f) s v pw va size (cntOf f.cnt) true false (fun _ => none) fun s v ps =>
      .done s { v.l with pond := v.l.pond ++ storesOf f v s pw va (arg vals 2) ps }

/-- PREF (R124) reads its registers and changes no architectural state. -/
def execPref (f : FM) (s : State) := runSlot (.pref f) s fun s v _ => .done s v.l

/-- PTOG (R125). -/
def State.ptog (s : State) (t : Thread) (va : Nat) : Nat :=
  match windowOf va with
  | some .own => if va - privateBase < t.psize then s.privateAt t (va - privateBase) else 0
  | some .global | some .host => va
  | _ => 0
def execPtog (f : FM) (s : State) :=
  runSlot (.ptog f) s fun s v vals => .done s (v.l.putN f.d.toNat (s.ptog v.t (memAddr vals f.ty.bytes f.off)) 2)

/-! LDX -/

/-- LDX (R177). The source meets checks 1 and 2 (R279), then 3, 5 and 6; one with a byte in scratch takes the window fault, and the private and
the host window are sources like the global one (log 79, DEDUCED). Destination and barrier object lie in the home group's allocation. -/
def execLdx (f : FX) (s : State) :=
  runSlot (.ldx f) s fun s v vals =>
    let i : Instr := .ldx f
    let bytes := 4 * 2 ^ f.fn.toNat
    let unit := min bytes 16
    let va := arg vals 0
    let dst := arg vals 1
    let bar := arg vals 2
    let pw := s.attrs v.t f.pre ordPlain
    let bad := fun (c d a : Nat) => Act.fault s (v.memInfo i bytes c d a)
    let parts := valueAddrs va unit (bytes / unit)
    let alloc := ((s.group? v.t.homeGid).map (·.alloc)).getD 0
    let outside := fun (a : Nat) => !inSpace pw.space a unit || [a, a + unit - 1].any fun x => windowOf x == some .scratch
    match parts.find? (fun a => !inWindows v.t a unit), parts.find? outside with
    | some a, _ => bad 0x08 0 a
    | none, some a => bad 0x09 pw.space.code a
    | none, none =>
      if va % unit ≠ 0 then bad 0x0A 0 va
      else if dst % unit ≠ 0 then bad 0x0A 0 dst
      else if bar % 16 ≠ 0 then bad 0x0A 0 bar
      else if v.t.m0.isNone then .fault s (v.info i 0x19 0)
      else if alloc < dst + bytes then bad 0x0B alloc dst
      else if alloc < bar + 16 then bad 0x0B alloc bar
      else match s.placesOf v.t false parts with
        | (s, .fault c d a) => .fault s (v.memInfo i bytes c d a)
        | (s, .wait) => .stall s v.l
        | (s, .ok ps) =>
          .done s { v.l with pond := v.l.pond ++ [.eng v.l.at_ (.ldx (ps.map (·.1)) va bytes v.t.homeGid dst bar)] }

/-! Hinges of memory -/

/-- FENCE (R174). -/
def execFence (f : FM) (s : State) :=
  runSlot (.fence f) s fun s v _ =>
    let pw := s.attrs v.t f.pre ordAny
    .done s (v.l.hold (.fence pw.ord pw.scope))

/-- WAITV in its slot (R175): checks 1 to 7 as a load; the comparand is read here. Its load updates no metadata in the slot (R302). -/
def execWaitv (f : FM) (s : State) :=
  runSlot (.waitv f) s fun s v vals =>
    let size := f.ty.bytes
    let va := memAddr vals size f.off
    let pw := s.attrs v.t f.pre ordWaitv
    let before := v.l.notes
    accessThen (.waitv f) s v pw va size 1 false false (fun _ => none) fun s v ps =>
      let (p, chk) := ps.headD (.dev 0, false)
      .done s { (v.l.hold (.waitv
          { place := p, va, ty := f.ty, cond := f.cnt.toNat, cmp := arg vals 2, acq := pw.ord.acquires, scope := pw.scope,
            race := s.raceHow v.t pw.race chk, trace := v.tr.addr, slotNo := v.l.at_, pos := v.l.pass,
            since := 0 })) with
        notes := before ++ (v.l.notes.drop before.length).filter fun x => match x with
          | .load .. => false
          | .record _ => true }

/-- The space that PUBLISH asserts (R61, R176): MDEF's, unless a P word, whose own is ignored, stands before it (log 98, DEDUCED). -/
def State.publishSpace (s : State) (t : Thread) (f : FM) : Space :=
  if f.pre.isSome then .generic else (s.attrs t none ordAny).space

/-- PUBLISH in its slot (R176). -/
def execPublish (f : FM) (s : State) :=
  runSlot (.publish f) s fun s v vals =>
    let i : Instr := .publish f
    let va := baseAddr vals f.off
    let bad := fun (c d : Nat) => Act.fault s (v.memInfo i 8 c d va)
    if !inWindows v.t va 8 then bad 0x08 0
    else if !inSpace (s.publishSpace v.t f) va 8 then bad 0x09 (s.publishSpace v.t f).code
    else if va % 8 ≠ 0 then bad 0x0A 0
    else if windowOf va = some .scratch || windowOf va = some .own then bad 0x0F 0
    else match s.placeOf v.t va true with
      | (s, .fault c d) => .fault s (v.memInfo i 8 c d va)
      | (s, .wait) => .stall s v.l
      | (s, .ok (.host vf a) _) => .done s (v.l.hold (.publish f.d.toNat (.host vf a)))
      | (s, .ok _ _) => .fault s (v.memInfo i 8 0x0F 0 va)

/-- What an atomic writes (R171): operation in the order of the opcodes from 0xB0. None where it writes nothing. -/
def atomNew (op : Nat) (ty : Ty) (old data : Nat) : Option Nat :=
  let w := ty.width
  let a := data % 2 ^ w
  match op with
  | 0 => some ((old + a) % 2 ^ w)
  | 1 => some (wrap w ((old : Int) - a))
  | 2 => some (if intOf ty a < intOf ty old then a else old)
  | 3 => some (if intOf ty old < intOf ty a then a else old)
  | 4 => some (old &&& a)
  | 5 => some (old ||| a)
  | 6 => some (old ^^^ a)
  | 7 => some a
  | 8 => if old = a then some (data / 2 ^ w % 2 ^ w) else none
  | 9 => some (fAdd ty .rne (fdec ty old) (fdec ty a)).1
  | 10 => some (fMinMax ty false old a).1
  | _ => some (fMinMax ty true old a).1

/-- ATOM in its slot (R171, R173): checks 1 to 6 as a write, the operation that host memory takes, check 7. -/
def atomSlot (i : Instr) (op : Nat) (f : FM) (s : State) : Host.Outcome State Fault Refusal :=
  runSlot i s fun s v vals =>
    let size := f.ty.bytes
    let va := baseAddr vals f.off
    let pw := s.attrs v.t f.pre ordAny
    let hostBad := fun (p : Place) => match p with
      | .host .. => if op = 0 || op = 7 || op = 8 then none else some (v.memInfo i size 0x0E 0 va)
      | _ => none
    accessThen i s v pw va size 1 true true hostBad fun s v ps =>
      let (p, chk) := ps.headD (.dev 0, false)
      .done s (v.l.hold (.atom op f.ty f.d.toNat (arg vals 1) p va pw (s.raceHow v.t pw.race chk) v.l.at_))
def execAtomAdd (f : FM) (s : State) := atomSlot (.atomAdd f) 0 f s
def execAtomSub (f : FM) (s : State) := atomSlot (.atomSub f) 1 f s
def execAtomMin (f : FM) (s : State) := atomSlot (.atomMin f) 2 f s
def execAtomMax (f : FM) (s : State) := atomSlot (.atomMax f) 3 f s
def execAtomAnd (f : FM) (s : State) := atomSlot (.atomAnd f) 4 f s
def execAtomOr (f : FM) (s : State) := atomSlot (.atomOr f) 5 f s
def execAtomXor (f : FM) (s : State) := atomSlot (.atomXor f) 6 f s
def execAtomExch (f : FM) (s : State) := atomSlot (.atomExch f) 7 f s
def execAtomCas (f : FM) (s : State) := atomSlot (.atomCas f) 8 f s
def execAtomFadd (f : FM) (s : State) := atomSlot (.atomFadd f) 9 f s
def execAtomFmin (f : FM) (s : State) := atomSlot (.atomFmin f) 10 f s
def execAtomFmax (f : FM) (s : State) := atomSlot (.atomFmax f) 11 f s

end Sys2Proof.Machine
end

