-- ==== Sys2Proof/Machine/Commit.lean ====
section
/-! DEFINITION. Commit (R21 to R23, R26, R28, R29, R127, R131, R132, R162, R169, R170, R213, R226): the COMMIT step of the table. A bundle's
lanes take each step of R21 together: `Lane.stage` holds how far each has come, and a lane that waits holds the later steps of all. -/

namespace Sys2Proof.Machine

open Sys2Proof

/-! Watchpoints (R213) -/

/-- The place `k` bytes before another, in the same page. -/
def Place.back : Place → Nat → Place
  | .dev a, k => .dev (a - k)
  | .host v a, k => .host v (a - k)
  | .peer v a, k => .peer v (a - k)
  | .scr g o, k => .scr g (o - k)

/-- Whether a watchpoint fires on a doubleword of which a store writes a byte in range: address and place of the doubleword. -/
def State.watchWord (s : State) (v : View) (w : Watch) (va : Nat) (p : Place) : Bool :=
  let inR := fun (a : Nat) => decide (w.base.toNat ≤ a) && decide (a ≤ w.limit.toNat)
  let old := (s.viewBytes v.t [] p 8).1
  let new := (s.viewBytes v.t v.l.stores p 8).1
  let stored := fun (k : Nat) => (newestByte v.l.stores (p.add k)).isSome && inR (va + k)
  if !(upFrom 0 8).any stored then false
  else if bit w.ctl.toNat 62 then (upFrom 0 8).any fun k => stored k && old[k]? != new[k]?
  else (ofLe new ^^^ w.value.toNat) &&& w.mask.toNat == 0

/-- The first watchpoint of a lane's core that fires over its pond, with the doubleword (R213). One that ignores the thread's next
issue of its trace does not fire (R211). -/
def State.watchHit (s : State) (v : View) : Option (Nat × Nat) :=
  if v.t.onePass then none else
  let ws := ((s.core (coreOfSlot v.t.r)).wps.zip [0, 1, 2, 3]).filter fun x =>
    bit x.1.ctl.toNat 63 && bits x.1.ctl.toNat 56 6 == v.t.ctx
  ws.findSome? fun w => v.l.stores.findSome? fun st =>
    (upFrom 0 ((st.va % 8 + st.bytes.length + 7) / 8)).findSome? fun j =>
      let va := st.va / 8 * 8 + 8 * j
      let p := (st.place.back (st.va % 8)).add (8 * j)
      if s.watchWord v w.1 va p then some (w.2, va) else none

/-! What a commit waits for (R21 steps 1, 4, 5 and 6, R25, R162, R227, R259) -/

/-- Store-queue entries of a list of stores: one for each 16 bytes of an ST (R121, R162). -/
def queueEntries (l : List Store) : Nat :=
  ((l.foldl (fun a st => setAdd st.slotNo a) []).map fun n => ceilDiv ((l.filter (·.slotNo == n)).map (·.bytes.length)).sum 16).sum

/-- Entries in use in a partition's store queue. -/
def State.queueUsed (s : State) (core part : Nat) : Nat :=
  ((s.blocks.filter fun b => b.core == core && b.part == part).map fun b => queueEntries b.stores).sum

/-- The engine commands of a lane, with their slots. -/
def Lane.engs (l : Lane) : List (Nat × EngCmd) := l.pond.filterMap fun e => match e with
  | .eng n c => some (n, c)
  | .store _ => none

/-- The matrix commands, and the tile of one. -/
def EngCmd.isMatrix : EngCmd → Bool
  | .matrix .. => true
  | _ => false
def EngCmd.tile : EngCmd → Nat
  | .matrix _ t _ _ _ _ _ _ _ => t
  | _ => 0

/-- Whether a CPYGO waits for its group's bound ring (R259). -/
def State.ringBusy (s : State) (l : Lane) : Bool :=
  match l.hinge with
  | some (.cpygo gid off _) => match (s.group? gid).bind (·.ring) with
    | some k => k.off != off && s.scrRd gid k.off 4 != s.scrRd gid (k.off + 4) 4
    | none => false
  | _ => false

/-- Whether a BARV waits for room in the mailbox of an absent group's die (R248). -/
def State.mailBusy (s : State) (l : Lane) : Bool :=
  match l.hinge with
  | some (.barv _ gid _) => !s.mailRoom gid
  | _ => false

/-- The first posted load of the lanes that the operand log has no room for (R25). -/
def overLog : List View → Nat → Option (View × LogEntry)
  | [], _ => none
  | v :: l, room => match v.l.posted[room]? with
    | some e => some (v, e)
    | none => overLog l (room - v.l.posted.length)

/-! Step 2: results, CSRs, link, loads, uniforms (R21, R127, R169, R191) -/

/-- TSTAT and PSEL after a commit (R127). -/
def csrCommit (l : Lane) (t : Thread) : Thread :=
  let w0 := if bit t.tstat.toNat tstatRPASS then setBit t.tstat tstatRPASS false else t.tstat
  let w1 : Word := match l.tstatW with
    | some x =>
      let rw := (setBit (setBit w0 tstatPEN (bit x.toNat tstatPEN)) tstatRPASS (bit x.toNat tstatRPASS))
      [tstatPRB, tstatQR, tstatQCFG].foldl (fun w i => if bit x.toNat i then setBit w i false else w) rw
    | none => w0
  let (w2, psel) : Word × DWord := match l.pselW with
    | some x => if pselOk x then (w1, x) else (setBit w1 tstatQCFG true, t.psel)
    | none => (w1, t.psel)
  let w3 := if l.qr then setBit w2 tstatQR true else w2
  let w4 := if l.prb then setBit w3 tstatPRB true else w3
  { t with tstat := w4, psel }

/-- A named result is written (R21, R128). -/
def commitHeld (t : Thread) (h : Held) : Thread :=
  let t := if h.keep then t else t.setReg h.code h.value
  if h.full then t.setFull h.code else t.markEmpty h.code

/-- The destination of a hinge and its registers (R169). -/
def Hinge.dest : Hinge → Nat × Nat
  | .launch d _ _ _ | .gnew d _ _ | .join d _ | .barv d _ _ => (d, 1)
  | .publish d _ => (d, 2)
  | .atom _ ty d _ _ _ _ _ _ => (d, ty.words)
  | _ => (0, 1)

/-- The registers of a hinge's destination. -/
def hingeRegs (l : Lane) : List Nat :=
  match l.hinge with
  | some h => if h.dest.1 = 0 then [] else upFrom h.dest.1 h.dest.2
  | none => []

/-- A 64-bit value written to a register pair, full. The pairs of CALL and IND and the count register of a loop stand in structure words, so the
limit of R159 does not apply to them (log 80, DEDUCED). -/
def Thread.setPair (t : Thread) (code v : Nat) : Thread :=
  ((t.setReg code (.ofNat 32 v)).setReg (code + 1) (.ofNat 32 (v / 2 ^ 32))).setFull code |>.setFull (code + 1)

/-- Whether this commit ends the lane's passes. -/
def View.lastPass (v : View) : Bool := v.l.passes ≤ v.l.pass + 1

/-- The CALL link of a trace (R28), which a TRET's resume point leaves out. -/
def View.link (v : View) (t : Thread) : Thread :=
  if v.lastPass && v.l.tret.isNone && tKind v.tr.tword.toNat == 3 then t.setPair (tLink v.tr.tword.toNat) v.tr.after else t

/-- A lane's thread leaves trap handling, and what the trap has set aside comes back (R27, R132). -/
def Thread.leaveTrap (t : Thread) : Thread :=
  match t.trap with
  | none => t
  | some x =>
    { t with trap := none, more := x.waits ++ t.more, ending := t.ending.or x.ending
             hold := ⟨t.hold.drain || x.holds.drain, t.hold.fill || x.holds.fill, t.hold.merge || x.holds.merge⟩ }

/-- The registers that a trace's successor reads, by IND, or writes, by CALL (R28). -/
def Trace.succRegs (tr : Trace) : List Nat :=
  let w := tr.tword.toNat
  if tKind w = 2 || tKind w = 3 then [tLink w, tLink w + 1] else []

/-- The registers that a commit gives values, or reads. -/
def View.touched (v : View) : List Nat :=
  (v.l.res.filter (!·.keep)).map (·.code) ++ if v.lastPass && v.l.tret.isNone then v.tr.succRegs else []

/-- The registers of one lane at step 2. -/
def View.commitRegs (v : View) (t : Thread) : Thread :=
  let t := v.l.res.foldl commitHeld t
  let t := v.l.posted.foldl (fun (t : Thread) e => e.regs.foldl (fun (t : Thread) x => t.markFill x.1) t) t
  let t := (hingeRegs v.l).foldl Thread.markFill t
  let t := if v.l.tret.isSome then t.leaveTrap else t
  v.link (csrCommit v.l { t with pipes := t.pipes.filter (· ≠ (v.tr.addr, v.l.pass)), onePass := false })

/-- Step 2 of one lane. A register that its hinge writes too is the hinge's, and the load's data for it are dropped (R120). -/
def State.commitResults (s : State) (v : View) : State :=
  let s := (s.noteRegs v.t.r v.touched).modThread v.t.r v.commitRegs
  let mine := hingeRegs v.l
  { s with oplog := s.oplog ++ if mine.isEmpty then v.l.posted else v.l.posted.map fun e => { e with regs := e.regs.filter fun x => !mine.contains x.1 } }

/-- The uniform writes of a commit (R191): for each group and register, the lane of lowest rank. -/
def State.commitUniforms (s : State) (vs : List View) : State :=
  let byRank := sortOn (fun (v : View) => (v.t.m0.map (·.rank)).getD 0) vs
  (byRank.reverse).foldl (fun (s : State) v =>
    v.l.gsets.foldl (fun (s : State) x => s.modGroup v.t.homeGid fun g => { g with uni := sSet g.uni x.1 x.2 }) s) s

/-- The progress counters (R193, R216). -/
def State.countProgress (s : State) (v : View) : State :=
  v.l.progs.foldl (fun (s : State) n =>
    let k := (v.t.ctx, dieOfSlot v.t.r, n)
    let old := ((s.progs.find? (·.1 == k)).map (·.2)).getD 0
    { s with progs := s.progs.filter (·.1 ≠ k) ++ [(k, count48 old 1)] }) s

/-- The slot of a race record; a load's metadata goes before every record. -/
def RaceNote.slot : RaceNote → Nat
  | .load .. => 0
  | .record words => bits (words.getD 2 0) 5 5

/-- The race notes of a lane (R305, R312, R316): K is taken as it stands now, and records are written in slot order (R322). -/
def State.commitNotes (s : State) (v : View) : State :=
  (sortOn RaceNote.slot v.l.notes).foldl (fun (s : State) n => match n with
    | .record words => s.raceRecord v.t.ctx v.t.run words
    | .load p va size scope acq =>
      s.raceLoad { r := v.t.r, gen := v.t.gen, ctx := v.t.ctx, run := v.t.run, home := v.t.homeGid, clk := s.clockOf v.t.homeGid,
                   place := p, va, size, write := false, atomic := false, ord := if acq then .acq else .plain, scope }) s

/-! Steps 3 and 4 -/

/-- Step 3 (R105). -/
def State.commitFlags (s : State) (v : View) : State :=
  s.modThread v.t.r fun t => { t with flg := flagsCommit t.flg v.l.fclear v.l.tflags }

/-- The loads of a thread that have no translation yet are translated where that can be had. -/
def State.translateLog (s : State) (t : Thread) : State :=
  ((s.outstanding t.r).filter (·.walk)).foldl (fun (s : State) e =>
    match s.translateLoad t e with
    | (s, .ok e) => s.setLog e
    | (s, .error (some f)) => s.setLog { e with fault := some (f.cause, f.detail, f.addr) }
    | (s, .error none) => s) s

/-- A load of a thread is not translated yet. -/
def State.walkWaits (s : State) (r : Nat) : Bool := (s.outstanding r).any fun e => e.walk && e.fault.isNone

/-- Before a store block joins its queue, the thread's earlier loads of the same bytes perform, and with each the loads before it (R26, R163
rule 2). `mine` names the loads of the committing trace. -/
def State.loadsBefore (s : State) (t : Thread) (mine : List Nat) (stores : List Store) : State :=
  let es := (s.outstanding t.r).filter (·.data.isNone)
  let last := (es.filter fun e => (stores.filter fun st => !mine.contains e.id || e.slotNo < st.slotNo).any e.meets).foldl (fun m e => max m (e.id + 1)) 0
  (es.filter (·.id < last)).foldl (fun (s : State) e => s.performEntry t e) s

/-- The lane has no store left in its pond, and has passed step 4. -/
def Lane.queued (l : Lane) : Lane :=
  { l with stage := 2, pond := l.pond.filter fun e => match e with
    | .store _ => false
    | .eng _ _ => true }

/-- Step 4 of one lane (R162): its block joins the partition's store queue once it fits; a store carries K of its thread's home group
(R305). Loads whose addresses are unknown come first, and before a release every load (R26, R122). An sc store holds the thread's next trace
until the block has drained (R163 rule 5); where sc loads of the trace stand behind one, the block performs at once (R298; log 94, DEDUCED). False where the lane waits. -/
def State.commitStores (s : State) (v : View) : State × Bool :=
  if 2 ≤ v.l.stage then (s, true) else
  let k := s.clockOf v.t.homeGid
  let stores := v.l.stores.map fun st => { st with kclk := k, home := v.t.homeGid, rel := v.t.relall || st.ord.releases }
  let done := fun (s : State) => s.modLane v.p v.t.r Lane.queued
  if stores.isEmpty then (done s, true) else
  let core := coreOfSlot v.t.r
  let part := partOfSlot v.t.r
  if Config.storeQueue < s.queueUsed core part + queueEntries stores then
    (s.modPart core part fun c => { c with stqwait := count48 c.stqwait 1 }, false)
  else
    let mine := v.l.posted.map (·.id)
    let s := s.translateLog v.t
    if s.walkWaits v.t.r then (s, false) else
    let s := s.loadsBefore v.t mine stores
    let s := if v.t.relall || stores.any (·.ord.releases) then s.performLog v.t s.seq else s
    let s : State := { s with blocks := s.blocks ++ [{ core, part, r := v.t.r, stores }] }
    let s := if stores.any (·.ord == .sc) then s.modThread v.t.r fun t => { t with hold := { t.hold with drain := true } } else s
    (done (if v.l.scReads.isEmpty then s else s.flushThread v.t.r), true)

/-! Step 5: engine commands (R226) -/

/-- BINIT at step 5 (R264), of a run. The bytes stay while their line is poisoned (R290). -/
def State.binit (s : State) (run r gid off expA expB : Nat) : State :=
  let s := (s.mailObject gid off).noteScr run gid off
  let ph := s.phaseOf gid off
  let bad := s.scrBad gid off
  let s := s.modGroup gid fun g =>
    { (if bad then g else ((g.wr off 4 (barWord ph false expA 0)).wr (off + 4) 6 expB).wr (off + 10) 6 0) with
      barTable := setAdd off g.barTable
      reserved := g.reserved.filter fun x => !(x.1 == r && x.2 == off)
      pureArr := g.pureArr.filter (·.1 ≠ off)
      barWaited := assocSet g.barWaited off 0 }
  (s.dropSnap (.bar gid off)).wakeLines (.scr gid off) 16

/-- FLINIT at step 5 (R269), of a run: one write, which a poisoned line does not take (R290). -/
def State.flinit (s : State) (run gid off base nslot z : Nat) : State :=
  if s.scrBad gid off then s.noteScr run gid off else
  (s.modGroup gid fun g =>
    { g with
      scr := g.scr.writeN off (leBytes 4 base ++ leBytes 4 z ++ leBytes 2 nslot ++ leBytes 2 0 ++ leBytes 2 nslot ++ leBytes 2 0 ++
        leBytes 2 0 ++ leBytes 2 0 ++ leBytes 12 0)
      flumeBack := g.flumeBack.filter (·.1 ≠ off) }).wakeLines (.scr gid off) 32

/-- Releases of one lane's commands other than matrix commands. The loads before it have performed; its thread's stores do so now (R226, R243). -/
def State.releaseEng (s : State) (v : View) (c : EngCmd) : State :=
  match c with
  | .ldx src va bytes gid off bar =>
    let s := s.flushThread v.t.r
    { s with seq := s.seq + 1
             ldxs := s.ldxs ++ [{ id := s.seq, core := coreOfSlot v.t.r, ctx := v.t.ctx, run := v.t.run, src, srcVa := va, gid, off,
                                  barOff := bar, bytes, resets := ((s.group? gid).map (·.resets)).getD 0 }] }
  | .binit gid off a b => (s.drainThread v.t.r).binit v.t.run v.t.r gid off a b
  | .flinit gid off base n z => (s.drainThread v.t.r).flinit v.t.run gid off base n z
  | .flrel gid off _ =>
    let s := (s.flushThread v.t.r).noteScr v.t.run gid off
    s.scrWr gid (off + 12) 2 (s.scrRd gid (off + 12) 2 + 1)
  | .matrix .. => s

/-- The lanes of the bundle that hold a matrix command of a slot for a group and a tile, with it. -/
def matrixOf (vs : List View) (slot gid tile : Nat) : List (View × EngCmd) :=
  vs.filterMap fun v =>
    (v.l.engs.find? fun x => x.1 == slot && x.2.isMatrix && v.t.homeGid == gid && x.2.tile == tile).map fun x => (v, x.2)

/-- The matrix command that the lanes of one slot, group and tile form (R226, R250): A of MMA is each lane's own, every other operand
the lowest-rank lane's. -/
def State.formMatrix (s : State) (gid : Nat) (mine : List (View × EngCmd)) : State :=
  let byRank := sortOn (fun (x : View × EngCmd) => (x.1.t.m0.map (·.rank)).getD 0) mine
  match byRank.head? with
  | some (low, .matrix op tile fmt fword aG aO bG bO blk) =>
    let s := byRank.foldl (fun (s : State) x => s.flushThread x.1.t.r) s
    let rows := byRank.map fun x => match x.2 with
      | .matrix .mma _ _ _ g o _ _ _ => { r := x.1.t.r, gen := x.1.t.gen, rank := (x.1.t.m0.map (·.rank)).getD 0, aGid := g, aOff := o }
      | _ => { r := x.1.t.r, gen := x.1.t.gen, rank := (x.1.t.m0.map (·.rank)).getD 0, aGid := aG, aOff := aO : MRow }
    let bar := if op = .mdrn then blk.barGid else bG
    let c : MCmd := { op, tile, fmt, fword, rows, bGid := bG, bOff := bO, blk, run := low.t.run, ctx := low.t.ctx,
                      resets := ((s.group? bar).map (·.resets)).getD 0 }
    s.modGroup gid fun g => { g with mq := g.mq ++ [c] }
  | _ => s

/-- What step 5 releases next: a command of one lane, or the matrix command of a slot, group and tile. -/
inductive Release where
  | one (r slot : Nat) (c : EngCmd)
  | matrix (slot gid tile : Nat)
deriving DecidableEq, Repr, Inhabited

/-- The releases of a commit, slot by slot: the commands of single lanes in tag order, then the matrix commands in the order of the lowest
tag of each (R226, R33). -/
def releasesOf (vs : List View) : List Release :=
  let slots := (vs.flatMap fun v => v.l.engs.map (·.1)).foldl (fun l n => setAdd n l) []
  slots.flatMap fun n =>
    let at_ := vs.flatMap fun v => (v.l.engs.filter (·.1 == n)).map fun x => (v, x.2)
    ((at_.filter (!·.2.isMatrix)).map fun x => Release.one x.1.t.r n x.2) ++
      ((at_.filter (·.2.isMatrix)).map fun x => Release.matrix n x.1.t.homeGid x.2.tile).foldl (fun l x => if l.contains x then l else l ++ [x]) []

/-- Engine commands of a slot leave a lane's pond. -/
def State.dropEng (s : State) (p : PortId) (r slot : Nat) (c : EngCmd) : State :=
  s.modLane p r fun l => { l with pond := l.pond.erase (.eng slot c) }

/-- Every load of some threads performs; false where one of them waits for its translation. -/
def State.loadsDone (s : State) (vs : List View) : State × Bool :=
  let s := vs.foldl (fun (s : State) v => s.performLog v.t s.seq) s
  (s, !vs.any fun v => s.loadsWait v.t.r)

/-- Step 5 (R226): a command that its queue has no room for waits (R227), and so does one whose thread has a load to perform. False where
the step is not over. -/
def State.releaseAll (s : State) (p : PortId) : List Release → State × Bool
  | [] => (s, true)
  | .one r n c :: l =>
    match s.viewOf p r with
    | none => s.releaseAll p l
    | some v =>
      match s.loadsDone [v] with
      | (s, false) => (s, false)
      | (s, true) => ((s.releaseEng v c).dropEng p r n c).releaseAll p l
  | .matrix n gid tile :: l =>
    let vs := ((s.bundle? p).map fun b => b.lanes.filterMap fun x => s.viewOf p x.r).getD []
    let mine := matrixOf vs n gid tile
    if ((s.group? gid).map fun g => decide (Config.matrixQueue ≤ g.mq.length)).getD false then
      (s.modCluster (clusterOfCore p.core) fun c => { c with mqwait := count48 c.mqwait 1 }, false)
    else
      match s.loadsDone (mine.map (·.1)) with
      | (s, false) => (s, false)
      | (s, true) => (mine.foldl (fun (s : State) x => s.dropEng p x.1.t.r n x.2) (s.formMatrix gid mine)).releaseAll p l

/-! The successor (R28, R29, R132) -/

/-- Applies a successor field (R28); IND reads its register pair in `t`. -/
def succOf (x : Succ) (t : Thread) : Resume :=
  let w := x.tword.toNat
  match tKind w with
  | 0 => .at_ x.after
  | 1 | 3 => .at_ (wrap 64 ((x.hAddr : Int) + 8 * tOffset w))
  | 2 => .at_ ((t.reg (tLink w)).toNat + 2 ^ 32 * (t.reg (tLink w + 1)).toNat)
  | 4 => .exit
  | _ => .halt

/-- The resume point of a TRET (R132), and what it does to the thread: CALL's link with .skip, a deferred load issued again or freed. IND reads
its pair in `t`, the thread as the handler's trace found it. -/
def State.tretResume (s : State) (t : Thread) (tr : TrapState) (skip : Bool) : State × Going :=
  let back : Going := { dest := .at_ tr.pc, pos := tr.pos, cnt := tr.cnt }
  match tr.kind with
  | .slot =>
    match skip, tr.succ with
    | true, some x =>
      let s := if tKind x.tword.toNat = 3 then s.modThread t.r fun t => t.setPair (tLink x.tword.toNat) x.after else s
      (s, { dest := succOf x t, pos := 0, cnt := none })
    | _, _ => (s, back)
  | .fetch => (s, back)
  | .deferred id =>
    let s : State :=
      if skip then { s with oplog := s.oplog.filter (·.id ≠ id) }
      else
        let regs := ((s.oplog.find? (·.id == id)).map (·.regs)).getD []
        State.modThread
          { s with oplog := s.oplog.map fun e => if e.id = id then { e with walk := true, data := none, fault := none, cancelled := false } else e }
          t.r fun t => regs.foldl (fun (t : Thread) x => t.markFill x.1) t
    (s, back)
  | .soft => (s, { dest := tr.resume, pos := tr.pos, cnt := tr.cnt })

/-- Where a committing lane goes (step 7 of R21). `v` is the lane as its trace issued, so IND sees the register as committed before: in a repeat
trace, as committed before the last pass (log 81, DEDUCED). -/
def State.going (s : State) (v : View) : State × Going :=
  match v.l.tret, v.t.trap with
  | some skip, some tr => s.tretResume v.t tr skip
  | _, _ =>
    if v.lastPass then (s, { dest := succOf v.tr.succ v.t, pos := 0, cnt := none })
    else (s, { dest := .at_ v.tr.addr, pos := v.l.pass + 1, cnt := v.t.cnt })

/-- PC and loop position take it (step 7); EXIT and HALT leave the PC. -/
def State.goTo (s : State) (r : Nat) (g : Going) : State :=
  s.modThread r fun t => { t with
    pc := match g.dest with
      | .at_ pc => .ofNat 64 pc
      | _ => t.pc
    pos := g.pos, cnt := g.cnt }

/-! Step 6: hinges (R22, R169, R170) -/

/-- A hinge's destination gets its value; HINGE_FILL writes it (R169). -/
def State.fillHinge (s : State) (v : View) (value : Nat) : State :=
  match v.l.hinge with
  | some h =>
    if h.dest.1 = 0 then s
    else s.modThread v.t.r fun t => { t with hingeFills := t.hingeFills ++ [{ code := h.dest.1, words := h.dest.2, value }] }
  | none => s

/-- Every earlier access of a thread performs (R172, R174, R176, R188, R195, R260, R265; log 6, DEDUCED). -/
def State.allBefore (s : State) (t : Thread) : State := (s.performLog t s.seq).flushThread t.r

/-- Parks a thread on its pending wait. -/
def State.parkWait (s : State) (r : Nat) (w : Wait) : State := (s.modThread r fun t => { t with wait := some w }).park r .waiting

/-- FENCE at step 6 (R174). The merge of an acquiring one follows the loads it holds the next trace for (R309). -/
def State.fence (s : State) (t : Thread) (ord : Ord) : State :=
  let s := if ord.releases then s.allBefore t else s
  s.modThread t.r fun t =>
    { t with relall := t.relall || ord.releases
             hold := { drain := t.hold.drain || ord == .plain || ord == .sc, fill := t.hold.fill || ord.acquires
                       merge := t.hold.merge || ord.acquires } }

/-- ATOM at step 6 (R171, R172): the value read, the value written, and the metadata. The loads before it have performed, its thread's
and its core's stores to the line are at home. -/
def State.atom (s : State) (v : View) (op : Nat) (ty : Ty) (data : Nat) (p : Place) (va : Nat) (pre : PWord) (race : RaceAttr) : State × Nat :=
  let s := if pre.ord.releases || (s.queued v.t.r v.t.gen).any (fun st => st.place.line == p.line) then s.flushThread v.t.r else s
  let s := s.flushOut fun o => o.core == coreOfSlot v.t.r && o.st.place.line == p.line
  let size := ty.bytes
  if s.meetsPoison p size then (s.setCir v.t.run cirPOISON, 2 ^ ty.width - 1)
  else
    let old := ofLe (s.readAt p size)
    let s := if race == .dflt then s else s.raceWrite (s.accOf v.t pre p va size true true) (race == .check) pre.ord.releases none
    let s := match atomNew op ty old data with
      | some new => (s.store (some v.t.run) p (leBytes size new)).wakeLines p size
      | none => s.askPeer [] p
    let s := s.noteWrite v.t.run va p (pre.scope == .dev || pre.scope == .sys)
    (s, old)

/-- PUBLISH at step 6 (R176). -/
def State.publish (s : State) (v : View) (p : Place) : State × Nat :=
  let s := s.allBefore v.t
  let n := (ofLe (s.readAt p 8) + 1) % 2 ^ 64
  let u := (s.store (some v.t.run) p (leBytes 8 n)).wakeLines p 8
  (if (s.written p 8).isEmpty then u else u.modRun v.t.run fun x => { x with outward := true }, n)

/-- CPYGO at step 6 (R237, R256, R259, R260): the ring is bound, the memberships are kept for the entries it covers, if it covers any, and
PROD is stored. -/
def State.cpygo (s : State) (v : View) (gid off prod : Nat) : State :=
  let s := (s.allBefore v.t).noteScr v.t.run gid off
  match s.group? gid with
  | none => s
  | some g =>
    let mems := [v.t.m0, v.t.m1, v.t.m2, v.t.m3].map fun m => m.map (·.gid)
    let resets := mems.map fun m => ((m.bind s.group?).map (·.resets)).getD 0
    let snap : RingSnap := { prod, mems, resets, run := v.t.run, ctx := v.t.ctx }
    let old : Ring := match g.ring with
      | some k => if k.off = off then k else { off, entries := 0, recs := 0, nent := 1, snaps := [], cur := none }
      | none => { off, entries := 0, recs := 0, nent := 1, snaps := [], cur := none }
    let ring : Ring := { old with entries := g.rd (off + 8) 4, recs := g.rd (off + 12) 4, nent := g.rd (off + 16) 2, snaps := (old.snaps ++ [snap]).filter (·.past (g.rd (off + 4) 4)) }
    (s.modGroup gid fun g => { g with ring := some ring }).scrWr gid off 4 prod

/-- BARV at step 6 (R265): PHASE before the arrival. An absent group's arrival goes to its mailbox, behind the signals that wait there (R248). -/
def State.barv (s : State) (v : View) (gid off : Nat) : State × Nat :=
  let s := s.allBefore v.t
  match s.group? gid with
  | none => (s, 0)
  | some g =>
    let ph := b2n (if s.absent g then s.phaseMailed gid off else s.phaseOf gid off)
    let s := (s.barStamp gid off v.t.r).noteScr v.t.run gid off
    let pure := v.t.homeGid == gid
    if s.absent g then
      ({ s with mailbox := s.mailbox ++ [{ die := dieOfCore g.home, gid, off, arrivals := 1, bytes := 0, pure, run := v.t.run, resets := g.resets }] }, ph)
    else (s.arriveAt gid off 1 0 pure, ph)

/-- The record of a software trap (R131, R202, R203). -/
def View.softInfo (v : View) (code word savePc : Nat) : FaultInfo :=
  { faultInfo 0x20 code with instr := word, ttag := hTag v.tr.h, pos := v.l.pass, slotNo := v.tr.len, savePc }

/-- The hinge of one lane (step 6). The thread's PC has its successor, and the loads before the hinge have performed. -/
def State.performHinge (s : State) (v : View) (g : Going) : State :=
  match v.l.hinge with
  | none => s
  | some h =>
    match h with
    | .trap code word =>
      let pc := match g.dest with
        | .at_ pc => pc
        | _ => 0
      s.takeTrap v.t.r .soft (v.softInfo code word pc) none g.dest v.tr.addr v.l.pass
    | .launch d va p q =>
      match (s.allBefore v.t).handLaunch { r := v.t.r, gen := v.t.gen, ctx := v.t.ctx, run := v.t.run, d, va, place := p, queue := q } with
      | (s, some code) => s.fillHinge v code
      | (s, none) => s
    | .fence ord _ => s.fence v.t ord
    | .waitv w => s.waitvOpen v.t.r w
    | .publish _ p => let (s, n) := s.publish v p; s.fillHinge v n
    | .atom op ty _ data p va pre chk _ => let (s, old) := s.atom v op ty data p va pre chk; s.fillHinge v old
    | .gnew _ a b => let (s, x) := s.groupNew v.t.r a b; s.fillHinge v x
    | .join _ x => let (s, k) := s.groupJoin v.t.r x; s.fillHinge v k
    | .leave x => s.groupLeave v.t.r x
    | .gbar m =>
      let gid := ((((s.thread? v.t.r).bind fun t => t.mem m)).map (·.gid)).getD 0
      (s.parkWait v.t.r (.gbarArrive gid)).gbarResume v.t.r
    | .cpygo gid off prod => s.cpygo v gid off prod
    | .barv _ gid off => let (s, ph) := s.barv v gid off; s.fillHinge v ph

/-- After a commit that left trap handling, the held faults and the pending waits come before the next trace (R27, R201). -/
def State.afterTret (s : State) (r : Nat) : State :=
  match s.thread? r with
  | none => s
  | some t =>
    if t.trap.isSome then s else
    match t.held with
    | h :: rest => (s.modThread r fun t => { t with held := rest }).deferredTrap r h
    | [] => s.resumeWaits r

/-- The next pass of a repeat trace (R23, R31). -/
def Lane.nextPass (l : Lane) : Lane := { l.clear with active := true, at_ := 1, pass := l.pass + 1 }

/-- Whether the lane's hinge is TRAP. -/
def View.traps (v : View) : Bool :=
  match v.l.hinge with
  | some (.trap _ _) => true
  | _ => false

/-- The lane is through with its commit; whether it aborts its node is looked at when every lane is (R192). -/
def Lane.over (l : Lane) : Lane := { l.clear with abort := l.abort }

/-- The lane after its commit: the next pass, or inactive; EXIT and HALT (R29). A thread that its hinge has parked, or that has
yielded, leaves the bundle even where passes remain (R22, R194). -/
def State.finishLane (s : State) (v : View) (g : Going) : State :=
  let trapped := v.traps
  let here := match (s.thread? v.t.r).map Thread.status with
    | some (Status.issuing p) => p == v.p
    | _ => false
  let s := s.retireOps v.t.r
  if here && !trapped && !v.lastPass && v.l.tret.isNone && !v.l.yields then
    s.modLane v.p v.t.r fun l => { l.nextPass with abort := l.abort }
  else
    let s := s.modLane v.p v.t.r Lane.over
    let s := if trapped then s
      else match g.dest with
        | .at_ _ => s
        | e =>
          if !here then s.modThread v.t.r fun t => { t with ending := some e }
          else match e with
            | .exit => (s.traceThread v.t.r 5).exitThread v.t.r
            | _ => s.halt v.t.r 5 0
    if v.l.tret.isSome then s.afterTret v.t.r else s

/-! The commit of a bundle -/

/-- A step of R21 taken for each lane of a bundle in tag order, up to one that waits; whether it is over. -/
def State.eachLane (s : State) (p : PortId) (k : State → View → State × Bool) : List Nat → State × Bool
  | [] => (s, true)
  | r :: rs =>
    match s.viewOf p r with
    | none => s.eachLane p k rs
    | some v =>
      match k s v with
      | (s, true) => s.eachLane p k rs
      | (s, false) => (s, false)

/-- What step 2 of a lane does beside its results: where the lane goes on is settled, and its flume slots are taken for good (R270). -/
def State.commitGoing (s : State) (v : View) : State :=
  let (s, g) := s.going v
  s.modLane v.p v.t.r fun l => { l with stage := 1, next := some g, flumes := [] }

/-- Steps 2 and 3 for the lanes of a bundle (R21), with what a commit counts and records. -/
def State.commitBegin (s : State) (vs : List View) : State :=
  let s := vs.foldl State.commitResults s
  let s := s.commitUniforms vs
  let s := vs.foldl (fun (s : State) v => ((s.countProgress v).commitNotes v).noteRec v.p v.t.r 0 0) s
  vs.foldl State.commitGoing (vs.foldl State.commitFlags s)

/-- The hinge waits: for the ring it binds (R259), for room in a mailbox (R248). -/
def State.hingeBusy (s : State) (l : Lane) : Bool := s.ringBusy l || s.mailBusy l

/-- A hinge that follows every earlier load of its thread. GBAR waits for them where it arrives (R188). -/
def Hinge.afterLoads : Hinge → Bool
  | .trap .. | .gnew .. | .join .. | .leave _ | .gbar _ => false
  | .fence ord _ => ord.releases
  | _ => true

/-- Step 6 of one lane. A lane whose hinge parks its thread is through at once. False where the lane waits. -/
def State.commitHinge (s : State) (v : View) : State × Bool :=
  if v.l.stage ≠ 2 then (s, true) else
  let (s, free) := if (v.l.hinge.map Hinge.afterLoads).getD false then s.loadsDone [v] else (s, true)
  if !free || s.hingeBusy v.l then (s, false) else
  let g := v.l.next.getD { dest := .at_ v.tr.addr, pos := 0, cnt := none }
  let s := ((s.goTo v.t.r g).performHinge v g).modLane v.p v.t.r fun l => { l with stage := 3 }
  (match (s.thread? v.t.r).map Thread.status with
   | some (Status.issuing _) => s
   | _ => s.finishLane v g, true)

/-- Step 7 of one lane. -/
def State.commitEnd (s : State) (v : View) : State × Bool :=
  (if v.l.stage = 3 then s.finishLane v (v.l.next.getD { dest := .at_ v.tr.addr, pos := 0, cnt := none }) else s, true)

/-- The runs that lanes of a bundle abort at this commit, while the lanes' threads are still there (R192). -/
def State.abortRuns (s : State) (p : PortId) : List Nat :=
  match s.bundle? p with
  | none => []
  | some b => (b.lanes.filter (·.abort)).foldl (fun l x => match s.thread? x.r with
    | some t => setAdd t.run l
    | none => l) []

/-- CHKERR.abort of the lanes of a bundle that has committed (R192): the runs named are aborted. -/
def State.commitAborts (s : State) (p : PortId) (runs : List Nat) : State :=
  runs.foldl State.failNode (s.modBundle p fun b => { b with lanes := b.lanes.map fun l => { l with abort := false } })

/-- Steps 4 to 7 for the lanes of a bundle, as far as they can go now. -/
def State.commitOn (s : State) (p : PortId) (rs : List Nat) : State :=
  match s.eachLane p State.commitStores rs with
  | (s, false) => s
  | (s, true) =>
    match s.releaseAll p (releasesOf (rs.filterMap (s.viewOf p))) with
    | (s, false) => s
    | (s, true) =>
      match s.eachLane p State.commitHinge rs with
      | (s, false) => s
      | (s, true) =>
        ((((s.eachLane p State.commitEnd rs).1).commitAborts p (s.abortRuns p)).modBundle p fun b => { b with counted := 0 }).leaveBundle p

/-- The lanes of a bundle that stand past their last slot, when every active lane does. -/
def State.atCommit (s : State) (p : PortId) : List View :=
  match s.bundle? p with
  | none => []
  | some b =>
    let vs := b.lanes.filterMap fun l => s.viewOf p l.r
    if vs.all (fun v => decide (v.tr.len < v.l.at_)) then vs else []

/-- A lane whose watchpoint fires performs none of the commit: it is abandoned and its thread halts (R213). ARG1 of its event is
the doubleword's address with the watchpoint's number in its low bits (log 83, DESIGN CHOICE). -/
def State.watchStop (s : State) (v : View) (n va : Nat) : State :=
  ((s.abandon v.p v.t.r).halt v.t.r 7 (va + n)).leaveBundle v.p

/-- The T word whose successor a lane takes at this commit: its trace's, on the last pass; with TRET.skip that of the trace which trapped in
a slot (R28, R29, R132). -/
def View.takes (v : View) : Option Nat :=
  match v.l.tret, v.t.trap with
  | some skip, some tr => if skip && tr.kind == .slot then tr.succ.map (·.tword.toNat) else none
  | _, _ => if v.lastPass then some v.tr.tword.toNat else none

/-- The register pair of an IND that a lane takes, read with fe = block (R29). -/
def View.indRegs (v : View) : List Nat :=
  match v.takes with
  | some w => if tKind w = 2 then [tLink w, tLink w + 1] else []
  | none => []

/-- The registers that the commit of a lane writes beside those that N names: stepped destinations, and the CALL link. -/
def View.writes (v : View) : List Nat :=
  v.l.res.map (·.code) ++ v.l.posted.flatMap (fun e => e.regs.map (·.1)) ++ hingeRegs v.l ++
    (match v.takes with
     | some w => if tKind w = 3 then [tLink w, tLink w + 1] else []
     | none => [])

/-- The registers of the deferred load that a TRET.re issues again (R132). -/
def State.tretRegs (s : State) (v : View) : List Nat :=
  match v.l.tret, v.t.trap.map (·.kind) with
  | some false, some (TrapKind.deferred id) => ((s.oplog.find? (·.id == id)).map fun e => e.regs.map (·.1)).getD []
  | _, _ => []

/-- Step 1 (R21, R26): a register that the commit writes, or that its IND reads, has a fill outstanding. -/
def State.fillsWait (s : State) (v : View) : Bool :=
  (v.tr.results ++ v.writes ++ v.indRegs ++ s.tretRegs v).any v.t.fills.contains

/-- The first lane whose IND meets a register that nothing will fill, and the register (R11, R29). -/
def indEmpty (vs : List View) : Option (View × Nat) :=
  vs.findSome? fun v => (v.indRegs.find? fun c => v.t.isEmpty c && !v.t.fills.contains c).map fun c => (v, c)

/-- The record of such a trap. -/
def View.indInfo (v : View) (c : Nat) : FaultInfo := { faultInfo 0x03 0 with reg := c, ttag := hTag v.tr.h, pos := v.l.pass }

/-- A posted load of the lanes whose translation the commit waits for: its check 7 is still to be made (R119, R312), or the lanes' stores go to
memory with sc loads (R298; log 94, DEDUCED). -/
def State.unjudged (s : State) (vs : List View) : Option (View × LogEntry) :=
  let sc := vs.any fun v => !v.l.scReads.isEmpty
  vs.findSome? fun v =>
    (v.l.posted.find? fun e => e.walk && (sc || (s.raceMode v.t.ctx v.t.run != 0 && e.pre.race != .exempt))).map fun e => (v, e)

/-- A lane with what became of one of its posted loads before its commit (R25, R27, R119). -/
def State.beforeCommit (v : View) : Read → State
  | .ok s l _ => s.modLane v.p v.t.r fun _ => l
  | .fault s f => s.slotFault v f
  | .stall s l => s.modLane v.p v.t.r fun _ => l

/-- The first lane with an sc load behind an sc store of its own trace whose value does not stand any longer, or is about to be overwritten by a lane
before it (R298; log 94, DEDUCED). -/
def State.scStale (s : State) (vs : List View) : Option View :=
  vs.find? fun v => v.l.scReads.any fun (n, size, ps, bytes) =>
    (s.viewValues v.t (v.l.stores.filter (·.slotNo < n)) size ps).1 != bytes ||
    vs.any fun q => decide (q.t.r < v.t.r) && q.l.stores.any (·.meetsAt size ps)

/-- The lanes with such loads commit their stores in one act with them: the queue has room, and no load of theirs waits for a translation. -/
def State.scReady (s : State) (p : PortId) (vs : List View) : State × Bool :=
  if vs.all (·.l.scReads.isEmpty) then (s, true) else
  let s := (s.blocks.filter fun b => b.core == p.core && b.part == p.part).foldl (fun (s : State) b => s.drainThread b.r) s
  let s := vs.foldl (fun (s : State) v => s.translateLog v.t) s
  (s, !vs.any fun v => s.walkWaits v.t.r)

/-- A mapping that a posted load does not find is a fault after the commit: the load goes on to its log entry (R119, R287). -/
def State.judgeLate (s : State) (v : View) (e : LogEntry) : State :=
  match s.translateLoad v.t e with
  | (s, .error (some f)) =>
    s.modLane v.p v.t.r fun l => l.setPosted { e with walk := false, fault := some (f.cause, f.detail, f.addr) }
  | (s, _) => State.beforeCommit v (s.settleEntry v.t v.l e)

/-- COMMIT (R21): one load that the operand log has no room for or that is still to be judged, then one lane stopped by a watchpoint (the faults
of the trace's slots come first, R213), a wait, or the steps that the lanes can take now. -/
def State.commitStep (s : State) (p : PortId) : State :=
  let vs := s.atCommit p
  let rs := vs.map (·.t.r)
  if vs.isEmpty then s
  else if vs.any (fun v => decide (1 ≤ v.l.stage)) then s.commitOn p rs else
  match overLog vs (Config.logEntries - (s.oplog.filter fun e => e.core == p.core && e.part == p.part).length) with
  | some (v, e) => State.beforeCommit v (s.finishLoad v.t v.l e)
  | none =>
    match s.unjudged vs with
    | some (v, e) => s.judgeLate v e
    | none =>
      match vs.findSome? (fun v => (s.watchHit v).map fun x => (v, x)) with
      | some (v, n, va) => s.watchStop v n va
      | none =>
        match indEmpty vs with
        | some (v, c) => s.slotFault v (v.indInfo c)
        | none =>
          if vs.any s.fillsWait then s else
          match s.scReady p vs with
          | (s, false) => s
          | (s, true) =>
            match s.scStale vs with
            | some v => (s.abandon v.p v.t.r).leaveBundle v.p
            | none => ((s.closeBanks p).commitBegin vs).commitOn p rs

def execCommit (p : PortId) (s : State) : Host.Outcome State Fault Refusal := .next (s.commitStep p).endFailing

end Sys2Proof.Machine
end

