-- ==== Sys2Proof/Machine/Issue.lean ====
section
/-! DEFINITION. What happens at an issue port between fetch and commit: the choice of the lane, the hold on a thread's next trace (R122,
R163, R174), breakpoints (R209, R210), P words and stepped words (R30, R61, R66, R67), and the partition's counters (R152, R161, R165). -/

namespace Sys2Proof.Machine

open Sys2Proof

/-! The counters of a slot issue -/

/-- Slots that must stand between a producer and its first reader (R152). Instructions that the table does not name are taken with the
plain integer ones, and CVT takes its latency from its destination type (log 25, DEDUCED). -/
def latencyOf (i : Instr) : Nat :=
  match i with
  | .imul _ | .imulImm _ | .imulh _ | .imad _ | .imadw _ | .popc _ | .clz _ | .ctz _ | .brev _
  | .fmin _ | .fmax _ | .fabs _ | .fneg _ | .fcps _ | .fcmp _ | .fcls _ | .flgr _ | .flgc _ => 1
  | .fadd f | .fsub f | .fmul f | .fma f | .fnma f | .frnd f | .cvt f => if f.ty == .f64 then 3 else 2
  | .shfl _ | .xred _ | .scan _ | .vote _ => 2
  | .idiv _ | .irem _ | .fdiv _ | .fsqrt _ | .frcp _ | .frsq _ | .fexp _ | .fexp2 _ | .flog _ | .flog2 _ | .fsin _ | .fcos _
  | .ftanh _ | .fsigm _ | .ferf _ | .kdq _ | .kdx _ | .qmul _ | .qdiv _ | .qinv _ | .qenc _ | .qdec _ => 3
  | .ld f => if f.d.toNat ≤ 1015 then 3 else 0
  | _ => 0

/-- The gap field of a word (R58). -/
def gapOf (i : Instr) : Nat :=
  match formOf i with
  | .A f .. => f.gap.toNat
  | .I f .. => f.gap.toNat
  | .M f .. => f.gap.toNat
  | .X f .. => f.gap.toNat
  | .E f .. => f.gap.toNat
  | _ => 0

/-- The pipe that re-executes an instruction (R150, R152, R165): 0 integer, 1 FMA, 2 SF; none for what does not enter the replay queue. -/
def pipeOf (i : Instr) : Option Nat :=
  match i with
  | .fadd _ | .fsub _ | .fmul _ | .fma _ | .fnma _ | .fmin _ | .fmax _ | .fabs _ | .fneg _ | .fcps _ | .fcmp _ | .fcls _ | .frnd _
  | .flgr _ | .flgc _ | .cvt _ => some 1
  | .fdiv _ | .fsqrt _ | .frcp _ | .frsq _ | .fexp _ | .fexp2 _ | .flog _ | .flog2 _ | .fsin _ | .fcos _ | .ftanh _ | .fsigm _
  | .ferf _ | .kdq _ | .kdx _ | .qmul _ | .qdiv _ | .qinv _ | .qenc _ | .qdec _ => some 2
  | .qadd _ | .qsub _ | .qneg _ | .qeq _ | .csrr _ | .gnew _ | .join _ | .leave _ | .gbar _ | .grank _ | .gsize _ | .gset _ => some 0
  | i =>
    match formOf i with
    | .A .. => some 0
    | .I .. => some 0
    | _ => none

/-- The instruction of a slot of a trace on a pass. -/
def Trace.instrAt (t : Trace) (n pass : Nat) : Option Instr :=
  match t.stepWord n pass with
  | (w, extra, true) => (decodeSlot w ((t.prefixAt n).bind fun p => (decodePrefix p w).toOption) extra).toOption
  | _ => none

/-- The registers that an instruction reads and that a slot can write. -/
def readRegs (i : Instr) : List Nat := ((srcsOf i).filter (!·.us)).flatMap fun x => if x.code = 0 then [] else upFrom x.code x.words
def writeRegs (i : Instr) : List Nat := (dstsOf i).flatMap fun x => if x.code = 0 then [] else upFrom x.code x.words

/-- The producers of slot `n`'s sources, nearest last: each slot below `n` that writes a register which no later one writes again. -/
def Trace.producers (t : Trace) (n pass : Nat) : List Nat :=
  let is := fun (m : Nat) => t.instrAt m pass
  let reads := ((is n).map readRegs).getD []
  (reads.filterMap fun c => (upFrom 1 (n - 1)).reverse.find? fun m => ((is m).map (fun i => (writeRegs i).contains c)).getD false).foldl
    (fun l m => setAdd m l) []

/-- Whether slot `n` is the first that reads a result of slot `m` (R152). -/
def Trace.firstReader (t : Trace) (m n pass : Nat) : Bool :=
  !(upFrom (m + 1) (n - m - 1)).any fun k => (t.producers k pass).contains m

/-- GAPSHORT and GAPFALSE events of slot `n` (R152). GAPSHORT counts each reader that stands within the latency, also one behind a reader that
has stalled (log 82, DEDUCED). -/
def Trace.gapEvents (t : Trace) (n pass : Nat) : Nat × Nat :=
  (t.producers n pass).foldl (fun (x : Nat × Nat) m =>
    let between := n - m - 1
    match t.instrAt m pass with
    | none => x
    | some i =>
      (x.1 + b2n (decide (between < latencyOf i) && decide (gapOf i < latencyOf i)),
       x.2 + b2n (decide (between < gapOf i) && t.firstReader m n pass))) (0, 0)

/-- The bytes behind a scratch reference of an engine word. -/
def View.refTouch (v : View) (ref n : Nat) : List (Nat × Nat) :=
  match v.t.mem (refSlot ref) with
  | some m => (upFrom (refOff ref) n).map fun o => (m.gid, o)
  | none => []

/-- The scratch bytes that a lane's slot touches: those of a load, and those that an engine word reads in its slot (R150, R161; log 84,
DEDUCED). -/
def State.scrTouch (s : State) (v : View) (i : Instr) (vals : List Nat) : List (Nat × Nat) :=
  match i with
  | .ld f =>
    (valueAddrs (memAddr vals f.ty.bytes f.off) f.ty.bytes (cntOf f.cnt)).flatMap fun a => match windowOf a with
      | some .scratch => match s.scratchAt v.t a with
        | some (gid, off, _) => (upFrom off f.ty.bytes).map fun o => (gid, o)
        | none => []
      | _ => []
  | .bwait _ | .btest _ => v.refTouch (arg vals 0) 16
  | .cpyw _ => v.refTouch (arg vals 0) 8
  | .flacq _ => v.refTouch (arg vals 0) 32
  | .cpygo _ | .mdrn _ => v.refTouch (arg vals 0) 64
  | _ => []

/-- The active lanes of a bundle at a slot. -/
def State.lanesAt (s : State) (p : PortId) (n : Nat) : List View :=
  match s.bundle? p with
  | none => []
  | some b => (b.lanes.filter (·.at_ == n)).filterMap fun l => s.viewOf p l.r

/-- The replay queue takes an operation of a slot issue, and drops the oldest issue beyond 16 (R165). -/
def State.enterReplay (s : State) (p : PortId) (op : ReplayOp) : State :=
  let mine := fun (o : ReplayOp) => o.part == p.part
  let q := ((s.core p.core).replay.filter mine) ++ [op]
  let issues := q.foldl (fun l o => setAdd o.issue l) []
  let gone := issues.take (issues.length - 16)
  let drop := (q.filter fun o => gone.contains o.issue).length
  let s := s.modCore p.core fun c =>
    { c with replay := c.replay.filter (fun o => !mine o) ++ q.filter fun o => !gone.contains o.issue }
  s.modPart p.core p.part fun c =>
    { c with replayin := count48 c.replayin 1, replaydrop := count48 c.replaydrop drop }

/-- A bundle issues a slot: its reader events, once for each slot of a pass (R152); the scratch cycles of the slot before are counted (R161). -/
def State.countIssue (s : State) (v : View) : State :=
  let n := v.l.at_
  if v.b.counted = n then s else
  let (a, f) := v.tr.gapEvents n v.l.pass
  let s := (s.closeBanks v.p).modBundle v.p fun b => { b with counted := n, issue := s.seq }
  let s : State := { s with seq := s.seq + 1 }
  if a = 0 ∧ f = 0 then s else s.modPart v.p.core v.p.part fun c =>
    { c with gapshort := count48 c.gapshort a, gapfalse := count48 c.gapfalse f }

/-- The words of a lane's destinations, and its flags: what a pipe has delivered (R165). -/
def laneResult (l : Lane) (t : Thread) (i : Instr) : List Nat := (writeRegs i).map (fun c => (laneReg l t c).toNat) ++ [l.tflags.toNat]

/-- What the partition keeps of one lane that has got past a slot: the scratch bytes it has touched (R161), and its operation (R165). `before`
is the state in which the slot was issued. -/
def State.keepSlot (s before : State) (x : View) : State :=
  match (s.bundle? x.p).bind (·.lane? x.t.r), x.instr? with
  | some l, some i =>
    if l.at_ ≠ x.l.at_ + 1 then s else
    match before.readSources x i with
    | .ok _ _ vals =>
      let touched := before.scrTouch x i vals
      let s := if touched.isEmpty then s else s.modBundle x.p fun b => { b with banks := b.banks ++ touched }
      match pipeOf i with
      | some k => s.enterReplay x.p
          { core := x.p.core, part := x.p.part, issue := x.b.issue, r := x.t.r, slotNo := x.l.at_, pipe := k, operands := vals
            result := laneResult l x.t i }
      | none => s
    | _ => s
  | _, _ => s

/-- The pipe whose residue and parity checkers guard an instruction (R166): the cross-lane ones run on the integer pipe, though the replay queue
does not take them (R150, R165). -/
def checkedPipe (i : Instr) : Option Nat :=
  match i with
  | .shfl _ | .xred _ | .scan _ | .vote _ => some 0
  | i => pipeOf i

/-- What a slot that a lane has issued has delivered from a pipe. -/
def View.slotResult (v : View) (n pipe : Nat) : Option (List Nat) :=
  (v.tr.instrAt n v.l.pass).bind fun i => if checkedPipe i = some pipe then some (laneResult v.l v.t i) else none

/-- What the partition keeps of a slot that its lanes have performed. -/
def State.keepIssue (s before : State) (p : PortId) (r : Nat) : State :=
  match before.viewOf p r with
  | some v => (before.lanesAt p v.l.at_).foldl (fun (s : State) x => s.keepSlot before x) s
  | none => s

/-! Breakpoints (R209, R210) -/

/-- The priority queue through which a thread's work was launched (R332). -/
def State.queueOf (s : State) (t : Thread) : Nat := (((s.run? t.run).bind s.node?).map (·.info.queue)).getD 0

/-- Whether a comparator matches a lane. A thread without a home group has no handle to compare: only GMASK = 0 matches it. -/
def State.bpMatch (s : State) (v : View) (bpa bpf : DWord) : Bool :=
  let f := bpf.toNat
  bit f 63 && bits bpa.toNat 3 54 * 8 == v.tr.addr && bits f 58 5 == v.l.at_ && bits f 52 6 == v.t.ctx && bit f (44 + s.queueOf v.t) &&
  (bits f 4 20 == 0 || (v.t.m0.isSome && (v.t.home ^^^ bits f 24 20) &&& bits f 4 20 == 0))

/-- The comparator that stops a lane before its slot issues (R210). -/
def State.bpHit (s : State) (v : View) : Option Nat :=
  if v.t.stepping || v.t.onePass then none else
  let c := s.core v.p.core
  ((c.bpa.zip c.bpf).zip (upFrom 0 8)).findSome? fun x => if s.bpMatch v x.1.1 x.1.2 then some x.2 else none

/-- A lane stops at a breakpoint: it is abandoned and its thread halts. ARG1 of the event is the comparator's number (log 83, DESIGN CHOICE). -/
def State.bpStop (s : State) (v : View) (n : Nat) : State := (s.abandon v.p v.t.r).halt v.t.r 6 n

/-! The hold on a thread's next trace (R27, R122, R163 rule 5, R174) -/

def State.heldBack (s : State) (t : Thread) : Bool :=
  (t.hold.drain && !(s.queued t.r t.gen).isEmpty) || (t.hold.fill && !(s.outstanding t.r).isEmpty)

/-- The holds of a thread that may go on are over; an acquiring fence merges the pending snapshots (R309). -/
def State.endHold (s : State) (t : Thread) : State :=
  let s := if t.hold.merge then s.mergePending t.r else s
  if t.hold = ⟨false, false, false⟩ then s else s.modThread t.r fun t => { t with hold := ⟨false, false, false⟩ }

/-! The stage of a port -/

/-- The lane that issues next: of the lowest slot, the first in tag order. -/
def Bundle.nextLane (b : Bundle) (len : Nat) : Option Lane :=
  (b.lanes.filter fun l => l.active && decide (l.at_ ≤ len)).foldl (fun (x : Option Lane) l => match x with
    | none => some l
    | some m => if l.at_ < m.at_ then some l else some m) none

/-- What a port does next. -/
inductive Stage where
  | idle
  | fetch
  | slot (r : Nat)
  | commit
deriving DecidableEq, Repr, Inhabited

def State.stage (s : State) (p : PortId) : Stage :=
  match s.bundle? p with
  | none => .idle
  | some b =>
    match b.trace with
    | none => .fetch
    | some t =>
      match b.nextLane t.len with
      | some l => .slot l.r
      | none => .commit

/-! A lane's slot -/

/-- The record of a fault of the slot word itself (R202). -/
def View.wordInfo (v : View) (cause detail word pre : Nat) : FaultInfo :=
  { faultInfo cause detail with instr := word, pre, ttag := hTag v.tr.h, pos := v.l.pass, slotNo := v.l.at_ }

/-- What a lane's slot comes to: done here, or an instruction that `exec` performs. -/
inductive Issued where
  | ran (s : State)
  | run (i : Instr) (s : State)
deriving Repr, Inhabited

/-- The word of a lane's slot (R30, R61, R65 to R67). -/
def State.issueWord (s : State) (v : View) : Issued :=
  let n := v.l.at_
  match v.tr.stepWord n v.l.pass with
  | (w, _, false) => .ran (s.slotFault v (v.wordInfo 0x02 11 w ((v.tr.prefixAt n).getD 0)))
  | (w, extra, true) =>
    if opcodeOf w = 0xE4 then
      match decodePrefix w (v.tr.slot (n + 1)) with
      | .ok _ => .ran (s.modLane v.p v.t.r fun l => { l with at_ := n + 1 })
      | .error _ => .ran (s.illegal v (v.wordInfo 0x01 0 w 0) 2)
    else
      match decodeSlot w ((v.tr.prefixAt n).bind fun q => (decodePrefix q w).toOption) extra with
      | .error _ => .ran (s.illegal v (v.wordInfo 0x01 0 w ((v.tr.prefixAt n).getD 0)) 1)
      | .ok i => .run i { (s.countIssue v) with cur := some (v.p, v.t.r) }

/-- The next slot of a lane: breakpoints of the slot first, then the hold before the first slot, then its word. -/
def State.issue (s : State) (p : PortId) (r : Nat) : Issued :=
  match s.viewOf p r with
  | none => .ran s
  | some v =>
    let stops := (s.lanesAt p v.l.at_).filterMap fun x => (s.bpHit x).map fun n => (x, n)
    if !stops.isEmpty then .ran ((stops.foldl (fun (s : State) x => s.bpStop x.1 x.2) s).leaveBundle p)
    else if v.l.at_ ≠ 1 then s.issueWord v
    else
      let first := s.lanesAt p 1
      if first.any (fun x => s.heldBack x.t) then .ran s
      else State.issueWord (first.foldl (fun (s : State) x => s.endHold x.t) s) v

end Sys2Proof.Machine
end

