-- ==== Sys2Proof/Machine/CoreSteps.lean ====
section
/-! DEFINITION. The steps of the partition and the core: bundle formation, promotion, trace fetch, fills and deferred faults of posted
loads, walks and PRI, store queues, replay checks, trace packets and samples, and the hang watchdogs. A step that is not enabled changes
nothing (log 20, DEDUCED). -/

namespace Sys2Proof.Machine

open Sys2Proof

/-! BUNDLE_FORMATION (R32, R149, R153, R154, R157, R218) -/

/-- The waits that a TRET has brought back are resumed before the thread issues (R27). -/
def State.applyWaits (s : State) (r : Nat) : State :=
  match s.thread? r with
  | some t => if t.status == .runnable && t.wait.isNone && !t.more.isEmpty then s.resumeWaits r else s
  | none => s

/-- EXIT or HALT of a trace whose hinge has parked its thread, a handler's trace too, takes place (R22, R29, R200). -/
def State.endNow (s : State) (r : Nat) : Resume → State
  | .exit => ((s.leaveTable r).traceThread r 5).exitThread r
  | _ => ((s.leaveTable r).modThread r fun t => { t with ending := none }).halt r 5 0

/-- It does so once the wait is over. -/
def State.applyEnding (s : State) (r : Nat) : State :=
  match s.thread? r with
  | none => s
  | some t =>
    if t.status != .runnable || t.wait.isSome || !t.more.isEmpty then s else
    match t.ending with
    | some e => s.endNow r e
    | none => s

/-- A thread at a gather trace parks on its lane set's record (R157); in trap handling it is a double trap (R200). -/
def State.reachGather (s : State) (r : Nat) : State :=
  match s.thread? r with
  | none => s
  | some t =>
    if t.status == .runnable && t.m0.isSome && s.gatherAt (coreOfSlot r) t.ctx t.run t.pc.toNat then
      (if t.trap.isSome then (s.leaveTable r).doubleTrap r 0x02 else s.gatherArrive r)
    else s

/-- A partition's entries in the order of R153. -/
def tableOrder (l : List PcEntry) : List PcEntry :=
  let up := l.filter (·.promoted.isSome)
  let rest := l.filter (·.promoted.isNone)
  sortOn (fun (e : PcEntry) => e.promoted.getD 0) up ++ sortOn (fun (e : PcEntry) => e.addr) (sortOn (fun (e : PcEntry) => e.seq) rest)

/-- A lane as its bundle is formed. -/
def Lane.fresh (t : Thread) (no : Nat) : Lane :=
  { r := t.r, ctx := t.ctx, no, active := true, at_ := 1, pass := t.pos, passes := 1, temps := [], res := [], pond := [], tflags := 0,
    fclear := 0, qr := false, prb := false, tstatW := none, pselW := none, hinge := none, posted := [], gsets := [], progs := [],
    yields := false, tret := none, abort := false, notes := [], scReads := [], flumes := [], stage := 0, next := none, recs := [] }

/-- The delay that a brake trial of a context injects into a bundle at an address, which lies outside its range (R218). -/
def State.brakeOf (s : State) (ctx addr : Nat) : Option Nat :=
  match (s.ctx? ctx).bind (·.trial) with
  | some (lo, hi, d) => if lo ≤ addr ∧ addr < hi then none else some d
  | none => none

/-- A bundle of threads at an issue port: lane i of a gather bundle is the member whose rank mod W is i (R32). A brake trial counts it where
its trace lies outside the range (R218). -/
def State.formBundle (s : State) (p : PortId) (addr : Nat) (gather : Option Nat) (rs : List Nat) : State :=
  let rs := sortOn (fun (x : Nat) => x) rs
  let lanes := (rs.zip (upFrom 0 rs.length)).filterMap fun x => (s.thread? x.1).map fun t =>
    Lane.fresh t (if gather.isSome then ((t.m0.map (·.rank)).getD 0) % Config.W else x.2)
  let s := rs.foldl (fun (s : State) r => s.modThread r fun t => { t with status := .issuing p }) s
  let brake := s.brakeOf (((rs.findSome? s.thread?).map (·.ctx)).getD 0) addr
  let b : Bundle := { p, addr, gather, trace := none, lanes, seq := s.seq, since := s.clk.toNat, counted := 0, issue := 0, banks := [], brake }
  let s := if brake.isSome then s.modPart p.core p.part fun c => { c with brkiss := count48 c.brkiss 1 } else s
  { s with seq := s.seq + 1, bundles := s.bundles ++ [b],
           table := s.table.filter fun e => !(e.threads.any rs.contains) }

/-- The threads of a coresident run issue once every one is placed and every group of the run is resident (R340). -/
def State.assembling (s : State) (t : Thread) : Bool :=
  match s.run? t.run with
  | some x => x.coresident && (decide (x.created < x.nthr) || s.groups.any fun g => g.run == x.id && !g.resident && !g.dissolved)
  | none => false

/-- A stop request of a context is under way for a core (R341). -/
def State.stopping (s : State) (core ctx : Nat) : Bool := (s.die (dieOfCore core)).stops.any fun q => q.ctx == ctx && q.cores.contains core

/-- One free port takes a bundle from the head of the table. Threads that are held back (R122, R163, R174) are passed over; a bundle holds
threads of one context (log 26, DEDUCED). -/
def State.fillPort (s : State) (p : PortId) : State :=
  if s.bundles.any (·.p == p) then s else
  let ctxOf := fun (r : Nat) => ((s.thread? r).map (·.ctx)).getD 0
  let free := fun (e : PcEntry) => e.threads.all fun r => ((s.thread? r).map fun t => !s.heldBack t && !s.assembling t && !t.stepping && t.more.isEmpty && !s.stopping p.core t.ctx && !s.failing t.run).getD false
  let q := tableOrder (s.table.filter fun e => e.core == p.core && e.part == p.part && free e)
  match q with
  | [] => s
  | e :: rest =>
    let r0 := e.threads.headD 0
    let run := match e.gather with
      | some _ => e.threads
      | none => (e :: rest.takeWhile fun x => x.addr == e.addr && x.gather.isNone && ctxOf (x.threads.headD 0) == ctxOf r0).flatMap fun (x : PcEntry) => x.threads
    s.formBundle p e.addr e.gather (run.take Config.W)

/-- BUNDLE_FORMATION: waits to be resumed, endings and gather arrivals of the partition first, then its free ports in turn. -/
def State.formation (s : State) (core part : Nat) : State :=
  if Config.numCores ≤ core ∨ 4 ≤ part ∨ (s.core core).gated then s else
  let here := fun (s : State) => ((s.table.filter fun e => e.core == core && e.part == part && e.gather.isNone).flatMap (·.threads)).filter fun r =>
    ((s.thread? r).map fun t => !t.stepping).getD false
  let s := (here s).foldl State.applyWaits s
  let s := (here s).foldl State.applyEnding s
  let s := (here s).foldl State.reachGather s
  [0, 1, 2, 3].foldl (fun (s : State) n => s.fillPort { core, part, port := n }) s
def execBundleFormation (core part : Nat) (s : State) : Host.Outcome State Fault Refusal := .next (s.formation core part)

/-- PROMOTION (R155): an entry that has waited 4,096 cycles. -/
def State.promote (s : State) (slot : Nat) : State :=
  match s.table.find? fun e => e.threads.contains slot && e.promoted.isNone && decide (e.since + 4096 ≤ s.clk.toNat) with
  | none => s
  | some e =>
    let n := s.seq
    State.modPart
      { s with seq := n + 1, table := s.table.map fun x => if x.seq = e.seq then { x with promoted := some n } else x }
      e.core e.part fun c => { c with promote := count48 c.promote 1 }
def execPromotion (slot : Nat) (s : State) : Host.Outcome State Fault Refusal := .next (s.promote slot)

/-! TRACE_FETCH (R16, R23, R29, R30) -/

/-- What a lane finds when it enters a fetched trace: its number of passes, a register that nothing will fill, or a wait for a fill. -/
inductive Entered where
  | passes (n : Nat)
  | empty (code : Nat)
  | wait
deriving DecidableEq, Repr, Inhabited

/-- A register read once at entry: the loop count (R30). -/
def Trace.countReg (tr : Trace) : Option Nat :=
  match tr.lword with
  | some l => if lReg l.toNat = 0 then none else some (lReg l.toNat)
  | none => none

/-- LoopCount (R30): the count that the lane entered the loop with, else the register as n32 or imm10. An empty register is waited for, or traps
with SLOT 0, as one with fe = block (log 80, DEDUCED). -/
def Trace.enter (tr : Trace) (t : Thread) : Entered :=
  match tr.lword, t.cnt with
  | none, _ => .passes 1
  | some _, some n => .passes n
  | some l, none =>
    match tr.countReg with
    | none => .passes (lImm l.toNat)
    | some c =>
      if 1016 ≤ c then .passes 0
      else if !t.isEmpty c then .passes (t.reg c).toNat
      else if t.fills.contains c then .wait else .empty c

/-- The registers of IND that a zero-pass loop reads at once (R29). -/
def Trace.indRegs (tr : Trace) : List Nat :=
  if tKind tr.tword.toNat = 2 then [tLink tr.tword.toNat, tLink tr.tword.toNat + 1] else []

/-- The registers of a CALL's link, which it writes at once then; a fill of them comes first (R26, R29). -/
def Trace.linkRegs (tr : Trace) : List Nat :=
  if tKind tr.tword.toNat = 3 then [tLink tr.tword.toNat, tLink tr.tword.toNat + 1] else []

/-- What a lane finds at entry, its IND or CALL included where it issues no slot. -/
def Trace.enterAll (tr : Trace) (t : Thread) : Entered :=
  match tr.enter t with
  | .passes n =>
    if n = 0 then
      match tr.indRegs.find? fun c => t.isEmpty c && !t.fills.contains c with
      | some c => .empty c
      | none => if (tr.indRegs ++ tr.linkRegs).any t.fills.contains then .wait else .passes 0
    else .passes n
  | x => x

/-- A zero-pass loop takes the successor without issuing a slot, and CALL writes the link (R29); a one-time pass is over (R211). -/
def State.zeroPass (s : State) (p : PortId) (tr : Trace) (t : Thread) : State :=
  let w := tr.tword.toNat
  let dest := succOf tr.succ t
  let s := if tKind w = 3 then s.modThread t.r fun t => t.setPair (tLink w) tr.after else s
  let s := s.modThread t.r fun t => { t with onePass := false }
  let s := (s.goTo t.r { dest, pos := 0, cnt := none }).modLane p t.r Lane.clear
  match dest with
  | .at_ _ => s
  | .exit => (s.traceThread t.r 5).exitThread t.r
  | .halt => s.halt t.r 5 0

/-- A lane enters a fetched trace. -/
def State.enterLane (s : State) (p : PortId) (tr : Trace) (r : Nat) : State :=
  match s.thread? r with
  | none => s
  | some t =>
    match tr.enterAll t with
    | .wait => s
    | .empty c => s.trapLane p r .slot { faultInfo 0x03 0 with reg := c, ttag := hTag tr.h, pos := t.pos } (some tr.succ)
    | .passes n =>
      let s := s.noteRegs r (tr.countReg.toList ++ if n ≤ t.pos then tr.succRegs else [])
      if n ≤ t.pos then s.zeroPass p tr t
      else (s.modThread r fun t => { t with cnt := if tr.lword.isSome then some n else none }).modLane p r fun l =>
        { l with passes := n, pass := t.pos }

/-- Whether a lane waits for a fill before it can enter the trace. -/
def State.entryWait (s : State) (tr : Trace) (r : Nat) : Bool :=
  match s.thread? r with
  | some t => tr.enterAll t == .wait
  | none => false

/-- The record of a trap at fetch (R16, R202): SLOT and INSTR are 0; the words are loads of 8 bytes. -/
def fetchInfo (cause detail addr ttag pos : Nat) : FaultInfo :=
  let coded := cause == 0x01 || cause == 0x02
  { faultInfo cause detail with addr := if coded then 0 else addr, size := if coded then 0 else 3, ttag, pos }

/-- A lane traps at fetch. -/
def State.fetchTrap (s : State) (p : PortId) (cause detail addr ttag r : Nat) : State :=
  s.trapLane p r .fetch (fetchInfo cause detail addr ttag (((s.thread? r).map (·.pos)).getD 0)) none

/-- TRACE_FETCH. A word that is not yet translated, or a count not yet filled, holds the bundle at its port. A poisoned word is reported in the
CIR of each lane's run (R16, R290). -/
def State.fetch (s : State) (p : PortId) : State :=
  match s.bundle? p with
  | none => s
  | some b =>
    if b.trace.isSome then s else
    let rs := (b.lanes.filter (·.active)).map (·.r)
    match rs.findSome? s.thread? with
    | none => s.leaveBundle p
    | some t =>
      let runs := (rs.filterMap fun r => (s.thread? r).map (·.run)).foldl (fun l x => if l.contains x then l else l ++ [x]) []
      match s.fetchTrace p.core t.ctx runs t.r b.addr b.gather.isSome with
      | (s, .wait) => s
      | (s, .trap c d a x) => (rs.foldl (fun (s : State) r => s.fetchTrap p c d a x r) s).leaveBundle p
      | (s, .ok tr) =>
        if rs.any (s.entryWait tr) then s else
        let s := s.modBundle p fun b => { b with trace := some tr }
        (rs.foldl (fun (s : State) r => s.enterLane p tr r) s).leaveBundle p
def execTraceFetch (p : PortId) (s : State) : Host.Outcome State Fault Refusal := .next (s.fetch p)

/-! Posted loads (R25 to R27, R119, R287) -/

/-- A thread parked in WAITF re-enters the table when its span is full, or when a register of it will never be filled (R129, R201). -/
def State.waitfCheck (s : State) (r : Nat) : State :=
  match s.thread? r with
  | some t => match t.status with
    | .waitf d n =>
      let span := if d = 0 then [] else upFrom d n
      if span.all (!t.isEmpty ·) || span.any (fun c => t.isEmpty c && !t.fills.contains c) then s.unpark r else s
    | _ => s
  | none => s

/-- Translates a logged load once its walk or the host has answered, or records its fault. A WAITV behind it may go on. -/
def State.resolve (s : State) (e : LogEntry) : State :=
  match s.thread? e.r with
  | none => s
  | some t =>
    if !e.walk || e.cancelled || e.fault.isSome || away e.r then s else
    match s.translateLoad t e with
    | (s, .ok e) =>
      let s := s.setLog e
      match t.wait with
      | some (.waitv _) => (s.performLog t s.seq).waitvTry e.r
      | _ => s
    | (s, .error (some f)) => s.setLog { e with fault := some (f.cause, f.detail, f.addr) }
    | (s, .error none) => s

/-- A posted load's fill (R11, R25): the earlier loads of the thread have performed, the registers take their data and are full. -/
def State.fill (s : State) (id : Nat) : State :=
  match s.logEntry? id with
  | none => s
  | some e0 =>
    if away e0.r then s else
    let s := s.resolve e0
    match s.logEntry? id, s.thread? e0.r with
    | some e, some t =>
      if e.walk || e.cancelled || e.fault.isSome then s else
      let s := s.performLog t (id + 1)
      match s.logEntry? id with
      | none => s
      | some e =>
        if e.data.isNone then s else
        let im := loadImages e.ty e.n (e.data.getD [])
        let s := (s.noteRegs e.r (e.regs.map (·.1))).modThread e.r fun t => e.regs.foldl (fun (t : Thread) x => (t.setReg x.1 (im.getD x.2 0)).setFull x.1) t
        let s : State := { s with oplog := s.oplog.filter (·.id ≠ id) }
        ((s.waitfCheck e.r).gbarResume e.r).waitvTry e.r
    | _, _ => s
def execPostedLoadFill (id : Nat) (s : State) : Host.Outcome State Fault Refusal := .next (s.fill id)

/-- DEFERRED_FAULT (R27, R201). A commit under way completes first. -/
def State.deliver (s : State) (id : Nat) : State :=
  match s.logEntry? id with
  | none => s
  | some e =>
    match e.fault with
    | none => s
    | some (c, d, a) => if e.cancelled || away e.r || s.committing e.r then s else (s.deferFault e (e.info c d a true)).waitfCheck e.r
def execDeferredFault (id : Nat) (s : State) : Host.Outcome State Fault Refusal := .next (s.deliver id)

/-- What a walk finds (R282, R285, R286): the first address of its page, a leaf and the lowest address bit that it translates; no translation; or it
waits for the host's answer to its page request. A host page's leaf holds whether it may be written. -/
inductive WalkEnd where
  | leaf (va leaf shift : Nat)
  | none
  | waits
deriving DecidableEq, Repr, Inhabited

def State.walkEnd (s : State) (die ctx page : Nat) : State × WalkEnd :=
  if isHostPage page then
    match s.ctx? ctx with
    | .none => (s, .none)
    | .some c =>
      let a := page * 4096 - hostBase
      match s.hostAsk c.par.vf a false (walkerAgent die ctx) with
      | (s, .ok _ _) => (s, .leaf (page * 4096) (256 * b2n (s.hostPages.any fun h => h.vf == c.par.vf && h.page == a / 4096 && h.writable)) 12)
      | (s, .wait) => (s, .waits)
      | (s, .fault _ _) => (s, .none)
  else match s.walk ctx (page * 65536) with
    | .some (leaf, shift) => (s, .leaf (page * 65536) leaf shift)
    | .none => (s, .none)

/-- The cores that wait for a walk. -/
def Miss.cores (m : Miss) : List Nat := m.waiters.foldl (fun (l : List Nat) (w : Nat × Nat) => if l.contains w.1 then l else l ++ [w.1]) []

/-- One of the die's 64 walks comes to its end, unless it still waits for the host. Its page leaves the miss table; a leaf enters the TLBs of every
core that waits for it, a walk without translation is told to each waiting access once, and the logged loads are tried again. WALKBAD counts a page
without mapping, not a host's refusal (R285). -/
def State.walkDone (s : State) (die ctx page : Nat) : State :=
  match ((s.die die).misses.take 64).find? fun m => m.ctx == ctx && m.page == page with
  | none => s
  | some m =>
    match s.walkEnd die ctx page with
    | (s, .waits) => s
    | (s, x) =>
      let s := s.modDie die fun d => { d with misses := d.misses.erase m, walks := count48 d.walks 1 }
      let s : State := match x with
        | .leaf va leaf shift => m.cores.foldl (fun (s : State) c => s.cacheLeaf c ctx va leaf shift) s
        | _ => s.modDie die fun d =>
          { d with walkbad := if isHostPage page then d.walkbad else count48 d.walkbad 1
                   bad := d.bad ++ m.waiters.map fun w => (ctx, page, w.2) }
      (s.oplog.filter fun e => e.walk && dieOfCore e.core == die && e.ctx == ctx).foldl State.resolve s
/-- PAGE_WALK_COMPLETE (R286, R287). -/
def execPageWalkComplete (die ctx page : Nat) (s : State) : Host.Outcome State Fault Refusal := .next (s.walkDone die ctx page)

/-- PRI_RESPONSE (R282): the host presents the page, writable or not, or gives no translation: it refuses or fails the request, or ATS gives none
after it. The walks and the other agents that wait meet the answer when they go on; the host's held accesses are tried at once. -/
def State.priDone (s : State) (vf page : Nat) (grant : Option Bool) : State :=
  match s.pri.find? fun q => q.vf == vf && q.page == page with
  | none => s
  | some q =>
    let s : State := { s with pri := s.pri.erase q }
    match grant with
    | some w => { s with hostPages := s.hostPages ++ [{ vf, page, writable := w }] }
    | none => { s with priBad := s.priBad ++ q.agents.map fun a => (vf, page, a) }
def execPriResponse (vf page : Nat) (grant : Option Bool) (s : State) : Host.Outcome State Fault Refusal :=
  .next (s.priDone vf page grant)

/-! Stores (R162, R163, R290, R296) -/

/-- The partition whose queue gives the next block: the rotation goes on from the last, past empty queues (R162). -/
def State.drainTurn (s : State) (core : Nat) : Option Nat :=
  (upFrom 1 4).findSome? fun k =>
    let p := ((s.core core).drained + k) % 4
    if s.blocks.any fun b => b.core == core && b.part == p then some p else none

/-- STORE_BLOCK_DRAIN: the oldest block of a partition's queue, when it is that partition's turn. -/
def State.drainOne (s : State) (core part : Nat) : State :=
  if s.drainTurn core ≠ some part then s else
  match s.blocks.find? fun b => b.core == core && b.part == part with
  | none => s
  | some b =>
    (State.drainBlock { s.modCore core (fun c => { c with drained := part }) with blocks := s.blocks.erase b } b).freeGroups
def execStoreBlockDrain (core part : Nat) (s : State) : Host.Outcome State Fault Refusal := .next (s.drainOne core part)

/-- Whether two stores write a common byte. -/
def Store.meets (a b : Store) : Bool :=
  ((a.place.sub? b.place).map (fun k => decide (k < b.bytes.length))).getD false ||
  ((b.place.sub? a.place).map (fun k => decide (k < a.bytes.length))).getD false

/-- The index-th store of a core may perform at its home: no earlier one writes a byte of it, and a releasing store follows all that
drained before it (log 5, DEDUCED). -/
def mayPerform (earlier : List Store) (st : Store) : Bool :=
  if st.ord.releases then earlier.isEmpty else !earlier.any st.meets

/-- STORE_PERFORMED_AT_HOME (R294, R296, R312). -/
def State.homeOne (s : State) (core idx : Nat) : State :=
  let q := s.out.filter (·.core == core)
  match q[idx]? with
  | none => s
  | some o =>
    if !mayPerform ((q.take idx).map (·.st)) o.st then s else State.performStore { s with out := s.out.erase o } o.st
def execStorePerformedAtHome (core idx : Nat) (s : State) : Host.Outcome State Fault Refusal := .next (s.homeOne core idx)

/-- WAITV_TIMEOUT_CHECK (R175): after 16,384 cycles a parked WAITV loads again. -/
def State.waitvTimeout (s : State) (r : Nat) : State :=
  match (s.thread? r).bind (·.wait) with
  | some (.waitv w) => if w.since + 16384 ≤ s.clk.toNat then s.waitvTry r else s
  | _ => s
def execWaitvTimeoutCheck (slot : Nat) (s : State) : Host.Outcome State Fault Refusal := .next (s.waitvTimeout slot)

/-- HINGE_FILL (R169): the oldest hinge of a thread that has still to fill its destination fills it. -/
def State.fillDest (s : State) (r : Nat) : State :=
  match ((s.thread? r).map (·.hingeFills)).getD [] with
  | [] => s
  | h :: rest =>
    let s := (s.noteRegs r (upFrom h.code h.words)).modThread r fun t =>
      let t := (upFrom 0 h.words).foldl (fun (t : Thread) j =>
        (t.setReg (h.code + j) (.ofNat 32 (h.value / 2 ^ (32 * j)))).setFull (h.code + j)) t
      { t with hingeFills := rest }
    s.waitfCheck r
def execHingeFill (slot : Nat) (s : State) : Host.Outcome State Fault Refusal := .next (s.fillDest slot)

/-! Checking execution (R165, R166, R206) -/

/-- The record of a pipeline-error: the slot whose result was wrong (R203, R206). -/
def View.pipeInfo (v : View) (slotNo kind pipe : Nat) : FaultInfo :=
  { faultInfo 0x28 (kind + 16 * pipe) with
    instr := (v.tr.stepWord slotNo v.l.pass).1, pre := (v.tr.prefixAt slotNo).getD 0, ttag := hTag v.tr.h, pos := v.l.pass, slotNo }

/-- The lane of a thread that issues. -/
def State.issuingView (s : State) (r : Nat) : Option View := ((s.thread? r).bind Thread.port?).bind fun p => s.viewOf p r

/-- The newest operation that a thread's slot has entered. -/
def State.opOf (s : State) (r slotNo pipe : Nat) : Option ReplayOp :=
  (s.core (coreOfSlot r)).replay.reverse.find? fun o => o.r == r && o.slotNo == slotNo && o.pipe == pipe

/-- REPLAY_CHECK: kind 3 compares what a re-execution has found with the recorded result of an operation of the replay queue; kinds 1 and 2,
residue and parity, compare the result of the slot just issued with what the pipe's checkers have found (R166). -/
def State.replayCheck (s : State) (r slotNo kind pipe : Nat) (seen : List Nat) : State :=
  match s.issuingView r with
  | none => s
  | some v =>
    let judge := fun (s : State) (result : List Nat) => if seen = result then s else s.slotFault v (v.pipeInfo slotNo kind pipe)
    if s.committing r then s
    else if kind = 3 then
      match s.opOf r slotNo pipe with
      | some o =>
        judge ((s.modCore (coreOfSlot r) fun x => { x with replay := x.replay.erase o }).modPart (coreOfSlot r) o.part fun x =>
          { x with replaychk := count48 x.replaychk 1 }) o.result
      | none => s
    else if (kind == 1 || kind == 2) && slotNo + 1 == v.l.at_ then
      match v.slotResult slotNo pipe with
      | some result => judge s result
      | none => s
    else s
def execReplayCheck (slot slotNo kind pipe : Nat) (seen : List Nat) (s : State) : Host.Outcome State Fault Refusal :=
  .next (s.replayCheck slot slotNo kind pipe seen)

/-! Trace packets and samples (R214 to R216) -/

/-- The state code of a thread in a kind-6 entry (R214). -/
def Thread.code (t : Thread) : Nat :=
  if t.stepping then 5
  else match t.status with
    | .halted => 4
    | .runnable => if t.trap.isSome then 3 else 0
    | .issuing _ => if t.trap.isSome then 3 else 1
    | _ => 2

def Thread.syncEntry (t : Thread) : Nat := traceRec 6 t.tag t.tid t.pc.toNat t.code t.pos

/-- The resident threads of a core, by slot. -/
def State.residents (s : State) (core : Nat) : List Thread :=
  sortOn (fun (t : Thread) => t.r) (s.threads.filter fun t => coreOfSlot t.r == core && t.status != .saved)

/-- A sync packet: the header, then an entry for each resident thread of the traced context (R215). The records that stood behind it follow. -/
def State.writeSync (s : State) (core : Nat) : State :=
  match (s.core core).trace with
  | none => s
  | some b =>
    let ts := (s.residents core).filter (·.ctx == b.ctx)
    let header := 2 ^ 125 * 7 + 2 ^ 69 * ts.length + 2 ^ 15 * bits s.clk.toNat 0 54
    let s := ts.foldl (fun (s : State) t => s.putTrace core b.ctx t.syncEntry) (s.putTrace core b.ctx header)
    let s := s.modCore core fun c => { c with trace := c.trace.map fun x => { x with since := 0, pend := [] } }
    b.pend.foldl (fun (s : State) x => s.writeTrace core b.ctx x) s

/-- SYNC_PACKET (R215): after every 512 records of kinds 0 to 5. -/
def execSyncPacket (core : Nat) (s : State) : Host.Outcome State Fault Refusal :=
  .next (match (s.core core).trace with
    | some b => if 512 ≤ b.since then s.writeSync core else s
    | none => s)

/-- PC_SAMPLE (R216): one resident thread, whichever the argument picks. -/
def execPcSample (core pick : Nat) (s : State) : Host.Outcome State Fault Refusal :=
  .next (if Config.numCores ≤ core then s else match s.residents core with
    | [] => s
    | t :: ts => { s with hostResp := .value (((t :: ts).getD (pick % (ts.length + 1)) t).syncEntry) })

/-! Hang watchdogs (R217, R267) -/

/-- A missing member lets the watchdog count; one that is swapped out freezes it. -/
def Thread.counts (t : Thread) : Bool :=
  !t.stepping && !away t.r && match t.status with
  | .runnable | .issuing _ | .gather _ => true
  | .waiting => match t.wait with
    | some (.gbarPhase _) | some (.gbarArrive _) => true
    | _ => false
  | _ => false

/-- The tags of up to 8 threads, two to a word. -/
def State.tagWords (s : State) (rs : List Nat) : List Nat :=
  let tags := ((rs.filterMap s.thread?).map Thread.tag).take 8
  (upFrom 0 ((tags.length + 1) / 2)).map fun i => tags.getD (2 * i) 0 + 2 ^ 32 * tags.getD (2 * i + 1) 0

/-- A hang event: as many entries of the queue as its words need, two words to an entry (log 27, DESIGN CHOICE). -/
def State.hangEvents (s : State) (ctx node : Nat) (words : List Nat) : State :=
  (upFrom 0 ((words.length + 1) / 2)).foldl (fun (s : State) i => s.event ctx 9 node (words.getD (2 * i) 0) (words.getD (2 * i + 1) 0)) s

/-- The hang limit of a context has been reached (R217). -/
def State.hung (s : State) (ctx waited : Nat) : Bool := ((s.ctx? ctx).map fun c => decide (c.par.hang ≤ waited)).getD false

/-- The watchdog of some missing members counts: there is one, and none of them freezes it (R217). -/
def State.allCount (s : State) (missing : List Nat) : Bool := !missing.isEmpty && (missing.filterMap s.thread?).all Thread.counts

/-- The members that a phase of a GBAR, or an arrival record, still awaits. -/
def Gbar.missing (ph : Gbar) : List Nat := if ph.arrived.isEmpty then [] else ph.expected.filter fun r => !ph.arrived.contains r
def State.missingAt (s : State) (a : Arrival) : List Nat :=
  (((s.group? a.gid).map fun g => (g.laneSet a.set).map (·.1)).getD []).filter fun r => !a.arrived.contains r

/-- HANG_EVENT (R217): of a group's barrier phase, or of the arrival record of a slot block. -/
def State.hangEvent (s : State) (ctx : Nat) (gid : Option Nat) (block : Nat) : State :=
  match gid with
  | some gid =>
    match s.group? gid with
    | none => s
    | some g =>
      match g.gbar with
      | none => s
      | some ph =>
        if g.ctx = ctx ∧ s.allCount ph.missing ∧ s.hung ctx ph.waited then
          (s.modGroup gid fun g => { g with gbar := g.gbar.map fun x => { x with waited := 0 } }).hangEvents ctx (s.nodeNo g.run)
            (handleOf gid :: s.tagWords ph.missing)
        else s
  | none =>
    match s.arrivals.find? (·.block == block) with
    | none => s
    | some a =>
      if ctxOfGid a.gid = ctx ∧ s.allCount (s.missingAt a) ∧ s.hung ctx a.waited then
        (s.modArrival block fun x => { x with waited := 0 }).hangEvents ctx
          (((s.group? a.gid).map fun g => s.nodeNo g.run).getD 0xFFFFFFFF) (a.addr :: s.tagWords (s.missingAt a))
      else s
def execHangEvent (ctx : Nat) (gid : Option Nat) (block : Nat) (s : State) : Host.Outcome State Fault Refusal :=
  .next (s.hangEvent ctx gid block)

/-- The threads that wait in BWAIT on an object, and the members of its group that do not (R267). -/
def Thread.waitsOn (t : Thread) (gid off : Nat) : Bool :=
  match t.status with
  | .bwait k o _ => k == gid && o == off
  | _ => false
def State.waitersOn (s : State) (gid off : Nat) : List Thread := s.threads.filter fun t => t.waitsOn gid off
def State.othersOf (s : State) (g : Group) (off : Nat) : List Thread :=
  (g.members.filterMap fun m => s.thread? m.1).filter fun t => !t.waitsOn g.gid off

/-- The watchdog of an object counts: it has a waiter, its group is resident, and no other member freezes it (R217, R267). -/
def State.barCounts (s : State) (g : Group) (off : Nat) : Bool :=
  !(s.waitersOn g.gid off).isEmpty && g.resident && (s.othersOf g off).all Thread.counts

/-- BARRIER_OBJECT_HANG (R267): the event names the group and offset, ARRA and ARRB, and up to 8 waiting tags. -/
def State.barrierHang (s : State) (gid off : Nat) : State :=
  match s.group? gid with
  | none => s
  | some g =>
    if s.barCounts g off ∧ s.hung g.ctx (assocD 0 g.barWaited off) then
      (s.modGroup gid fun g => { g with barWaited := assocSet g.barWaited off 0 }).hangEvents g.ctx (s.nodeNo g.run)
        ([handleOf gid + 2 ^ 32 * off, bits (g.rd off 4) 0 14 + 2 ^ 16 * g.rd (off + 10) 6] ++ s.tagWords ((s.waitersOn gid off).map (·.r)))
    else s
def execBarrierObjectHang (gid off : Nat) (s : State) : Host.Outcome State Fault Refusal := .next (s.barrierHang gid off)

/-! Cycles that pass (R217, R247, R267) -/

/-- The objects of a group on which a thread waits. -/
def State.waitedOn (s : State) (gid : Nat) : List Nat :=
  s.threads.foldl (fun l t => match t.status with
    | .bwait k o _ => if k == gid && !l.contains o then l ++ [o] else l
    | _ => l) []

/-- Every live member of a resident group is parked in BWAIT, and no published copy command is left on its ring (R247). -/
def State.idles (s : State) (g : Group) : Bool :=
  g.resident && !g.members.isEmpty && (g.members.all fun m => ((s.thread? m.1).map fun t => match t.status with
    | .bwait _ _ _ => true
    | _ => false).getD false) &&
  (match g.ring with
   | some k => k.cur.isNone && g.rd (k.off + 4) 4 == g.rd k.off 4
   | none => true)

/-- Cycles pass for a group's watchdogs and for its swap-out: each count goes on, or stands, or starts again. -/
def State.groupTime (s : State) (d : Nat) (g : Group) : Group :=
  { g with
    gbar := g.gbar.map fun ph => if s.allCount ph.missing then { ph with waited := ph.waited + d } else ph
    barWaited := (s.waitedOn g.gid).map fun o => (o, assocD 0 g.barWaited o + if s.barCounts g o then d else 0)
    idle := if s.idles g then g.idle + d else 0 }

/-- Cycles pass; a fabric port that is training may come up (R376). -/
def State.passTime (s : State) (d : Nat) : State :=
  { s with
    groups := s.groups.map (s.groupTime d)
    ports := s.ports.map fun x => x.train s.tick s.clk.toNat
    arrivals := s.arrivals.map fun a => if s.allCount (s.missingAt a) then { a with waited := a.waited + d } else a }

end Sys2Proof.Machine
end

