-- ==== Sys2Proof/Machine/Engines.lean ====
section
/-! DEFINITION. The engines of a cluster (R50 to R53, R226 to R259), LDX transfers (R177), the barrier mailbox (R248), the governor (R245),
and gating and resetting a core. -/

namespace Sys2Proof.Machine

open Sys2Proof

/-! Sums (R50 to R52) -/

/-- The exact product of two decoded elements, or what makes the block NaN: a NaN, or 0 × ∞ (R51). -/
def elemProduct (a b : FV) : Except Bool FV :=
  if a.isNan || b.isNan then .error (a.isSNan || b.isSNan)
  else if (a.isInf && b.isZero) || (a.isZero && b.isInf) then .error true
  else if a.isInf || b.isInf then .ok (.inf (a.neg != b.neg))
  else
    match a, b with
    | .fin x m e, .fin y n f => .ok (.fin (x != y) (m * n) (e + f))
    | _, _ => .ok (.fin false 0 0)

/-- The block sum of R51 and its rounding to f32, with flags. Positions up to 32 that the block lacks contribute +0, so that a sum is
−0 only where all 32 products are (R42; log 28, DEDUCED). -/
def blockSum (ps : List (Except Bool FV)) : Nat × Flags :=
  let ps := ps ++ List.replicate (32 - ps.length) (.ok (.fin false 0 0))
  let bad := ps.any fun p => match p with
    | .error _ => true
    | .ok _ => false
  let iv := ps.any fun p => match p with
    | .error x => x
    | .ok _ => false
  let infs := ps.filterMap fun p => match p with
    | .ok (.inf n) => some n
    | _ => none
  let meet := infs.contains true && infs.contains false
  if bad || meet then (fnan .f32, flagIf (iv || meet) flIV)
  else match infs with
    | n :: _ => (fsigned .f32 n (finf .f32), 0)
    | [] =>
      let sum := ps.foldl (fun (x : Ex) p => match p with
        | .ok v => x.add .rne v.ex
        | .error _ => x) ⟨true, 0, 1⟩
      if sum.num = 0 then (fsigned .f32 sum.neg 0, 0) else roundTo .f32 .rne sum

/-- An element of a block record or row, decoded, with the flags of its decoding (R46). -/
def decodeElem (t : Ty) (row : List Byte) (k : Nat) : FV × Flags :=
  if t == .kd8 then
    let (v, f) := kdTo .f32 .rne ((row.getD (4 + k) 0).toNat) (signed 8 (row.headD 0).toNat)
    (fdec .f32 v, f)
  else (fdec t (ofLe ((row.drop (t.bytes * k)).take t.bytes)), 0)

/-- Step of R230: the new element and the flags, of an element as stored and `n` positions of a row of A and a column of B. -/
def tileElem (t : Ty) (rm : Rm) (n : Nat) (acc : Nat) (a b : List Byte) : Nat × Flags :=
  match t with
  | .i8 =>
    let at_ := fun (l : List Byte) (k : Nat) => signed 8 (l.getD k 0).toNat
    (wrap 32 ((upFrom 0 n).foldl (fun (x : Int) k => x + at_ a k * at_ b k) (signed 32 acc)), 0)
  | .f32 | .f64 =>
    (upFrom 0 n).foldl (fun (x : Nat × Flags) k =>
      let (v, f) := fFma t rm (decodeElem t a k).1 (decodeElem t b k).1 (fdec t (x.1 % 2 ^ t.width))
      (v, x.2 ||| f)) (acc % 2 ^ t.width, 0)
  | _ =>
    let es := (upFrom 0 n).map fun k => (decodeElem t a k, decodeElem t b k)
    let fl := es.foldl (fun (f : Flags) e => f ||| e.1.2 ||| e.2.2) 0
    let (sum, f1) := blockSum (es.map fun e => elemProduct e.1.1 e.2.1)
    let (v, f2) := fAdd .f32 .rne (fdec .f32 (acc % 2 ^ 32)) (fdec .f32 sum)
    (v, fl ||| f1 ||| f2)

/-! Tiles (R229, R233) -/

def tileKey (tile row col : Nat) : Nat := tile * 4096 + row * 64 + col
def rowKey (tile row : Nat) : Nat := tile * 64 + row

/-- The bits of an element, and the element with its low `w` bits replaced: a part of its line, which stays while that is poisoned (R290). -/
def Group.elem (g : Group) (tile row col : Nat) : DWord := sGet g.tiles (tileKey tile row col)
def Group.setElem (g : Group) (tile row col w v : Nat) : Group :=
  if g.badTile.contains (tileKey tile row col / 8) then g else
  let old := (g.elem tile row col).toNat
  { g with tiles := sSet g.tiles (tileKey tile row col) (.ofNat 64 (old / 2 ^ w * 2 ^ w + v % 2 ^ w)) }

/-- The five sticky flags of a row; entries without a flag are not listed. -/
def Group.flagsOf (g : Group) (tile row : Nat) : Flags := sGet g.rowFlags (rowKey tile row)
def Group.setFlags (g : Group) (tile row : Nat) (f : Flags) : Group := { g with rowFlags := sSet g.rowFlags (rowKey tile row) f }
def Group.joinFlags (g : Group) (tile row : Nat) (f : Flags) : Group := g.setFlags tile row (g.flagsOf tile row ||| f)

/-- The tile element type of a format (R228), as a width. -/
def tileWidth (t : Ty) : Nat := if t == .f64 then 64 else 32

/-- The row that a lane owns (R229). -/
def MRow.row (x : MRow) : Nat := x.rank % Config.W

/-- Bytes of a group's scratch as an engine reads them, with POISON in the CIR of the run that released the command (R290, R326). -/
def State.engRead (s : State) (run gid off n : Nat) : State × List Byte :=
  let p := Place.scr gid off
  (s.notePoison run (s.meetsPoison p n), s.readAt p n)

/-- One write of an engine into a group's scratch (R290, R303). -/
def State.engWrite (s : State) (run ctx gid off : Nat) (l : List Byte) : State :=
  s.engineWrite (some run) ctx (scratchBase + off) (((s.group? gid).map (·.rchk)).getD false) (.scr gid off) l

/-! Tile steps (R228 to R236, R252 to R254) -/

/-- One row of an MMA command. -/
def State.mmaRow (s : State) (g : Nat) (c : MCmd) (cols : List (List Byte)) (x : MRow) : State :=
  let rm := (Rm.ofCode? (fwRm c.fword)).getD .rne
  let (s, a) := s.engRead c.run x.aGid x.aOff (rowBytes c.fmt (fwKlen c.fword))
  s.modGroup g fun g =>
    (cols.zip (upFrom 0 cols.length)).foldl (fun (g : Group) b =>
      let (v, f) := tileElem c.fmt rm (fwKlen c.fword) (g.elem c.tile x.row b.2).toNat a b.1
      (g.setElem c.tile x.row b.2 (tileWidth c.fmt) v).joinFlags c.tile x.row f) g

/-- MMA (R230): the columns of B are read once. -/
def State.mmaStep (s : State) (g : Nat) (c : MCmd) : State :=
  let n := rowBytes c.fmt (fwKlen c.fword)
  let (s, cols) := (upFrom 0 (fwNcol c.fword)).foldl (fun (x : State × List (List Byte)) j =>
    let (s, b) := x.1.engRead c.run c.bGid (c.bOff + j * colPitch c.fmt (fwKlen c.fword)) n
    (s, x.2 ++ [b])) (s, [])
  c.rows.foldl (fun (s : State) x => s.mmaRow g c cols x) s

/-- MZERO (R233, R253). A poisoned line stays (R290). -/
def Group.zeroRow (g : Group) (tile row : Nat) : Group :=
  { (g.setFlags tile row 0) with
    tiles := g.tiles.filter fun x => g.badTile.contains (x.1 / 8) || !(decide (tileKey tile row 0 ≤ x.1) && decide (x.1 < tileKey tile row 64)) }

/-- MLDA (R253). -/
def State.loadRow (s : State) (g : Nat) (c : MCmd) (x : MRow) : State :=
  let w := tileWidth c.fmt
  let (s, l) := s.engRead c.run x.aGid (x.aOff + x.row * tilePitch c.fmt) (64 * (w / 8))
  s.modGroup g fun g =>
    ((upFrom 0 64).foldl (fun (g : Group) j => g.setElem c.tile x.row j w (ofLe ((l.drop (w / 8 * j)).take (w / 8)))) g).setFlags c.tile x.row 0

/-- MSTA (R253): the write of one row. -/
def State.storeRow (s : State) (g : Nat) (c : MCmd) (x : MRow) : State × Nat × Nat × List Byte :=
  let w := tileWidth c.fmt
  let l := (upFrom 0 64).flatMap fun j => leBytes (w / 8) (((s.group? g).map fun g => (g.elem c.tile x.row j).toNat).getD 0)
  (s, x.aGid, x.aOff + x.row * tilePitch c.fmt, l)

/-- The generator of R235: whether an element is kept. -/
def keeps (b : DrainBlock) (row col : Nat) : Bool :=
  let r := (b.row0 + row) % 2 ^ 32
  let c := (b.col0 + col) % 2 ^ 32
  let x := (bits b.seed 0 32 ^^^ ((r * 65536 + c) % 2 ^ 32)) % 2 ^ 32
  let x := (x * 0x9E3779B1 + bits b.seed 32 32) % 2 ^ 32
  let x := x ^^^ (x / 2 ^ 15)
  decide (x / 2 ^ 16 < b.keep)

/-- One element of a drain (R235): its f32 value and flags. -/
def drainElem (b : DrainBlock) (fw row col acc : Nat) (res : List Byte) : Nat × Flags :=
  let (v, f1) := if fwRes fw then
      fAdd .f32 .rne (fdec .f32 (acc % 2 ^ 32)) (fdec .f32 (ofLe ((res.drop (4 * col)).take 4))) else (acc % 2 ^ 32, 0)
  if fwDrop fw then
    if keeps b row col then
      let (v, f2) := fMul .f32 .rne (fdec .f32 v) (fdec .f32 b.kscale)
      (v, f1 ||| f2)
    else (0, f1)
  else (v, f1)

/-- A block record (R251). -/
def blockRecord (codes : List Nat) (sc : Int) : List Byte :=
  leBytes 1 (wrap 8 sc) ++ leBytes 3 0 ++ codes.map (.ofNat 8 ·) ++ leBytes (4 * ceilDiv codes.length 4 - codes.length) 0

/-- The bytes of a drained row and its flags (R235, R254). -/
def drainBytes (t : Ty) (fw : Nat) (vals : List Nat) : List Byte × Flags :=
  if t == .f32 && fwOfmt fw == 1 then
    vals.foldl (fun (x : List Byte × Flags) v => let (w, f) := cvtFF .f32 .bf16 .rne v; (x.1 ++ leBytes 2 w, x.2 ||| f)) ([], 0)
  else if t == .f32 && fwOfmt fw == 2 then
    [vals.take 32, vals.drop 32].foldl (fun (x : List Byte × Flags) run =>
      if run.isEmpty then x else
      let (codes, sc, f) := quantiseBlock (run.map (fdec .f32)) (fwS0 fw)
      (x.1 ++ blockRecord codes sc, x.2 ||| f)) ([], 0)
  else (vals.flatMap (leBytes (tileWidth t / 8)), 0)

/-- MDRN of one row (R235, R254): its flags join the row's; the write of its output bytes. -/
def State.drainRow (s : State) (g : Nat) (c : MCmd) (x : MRow) : State × Nat × Nat × List Byte :=
  let i := x.row
  let (s, res) := if fwRes c.fword then s.engRead c.run c.blk.resGid (c.blk.resOff + 256 * i) 256 else (s, [])
  let raw := (upFrom 0 (fwNcol c.fword)).map fun j => ((s.group? g).map fun g => (g.elem c.tile i j).toNat % 2 ^ tileWidth c.fmt).getD 0
  let es := (raw.zip (upFrom 0 raw.length)).map fun y => if c.fmt == .f32 then drainElem c.blk c.fword i y.2 y.1 res else (y.1, 0)
  let (l, f) := drainBytes c.fmt c.fword (es.map (·.1))
  let s := s.modGroup g fun g => g.joinFlags c.tile i (es.foldl (fun (a : Flags) e => a ||| e.2) f)
  (s, c.blk.outGid, c.blk.outOff + i * outPitch c.fmt c.fword, l)

/-- The bytes of a write, each with its group and offset. -/
def rowBytesAt (w : Nat × Nat × List Byte) : List (Nat × Nat × Byte) := (w.2.2.zip (upFrom w.2.1 w.2.2.length)).map fun x => (w.1, x.2, x.1)

/-- Some bytes of a pending drain reach scratch before it is complete: until then a reader that has not waited sees any mix of old and new ones
(R277; log 68, DEDUCED). -/
def State.showSome (s : State) (gid : Nat) : State :=
  match (s.group? gid).bind (·.drain) with
  | none => s
  | some d =>
    let l := (d.writes.flatMap rowBytesAt).filter fun x => !d.shown.contains (x.1, x.2.1) && !s.poisoned (.scr x.1 x.2.1)
    let now := ((l.zip (upFrom s.free l.length)).filter fun x => Config.freeNat x.2 % 2 == 1).map (·.1)
    let s : State := { s with free := s.free + l.length }
    let s := s.modGroup gid fun g => { g with drain := some { d with shown := d.shown ++ now.map fun x => (x.1, x.2.1) } }
    now.foldl (fun (s : State) x => (s.putByte (.scr x.1 x.2.1) x.2.2).wakeLines (.scr x.1 x.2.1) 1) s

/-- The row writes of a drain end: each is one write of the engine, and a byte that stands in scratch already stays as it is now. -/
def State.showAll (s : State) (d : DrainPend) : State :=
  d.writes.foldl (fun (s : State) w =>
    let l := (rowBytesAt w).map fun x => if d.shown.contains (x.1, x.2.1) && !s.poisoned (.scr x.1 x.2.1) then s.byteAt (.scr x.1 x.2.1) else x.2.2
    s.engWrite d.cmd.run d.cmd.ctx w.1 w.2.1 l) s

/-- A command that has ended leaves its queue; a dissolved group that no command names any longer is freed (R225). -/
def State.popMatrix (s : State) (g : Nat) : State := (s.modGroup g fun g => { g with mq := g.mq.drop 1, drain := none }).freeGroups

/-- A command's accesses to the elements of its rows set POISON in the CIR of its run where they meet a poisoned line of the pool (R290). MMA and
MDRN reach NCOL columns, every other command the whole row. -/
def State.noteTiles (s : State) (gid : Nat) (c : MCmd) : State :=
  let n := if c.op == .mma || c.op == .mdrn then fwNcol c.fword else 64
  s.notePoison c.run ((s.group? gid).any fun g => g.badTile.any fun k => c.rows.any fun x =>
    decide (tileKey c.tile x.row 0 / 8 ≤ k) && decide (8 * k < tileKey c.tile x.row 0 + n))

/-- The head of a group's matrix queue takes its step. MSTA and MDRN stay at the head until they complete (R236). -/
def State.matrixStep (s : State) (gid : Nat) : State :=
  match s.group? gid with
  | none => s
  | some g =>
    match g.mq with
    | [] => s
    | c :: _ =>
      let s := s.noteTiles gid c
      let pend := fun (f : State → MRow → State × Nat × Nat × List Byte) =>
        let (s, ws) := c.rows.foldl (fun (x : State × List (Nat × Nat × List Byte)) r => let (s, w) := f x.1 r; (s, x.2 ++ [w])) (s, [])
        s.modGroup gid fun g => { g with drain := some { cmd := c, bytes := (ws.map (·.2.2.length)).sum, writes := ws, shown := [] } }
      match c.op with
      | .mma => (s.mmaStep gid c).popMatrix gid
      | .mzero => (s.modGroup gid fun g => c.rows.foldl (fun (g : Group) x => g.zeroRow c.tile x.row) g).popMatrix gid
      | .mlda => (c.rows.foldl (fun (s : State) x => s.loadRow gid c x) s).popMatrix gid
      | .msta => pend fun s x => s.storeRow gid c x
      | .mdrn => pend fun s x => s.drainRow gid c x

/-- The next of some group numbers, in turn after the last one served. -/
def nextTurn (last : Nat) (gids : List Nat) : Option Nat :=
  let l := sortOn (fun (x : Nat) => x) gids
  match l.find? fun g => decide (last < g) with
  | some g => some g
  | none => l.head?

/-- A group's own engines may work for it: it is resident and its core is not gated. -/
def State.served (s : State) (g : Group) : Bool := g.resident && !(s.core g.home).gated

/-- TILE_STEP (R228): round-robin over the groups of the cluster whose queues hold a command; drains under way write on. -/
def State.tileTurn (s : State) (cluster : Nat) : State :=
  let s := ((s.groups.filter fun g => clusterOfCore g.home == cluster && g.drain.isSome && s.served g).map (·.gid)).foldl State.showSome s
  let ready := (s.groups.filter fun g => clusterOfCore g.home == cluster && !g.mq.isEmpty && g.drain.isNone && s.served g).map (·.gid)
  match nextTurn (s.cluster cluster).mlast ready with
  | none => s
  | some gid => (s.modCluster cluster fun c => { c with mlast := gid }).matrixStep gid
def execTileStep (cluster : Nat) (s : State) : Host.Outcome State Fault Refusal := .next (s.tileTurn cluster)

/-- The row flags join the FLG of the thread that owns the row through the command, and are cleared (R233). -/
def State.joinOwner (s : State) (gid : Nat) (c : MCmd) (x : MRow) : State :=
  match s.group? gid with
  | none => s
  | some g =>
    let f := g.flagsOf c.tile x.row
    (s.modThread x.r fun t => if t.gen = x.gen then { t with flg := t.flg ||| f } else t).modGroup gid fun g => g.setFlags c.tile x.row 0

/-- The barrier object of a drain or MSTA. -/
def MCmd.bar (c : MCmd) : Nat × Nat := if c.op == .mdrn then (c.blk.barGid, c.blk.barOff) else (c.bGid, c.bOff)

/-- A drain completes (R233, R236): every byte is written, their number is added to its barrier object, then the rows are reset and the flags
joined. -/
def State.drainDone (s : State) (gid : Nat) : State :=
  match (s.group? gid).bind (·.drain) with
  | none => s
  | some d =>
    let c := d.cmd
    let s := s.showAll d
    let s := s.signal c.run c.bar.1 c.bar.2 d.bytes c.resets
    let s := if c.op == .mdrn && fwRst c.fword then
        s.modGroup gid fun g => c.rows.foldl (fun (g : Group) x =>
          (upFrom 0 (fwNcol c.fword)).foldl (fun (g : Group) j => g.setElem c.tile x.row j (tileWidth c.fmt) 0) g) g
      else s
    (c.rows.foldl (fun (s : State) x => s.joinOwner gid c x) s).popMatrix gid

/-- DRAIN_COMPLETE: it waits while the mailbox of an absent group's die is full (R248). -/
def execDrainComplete (gid : Nat) (s : State) : Host.Outcome State Fault Refusal :=
  .next (match (s.group? gid).bind (·.drain) with
    | some d => if s.mailRoom d.cmd.bar.1 then s.drainDone gid else s
    | none => s)

/-- The commands queued by a group run to completion (R247, R341, R346); the first argument bounds their steps. -/
def State.runMatrix (s : State) (gid : Nat) : Nat → State
  | 0 => s
  | n + 1 =>
    match s.group? gid with
    | none => s
    | some g =>
      if g.drain.isSome then (s.drainDone gid).runMatrix gid n
      else if g.mq.isEmpty then s
      else (s.matrixStep gid).runMatrix gid n

/-! The copy engine (R237 to R240, R255 to R259) -/

/-- What an entry's reference resolves to: group and offset, or the cause that stops the command (R225, R239). -/
def State.ringRef (s : State) (snap : RingSnap) (ref align extent : Nat) : Except Nat (Nat × Nat) :=
  match ((snap.mems.getD (refSlot ref) none).bind s.group?) with
  | none => .error 0x19
  | some g =>
    let off := refOff ref
    if bits ref 22 8 ≠ 0 then .error 0x0B
    else if off % align ≠ 0 then .error 0x0A
    else if g.alloc < off + extent then .error 0x0B
    else .ok (g.gid, off)

/-- An iteration vector as a linear number, and back (R238). -/
def linear (counts v : List Nat) : Nat := ((counts.zip v).reverse).foldl (fun a x => a * x.1 + x.2) 0
def unlinear : List Nat → Nat → List Nat
  | [], _ => []
  | c :: t, n => n % max 1 c :: unlinear t (n / max 1 c)

/-- The offset of an element in one direction. -/
def strideSum (strides : List Int) (v : List Nat) : Int := (strides.zip v).foldl (fun a x => a + x.1 * (x.2 : Int)) 0

/-- The fields of an entry that its command keeps. -/
def copyEntry (g : Group) (k : Ring) (snap : RingSnap) (pos : Nat) : CopyCur :=
  let e := k.entries + 64 * (pos % k.nent)
  let x := k.entries + 64 * ((pos + 1) % k.nent)
  let h := g.rd e 4
  let ext := bit h 10
  let loops := (upFrom 0 5).map fun i => g.rd (e + 24 + 8 * i) 8
  { pos, ext, kind := bits h 0 4, esz := bits h 4 4, srcScr := bit h 8, src := g.rd (e + 8) 8, srcGid := 0, dstScr := bit h 9,
    dst := g.rd (e + 16) 8, dstGid := 0, counts := loops.map fun l => bits l 0 16, sstr := loops.map fun l => signed 24 (bits l 16 24),
    dstr := loops.map fun l => signed 24 (bits l 40 24), startV := (upFrom 0 5).map fun i => if ext then g.rd (x + 2 * i) 2 else 0,
    barGid := none, barOff := g.rd (e + 4) 4, gateGid := 0, gateOff := g.rd (x + 12) 4, gatePhase := bit (g.rd (x + 16) 1) 0, next := 0,
    bytes := 0, status := 0, cause := 0, poison := false, faddr := 0, taken := 0, slotIdx := 0, ended := false, gated := false,
    run := snap.run, ctx := snap.ctx, resets := snap.resets.getD (refSlot (g.rd (e + 4) 4)) 0 }

/-- The reserved bits of an entry and of its extension are zero (R256). -/
def entryClean (g : Group) (k : Ring) (c : CopyCur) : Bool :=
  let e := k.entries + 64 * (c.pos % k.nent)
  let x := k.entries + 64 * ((c.pos + 1) % k.nent)
  bits (g.rd e 4) 11 21 == 0 && (!c.srcScr || c.src / 2 ^ 32 == 0) && (!(c.dstScr || c.kind == 2) || c.dst / 2 ^ 32 == 0) &&
  (!c.ext || (([10, 11] ++ upFrom 17 47).all (fun o => g.rd (x + o) 1 == 0) && decide (g.rd (x + 16) 1 < 2)))

/-- The engine refuses an entry (R257). -/
def entryRefused (g : Group) (k : Ring) (c : CopyCur) : Bool :=
  2 < c.kind || 10 < c.esz || !entryClean g k c || (c.kind == 1 && !c.ext) ||
  (c.counts.zip c.startV).any (fun x => decide (x.1 ≤ x.2) && !(x.1 == 0 && x.2 == 0)) ||
  decide (2 ^ 48 ≤ 2 ^ c.esz * c.counts.foldl (· * ·) 1)

/-- A command stopped before its first element. -/
def CopyCur.stop (c : CopyCur) (status cause faddr : Nat) : CopyCur := { c with status, cause, faddr, ended := true, gated := false }

/-- The entry's own references are resolved (R239, R240), or stop the command. -/
def State.resolveEntry (s : State) (snap : RingSnap) (c : CopyCur) : CopyCur :=
  match s.ringRef snap c.barOff 16 16 with
  | .error e => c.stop 1 e 0
  | .ok (bg, bo) =>
    let c : CopyCur := { c with barGid := some bg, barOff := bo }
    let mem := fun (ref : Nat) => ((snap.mems.getD (refSlot ref) none).getD 0)
    let c : CopyCur := { c with srcGid := if c.srcScr then mem c.src else 0, dstGid := if c.dstScr then mem c.dst else 0 }
    match (if c.kind = 1 then s.ringRef snap c.gateOff 16 16 else .ok (0, 0)) with
    | .error e => c.stop 1 e 0
    | .ok (gg, go) =>
      let c : CopyCur := { c with gateGid := gg, gateOff := go, gated := c.kind == 1 }
      match (if c.kind = 2 then s.ringRef snap c.dst 32 32 else .ok (c.dstGid, 0)) with
      | .error e => c.stop 1 e 0
      | .ok (dg, dof) =>
        let c : CopyCur := if c.kind = 2 then { c with dstGid := dg, dst := dof } else { c with dstGid := dg }
        if c.counts.contains 0 then { c with ended := true, gated := c.gated } else { c with next := linear c.counts c.startV }

/-- An element's side: the place of its bytes and whether they are checked memory, or the cause and address that stop the command, or a
wait for the translation (R239, R256, R282, R286). `gid`: the group of the ring. -/
def State.copySide (s : State) (gid core : Nat) (c : CopyCur) (write : Bool) (n : Nat) : State × Except (Option (Nat × Nat)) (Place × Bool) :=
  let e := 2 ^ c.esz
  let v := unlinear c.counts n
  let step := strideSum (if write then c.dstr else c.sstr) v
  if (if write then c.dstScr else c.srcScr) then
    let ref := if write then c.dst else c.src
    let off : Int := (refOff ref : Int) + step
    match s.group? (if write then c.dstGid else c.srcGid) with
    | none => (s, .error (some (0x19, wrap 22 off)))
    | some g =>
      if off % (e : Int) ≠ 0 then (s, .error (some (0x0A, wrap 64 off)))
      else if bits ref 22 8 ≠ 0 || off < 0 || (g.alloc : Int) < off + e then (s, .error (some (0x0B, wrap 64 off)))
      else (s, .ok (.scr g.gid off.toNat, g.rchk))
  else
    let va := wrap 64 (((if write then c.dst else c.src) : Int) + step)
    match windowOf va with
    | some .global | some .host =>
      if va % e ≠ 0 then (s, .error (some (0x0A, va)))
      else match s.xlat core c.ctx va write (engineWho gid) with
        | (s, .ok p chk) => (s, .ok (s.runView c.run p, chk))
        | (s, .fault cause _) => (s, .error (some (cause, va)))
        | (s, .wait) => (s, .error none)
    | _ => (s, .error (some (0x08, va)))

/-- Replaces a ring's command. -/
def State.setCopy (s : State) (gid : Nat) (c : CopyCur) : State :=
  s.modGroup gid fun g => { g with ring := g.ring.map fun k => { k with cur := some c } }

/-- What moving one element came to. -/
inductive Moved where
  | moved (s : State) (c : CopyCur)
  | stopped (s : State) (c : CopyCur)
  | wait (s : State)
deriving Repr, Inhabited

/-- Moves one element to a destination (R238, R239). -/
def State.moveTo (s : State) (gid core : Nat) (c : CopyCur) (va : Nat) (dst : State → State × Except (Option (Nat × Nat)) (Place × Bool)) : Moved :=
  match s.copySide gid core c false c.next with
  | (s, .error none) => .wait s
  | (s, .error (some (e, a))) => .stopped s (c.stop 1 e a)
  | (s, .ok (p, _)) =>
    match dst s with
    | (s, .error none) => .wait s
    | (s, .error (some (e, a))) => .stopped s (c.stop 1 e a)
    | (s, .ok (q, chk)) =>
      let n := 2 ^ c.esz
      let bad := s.meetsPoison p n
      let l := s.readAt p n
      let s := ((s.askPeer [] p).notePoison c.run bad).engineWrite (some c.run) c.ctx va chk q l
      .moved s { c with next := c.next + 1, bytes := c.bytes + n, poison := c.poison || bad }

/-- The global address of an element's destination, for what R347 records. -/
def CopyCur.dstVa (c : CopyCur) : Nat :=
  if c.dstScr then scratchBase else wrap 64 ((c.dst : Int) + strideSum c.dstr (unlinear c.counts c.next))

/-- Elements of a COPY or HALO command in iteration order. -/
def State.copyRun (s : State) (gid core : Nat) (c : CopyCur) : Nat → State × CopyCur
  | 0 => (s, c)
  | n + 1 =>
    if c.ended then (s, c)
    else if c.counts.foldl (· * ·) 1 ≤ c.next then (s, { c with ended := true })
    else match s.moveTo gid core c c.dstVa fun s => s.copySide gid core c true c.next with
      | .moved s c => s.copyRun gid core (if c.counts.foldl (· * ·) 1 ≤ c.next then { c with ended := true } else c) n
      | .stopped s c => (s, c)
      | .wait s => (s, c)

/-- A command waits while a group that it names is swapped out (R247). -/
def State.copyHeld (s : State) (c : CopyCur) : Bool :=
  let away := fun (gid : Nat) => ((s.group? gid).map fun g => !g.resident).getD false
  (c.srcScr && away c.srcGid) || ((c.dstScr || c.kind == 2) && away c.dstGid) || (c.kind == 1 && c.gated && away c.gateGid)

/-- Starts the next published entry of a ring (R237, R255 to R257). -/
def State.copyStart (s : State) (g : Group) (k : Ring) : State :=
  let pos := g.rd (k.off + 4) 4
  let cover := (g.rd k.off 4 + 2 ^ 32 - pos) % 2 ^ 32
  match k.snapFor pos with
  | none => s
  | some snap =>
    let c := copyEntry g k snap pos
    let s := [k.off, k.entries + 64 * (pos % k.nent)].foldl (fun (s : State) o => s.noteScr snap.run g.gid o)
      (if c.ext then s.noteScr snap.run g.gid (k.entries + 64 * ((pos + 1) % k.nent)) else s)
    if cover = 0 || 2 ^ 31 < cover || (c.ext && cover < 2) then s
    else if entryRefused g k c then
      -- a refused entry adds 0 bytes to its barrier object, where that resolves
      let bar := match s.ringRef snap c.barOff 16 16 with
        | .ok x => some x
        | .error _ => none
      s.setCopy g.gid { c.stop 2 0 0 with barGid := bar.map (·.1), barOff := (bar.map (·.2)).getD 0, startV := [0, 0, 0, 0, 0] }
    else s.setCopy g.gid (s.resolveEntry snap c)

/-- How many elements a ring may move in one turn: up to 1,024 bytes (R237). -/
def CopyCur.perTurn (c : CopyCur) : Nat := max 1 (1024 / 2 ^ c.esz)

/-- A flume's slot size, and the stream offset of a command's next element (R257, R268). -/
def State.slotSize (s : State) (c : CopyCur) : Nat := max 1 (s.scrRd c.dstGid (c.dst + 4) 4)
def CopyCur.streamOff (c : CopyCur) : Int := strideSum c.dstr (unlinear c.counts c.next)

/-- A flume command's next element is the first that it writes in its slot of the stream: it takes a slot for it (R257; log 54, DEDUCED). -/
def State.takesSlot (s : State) (c : CopyCur) : Bool := decide (c.taken < c.streamOff.toNat / s.slotSize c + 1)

/-- The command waits for a free slot (R243). -/
def State.flumeWaits (s : State) (c : CopyCur) : Bool :=
  c.kind == 2 && decide (c.next < c.counts.foldl (· * ·) 1) && decide (0 ≤ c.streamOff) && s.takesSlot c && s.scrRd c.dstGid (c.dst + 12) 2 == 0

/-- The copy engine has something to do for a group's ring: a published entry, or a command that can move (R237, R240, R243). -/
def State.copyReady (s : State) (g : Group) : Bool :=
  s.served g && match g.ring with
  | none => false
  | some k => match k.cur with
    | some c => !c.ended && !c.gated && !s.copyHeld c && !s.flumeWaits c
    | none => (k.snapFor (g.rd (k.off + 4) 4)).isSome && g.rd (k.off + 4) 4 != g.rd k.off 4

/-- The rings of a cluster are served in round-robin: whether it is a group's turn (R237). -/
def State.copyTurnOf (s : State) (g : Group) : Bool :=
  let cl := clusterOfCore g.home
  nextTurn (s.cluster cl).clast ((s.groups.filter fun x => clusterOfCore x.home == cl && s.copyReady x).map (·.gid)) == some g.gid

def State.tookTurn (s : State) (g : Group) : State := s.modCluster (clusterOfCore g.home) fun c => { c with clast := g.gid }

/-- COPY_COMMAND_START: the engine's turn at a ring: it starts the next entry, or moves up to 1,024 bytes of a started COPY, or of a HALO
whose gate has opened (R237 to R240). -/
def State.copyTurn (s : State) (gid : Nat) : State :=
  match s.group? gid with
  | none => s
  | some g =>
    if !s.copyTurnOf g then s else
    match g.ring with
    | none => s
    | some k =>
      match k.cur with
      | none => (s.tookTurn g).copyStart g k
      | some c =>
        if c.kind == 2 then s else
        let (s, c) := (s.tookTurn g).copyRun gid g.home c c.perTurn
        s.setCopy gid c
def execCopyCommandStart (gid : Nat) (s : State) : Host.Outcome State Fault Refusal := .next (s.copyTurn gid)

/-- HALO_START (R240): the gate's phase bit equals the entry's value. -/
def State.haloOpen (s : State) (gid : Nat) : State :=
  match (s.group? gid).bind (·.ring) with
  | some k => match k.cur with
    | some c =>
      if c.gated && !s.copyHeld c && s.phaseOf c.gateGid c.gateOff == c.gatePhase then
        (s.noteScr c.run c.gateGid c.gateOff).setCopy gid { c with gated := false }
      else s
    | none => s
  | none => s
def execHaloStart (gid : Nat) (s : State) : Host.Outcome State Fault Refusal := .next (s.haloOpen gid)

/-- Slots of a flume become filled, and threads parked in FLACQ are woken (R257, R270). -/
def State.fillSlots (s : State) (c : CopyCur) (n : Nat) : State :=
  if n = 0 then s else
  let s := (s.noteScr c.run c.dstGid c.dst).scrWr c.dstGid (c.dst + 14) 2 (s.scrRd c.dstGid (c.dst + 14) 2 + n)
  (s.threads.filter fun t => match t.status with
    | .flacq g o => g == c.dstGid && o == c.dst
    | _ => false).foldl (fun (s : State) t => s.unpark t.r) s

/-- A flume command that ends fills the slot that it has been writing (R257). -/
def State.flumeEnd (s : State) (c : CopyCur) : State := s.fillSlots c (b2n (decide (0 < c.taken)))

/-- The slot of a command's next element: the one that it is writing, or the one at HEAD (R243, R271). -/
def State.slotFor (s : State) (c : CopyCur) : Nat := if s.takesSlot c then s.scrRd c.dstGid (c.dst + 16) 2 else c.slotIdx

/-- The command writes an element: where it is the first in its slot, the slot is taken, and the one before it counts as filled (R257; log 54,
DEDUCED). `c` is the command before the element. -/
def State.nextSlot (s : State) (c : CopyCur) : State :=
  if !s.takesSlot c then s else
  let n := max 1 (s.scrRd c.dstGid (c.dst + 8) 2)
  let s := (s.scrWr c.dstGid (c.dst + 12) 2 (s.scrRd c.dstGid (c.dst + 12) 2 - 1)).scrWr c.dstGid (c.dst + 16) 2 ((s.scrRd c.dstGid (c.dst + 16) 2 + 1) % n)
  s.fillSlots c (b2n (decide (0 < c.taken)))

/-- Elements of a FLUME command in iteration order, up to one that waits for a slot. -/
def State.flumeRun (s : State) (gid core : Nat) (c : CopyCur) : Nat → State × CopyCur
  | 0 => (s, c)
  | n + 1 =>
    let z := s.slotSize c
    let o := c.streamOff
    let e := 2 ^ c.esz
    if c.ended || s.flumeWaits c then (s, c)
    else if c.counts.foldl (· * ·) 1 ≤ c.next then (s.flumeEnd c, { c with ended := true })
    else if o < 0 ∨ (o.toNat % z) + e > z ∨ o.toNat / z + 1 < c.taken then (s.flumeEnd c, c.stop 2 0 0)
    else
      let slot := s.slotFor c
      let at_ := s.scrRd c.dstGid c.dst 4 + slot * z + o.toNat % z
      let dst := fun (s : State) =>
        (s, if at_ % e ≠ 0 then Except.error (some (0x0A, at_))
            else if ((s.group? c.dstGid).map (·.alloc)).getD 0 < at_ + e then .error (some (0x0B, at_))
            else .ok (Place.scr c.dstGid at_, ((s.group? c.dstGid).map (·.rchk)).getD false))
      match s.moveTo gid core c scratchBase dst with
      | .moved s d =>
        let s := s.nextSlot c
        let d := { d with taken := o.toNat / z + 1, slotIdx := slot }
        if d.counts.foldl (· * ·) 1 ≤ d.next then (s.flumeEnd d, { d with ended := true }) else s.flumeRun gid core d n
      | .stopped s c => (s.flumeEnd c, c)
      | .wait s => (s, c)

/-- FLUME_SLOT_WRITE (R237, R243, R257): the engine's turn at a ring whose command writes to a flume: up to 1,024 bytes of it. -/
def State.flumeTurn (s : State) (gid : Nat) : State :=
  match s.group? gid with
  | none => s
  | some g =>
    if !s.copyTurnOf g then s else
    match g.ring.bind (·.cur) with
    | none => s
    | some c =>
      if c.kind ≠ 2 then s else
      let (s, c) := ((s.tookTurn g).noteScr c.run c.dstGid c.dst).flumeRun gid g.home c c.perTurn
      s.setCopy gid c
def execFlumeSlotWrite (gid : Nat) (s : State) : Host.Outcome State Fault Refusal := .next (s.flumeTurn gid)

/-- A completion record (R258). -/
def CopyCur.record (c : CopyCur) : List Byte :=
  let vec := if c.status = 0 then [0, 0, 0, 0, 0] else if c.next = 0 then c.startV else unlinear c.counts c.next
  leBytes 4 (c.status + 2 ^ 8 * c.cause + 2 ^ 16 * b2n c.poison) ++ leBytes 6 c.bytes ++ vec.flatMap (leBytes 2) ++ leBytes 4 c.pos ++
    leBytes 8 c.faddr

/-- COPY_COMMAND_COMPLETE (R237, R258, R259): record, CONS, then the bytes to the barrier object; it waits for mailbox room (R248). -/
def State.copyDone (s : State) (gid : Nat) : State :=
  match s.group? gid with
  | none => s
  | some g =>
    match g.ring with
    | none => s
    | some k =>
      match k.cur with
      | none => s
      | some c =>
        if !c.ended || c.gated || !(c.barGid.map s.mailRoom).getD true || !s.served g then s else
        let s := s.engWrite c.run c.ctx gid (k.recs + 32 * (c.pos % k.nent)) c.record
        let cons := (c.pos + (if c.ext then 2 else 1)) % 2 ^ 32
        let s := s.engWrite c.run c.ctx gid (k.off + 4) (leBytes 4 cons)
        let s := if c.status = 0 then s else s.engWrite c.run c.ctx gid (k.off + 20) (leBytes 4 (s.scrRd gid (k.off + 20) 4 + 1))
        let s := s.modGroup gid fun g => { g with ring := g.ring.map fun k => { k with cur := none, snaps := k.snaps.filter (·.past cons) } }
        (match c.barGid with
          | some b => s.signal c.run b c.barOff c.bytes c.resets
          | none => s).freeGroups
def execCopyCommandComplete (gid : Nat) (s : State) : Host.Outcome State Fault Refusal := .next (s.copyDone gid)

/-! LDX (R177) -/

/-- The bytes of one part of a transfer's source as its core's load path reads them. -/
def State.pathBytes (s : State) (core : Nat) (p : Place) (n : Nat) : List Byte :=
  let d := s.drained core
  (upFrom 0 n).map fun i => (newestByte d (p.add i)).getD (s.readByte (p.add i))

/-- A transfer's bytes reach scratch and are added to its barrier object. -/
def State.ldxRun (s : State) (x : LdxMove) : State :=
  let n := x.bytes / max 1 x.src.length
  let l := x.src.flatMap fun p => s.pathBytes x.core p n
  let s := (x.src.foldl (State.askPeer · []) s).notePoison x.run (x.src.any fun p => s.meetsPoison p n)
  let s : State := { s with ldxs := s.ldxs.filter (·.id ≠ x.id) }
  ((s.engWrite x.run x.ctx x.gid x.off l).signal x.run x.gid x.barOff x.bytes x.resets).freeGroups

/-- LDX_TRANSFER_COMPLETE. -/
def execLdxTransferComplete (id : Nat) (s : State) : Host.Outcome State Fault Refusal :=
  .next (match s.ldxs.find? (·.id == id) with
    | some x => if s.mailRoom x.gid then s.ldxRun x else s
    | none => s)

/-! The mailbox (R248) -/

/-- MAILBOX_SIGNAL: the oldest signal of a die, while dispatch is not paused (R363). -/
def State.mailStep (s : State) (die : Nat) : State :=
  match s.mailbox.find? (·.die == die) with
  | none => s
  | some x => State.applySignal { s with mailbox := s.mailbox.erase x } x
def execMailboxSignal (die : Nat) (s : State) : Host.Outcome State Fault Refusal :=
  .next (if s.dispatching then s.mailStep die else s)

/-- Every mailboxed signal of a group, in arrival order. -/
def State.mailAll (s : State) (gid : Nat) : State :=
  (s.mailbox.filter (·.gid == gid)).foldl State.applySignal { s with mailbox := s.mailbox.filter (·.gid ≠ gid) }

/-! The governor (R244, R245) -/

/-- A core holds threads or pool units of a resident group. -/
def State.holdsGroup (s : State) (core : Nat) : Bool :=
  s.groups.any fun g => g.resident && (g.home == core || g.members.any fun m => coreOfSlot m.1 == core)

/-- ROUND_BOUNDARY: a core ends a round, or idles a cycle where it is L rounds ahead of the slowest neighbour. -/
def State.roundEnd (s : State) (core : Nat) : State :=
  let cl := clusterOfCore core
  let others := (upFrom (4 * cl) 4).filter fun c => c != core && s.holdsGroup c && !(s.core c).gated
  let mine := (s.core core).rounds
  if others.any fun c => decide ((s.core c).rounds + (s.cluster cl).lead < mine + 1) then
    s.modCore core fun c => { c with govwait := count48 c.govwait 1 }
  else s.modCore core fun c => { c with rounds := c.rounds + 1 }
def execRoundBoundary (core : Nat) (s : State) : Host.Outcome State Fault Refusal :=
  .next (if core < Config.numCores then s.roundEnd core else s)

/-! Gating and reset of a core (R245, R248; log 29, DESIGN CHOICE) -/

/-- POWER_GATING: a core with a bundle, a queued store block or an outstanding store is not gated. Signals mailed for its groups are applied when
its power comes back, before any member issues (R248), which waits for the end of a pause (R363). -/
def State.gate (s : State) (core : Nat) (on : Bool) : State :=
  if on && (s.bundles.any (·.p.core == core) || s.blocks.any (·.core == core) || s.out.any (·.core == core) || s.ldxs.any (·.core == core)) then s
  else if !on && s.pkg.pause.isSome then s
  else
    let s := s.modCore core fun c => { c with gated := on }
    if on then s else ((s.groups.filter fun g => g.home == core && g.resident).map (·.gid)).foldl State.mailAll s
def execPowerGating (core : Nat) (on : Bool) (s : State) : Host.Outcome State Fault Refusal :=
  .next (if core < Config.numCores then s.gate core on else s)

/-- CORE_RESET: bundles of the core are abandoned, its queued stores drain (R164), its registers take their reset values, and its resets
are counted in the groups whose scratch it holds. A commit under way completes first (R35). -/
def State.resetCore (s : State) (core : Nat) : State :=
  if s.bundles.any fun b => b.p.core == core && b.lanes.any fun l => decide (1 ≤ l.stage) then s else
  let s := s.bundles.foldl (fun (s : State) b =>
    if b.p.core = core then (b.lanes.foldl (fun (s : State) l => s.abandon b.p l.r) s).leaveBundle b.p else s) s
  let s := (s.blocks.filter (·.core == core)).foldl State.drainBlock { s with blocks := s.blocks.filter (·.core ≠ core) }
  let s := s.flushOut fun o => o.core == core
  let s : State := { s with groups := s.groups.map fun g => if g.home = core ∧ g.resident then { g with resets := g.resets + 1 } else g }
  s.modCore core fun c => { id := c.id, resets := c.resets + 1 }
def execCoreReset (core : Nat) (s : State) : Host.Outcome State Fault Refusal :=
  .next (if core < Config.numCores then s.resetCore core else s)

end Sys2Proof.Machine
end

