-- ==== Sys2Proof/Machine/Debug.lean ====
section
/-! DEFINITION. The debug block and what a debugger does with a thread (R35, R208 to R218, R366), behind the management processor's
service of commands (R357, R360, R373). -/

namespace Sys2Proof.Machine

open Sys2Proof

/-! Commands (R357, R360, R373) -/

/-- A command's status word, as its requester sees it. -/
def State.answer (s : State) (code : Nat) : State := { s with hostResp := .status code }

/-- The management firmware is being replaced, and serves nothing (R362). -/
def State.managementPaused (s : State) : Bool := (s.pkg.pause.map (·.new.kind == 1)).getD false

/-- The next free value of the machine. -/
def State.takeFreeNat (s : State) : State × Nat := ({ s with free := s.free + 1 }, Config.freeNat s.free)

/-- A served command ends with status 0; one that is refused ends with a status word that the spec does not give (log 48, DESIGN CHOICE). -/
def State.refuse (s : State) : State :=
  let (s, n) := s.takeFreeNat
  s.answer (n % 2 ^ 32)

/-- What one behind the other arrives through: the command mailbox (R373), a host link (R374), a peer (R381). -/
inductive Way where
  | mailbox
  | link (n : Nat)
  | peer (num : Nat)
deriving DecidableEq, Repr, Inhabited

/-- The way of an event that arrives from outside. -/
def State.way (s : State) : Instr → Option Way
  | .create _ | .destroy _ | .inval .. | .race .. | .peer .. | .debug .. | .registerWrite .. | .image _ | .install .. | .start .. | .log => some .mailbox
  | .hostPostedWrite vf .. | .bar2Read vf .. | .bar2Write vf .. | .bar2Atomic vf .. => some (.link (s.linkOf vf))
  | .peerRequest num .. => some (.peer num)
  | _ => none

/-- An event from outside that cannot go on waits; the machine tries it again until it can (log 100, DEDUCED). -/
def State.await (s : State) (i : Instr) : State := { s with waiting := s.waiting ++ [i] }

/-- An event from outside waits where one that has come the same way before it does. -/
def State.inTurn (s : State) (i : Instr) (k : State → State) : State :=
  if s.waiting.any fun j => s.way j == s.way i then s.await i else k s

/-- A management command is served: none while its firmware is being replaced, and in their order; in furled mode only one marked F, every other
with status 0x301; after a failed start only one marked F; before the first start none (R357, R360, R362, R373). -/
def State.command (s : State) (marked : Bool) (i : Instr) (k : State → State) : State :=
  if s.managementPaused then s.await i
  else if s.pkg.state = 4 then s.inTurn i k
  else if s.pkg.state = 5 then (if marked then s.inTurn i k else s.answer 0x301)
  else if s.pkg.fails = 0 then s
  else if marked then s.inTurn i k
  else s.refuse

/-- A debugger or a profiler is attached to a context (R366). -/
def State.attached (s : State) (ctx : Nat) : Bool := ((s.ctx? ctx).map fun c => c.debugger || c.profiler).getD false

/-! REGISTER_WRITE (R8, R209, R212) -/

/-- The bits of a value that a register of the debug block keeps: its RW fields. -/
def rwBits : DebugReg → BitVec 64 → BitVec 64
  | .bpa _, v => v &&& 0x01FFFFFFFFFFFFF8
  | .bpf _, v => v &&& 0xFFFFFFFFFFFFFFF0
  | .wpc _, v => v &&& 0xFF00000000000000
  | _, v => v

/-- A register of a core's debug block replaced. -/
def Core.putReg (c : Core) (reg : DebugReg) (v : BitVec 64) : Core :=
  let put := fun (n : Nat) (l : List DWord) => modAt (fun _ => v) n l
  let wp := fun (n : Nat) (f : Watch → Watch) => modAt f n c.wps
  match reg with
  | .bpa n => { c with bpa := put n c.bpa }
  | .bpf n => { c with bpf := put n c.bpf }
  | .wpb n => { c with wps := wp n fun w => { w with base := v } }
  | .wpl n => { c with wps := wp n fun w => { w with limit := v } }
  | .wpv n => { c with wps := wp n fun w => { w with value := v } }
  | .wpm n => { c with wps := wp n fun w => { w with mask := v } }
  | .wpc n => { c with wps := wp n fun w => { w with ctl := v } }

/-- The filter and control registers that say which context the registers of a comparator or watchpoint apply to (R208, R209, R212). -/
def Core.owner (c : Core) : DebugReg → Nat
  | .bpa n | .bpf n => (c.bpf.getD n 0).toNat
  | .wpb n | .wpl n | .wpv n | .wpm n | .wpc n => (c.wps.getD n {}).ctl.toNat

/-- The context that an enabled filter or control register names. -/
def ownerCtx (reg : DebugReg) (v : Nat) : Option Nat :=
  if !bit v 63 then none else match reg with
  | .bpa _ | .bpf _ => some (bits v 52 6)
  | _ => some (bits v 56 6)

/-- A write to the debug block on behalf of a context: one with a debugger or profiler attached (R208, R366), which names no other context and
does not reach what applies to another (log 42, DESIGN CHOICE). -/
def State.mayWrite (s : State) (ctx core : Nat) (reg : DebugReg) (v : BitVec 64) : Bool :=
  let mine := fun (w : Nat) => (ownerCtx reg w).all (· == ctx)
  s.attached ctx && mine ((s.core core).owner reg) && match reg with
  | .bpf _ | .wpc _ => mine v.toNat
  | _ => true

/-- REGISTER_WRITE: a register of the debug block takes its RW fields. -/
def State.writeReg (s : State) (ctx core : Nat) (reg : DebugReg) (v : BitVec 64) : State :=
  s.command false (.registerWrite { ctx, core } reg v) fun s =>
    if Config.numCores ≤ core || !s.mayWrite ctx core reg v then s.refuse else (s.modCore core fun c => c.putReg reg (rwBits reg v)).answer 0
def execRegisterWrite (target : DebugTarget) (reg : DebugReg) (value : BitVec 64) (s : State) : Host.Outcome State Fault Refusal :=
  .next (s.writeReg target.ctx target.core reg value)

/-! DEBUG (R214 to R216, R218, R366) -/

/-- The counters that a context's profiler reads at a core (R167, R216, R218, R286, R303, R313, R318): of its partitions, the context's progress
on its die, the context's losses, the die's translations. -/
def State.counters (s : State) (ctx core : Nat) : List Nat :=
  let d := s.die (dieOfCore core)
  (s.core core).parts.flatMap (fun p =>
    [p.gapshort, p.gapfalse, p.promote, p.gatherwait, p.bankxtra, p.stqwait, p.replayin, p.replaychk, p.replaydrop, p.brkiss, p.brkocc]) ++
  ((upFrom 0 16).map fun n => ((s.progs.find? (·.1 == (ctx, dieOfCore core, n))).map (·.2)).getD 0) ++
  ((s.ctx? ctx).map fun c => [c.evsup, c.hzsup, c.snpsup, c.clksup, c.engrst, c.shrsup, c.ringloss]).getD [] ++
  [d.tlbmiss, d.walks, d.misswait, d.walkbad]

/-- A use of the debug blocks that names a core or a rate that is there. -/
def debugOk : DebugCmd → Bool
  | .traceOn core _ _ | .traceOff core | .readCounters core => decide (core < Config.numCores)
  | .trial _ _ d => decide (d < 256)
  | _ => true

/-- What an attached debugger or profiler asks of the debug blocks, with its status word. A core has one trace buffer, which the last that turned tracing on there has
(log 97, DEDUCED). -/
def State.debugBlock (s : State) (ctx : Nat) : DebugCmd → State
  | .traceOn core base size =>
    ((s.modCore core fun c => { c with trace := some { ctx, base, size, next := 0, since := 0, pend := [] } }).writeSync core).answer 0
  | .traceOff core => (s.modCore core fun c => { c with trace := none }).answer 0
  | .trial lo hi d => (s.modCtx ctx fun c => { c with trial := some (lo, hi, d) }).answer 0
  | .trialOff => (s.modCtx ctx fun c => { c with trial := none }).answer 0
  | .readCounters core => { s with hostResp := .reply 0 ((s.counters ctx core).flatMap (leBytes 8)) }
  | .attach _ | .detach _ => s

/-- Attaches or detaches a debugger or a profiler. -/
def Context.attach (c : Context) (profiler on : Bool) : Context := if profiler then { c with profiler := on } else { c with debugger := on }

/-- DEBUG: an attachment places an event, of which the spec gives neither kind nor arguments (log 42, DESIGN CHOICE); every other use of the debug
blocks is served only for a context with a debugger or profiler attached. -/
def State.debug (s : State) (ctx : Nat) (cmd : DebugCmd) : State :=
  s.command false (.debug ctx cmd) fun s =>
    if (s.ctx? ctx).isNone then s.refuse else
    match cmd with
    | .attach profiler =>
      let (s, k) := s.takeFreeNat
      let (s, a) := s.takeFreeNat
      let (s, b) := s.takeFreeNat
      ((s.modCtx ctx fun c => { c.attach profiler true with attached := c.attached + 1 }).event ctx k 0xFFFFFFFF a b).answer 0
    | .detach profiler => (s.modCtx ctx fun c => c.attach profiler false).answer 0
    | c => if s.attached ctx && debugOk c then s.debugBlock ctx c else s.refuse
def execDebug (ctx : Nat) (cmd : DebugCmd) (s : State) : Host.Outcome State Fault Refusal := .next (s.debug ctx cmd)

/-! Halting and resuming a thread (R34, R35, R211) -/

/-- A thread that a debugger of its context reaches: resident, with the management processor serving commands. -/
def State.debuggee (s : State) (r : Nat) : Option Thread :=
  (s.thread? r).filter fun t => !away r && ((s.ctx? t.ctx).map (·.debugger)).getD false && s.pkg.state == 4 && !s.managementPaused

/-- A lane of a bundle has begun its commit, which completes before any interruption (R35). -/
def State.bundleCommits (s : State) (p : PortId) : Bool := ((s.bundle? p).map fun b => b.lanes.any fun l => decide (1 ≤ l.stage)).getD false

/-- DEBUG_HALT (R35): a bundle in mid-trace is abandoned by all its lanes; the thread halts at its PC. -/
def State.debugHalt (s : State) (r : Nat) : State :=
  match s.debuggee r with
  | none => s
  | some t =>
    if t.status == .halted then s else
    match t.port? with
    | some p =>
      if s.bundleCommits p then s else
      let rs := ((s.bundle? p).map fun b => b.lanes.map (·.r)).getD []
      ((rs.foldl (fun (s : State) x => s.abandon p x) s).halt r 5 0).leaveBundle p
    | none => (s.detach r).halt r 5 0
def execDebugHalt (slot : Nat) (s : State) : Host.Outcome State Fault Refusal := .next (s.debugHalt slot)

/-- A halted thread goes on (R27, R34, R211): a deferred fault that has waited for it comes first (log 78, DEDUCED); it parks again where its
hinge's wait is still open; else it re-enters the PC table. -/
def State.resumeHalted (s : State) (r : Nat) : State :=
  match s.thread? r with
  | none => s
  | some t =>
    match t.trap, t.held with
    | none, h :: rest => (s.modThread r fun t => { t with status := .runnable, held := rest }).deferredTrap r h
    | _, _ =>
      if t.wait.isSome then ((s.park r .waiting).waitvTry r).gbarResume r
      else s.enterTable r

/-- A thread that a debugger may resume: one that is halted, or that stands between two slots of a slot-step (R211). -/
def State.haltedThread (s : State) (r : Nat) : Option Thread := (s.debuggee r).filter fun t => t.status == .halted || t.stepping

/-- It goes on; one that stands between two slots issues the rest of its trace. -/
def State.resumeThread (s : State) (t : Thread) : State :=
  let s := s.modThread t.r fun t => { t with stepping := false }
  if t.status == .halted then s.resumeHalted t.r else s

/-- DEBUG_RESUME (R211). -/
def State.debugResume (s : State) (r : Nat) : State :=
  match s.haltedThread r with
  | some t => s.resumeThread t
  | none => s
def execDebugResume (slot : Nat) (s : State) : Host.Outcome State Fault Refusal := .next (s.debugResume slot)

/-- DEBUG_RESUME_ONE_TIME_PASS (R211). -/
def State.debugPass (s : State) (r : Nat) : State :=
  match s.haltedThread r with
  | some t => (s.modThread r fun t => { t with onePass := true }).resumeThread t
  | none => s
def execDebugResumeOneTimePass (slot : Nat) (s : State) : Host.Outcome State Fault Refusal := .next (s.debugPass slot)

/-- A free issue port of a slot's partition. -/
def State.freePort (s : State) (r : Nat) : Option PortId :=
  ([0, 1, 2, 3].map fun n => ({ core := coreOfSlot r, part := partOfSlot r, port := n } : PortId)).find? fun p => !s.bundles.any (·.p == p)

/-- The first slot of a stepped thread: its bundle is formed at a free port; the EXIT or HALT of a trace that has committed comes first. A gather trace cannot be stepped: the thread resumes, and the
refusal is reported. -/
def State.stepBegin (s : State) (t : Thread) : State :=
  if s.stopping (coreOfSlot t.r) t.ctx || s.failing t.run then s
  else match t.ending with
  | some e => s.endNow t.r e
  | none =>
  if s.gatherAt (coreOfSlot t.r) t.ctx t.run t.pc.toNat then (s.resumeThread t).answer 1
  else match s.freePort t.r with
    | none => s
    | some p =>
      let s := ((s.leaveTable t.r).modThread t.r fun t => { t with stepping := true }).formBundle p t.pc.toNat none [t.r]
      { s with agenda := s.agenda ++ [.port p, .port p] }

/-- SLOT_STEP (R211): the machine's next moves are one slot of the thread's one-lane bundle, formed first where there is none. What a halted
thread has still to meet, a deferred fault or its hinge's wait, comes first, and the step is asked for again once that is over. -/
def State.slotStep (s : State) (r : Nat) : State :=
  match s.debuggee r with
  | none => s
  | some t =>
    match t.port?.bind s.bundle? with
    | some b =>
      if t.stepping then { s with agenda := s.agenda ++ (if b.trace.isNone then [.port b.p, .port b.p] else [.port b.p]) } else s
    | none =>
      if t.status == .halted then
        (if t.wait.isSome || (t.trap.isNone && !t.held.isEmpty) then (s.modThread r fun t => { t with stepping := true }).resumeHalted r
         else s.stepBegin t)
      else if t.stepping && t.status == .runnable then s.stepBegin t
      else s
def execSlotStep (slot : Nat) (s : State) : Host.Outcome State Fault Refusal := .next (s.slotStep slot)

/-- DEBUG_ABANDON (R211, R35): the thread halts, and stepping restarts at slot 1. -/
def State.debugAbandon (s : State) (r : Nat) : State :=
  match s.debuggee r with
  | none => s
  | some t =>
    match t.stepping, t.port? with
    | true, some p => if s.bundleCommits p then s else (s.abandon p r).leaveBundle p
    | _, _ => s
def execDebugAbandon (slot : Nat) (s : State) : Host.Outcome State Fault Refusal := .next (s.debugAbandon slot)

end Sys2Proof.Machine
end

