-- ==== Sys2Proof/Machine/Sched.lean ====
section
/-! DEFINITION. The die scheduler between groups and contexts: saving and restoring groups (R247, R341, R342), slices and targets (R336,
R337), and spatial pre-emption (R341 to R343). -/

namespace Sys2Proof.Machine

open Sys2Proof

/-! Saving (R342) -/

/-- The owners of a queued matrix command's rows (R226), a thread of which has taken another name. -/
def MCmd.rename (c : MCmd) (r gen r' gen' : Nat) : MCmd :=
  { c with rows := c.rows.map fun x => if x.r = r ∧ x.gen = gen then { x with r := r', gen := gen' } else x }

/-- A thread takes another name: everything that names it follows. -/
def State.moveName (s : State) (r r' gen' : Nat) : State :=
  let nm := fun (x : Nat) => if x = r then r' else x
  let gen := ((s.thread? r).map (·.gen)).getD 0
  { s with
    threads := s.threads.map fun t => if t.r = r then { t with r := r', gen := gen' } else t
    groups := s.groups.map fun g =>
      { g with
        members := g.members.map fun m => (nm m.1, m.2), reserved := g.reserved.map fun m => (nm m.1, m.2)
        mq := g.mq.map (·.rename r gen r' gen'), drain := g.drain.map fun d => { d with cmd := d.cmd.rename r gen r' gen' }
        gbar := g.gbar.map fun ph => { ph with expected := ph.expected.map nm, arrived := ph.arrived.map nm, held := ph.held.map nm } }
    oplog := s.oplog.map fun e =>
      if e.r = r then { e with r := r', gen := gen', core := coreOfSlot r', part := partOfSlot r' } else e }

/-- The status of a saved thread: what was runnable waits for the restore, what was parked or halted is so still (R341). One that is parked at a
gather trace is woken, to reach it again. -/
def Status.atSave : Status → Status
  | .runnable | .issuing _ | .gather _ => .saved
  | x => x

/-- The name that a thread has while it is saved: past the slots, and with the slot it had as its remainder (log 41, DESIGN CHOICE). -/
def awayName (seq r : Nat) : Nat := Config.numSlots * (seq + 1) + r

/-- Saves one thread: its slot is free. It has not exited, so its tag entry stays live (R306); what the entry says of its home goes with it. -/
def State.saveThread (s : State) (r : Nat) : State :=
  let s := s.leaveTable r
  let s : State := { s with arrivals := s.arrivals.filter fun a => !a.arrived.contains r }
  let s := match (s.thread? r).map Thread.status with
    | some (Status.gather _) => s.traceThread r 4
    | _ => s
  let s := s.modThread r fun t => { t with status := t.status.atSave, stepping := false }
  let name := awayName s.seq r
  let s : State := { s with seq := s.seq + 1, tags := s.tags ++ ((s.tag? r).map fun e => { e with r := name }).toList }
  s.moveName r name (((s.thread? r).map (·.gen)).getD 0)

/-- The threads of a home group. -/
def State.homeThreads (s : State) (gid : Nat) : List Thread := s.threads.filter (·.homeGid == gid)

/-- Saves a group whole: its threads, uniforms, scratch, tiles and log entries stay as they are, its slots, units and bindings are free. -/
def State.saveGroup (s : State) (gid : Nat) : State :=
  ((s.homeThreads gid).foldl (fun (s : State) t => s.saveThread t.r) s).modGroup gid fun g =>
    { g with resident := false, blocks := [], regBlocks := [], idle := 0 }

/-- The matrix commands of a group run to completion. -/
def State.finishMatrix (s : State) (gid : Nat) : State :=
  s.runMatrix gid (((s.group? gid).map fun g => 2 * g.mq.length + 2).getD 0)

/-- LDX transfers that a predicate chooses complete. -/
def State.finishLdx (s : State) (p : LdxMove → Bool) : State := (s.ldxs.filter p).foldl State.ldxRun s

/-- Destinations that a thread's hinges have still to fill are filled (R170, R341). -/
def State.fillAll (s : State) (r : Nat) : State :=
  (((s.thread? r).map (·.hingeFills)).getD []).foldl (fun (s : State) _ => s.fillDest r) s

/-- What completes signals has found room in the mailboxes (R248). -/
def State.mailFits (s : State) : Bool :=
  (upFrom 0 Config.numDies).all fun d => decide ((s.mailbox.filter (·.die == d)).length ≤ Config.mailbox)

/-- An act whose signals find a mailbox full waits until there is room. -/
def State.ifRoom (s next : State) : State := if next.mailFits then next else s

/-! SWAP_OUT (R247) -/

/-- The barrier objects on which the members of a group wait. -/
def State.waitedBars (s : State) (g : Group) : List (Nat × Nat) :=
  (g.members.filterMap fun m => s.thread? m.1).filterMap fun t => match t.status with
    | .bwait k o _ => some (k, o)
    | _ => none

/-- The conditions of R247, which have held for T_swap; a coresident launch's groups are exempt (R340). -/
def State.swapReady (s : State) (g : Group) : Bool :=
  s.dispatching && !g.dissolved && !g.coresident && s.idles g &&
  ((s.ctx? g.ctx).map fun c => decide (c.par.tswap ≤ g.idle)).getD false && !(s.homeThreads g.gid).any fun t => s.committing t.r

/-- SWAP_OUT. -/
def State.swapOut (s : State) (gid : Nat) : State :=
  match s.group? gid with
  | none => s
  | some g =>
    if !s.swapReady g then s else
    let wake := s.waitedBars g
    let rs := (s.homeThreads gid).map (·.r)
    let t := ((rs.foldl State.fillAll s).finishMatrix gid).finishLdx fun x => x.gid == gid
    s.ifRoom (((rs.foldl State.flushThread t).saveGroup gid).modGroup gid fun g => { g with wake })
def execSwapOut (gid : Nat) (s : State) : Host.Outcome State Fault Refusal := .next (s.swapOut gid)

/-! Placement (R159, R160, R183, R338) -/

/-- Pairs without repeats, in order of first appearance. -/
def dedupPairs (l : List (Nat × Nat)) : List (Nat × Nat) := l.foldl (fun a x => if a.contains x then a else a ++ [x]) []

/-- The lane sets of some ranks and slots: set and slot block. -/
def laneSets (ranks slots : List Nat) : List (Nat × Nat) := dedupPairs ((ranks.zip slots).map fun x => (x.1 / Config.W, blockOfSlot x.2))

/-- No block of a thread that has exited is queued on a core: only then is the core handed to another group (R164). -/
def State.coreClear (s : State) (core : Nat) : Bool :=
  s.blocks.all fun b => b.core != core || ((s.thread? b.r).map fun t => b.stores.all (·.gen == t.gen)).getD false

/-- The slots are resident slots, different and free, and no core of them or of their home has blocks of a departed thread. -/
def State.slotsFree (s : State) (home : Nat) (slots : List Nat) : Bool :=
  distinct slots && s.coreClear home && slots.all fun r => decide (r < Config.numSlots) && (s.thread? r).isNone && s.coreClear (coreOfSlot r)

/-- No group has bound a slot block. -/
def State.unbound (s : State) (block : Nat) : Bool := !s.groups.any fun g => g.blocks.any (·.2 == block)

/-- Each lane set lies in one free slot block of its own. -/
def State.setsOk (s : State) (sets : List (Nat × Nat)) : Bool :=
  distinct (sets.map (·.1)) && distinct (sets.map (·.2)) &&
  sets.all fun x => s.unbound x.2 && s.threads.all fun t => blockOfSlot t.r != x.2

/-- The cores that hold threads of a context, or are home to a resident group of it. -/
def State.coresHeld (s : State) (ctx : Nat) : List Nat :=
  ((s.threads.filter fun t => t.ctx == ctx && !away t.r).map (fun t => coreOfSlot t.r) ++
    (s.groups.filter fun g => g.ctx == ctx && g.resident && !g.dissolved).map (·.home)).foldl (fun l c => setAdd c l) []

/-- The cores can hold what has been placed on them, and the context keeps to its core limit. -/
def State.coresFit (s : State) (ctx : Nat) (cores : List Nat) : Bool :=
  (cores.all fun c => decide (c < Config.numCores) && !(s.core c).gated && !s.stopping c ctx && (s.die (dieOfCore c)).powered &&
    decide (s.poolUsed c ≤ Config.poolUnits) && decide (s.uniformUsed c ≤ Config.uniformStore) &&
    [0, 1, 2, 3].all fun p => decide ((s.oplog.filter fun e => e.core == c && e.part == p).length ≤ Config.logEntries)) &&
  decide ((s.coresHeld ctx).length ≤ ((s.ctx? ctx).map (·.par.coreLimit)).getD 0)

/-- A resident slot receives a thread: its generation advances, and the race epoch where it wraps (R14, R304, R306). -/
def State.occupySlot (s : State) (ctx slot home : Nat) : State × Nat :=
  let gen := (((s.tag? slot).map (·.gen)).getD 0 + 1) % 32
  let e : TagEntry := { r := slot, gen, live := true, home, hchg := false, touched := false }
  let s : State := { s with tags := (s.tags.filter (·.r ≠ slot)) ++ [e] }
  (if gen = 0 then s.nextEpoch ctx else s, gen)

/-- The governor register of a cluster takes the lead of the context that is placed there (R245). -/
def State.setLead (s : State) (ctx core : Nat) : State :=
  match s.ctx? ctx with
  | some c => s.modCluster (clusterOfCore core) fun x => { x with lead := c.par.lead }
  | none => s

/-! GROUP_RESTORE (R27, R248, R336, R342) -/

/-- A restored thread has another tag: what the tag table says of its home comes along, its old entry is no live thread's, and the metadata of
its accesses name the new one, so that they stay its own (R306, R314; log 86, DEDUCED). -/
def State.moveTag (s : State) (name old slot new : Nat) : State :=
  let e := (s.tag? name).getD default
  let nm := fun (x : Nat) => if x = old then new else x
  { s with
    tags := (s.tags.filter (·.r ≠ name)).map fun x =>
      if x.r = slot then { x with hchg := e.hchg, touched := e.touched }
      else if tagNo x.r x.gen = old then { x with live := false } else x
    lines := s.lines.map fun l => { l with w := l.w.map fun w => { w with tag := nm w.tag }, rd := l.rd.map fun w => { w with tag := nm w.tag } } }

/-- A saved thread takes a slot; its logged loads that have not performed are issued again. -/
def State.restoreThread (s : State) (r slot : Nat) : State :=
  match s.thread? r with
  | none => s
  | some t =>
    let (s, gen) := s.occupySlot t.ctx slot t.home
    let s := (s.moveName r slot gen).moveTag r t.tag slot (tagNo slot gen)
    { s with oplog := s.oplog.map fun e => if e.r = slot && e.data.isNone && !e.cancelled then { e with walk := true, fault := none } else e }

/-- A restored thread goes on: to the PC table, or to its wait, whose condition may have come meanwhile. A BWAIT is woken by the restore (R266);
the wake record of a thread that was woken meanwhile is written first (R214). -/
def State.goOnRestored (s : State) (r : Nat) : State :=
  let s := if ((s.thread? r).map (·.woken)).getD false then (s.traceThread r 4).modThread r fun t => { t with woken := false } else s
  match (s.thread? r).map Thread.status with
  | some Status.saved => s.enterTable r
  | some (Status.bwait _ _ _) => s.unpark r
  | some Status.waiting => (s.waitvTry r).gbarResume r
  | some (Status.waitf _ _) => s.waitfCheck r
  | _ => s

/-- A swapped-out group is restored once a barrier object on which a member waited has flipped (R247); a pre-empted one at any time. -/
def State.restorable (s : State) (g : Group) : Bool :=
  !g.resident && !g.dissolved &&
  (g.wake.isEmpty || (s.homeThreads g.gid).any (fun t => match t.status with
    | .bwait _ _ _ => false
    | _ => true) || g.members.any fun m => !away m.1 && ((s.thread? m.1).map fun t => match t.status with
    | .bwait _ _ _ => false
    | _ => true).getD false)

/-- A group comes back at a placement; its threads go on once the whole placement stands. -/
def State.placeSaved (s : State) (g : Group) (at_ : Placement) : Option State :=
  let mine := g.members.filter fun m => ((s.thread? m.1).map fun t => t.homeGid == g.gid).getD false
  let sets := laneSets (mine.map (·.2)) at_.slots
  if at_.slots.length ≠ mine.length || !s.slotsFree at_.home at_.slots || !s.setsOk sets ||
      !(at_.slots.all fun r => clusterOfSlot r == clusterOfCore at_.home) then none
  else
    let s := s.modGroup g.gid fun g =>
      { g with resident := true, home := at_.home, blocks := sets, wake := [], idle := 0
               regBlocks := at_.slots.foldl (fun l r => setAdd (blockOfSlot r) l) [] }
    let s := (mine.zip at_.slots).foldl (fun (s : State) x => s.restoreThread x.1.1 x.2) s
    let s := s.setLead g.ctx at_.home
    if s.coresFit g.ctx (at_.home :: at_.slots.map coreOfSlot) then some s else none

/-- Saved threads of a context that have no home group come back at some slots (log 41, DESIGN CHOICE). -/
def State.placeLoose (s : State) (ctx : Nat) (slots : List Nat) : Option State :=
  let loose := (s.threads.filter fun t => t.ctx == ctx && t.m0.isNone && away t.r).map (·.r)
  if slots.isEmpty || loose.length < slots.length || !s.slotsFree (coreOfSlot (slots.headD 0)) slots ||
      !(slots.all fun r => s.unbound (blockOfSlot r)) then none
  else
    let s := (loose.zip slots).foldl (fun (s : State) x => s.restoreThread x.1 x.2) s
    if s.coresFit ctx (slots.map coreOfSlot) then some (slots.foldl State.goOnRestored s) else none

/-- While a coresident launch of a context waits until it fits, the first of them that started, nothing else of the context is placed (R340). -/
def State.heldBackFor (s : State) (ctx run : Nat) : Bool :=
  (s.runs.find? fun y => y.ctx == ctx && y.coresident && !y.ended && decide (y.created < y.nthr)).any (·.id != run)

/-- The groups that one restore brings back: one group, or every saved group of a coresident run (R340). -/
def State.restoreSet (s : State) (gs : List Group) : Bool :=
  gs.all (fun g => s.restorable g && !s.heldBackFor g.ctx g.run) && match gs with
  | [g] => !g.coresident || s.groups.all fun x => x.run != g.run || x.resident || x.dissolved || x.gid == g.gid
  | g :: _ => g.coresident && gs.all (·.run == g.run) && distinct (gs.map (·.gid)) &&
      s.groups.all fun x => x.run != g.run || x.resident || x.dissolved || gs.any (·.gid == x.gid)
  | [] => false

/-- The groups of a list come back at their placements, in one act. -/
def State.placeAll (s : State) : List (Group × Placement) → Option State
  | [] => some s
  | (g, at_) :: l => (s.placeSaved g at_).bind fun s => s.placeAll l

/-- GROUP_RESTORE: the mailboxed signals are applied first. A name with handle 0 stands for the threads of a context without a home group. -/
def State.restoreGroup (s : State) (places : List (Nat × Placement)) : State :=
  if !s.dispatching then s
  else match places with
  | [] => s
  | (gid, at_) :: rest =>
    if handleOf gid = 0 then
      if rest.isEmpty && !s.heldBackFor (ctxOfGid gid) (2 ^ 64) then (s.placeLoose (ctxOfGid gid) at_.slots).getD s else s
    else
      let x := places.foldl (fun (s : State) y => s.mailAll y.1) s
      let gs := places.filterMap fun y => (x.group? y.1).map fun g => (g, y.2)
      if gs.length = places.length && x.restoreSet (gs.map (·.1)) then
        ((x.placeAll gs).map fun u => (gs.flatMap (·.2.slots)).foldl State.goOnRestored u).getD s
      else s
def execGroupRestore (gids : List Nat) (places : List Placement) (s : State) : Host.Outcome State Fault Refusal :=
  .next (s.restoreGroup (gids.zip places))

/-! Slices (R337) -/

/-- A context has work that could be placed. -/
def State.hasWork (s : State) (ctx : Nat) : Bool :=
  s.graphs.any (fun g => g.ctx == ctx && g.nodes.any (·.state == .queued)) ||
  s.runs.any (fun x => x.ctx == ctx && !x.ended && decide (x.created < x.nthr)) ||
  s.groups.any (fun g => g.ctx == ctx && s.restorable g)

/-- Cores left over go to the contexts in their order, up to each one's limit. -/
def shareRest : Nat → List (Nat × Nat × Nat) → List (Nat × Nat)
  | _, [] => []
  | left, (ctx, n, cap) :: t =>
    let k := min left (cap - n)
    (ctx, n + k) :: shareRest (left - k) t

/-- The targets of a die's 32 cores, by context in creation order. -/
def State.targetsOf (s : State) : List (Nat × Nat) :=
  let cs := sortOn (fun (c : Context) => c.order) (s.contexts.filter fun c => s.hasWork c.id || s.groups.any fun g => g.ctx == c.id && g.resident)
  let sum := (cs.map (·.par.weight)).sum
  let first := cs.map fun c => (c.id, min (Config.coresPerDie * c.par.weight / max 1 sum / 4 * 4) (c.par.coreLimit / 8), c.par.coreLimit / 8)
  shareRest (Config.coresPerDie - (first.map (·.2.1)).sum) first

/-- Cycles in a microsecond (R6). -/
def cyclesPerMicro : Nat := 1400

/-- CLK less the pauses of dispatch, by which slice boundaries are postponed and which no overrun is charged for (R343, R363). -/
def State.dispatchTime (s : State) : Nat := s.clk.toNat - s.pkg.paused

/-- How many slice boundaries of a context have fallen due since its creation (R337). -/
def State.slicesDue (s : State) (c : Context) : Nat := (s.dispatchTime - c.created) / max 1 (c.par.slice * cyclesPerMicro)

/-- SLICE_BOUNDARY: a slice boundary of some context has fallen due on the die. -/
def State.slice (s : State) (die : Nat) : State :=
  if s.dispatching && decide (die < Config.numDies) &&
      s.contexts.any fun c => decide (assocD 0 (s.die die).slices c.id < s.slicesDue c) then
    s.modDie die fun d => { d with targets := s.targetsOf, slices := s.contexts.map fun c => (c.id, s.slicesDue c) }
  else s
def execSliceBoundary (die : Nat) (s : State) : Host.Outcome State Fault Refusal := .next (s.slice die)

/-! STOP_REQUEST (R341 to R343) -/

/-- The cores of a die that a context holds. -/
def State.heldOn (s : State) (die ctx : Nat) : List Nat := (s.coresHeld ctx).filter fun c => dieOfCore c == die

/-- The next slice boundary of a context on a die, in dispatch time (R337). -/
def State.nextBoundary (s : State) (die : Nat) (c : Context) : Nat :=
  c.created + (assocD 0 (s.die die).slices c.id + 1) * (c.par.slice * cyclesPerMicro)

/-- R337, R341, R343: the context holds more than its target while another is below its own with placeable work; the cores asked for are the
difference; and the request is sent the drain budget, with the overrun charged last, before the boundary (log 43, DESIGN CHOICE). -/
def State.stopReady (s : State) (die : Nat) (c : Context) (cores : List Nat) : Bool :=
  let d := s.die die
  let held := s.heldOn die c.id
  s.dispatching && distinct cores && !cores.isEmpty && cores.all held.contains &&
  d.targets.any (fun x => x.1 == c.id && x.2 + cores.length == held.length) &&
  d.targets.any (fun x => x.1 != c.id && decide ((s.heldOn die x.1).length < x.2) && s.hasWork x.1) &&
  decide (s.nextBoundary die c ≤ s.dispatchTime + c.par.drain * cyclesPerMicro + assocD 0 d.overrun c.id)

/-- The groups of a context with threads or pool units on some cores, and with them every group of a coresident run (R340, R342). -/
def State.stopGroups (s : State) (ctx : Nat) (cores : List Nat) : List Group :=
  let hit := s.groups.filter fun g => g.ctx == ctx && g.resident && !g.dissolved &&
    (cores.contains g.home || g.regBlocks.any (fun b => cores.contains (coreOfBlock b)) ||
     g.members.any fun m => cores.contains (coreOfSlot m.1) && ((s.thread? m.1).map fun t => t.homeGid == g.gid).getD false)
  let runs := (hit.filter (·.coresident)).map (·.run)
  s.groups.filter fun g => (hit.any (·.gid == g.gid)) || (g.resident && !g.dissolved && runs.contains g.run)

/-- A bundle is abandoned by all its lanes (R35). -/
def State.abandonBundle (s : State) (b : Bundle) : State := (b.lanes.foldl (fun (s : State) l => s.abandon b.p l.r) s).leaveBundle b.p

/-- The bundles of some threads in mid-trace are abandoned; lanes at commit finish it (R341). -/
def State.abandonAll (s : State) (rs : List Nat) : State :=
  s.bundles.foldl (fun (s : State) b => if b.lanes.any (fun l => rs.contains l.r) && !s.bundleCommits b.p then s.abandonBundle b else s) s

/-- A stop request is sent: from now on no bundle of the context is formed on the cores. -/
def State.stopBegin (s : State) (die : Nat) (c : Context) (cores : List Nat) : State :=
  let rs := (s.threads.filter fun t => t.ctx == c.id && cores.contains (coreOfSlot t.r)).map (·.r)
  (s.modDie die fun d => { d with stops := d.stops ++ [{ ctx := c.id, cores, boundary := s.nextBoundary die c }] }).abandonAll rs

/-- The threads of coresident runs among some groups that hold no group of their own: none of them issues while the groups are saved (R340). -/
def State.besideGroups (s : State) (gs : List Group) : List Nat :=
  let runs := (gs.filter (·.coresident)).map (·.run)
  (s.threads.filter fun t => t.m0.isNone && runs.contains t.run).map (·.r)

/-- The steps of R341, the save of R342 and the vacating of R343. It waits for the commits of affected threads. -/
def State.stopEnd (s : State) (die : Nat) (c : Context) (q : StopReq) : State :=
  let gs := s.stopGroups c.id q.cores
  let rs := (s.threads.filter fun t => gs.any (fun g => t.homeGid == g.gid) ||
    (t.ctx == c.id && t.m0.isNone && q.cores.contains (coreOfSlot t.r))).map (·.r)
  let also := s.besideGroups gs
  if (rs ++ also).any s.committing then s else
  let t := rs.foldl State.fillAll (s.abandonAll (rs ++ also))
  let t := gs.foldl (fun (s : State) g => s.finishMatrix g.gid) t
  let t := t.finishLdx fun x => gs.any (·.gid == x.gid) || (x.ctx == c.id && q.cores.contains x.core)
  let t := rs.foldl State.flushThread t
  let t := gs.foldl (fun (s : State) g => s.saveGroup g.gid) t
  let t := (rs.filter fun r => ((t.thread? r).map (·.m0.isNone)).getD false).foldl State.saveThread t
  let late := s.dispatchTime - q.boundary
  let t := t.modDie die fun d => { d with stops := d.stops.filter (· ≠ q), overrun := assocSet d.overrun c.id late }
  s.ifRoom (if c.par.drain * cyclesPerMicro < late then t.event c.id 11 0xFFFFFFFF late 0 else t)

/-- STOP_REQUEST: the request, and the end of one that is under way for the same cores. -/
def State.stop (s : State) (die ctx : Nat) (cores : List Nat) : State :=
  match s.ctx? ctx with
  | none => s
  | some c =>
    match (s.die die).stops.find? (·.ctx == ctx) with
    | some q => if s.dispatching && q.cores == cores then s.stopEnd die c q else s
    | none => if s.stopReady die c cores then s.stopBegin die c cores else s
def execStopRequest (die ctx : Nat) (cores : List Nat) (s : State) : Host.Outcome State Fault Refusal := .next (s.stop die ctx cores)

end Sys2Proof.Machine
end

