-- ==== Sys2Proof/Machine/Loader.lean ====
section
/-! DEFINITION. Graphs and their node runs: submission and loading (R328 to R331, R344), translation (R349, R350), the start of a node run
(R334, R345), thread creation (R69, R338), the end of a run and what follows from its CIR (R339, R345 to R348); and the memory's own
upkeep (R290, R292). -/

namespace Sys2Proof.Machine

open Sys2Proof

/-! Context memory as system software and the loader reach it -/

/-- Edits of page tables lie in device memory that belongs to no context (R283: threads cannot reach the tables). -/
def State.editsOk (s : State) (edits : List TableEdit) : Bool :=
  edits.all fun e => e.1 % 8 == 0 && decide (e.1 + 8 ≤ Config.devBytes) && assocD (2 ^ 64) s.owners (e.1 / 65536) == 2 ^ 64

/-- A context's cached translations are dropped on every die (R288). -/
def State.dropTlbs (s : State) (ctx : Nat) : State :=
  { s with
    cores := s.cores.map fun c => { c with tlb := c.tlb.filter (·.ctx ≠ ctx) }
    clusters := s.clusters.map fun c => { c with tlb := c.tlb.filter (·.ctx ≠ ctx) } }

/-- The leaves of a page table, each with the lowest address bit that it translates, from a table address (R283 to R285). -/
def State.leavesFrom (s : State) : List (Nat × Nat × Nat) → Nat → List (Nat × Nat)
  | [], _ => []
  | (level, shift, n) :: t, table => (upFrom 0 (2 ^ n)).flatMap fun i =>
    let e := s.dev (table + 8 * i) 8
    if badEntry e level shift then [] else if bit e 1 then [(e, shift)] else s.leavesFrom t (bits e 8 48 * 256)

/-- The device frames that a context's page table maps, each with whether it is held encrypted (R284, R291). -/
def State.mappedFrames (s : State) (ctx : Nat) : List (Nat × Bool) :=
  match s.ctx? ctx with
  | none => []
  | some c => ((s.leavesFrom walkLevels c.par.root).filter fun x => bits x.1 14 2 == 0).flatMap fun x =>
      (upFrom (bits x.1 16 40) (2 ^ (x.2 - 16))).map fun f => (f, bit x.1 13)

/-- The places of 8 KiB in frames of a context that serve nothing else: it owns them, and its page table, its shadow pool, a run's shadows and its
submission page do not have them. -/
def State.encRoom (s : State) (ctx : Nat) (mapped : List (Nat × Bool)) : List Nat :=
  match s.ctx? ctx with
  | none => []
  | some c =>
    let used := mapped.map (·.1) ++ c.pool ++ (s.runs.filter (·.ctx == ctx)).flatMap (fun x => x.shadows.map (·.2.2)) ++ [c.par.subPage / 65536]
    ((s.owners.filter fun o => o.2 == ctx && !used.contains o.1).map (·.1)).flatMap fun f => (upFrom 0 8).map fun k => 65536 * f + 8192 * k

/-- The space for the counters and tags of encrypted pages is taken from the context's memory as the pages are mapped, 512 bytes for each 4 KiB, and
given up with the mapping (R291; log 19, DESIGN CHOICE). -/
def State.takeEnc (s : State) (ctx : Nat) : State :=
  let mapped := s.mappedFrames ctx
  let room := s.encRoom ctx mapped
  let enc := (mapped.filter (·.2)).map (·.1)
  let kept := s.encSpaces.filter fun x => x.ctx != ctx || (enc.contains x.frame && room.contains x.space)
  let free := room.filter fun a => !kept.any (·.space == a)
  let new := (enc.filter fun f => !kept.any (·.frame == f)).eraseDups
  { s with
    encSpaces := kept ++ (new.zip free).map fun x => { ctx, frame := x.1, space := x.2 }
    encPages := s.encPages.filter fun e => e.ctx != ctx || enc.contains (e.page / 16) }

/-- An edit that maps encrypted memory (R284). -/
def encEdit (e : TableEdit) : Bool := bit e.2.toNat 0 && bit e.2.toNat 1 && bit e.2.toNat 13

/-- In `u`, which edits make of `s`, every encrypted frame of a context has its space. -/
def State.encFits (s u : State) (ctx : Nat) (edits : List TableEdit) : Bool :=
  (edits.all (!encEdit ·) && s.encSpaces.all (·.ctx ≠ ctx)) ||
    ((u.mappedFrames ctx).filter (·.2)).all fun f => u.encSpaces.any fun x => x.ctx == ctx && x.frame == f.1

/-- The edits are made; no cached translation of the context is left, nor a walk's answer under the old table. -/
def State.applyEdits (s : State) (ctx : Nat) (edits : List TableEdit) : State :=
  let s := State.dropTlbs { s with
    mem := edits.foldl (fun (m : Memory) e => m.writeN e.1 (leBytes 8 e.2.toNat)) s.mem
    diesS := s.diesS.map fun d => { d with bad := d.bad.filter (·.1 ≠ ctx) } } ctx
  if edits.any encEdit || s.encSpaces.any (·.ctx == ctx) then s.takeEnc ctx else s

/-- The entries that a walk of an address reads, from a table address (R283). -/
def State.walkPath (s : State) (va : Nat) : List (Nat × Nat × Nat) → Nat → List Nat
  | [], _ => []
  | (level, shift, n) :: t, table =>
    let at_ := table + 8 * bits va shift n
    let e := s.dev at_ 8
    at_ :: if badEntry e level shift || bit e 1 then [] else s.walkPath va t (bits e 8 48 * 256)
def State.pathOf (s : State) (ctx va : Nat) : List Nat := ((s.ctx? ctx).map fun c => s.walkPath va walkLevels c.par.root).getD []

/-- The loader maps addresses that are not mapped, and changes the mapping of the given ones alone. -/
def State.addsOnly (s : State) (ctx : Nat) (vas : List Nat) (edits : List TableEdit) : Bool :=
  let may := vas.flatMap (s.pathOf ctx)
  edits.all fun e => !bit (s.dev e.1 8) 0 || may.contains e.1

/-! Changing a mapping (R288) -/

/-- No bundle of a context holds a translated access: the invalidation is acknowledged only then. -/
def State.quiet (s : State) (ctx : Nat) : Bool :=
  s.bundles.all fun b => b.lanes.all fun l => l.ctx != ctx ||
    (l.pond.isEmpty && l.posted.isEmpty && l.hinge.isNone && l.notes.isEmpty && l.stage == 0)

/-- Accesses translated under the old mapping perform; loads that have not are translated again. -/
def State.settleOld (s : State) (ctx : Nat) : State :=
  let s := (s.blocks.filter fun b => b.stores.any (·.ctx == ctx)).foldl (fun (s : State) b => s.drainThread b.r) s
  let s := (s.flushOut fun o => o.st.ctx == ctx).finishLdx fun x => x.ctx == ctx
  { s with oplog := s.oplog.map fun e => if e.ctx = ctx && e.data.isNone && !e.cancelled then { e with walk := true } else e }

/-- A WAITV under the new mapping; one that no longer translates keeps its place (log 50, DEDUCED). -/
def State.newPlace (s : State) (t : Thread) : Wait → Wait
  | .waitv w =>
    let va := if windowOf w.va = some .own then s.privateAt t (w.va - privateBase) else w.va
    match (if windowOf va = some .global then s.walk t.ctx va else none) with
    | some (leaf, shift) => match s.leafXlat t.ctx va leaf shift false with
      | (_, .ok p _) => .waitv { w with place := s.runView t.run p }
      | _ => .waitv w
    | none => .waitv w
  | x => x

/-- The waits of a thread, those set aside included, watch the places of the new mapping. -/
def State.rewait (s : State) (t : Thread) : State :=
  let up := s.newPlace t
  (s.modThread t.r fun t =>
    { t with wait := t.wait.map up, more := t.more.map up, trap := t.trap.map fun x => { x with waits := x.waits.map up } }).waitvTry t.r

/-- The waits of a context's threads after an invalidation. -/
def State.rewaitAll (s : State) (ctx : Nat) : State := (s.threads.filter (·.ctx == ctx)).foldl (fun (s : State) t => s.rewait t) s

/-- Every frame of a range belongs to a context. -/
def State.ownsFrames (s : State) (ctx f n : Nat) : Bool :=
  (s.owners.filter fun o => o.2 == ctx && decide (f ≤ o.1) && decide (o.1 < f + n)).length == n

/-- Global addresses from `lo` below `hi` are mapped to device memory of a context, leaf by leaf; the number bounds the leaves. -/
def State.mappedTo (s : State) (ctx hi : Nat) (write : Bool) : Nat → Nat → Bool
  | 0, lo => decide (hi ≤ lo)
  | k + 1, lo =>
    if hi ≤ lo then true else
    match s.walk ctx lo with
    | none => false
    | some (leaf, shift) =>
      let next := (lo / 2 ^ shift + 1) * 2 ^ shift
      let a := bits leaf 16 40 * 2 ^ 16 + lo % 2 ^ shift
      bits leaf 14 2 == 0 && (!write || bit leaf 8) &&
        s.ownsFrames ctx (a / 65536) ((a % 65536 + (min hi next - lo) + 65535) / 65536) && s.mappedTo ctx hi write k next

/-- A range is mapped to device memory of the context; `write`: writable. -/
def State.mappedRange (s : State) (ctx lo n : Nat) (write : Bool) : Bool :=
  decide (lo + n ≤ 2 ^ 56) && s.mappedTo ctx (lo + n) write (n / 65536 + 2) lo

/-- Writes context memory page by page, whether the mapping is writable or not; the first number bounds the pages. -/
def State.putCtx (s : State) (ctx : Nat) : Nat → Nat → List Byte → State
  | 0, _, _ => s
  | k + 1, va, l =>
    if l.isEmpty then s else
    let m := 65536 - va % 65536
    let s := match s.devPlace ctx va false with
      | some p => s.store none p (l.take m)
      | none => s
    s.putCtx ctx k (va + m) (l.drop m)

/-- The place of an address in device or host memory, for the loader's reads. -/
def State.farPlace (s : State) (ctx va : Nat) : Option Place :=
  let host := fun (a : Nat) => (s.ctx? ctx).bind fun c =>
    if s.hostPages.any fun h => h.vf == c.par.vf && h.page == a / 4096 then some (Place.host c.par.vf a) else none
  match windowOf va with
  | some .host => host (va - hostBase)
  | some .global => match s.walk ctx va with
    | some (leaf, shift) => if bits leaf 14 2 = 1 then host (bits leaf 16 40 * 2 ^ 16 + va % 2 ^ shift) else s.devPlace ctx va false
    | none => none
  | _ => none

/-- Bytes of device or host memory; none where some cannot be read. The first number bounds the 4 KiB pages. -/
def State.farBytes (s : State) (ctx : Nat) : Nat → Nat → Nat → Option (List Byte)
  | 0, _, n => if n = 0 then some [] else none
  | k + 1, va, n =>
    if n = 0 then some [] else
    let m := min n (4096 - va % 4096)
    match s.farPlace ctx va, s.farBytes ctx k (va + m) (n - m) with
    | some p, some l => some (s.readAt p m ++ l)
    | _, _ => none

/-- The first address of a range that cannot be read; pages as in `farBytes`. -/
def State.farMiss (s : State) (ctx : Nat) : Nat → Nat → Nat → Option Nat
  | 0, _, _ => none
  | k + 1, va, n =>
    if n = 0 then none else
    let m := min n (4096 - va % 4096)
    if (s.farPlace ctx va).isNone then some va else s.farMiss ctx k (va + m) (n - m)

/-- The host address behind an address that reaches host memory. -/
def State.hostBehind (s : State) (ctx va : Nat) : Option Nat :=
  match windowOf va with
  | some .host => some (va - hostBase)
  | some .global => (s.walk ctx va).bind fun x => if bits x.1 14 2 = 1 then some (bits x.1 16 40 * 2 ^ 16 + va % 2 ^ x.2) else none
  | _ => none

/-- The loader meets a range that it cannot read: host memory is asked for through PRI (R282); false where it can never be read. -/
def State.farAsk (s : State) (c : Context) (pages va n : Nat) : State × Bool :=
  match (s.farMiss c.id pages va n).bind (s.hostBehind c.id) with
  | none => (s, false)
  | some a => match s.hostAsk c.par.vf a false (2 + 4 * c.id) with
    | (s, .fault _ _) => (s, false)
    | (s, _) => (s, true)

/-! The submission page (R331) -/

/-- A field of a submission entry. -/
def State.subRead (s : State) (c : Context) (entry off n : Nat) : Nat := s.dev (c.par.subPage + 64 * entry + off) n

/-- Writes a field of a submission entry. -/
def State.subWrite (s : State) (c : Context) (entry off n v : Nat) : State :=
  let p := Place.dev (c.par.subPage + 64 * entry + off)
  (s.store none p (leBytes n v)).wakeLines p n

/-- A change of STATE, with the STATUS that goes with it, followed by a PUBLISH of VERSION; vector 1 of the VF fires (R331, R371). -/
def State.subState (s : State) (c : Context) (entry state status : Nat) : State :=
  let s := (s.subWrite c entry 4 4 status).subWrite c entry 0 4 state
  (s.subWrite c 0 0 8 ((s.subRead c 0 0 8 + 1) % 2 ^ 64)).modVf c.par.vf fun v => { v with msi1 := v.msi1 + 1 }

/-- A request ends refused or failed: STATUS, FAILNODE, STATE 4. -/
def State.subFail (s : State) (c : Context) (entry status : Nat) (node : Option Nat) : State :=
  let s := match node with
    | some n => s.subWrite c entry 28 4 n
    | none => s
  s.subState c entry 4 status

/-! Shadows (R344, R345) -/

/-- A node's regions that get a shadow: written, and also read by it or marked keep. -/
def shadowed (plan : List Region) (node : Nat) : List Region :=
  plan.filter fun m => m.node == node && bit m.use 1 && (bit m.use 0 || bit m.use 2)

/-- The 64 KiB pages of a region. -/
def Region.pages (m : Region) : List Nat := upFrom (m.base / 65536) (m.len / 65536)

/-- Shadow pages that the nodes of a plan take. -/
def planPages (plan : List Region) (nodes : Nat) : Nat := ((upFrom 0 nodes).map fun n => ((shadowed plan n).map fun m => m.len / 65536).sum).sum

/-- Shadow pages that a context's pool still has for a graph. -/
def State.poolPages (s : State) (c : Context) : Nat :=
  c.par.shadowPool / 65536 - c.retired - ((s.graphs.filter (·.ctx == c.id)).map fun g => planPages g.plan g.nodes.length).sum

/-- A device frame that holds a poisoned line. -/
def State.frameBad (s : State) (f : Nat) : Bool := s.poison.any fun p => match p with
  | .dev a => a / 65536 == f
  | _ => false

/-- A frame is retired: it belongs to no context any longer. -/
def State.retire (s : State) (ctx f : Nat) : State :=
  { (s.modCtx ctx fun c => { c with retired := c.retired + 1 }) with owners := s.owners.filter (·.1 ≠ f) }

/-- Frames that shadow nothing any longer: one that holds a poisoned line is retired, every other returns to the pool (R345, R346). -/
def State.returnFrames (s : State) (ctx : Nat) (fs : List Nat) : State :=
  fs.foldl (fun (s : State) f => if s.frameBad f then s.retire ctx f else s.modCtx ctx fun c => { c with pool := c.pool ++ [f] }) s

/-- The loader copies one 64 KiB frame for a run: a poisoned line is copied as all-ones and sets POISON in the run's CIR. -/
def State.copyFrame (s : State) (run src dst : Nat) : State :=
  let lo := src * 65536
  let dest := dst * 65536
  let cells := s.mem.filter fun c => decide (lo ≤ c.1) && decide (c.1 < lo + 65536)
  let mem := cells.foldl (fun (m : Memory) c => m.write (c.1 - lo + dest) c.2) (s.mem.clear dest 65536)
  let bad := s.poison.filterMap fun p => match p with
    | .dev a => if a / 65536 = src then some (a - lo + dest) else none
    | _ => none
  let mem := bad.foldl (fun (m : Memory) a => m.writeN a (List.replicate 64 0xFF)) mem
  State.notePoison
    { s with mem, poison := s.poison.filter fun p => match p with
        | .dev a => a / 65536 ≠ dst
        | _ => true } run !bad.isEmpty

/-! Ending runs and graphs (R346, R348) -/

/-- The stores that a run's threads have committed drain and perform. -/
def State.flushRun (s : State) (run : Nat) : State :=
  let rs := (s.blocks.filter fun b => b.stores.any (·.run == run)).map (·.r)
  (rs.foldl (fun (s : State) r => s.drainThread r) s).flushOut fun o => o.st.run == run

/-- A running run is stopped as R341 stops cores, without being saved. -/
def State.stopRun (s : State) (run : Nat) : State :=
  let rs := (s.threads.filter (·.run == run)).map (·.r)
  let s := s.bundles.foldl (fun (s : State) b => if b.lanes.any (fun l => rs.contains l.r) then s.abandonBundle b else s) s
  let s := rs.foldl State.fillAll s
  let s := (s.groups.filter fun g => g.mq.any (·.run == run) || (g.drain.map fun d => d.cmd.run == run).getD false).foldl
    (fun (s : State) g => s.finishMatrix g.gid) s
  ((s.finishLdx fun x => x.run == run).flushRun run).endRun run

/-- Bytes that the instance of a data section takes: whole pages (R220). -/
def instanceBytes (size : Nat) : Nat := (size + 65535) / 65536 * 65536

/-- The instances of a graph's data sections: address and bytes (R334). -/
def Graph.instances (g : Graph) : List (Nat × Nat) :=
  g.nodes.filterMap fun n => (n.data.filter fun _ => n.kd.dataSize != 0).map fun d => (d, n.kd.dataSize)

/-- An instance that stays for the host: the memory plan names it, with keep set (R334). -/
def Graph.keeps (g : Graph) (x : Nat × Nat) : Bool :=
  g.plan.any fun m => bit m.use 2 && decide (m.base ≤ x.1) && decide (x.1 + x.2 ≤ m.base + m.len)

/-- The pages of an instance are unmapped: its leaf entries become empty. -/
def State.unmap (s : State) (ctx : Nat) (x : Nat × Nat) : State :=
  s.applyEdits ctx ((upFrom 0 (instanceBytes x.2 / 65536)).filterMap fun i => (s.pathOf ctx (x.1 + 65536 * i)).getLast?.map fun a => (a, 0))

/-- A graph has ended: its instances are freed, but for those that the plan keeps (R334, R288; log 88, DEDUCED). -/
def State.freeInstances (s : State) (g : Graph) : State :=
  let gone := g.instances.filter (!g.keeps ·)
  let s := s.modCtx g.ctx fun c => { c with kept := c.kept ++ g.instances.filter g.keeps }
  if gone.isEmpty then s else (gone.foldl (fun (s : State) x => s.unmap g.ctx x) (s.settleOld g.ctx)).rewaitAll g.ctx

/-- GRAPH_FAIL (R348): the running nodes are stopped, their shadows discarded, and the request ends with STATE 4. `arg`: the code that the
event carries. -/
def State.graphFail (s : State) (graph status node arg : Nat) : State :=
  match s.graph? graph with
  | none => s
  | some g =>
    let runs := s.runs.filter fun x => x.graph == graph && g.nodes.any fun n => n.idx == x.node && n.state == .running
    let s := runs.foldl (fun (s : State) x => (s.stopRun x.id).returnFrames x.ctx (x.shadows.map (·.2.2))) s
    let s := s.freeInstances g
    let s : State := { s with graphs := s.graphs.filter (·.id ≠ graph), runs := s.runs.filter (·.graph ≠ graph) }
    match s.ctx? g.ctx with
    | none => s
    | some c => (s.subFail c g.entry status (some node)).event g.ctx 4 node arg g.entry

/-- Nodes whose counters have reached zero enter their queues; one that finds its queue full is refused, which fails the graph (R333,
R335, R348). -/
def State.release (s : State) (graph : Nat) (nodes : List Nat) : State :=
  nodes.foldl (fun (s : State) idx =>
    match (s.graph? graph).bind fun g => (g.nodes.find? (·.idx == idx)).map fun n => (g, n) with
    | none => s
    | some (g, n) =>
      if n.state ≠ .blocked ∨ n.deps ≠ 0 then s
      else if Config.queueNodes ≤ s.queueLength g.ctx n.info.queue then s.graphFail graph 0x203 idx 0x104
      else s.enqueue graph idx) s

/-- A graph whose every node is done: STATE 3, its event, and nothing of it is left (R331, R332, R334). -/
def State.graphDone (s : State) (graph : Nat) : State :=
  match s.graph? graph with
  | none => s
  | some g =>
    if !g.nodes.all (·.state == .done) then s else
    let s := s.freeInstances g
    let s : State := { s with graphs := s.graphs.filter (·.id ≠ graph), runs := s.runs.filter (·.graph ≠ graph) }
    match s.ctx? g.ctx with
    | none => s
    | some c => (s.subState c g.entry 3 0).event g.ctx 3 0xFFFFFFFF 0 g.entry

/-! SUBMISSION (R328 to R331, R344) -/

/-- A loaded graph of an image (R328, R335). Each kernel's patch points take their bytes of the patch block in the kernels' order
(log 44, DEDUCED). -/
def graphOf (id ctx entry base : Nat) (img : List Byte) (patch qbase : Nat) : Graph :=
  let ks := imgKernels img
  let edges := imgEdges img
  let sizes := ks.map fun k => (k.patches.map (·.2)).sum
  let ns := imgNodes img
  let mk := fun (x : NodeRec × Nat) =>
    let k := ks.getD x.1.kernel default
    { idx := x.2, img := id, info := { x.1 with queue := (x.1.queue + qbase) % 8 }, kd := k,
      deps := (edges.filter (·.2 == x.2)).length, succs := (edges.filter (·.1 == x.2)).map (·.2), state := .blocked, retry := 0, parent := none,
      doneAddr := 0, psize := 65536, patch := if patch = 0 then 0 else patch + (sizes.take x.1.kernel).sum, order := 0, data := none : Node }
  { id, ctx, entry, base, size := img.length, nodes := (ns.zip (upFrom 0 ns.length)).map mk, plan := imgPlan img, translated := [] }

/-- The first node of a graph that R333 refuses, with the code. -/
def State.refusedNode (s : State) (ctx : Nat) (g : Graph) : Option (Nat × Nat) :=
  g.nodes.findSome? fun n =>
    match s.launchStatus ctx n.kd n.info.threads n.info.group n.info.flags 8 with
    | 0 => none
    | code => some (n.idx, code)

/-- The instances of a context's data sections: address and size. -/
def State.instances (s : State) (ctx : Nat) : List (Nat × Nat) :=
  ((s.graphs.filter (·.ctx == ctx)).flatMap Graph.instances) ++ ((s.ctx? ctx).map (·.kept)).getD []

/-- The 64 KiB behind an instance of a context's data section are not mapped (R220). -/
def State.guarded (s : State) (ctx : Nat) (x : Nat × Nat) : Bool := (s.walk ctx (x.1 + instanceBytes x.2)).isNone

/-- `u`, which the loader makes of `s` for a context, leaves the 64 KiB behind every instance of its data sections unmapped, and maps none behind
another context's (R220). -/
def State.guardsKept (s u : State) (ctx : Nat) : Bool :=
  s.contexts.all fun c => (s.instances c.id).all fun x => u.guarded c.id x || (c.id != ctx && !s.guarded c.id x)

/-- GRAPH_LOAD of an image whose bytes are at hand. -/
def State.loadGraph (s : State) (c : Context) (entry base : Nat) (edits : List TableEdit) (img : List Byte) : State :=
  let t := s.subState c entry 2 0
  if !imgOk img then t.subFail c entry 0x101 none else
  let id := s.seq
  let g := graphOf id c.id entry base img (s.subRead c entry 16 8) (s.subRead c entry 24 4)
  if s.poolPages c < planPages g.plan g.nodes.length then t.subFail c entry 0x102 none
  else match s.refusedNode c.id g with
    | some (n, code) => (t.subFail c entry 0x203 (some n)).event c.id 4 n code entry
    | none =>
      let u := t.applyEdits c.id edits
      if base % 64 ≠ 0 || !s.editsOk edits || !s.addsOnly c.id [] edits || !s.guardsKept u c.id || !s.encFits u c.id edits || !u.mappedRange c.id base img.length false ||
          (upFrom (base / 65536) ((base % 65536 + img.length + 65535) / 65536)).any (fun p => (u.devPlace c.id (65536 * p) true).isSome) ||
          s.graphs.any (fun x => x.ctx == c.id && decide (x.base < base + img.length) && decide (base < x.base + x.size)) then s
      else
        let u := u.putCtx c.id (img.length / 65536 + 2) base img
        let u : State := { u with seq := u.seq + 1, graphs := u.graphs ++ [g] }
        (u.release id (g.nodes.map (·.idx))).graphDone id

/-- SUBMISSION: entries are acted on in ascending order; one whose image lies in host memory that the host has still to present waits; an
image that is not aligned or cannot be read is refused. -/
def State.submit (s : State) (ctx entry base : Nat) (edits : List TableEdit) : State :=
  match s.ctx? ctx with
  | none => s
  | some c =>
    if !s.dispatching || (upFrom 1 63).find? (fun e => s.subRead c e 0 4 == 1) != some entry then s else
    let at_ := s.subRead c entry 8 8
    if at_ % 64 ≠ 0 then (s.subState c entry 2 0).subFail c entry 0x101 none else
    let unread := fun (pages n : Nat) => match s.farAsk c pages at_ n with
      | (t, true) => t
      | (t, false) => (t.subState c entry 2 0).subFail c entry 0x101 none
    match s.farBytes ctx 2 at_ 16 with
    | none => unread 2 16
    | some h =>
      let size := imgNum h 8 8
      if imgNum h 0 4 ≠ 0x4247434B then (s.subState c entry 2 0).subFail c entry 0x101 none else
      match s.farBytes ctx (size / 4096 + 2) at_ size with
      | none => unread (size / 4096 + 2) size
      | some img => s.loadGraph c entry base edits img
def execSubmission (ctx entry base : Nat) (edits : List TableEdit) (s : State) : Host.Outcome State Fault Refusal :=
  .next (s.submit ctx entry base edits)

/-- BREUZ_TRANSLATION (R349, R350): a kernel of a loaded graph without native code gets its translation, whose traces memory holds at the
address (log 45, DESIGN CHOICE). -/
def State.translate (s : State) (ctx graph kernel code : Nat) : State :=
  match s.graph? graph with
  | none => s
  | some g =>
    if s.dispatching && g.ctx == ctx && decide (kernel < (imgKernels (s.graphImage g)).length) && hasBreuz (s.graphImage g) kernel && (nativeCode (s.graphImage g) kernel).isNone &&
        !g.translated.any (·.1 == kernel) && code % 8 == 0 && code != 0 && s.mappedRange ctx code 8 false then
      s.modGraph graph fun g => { g with translated := assocSet g.translated kernel code }
    else s
def execBreuzTranslation (ctx graph kernel code : Nat) (s : State) : Host.Outcome State Fault Refusal :=
  .next (s.translate ctx graph kernel code)

/-! NODE_START (R301, R304, R325, R334, R345) -/

/-- A pending RACE change takes effect (R301). -/
def State.raceTakes (s : State) (ctx : Nat) : State :=
  match (s.ctx? ctx).bind (·.raceNext) with
  | some (mode, ring, pages) =>
    (s.modCtx ctx fun c =>
      { c with racectl := .ofNat 32 mode, raceRing := ring, shadowPages := pages, shadowMap := c.shadowMap.drop (c.shadowMap.length - pages),
               raceNext := none }).writeRing ctx ring
  | none => s

/-- Bytes with some of them replaced. -/
def splice (l : List Byte) (off : Nat) (b : List Byte) : List Byte := l.take off ++ b ++ l.drop (off + b.length)

/-- The bytes of an instance of a data section: the image, the patch block in its points, the descriptor addresses (R75, R334). -/
def State.dataBytes (s : State) (g : Graph) (n : Node) : Option (List Byte) :=
  let home := (s.graph? n.img).getD g
  let img := s.graphImage home
  let sec := (img.drop n.kd.dataOff).take n.kd.dataSize
  let total := (n.kd.patches.map (·.2)).sum
  match (if n.patch = 0 then some [] else s.farBytes g.ctx (total / 4096 + 2) n.patch total) with
  | none => none
  | some blk =>
    let (sec, _) := n.kd.patches.foldl (fun (x : List Byte × List Byte) p => (splice x.1 p.1 (x.2.take p.2), x.2.drop p.2)) (sec, blk)
    some (n.kd.kdescs.foldl (fun l k => splice l k.1 (leBytes 8 (home.base + (imgRecords img 1 64).getD k.2 0))) sec)

/-- The pages that a node shadows, with the frames that hold them. -/
def State.shadowList (s : State) (g : Graph) (node : Nat) : List (Nat × Nat) :=
  ((shadowed g.plan node).flatMap Region.pages).filterMap fun p => match s.devPlace g.ctx (65536 * p) false with
    | some (.dev a) => some (p, a / 65536)
    | _ => none

/-- A data section's instance stands as R220 requires: whole 64 KiB pages mapped writable, the 64 KiB of the address space after them unmapped, no other
instance in them. -/
def State.dataPlaced (s : State) (ctx addr size : Nat) : Bool :=
  if size = 0 then addr == 0
  else
    let n := instanceBytes size
    addr % 65536 == 0 && decide (addr + n < 2 ^ 56) && s.mappedRange ctx addr n true &&
    ((upFrom 0 (n / 65536)).all fun i => (s.walk ctx (addr + 65536 * i)).any (·.2 == 16)) && s.guarded ctx (addr, size) &&
    (s.instances ctx).all fun x => decide (addr + n ≤ x.1) || decide (x.1 + instanceBytes x.2 ≤ addr)

/-- A saved group of a context has runnable threads: it comes before any group of a node that has not started (R336). -/
def State.savedFirst (s : State) (ctx : Nat) : Bool :=
  s.groups.any fun x => x.ctx == ctx && s.restorable x && (s.homeThreads x.gid).any (·.status == .saved)

/-- A node may start once it is first in its queue: no saved group waits, its code is known, and the pool has frames for its shadows. -/
def State.startable (s : State) (g : Graph) (n : Node) : Bool :=
  n.state == .queued && (s.graph? n.img).isSome && s.queueHead g n && !s.savedFirst g.ctx &&
  s.codeAddr ((s.graph? n.img).getD g) n.info.kernel != 0 &&
  decide ((s.shadowList g n.idx).length ≤ (((s.ctx? g.ctx).map (·.pool)).getD []).length)

/-- A node may start with some frames of the shadow pool (R344). -/
def State.startReady (s : State) (g : Graph) (n : Node) (frames : List Nat) : Bool :=
  s.dispatching && s.startable g n && frames.length == (s.shadowList g n.idx).length && distinct frames &&
  frames.all (((s.ctx? g.ctx).map (·.pool)).getD []).contains

/-- NODE_START. -/
def State.startNode (s : State) (run dataAddr : Nat) (frames : List Nat) (edits : List TableEdit) : State :=
  match (s.graph? (run / 2 ^ 32)).bind fun g => (g.nodes.find? (·.idx == run % 2 ^ 32)).map fun n => (g, n) with
  | none => s
  | some (g, n) =>
    if !s.startReady g n frames || !s.editsOk edits || !s.addsOnly g.ctx [] edits || !s.guardsKept (s.applyEdits g.ctx edits) g.ctx ||
        !s.encFits (s.applyEdits g.ctx edits) g.ctx edits then s else
    match s.dataBytes g n with
    | none => match s.ctx? g.ctx with
      | some c => (s.farAsk c ((n.kd.patches.map (·.2)).sum / 4096 + 2) n.patch (n.kd.patches.map (·.2)).sum).1
      | none => s
    | some data =>
      let pages := s.shadowList g n.idx
      let u := (s.applyEdits g.ctx edits).modGraph g.id fun h =>
        { h with nodes := h.nodes.map fun m => if m.idx = n.idx then { m with state := .running, data := some dataAddr } else m }
      let u : State := ({ u with runs := u.runs.filter (·.id ≠ run) } : State).raceTakes g.ctx
      let u := u.modCtx g.ctx fun c => { c with pool := c.pool.filter (!frames.contains ·) }
      if !(match n.data with
        | some a => a == dataAddr
        | none => (s.applyEdits g.ctx edits).dataPlaced g.ctx dataAddr n.kd.dataSize) then s else
      let u := if n.data.isSome || n.kd.dataSize = 0 then u else u.putCtx g.ctx (n.kd.dataSize / 65536 + 2) dataAddr data
      let x : Run :=
        { id := run, ctx := g.ctx, graph := g.id, node := n.idx, cir := .ofNat 32 (n.retry * 64), kd := n.kd,
          entry := s.codeAddr ((s.graph? n.img).getD g) n.info.kernel, nthr := n.info.threads, group := n.info.group,
          rchk := kdRchk n.kd || bit n.info.flags 2, coresident := bit n.info.flags 0, noretry := bit n.info.flags 1, psize := n.psize,
          racectl := ((u.ctx? g.ctx).map (·.racectl)).getD 0, raceRing := (u.ctx? g.ctx).bind (·.raceRing),
          dataAddr, created := 0, exited := 0, shadows := (pages.zip frames).map fun z => (z.1.1, z.1.2, z.2), wrote := false,
          outward := false, synced := false, ended := false }
      let u : State := ({ u with runs := u.runs ++ [x] } : State).nextEpoch g.ctx
      x.shadows.foldl (fun (u : State) h => u.copyFrame run h.2.1 h.2.2) u
def execNodeStart (run dataAddr : Nat) (shadowFrames : List Nat) (edits : List TableEdit) (s : State) : Host.Outcome State Fault Refusal :=
  .next (s.startNode run dataAddr shadowFrames edits)

/-! THREAD_CREATE (R14, R69, R281, R336, R338) -/

/-- PSEL at a thread's creation: p and k of `.resources`, or p = 3 and k = 1 where it names none (R134). A pair that no CSRW could write
(R135) counts as none (log 74, DESIGN CHOICE). -/
def startPsel (x : Option (Nat × Nat)) : DWord :=
  let w : Nat × Nat → DWord := fun y => .ofNat 64 (y.1 + 2 ^ 32 * y.2)
  match x with
  | some (p, k) => if decide (p < 2 ^ 31) && decide (k < 2 ^ 8) && pselOk (w (p, k)) then w (p, k) else w (3, 1)
  | none => w (3, 1)

/-- A thread as the die scheduler creates it (R69). -/
def Thread.fresh (r gen ctx run tid pc data psize base limit : Nat) (psel : DWord) (m0 : Option Membership) : Thread :=
  { r, gen, ctx, run, tid, pc := .ofNat 64 pc, regs := sSet (sSet [] 2 (.ofNat 32 data)) 3 (.ofNat 32 (data / 2 ^ 32)), empty := [], fills := [],
    hingeFills := [], flg := 0, tstat := 0, psel, m0, m1 := none, m2 := none, m3 := none, pos := 0, cnt := none, limit, status := .runnable,
    trap := none, held := [], wait := none, more := [], hold := ⟨false, false, false⟩, storeBase := base, psize, hz := [], hzlost := false,
    relall := false, pend := [], onePass := false, stepping := false, pipes := [], ending := none, recSlot := none, woken := false }

/-- Private stores lie in writable context memory, apart from each other and from those of the context's other threads. -/
def State.storesOk (s : State) (ctx psize : Nat) (stores : List Nat) : Bool :=
  let apart := fun (a b n : Nat) => decide (a + psize ≤ b) || decide (b + n ≤ a)
  stores.all (fun b => s.mappedRange ctx b psize true && s.threads.all fun t => t.ctx != ctx || apart b t.storeBase t.psize) &&
  (stores.zip (upFrom 0 stores.length)).all fun x => (stores.drop (x.2 + 1)).all fun b => apart x.1 b psize

/-- How many threads the next creation of a run makes: every one of a coresident launch (R340), else the next whole group, or without grouping as
many as there are slots. -/
def Run.nextSize (x : Run) (slots : Nat) : Nat :=
  let left := x.nthr - x.created
  if x.coresident then left else if x.group = 0 then (if left < slots then 0 else slots) else min x.group left

/-- One thread of a creation. -/
def State.addThread (s : State) (x : Run) (gid tid rank slot store : Nat) : State :=
  let m0 : Option Membership := if x.group = 0 then none else some { gid, rank }
  let (s, gen) := s.occupySlot x.ctx slot (if x.group = 0 then 0 else handleOf gid)
  let t := Thread.fresh slot gen x.ctx x.id tid x.entry x.dataAddr x.psize store (min 1015 (64 * unitsOfLimit (kdRegs x.kd))) (startPsel x.kd.psel) m0
  let s : State := { s with threads := s.threads ++ [t] }
  let s := if x.group = 0 then s else s.modGroup gid fun g => { g with members := g.members ++ [(slot, rank)] }
  s.enterTable slot

/-- The group of a creation (R158 to R160): zeroed units, home at the core of rank 0. -/
def State.addGroup (s : State) (x : Run) (gid home : Nat) (sets : List (Nat × Nat)) : State :=
  let g := Group.fresh gid x.ctx x.id home (kdScrg x.kd) (kdTile x.kd) (kdBars x.kd) (unitsOfLimit (kdRegs x.kd)) x.rchk x.coresident x.kd.slotsTable
  let g : Group := { g with blocks := sets, regBlocks := sets.map (·.2), resets := (s.core home).resets }
  ((s.putGroup g).modCtx x.ctx fun c =>
    { c with handles := (c.handles ++ [handleOf gid]).drop (c.handles.length + 1 - (2 ^ 20 - 2)) }).setLead x.ctx home

/-- A handle that no group of the context has, or has had among the last 2^20 − 2 (R183). -/
def State.handleFree (s : State) (ctx h : Nat) : Bool :=
  decide (1 ≤ h) && decide (h < 2 ^ 20) && !(((s.ctx? ctx).map (·.handles)).getD []).contains h && (s.group? (gidOf ctx h)).isNone

/-- A run's groups are placed while its node is served (R336). -/
def State.runTurn (s : State) (x : Run) : Bool :=
  ((s.graph? x.graph).bind fun g => (g.nodes.find? (·.idx == x.node)).map fun n => s.queueHead g n).getD false

/-! The turns of the queues (R336; log 55, DESIGN CHOICE) -/

/-- Turns of queues 0 to 7 in a cycle of 255. -/
def cycleTurns : List Nat := [128, 64, 32, 16, 8, 4, 2, 1]

/-- A core can take work of a context. -/
def State.coreUsable (s : State) (ctx core : Nat) : Bool :=
  !(s.core core).gated && !s.stopping core ctx && (s.die (dieOfCore core)).powered && s.coreClear core

/-- Cores that a context may take beside those that it holds. -/
def State.coresLeft (s : State) (ctx : Nat) : Nat := ((s.ctx? ctx).map (·.par.coreLimit)).getD 0 - (s.coresHeld ctx).length

/-- Slot blocks of `u` units that a core has free for a group, beside `z` units for its home (R159, R160). -/
def State.roomFor (s : State) (core u z : Nat) : Nat :=
  if Config.poolUnits < s.poolUsed core + z ∨ Config.uniformStore ≤ s.uniformUsed core then 0 else
  let empty := (upFrom (Config.blocksPerCore * core) Config.blocksPerCore).filter fun b => s.unbound b && s.threads.all fun t => blockOfSlot t.r != b
  min empty.length ((Config.poolUnits - s.poolUsed core - z) / u)

/-- A group of `b` blocks has room in a cluster: a core for its home, with `sz` units and its first block, and the others on the context's own
cores or on those that give most. -/
def State.groupRoom (s : State) (ctx u sz b cluster : Nat) : Bool :=
  let held := s.coresHeld ctx
  let cores := (upFrom (Config.coresPerCluster * cluster) Config.coresPerCluster).filter (s.coreUsable ctx)
  cores.any fun h =>
    let takes := b2n (!held.contains h)
    let others := cores.filter (· ≠ h)
    let own := (others.filter held.contains).map fun c => s.roomFor c u 0
    let new := (sortOn (fun (k : Nat) => k) ((others.filter (!held.contains ·)).map fun c => s.roomFor c u 0)).reverse.take (s.coresLeft ctx - takes)
    decide (takes ≤ s.coresLeft ctx) && decide (1 ≤ s.roomFor h u sz) && decide (b ≤ s.roomFor h u sz + own.sum + new.sum)

/-- A thread without a group has room on a core: a free slot of a block that no group has bound, and the units for its registers. -/
def State.threadRoom (s : State) (ctx limit core : Nat) : Bool :=
  s.coreUsable ctx core && ((s.coresHeld ctx).contains core || decide (0 < s.coresLeft ctx)) &&
  (upFrom (Config.blocksPerCore * core) Config.blocksPerCore).any fun b =>
    s.unbound b && match (upFrom (64 * b) 64).find? fun r => (s.thread? r).isNone with
    | none => false
    | some r => decide (({ s with threads := s.threads ++ [Thread.fresh r 0 ctx 0 0 0 0 0 0 limit 0 none] } : State).poolUsed core ≤ Config.poolUnits)

/-- What a launch creates next has room: a thread or its next group. A coresident launch waits with its queue's turn until it fits, and holds back
every other placement of the context meanwhile (R340). -/
def State.hasRoom (s : State) (ctx : Nat) (k : KernelDesc) (grp left : Nat) (rchk coresident : Bool) : Bool :=
  let u := unitsOfLimit (kdRegs k)
  if coresident then true
  else if grp = 0 then (upFrom 0 Config.numCores).any fun c => s.threadRoom ctx (min 1015 (64 * u)) c
  else (upFrom 0 (Config.numCores / Config.coresPerCluster)).any fun cl =>
    s.groupRoom ctx u (scratchUnits (kdScrg k) rchk + 2 * kdTile k) (ceilDiv (min grp left) 64) cl

/-- Something of a queue is placeable: what its first node creates next, whether that has still to start or runs. -/
def State.placeable (s : State) (ctx q : Nat) : Bool :=
  s.graphs.any fun g => g.ctx == ctx && g.nodes.any fun n => n.info.queue == q && s.inQueue g n && s.queueHead g n &&
    if n.state == .running then ((s.run? (runId g.id n.idx)).map fun x =>
      !s.heldBackFor ctx x.id && s.hasRoom ctx x.kd x.group (x.nthr - x.created) x.rchk x.coresident).getD false
    else s.startable g n && !s.heldBackFor ctx (runId g.id n.idx) &&
      s.hasRoom ctx n.kd n.info.group n.info.threads (kdRchk n.kd || bit n.info.flags 2) (bit n.info.flags 0)

/-- The queue whose turn a placement from queue `q` takes: its own, or one passed on by queues before it with nothing placeable. The first
argument bounds the search. -/
def State.turnFor (s : State) (ctx : Nat) (turns : List Nat) (q : Nat) : Nat → Nat → Option Nat
  | 0, _ => none
  | n + 1, p =>
    if p ≠ q && s.placeable ctx p then none
    else if 0 < turns.getD p 0 then some p
    else s.turnFor ctx turns q n ((p + 7) % 8)

/-- A placement takes a turn; with no turn left a new cycle begins. -/
def State.takeTurn (s : State) (ctx q : Nat) : Option State :=
  (s.ctx? ctx).bind fun c =>
    let turns := if c.turns.all (· == 0) then cycleTurns else c.turns
    (s.turnFor ctx turns q 8 q).map fun p => s.modCtx ctx fun c => { c with turns := modAt (· - 1) p turns }

/-! THREAD_CREATE -/

/-- One group of a creation, or threads without grouping: none where it cannot stand at the slots. -/
def State.placeGroup (s : State) (x : Run) (gid base : Nat) (slots stores : List Nat) : Option State :=
  let ranks := upFrom 0 slots.length
  let sets := if x.group = 0 then [] else laneSets ranks slots
  let home := coreOfSlot (slots.headD 0)
  if !s.slotsFree home slots || !s.setsOk sets || !s.storesOk x.ctx x.psize stores ||
      (x.group = 0 && !slots.all fun r => s.unbound (blockOfSlot r)) ||
      (x.group ≠ 0 && (!s.handleFree x.ctx (handleOf gid) || !slots.all fun r => clusterOfSlot r == clusterOfCore home)) then none
  else
    let u := if x.group = 0 then s else s.addGroup x gid home sets
    let u := (ranks.zip (slots.zip stores)).foldl (fun (u : State) z => u.addThread x gid (base + z.1) z.1 z.2.1 z.2.2) u
    let u := u.modRun x.id fun y => { y with created := y.created + slots.length }
    if u.coresFit x.ctx (slots.map coreOfSlot) then some u else none

/-- The groups of a creation, one after another, each with its handle and its part of the slots and stores. -/
def State.placeGroups (s : State) (x : Run) : List Nat → Nat → List Nat → List Nat → Option State
  | [], _, slots, _ => if slots.isEmpty then some s else none
  | h :: l, base, slots, stores =>
    let n := min x.group slots.length
    if n = 0 then none else
    (s.placeGroup x (gidOf x.ctx h) base (slots.take n) (stores.take n)).bind fun s => s.placeGroups x l (base + n) (slots.drop n) (stores.drop n)

/-- THREAD_CREATE (R336, R338, R340): all of a coresident launch in one act. -/
def State.createThreads (s : State) (run : Nat) (handles slots stores : List Nat) : State :=
  match s.run? run with
  | none => s
  | some x =>
    let n := x.nextSize slots.length
    let queue := ((s.node? x).map (·.info.queue)).getD 0
    if !s.dispatching || x.ended || x.failing || n = 0 || slots.length ≠ n || stores.length ≠ n || s.heldBackFor x.ctx x.id || !s.runTurn x ||
        (x.created = 0 && !x.coresident && s.savedFirst x.ctx) then s
    else
      ((s.takeTurn x.ctx queue).bind fun u =>
        if x.group = 0 then (if handles.isEmpty then u.placeGroup x 0 x.created slots stores else none)
        else if !x.coresident && handles.length ≠ 1 then none
        else u.placeGroups x handles x.created slots stores).getD s
def execThreadCreate (run : Nat) (handles slots stores : List Nat) (s : State) : Host.Outcome State Fault Refusal :=
  .next (s.createThreads run handles slots stores)

/-! NODE_RUN_END (R339, R345 to R348) -/

/-- Something that a run's threads have released or stored has still to complete. -/
def State.runBusy (s : State) (run : Nat) : Bool :=
  s.threads.any (·.run == run) || s.blocks.any (fun b => b.stores.any (·.run == run)) || s.out.any (·.st.run == run) ||
  s.ldxs.any (·.run == run) || s.mailbox.any (·.run == run) || s.held.any (·.run == run) ||
  s.groups.any fun g => g.mq.any (·.run == run) || (g.drain.map fun d => d.cmd.run == run).getD false ||
    (g.ring.map fun k => (k.cur.map fun c => c.run == run).getD false || k.snaps.any (·.run == run)).getD false

/-- The run has ended: every thread has exited, nothing is outstanding, and the nodes it launched are done (R332, R339). -/
def State.runOver (s : State) (g : Graph) (x : Run) : Bool :=
  (x.ended || (x.created == x.nthr && x.exited == x.created)) && !s.runBusy x.id &&
  g.nodes.all fun n => n.parent != some x.node || n.state == .done

/-- The node may be run again (R346, R347). -/
def Run.retryable (x : Run) (n : Node) : Bool :=
  !x.noretry && !x.wrote && !x.outward && !(x.coresident && x.synced) && decide (n.retry < 2)

/-- NODE_RETRY: the shadows are discarded, the node is queued again at the head of its queue. -/
def State.nodeRetry (s : State) (g : Graph) (n : Node) (x : Run) : State :=
  let s := s.returnFrames x.ctx (x.shadows.map (·.2.2))
  let s := s.modGraph g.id fun h =>
    { h with nodes := h.nodes.map fun m => if m.idx = n.idx then { m with state := .queued, retry := m.retry + 1, order := 0 } else m }
  State.event { s with runs := s.runs.filter (·.id ≠ x.id) } x.ctx 2 n.idx 0 g.entry

/-- The place of a launch's DONE word, in the view of the run that launched it (R332): none where there is no such word or it cannot be written
(log 87, DESIGN CHOICE); a wait for the host. -/
def State.donePlace (s : State) (g : Graph) (n : Node) : State × Option (Option Place) :=
  if n.doneAddr = 0 then (s, some none) else
  let (s, x) := match windowOf n.doneAddr with
    | some .global => match s.walk g.ctx n.doneAddr with
      | some (leaf, shift) => s.leafXlat g.ctx n.doneAddr leaf shift true (.agent (runId g.id n.idx * 4 + 3))
      | none => (s, .fault 0x0C 1)
    | some .host => match s.ctx? g.ctx with
      | some c => s.hostAsk c.par.vf (n.doneAddr - hostBase) true (runId g.id n.idx * 4 + 3)
      | none => (s, .fault 0x0C 2)
    | _ => (s, .fault 0x08 0)
  match x with
  | .ok p _ => (s, some (some ((n.parent.map fun k => s.runView (runId g.id k) p).getD p)))
  | .fault _ _ => (s, some none)
  | .wait => (s, none)

/-- The increment of a DONE word, with release at dev scope (R332). -/
def State.countDone (s : State) (p : Option Place) : State :=
  match p with
  | none => s
  | some p => (s.store none p (leBytes 8 ((ofLe (s.readAt p 8) + 1) % 2 ^ 64))).wakeLines p 8

/-- A clean end: the shadows have become the regions, DONE, the event, the successors, and the graph's own end. -/
def State.nodeClean (s : State) (g : Graph) (n : Node) (x : Run) (done : Option Place) : State :=
  let s := s.returnFrames x.ctx (x.shadows.map (·.2.1))
  let s := s.modRun x.id fun y => { y with ended := true, shadows := [] }
  let s := s.modGraph g.id fun h =>
    { h with nodes := h.nodes.map fun m =>
        let m := if m.idx = n.idx then { m with state := .done } else m
        if n.succs.contains m.idx then { m with deps := m.deps - (n.succs.filter (· == m.idx)).length } else m }
  let s := (s.countDone done).event x.ctx 1 n.idx (x.cir.toNat &&& (2 ^ cirPIPEERR + 2 ^ cirRACESUP)) g.entry
  (s.release g.id (sortOn (fun (k : Nat) => k) n.succs)).graphDone g.id

/-- The edits map each shadowed page to its shadow. -/
def State.flipped (s : State) (x : Run) : Bool :=
  x.shadows.all fun h => s.devPlace x.ctx (65536 * h.1) false == some (.dev (65536 * h.2.2))

/-- The flip of a clean end, with the invalidation of R288: the pages are mapped anew, and nothing else is. -/
def State.flip (s : State) (x : Run) (edits : List TableEdit) : Option State :=
  if x.shadows.isEmpty then (if edits.isEmpty then some s else none) else
  let ok := s.editsOk edits && s.addsOnly x.ctx (x.shadows.map (65536 * ·.1)) edits
  let u := ((s.settleOld x.ctx).applyEdits x.ctx edits).rewaitAll x.ctx
  if ok && u.flipped x && s.guardsKept u x.ctx && s.encFits u x.ctx edits then some u else none

/-- What the end of a run comes to once its CIR is read (R346). None: an edit that does not make the flip. -/
def State.nodeOver (s : State) (g : Graph) (n : Node) (x : Run) (done : Option Place) (edits : List TableEdit) : Option State :=
  let hit := fun (i : Nat) => bit x.cir.toNat i
  if hit cirLOSTCMP then some (s.graphFail g.id 0x202 n.idx 0x202)
  else if hit cirPOISON || hit cirABORT then some (if x.retryable n then s.nodeRetry g n x else s.graphFail g.id 0x201 n.idx 0x201)
  else (s.flip x edits).map fun u => u.nodeClean g n x done

/-- NODE_RUN_END. It waits while a bundle of the context holds a translated access (R288). -/
def State.endNode (s : State) (run : Nat) (edits : List TableEdit) : State :=
  match s.run? run with
  | none => s
  | some x =>
    match (s.graph? x.graph).bind fun g => (g.nodes.find? (·.idx == x.node)).map fun n => (g, n) with
    | none => s
    | some (g, n) =>
      if n.state != .running || !s.dispatching || !s.quiet x.ctx || !s.runOver g x then s else
      match s.donePlace g n with
      | (s, none) => s
      | (s, some done) => s.ifRoom ((s.nodeOver g n x done edits).getD s)
def execNodeRunEnd (run : Nat) (edits : List TableEdit) (s : State) : Host.Outcome State Fault Refusal := .next (s.endNode run edits)

/-! Upkeep of memory (R290 to R292) -/

/-- A line of scratch that cannot be corrected holds all-ones (R290). -/
def State.spoil (s : State) (gid off : Nat) : State := s.modGroup gid fun g => { g with scr := g.scr.writeN off (List.replicate 64 0xFF) }

/-- Lines of device memory and of scratch in which an error has been found that cannot be corrected are marked poisoned. A block
meets R290 in its drain (R162), so the stores to such a line that have drained by then are in it first (log 93, DEDUCED). -/
def State.scrub (s : State) (lines : List Nat) (scratch : List (Nat × Nat)) : State :=
  let scr := scratch.filter fun x => x.2 % 64 == 0 && ((s.group? x.1).map fun g => decide (x.2 < g.alloc)).getD false
  let all := ((lines.filter fun a => a % 64 == 0 && decide (a < Config.devBytes)).map Place.dev) ++ scr.map fun x => Place.scr x.1 x.2
  let s := if all.isEmpty then s else s.flushOut fun o => all.contains o.st.place.line
  let s := scr.foldl (fun (s : State) x => s.spoil x.1 x.2) s
  { s with poison := all.foldl (fun l p => if l.contains p then l else l ++ [p]) s.poison }

/-- So are lines of the pool's other units: the registers of a line read as all-ones, and so do the elements of a tile's line (log 99, DEDUCED). -/
def State.scrubPool (s : State) (regs tiles : List (Nat × Nat)) : State :=
  let s := (regs.filter fun x => decide (1 ≤ x.2) && decide (x.2 ≤ 1015)).foldl (fun (s : State) x =>
    s.modThread x.1 fun t => { t.setReg x.2 0xFFFFFFFF with badRegs := setAdd x.2 t.badRegs }) s
  tiles.foldl (fun (s : State) x => s.modGroup x.1 fun g =>
    if 512 * g.tile ≤ x.2 then g else
    { g with tiles := (upFrom (8 * x.2) 8).foldl (fun l k => sSet l k 0xFFFFFFFFFFFFFFFF) g.tiles, badTile := setAdd x.2 g.badTile }) s
/-- PATROL_SCRUB. -/
def execPatrolScrub (found : FoundErrors) (s : State) : Host.Outcome State Fault Refusal :=
  .next ((s.scrub found.dev found.scratch).scrubPool found.regs found.tiles)

/-- A line as it is written back to HBM: cipher text in counter mode and its tag (R291). -/
def State.encLine (s : State) (key : Nat) (e : EncPage) (line : Nat) : Nat × List Byte × BitVec 56 :=
  let a := 4096 * e.page + 64 * line
  let minor := assocD 0 e.minors line
  let stream := (upFrom 0 4).flatMap fun b => leBytes 16 (Config.aes256 key [a, e.major, minor, b]).toNat
  let text := ((s.mem.readN a 64).zip stream).map fun x => x.1 ^^^ x.2
  (line, text, Config.gmac key text [a, e.major, minor])

/-- One write-back of a line of an encrypted page: its minor counter, and past 127 the whole page anew (R291, R292). -/
def State.encBack (s : State) (key : Nat) (e : EncPage) (line : Nat) : EncPage :=
  let n := assocD 0 e.minors line
  if 127 ≤ n then
    let e : EncPage := { e with major := (e.major + 1) % 2 ^ 64, minors := [] }
    { e with lines := (upFrom 0 64).map (s.encLine key e) }
  else
    let e : EncPage := { e with minors := assocSet e.minors line (n + 1) }
    { e with lines := e.lines.filter (·.1 ≠ line) ++ [s.encLine key e line] }

/-- The 512 bytes of an encrypted page: its counter block, and the tags of its lines (R291). -/
def EncPage.block (e : EncPage) : List Byte :=
  leBytes 8 e.major ++ leBytes 56 (((upFrom 0 64).map fun i => assocD 0 e.minors i * 2 ^ (7 * i)).sum) ++
    (upFrom 0 64).flatMap fun i => leBytes 7 (((e.lines.find? (·.1 == i)).map fun x => x.2.2.toNat).getD 0)

/-- Where the 512 bytes of a page lie (R291). -/
def State.encSpaceOf (s : State) (page : Nat) : Option Nat :=
  (s.encSpaces.find? (·.frame == page / 16)).map fun x => x.space + 512 * (page % 16)

/-- A node of the counter tree with one digest replaced. -/
def putNode (l : List TreeNode) (num k : Nat) (d : BitVec 64) : List TreeNode :=
  let old := ((l.find? (·.num == num)).map (·.digests)).getD []
  l.filter (·.num ≠ num) ++ [{ num, digests := assocSet old k d }]

/-- The digest of a node. -/
def nodeDigest (l : List TreeNode) (num : Nat) : BitVec 64 :=
  Config.treeDigest ((((l.find? (·.num == num)).map (·.digests)).getD []).flatMap fun x => leBytes 8 x.1 ++ leBytes 8 x.2.toNat)

/-- A counter block changes: its digest in its middle node, that node's in its top node, and the top node's in the root (R291). -/
def CounterTree.put (t : CounterTree) (page : Nat) (block : List Byte) : CounterTree :=
  let middle := putNode t.middle (page / 64) page (Config.treeDigest block)
  let top := putNode t.top (page / 4096) (page / 64) (nodeDigest middle (page / 64))
  { middle, top, root := assocSet t.root (page / 4096) (nodeDigest top (page / 4096)) }

/-- Write-backs of lines of a 4 KiB page with ENC = 1, up to the overflow that re-encrypts it; lines whose tag does not match, or
the whole page where its counter block fails its check by the tree, read as poisoned. Values and order stay (R291, R292). -/
def State.reencrypt (s : State) (ctx va : Nat) (writebacks bad : List Nat) (fails : Bool) : State :=
  match s.walk ctx va, s.ctx? ctx with
  | some (leaf, shift), some c =>
    let a := bits leaf 16 40 * 2 ^ 16 + va % 2 ^ shift
    let page := a / 4096
    if bits leaf 14 2 ≠ 0 || !bit leaf 13 || assocD (2 ^ 64) s.owners (a / 65536) ≠ ctx then s else
    match s.encSpaceOf page with
    | none => s
    | some space =>
      let e0 := (s.encPages.find? (·.page == page)).getD { page, ctx, major := 0, minors := [], lines := [], broken := none }
      let e := (writebacks.filter (· < 64)).foldl (s.encBack c.key) e0
      let e := if fails then { e with broken := some [] } else e
      let hit := if fails then upFrom 0 64 else bad.filter (· < 64)
      let s := s.modDie (s.homeDie (.dev (4096 * page))) fun d => { d with tree := d.tree.put page (e.block.take 64) }
      State.scrub
        { s with encPages := s.encPages.filter (·.page ≠ page) ++ [e], mem := s.mem.writeN space e.block }
        (hit.map fun i => 4096 * page + 64 * i) []
  | _, _ => s
/-- REENCRYPTION. -/
def execReencryption (page : PageName) (acts : LineActs) (s : State) : Host.Outcome State Fault Refusal :=
  .next (s.reencrypt page.ctx page.va acts.written acts.bad acts.tree)

end Sys2Proof.Machine
end

