-- ==== Sys2Proof/Machine/Package.lean ====
section
/-! DEFINITION. The package (R356 to R369): starting and resetting the module, firmware replacement and its heartbeats, attestation, health
and thermal protection. -/

namespace Sys2Proof.Machine

open Sys2Proof

/-! Reset (R14, R196, R306, R358, R360) -/

/-- The module's reset: what lies inside starts anew, what flash, the root of trust and the health monitors keep stays (R361, R362, R368), and so
does what lies outside the module. -/
def State.moduleReset (s : State) : State :=
  { State.reset with
    agenda := s.agenda, tick := s.tick, free := s.free, hostMem := s.hostMem, peerMem := s.peerMem, hostPages := s.hostPages
    vfs := s.vfs.map fun v => { v with ctx := none, running := false }
    pkg := { s.pkg with state := 0, replacing := [], pause := none, paused := 0, records := [], log := []
                        links := s.pkg.links.map fun l => { l with functions := false }, monitored := s.pkg.monitored + s.clk.toNat } }

/-- Every compute die on or off. -/
def State.powerDies (s : State) (on : Bool) : State :=
  (upFrom 0 Config.numDies).foldl (fun (s : State) d => s.modDie d fun x => { x with powered := on }) s

/-- A start fails (R358 to R360): the third in a row enters furled mode, where no compute die is powered, and none is after REASON 0x08 (R369).
`state`: where the start stood. -/
def State.startFails (s : State) (state reason dies : Nat) : State :=
  let fails := min 3 (s.pkg.fails + 1)
  let s : State := { s with pkg := { s.pkg with state := if fails = 3 then 5 else state, fails, reason, dies } }
  if fails = 3 || reason == 8 then s.powerDies false else s

/-! Starting (R357, R359, R361) -/

/-- The images of a kind in flash that are not marked refused, with their versions (R364). -/
def Package.images (p : Package) (kind : Nat) : List (Nat × List Byte) :=
  p.flash.filterMap fun x => match x with
    | .image k v b => if k = kind ∧ !p.refused.contains (kind, v) then some (v, b) else none
    | .record _ => none

/-- The image of a kind that a start loads: the one that a refused replacement has left for the next start (R364), else the last one written. -/
def Package.image (p : Package) (kind : Nat) : Option (Nat × List Byte) :=
  let named := (p.next.find? (·.1 == kind)).bind fun x => (p.images kind).find? (·.1 == x.2)
  named.or (p.images kind).getLast?

/-- A configuration record of flash, with its signature checked and its EPOCH not rolled back (R361); the layout of its first 16 bytes. -/
def Package.readRecord (p : Package) (raw : List Byte) : Option ConfigRec :=
  let id := ofLe (raw.take 2)
  let len := ofLe ((raw.drop 4).take 4)
  let epoch := ofLe ((raw.drop 8).take 8)
  if 16 + len ≤ raw.length ∧ Config.signed raw ∧ assocD 0 p.epochs id ≤ epoch then
    some { id, version := ofLe ((raw.drop 2).take 2), epoch, body := (raw.drop 16).take len, raw }
  else none

def Package.rawRecords (p : Package) : List (List Byte) := p.flash.filterMap fun x => match x with
  | .record b => some b
  | .image _ _ _ => none

/-- The records that pass; each sets the stored EPOCH of its kind. -/
def Package.takeRecords (p : Package) : Package :=
  let ok := (p.rawRecords.map p.readRecord).filterMap fun x => x
  { p with records := sortOn (fun (r : ConfigRec) => r.id) ok, epochs := ok.foldl (fun l r => assocSet l r.id r.epoch) p.epochs }

/-- Every record passes, and kinds 1, 2 and 4 are present. -/
def Package.recordsOk (p : Package) : Bool :=
  let rs := p.rawRecords.map p.readRecord
  rs.all (·.isSome) && ([1, 2, 4] : List Nat).all fun k => rs.any fun x => x.any (·.id == k)

/-- The reasons that a step of a start can fail with (R359). -/
def reasonsOf (step : Nat) : List Nat :=
  match step with
  | 1 => [1, 2, 8]
  | 2 => [2, 3, 8]
  | 3 => [4, 5, 8]
  | 4 => [6, 8]
  | 5 => [7, 8]
  | _ => []

/-- Whether a verified image of a kind is at hand. -/
def Package.imageOk (p : Package) (kind : Nat) : Bool := ((p.image kind).map fun x => Config.signed x.2).getD false

/-- The first step at which a start fails, with its reason: what happens at the step (the argument), or what flash holds. An image of the root of
trust, where flash has one, is verified with the others at step 2. -/
def Package.startFault (p : Package) (failStep reason : Nat) : Option (Nat × Nat) :=
  let at_ := fun (n : Nat) => if failStep = n then some (n, reason) else none
  (at_ 1).or (
    if !p.imageOk 1 then some (1, 2) else
    (at_ 2).or (
      if !(p.imageOk 2 && p.imageOk 3 && ((p.image 0).isNone || p.imageOk 0)) then some (2, 2)
      else if !p.recordsOk then some (2, 3)
      else (at_ 3).or ((at_ 4).or (at_ 5))))

/-- The reasons in which compute dies take part (R358, R359). -/
def dieReason (reason : Nat) : Bool := reason == 4 || reason == 5 || reason == 7 || reason == 8

/-- BOOTSTS.STATE at a step of a start (R358). -/
def stepState (step : Nat) : Nat := if step ≤ 2 then 1 else if step ≤ 4 then 2 else 3

/-- The measurement log (R357, R365): images and configuration records, by measurement index. -/
def Package.measure (p : Package) : List (Nat × Nat) :=
  (p.firmware.map fun f => (f.kind + 1, sha256 f.bytes)) ++ [(5, sha256 (p.records.flatMap (·.raw)))]

/-- The images that a start verifies at step 2, with their measurements in the log. -/
def Package.loadFirmware (p : Package) : Package :=
  let p : Package := { p with firmware := [0, 1, 2, 3].map fun k => let (v, b) := (p.image k).getD (0, []); ⟨k, v, b⟩ }
  { p with log := p.measure }

/-- The port numbers named, each once. -/
def portList (l : List Nat) : List Nat := l.foldl (fun a x => if Config.fabricPorts ≤ x || a.contains x then a else a ++ [x]) []

/-- The ports that configuration record 2 enables train (R357, R376): one whose partner is not there yet goes on training. -/
def State.trainPorts (s : State) : State :=
  let body := ((s.pkg.records.find? (·.id == 2)).map (·.body)).getD []
  { s with ports := (portList (Config.portsOf body)).map fun x => FPort.train { id := x, state := 1 } s.tick s.clk.toNat }

/-- Step 4 has enabled the functions of the host links (R357). -/
def Package.enableLinks (p : Package) : Package := { p with links := p.links.map fun l => { l with functions := true } }

/-- Whether the cold plate is still too hot: it may have cooled at any time (R369; log 90, DESIGN CHOICE). -/
def State.coolCheck (s : State) : State :=
  if !s.pkg.hot then s else
  let (s, n) := s.takeFreeNat
  { s with pkg := { s.pkg with hot := n % 2 == 1 } }

/-- A start of the module (R357, R369). The host links are up from power-on, but for one whose partner offers only non-FLIT operation (R370).
Arguments that name no failure of R359 mean that nothing fails from outside. `dies`: the dies that take part, or with REASON 0x06 such links. -/
def State.boot (s : State) (failStep reason dies : Nat) : State :=
  let s := s.moduleReset.coolCheck
  let fails := fun (l : HostLink) => failStep == 4 && reason == 6 && bit dies l.id
  let s : State := { s with pkg := { s.pkg with links := s.pkg.links.map fun l => { l with up := !fails l } } }
  let (step, why) := if s.pkg.hot then (1, 8) else if (reasonsOf failStep).contains reason then (failStep, reason) else (0, 0)
  let p := s.pkg
  match p.startFault step why with
  | some (n, code) =>
    let p := if n = 2 && code == 3 && step ≠ 2 then { p.takeRecords with records := [] } else if 2 < n then p.takeRecords.loadFirmware else p
    let p : Package := { (if 4 < n then p.enableLinks else p) with hot := p.hot || code == 8 }
    let s : State := { s with pkg := p }
    (if 4 < n then s.trainPorts else s).startFails (stepState n) code (if dieReason code then dies % 256 else 0)
  | none =>
    (State.powerDies { s with pkg := { p.takeRecords.loadFirmware.enableLinks with state := 4, fails := 0 } } true).trainPorts

/-- POWER_ON_START: from reset. -/
def execPowerOnStart (failStep reason dies : Nat) (s : State) : Host.Outcome State Fault Refusal :=
  .next (if s.pkg.state = 0 && s.pkg.fails == 0 then s.boot failStep reason dies else s)

/-! Heartbeats (R364) -/

/-- Places an event in every context's event queue. -/
def State.eventAll (s : State) (kind arg0 arg1 : Nat) : State :=
  s.contexts.foldl (fun (s : State) c => s.event c.id kind 0xFFFFFFFF arg0 arg1) s

/-- The replacement whose last heartbeat is the oldest. -/
def Package.watched (p : Package) : Option Replacing := (sortOn (fun (x : Replacing) => x.beat) p.replacing).head?

/-- 50 ms and 1 s in cycles (R6). -/
def beatLimit : Nat := 70000000
def trialTime : Nat := 1400000000

/-- A watched image after a beat of its own: one that comes late is not taken (log 47, DESIGN CHOICE). -/
def Replacing.report (x : Replacing) (now : Nat) : Replacing := if now ≤ x.beat + beatLimit then { x with beat := now } else x

/-- HEARTBEAT: one of the watched images reports, and a free value says which (log 47, DESIGN CHOICE). -/
def State.heartbeat (s : State) : State :=
  match s.pkg.replacing with
  | [] => s
  | l =>
    let (s, n) := s.takeFreeNat
    { s with pkg := { s.pkg with replacing := modAt (fun x => x.report s.clk.toNat) (n % l.length) l } }
def execHeartbeat (s : State) : Host.Outcome State Fault Refusal := .next s.heartbeat

/-- A pause of dispatch ends: its length postpones the slice boundaries where it is the scheduler's, and what it has held is served (R363). -/
def State.endPause (s : State) (x : Pause) : State :=
  let s : State := { s with pkg := { s.pkg with pause := none, paused := s.pkg.paused + if x.new.kind = 2 then s.clk.toNat - x.since else 0 } }
  s.serveHeld

/-- An image takes over: its measurement replaces the other's in the log, and every context learns its version (R362, R364). -/
def State.takeOver (s : State) (x : Pause) (replacing : List Replacing) : State :=
  let p : Package := { s.pkg with firmware := s.pkg.firmware.map fun f => if f.kind = x.new.kind then x.new else f, replacing }
  (State.eventAll { s with pkg := { p with log := p.measure } } 10 x.new.kind x.new.version).endPause x

/-- The old image takes over again: the new one is marked refused, and the next start loads the old one. -/
def State.reloadOld (s : State) (x : Pause) : State :=
  let k := x.new.kind
  let bad := ((s.pkg.firmware.find? (·.kind == k)).map (·.version)).getD 0
  let p : Package := { s.pkg with refused := s.pkg.refused.filter (· ≠ (k, bad)) ++ [(k, bad)]
                                  next := s.pkg.next.filter (·.1 ≠ k) ++ [(k, x.new.version)] }
  State.takeOver { s with pkg := p } x (p.replacing.filter (·.kind ≠ k))

/-- HEARTBEAT_MISS (R364): in the first second dispatch pauses and then the old image is reloaded, at two turns of this event; after it the
module resets, and the start counts as failed. The reason and the dies of that failure are not given (log 47, DESIGN CHOICE). -/
def State.beatMiss (s : State) : State :=
  match s.pkg.pause with
  | some x => if x.back then s.reloadOld x else s
  | none =>
    match s.pkg.watched with
    | none => s
    | some x =>
      if s.clk.toNat ≤ x.beat + beatLimit then s
      else if x.beat + beatLimit < x.since + trialTime then
        { s with pkg := { s.pkg with pause := some { new := x.old, since := s.clk.toNat, back := true } } }
      else
        let (s, reason) := s.takeFreeNat
        let (s, dies) := s.takeFreeNat
        s.moduleReset.startFails 0 (reason % 256) (dies % 256)
def execHeartbeatMiss (s : State) : Host.Outcome State Fault Refusal := .next s.beatMiss

/-! Thermal protection and health (R368, R369) -/

/-- THERMAL_TRIP: the compute dies go off, the module resets, and the start fails with REASON 0x08 until the condition clears. -/
def State.thermal (s : State) : State :=
  let t := s.moduleReset
  State.startFails { t with pkg := { t.pkg with hot := true } } 0 8 0
def execThermalTrip (s : State) : Host.Outcome State Fault Refusal := .next s.thermal

/-- The body of an accepted configuration record. -/
def State.recordBody (s : State) (id : Nat) : Option (List Byte) := (s.pkg.records.find? (·.id == id)).map (·.body)

/-- The power cap or the thermal limits would be exceeded on a die (R369). -/
def State.overCap (s : State) (die : Nat) : Bool :=
  Config.overCap ((s.recordBody 1).getD []) ((s.recordBody 5).getD Config.thermalDefault) s.tick die

/-- Steps of 50 MHz in the 1.4 GHz of the arithmetic clock (R6, R369). -/
def clockLimit : Nat := 28

/-- THROTTLE: one step of 50 MHz on a die; the clock does not reach 0. -/
def execThrottle (die : Nat) (s : State) : Host.Outcome State Fault Refusal :=
  .next (if s.pkg.state = 4 && decide (die < Config.numDies) && decide ((s.die die).clockSteps + 1 < clockLimit) && s.overCap die then
    s.modDie die fun d => { d with clockSteps := d.clockSteps + 1 } else s)

/-- 30 days in cycles (R6). -/
def healthTime : Nat := 3628800000000000

/-- HEALTH_MONITOR_UPDATE: the fields of a die's health register; no end of life is predicted before 30 days of data exist. -/
def execHealthMonitorUpdate (die eol drift cerate temp : Nat) (s : State) : Host.Outcome State Fault Refusal :=
  .next (if die < Config.numDies then
    s.modDie die fun d =>
      { d with eol := if s.pkg.monitored + s.clk.toNat < healthTime then 0xFFFF else eol % 2 ^ 16
               drift := drift % 2 ^ 16, cerate := cerate % 2 ^ 16, temp := temp % 2 ^ 8 } else s)

/-! Registers in BAR0 (R358, R367, R368, R379) -/

/-- BOOTSTS. -/
def Package.bootWord (p : Package) : Nat := p.state * 2 ^ 28 + p.fails * 2 ^ 24 + p.reason * 2 ^ 16 + p.dies * 2 ^ 8

/-- A die's health register. -/
def Die.healthWord (d : Die) : Nat := d.eol * 2 ^ 48 + d.drift * 2 ^ 32 + d.cerate * 2 ^ 16 + d.temp * 2 ^ 8

/-- A port's status register; a port that does not train reads as reset. -/
def FPort.statusWord (x : FPort) : Nat := x.state * 2 ^ 62 + b2n x.narrow * 2 ^ 61 + x.peer * 2 ^ 48 + x.failcause * 2 ^ 32 + x.replays

/-- The words of a capability after its header: those whose place the spec gives, then those that the device has beyond them (R358, R367,
R368, R379; log 85, DESIGN CHOICE). -/
def State.capWords (s : State) (id : Nat) : List DWord :=
  let known : List Nat := match id with
    | 1 => [s.pkg.bootWord]
    | 5 => (upFrom 0 Config.numDies).map fun d => (s.die d).healthWord
    | 7 => (upFrom 0 Config.fabricPorts).map fun p => ((s.port? p).getD { id := p }).statusWord
    | _ => []
  let shown : List Nat := match id with
    | 2 => s.pkg.firmware.map (·.version) ++ s.pkg.replacing.flatMap fun x => [x.kind, x.since, x.beat]
    | 3 => s.vfs.flatMap fun v => [v.id, (v.ctx.map (· + 1)).getD 0]
    | _ => []
  known.map (.ofNat 64 ·) ++ (upFrom 0 (Config.capExtra id % 16)).map fun i => Config.capBody id i shown

/-- The capability list from an offset on: each record with its offset, its header first (R367). -/
def State.capList (s : State) : List Nat → Nat → List (Nat × List DWord)
  | [], _ => []
  | id :: l, off =>
    let body := s.capWords id
    let len := body.length + 1
    let next := if l.isEmpty then 0 else off + 8 * len
    let head : DWord := .ofNat 64 (next * 2 ^ 32 + len * 2 ^ 24 + Config.capVersion id % 256 * 2 ^ 16 + id)
    (off, head :: body) :: s.capList l (off + 8 * len)

/-- The capability list starts at BAR0 offset 0x100. -/
def State.capabilities (s : State) : List (Nat × List DWord) := s.capList [1, 2, 3, 4, 5, 6, 7] 0x100

/-- The 64-bit word that the list holds at an offset of BAR0. -/
def State.capRead (s : State) (off : Nat) : Option DWord :=
  s.capabilities.findSome? fun x => if x.1 ≤ off ∧ (off - x.1) % 8 = 0 then x.2[(off - x.1) / 8]? else none

/-! Attestation (R365) -/

/-- Whom the root of trust answers: the host itself, or a tenant through a virtual function that there is (R365, R370). -/
def requester (vf : Option Nat) : Bool := vf.all fun n => decide (n < 64)

/-- A response of the root of trust without a measurement. -/
def State.spdm (s : State) (code : Nat) (vf : Option Nat) : State :=
  if s.pkg.state = 4 && requester vf then { s with hostResp := .data (Config.spdmBody code) false } else s
def execGetVersion (vf : Option Nat) (s : State) : Host.Outcome State Fault Refusal := .next (s.spdm 0 vf)
def execGetCapabilities (vf : Option Nat) (s : State) : Host.Outcome State Fault Refusal := .next (s.spdm 1 vf)
def execNegotiateAlgorithms (vf : Option Nat) (s : State) : Host.Outcome State Fault Refusal := .next (s.spdm 2 vf)
def execGetDigests (vf : Option Nat) (s : State) : Host.Outcome State Fault Refusal := .next (s.spdm 3 vf)
def execGetCertificate (vf : Option Nat) (s : State) : Host.Outcome State Fault Refusal := .next (s.spdm 4 vf)

/-- The measurement blocks: 1 to 5 of the log, 6 of the requesting context; the host itself is none. -/
def State.blocksFor (s : State) (vf : Option Nat) : List (Nat × Nat) :=
  s.pkg.log ++ match (vf.bind s.vf?).bind (·.ctx) |>.bind s.ctx? with
    | some c => [(6, sha256 (Config.paramBytes c.par c.attached))]
    | none => []

def blockBytes (l : List (Nat × Nat)) : List Byte := l.flatMap fun x => leBytes 1 x.1 ++ leBytes 32 x.2

/-- A signed response over a nonce and a body (log 19, DESIGN CHOICE). -/
def State.quote (s : State) (vf : Option Nat) (nonce body : List Byte) : State :=
  if s.pkg.state = 4 && requester vf then { s with hostResp := .data (body ++ Config.sign (nonce ++ body)) false } else s

/-- CHALLENGE: signed over the digest of the measurements. -/
def execChallenge (vf : Option Nat) (nonce : List Byte) (s : State) : Host.Outcome State Fault Refusal :=
  .next (s.quote vf nonce (leBytes 32 (sha256 (blockBytes (s.blocksFor vf)))))

/-- GET_MEASUREMENTS: the blocks, signed, as the log stands. -/
def execGetMeasurements (vf : Option Nat) (nonce : List Byte) (s : State) : Host.Outcome State Fault Refusal :=
  .next (s.quote vf nonce (blockBytes (s.blocksFor vf)))

end Sys2Proof.Machine
end

