-- ==== Sys2Proof/Machine/Mgmt.lean ====
section
/-! DEFINITION. The management commands (R373): contexts (R324), invalidation (R288), race control (R301), peers (R380), firmware (R361,
R362), starts and the measurement log. -/

namespace Sys2Proof.Machine

open Sys2Proof

/-- Frames pass to a context: they are written with zeros first (R290). -/
def State.giveFrames (s : State) (ctx : Nat) (fs : List Nat) : State :=
  { s with
    mem := s.mem.filter fun c => !fs.contains (c.1 / 65536)
    poison := s.poison.filter fun p => match p with
      | .dev a => !fs.contains (a / 65536)
      | _ => true
    encPages := s.encPages.filter fun e => !fs.contains (e.page / 16)
    encSpaces := s.encSpaces.filter fun x => !fs.contains x.frame && !fs.contains (x.space / 65536)
    owners := fs.foldl (fun l f => assocSet l f ctx) s.owners }

/-- Frames of device memory that no context owns, each once. -/
def State.framesFree (s : State) (fs : List Nat) : Bool :=
  distinct fs && fs.all fun f => decide (65536 * (f + 1) ≤ Config.devBytes) && assocD (2 ^ 64) s.owners f == 2 ^ 64

/-! CREATE and DESTROY (R324, R371) -/

/-- A power of 2 within bounds. -/
def pow2In (n lo hi : Nat) : Bool := decide (lo ≤ n) && decide (n ≤ hi) && 2 ^ Nat.log2 n == n

/-- MDEF holds codes of R60 in its fields and zeros elsewhere (R62). -/
def mdefOk (m : BitVec 32) : Bool :=
  bits m.toNat 14 18 == 0 && (Ord.ofCode? (bits m.toNat 11 3)).isSome && (Scope.ofCode? (bits m.toNat 8 3)).isSome &&
  (Space.ofCode? (bits m.toNat 5 3)).isSome && (Cache.ofCode? (bits m.toNat 2 3)).isSome && (RaceAttr.ofCode? (bits m.toNat 0 2)).isSome

def inRange (n lo hi : Nat) : Bool := decide (lo ≤ n) && decide (n ≤ hi)

/-- The parameters that CREATE names, with the defaults of R324 for the others; MDEF's is the Reset column of R62. -/
def createParams (a : CreateArgs) : CtxParams :=
  { vf := a.vf, root := a.root, handler := a.handler.getD 0, faultArea := a.faultArea, evqBase := a.evqBase, evqEntries := a.evqEntries,
    drain := a.drain.getD 50, weight := a.weight.getD 16, slice := a.slice.getD 2000, coreLimit := a.coreLimit.getD 256,
    hang := a.hang.getD 1400000000, tswap := a.tswap.getD 280000, lead := a.lead.getD 4, racectl := a.racectl.getD 0, raceRing := a.raceRing,
    shadowPages := a.shadowPages.getD 0, shadowPool := a.shadowPool.getD 0, mdef := a.mdef.getD 0x300, bar2Size := a.bar2Size.getD (2 ^ 30),
    frames := a.frames, subPage := a.subPage, table := a.table }

/-- A race ring has its entries at a multiple of 64, and 16 to 2^20 of them, a power of 2 (R318). -/
def ringOk (x : Option RaceRing) : Bool :=
  match x with
  | some r => r.base % 64 == 0 && pow2In r.entries 16 (2 ^ 20)
  | none => true

/-- Every parameter is in the range that R324 gives it. -/
def paramsOk (p : CtxParams) : Bool :=
  decide (p.vf < 64) && p.root % 256 == 0 && decide (p.root < Config.devBytes) && p.handler % 8 == 0 && p.faultArea % 64 == 0 &&
  p.evqBase % 32 == 0 && pow2In p.evqEntries 64 65536 && inRange p.drain 1 1000 && inRange p.weight 1 255 && inRange p.slice 500 100000 &&
  inRange p.coreLimit 4 256 && p.coreLimit % 4 == 0 && inRange p.hang (2 ^ 20) (2 ^ 48) && inRange p.tswap 14000 (2 ^ 32) && inRange p.lead 1 8 &&
  decide (p.racectl ≤ 2) && ringOk p.raceRing && decide (p.shadowPool ≤ 2 ^ 40) && p.shadowPool % 65536 == 0 &&
  decide (p.shadowPool / 65536 ≤ p.frames.length) && mdefOk p.mdef && pow2In p.bar2Size (2 ^ 30) (2 ^ 48) &&
  p.subPage % 4096 == 0 && p.frames.contains (p.subPage / 65536)

/-- A context right after its creation. Its number is that of its VF (log 49, DESIGN CHOICE), and the last of its frames are its shadow pool (log 91,
DESIGN CHOICE). -/
def Context.fresh (p : CtxParams) (order created : Nat) (key : Nat := 0) : Context :=
  { id := p.vf, par := p, racectl := .ofNat 32 p.racectl, raceNext := none, raceRing := p.raceRing, shadowPages := p.shadowPages, shadowMap := [],
    epoch := 0, raceSeq := 0, evsup := 0, hzsup := 0, snpsup := 0, clksup := 0, engrst := 0, shrsup := 0, ringloss := 0, evProd := 0,
    evCons := 0, evDropped := 0, handles := [], debugger := false, profiler := false, trial := none, order, created, attached := 0, retired := 0,
    pool := p.frames.drop (p.frames.length - p.shadowPool / 65536), kept := [], turns := cycleTurns, key }

/-- Bytes of the fault area: 64 for each resident slot (R198, R324). -/
def faultBytes : Nat := 64 * Config.numSlots

/-- The context with its frames, its key, its tables, its race ring and its VF (R291, R324). -/
def State.addContext (s : State) (p : CtxParams) : State :=
  let (s, key) := (s.giveFrames p.vf p.frames).takeFreeNat
  let s : State :=
    { s with
      seq := s.seq + 1, contexts := s.contexts ++ [Context.fresh p s.seq s.dispatchTime (key % 2 ^ 256)]
      vfs := if s.vfs.any (·.id == p.vf) then s.vfs.map fun v => if v.id = p.vf then { v with ctx := some p.vf, running := false } else v
             else s.vfs ++ [{ id := p.vf, ctx := some p.vf }] }
  (s.applyEdits p.vf p.table).writeRing p.vf p.raceRing

/-- CREATE: a parameter out of range, a VF that is bound, frames that are not free, or a fault area that is not mapped writable to device
memory refuses the creation. While dispatch is paused the request waits (R363). -/
def State.createContext (s : State) (a : CreateArgs) : State :=
  s.command false (.create a) fun s =>
    let p := createParams a
    if !s.dispatching then s.await (.create a) else
    let free := (s.ctx? p.vf).isNone && ((s.vf? p.vf).bind (·.ctx)).isNone && s.framesFree p.frames
    if !paramsOk p || !free then s.refuse else
    let u := s.addContext p
    if u.editsOk p.table && s.encFits u p.vf p.table && u.mappedRange p.vf p.faultArea faultBytes true then u.answer 0 else s.refuse
def execCreate (p : CreateArgs) (s : State) : Host.Outcome State Fault Refusal := .next (s.createContext p)

/-- A place that belongs to a context: its frames, its groups' scratch. -/
def State.placeOwned (s : State) (ctx : Nat) : Place → Bool
  | .dev a => assocD (2 ^ 64) s.owners (a / 65536) == ctx
  | .scr gid _ => ctxOfGid gid == ctx
  | _ => false

/-- Nothing of a context is left. -/
def State.dropContext (s : State) (c : Context) : State :=
  let id := c.id
  let mine := s.placeOwned id
  let s := s.dropTlbs id
  { s with
    contexts := s.contexts.filter (·.id ≠ id), graphs := s.graphs.filter (·.ctx ≠ id), runs := s.runs.filter (·.ctx ≠ id)
    groups := s.groups.filter (·.ctx ≠ id), threads := s.threads.filter (·.ctx ≠ id), oplog := s.oplog.filter (·.ctx ≠ id)
    ldxs := s.ldxs.filter (·.ctx ≠ id), mailbox := s.mailbox.filter fun m => ctxOfGid m.gid ≠ id
    lines := s.lines.filter (·.ctx ≠ id)
    snaps := s.snaps.filter fun x => match x.key with
      | .line p => !mine p
      | .bar g _ => ctxOfGid g != id
      | .gbar g => ctxOfGid g != id
    progs := s.progs.filter (·.1.1 ≠ id), owners := s.owners.filter (·.2 ≠ id), pri := s.pri.filter (·.vf ≠ c.par.vf), priBad := s.priBad.filter (·.1 ≠ c.par.vf)
    cores := s.cores.map fun x => { x with trace := x.trace.filter (·.ctx ≠ id) }
    diesS := s.diesS.map fun d =>
      { d with
        misses := d.misses.filter (·.ctx ≠ id), bad := d.bad.filter (·.1 ≠ id), targets := d.targets.filter (·.1 ≠ id)
        slices := d.slices.filter (·.1 ≠ id), stops := d.stops.filter (·.ctx ≠ id), overrun := d.overrun.filter (·.1 ≠ id) }
    encPages := s.encPages.filter (·.ctx ≠ id), encSpaces := s.encSpaces.filter (·.ctx ≠ id), held := s.held.filter (·.ctx ≠ id)
    poison := s.poison.filter fun p => match p with
      | .scr gid _ => ctxOfGid gid ≠ id
      | _ => true
    vfs := s.vfs.map fun v => if v.ctx = some id then { v with ctx := none, running := false } else v }

/-- DESTROY (R373). It waits while dispatch is paused (R363), for the context's lanes at commit (R341), and for room in the mailboxes (R248). -/
def State.destroyContext (s : State) (ctx : Nat) : State :=
  s.command false (.destroy ctx) fun s =>
    match s.ctx? ctx with
    | none => s.refuse
    | some c =>
      if !s.dispatching || s.bundles.any (fun b => b.lanes.any fun l => l.ctx == ctx && decide (1 ≤ l.stage)) then s.await (.destroy ctx) else
      let t := (s.runs.filter fun x => x.ctx == ctx && !x.ended).foldl (fun (s : State) x => s.stopRun x.id) s
      if t.mailFits then (t.dropContext c).answer 0 else s.await (.destroy ctx)
def execDestroy (ctx : Nat) (s : State) : Host.Outcome State Fault Refusal := .next (s.destroyContext ctx)

/-! INVAL (R288) -/

/-- INVAL: frames may be taken from the context and free ones given to it. The die scheduler performs it, and waits for the context's bundles (R288). -/
def State.invalidate (s : State) (ctx : Nat) (edits : List TableEdit) (give take : List Nat) : State :=
  s.command false (.inval ctx edits give take) fun s =>
    if (s.ctx? ctx).isNone then s.refuse
    else if !s.dispatching || !s.quiet ctx then s.await (.inval ctx edits give take)
    else if !s.framesFree give || !(take.all fun f => assocD (2 ^ 64) s.owners f == ctx) || !(s.giveFrames ctx give).editsOk edits then s.refuse
    else
      let t := s.settleOld ctx
      let t : State := { t with owners := t.owners.filter fun o => !take.contains o.1 }
      let t := t.modCtx ctx fun c => { c with pool := c.pool.filter (!take.contains ·) }
      let u := (t.giveFrames ctx give).applyEdits ctx edits
      if !s.encFits u ctx edits then s.refuse
      else if (u.rewaitAll ctx).mailFits then (u.rewaitAll ctx).answer 0
      else s.await (.inval ctx edits give take)
def execInval (ctx : Nat) (edits : List TableEdit) (give take : List Nat) (s : State) : Host.Outcome State Fault Refusal :=
  .next (s.invalidate ctx edits give take)

/-! RACE (R301), PEER (R379, R380) -/

/-- RACE: MODE 11 cannot be written; the change waits for the start of the context's next node. -/
def State.setRace (s : State) (ctx mode : Nat) (ring : Option RaceRing) (pages : Nat) : State :=
  s.command false (.race ctx mode ring pages) fun s =>
    if (s.ctx? ctx).isNone || decide (2 < mode) || !ringOk ring then s.refuse
    else (s.modCtx ctx fun c => { c with raceNext := some (mode, ring, pages) }).answer 0
def execRace (ctx mode : Nat) (ring : Option RaceRing) (pages : Nat) (s : State) : Host.Outcome State Fault Refusal :=
  .next (s.setRace ctx mode ring pages)

/-- A port of a peer's mask: a failed one trains again. -/
def FPort.bind (x : FPort) (num tick now : Nat) : FPort :=
  if x.state = 3 then FPort.train { id := x.id, state := 1, peer := num } tick now else { x with peer := num }

/-- A port that a peer's number no longer reaches. -/
def FPort.unbind (x : FPort) (num : Nat) : FPort := if x.peer = num then { x with peer := 0 } else x

/-- PEER: binds a number to ports, a module and a context there, or unbinds it. -/
def State.setPeer (s : State) (num : Nat) (b : Option (Nat × Nat × Nat)) : State :=
  s.command false (.peer num b) fun s =>
    if 255 < num then s.refuse else
    let rest := s.peers.filter (·.num ≠ num)
    match b with
    | none => State.answer { s with peers := rest, ports := s.ports.map (·.unbind num) } 0
    | some (mask, module, ctx) =>
      if 2 ^ 16 ≤ mask then s.refuse else
      State.answer
        { s with peers := rest ++ [{ num, mask, module, ctx }]
                 ports := s.ports.map fun x => if bit mask x.id then x.bind num s.tick s.clk.toNat else x.unbind num } 0
def execPeer (num : Nat) (binding : Option (Nat × Nat × Nat)) (s : State) : Host.Outcome State Fault Refusal :=
  .next (s.setPeer num binding)

/-! Firmware (R361, R362), START, LOG -/

/-- What an item of flash replaces: the same version of an image, the same kind of record. -/
def sameItem (a b : FlashItem) : Bool :=
  match a, b with
  | .image k v _, .image k' v' _ => k == k' && v == v'
  | .record x, .record y => ofLe (x.take 2) == ofLe (y.take 2)
  | _, _ => false

/-- Bytes of flash that an item takes. -/
def FlashItem.size : FlashItem → Nat
  | .image _ _ b => b.length
  | .record b => b.length

/-- IMAGE: within the 64 MiB of flash (R356). A newly written image is not marked refused, and is what the next start loads (R364). -/
def State.putFlash (s : State) (item : FlashItem) : State :=
  s.command true (.image item) fun s =>
    let flash := s.pkg.flash.filter (fun x => !sameItem x item) ++ [item]
    if Config.flashBytes < (flash.map FlashItem.size).sum then s.refuse else
    let p : Package := match item with
      | .image k v _ => { s.pkg with refused := s.pkg.refused.filter (· ≠ (k, v)), next := s.pkg.next.filter (·.1 ≠ k) }
      | .record _ => s.pkg
    State.answer { s with pkg := { p with flash } } 0
def execImage (item : FlashItem) (s : State) : Host.Outcome State Fault Refusal := .next (s.putFlash item)

/-- INSTALL (R362, R364), at two turns of this event. At the first an image that flash holds, that verifies and whose reader accepts the old
image's records pauses dispatch; at the second it takes over, watched for its heartbeats. -/
def State.installImage (s : State) (kind version : Nat) (bytes : List Byte) (accepts : Bool) : State :=
  let new : Firmware := { kind, version, bytes }
  match s.pkg.pause with
  | some x =>
    if x.back || x.new ≠ new then s else
    let watch := ((s.pkg.firmware.find? (·.kind == kind)).map fun old => ({ kind, old, since := s.clk.toNat, beat := s.clk.toNat } : Replacing)).toList
    (s.takeOver x (s.pkg.replacing.filter (·.kind ≠ kind) ++ watch)).answer 0
  | none =>
    s.command false (.install kind version bytes accepts) fun s =>
      if kind = 0 || (s.pkg.firmware.find? (·.kind == kind)).isNone || !s.pkg.flash.contains (.image kind version bytes) ||
          !Config.signed bytes || !accepts then s.refuse
      else { s with pkg := { s.pkg with pause := some { new, since := s.clk.toNat, back := false } } }
def execInstall (kind version : Nat) (bytes : List Byte) (accepts : Bool) (s : State) : Host.Outcome State Fault Refusal :=
  .next (s.installImage kind version bytes accepts)

/-- START. -/
def execStart (failStep reason dies : Nat) (s : State) : Host.Outcome State Fault Refusal :=
  .next (s.command true (.start failStep reason dies) fun s => (s.boot failStep reason dies).answer 0)

/-- LOG. -/
def execLog (s : State) : Host.Outcome State Fault Refusal :=
  .next (s.command true .log fun s => { s with hostResp := .reply 0 (blockBytes s.pkg.log) })

end Sys2Proof.Machine
end

