-- ==== Sys2Proof/Machine/HostSteps.lean ====
section
/-! DEFINITION. What arrives from the host and over the fabric: BAR0 and BAR2 accesses (R331, R370 to R374), flits and port failures (R376 to
R379), and the requests of peers (R380, R381). -/

namespace Sys2Proof.Machine

open Sys2Proof

/-! The functions' gates (R357, R371, R372) -/

def State.unsupported (s : State) : State := { s with hostResp := .unsupported }

/-- The context that a VF's TLP reaches: none where the VF is not enabled or bound, or where it is in RUN and the TLP is not in its IDE
stream. -/
def State.vfContext (s : State) (vf : Nat) (ide : Bool) : Option Context :=
  if s.pkg.state ≠ 4 then none else
  match s.vf? vf with
  | some v => if v.running && !ide then none else v.ctx.bind s.ctx?
  | none => none

/-- TDISP_REQUEST: a VF's device interface enters or leaves RUN. -/
def State.tdisp (s : State) (vf : Nat) (run : Bool) : State :=
  if s.pkg.state ≠ 4 || 64 ≤ vf then s
  else if (s.vf? vf).isSome then s.modVf vf fun v => { v with running := run }
  else { s with vfs := s.vfs ++ [{ id := vf, running := run }] }
def execTdispRequest (vf : Nat) (run : Bool) (s : State) : Host.Outcome State Fault Refusal := .next (s.tdisp vf run)

/-! HOST_POSTED_WRITE: BAR0 (R331, R372, R374) -/

/-- A number with one byte replaced. -/
def putByteOf (n i : Nat) (b : Byte) : Nat := n - bits n (8 * i) 8 * 2 ^ (8 * i) + b.toNat * 2 ^ (8 * i)

/-- A host access to a poisoned line places its event (R327, R372). -/
def State.hostPoison (s : State) (c : Context) (va : Nat) (write : Bool) : State :=
  s.event c.id 12 0xFFFFFFFF (va / 64 * 64) (b2n write)

/-- A host write: the lines of which it covers a part while they are poisoned are left out, each with its event, and the metadata of checked lines
is reset (R290, R303, R372). -/
def State.hostStore (s : State) (c : Context) (va : Nat) (chk : Bool) (p : Place) (bytes : List Byte) : State :=
  let done := s.written p bytes.length
  let s := ((p.lines bytes.length).filter (!done.contains ·)).foldl (fun (s : State) _ => s.hostPoison c va true) s
  s.engineWrite none c.id va chk p bytes

/-- CONS of the event queue, with one byte of it written (log 10, PRESUMED). -/
def State.putCons (s : State) (c : Context) (off : Nat) (b : Byte) : State :=
  if 0x1018 ≤ off ∧ off < 0x1020 then s.modCtx c.id fun c => { c with evCons := putByteOf c.evCons (off - 0x1018) b } else s

/-- The control block of the event queue, laid out as R318's (R327; log 10, PRESUMED). -/
def Context.queueBlock (c : Context) : List Byte :=
  leBytes 8 c.par.evqBase ++ leBytes 4 c.par.evqEntries ++ leBytes 4 0 ++ leBytes 8 c.evProd ++ leBytes 8 c.evCons ++ leBytes 8 c.evDropped ++ leBytes 24 0

/-- What BAR0 of a virtual function has at an offset (R372). -/
inductive Bar0At where
  /-- memory: its address for an event, its place, whether it is checked -/
  | mem (va : Nat) (p : Place) (chk : Bool)
  /-- the control block of the event queue -/
  | queue
  /-- a race ring control block that the context has not, or has not mapped -/
  | absent
  | reserved
deriving DecidableEq, Repr, Inhabited

/-- What an access of the host waits for a page request with (R282). -/
def hostAgent : Asker := .agent 1

/-- What lies behind a piece of BAR0, within 64 bytes; none while a page request is outstanding. -/
def State.bar0At (s : State) (c : Context) (off n : Nat) (write : Bool) : State × Option Bar0At :=
  if off < 0x1000 then
    let p := Place.dev (c.par.subPage + off)
    (s, some (.mem (c.par.subPage + off) p (s.lines.any fun l => (p.lines n).contains l.line)))
  else if off < 0x1040 then (s, some .queue)
  else if off < 0x1080 then
    match c.raceRing.bind fun r => (s.walk c.id (r.block + (off - 0x1040))).map fun x => (r.block + (off - 0x1040), x) with
    | some (va, leaf, shift) => match s.leafXlat c.id va leaf shift write hostAgent with
      | (s, .ok p chk) => (s, some (.mem va p chk))
      | (s, .wait) => (s, none)
      | (s, .fault _ _) => (s, some .absent)
    | none => (s, some .absent)
  else (s, some .reserved)

/-- What lies behind the pieces of an access to BAR0: offset, bytes. None: it waits. -/
def State.bar0Ats (s : State) (c : Context) (write : Bool) : List (Nat × Nat) → State × Option (List (Nat × Nat × Bar0At))
  | [] => (s, some [])
  | (off, n) :: t =>
    match s.bar0At c off n write with
    | (s, none) => (s, none)
    | (s, some x) => match s.bar0Ats c write t with
      | (s, some l) => (s, some ((off, n, x) :: l))
      | (s, none) => (s, none)

/-- A piece of a write to BAR0. -/
def State.bar0Piece (s : State) (c : Context) (off : Nat) (x : Bar0At) (bytes : List Byte) : State :=
  match x with
  | .mem va p chk => s.hostStore c va chk p bytes
  | .queue => (bytes.zip (upFrom off bytes.length)).foldl (fun (s : State) x => s.putCons c x.2 x.1) s
  | .absent | .reserved => s

/-- A piece of a read: its bytes, and the address of its line where that is poisoned. A race ring that is not there reads as free bytes. -/
def State.bar0Data (s : State) (c : Context) (off n : Nat) (x : Bar0At) : State × List Byte × Option Nat :=
  match x with
  | .mem va p _ => (s.askPeer [] p, s.readAt p n, if s.poisoned p then some va else none)
  | .queue => (s, (c.queueBlock.drop (off - 0x1000)).take n, none)
  | .absent => let (s, v) := s.takeFreeNat; (s, leBytes n v, none)
  | .reserved => (s, List.replicate n 0, none)

/-- The pieces of a range that lie in 64 bytes each: address and bytes. -/
def linePieces : Nat → Nat → Nat → List (Nat × Nat)
  | 0, _, _ => []
  | k + 1, va, n => if n = 0 then [] else
    let m := min n (64 - va % 64)
    (va, m) :: linePieces k (va + m) (n - m)

/-- HOST_POSTED_WRITE: performed at sys scope, in the order in which the link delivers the writes (R374). -/
def State.postedWrite (s : State) (vf off : Nat) (bytes : List Byte) (ide : Bool) : State :=
  let i := Instr.hostPostedWrite vf off bytes ide
  s.inTurn i fun s =>
    match s.vfContext vf ide with
    | none => s.unsupported
    | some c =>
      if 0x4000 < off + bytes.length then s.unsupported else
      match s.bar0Ats c true (linePieces (bytes.length / 64 + 2) off bytes.length) with
      | (s, none) => s.await i
      | (s, some l) => l.foldl (fun (s : State) x => s.bar0Piece c x.1 x.2.2 ((bytes.drop (x.1 - off)).take x.2.1)) s
def execHostPostedWrite (vf off : Nat) (bytes : List Byte) (ide : Bool) (s : State) : Host.Outcome State Fault Refusal :=
  .next (s.postedWrite vf off bytes ide)

/-- The completion of a read: EP is set where a line is poisoned, and each such line has its event (R372). -/
def State.hostData (s : State) (c : Context) (data : List Byte) (bad : List Nat) : State :=
  let s := bad.foldl (fun (s : State) va => s.hostPoison c va false) s
  { s with hostResp := .data data !bad.isEmpty }

/-- A read of BAR0 of a virtual function. -/
def State.bar0Read (s : State) (i : Instr) (vf off len : Nat) (ide : Bool) : State :=
  match s.vfContext vf ide with
  | none => s.unsupported
  | some c =>
    if 0x4000 < off + len then s.unsupported else
    match s.bar0Ats c false (linePieces (len / 64 + 2) off len) with
    | (s, none) => s.await i
    | (s, some l) =>
      let (s, data, bad) := l.foldl (fun (a : State × List Byte × List Nat) x =>
        let (s, d, b) := a.1.bar0Data c x.1 x.2.1 x.2.2
        (s, a.2.1 ++ d, a.2.2 ++ b.toList)) (s, [], [])
      s.hostData c data bad

/-- A read of BAR0 of the physical function: the capability list (R367), and what the spec does not give, free. -/
def State.pfRead (s : State) (off len : Nat) : State :=
  if s.pkg.links.all (!·.up) then s else
  { s with hostResp := .data ((upFrom off len).map fun a => match s.capRead (a / 8 * 8) with
      | some w => .ofNat 8 (bits w.toNat (8 * (a % 8)) 8)
      | none => Config.pfByte s.tick a) false }

/-! BAR2 (R372) -/

/-- Translates the pieces of a host access: the place of each, with whether it is checked memory. None: Unsupported Request, or a wait. -/
def State.bar2Places (s : State) (ctx : Nat) (write : Bool) : List (Nat × Nat) → State × Option (Option (List (Nat × Place × Bool × Nat)))
  | [] => (s, some (some []))
  | (va, n) :: t =>
    match s.walk ctx va with
    | none => (s, some none)
    | some (leaf, shift) =>
      match s.leafXlat ctx va leaf shift write hostAgent with
      | (s, .wait) => (s, none)
      | (s, .fault _ _) => (s, some none)
      | (s, .ok p chk) => match s.bar2Places ctx write t with
        | (s, some (some l)) => (s, some (some ((va, p, chk, n) :: l)))
        | x => x

/-- What BAR2 does with a range below its size, once every page is known; an access for which a page request is outstanding waits. -/
def State.bar2 (s : State) (i : Instr) (vf addr len : Nat) (ide write : Bool) (k : State → Context → List (Nat × Place × Bool × Nat) → State) : State :=
  match s.vfContext vf ide with
  | none => s.unsupported
  | some c =>
    if c.par.bar2Size < addr + len then s.unsupported else
    match s.bar2Places c.id write (linePieces (len / 64 + 2) addr len) with
    | (s, some none) => s.unsupported
    | (s, none) => s.await i
    | (s, some (some l)) => k s c l

/-- BAR2_READ: all-ones bytes for a poisoned line, in a TLP with EP set, and an event for each such line; or a read of another window. -/
def State.hostRead (s : State) (vf : Nat) (at_ : HostPlace) (len : Nat) (ide : Bool) : State :=
  let i := Instr.bar2Read vf at_ len ide
  match at_ with
  | .pf off => s.pfRead off len
  | .bar0 off => s.inTurn i fun s => s.bar0Read i vf off len ide
  | .bar2 addr => s.inTurn i fun s => s.bar2 i vf addr len ide false fun s c l =>
      let data := l.flatMap fun x => s.readAt x.2.1 x.2.2.2
      let bad := (l.filter fun x => s.poisoned x.2.1).map (·.1)
      (l.foldl (fun (s : State) x => s.askPeer [] x.2.1) s).hostData c data bad
def execBar2Read (vf : Nat) (at_ : HostPlace) (len : Nat) (ide : Bool) (s : State) : Host.Outcome State Fault Refusal :=
  .next (s.hostRead vf at_ len ide)

/-- One piece of a host write. -/
def State.bar2Piece (s : State) (c : Context) (x : Nat × Place × Bool × Nat) (bytes : List Byte) : State :=
  s.hostStore c x.1 x.2.2.1 x.2.1 bytes

/-- BAR2_WRITE. -/
def State.bar2Store (s : State) (vf addr : Nat) (bytes : List Byte) (ide : Bool) : State :=
  let i := Instr.bar2Write vf addr bytes ide
  s.inTurn i fun s => s.bar2 i vf addr bytes.length ide true fun s c l =>
    l.foldl (fun (s : State) x => s.bar2Piece c x ((bytes.drop (x.1 - addr)).take x.2.2.2)) s
def execBar2Write (vf addr : Nat) (bytes : List Byte) (ide : Bool) (s : State) : Host.Outcome State Fault Refusal :=
  .next (s.bar2Store vf addr bytes ide)

/-- The value that a host AtomicOp stores, over values of `size` bytes. -/
def hostAtomicNew (op : HostAtomic) (size old cmp data : Nat) : Option Nat :=
  match op with
  | .fetchAdd => some ((old + data) % 2 ^ (8 * size))
  | .swap => some (data % 2 ^ (8 * size))
  | .cas => if old = cmp % 2 ^ (8 * size) then some (data % 2 ^ (8 * size)) else none

/-- A host AtomicOp at its place. -/
def State.hostAtom (s : State) (c : Context) (addr size : Nat) (op : HostAtomic) (cmp data : Nat) (p : Place) (chk : Bool) : State :=
  if s.poisoned p then { (s.hostPoison c addr true) with hostResp := .data (List.replicate size 0xFF) true }
  else
    let old := ofLe (s.readAt p size)
    let s := match hostAtomicNew op size old cmp data with
      | some new => s.engineWrite none c.id addr chk p (leBytes size new)
      | none => s.askPeer [] p
    { s with hostResp := .value old }

/-- BAR2_ATOMIC (R370): 32 and 64 bits, aligned; the completion holds the old value. -/
def State.bar2Atom (s : State) (vf addr size : Nat) (op : HostAtomic) (cmp data : Nat) (ide : Bool) : State :=
  let i := Instr.bar2Atomic vf addr size op cmp data ide
  if (size ≠ 4 ∧ size ≠ 8) ∨ addr % size ≠ 0 then s.unsupported else
  s.inTurn i fun s => s.bar2 i vf addr size ide true fun s c l =>
    match l with
    | x :: _ => s.hostAtom c addr size op cmp data x.2.1 x.2.2.1
    | [] => s
def execBar2Atomic (vf addr size : Nat) (op : HostAtomic) (cmp data : Nat) (ide : Bool) (s : State) : Host.Outcome State Fault Refusal :=
  .next (s.bar2Atom vf addr size op cmp data ide)

/-! The fabric ports (R376 to R379) -/

/-- A port fails (R378, R379); the PF's vector 0 fires. -/
def State.portFails (s : State) (port cause : Nat) : State :=
  let s := s.modPort port fun x => { x with state := 3, failcause := cause }
  { s with pkg := { s.pkg with pfMsi := s.pkg.pfMsi + 1 } }

/-- The fabric firmware is being replaced: ports hold flits in their retry buffers (R362). -/
def State.fabricPaused (s : State) : Bool := (s.pkg.pause.map (·.new.kind == 3)).getD false

/-- A port that has sent the same oldest flit again 16 times in a row fails (R378). -/
def State.replayLimit (s : State) (port : Nat) : State :=
  match s.port? port with
  | some x => if x.state = 2 && decide (16 ≤ x.again) then s.portFails port 1 else s
  | none => s

/-- FLIT_RECEIVE: by a port that is up, while its firmware runs. -/
def State.flit (s : State) (port : Nat) (bytes : List Byte) : State :=
  if s.fabricPaused then s
  else (s.modPort port fun x => if x.state = 2 then x.receive bytes s.clk.toNat else x).replayLimit port
def execFlitReceive (port : Nat) (bytes : List Byte) (s : State) : Host.Outcome State Fault Refusal := .next (s.flit port bytes)

/-- NAK_REPLAY (R378): the flits after the named one are sent again; the sixteenth time in a row for one flit fails the port. -/
def State.nakReplay (s : State) (port seq : Nat) : State :=
  if s.fabricPaused then s
  else (s.modPort port fun x => if x.state = 2 then (x.acknowledge seq s.clk.toNat).resend else x).replayLimit port
def execNakReplay (port seq : Nat) (s : State) : Host.Outcome State Fault Refusal := .next (s.nakReplay port seq)

/-- 1 ms in cycles. -/
def ackLimit : Nat := 1400000

/-- ACK_TIMEOUT (R378). -/
def execAckTimeout (port : Nat) (s : State) : Host.Outcome State Fault Refusal :=
  .next (match s.port? port with
    | some x => if x.state = 2 && !x.replay.isEmpty && decide (x.lastAck + ackLimit ≤ s.clk.toNat) then s.portFails port 2 else s
    | none => s)

/-- LANE_LOSS (R378): while the port runs at 4 lanes. -/
def execLaneLoss (port : Nat) (s : State) : Host.Outcome State Fault Refusal :=
  .next (match s.port? port with
    | some x => if x.state = 2 && x.narrow then s.portFails port 3 else s
    | none => s)

/-! PEER_REQUEST (R303, R380, R381) -/

/-- The bytes that a peer's request touches. -/
def peerSize : PeerOp → Nat
  | .load n => n
  | .store l => l.length
  | .atom _ ty _ _ => ty.bytes

/-- Whether a request writes. -/
def peerWrites : PeerOp → Bool
  | .load _ => false
  | _ => true

/-- A peer's request at a place, at its line's home: the state and the bytes of the answer; none where it meets a poisoned line, or a store is not
performed (R381). -/
def State.peerAt (s : State) (ctx va : Nat) (p : Place) (chk : Bool) (op : PeerOp) : State × Option (List Byte) :=
  match op with
  | .load n => (s.askPeer [] p, if s.meetsPoison p n then none else some (s.readAt p n))
  | .store l => if (s.written p l.length).isEmpty && !l.isEmpty then (s, none) else (s.engineWrite none ctx va chk p l, some [])
  | .atom k ty cmp data =>
    let n := ty.bytes
    if s.meetsPoison p n then (s, none) else
    let old := ofLe (s.readAt p n)
    let s := match atomNew k ty old (if k = 8 then cmp % 2 ^ ty.width + 2 ^ ty.width * data else data) with
      | some new => s.engineWrite none ctx va chk p (leBytes n new)
      | none => s.askPeer [] p
    (s, some (leBytes n old))

/-- What a flit answers a peer with: that its request was performed, and the bytes read; or that it failed (log 9, DESIGN CHOICE). -/
def answerBytes : Option (List Byte) → List Byte
  | some l => 0 :: l
  | none => [1]

/-- A request of a peer within one line of its context, and what answers it; none while a page request is outstanding. -/
def State.peerServe (s : State) (num ctx addr : Nat) (op : PeerOp) : State × Option (Option (List Byte)) :=
  if (s.ctx? ctx).isNone || 64 < addr % 64 + peerSize op || 2 ^ 56 ≤ addr then (s, some none) else
  match s.walk ctx addr with
  | none => (s, some none)
  | some (leaf, shift) =>
    match s.leafXlat ctx addr leaf shift (peerWrites op) (.agent (4 * num)) with
    | (s, .ok p chk) => let (s, l) := s.peerAt ctx addr p chk op; (s, some l)
    | (s, .fault _ _) => (s, some none)
    | (s, .wait) => (s, none)

/-- PEER_REQUEST: translated by the page table of the context that the peer's binding names, performed at the line's home, and answered by
a flit on a live port. A translation or protection failure performs nothing, and the answer says so. It waits while the ports' firmware is being
replaced (R362). -/
def State.peerRequest (s : State) (num ctx addr : Nat) (op : PeerOp) : State :=
  let i := Instr.peerRequest num ctx addr op
  if s.pkg.state ≠ 4 || (s.peerPort num (addr / 64)).isNone then s
  else if s.fabricPaused then s.await i
  else s.inTurn i fun s =>
    match s.peerServe num ctx addr op with
    | (s, none) => s.await i
    | (s, some l) => match s.peerPort num (addr / 64) with
      | some x => s.modPort x.id fun y => y.send 2 s.clk.toNat (Config.flitPayload (answerBytes l))
      | none => s
def execPeerRequest (num ctx addr : Nat) (op : PeerOp) (s : State) : Host.Outcome State Fault Refusal :=
  .next (s.peerRequest num ctx addr op)

end Sys2Proof.Machine
end

