-- ==== Sys2Proof/Machine/Dispatch.lean ====
section
/-! DEFINITION. The one dispatch of the machine: for every operation of the table, its meaning. -/

namespace Sys2Proof.Machine

open Sys2Proof

def exec (i : Instr) (s : State) : Host.Outcome State Fault Refusal :=
  match i with
  | .nop f => Sys2Proof.Machine.execNop f s
  | .trap f => Sys2Proof.Machine.execTrap f s
  | .tretRe f => Sys2Proof.Machine.execTretRe f s
  | .tretSkip f => Sys2Proof.Machine.execTretSkip f s
  | .csrr f => Sys2Proof.Machine.execCsrr f s
  | .csrw f => Sys2Proof.Machine.execCsrw f s
  | .csrwImm f => Sys2Proof.Machine.execCsrwImm f s
  | .fill f => Sys2Proof.Machine.execFill f s
  | .void f => Sys2Proof.Machine.execVoid f s
  | .waitf f => Sys2Proof.Machine.execWaitf f s
  | .chkerr f => Sys2Proof.Machine.execChkerr f s
  | .chkerrAbort f => Sys2Proof.Machine.execChkerrAbort f s
  | .prog f => Sys2Proof.Machine.execProg f s
  | .yield f => Sys2Proof.Machine.execYield f s
  | .launch f => Sys2Proof.Machine.execLaunch f s
  | .iadd f => Sys2Proof.Machine.execIadd f s
  | .iaddImm f => Sys2Proof.Machine.execIaddImm f s
  | .isub f => Sys2Proof.Machine.execIsub f s
  | .imul f => Sys2Proof.Machine.execImul f s
  | .imulImm f => Sys2Proof.Machine.execImulImm f s
  | .imulh f => Sys2Proof.Machine.execImulh f s
  | .imad f => Sys2Proof.Machine.execImad f s
  | .imadw f => Sys2Proof.Machine.execImadw f s
  | .idiv f => Sys2Proof.Machine.execIdiv f s
  | .irem f => Sys2Proof.Machine.execIrem f s
  | .ineg f => Sys2Proof.Machine.execIneg f s
  | .iabs f => Sys2Proof.Machine.execIabs f s
  | .imin f => Sys2Proof.Machine.execImin f s
  | .iminImm f => Sys2Proof.Machine.execIminImm f s
  | .imax f => Sys2Proof.Machine.execImax f s
  | .imaxImm f => Sys2Proof.Machine.execImaxImm f s
  | .iadds f => Sys2Proof.Machine.execIadds f s
  | .isubs f => Sys2Proof.Machine.execIsubs f s
  | .and f => Sys2Proof.Machine.execAnd f s
  | .andImm f => Sys2Proof.Machine.execAndImm f s
  | .or f => Sys2Proof.Machine.execOr f s
  | .orImm f => Sys2Proof.Machine.execOrImm f s
  | .xor f => Sys2Proof.Machine.execXor f s
  | .xorImm f => Sys2Proof.Machine.execXorImm f s
  | .andn f => Sys2Proof.Machine.execAndn f s
  | .lsl f => Sys2Proof.Machine.execLsl f s
  | .lslImm f => Sys2Proof.Machine.execLslImm f s
  | .lsr f => Sys2Proof.Machine.execLsr f s
  | .lsrImm f => Sys2Proof.Machine.execLsrImm f s
  | .asr f => Sys2Proof.Machine.execAsr f s
  | .asrImm f => Sys2Proof.Machine.execAsrImm f s
  | .rot f => Sys2Proof.Machine.execRot f s
  | .rotImm f => Sys2Proof.Machine.execRotImm f s
  | .bfx f => Sys2Proof.Machine.execBfx f s
  | .bfxImm f => Sys2Proof.Machine.execBfxImm f s
  | .bfi f => Sys2Proof.Machine.execBfi f s
  | .popc f => Sys2Proof.Machine.execPopc f s
  | .clz f => Sys2Proof.Machine.execClz f s
  | .ctz f => Sys2Proof.Machine.execCtz f s
  | .brev f => Sys2Proof.Machine.execBrev f s
  | .icmp f => Sys2Proof.Machine.execIcmp f s
  | .icmpImm f => Sys2Proof.Machine.execIcmpImm f s
  | .sel f => Sys2Proof.Machine.execSel f s
  | .mov f => Sys2Proof.Machine.execMov f s
  | .movi f => Sys2Proof.Machine.execMovi f s
  | .movh f => Sys2Proof.Machine.execMovh f s
  | .lea f => Sys2Proof.Machine.execLea f s
  | .leaImm f => Sys2Proof.Machine.execLeaImm f s
  | .fadd f => Sys2Proof.Machine.execFadd f s
  | .fsub f => Sys2Proof.Machine.execFsub f s
  | .fmul f => Sys2Proof.Machine.execFmul f s
  | .fma f => Sys2Proof.Machine.execFma f s
  | .fnma f => Sys2Proof.Machine.execFnma f s
  | .fmin f => Sys2Proof.Machine.execFmin f s
  | .fmax f => Sys2Proof.Machine.execFmax f s
  | .fabs f => Sys2Proof.Machine.execFabs f s
  | .fneg f => Sys2Proof.Machine.execFneg f s
  | .fcps f => Sys2Proof.Machine.execFcps f s
  | .fcmp f => Sys2Proof.Machine.execFcmp f s
  | .fcls f => Sys2Proof.Machine.execFcls f s
  | .fdiv f => Sys2Proof.Machine.execFdiv f s
  | .fsqrt f => Sys2Proof.Machine.execFsqrt f s
  | .frcp f => Sys2Proof.Machine.execFrcp f s
  | .frsq f => Sys2Proof.Machine.execFrsq f s
  | .fexp f => Sys2Proof.Machine.execFexp f s
  | .fexp2 f => Sys2Proof.Machine.execFexp2 f s
  | .flog f => Sys2Proof.Machine.execFlog f s
  | .flog2 f => Sys2Proof.Machine.execFlog2 f s
  | .fsin f => Sys2Proof.Machine.execFsin f s
  | .fcos f => Sys2Proof.Machine.execFcos f s
  | .ftanh f => Sys2Proof.Machine.execFtanh f s
  | .fsigm f => Sys2Proof.Machine.execFsigm f s
  | .ferf f => Sys2Proof.Machine.execFerf f s
  | .frnd f => Sys2Proof.Machine.execFrnd f s
  | .flgr f => Sys2Proof.Machine.execFlgr f s
  | .flgc f => Sys2Proof.Machine.execFlgc f s
  | .cvt f => Sys2Proof.Machine.execCvt f s
  | .kdq f => Sys2Proof.Machine.execKdq f s
  | .kdx f => Sys2Proof.Machine.execKdx f s
  | .gcmp f => Sys2Proof.Machine.execGcmp f s
  | .gcmpImm f => Sys2Proof.Machine.execGcmpImm f s
  | .gz f => Sys2Proof.Machine.execGz f s
  | .gnz f => Sys2Proof.Machine.execGnz f s
  | .grng f => Sys2Proof.Machine.execGrng f s
  | .gflg f => Sys2Proof.Machine.execGflg f s
  | .gflgImm f => Sys2Proof.Machine.execGflgImm f s
  | .gfull f => Sys2Proof.Machine.execGfull f s
  | .qenc f => Sys2Proof.Machine.execQenc f s
  | .qdec f => Sys2Proof.Machine.execQdec f s
  | .qadd f => Sys2Proof.Machine.execQadd f s
  | .qsub f => Sys2Proof.Machine.execQsub f s
  | .qmul f => Sys2Proof.Machine.execQmul f s
  | .qdiv f => Sys2Proof.Machine.execQdiv f s
  | .qinv f => Sys2Proof.Machine.execQinv f s
  | .qneg f => Sys2Proof.Machine.execQneg f s
  | .qeq f => Sys2Proof.Machine.execQeq f s
  | .ld f => Sys2Proof.Machine.execLd f s
  | .st f => Sys2Proof.Machine.execSt f s
  | .pref f => Sys2Proof.Machine.execPref f s
  | .ptog f => Sys2Proof.Machine.execPtog f s
  | .ldx f => Sys2Proof.Machine.execLdx f s
  | .fence f => Sys2Proof.Machine.execFence f s
  | .waitv f => Sys2Proof.Machine.execWaitv f s
  | .publish f => Sys2Proof.Machine.execPublish f s
  | .atomAdd f => Sys2Proof.Machine.execAtomAdd f s
  | .atomSub f => Sys2Proof.Machine.execAtomSub f s
  | .atomMin f => Sys2Proof.Machine.execAtomMin f s
  | .atomMax f => Sys2Proof.Machine.execAtomMax f s
  | .atomAnd f => Sys2Proof.Machine.execAtomAnd f s
  | .atomOr f => Sys2Proof.Machine.execAtomOr f s
  | .atomXor f => Sys2Proof.Machine.execAtomXor f s
  | .atomExch f => Sys2Proof.Machine.execAtomExch f s
  | .atomCas f => Sys2Proof.Machine.execAtomCas f s
  | .atomFadd f => Sys2Proof.Machine.execAtomFadd f s
  | .atomFmin f => Sys2Proof.Machine.execAtomFmin f s
  | .atomFmax f => Sys2Proof.Machine.execAtomFmax f s
  | .shfl f => Sys2Proof.Machine.execShfl f s
  | .xred f => Sys2Proof.Machine.execXred f s
  | .scan f => Sys2Proof.Machine.execScan f s
  | .vote f => Sys2Proof.Machine.execVote f s
  | .gnew f => Sys2Proof.Machine.execGnew f s
  | .join f => Sys2Proof.Machine.execJoin f s
  | .leave f => Sys2Proof.Machine.execLeave f s
  | .gbar f => Sys2Proof.Machine.execGbar f s
  | .grank f => Sys2Proof.Machine.execGrank f s
  | .gsize f => Sys2Proof.Machine.execGsize f s
  | .gset f => Sys2Proof.Machine.execGset f s
  | .mma f => Sys2Proof.Machine.execMma f s
  | .mzero f => Sys2Proof.Machine.execMzero f s
  | .mlda f => Sys2Proof.Machine.execMlda f s
  | .msta f => Sys2Proof.Machine.execMsta f s
  | .mdrn f => Sys2Proof.Machine.execMdrn f s
  | .cpygo f => Sys2Proof.Machine.execCpygo f s
  | .cpyw f => Sys2Proof.Machine.execCpyw f s
  | .binit f => Sys2Proof.Machine.execBinit f s
  | .barv f => Sys2Proof.Machine.execBarv f s
  | .bwait f => Sys2Proof.Machine.execBwait f s
  | .btest f => Sys2Proof.Machine.execBtest f s
  | .flinit f => Sys2Proof.Machine.execFlinit f s
  | .flacq f => Sys2Proof.Machine.execFlacq f s
  | .flrel f => Sys2Proof.Machine.execFlrel f s
  | .bundleFormation core part => Sys2Proof.Machine.execBundleFormation core part s
  | .promotion slot => Sys2Proof.Machine.execPromotion slot s
  | .traceFetch p => Sys2Proof.Machine.execTraceFetch p s
  | .commit p => Sys2Proof.Machine.execCommit p s
  | .postedLoadFill id => Sys2Proof.Machine.execPostedLoadFill id s
  | .deferredFault id => Sys2Proof.Machine.execDeferredFault id s
  | .pageWalkComplete die ctx page => Sys2Proof.Machine.execPageWalkComplete die ctx page s
  | .priResponse vf page grant => Sys2Proof.Machine.execPriResponse vf page grant s
  | .storeBlockDrain core part => Sys2Proof.Machine.execStoreBlockDrain core part s
  | .waitvTimeoutCheck slot => Sys2Proof.Machine.execWaitvTimeoutCheck slot s
  | .replayCheck slot slotNo kind pipe mismatch => Sys2Proof.Machine.execReplayCheck slot slotNo kind pipe mismatch s
  | .syncPacket core => Sys2Proof.Machine.execSyncPacket core s
  | .pcSample core pick => Sys2Proof.Machine.execPcSample core pick s
  | .hangEvent ctx gid block => Sys2Proof.Machine.execHangEvent ctx gid block s
  | .barrierObjectHang gid off => Sys2Proof.Machine.execBarrierObjectHang gid off s
  | .tileStep cluster => Sys2Proof.Machine.execTileStep cluster s
  | .drainComplete gid => Sys2Proof.Machine.execDrainComplete gid s
  | .copyCommandStart gid => Sys2Proof.Machine.execCopyCommandStart gid s
  | .copyCommandComplete gid => Sys2Proof.Machine.execCopyCommandComplete gid s
  | .haloStart gid => Sys2Proof.Machine.execHaloStart gid s
  | .flumeSlotWrite gid => Sys2Proof.Machine.execFlumeSlotWrite gid s
  | .ldxTransferComplete id => Sys2Proof.Machine.execLdxTransferComplete id s
  | .mailboxSignal die => Sys2Proof.Machine.execMailboxSignal die s
  | .swapOut gid => Sys2Proof.Machine.execSwapOut gid s
  | .groupRestore gids places => Sys2Proof.Machine.execGroupRestore gids places s
  | .sliceBoundary die => Sys2Proof.Machine.execSliceBoundary die s
  | .stopRequest die ctx cores => Sys2Proof.Machine.execStopRequest die ctx cores s
  | .submission ctx entry base edits => Sys2Proof.Machine.execSubmission ctx entry base edits s
  | .breuzTranslation ctx graph kernel code => Sys2Proof.Machine.execBreuzTranslation ctx graph kernel code s
  | .nodeStart run dataAddr shadowFrames edits => Sys2Proof.Machine.execNodeStart run dataAddr shadowFrames edits s
  | .threadCreate run handles slots stores => Sys2Proof.Machine.execThreadCreate run handles slots stores s
  | .nodeRunEnd run edits => Sys2Proof.Machine.execNodeRunEnd run edits s
  | .patrolScrub found => Sys2Proof.Machine.execPatrolScrub found s
  | .reencryption page acts => Sys2Proof.Machine.execReencryption page acts s
  | .create p => Sys2Proof.Machine.execCreate p s
  | .destroy ctx => Sys2Proof.Machine.execDestroy ctx s
  | .inval ctx edits give take => Sys2Proof.Machine.execInval ctx edits give take s
  | .race ctx mode ring pages => Sys2Proof.Machine.execRace ctx mode ring pages s
  | .peer num binding => Sys2Proof.Machine.execPeer num binding s
  | .debug ctx cmd => Sys2Proof.Machine.execDebug ctx cmd s
  | .debugResume slot => Sys2Proof.Machine.execDebugResume slot s
  | .debugResumeOneTimePass slot => Sys2Proof.Machine.execDebugResumeOneTimePass slot s
  | .slotStep slot => Sys2Proof.Machine.execSlotStep slot s
  | .debugAbandon slot => Sys2Proof.Machine.execDebugAbandon slot s
  | .image item => Sys2Proof.Machine.execImage item s
  | .install kind version bytes accepts => Sys2Proof.Machine.execInstall kind version bytes accepts s
  | .start failStep reason dies => Sys2Proof.Machine.execStart failStep reason dies s
  | .log => Sys2Proof.Machine.execLog s
  | .powerOnStart failStep reason dies => Sys2Proof.Machine.execPowerOnStart failStep reason dies s
  | .heartbeat => Sys2Proof.Machine.execHeartbeat s
  | .heartbeatMiss => Sys2Proof.Machine.execHeartbeatMiss s
  | .thermalTrip => Sys2Proof.Machine.execThermalTrip s
  | .throttle die => Sys2Proof.Machine.execThrottle die s
  | .getVersion vf => Sys2Proof.Machine.execGetVersion vf s
  | .getCapabilities vf => Sys2Proof.Machine.execGetCapabilities vf s
  | .negotiateAlgorithms vf => Sys2Proof.Machine.execNegotiateAlgorithms vf s
  | .getDigests vf => Sys2Proof.Machine.execGetDigests vf s
  | .getCertificate vf => Sys2Proof.Machine.execGetCertificate vf s
  | .challenge vf nonce => Sys2Proof.Machine.execChallenge vf nonce s
  | .getMeasurements vf nonce => Sys2Proof.Machine.execGetMeasurements vf nonce s
  | .hostPostedWrite vf off bytes ide => Sys2Proof.Machine.execHostPostedWrite vf off bytes ide s
  | .bar2Read vf at_ len ide => Sys2Proof.Machine.execBar2Read vf at_ len ide s
  | .bar2Write vf addr bytes ide => Sys2Proof.Machine.execBar2Write vf addr bytes ide s
  | .bar2Atomic vf addr size op cmp data ide => Sys2Proof.Machine.execBar2Atomic vf addr size op cmp data ide s
  | .flitReceive port bytes => Sys2Proof.Machine.execFlitReceive port bytes s
  | .nakReplay port seq => Sys2Proof.Machine.execNakReplay port seq s
  | .ackTimeout port => Sys2Proof.Machine.execAckTimeout port s
  | .laneLoss port => Sys2Proof.Machine.execLaneLoss port s
  | .peerRequest num ctx addr op => Sys2Proof.Machine.execPeerRequest num ctx addr op s
  | .registerWrite target reg value => Sys2Proof.Machine.execRegisterWrite target reg value s
  | .debugHalt slot => Sys2Proof.Machine.execDebugHalt slot s
  | .hingeFill slot => Sys2Proof.Machine.execHingeFill slot s
  | .storePerformedAtHome core idx => Sys2Proof.Machine.execStorePerformedAtHome core idx s
  | .roundBoundary core => Sys2Proof.Machine.execRoundBoundary core s
  | .powerGating core on => Sys2Proof.Machine.execPowerGating core on s
  | .coreReset core => Sys2Proof.Machine.execCoreReset core s
  | .healthMonitorUpdate die eol drift cerate temp => Sys2Proof.Machine.execHealthMonitorUpdate die eol drift cerate temp s
  | .tdispRequest vf run => Sys2Proof.Machine.execTdispRequest vf run s

end Sys2Proof.Machine
end

