-- ==== Sys2Proof/Machine/Run.lean ====
section
/-! DEFINITION. One move of the machine: which move comes next, and what it performs (log 2, 15, 16, 20); and how an instruction is placed
where the next step finds it (log 13, DESIGN CHOICE). -/

namespace Sys2Proof.Machine

open Sys2Proof

/-- An event of the table, which has no words; a slot instruction is performed at an issue port alone. -/
def isEvent (i : Instr) : Bool := (encode i).isEmpty

/-- A bundle that a debugger steps moves at the debugger's request only (R211). -/
def State.stepped (s : State) (p : PortId) : Bool :=
  match s.bundle? p with
  | some b => b.lanes.any fun l => ((s.thread? l.r).map (·.stepping)).getD false
  | none => false

/-- A move of the free schedule that the machine makes. -/
def State.allowed (s : State) : Move → Bool
  | .port p => !s.stepped p
  | .event (.traceFetch p) => !s.stepped p
  | .event (.commit p) => !s.stepped p
  | .event _ => true

/-- A turn of the free schedule: what waits is tried again, in its order, before the schedule's move (log 100, DEDUCED). -/
def State.turn (s : State) (m : Option Move) : State × Option Move :=
  match s.waiting with
  | [] => (s, m)
  | i :: rest => ({ s with waiting := [], agenda := rest.map .event ++ m.toList }, some (.event i))

/-- The next move: of the agenda, else of the free schedule, at which time passes. None where the machine does not make it. -/
def State.nextMove (s : State) : State × Option Move :=
  match s.agenda with
  | m :: rest => ({ s with agenda := rest }, some m)
  | [] =>
    let m := Config.schedule s.tick
    let now := min (s.clk.toNat + Config.elapsed s.tick) (2 ^ 64 - 1)
    let t := State.passTime { s with tick := s.tick + 1, clk := .ofNat 64 now } (now - s.clk.toNat)
    t.turn (if t.allowed m then some m else none)

/-- Between steps no lane is chosen. -/
def clearCur : Host.Outcome State Fault Refusal → Host.Outcome State Fault Refusal
  | .next s => .next { s with cur := none }
  | x => x

/-- What the partition keeps of a slot that has been performed (R165). -/
def keepIssued (s : State) (p : PortId) (r : Nat) : Host.Outcome State Fault Refusal → Host.Outcome State Fault Refusal
  | .next t => .next (t.keepIssue s p r)
  | x => x

/-- Performs a move. -/
def State.perform (s : State) : Move → Host.Outcome State Fault Refusal
  | .event i => if isEvent i then exec i s else .next s
  | .port p =>
    match s.stage p with
    | .idle => .next s
    | .fetch => exec (.traceFetch p) s
    | .slot r =>
      match s.issue p r with
      | .ran s => .next s
      | .run i s => keepIssued s p r (clearCur (exec i s))
    | .commit => exec (.commit p) s

/-- One step. -/
def State.stepOnce (s : State) : Host.Outcome State Fault Refusal :=
  match s.nextMove with
  | (s, some m) => s.perform m
  | (s, none) => .next s

/-! Placing an instruction (log 13, DESIGN CHOICE) -/

/-- The port, the slot and the group of a placed instruction. -/
def placedPort : PortId := { core := 0, part := 0, port := 0 }
def placedGid : Nat := gidOf 0 1

/-- The defaults of R324; the addresses are 0, and no frame is given. -/
def placedParams : CtxParams :=
  createParams { vf := 0, root := 0, faultArea := 0, evqBase := 0, evqEntries := 64, frames := [], subPage := 0, table := [] }

/-- PSEL of `.resources` by default (R75, R134): p = 3, k = 1. -/
def placedPsel : DWord := startPsel none

/-- A trace of the words given, as its fetch leaves it: every temporary named, successor the next trace. -/
def placedTrace (ws : List Nat) : Trace :=
  { addr := 0, lword := none, hword := .ofNat 64 (0xE0 * 2 ^ 56 + ws.length * 2 ^ 51 + 8 * 2 ^ 47 + 2 ^ 42 + 0xFF * 2 ^ 32), hAddr := 0,
    slots := ws.map (.ofNat 64 ·), tword := .ofNat 64 (0xE1 * 2 ^ 56), results := [], after := 8 * (ws.length + 3) }

/-- The thread that runs it. -/
def placedThread : Thread :=
  { Thread.fresh 0 1 0 0 0 0 0 65536 0 1015 placedPsel (some { gid := placedGid, rank := 0 }) with status := .issuing placedPort }

/-- The group it is at home in: 256 granules of scratch, 16 tiles and 1,023 barrier objects. -/
def placedGroup : Group :=
  { Group.fresh placedGid 0 0 0 256 16 1023 16 false false [] with members := [(0, 0)], blocks := [(0, 0)] }

/-- A state in which the next step issues the instruction of some words: a one-lane gather bundle at its last word. -/
def State.place (s : State) (ws : List Nat) : State :=
  let b : Bundle := { p := placedPort, addr := 0, gather := some placedGid, trace := some (placedTrace ws),
                      lanes := [{ Lane.fresh placedThread 0 with at_ := ws.length }], seq := 0, since := s.clk.toNat, counted := 0, issue := 0, banks := [], brake := none }
  { s with
    agenda := [.port placedPort]
    contexts := s.contexts.filter (·.id ≠ 0) ++ [Context.fresh placedParams 0 0]
    groups := s.groups.filter (·.gid ≠ placedGid) ++ [placedGroup]
    threads := s.threads.filter (·.r ≠ 0) ++ [placedThread]
    tags := s.tags.filter (·.r ≠ 0) ++ [{ r := 0, gen := 1, live := true, home := 1, hchg := false, touched := false }]
    bundles := s.bundles.filter (·.p ≠ placedPort) ++ [b] }

end Sys2Proof.Machine
end

