-- ==== Sys2Proof/Machine/Step.lean ====
section
/-! DEFINITION. The step of the machine, and the placing of an instruction for it. -/

namespace Sys2Proof.Machine

open Sys2Proof

/-- One step: the next move of the machine, performed. -/
def step (s : State) : Host.Outcome State Fault Refusal := s.stepOnce

/-- The state with the instruction of an opcode-table row's bits where the next step issues it (log 13, DESIGN CHOICE). -/
def State.withFetchWord (s : State) (nbits w : Nat) : State := s.place (tableWords (w % 2 ^ nbits))

end Sys2Proof.Machine
end

