-- ==== Sys2Proof/Safety.lean ====
section
/-! DEFINITION. The terms that claims use: a safe run, a lane whose operands are at hand, a lane that goes on with a result, and the
canonical form of every memory. What the spec calls a fault of a thread is a trap, which is a next state. -/

namespace Sys2Proof.Machine

open Sys2Proof

/-- An outcome is a next state. -/
def runsOn : Host.Outcome State Fault Refusal → Bool
  | .next _ => true
  | .fault _ => false
  | .refused _ => false

/-- A run of `k` steps from a state is safe. -/
def safeFor (k : Nat) (s : State) : Bool := runsOn (core.run k s)

/-! Operands of a lane -/

/-- A register that a lane reads without a wait or a trap (R11, R18): v0, a temporary, a result of the running trace, or a full register
that no posted load of the running trace fills. -/
def View.atHand (v : View) (c : Nat) : Bool :=
  c == 0 || decide (1016 ≤ c) || v.l.res.any (·.code == c) || (!(v.l.posted.any fun e => e.regs.any (·.1 == c)) && !v.t.isEmpty c)

/-- A source that a lane reads without a wait or a trap; a uniform one needs a home group (R10). -/
def View.srcReady (v : View) (x : Src) : Bool :=
  if x.us then v.t.m0.isSome else x.code == 0 || (upFrom x.code x.words).all v.atHand

/-- The lane that the step has chosen stands at an instruction whose entry accepts every field (R65), whose registers are within the
thread's limit (R159) and whose sources are at hand, none of them in a poisoned line of the pool (R290). -/
def State.Ready (s : State) (v : View) (i : Instr) : Prop :=
  s.view = some v ∧ wfBool i = true ∧ outOfRange i v.t = none ∧ (srcsOf i).all v.srcReady = true ∧
    (regsRead v.l (srcsOf i)).any v.t.badRegs.contains = false

/-- The operands that such a lane reads, in field order. -/
def State.operands (s : State) (v : View) (i : Instr) : List Nat := (srcsOf i).map (s.srcVal v v.l)

/-- The state in which the lane has become `l` and stands at its next slot; everything else is as before. -/
def State.goesOn (s : State) (v : View) (l : Lane) : State := s.modLane v.p v.t.r fun _ => { l with at_ := v.l.at_ + 1 }

/-- The lane with a result of a type in the destination of an instruction, and flags raised. -/
def View.deliver (v : View) (i : Instr) (t : Ty) (x : Nat) (fl : Flags) : Lane := (putResult i v.l t x).raise fl

/-- Operand `n` that such a lane reads, as a number and as a bit pattern. -/
def State.num (s : State) (v : View) (i : Instr) (n : Nat) : Nat := (s.operands v i).getD n 0
def State.opd (s : State) (v : View) (i : Instr) (n w : Nat) : BitVec w := .ofNat w (s.num v i n)

/-- The state after an instruction that delivers a value of a type, raises flags and does nothing else. -/
def State.result (s : State) (v : View) (i : Instr) (t : Ty) (x : Nat) (fl : Flags) : State := s.goesOn v (v.deliver i t x fl)

/-- Executed for any ready lane, an instruction answers the next state in which a value of a type, a function of its operands as bit
patterns, stands in its destination; it raises no flag and does nothing else. -/
def Delivers (i : Instr) (t : Ty) (x : (Nat → (w : Nat) → BitVec w) → Nat) : Prop :=
  ∀ (s : State) (v : View), s.Ready v i → exec i s = .next (s.result v i t (x (s.opd v i)) 0)

/-- The same of an instruction that also raises flags, from its operands as numbers. -/
def Computes (i : Instr) (t : Ty) (x : (Nat → Nat) → Nat × Flags) : Prop :=
  ∀ (s : State) (v : View), s.Ready v i → exec i s = .next (s.result v i t (x (s.num v i)).1 (x (s.num v i)).2)

/-- The integer that a bit pattern of a type denotes (R78): signed for the i-types. -/
def asInt (t : Ty) (x : BitVec t.width) : Int := if t.isI then x.toInt else x.toNat

/-- A bit pattern of one width read at another: sign-extended for the i-types, else zero-extended (R79). -/
def extend (t : Ty) {n : Nat} (w : Nat) (x : BitVec n) : BitVec w := if t.isI then x.signExtend w else x.setWidth w

/-- Executed for any ready lane, an instruction delivers some value of a type and raises some flags, which stand to its operands in a
relation, and does nothing else. -/
def Meets (i : Instr) (t : Ty) (P : (Nat → Nat) → Nat × Flags → Prop) : Prop :=
  ∀ (s : State) (v : View), s.Ready v i → ∃ r : Nat × Flags, exec i s = .next (s.result v i t r.1 r.2) ∧ P (s.num v i) r

/-! Exact values -/

/-- The rational that an exact value stands for. -/
def Ex.rat (x : Ex) : Rat := (x.int : Rat) / (x.den : Rat)

/-- The rational that a value of a format denotes; infinities and NaNs denote none and count as 0. -/
def FV.rat : FV → Rat
  | .fin n m e => (if n then -(m : Rat) else m) * 2 ^ e
  | _ => 0

/-- A finite value. -/
def FV.isFin : FV → Bool
  | .fin _ _ _ => true
  | _ => false

/-! Memory -/

/-- Every memory of the machine is in its canonical form: device, host and peer memory and the scratch of every group. -/
def State.memOk (s : State) : Prop :=
  s.mem.wf = true ∧ s.hostMem.wf = true ∧ s.peerMem.wf = true ∧ ∀ g ∈ s.groups, g.scr.wf = true

end Sys2Proof.Machine
end

