-- ==== Sys2Proof/Certificates/Slice0/Obligations.lean ====
section
/-! DEFINITION. The statements for the provers. A statement about an instruction holds for every lane that stands at it with its operands at
hand (`State.Ready`): the conclusion is the whole next state, so that everything it does not name is as before. Statements of the events
of the table give the state after the event. -/

namespace Sys2Proof
open Machine

/-- R82, R78, R79: IADD, ISUB, IMUL and INEG, in every form, modulo 2^width; the immediate is sign-extended for every type. -/
def WrappingArithmetic : Prop :=
  (∀ f : FA, Delivers (.iadd f) f.ty fun o => (o 0 f.ty.width + o 1 f.ty.width).toNat) ∧
  (∀ f : FI, Delivers (.iaddImm f) f.ty fun o => (o 0 f.ty.width + f.imm.signExtend f.ty.width).toNat) ∧
  (∀ f : FA, Delivers (.isub f) f.ty fun o => (o 0 f.ty.width - o 1 f.ty.width).toNat) ∧
  (∀ f : FA, Delivers (.imul f) f.ty fun o => (o 0 f.ty.width * o 1 f.ty.width).toNat) ∧
  (∀ f : FI, Delivers (.imulImm f) f.ty fun o => (o 0 f.ty.width * f.imm.signExtend f.ty.width).toNat) ∧
  (∀ f : FA, Delivers (.ineg f) f.ty fun o => (-o 0 f.ty.width).toNat)

/-- R83: the high half of the product; multiply-add at the type's width; multiply-add at the wide type, whose addend and sum have twice the
width. The factors are signed for the i-types. -/
def WideProducts : Prop :=
  (∀ f : FA, Delivers (.imulh f) f.ty fun o =>
    (extend f.ty (2 * f.ty.width) (o 0 f.ty.width) * extend f.ty (2 * f.ty.width) (o 1 f.ty.width)).toNat / 2 ^ f.ty.width) ∧
  (∀ f : FA, Delivers (.imad f) f.ty fun o => (o 0 f.ty.width * o 1 f.ty.width + o 2 f.ty.width).toNat) ∧
  (∀ f : FA, Delivers (.imadw f) (wideOf f.ty) fun o =>
    (extend f.ty (2 * f.ty.width) (o 0 f.ty.width) * extend f.ty (2 * f.ty.width) (o 1 f.ty.width) + o 2 (2 * f.ty.width)).toNat)

/-- R87: bit by bit; the immediate is zero-extended. -/
def Logic : Prop :=
  (∀ f : FA, Delivers (.and f) f.ty fun o => (o 0 f.ty.width &&& o 1 f.ty.width).toNat) ∧
  (∀ f : FA, Delivers (.or f) f.ty fun o => (o 0 f.ty.width ||| o 1 f.ty.width).toNat) ∧
  (∀ f : FA, Delivers (.xor f) f.ty fun o => (o 0 f.ty.width ^^^ o 1 f.ty.width).toNat) ∧
  (∀ f : FA, Delivers (.andn f) f.ty fun o => (o 0 f.ty.width &&& ~~~o 1 f.ty.width).toNat) ∧
  (∀ f : FI, Delivers (.andImm f) f.ty fun o => (o 0 f.ty.width &&& f.imm.setWidth f.ty.width).toNat) ∧
  (∀ f : FI, Delivers (.orImm f) f.ty fun o => (o 0 f.ty.width ||| f.imm.setWidth f.ty.width).toNat) ∧
  (∀ f : FI, Delivers (.xorImm f) f.ty fun o => (o 0 f.ty.width ^^^ f.imm.setWidth f.ty.width).toNat)

/-- R88: the count is a whole n32 value, or the zero-extended immediate. A count of the width or more gives 0 in LSL and LSR and acts as
width − 1 in ASR; ROT takes it modulo the width. -/
def Shifts : Prop :=
  (∀ f : FA, Delivers (.lsl f) f.ty fun o => (o 0 f.ty.width <<< (o 1 32).toNat).toNat) ∧
  (∀ f : FI, Delivers (.lslImm f) f.ty fun o => (o 0 f.ty.width <<< f.imm.toNat).toNat) ∧
  (∀ f : FA, Delivers (.lsr f) f.ty fun o => (o 0 f.ty.width >>> (o 1 32).toNat).toNat) ∧
  (∀ f : FI, Delivers (.lsrImm f) f.ty fun o => (o 0 f.ty.width >>> f.imm.toNat).toNat) ∧
  (∀ f : FA, Delivers (.asr f) f.ty fun o => ((o 0 f.ty.width).sshiftRight (o 1 32).toNat).toNat) ∧
  (∀ f : FI, Delivers (.asrImm f) f.ty fun o => ((o 0 f.ty.width).sshiftRight f.imm.toNat).toNat) ∧
  (∀ f : FA, Delivers (.rot f) f.ty fun o => ((o 0 f.ty.width).rotateLeft (o 1 32).toNat).toNat) ∧
  (∀ f : FI, Delivers (.rotImm f) f.ty fun o => ((o 0 f.ty.width).rotateLeft f.imm.toNat).toNat)

/-- R89. The descriptor names position and length; bits of the field above the width read as zero; BFX sign-extends the field of an
i-type; BFI leaves the bits outside the field. -/
def BitFields : Prop :=
  (∀ f : FA, Delivers (.bfx f) f.ty fun o =>
    let pos := ((o 1 32).extractLsb' 0 7).toNat
    let len := min ((o 1 32).extractLsb' 8 7).toNat f.ty.width
    (extend f.ty f.ty.width ((o 0 f.ty.width).extractLsb' pos len)).toNat) ∧
  (∀ f : FI, Delivers (.bfxImm f) f.ty fun o =>
    let pos := (f.imm.extractLsb' 0 7).toNat
    let len := min (f.imm.extractLsb' 8 7).toNat f.ty.width
    (extend f.ty f.ty.width ((o 0 f.ty.width).extractLsb' pos len)).toNat) ∧
  (∀ f : FA, Delivers (.bfi f) f.ty fun o =>
    let pos := ((o 2 32).extractLsb' 0 7).toNat
    let len := min ((o 2 32).extractLsb' 8 7).toNat f.ty.width
    let mask := (BitVec.allOnes len).setWidth f.ty.width <<< pos
    ((o 0 f.ty.width &&& ~~~mask) ||| (o 1 f.ty.width <<< pos &&& mask)).toNat)

/-- R90: counts over the width, as n32, and the reversal. -/
def Counts : Prop :=
  (∀ f : FA, Delivers (.popc f) .n32 fun o => (o 0 f.ty.width).cpop.toNat) ∧
  (∀ f : FA, Delivers (.clz f) .n32 fun o => (o 0 f.ty.width).clz.toNat) ∧
  (∀ f : FA, Delivers (.ctz f) .n32 fun o => (o 0 f.ty.width).ctz.toNat) ∧
  (∀ f : FA, Delivers (.brev f) f.ty fun o => (o 0 f.ty.width).reverse.toNat)

/-- Whether a condition holds of two integers (R59). -/
def holdsOf (c : Cond) (a b : Int) : Bool :=
  match c with
  | .eq => a == b | .ne => a != b | .lt => decide (a < b) | .le => decide (a ≤ b) | .gt => decide (b < a) | .ge => decide (b ≤ a)

/-- R91: ICMP gives 1 or 0 as n32; SEL chooses on an n32 selector. -/
def CompareAndSelect : Prop :=
  (∀ (f : FA) (c : Cond), f.c.toNat = c.code → Delivers (.icmp f) .n32 fun o =>
    if holdsOf c (asInt f.ty (o 0 _)) (asInt f.ty (o 1 _)) then 1 else 0) ∧
  (∀ (f : FI) (c : Cond), (f.imm.extractLsb' 16 4).toNat = c.code → Delivers (.icmpImm f) .n32 fun o =>
    if holdsOf c (asInt f.ty (o 0 _)) (asInt f.ty (extend f.ty _ (f.imm.extractLsb' 0 16))) then 1 else 0) ∧
  (∀ f : FA, Delivers (.sel f) f.ty fun o => (if o 2 32 ≠ 0 then o 0 f.ty.width else o 1 f.ty.width).toNat)

/-- R92, R93: moves, constants and addresses. -/
def MovesAndAddresses : Prop :=
  (∀ f : FA, Delivers (.mov f) f.ty fun o => (o 0 f.ty.width).toNat) ∧
  (∀ f : FI, Delivers (.movi f) f.ty fun _ => (extend f.ty f.ty.width f.imm).toNat) ∧
  (∀ f : FI, Delivers (.movh f) .b32 fun o => (f.imm ++ o 0 12).toNat) ∧
  (∀ f : FA, Delivers (.lea f) .n64 fun o =>
    (o 0 64 + extend f.ty 64 (o 1 f.ty.width) * (o 2 32).setWidth 64).toNat) ∧
  (∀ f : FI, Delivers (.leaImm f) .n64 fun o => (o 0 64 + f.imm.signExtend 64).toNat)

/-- A result `r` is the rounding of a rational (R41, R42): of every exact value that stands for it, non-zero. -/
def RoundsFrom (t : Ty) (rm : Rm) (q : Rat) (r : Nat × Flags) : Prop := ∀ e : Ex, 0 < e.den → e.rat = q → r = roundTo t rm e

/-- R96 for a sum: NaNs, infinities, the rounded exact sum, and the sign of an exact zero (R42). -/
def SumOf (t : Ty) (rm : Rm) (a b : FV) (r : Nat × Flags) : Prop :=
  ((a.isNan || b.isNan) = true → r = (fnan t, if a.isSNan || b.isSNan then flIV else 0)) ∧
  (a.isInf = true → b.isInf = true → r = if a.neg = b.neg then (fsigned t a.neg (finf t), 0) else (fnan t, flIV)) ∧
  (a.isInf = true → b.isFin = true → r = (fsigned t a.neg (finf t), 0)) ∧
  (a.isFin = true → b.isInf = true → r = (fsigned t b.neg (finf t), 0)) ∧
  (a.isFin = true → b.isFin = true → a.rat + b.rat ≠ 0 → RoundsFrom t rm (a.rat + b.rat) r) ∧
  (a.isFin = true → b.isFin = true → a.rat + b.rat = 0 →
    r = (fsigned t (if a.neg = b.neg then a.neg else rm == .rdn) 0, 0))

/-- R96 for a product. -/
def ProductOf (t : Ty) (rm : Rm) (a b : FV) (r : Nat × Flags) : Prop :=
  ((a.isNan || b.isNan) = true → r = (fnan t, if a.isSNan || b.isSNan then flIV else 0)) ∧
  (a.isInf && b.isZero || a.isZero && b.isInf → r = (fnan t, flIV)) ∧
  ((a.isInf && !b.isNan && !b.isZero || b.isInf && !a.isNan && !a.isZero) = true → r = (fsigned t (a.neg != b.neg) (finf t), 0)) ∧
  (a.isFin = true → b.isFin = true → a.rat * b.rat ≠ 0 → RoundsFrom t rm (a.rat * b.rat) r) ∧
  (a.isFin = true → b.isFin = true → a.rat * b.rat = 0 → r = (fsigned t (a.neg != b.neg) 0, 0))

/-- R96 for a × b + c, the product's sign inverted where `sub` says so: product and sum exact, one rounding. -/
def FusedOf (t : Ty) (rm : Rm) (sub : Bool) (a b c : FV) (r : Nat × Flags) : Prop :=
  let n := (a.neg != b.neg) != sub
  let q := if sub then -(a.rat * b.rat) else a.rat * b.rat
  let invalid := a.isInf && b.isZero || a.isZero && b.isInf
  ((a.isNan || b.isNan || c.isNan) = true →
    r = (fnan t, if a.isSNan || b.isSNan || c.isSNan || invalid then flIV else 0)) ∧
  (c.isNan = false → invalid = true → r = (fnan t, flIV)) ∧
  (a.isNan = false → b.isNan = false → c.isNan = false → invalid = false → (a.isInf || b.isInf) = true →
    r = if c.isInf && c.neg != n then (fnan t, flIV) else (fsigned t n (finf t), 0)) ∧
  (a.isFin = true → b.isFin = true → c.isInf = true → r = (fsigned t c.neg (finf t), 0)) ∧
  (a.isFin = true → b.isFin = true → c.isFin = true → q + c.rat ≠ 0 → RoundsFrom t rm (q + c.rat) r) ∧
  (a.isFin = true → b.isFin = true → c.isFin = true → q + c.rat = 0 →
    r = (fsigned t (if n = c.neg then n else rm == .rdn) 0, 0))

/-- −0 below +0, and else the order of the values, infinities at the ends (R97). -/
def fLess (a b : FV) : Bool :=
  match a, b with
  | .nan _, _ | _, .nan _ => false
  | .inf n, .inf m => n && !m
  | .inf n, .fin _ _ _ => n
  | .fin _ _ _, .inf m => !m
  | .fin n _ _, .fin m _ _ => if a.rat = b.rat then n && !m else decide (a.rat < b.rat)

/-- R97, R98: minimumNumber and maximumNumber, which copy an operand as it stands, and the operations on the sign bit, which raise no flag
and keep NaN payloads. -/
def FloatMinMaxAndSign : Prop :=
  (∀ f : FA, Computes (.fmin f) f.ty fun o =>
    let x := o 0 % 2 ^ f.ty.width
    let y := o 1 % 2 ^ f.ty.width
    let a := fdec f.ty x
    let b := fdec f.ty y
    (if a.isNan then (if b.isNan then fnan f.ty else y) else if b.isNan then x else if fLess b a then y else x,
     if a.isSNan || b.isSNan then flIV else 0)) ∧
  (∀ f : FA, Computes (.fmax f) f.ty fun o =>
    let x := o 0 % 2 ^ f.ty.width
    let y := o 1 % 2 ^ f.ty.width
    let a := fdec f.ty x
    let b := fdec f.ty y
    (if a.isNan then (if b.isNan then fnan f.ty else y) else if b.isNan then x else if fLess a b then y else x,
     if a.isSNan || b.isSNan then flIV else 0)) ∧
  (∀ f : FA, Delivers (.fabs f) f.ty fun o => (o 0 f.ty.width &&& ~~~BitVec.twoPow f.ty.width (f.ty.width - 1)).toNat) ∧
  (∀ f : FA, Delivers (.fneg f) f.ty fun o => (o 0 f.ty.width ^^^ BitVec.twoPow f.ty.width (f.ty.width - 1)).toNat) ∧
  (∀ f : FA, Delivers (.fcps f) f.ty fun o =>
    let sign := BitVec.twoPow f.ty.width (f.ty.width - 1)
    ((o 0 f.ty.width &&& ~~~sign) ||| (o 1 f.ty.width &&& sign)).toNat)

/-- R99, R100: a comparison gives 1 or 0 as n32, with −0 equal to +0 and a NaN unordered; FCLS gives the one bit of its operand's class. -/
def FloatCompareAndClass : Prop :=
  (∀ (f : FA) (c : Cond), f.c.toNat = c.code → Computes (.fcmp f) .n32 fun o =>
    let a := fdec f.ty (o 0)
    let b := fdec f.ty (o 1)
    if a.isNan || b.isNan then
      (if c = .ne then 1 else 0, if a.isSNan || b.isSNan || (c != .eq && c != .ne) then flIV else 0)
    else
      let zero := a.isZero && b.isZero
      let lt := fLess a b && !zero
      let gt := fLess b a && !zero
      (if match c with
        | .eq => !lt && !gt
        | .ne => lt || gt
        | .lt => lt
        | .le => !gt
        | .gt => gt
        | .ge => !lt
       then 1 else 0, 0)) ∧
  (∀ f : FA, Delivers (.fcls f) .n32 fun o =>
    let x := o 0 f.ty.width
    let frac := x.toNat % 2 ^ (fprec f.ty - 1)
    let ex := x.toNat / 2 ^ (fprec f.ty - 1) % 2 ^ (f.ty.width - fprec f.ty)
    2 ^ (if ex = fexpMax f.ty then (if frac = 0 then (if x.msb then 2 else 9) else if x.getLsbD (fprec f.ty - 2) then 1 else 0)
         else if ex = 0 then (if frac = 0 then (if x.msb then 5 else 6) else if x.msb then 4 else 7)
         else if x.msb then 3 else 8))

/-- An instruction completes for every ready lane: the next state is the lane with some value of a type in its destination and some flags raised,
at its next slot. -/
def Completes (i : Instr) (t : Ty) : Prop :=
  ∀ (s : State) (v : View), s.Ready v i → ∃ (x : Nat) (fl : Flags), exec i s = .next (s.result v i t x fl)

/-- R102 for a quotient, special operands included. -/
def QuotientOf (t : Ty) (rm : Rm) (a b : FV) (r : Nat × Flags) : Prop :=
  let n := a.neg != b.neg
  ((a.isNan || b.isNan) = true → r = (fnan t, if a.isSNan || b.isSNan then flIV else 0)) ∧
  ((a.isZero && b.isZero || a.isInf && b.isInf) = true → r = (fnan t, flIV)) ∧
  (a.isFin = true → a.isZero = false → b.isZero = true → r = (fsigned t n (finf t), flDZ)) ∧
  (a.isInf = true → b.isFin = true → r = (fsigned t n (finf t), 0)) ∧
  (a.isFin = true → b.isInf = true → r = (fsigned t n 0, 0)) ∧
  (a.isZero = true → b.isFin = true → b.isZero = false → r = (fsigned t n 0, 0)) ∧
  (a.isFin = true → b.isFin = true → a.isZero = false → b.isZero = false → RoundsFrom t rm (a.rat / b.rat) r)

/-- R102 for a square root: the special operands, and else the correctly rounded root, told by the squares of the values of the format. -/
def RootOf (t : Ty) (rm : Rm) (a : FV) (r : Nat × Flags) : Prop :=
  (a.isNan = true → r = (fnan t, if a.isSNan then flIV else 0)) ∧
  (a.isNan = false → a.neg = true → a.isZero = false → r = (fnan t, flIV)) ∧
  (a.isZero = true → r = (fsigned t a.neg 0, 0)) ∧
  (a.isInf = true → a.neg = false → r = (finf t, 0)) ∧
  (a.isFin = true → a.neg = false → a.isZero = false →
    let y := (fdec t r.1).rat
    (fdec t r.1).isFin = true ∧ (fdec t r.1).neg = false ∧ r.2 = (if y ^ 2 = a.rat then 0 else flNX) ∧
    ∀ w, (fdec t w).isFin = true → (fdec t w).neg = false →
      let z := (fdec t w).rat
      match rm with
      | .rtz | .rdn => y ^ 2 ≤ a.rat ∧ (z ^ 2 ≤ a.rat → z ≤ y)
      | .rup => a.rat ≤ y ^ 2 ∧ (a.rat ≤ z ^ 2 → y ≤ z)
      | .rne | .rna => (y < z → 4 * a.rat ≤ (y + z) ^ 2) ∧ (z < y → (y + z) ^ 2 ≤ 4 * a.rat)
      | .rod => (y ^ 2 ≠ a.rat → r.1 % 2 = 1) ∧ ¬(y < z ∧ z ^ 2 ≤ a.rat) ∧ ¬(z < y ∧ a.rat ≤ z ^ 2))

/-- R102, R55 for a reciprocal: the special operands; else a value within one unit in the last place of the exact reciprocal, on the side
the mode requires, and the exact one of a power of two. -/
def ReciprocalOf (t : Ty) (rm : Rm) (a : FV) (r : Nat × Flags) : Prop :=
  let q := 1 / a.rat
  (a.isNan = true → r = (fnan t, if a.isSNan then flIV else 0)) ∧
  (a.isZero = true → r = (fsigned t a.neg (finf t), flDZ)) ∧
  (a.isInf = true → r = (fsigned t a.neg 0, 0)) ∧
  (a.isFin = true → a.isZero = false → (fdec t r.1).isFin = true →
    let y := (fdec t r.1).rat
    (∀ k : Int, |a.rat| = 2 ^ k → RoundsFrom t rm q r) ∧
    (r.2 &&& flOF = 0 → ∀ k : Int, (2 : Rat) ^ k ≤ |q| → |q| < 2 ^ (k + 1) →
      |y - q| ≤ 2 ^ (max (k - ((fprec t : Int) - 1)) (fmin2 t))) ∧
    (rm = .rup → q ≤ y) ∧ (rm = .rdn → y ≤ q) ∧ (rm = .rtz → |y| ≤ |q|))

/-- The special arguments of R103: results at ±0, at +∞ and at −∞, and whether every finite value below −0 is invalid. -/
structure Special where
  zero : Bool → Nat × Flags
  pos : Nat × Flags
  neg : Nat × Flags
  positive : Bool

/-- R103 for one function. `exact` tells the arguments at which R55 makes the result exact, with the result. Away from the special
arguments and the exact points some result is delivered, which R55 bounds and does not fix, and NX is raised. -/
def FunctionOf (x : Special) (exact : Rat → Rat → Prop) (t : Ty) (a : FV) (r : Nat × Flags) : Prop :=
  (a.isNan = true → r = (fnan t, if a.isSNan then flIV else 0)) ∧
  (a.isZero = true → r = x.zero a.neg) ∧
  (a.isInf = true → r = if a.neg then x.neg else x.pos) ∧
  (x.positive = true → a.isFin = true → a.isZero = false → a.neg = true → r = (fnan t, flIV)) ∧
  ((x.positive = true → a.neg = false) → a.isFin = true → a.isZero = false →
    (∀ q, exact a.rat q → (fdec t r.1).isFin = true ∧ (fdec t r.1).rat = q ∧ r.2 = 0) ∧
    ((∀ q, ¬exact a.rat q) → r.2 &&& flNX ≠ 0))

/-- R41 for rounding to an integer: whether `n` is the integer that a mode gives for a rational. -/
def IntegerOf (rm : Rm) (q : Rat) (n : Int) : Prop :=
  match rm with
  | .rne => |(n : Rat) - q| ≤ 1 / 2 ∧ (|(n : Rat) - q| = 1 / 2 → n % 2 = 0)
  | .rna => |(n : Rat) - q| ≤ 1 / 2 ∧ (|(n : Rat) - q| = 1 / 2 → |q| ≤ |(n : Rat)|)
  | .rtz => |(n : Rat) - q| < 1 ∧ |(n : Rat)| ≤ |q|
  | .rup => (n : Rat) - 1 < q ∧ q ≤ n
  | .rdn => (n : Rat) ≤ q ∧ q < n + 1
  | .rod => |(n : Rat) - q| < 1 ∧ ((n : Rat) ≠ q → n % 2 = 1)

/-- R101: FRND rounds to an integral value in the same format, with the sign of its operand, and raises NX and IV only. -/
def RoundToIntegral : Prop :=
  ∀ f : FA, Meets (.frnd f) f.ty fun o r =>
    let v := o 0 % 2 ^ f.ty.width
    let a := fdec f.ty v
    (a.isNan = true → r = (fnan f.ty, if a.isSNan then flIV else 0)) ∧
    ((a.isInf || a.isZero) = true → r = (v, 0)) ∧
    (a.isFin = true → a.isZero = false → ∃ n : Int, IntegerOf f.rm a.rat n ∧
      (fdec f.ty r.1).isFin = true ∧ (fdec f.ty r.1).rat = n ∧ (fdec f.ty r.1).neg = a.neg ∧
      r.2 = if (n : Rat) = a.rat then 0 else flNX)

/-- R106, R43: the conversions. The range test of a conversion to an integer is made on the rounded integer. -/
def Conversions : Prop :=
  ∀ (f : FA) (st : Ty), f.c.toNat = st.code → Meets (.cvt f) f.ty fun o r =>
    let a := fdec st (o 0)
    (st.isFloat = true → f.ty.isFloat = true →
      (a.isNan = true → r = (fnan f.ty, if a.isSNan then flIV else 0)) ∧
      (a.isInf = true → r = (fsigned f.ty a.neg (finf f.ty), 0)) ∧
      (a.isZero = true → r = (fsigned f.ty a.neg 0, 0)) ∧
      (a.isFin = true → a.isZero = false → RoundsFrom f.ty f.rm a.rat r)) ∧
    (st.isFloat = false →
      let n := asInt st (.ofNat st.width (o 0))
      (n = 0 → r = (0, 0)) ∧ (n ≠ 0 → RoundsFrom f.ty f.rm n r)) ∧
    (st.isFloat = true → f.ty.isFloat = false →
      (a.isNan = true → r = (0, flIV)) ∧
      (a.isInf = true → r = ((BitVec.ofInt f.ty.width (if a.neg then intMin f.ty else intMax f.ty)).toNat, flIV)) ∧
      (a.isFin = true → ∃ n : Int, IntegerOf f.rm a.rat n ∧
        r = if n < intMin f.ty then ((BitVec.ofInt f.ty.width (intMin f.ty)).toNat, flIV)
          else if intMax f.ty < n then ((BitVec.ofInt f.ty.width (intMax f.ty)).toNat, flIV)
          else ((BitVec.ofInt f.ty.width n).toNat, if (n : Rat) = a.rat then 0 else flNX)))

/-- The value of a KD8 code that denotes a number (R44). -/
def kdRat (code : Nat) : Rat := (if 128 ≤ code then -1 else 1) * (kdUnits (code % 128) : Rat) / (32 * 10 ^ 14)

/-- R109, R45, R46: KDX expands four codes with a block scale; zero, SAT, NaV and an absent block raise no flag. -/
def Kd8Expand : Prop :=
  ∀ f : FA, Meets (.kdx f) .q128 fun o r =>
    let S := (BitVec.ofNat 8 (o 1)).toInt
    ∃ fl : Fin 4 → Flags, r.2 = fl 0 ||| fl 1 ||| fl 2 ||| fl 3 ∧ ∀ e : Fin 4,
      let code := o 0 / 256 ^ e.val % 256
      let x := (r.1 / 2 ^ (32 * e.val) % 2 ^ 32, fl e)
      if S = -128 ∨ code = 0 then x = (0, 0)
      else if code = 0x01 then x = (finf f.ty, 0)
      else if code = 0x81 then x = (fsigned f.ty true (finf f.ty), 0)
      else if code = 0x80 then x = (fnan f.ty, 0)
      else RoundsFrom f.ty f.rm (kdRat code * 10 ^ S) x

/-- R107, R47: KDQ retries the scale while the block's largest magnitude saturates, at most three times and not beyond 127; each element takes
the nearest code at that scale, on a tie the one whose bit 0 is clear, then the smaller. -/
def Kd8Quantise : Prop :=
  ∀ f : FA, Meets (.kdq f) .n64 fun o r =>
    let S0 := max (BitVec.ofNat 8 (o 2)).toInt (-127)
    let b := fdec f.ty (o 1)
    let beyond := fun (S : Int) => b.isInf = true ∨ 10 ^ 13 * 10 ^ S < |b.rat|
    let el := fun (e : Fin 4) => fdec f.ty (o 0 / 2 ^ (32 * e.val))
    let code := fun (e : Fin 4) => r.1 / 256 ^ e.val % 256
    ∃ S : Int, r.1 / 2 ^ 32 % 2 ^ 32 = (BitVec.ofInt 32 S).toNat ∧ S0 ≤ S ∧ S ≤ 127 ∧ S ≤ S0 + 3 ∧
      (∀ k, S0 ≤ k → k < S → beyond k) ∧ (S < S0 + 3 → S < 127 → ¬beyond S) ∧
      let past := fun (e : Fin 4) => (el e).isFin = true ∧ 10 ^ 13 * 10 ^ S < |(el e).rat|
      (∀ e, ((el e).isNan = true → code e = 0x80) ∧
        ((el e).isInf = true ∨ past e → code e = if (el e).neg then 0x81 else 0x01) ∧
        ((el e).isFin = true → ¬past e →
          code e ≠ 0x80 ∧ code e % 128 ≠ 1 ∧ (code e ≠ 0 → (128 ≤ code e ↔ (el e).neg = true)) ∧
          ∀ body, body < 128 → body ≠ 1 →
            abs (abs (el e).rat / 10 ^ S - abs (kdRat (code e))) ≤ abs (abs (el e).rat / 10 ^ S - kdRat body) ∧
            (abs (abs (el e).rat / 10 ^ S - abs (kdRat (code e))) = abs (abs (el e).rat / 10 ^ S - kdRat body) →
              code e % 2 < body % 2 ∨ (code e % 2 = body % 2 ∧ abs (kdRat (code e)) ≤ kdRat body)))) ∧
      (r.2 &&& flIV ≠ 0 ↔ b.isNan = true ∨ ∃ e, (el e).isNan = true) ∧
      (r.2 &&& flOF ≠ 0 ↔ beyond S ∨ ∃ e, past e) ∧
      (r.2 &&& flUF ≠ 0 ↔ ∃ e, (el e).isFin = true ∧ (el e).rat ≠ 0 ∧ code e = 0) ∧
      (r.2 &&& flNX ≠ 0 ↔ beyond S ∨ ∃ e, (el e).isFin = true ∧ (past e ∨ kdRat (code e) * 10 ^ S ≠ (el e).rat)) ∧
      r.2 &&& flDZ = 0

/-- R104, R105: FLGR delivers the flags as the trace sees them; FLGC delivers the same and then clears those of its mask, raised before or
held in FLG, for this trace and at its commit. -/
def FlagsReadAndClear : Prop :=
  ∀ (s : State) (v : View),
    let seen := (v.t.flg &&& ~~~v.l.fclear) ||| v.l.tflags
    (∀ f : FA, s.Ready v (.flgr f) → exec (.flgr f) s = .next (s.result v (.flgr f) .n32 seen.toNat 0)) ∧
    (∀ f : FI, s.Ready v (.flgc f) → exec (.flgc f) s = .next (s.goesOn v
      { v.deliver (.flgc f) .n32 seen.toNat 0 with
        fclear := v.l.fclear ||| f.imm.setWidth 5
        tflags := v.l.tflags &&& ~~~f.imm.setWidth 5 }))

/-- The state after a Q instruction: its result, and QR pending where it asks for that (R138). -/
def qResult (s : State) (v : View) (i : Instr) (t : Ty) (x : Nat) (qr : Bool) : State :=
  s.goesOn v { v.deliver i t x 0 with qr := v.l.qr || qr }

/-- R141, R142: QINV, QDIV and QENC divide by a unit modulo M; the result is below M. QENC sets QR where numerator or denominator as given
exceeds N. PSEL is one that a CSRW may write (R135). -/
def ResidueDivision : Prop :=
  ∀ (s : State) (v : View) (f : FA), pselOk v.t.psel = true →
    let p := pselP v.t.psel
    let M := p ^ pselK v.t.psel
    (s.Ready v (.qinv f) → Nat.gcd (s.num v (.qinv f) 0) p = 1 →
      ∃ z, z < M ∧ s.num v (.qinv f) 0 * z % M = 1 ∧ exec (.qinv f) s = .next (qResult s v (.qinv f) .q128 z false)) ∧
    (s.Ready v (.qdiv f) → Nat.gcd (s.num v (.qdiv f) 1) p = 1 →
      ∃ z, z < M ∧ s.num v (.qdiv f) 1 * z % M = s.num v (.qdiv f) 0 % M ∧
        exec (.qdiv f) s = .next (qResult s v (.qdiv f) .q128 z false)) ∧
    (s.Ready v (.qenc f) → Nat.gcd (s.num v (.qenc f) 1) p = 1 →
      let num := (s.opd v (.qenc f) 0 64).toInt
      let den := s.num v (.qenc f) 1
      ∃ z, z < M ∧ ((den : Int) * z - num) % M = 0 ∧
        exec (.qenc f) s = .next (qResult s v (.qenc f) .q128 z (decide (pselN v.t.psel < num.natAbs ∨ pselN v.t.psel < den))))

/-- R141, R142, R138: a divisor that is no unit takes the precise trap non-invertible-divisor, cause 0x14, whose record names the slot and the
divisor's operand. -/
def NonInvertibleDivisor : Prop :=
  ∀ (s : State) (v : View) (f : FA),
    let p := pselP v.t.psel
    (s.Ready v (.qinv f) → Nat.gcd (s.num v (.qinv f) 0) p ≠ 1 →
      exec (.qinv f) s = .next (s.slotFault v { v.info (.qinv f) 0x14 0 with opnd := 0 })) ∧
    (s.Ready v (.qdiv f) → Nat.gcd (s.num v (.qdiv f) 1) p ≠ 1 →
      exec (.qdiv f) s = .next (s.slotFault v { v.info (.qdiv f) 0x14 0 with opnd := 1 })) ∧
    (s.Ready v (.qenc f) → Nat.gcd (s.num v (.qenc f) 1) p ≠ 1 →
      exec (.qenc f) s = .next (s.slotFault v { v.info (.qenc f) 0x14 0 with opnd := 1 }))

/-- R59, R99, R112: a comparison of two values of a type, and the flags it raises: signed or unsigned for integers, −0 equal to +0 and a NaN
unordered for floating point. -/
def compared (t : Ty) (c : Cond) (x y : Nat) : Bool × Flags :=
  if t.isFloat then
    let a := fdec t x
    let b := fdec t y
    if a.isNan || b.isNan then (c == .ne, if a.isSNan || b.isSNan || (c != .eq && c != .ne) then flIV else 0)
    else
      let lt := fLess a b && !(a.isZero && b.isZero)
      let gt := fLess b a && !(a.isZero && b.isZero)
      (match c with
        | .eq => !lt && !gt
        | .ne => lt || gt
        | .lt => lt
        | .le => !gt
        | .gt => gt
        | .ge => !lt, 0)
  else (holdsOf c (asInt t (.ofNat t.width x)) (asInt t (.ofNat t.width y)), 0)

/-- A guard of a ready lane passes or fails as told: the lane goes on with the flags raised, or takes its alternative (R19, R110). -/
def Guards (i : Instr) (alt : BitVec 24) (x : View → (Nat → Nat) → Bool × Flags) : Prop :=
  ∀ (s : State) (v : View), s.Ready v i → exec i s = .next
    (if (x v (s.num v i)).1 then s.goesOn v (v.l.raise (x v (s.num v i)).2) else s.failGuard v alt.toInt)

/-- R112 to R116: what each guard tests. -/
def GuardTests : Prop :=
  (∀ f : FG, Guards (.gcmp f) f.alt fun _ o => compared f.ty f.cond (o 0) (o 1)) ∧
  (∀ f : FG, Guards (.gcmpImm f) f.alt fun _ o =>
    if f.ty.isFloat then compared f.ty f.cond (o 0) (roundTo f.ty .rne (exInt f.b.toInt 1)).1
    else compared f.ty f.cond (o 0) (f.b.signExtend f.ty.width).toNat) ∧
  (∀ f : FG, Guards (.gz f) f.alt fun _ o =>
    if f.ty.isFloat then ((fdec f.ty (o 0)).isZero, if (fdec f.ty (o 0)).isSNan then flIV else 0)
    else (decide (o 0 % 2 ^ f.ty.width = 0), 0)) ∧
  (∀ f : FG, Guards (.gnz f) f.alt fun _ o =>
    if f.ty.isFloat then (!(fdec f.ty (o 0)).isZero, if (fdec f.ty (o 0)).isSNan then flIV else 0)
    else (decide (o 0 % 2 ^ f.ty.width ≠ 0), 0)) ∧
  (∀ f : FG, Guards (.grng f) f.alt fun _ o =>
    let lo := compared f.ty .le (o 1 % 2 ^ (32 * f.ty.words)) (o 0)
    let hi := compared f.ty .le (o 0) (o 1 / 2 ^ (32 * f.ty.words))
    (lo.1 && hi.1, lo.2 ||| hi.2)) ∧
  (∀ f : FG, Guards (.gflg f) f.alt fun v o => (((v.t.flg &&& ~~~v.l.fclear) ||| v.l.tflags) &&& BitVec.ofNat 5 (o 0) == 0, 0)) ∧
  (∀ f : FG, Guards (.gflgImm f) f.alt fun v _ => (((v.t.flg &&& ~~~v.l.fclear) ||| v.l.tflags) &&& f.b.setWidth 5 == 0, 0)) ∧
  (∀ f : FG, Guards (.gfull f) f.alt fun v _ =>
    (!(v.t.empty.contains f.a.toNat && !v.t.fills.contains f.a.toNat) || f.a.toNat == 0 || decide (1016 ≤ f.a.toNat) ||
      v.l.res.any (·.code == f.a.toNat) || v.l.posted.any (fun e => e.regs.any (·.1 == f.a.toNat)), 0))

/-- R19: a lane that fails a guard loses what its trace has done. Its PC becomes the alternative, counted in words from the trace's H word,
its loop ends, and its registers, full/empty bits and FLG stand as before the trace; no memory changes. A taken flume slot goes back and a
traced core writes its records: neither is the case here. -/
def GuardFailure : Prop :=
  ∀ (s : State) (v : View) (alt : Int), s.view = some v → v.l.flumes = [] → (s.core v.p.core).trace = none →
    let t := s.failGuard v alt
    t.mem = s.mem ∧ t.hostMem = s.hostMem ∧ t.peerMem = s.peerMem ∧ t.groups.map (·.scr) = s.groups.map (·.scr) ∧
    t.blocks = s.blocks ∧ t.out = s.out ∧ t.oplog = s.oplog ∧
    ∃ th, t.thread? v.t.r = some th ∧ th.pc = BitVec.ofInt 64 (v.tr.hAddr + 8 * alt) ∧ th.pos = 0 ∧ th.cnt = none ∧
      th.regs = v.t.regs ∧ th.empty = v.t.empty ∧ th.fills = v.t.fills ∧ th.flg = v.t.flg ∧ th.psel = v.t.psel ∧ th.m0 = v.t.m0 ∧
      th.m1 = v.t.m1 ∧ th.m2 = v.t.m2 ∧ th.m3 = v.t.m3 ∧ th.trap = v.t.trap ∧ th.tstat = setBit v.t.tstat tstatRPASS false

/-- R10, R18, R36, R78: where a result stands once its slot has gone on. A register of the destination holds its word of the value, extended
as its type says; every other register code reads as before; v0 stays zero. -/
def ResultLands : Prop :=
  ∀ (l : Lane) (t : Thread) (d x n c : Nat), sWf l.temps = true → (1016 ≤ d → d + n ≤ 1024) → (d ≤ 1015 → d + n ≤ 1016) → c ≤ 1023 →
    laneReg (l.putN d x n) t c =
      if d ≠ 0 ∧ d ≤ c ∧ c < d + n then BitVec.ofNat 32 (x / 2 ^ (32 * (c - d))) else laneReg l t c

/-- R36: how a value of each type fills its registers. -/
def RegisterImages : Prop :=
  ∀ (t : Ty) (x : Nat), x < 2 ^ t.width → regImage t x =
    if t = .i8 ∨ t = .i16 then ((BitVec.ofNat t.width x).signExtend 32).toNat
    else ((BitVec.ofNat t.width x).setWidth (max 32 t.width)).toNat

/-- R11, R10, R205: the first source, in field order (log 14, DEDUCED), that a lane cannot read. A register that it finds empty with no fill pending
gives the empty-register trap, cause 0x03, whose record names it; with a fill pending the lane waits, unless the source's fe bit asks for the
trap. A uniform source without a home group gives cause 0x19. -/
def EmptySources : Prop :=
  ∀ (s : State) (v : View) (i : Instr) (k : State → View → List Nat → Act), s.view = some v → wfBool i = true →
    (∀ (before after : List Src) (x : Src) (cs ds : List Nat) (c : Nat), srcsOf i = before ++ x :: after →
      before.all v.srcReady = true → x.us = false → x.code ≠ 0 → upFrom x.code x.words = cs ++ c :: ds →
      cs.all v.atHand = true → 0 < c → c ≤ 1015 → v.l.res.any (·.code == c) = false →
      v.l.posted.any (fun e => e.regs.any (·.1 == c)) = false → v.t.isEmpty c = true →
      (v.t.fills.contains c = false → runSlot i s k =
        .next (s.slotFault v { v.info i 0x03 (if x.fe then 2 else 0) with reg := c, opnd := x.opnd })) ∧
      (v.t.fills.contains c = true → x.fe = false → runSlot i s k = .next (s.modLane v.p v.t.r fun _ => v.l)) ∧
      (v.t.fills.contains c = true → x.fe = true → runSlot i s k =
        .next (s.slotFault v { v.info i 0x03 3 with reg := c, opnd := x.opnd }))) ∧
    (∀ (before after : List Src) (x : Src), srcsOf i = before ++ x :: after → before.all v.srcReady = true → x.us = true → v.t.m0 = none →
      runSlot i s k = .next (s.slotFault v (v.info i 0x19 0)))

/-- R65 to R67, R159, R205: a slot word whose fields its entry does not accept takes illegal-encoding, cause 0x01, before anything is read, and
under probe mode acts as NOP and sets PRB when its trace commits. A register above the thread's limit takes cause 0x04 with the limit, once every
source can be read, a uniform one by its home group; which of several such registers the record names is log 14 (DEDUCED). -/
def RefusedFields : Prop :=
  ∀ (s : State) (v : View) (i : Instr) (k : State → View → List Nat → Act), s.view = some v →
    (wfBool i = false → v.t.pen = false → runSlot i s k = .next (s.slotFault v (v.info i 0x01 0))) ∧
    (wfBool i = false → v.t.pen = true →
      runSlot i s k = .next (s.modLane v.p v.t.r fun l => { l with prb := true, at_ := l.at_ + 1 })) ∧
    (∀ c o, wfBool i = true → (srcsOf i).all v.srcReady = true → outOfRange i v.t = some (c, o) →
      v.t.limit < c ∧ c ≤ 1015 ∧ runSlot i s k = .next (s.slotFault v { v.info i 0x04 v.t.limit with reg := c, opnd := o }))

/-- R290: a source register in a poisoned line of the pool reads as it stands, and sets POISON in the CIR of the thread's run; the instruction goes
on (that a line of the pool can be poisoned register by register is log 99, DEDUCED). -/
def PoisonedSources : Prop :=
  ∀ (s u : State) (v : View) (i : Instr) (k : State → View → List Nat → Act) (l : Lane), s.view = some v → wfBool i = true →
    outOfRange i v.t = none → (srcsOf i).all v.srcReady = true → (regsRead v.l (srcsOf i)).any v.t.badRegs.contains = true →
    k (s.setCir v.t.run cirPOISON) v (s.operands v i) = .done u l → runSlot i s k = .next (u.goesOn v l)

/-- R128: FILL and VOID change a register's full/empty bit when the trace commits, and not its value. -/
def FillAndVoid : Prop :=
  ∀ (s : State) (v : View) (f : FS) (full : Bool),
    let i : Instr := if full then .fill f else .void f
    s.Ready v i → ∃ l, exec i s = .next (s.goesOn v l) ∧
      (l.res.find? (·.code == f.d.toNat)).any (·.full == full) = true ∧
      (∀ t c, laneReg l t c = laneReg v.l t c) ∧
      (∀ c, c ≠ f.d.toNat → l.res.find? (·.code == c) = v.l.res.find? (·.code == c))

/-- R129: WAITF looks at the registers of its span that no earlier slot of its trace has written. All full: it goes on. One empty with no fill
pending: the empty-register trap names the first of them. Else the lane abandons its trace and parks. -/
def WaitForFull : Prop :=
  ∀ (s : State) (v : View) (f : FS), s.Ready v (.waitf f) →
    let span := (List.range f.imm.toNat).map (f.d.toNat + ·) |>.filter fun c =>
      f.d ≠ 0 ∧ c ≤ 1015 ∧ v.l.res.any (·.code == c) = false ∧ v.l.posted.any (fun e => e.regs.any (·.1 == c)) = false
    ((∀ c ∈ span, v.t.isEmpty c = false) → exec (.waitf f) s = .next (s.goesOn v v.l)) ∧
    (∀ c, span.find? (fun c => v.t.isEmpty c && !v.t.fills.contains c) = some c →
      exec (.waitf f) s = .next (s.slotFault v { v.info (.waitf f) 0x03 0 with reg := c, opnd := 3 })) ∧
    ((∀ c ∈ span, v.t.isEmpty c = true → v.t.fills.contains c = true) → (∃ c ∈ span, v.t.isEmpty c = true) →
      exec (.waitf f) s = .next (((s.park v.t.r (.waitf f.d.toNat f.imm.toNat)).abandon v.p v.t.r).leaveBundle v.p))

/-- R118, R279, R280: checks 1 to 4 of an access, in their order, each over all its values: the window and the private size, cause 0x08; the
space asserted, 0x09 with its code; alignment, 0x0A; the allocation of scratch, 0x0B with the allocation. -/
def AccessChecks : Prop :=
  ∀ (s : State) (t : Thread) (sp : Space) (va size n : Nat),
    let vs := (List.range n).map (va + · * size)
    let c1 := fun v => !inWindows t v size
    let c2 := fun v => !inSpace sp v size
    let c4 := fun v => (s.scratchBreach t v size).isSome
    (∀ v, vs.find? c1 = some v → s.check14 t sp va size n = some (.fault 0x08 0 v)) ∧
    (∀ v, vs.find? c1 = none → vs.find? c2 = some v → s.check14 t sp va size n = some (.fault 0x09 sp.code v)) ∧
    (vs.find? c1 = none → vs.find? c2 = none → va % size ≠ 0 → s.check14 t sp va size n = some (.fault 0x0A 0 va)) ∧
    (∀ v a, vs.find? c1 = none → vs.find? c2 = none → va % size = 0 → vs.find? c4 = some v → s.scratchBreach t v size = some a →
      s.check14 t sp va size n = some (.fault 0x0B a v)) ∧
    (vs.find? c1 = none → vs.find? c2 = none → va % size = 0 → vs.find? c4 = none → s.check14 t sp va size n = none)

/-- The twelve atomics with one set of fields. -/
def atomicsOf (f : FM) : List Instr :=
  [.atomAdd f, .atomSub f, .atomMin f, .atomMax f, .atomAnd f, .atomOr f, .atomXor f, .atomExch f, .atomCas f, .atomFadd f, .atomFmin f, .atomFmax f]

/-- R118, R119: a store, a load, a WAITV or an atomic whose checks 1 to 6 fail takes the fault in its slot, with no store, load or hinge kept; the
record names the size and the address. A plain load into named registers does so but for a page without mapping (`LoadInSlot`); the walker knows it
by its entry of the operand log, every other access by its thread. -/
def AccessFaults : Prop :=
  ∀ (s s' : State) (v : View) (f : FM) (c d a : Nat),
    let va := fun (i : Instr) (idx : Int) => (BitVec.ofInt 64 ((s.num v i 0 : Int) + idx + f.off)).toNat
    let fault := fun (i : Instr) => { v.info i c d with size := Nat.log2 f.ty.bytes, addr := a }
    (s.Ready v (.st f) →
      s.checkAccess v.t (s.attrs v.t f.pre ordSt).space (va (.st f) ((s.opd v (.st f) 1 32).toInt * f.ty.bytes)) f.ty.bytes (cntOf f.cnt) true
        = (s', .fault c d a) →
      exec (.st f) s = .next (s'.slotFault v (fault (.st f)))) ∧
    (s.Ready v (.ld f) →
      s.checkAccess v.t (s.attrs v.t f.pre ordLd).space (va (.ld f) ((s.opd v (.ld f) 1 32).toInt * f.ty.bytes)) f.ty.bytes (cntOf f.cnt) false
        (if 1 ≤ f.d.toNat ∧ f.d.toNat ≤ 1015 ∧ (s.attrs v.t f.pre ordLd).ord = .plain then loadWho s.seq else v.t.r) = (s', .fault c d a) →
      (c ≠ 0x0C ∨ f.d.toNat = 0 ∨ 1016 ≤ f.d.toNat ∨ (s.attrs v.t f.pre ordLd).ord ≠ .plain) →
      exec (.ld f) s = .next (s'.slotFault v (fault (.ld f)))) ∧
    (s.Ready v (.waitv f) →
      s.checkAccess v.t (s.attrs v.t f.pre ordWaitv).space (va (.waitv f) ((s.opd v (.waitv f) 1 32).toInt * f.ty.bytes)) f.ty.bytes 1 false
        = (s', .fault c d a) →
      exec (.waitv f) s = .next (s'.slotFault v (fault (.waitv f)))) ∧
    (∀ i ∈ atomicsOf f, s.Ready v i → s.checkAccess v.t (s.attrs v.t f.pre ordAny).space (va i 0) f.ty.bytes 1 true = (s', .fault c d a) →
      exec i s = .next (s'.slotFault v (fault i)))

/-- The address of a load, a store or a WAITV: base, index by the access size, offset, modulo 2^64 (R118). -/
def addrOf (s : State) (v : View) (i : Instr) (f : FM) : Nat :=
  (BitVec.ofInt 64 ((s.num v i 0 : Int) + (s.opd v i 1 32).toInt * f.ty.bytes + f.off)).toNat

/-- R25, R117 to R120: a plain load into named registers is posted: it leaves its slot with an entry of the operand log that names its registers
and, where its translation is at hand, the places of its values. A load into temporaries or v0, or with an ordering, delivers in its slot,
and waits there for a translation; a byte of a peer is asked for. Race checking is off. A posted load whose walk found no mapping, or whose host
page was refused, keeps that fault with its entry (R119, R287). An sc load behind an sc store of its own trace notes what it has seen (R298;
log 94, DEDUCED). -/
def LoadInSlot : Prop :=
  ∀ (s s' : State) (v : View) (f : FM) (ps : List (Place × Bool)), s.Ready v (.ld f) →
    let i : Instr := .ld f
    let pw := s.attrs v.t f.pre ordLd
    let n := cntOf f.cnt * f.ty.words
    let named := 1 ≤ f.d.toNat ∧ f.d.toNat ≤ 1015 ∧ pw.ord = .plain
    let checked := s.checkAccess v.t pw.space (addrOf s v i f) f.ty.bytes (cntOf f.cnt) false (if named then loadWho s.seq else v.t.r)
    let posts := fun (walk : Bool) (places : List Place) (fault : Option (Nat × Nat × Nat)) =>
      ∃ e l, exec i s = .next (({ s' with seq := s'.seq + 1 } : State).goesOn v l) ∧ e ∈ l.posted ∧ l.pond = v.l.pond ∧
        e.regs = (List.range n).map (fun j => (f.d.toNat + j, j)) ∧ e.places = places ∧ e.walk = walk ∧ e.data = none ∧ e.fault = fault ∧
        e.ty = f.ty ∧ e.n = cntOf f.cnt ∧ e.va = addrOf s v i f ∧ e.r = v.t.r ∧ e.slotNo = v.l.at_ ∧
        ∀ c, f.d.toNat ≤ c → c < f.d.toNat + n → l.res.any (·.code == c) = false
    (∀ d a, checked = (s', .fault 0x0C d a) → named → posts false [] (some (0x0C, d, a))) ∧
    (checked = (s', .wait) → (named → posts true [] none) ∧ (¬named → exec i s = .next (s'.modLane v.p v.t.r fun _ => v.l))) ∧
    (checked = (s', .ok ps) → s'.raceMode v.t.ctx v.t.run = 0 → (named → posts false (ps.map (·.1)) none) ∧
      (¬named → v.l.posted = [] → s'.outstanding v.t.r = [] →
        (pw.ord = .sc → ∀ st ∈ s'.drained (coreOfSlot v.t.r), st.ord ≠ .sc) →
        let seen := s'.viewValues v.t v.l.stores f.ty.bytes (ps.map (·.1))
        let asked := ps.foldl (fun (u : State) x => u.askPeer [] x.1) s'
        ∃ l, exec i s = .next ((asked.notePoison v.t.run seen.2).goesOn v l) ∧ l.pond = v.l.pond ∧
          l.scReads = (if pw.ord = .sc ∧ v.l.stores.any (·.ord == .sc) then v.l.scReads ++ [(v.l.at_, f.ty.bytes, ps.map (·.1), seen.1)]
            else v.l.scReads) ∧
          (f.d.toNat = 0 → l = { v.l with scReads := l.scReads }) ∧
          (1016 ≤ f.d.toNat → l.res = v.l.res) ∧
          (1 ≤ f.d.toNat → sWf v.l.temps = true → ∀ j, j < n → laneReg l v.t (f.d.toNat + j) =
            (loadImages f.ty (cntOf f.cnt) seen.1).getD j 0)))

/-- R18, R163: what a load sees of a byte: the newest store of its own trace, else of its thread's queue, else one that has drained into its core,
else memory, which reads as all ones where its line is poisoned (R290). That no older value is seen, by no stale copy, is log 4 (DEDUCED): R294 to
R298 would let an older one be read. -/
def LoadSeesNewest : Prop :=
  ∀ (s : State) (t : Thread) (pond : List Store) (st : Store) (k : Nat) (p : Place),
    (k < st.bytes.length → s.viewByte t (pond ++ [st]) (st.place.add k) = (st.bytes.getD k 0, false)) ∧
    (newestByte pond p = none → newestByte (s.queued t.r t.gen) p = none → newestByte (s.drained (coreOfSlot t.r)) p = none →
      s.viewByte t pond p = if s.poisoned p then (0xFF, true) else (s.byteAt p, false)) ∧
    (∀ b, newestByte pond p = none → newestByte (s.queued t.r t.gen) p = some b → s.viewByte t pond p = (b, false)) ∧
    (∀ b, newestByte pond p = none → newestByte (s.queued t.r t.gen) p = none →
      newestByte (s.drained (coreOfSlot t.r)) p = some b → s.viewByte t pond p = (b, false))

/-- The hinge that an atomic of an operation number keeps for commit (R171): its data and the place it names. -/
def KeepsAtomic (i : Instr) (op : Nat) (f : FM) : Prop :=
  ∀ (s s' : State) (v : View) (p : Place) (chk : Bool), s.Ready v i →
    let va := (BitVec.ofInt 64 ((s.num v i 0 : Int) + f.off)).toNat
    let pw := s.attrs v.t f.pre ordAny
    s.checkAccess v.t pw.space va f.ty.bytes 1 true = (s', .ok [(p, chk)]) → s'.raceMode v.t.ctx v.t.run = 0 →
    (∀ h a, p = .host h a → op = 0 ∨ op = 7 ∨ op = 8) →
    exec i s = .next (s'.goesOn v { v.l with hinge := some (.atom op f.ty f.d.toNat (s.num v i 1) p va pw .dflt v.l.at_) })

/-! Lanes together -/

/-- The lanes of the segment of a lane (R178). -/
def segmentOf (ps : List Peer) (p : Peer) (c : Nat) : List Peer :=
  ps.filter fun q => q.v.l.no / max 1 (64 / 2 ^ (c % 8)) == p.v.l.no / max 1 (64 / 2 ^ (c % 8))

/-- R184, R185, R188 to R191: the group instructions in their slots. A new membership needs a free slot, GBAR its membership, GSET a home group; else
cause 0x18 or 0x19. Ranks and sizes are delivered as they stand. -/
def GroupSlots : Prop :=
  ∀ (s : State) (v : View) (f : FX),
    (s.Ready v (.gnew f) → v.t.freeSlot.isSome = true → exec (.gnew f) s = .next (s.goesOn v
      { v.l with hinge := some (.gnew f.d.toNat (s.num v (.gnew f) 0) (s.num v (.gnew f) 1)) })) ∧
    (s.Ready v (.join f) → v.t.freeSlot.isSome = true → exec (.join f) s = .next (s.goesOn v
      { v.l with hinge := some (.join f.d.toNat (s.num v (.join f) 0)) })) ∧
    (s.Ready v (.gnew f) → v.t.freeSlot = none → exec (.gnew f) s = .next (s.slotFault v (v.info (.gnew f) 0x18 0))) ∧
    (s.Ready v (.join f) → v.t.freeSlot = none →
      exec (.join f) s = .next (s.slotFault v (v.info (.join f) 0x18 (s.num v (.join f) 0)))) ∧
    (s.Ready v (.leave f) → exec (.leave f) s = .next (s.goesOn v { v.l with hinge := some (.leave (s.num v (.leave f) 0)) })) ∧
    (s.Ready v (.gbar f) → (v.t.mem f.c.toNat).isSome = true →
      exec (.gbar f) s = .next (s.goesOn v { v.l with hinge := some (.gbar f.c.toNat) })) ∧
    (s.Ready v (.gbar f) → v.t.mem f.c.toNat = none →
      exec (.gbar f) s = .next (s.slotFault v (v.info (.gbar f) 0x19 f.c.toNat))) ∧
    (s.Ready v (.grank f) → exec (.grank f) s = .next (s.result v (.grank f) .n32
      (match v.t.mem f.c.toNat with
       | some m => m.rank
       | none => 2 ^ 32 - 1) 0)) ∧
    (s.Ready v (.gsize f) → exec (.gsize f) s = .next (s.result v (.gsize f) .n32
      (match (v.t.mem f.c.toNat).bind fun m => s.group? m.gid with
       | some g => g.members.length
       | none => 0) 0)) ∧
    (s.Ready v (.gset f) → v.t.m0.isSome = true → ∃ l, exec (.gset f) s = .next (s.goesOn v l) ∧
      (∀ j, j < f.ty.words → l.gsets.find? (·.1 == f.d.toNat + j) =
        some (f.d.toNat + j, BitVec.ofNat 32 (s.num v (.gset f) 0 / 2 ^ (32 * j)))) ∧
      (∀ c, ¬(f.d.toNat ≤ c ∧ c < f.d.toNat + f.ty.words) → l.gsets.find? (·.1 == c) = v.l.gsets.find? (·.1 == c)) ∧
      l.res = v.l.res ∧ l.temps = v.l.temps) ∧
    (s.Ready v (.gset f) → v.t.m0 = none → exec (.gset f) s = .next (s.slotFault v (v.info (.gset f) 0x19 0)))

/-- R184 to R186, R188: what GNEW, JOIN, LEAVE and an arrival at GBAR do at step 6. A new group is empty but for its creator, whose d receives
the handle (which handle is log 8); a joiner takes the lowest free rank, in m0 one of a lane set of its slot block, and d receives it; a
refusal changes nothing but d. A thread that leaves is no member any more. An arrival completes the phase of the members expected once all
have arrived: K advances and none of them waits. No core is traced. -/
def GroupHinges : Prop :=
  (∀ (s : State) (v : View) (x : Going) (t : Thread) (d a b m : Nat), s.thread? v.t.r = some t → v.l.hinge = some (.gnew d a b) → 1 ≤ d →
    let u := s.performHinge v x
    let core := coreOfSlot v.t.r
    let rchk := ((s.run? t.run).map (·.rchk)).getD false
    let filled := fun (y : Thread) (n : Nat) => { y with hingeFills := y.hingeFills ++ [{ code := d, words := 1, value := n }] }
    let room := s.poolUsed core + scratchUnits (ceilDiv a 256) rchk + 2 * b ≤ Config.poolUnits ∧ s.uniformUsed core < Config.uniformStore ∧
      (m = 0 → ∀ g ∈ s.groups, ∀ y ∈ g.blocks, y.2 ≠ blockOfSlot v.t.r)
    t.freeSlot = some m →
    (4128768 < a ∨ 16 < b ∨ ¬room → u = s.modThread v.t.r fun y => filled y 0) ∧
    (a ≤ 4128768 → b ≤ 16 → room → s.group? (gidOf t.ctx (s.newHandle t.ctx).2) = none → ∃ h g, 0 < h ∧ h < 2 ^ 20 ∧
      u.thread? v.t.r = some (filled (t.setMem m (some { gid := gidOf t.ctx h, rank := 0 })) h) ∧ u.group? (gidOf t.ctx h) = some g ∧
      g.members = [(v.t.r, 0)] ∧ g.home = core ∧ g.ctx = t.ctx ∧ g.tile = b ∧ g.alloc = 256 * ceilDiv a 256 ∧ g.scr = [] ∧ g.uni = [] ∧
      g.tiles = [] ∧ g.k = 0 ∧ u.mem = s.mem)) ∧
  (∀ (s : State) (v : View) (x : Going) (t : Thread) (d handle : Nat), s.thread? v.t.r = some t → v.l.hinge = some (.join d handle) → 1 ≤ d →
    let u := s.performHinge v x
    let gid := gidOf t.ctx handle
    let filled := fun (y : Thread) (n : Nat) => { y with hingeFills := y.hingeFills ++ [{ code := d, words := 1, value := n }] }
    (handle = 0 ∨ s.group? gid = none ∨ (∃ g, s.group? gid = some g ∧ (g.dissolved = true ∨ (∃ y ∈ g.members, y.1 = v.t.r) ∨
        8192 ≤ g.members.length ∨ clusterOfCore g.home ≠ clusterOfSlot v.t.r)) →
      u = s.modThread v.t.r fun y => filled y (2 ^ 32 - 1)) ∧
    (∀ g m k, handle ≠ 0 → handle < 2 ^ 20 → s.group? gid = some g → g.dissolved = false → (∀ y ∈ g.members, y.1 ≠ v.t.r) →
      g.members.length < 8192 → clusterOfCore g.home = clusterOfSlot v.t.r → t.freeSlot = some m →
      (m = 0 → s.homeRank g v.t.r = some k) → (m ≠ 0 → k < 8192 ∧ (∀ y ∈ g.members, y.2 ≠ k) ∧ ∀ j, j < k → ∃ y ∈ g.members, y.2 = j) →
      ∃ h, u.thread? v.t.r = some (filled (t.setMem m (some { gid, rank := k })) k) ∧ u.group? gid = some h ∧
        h.members = g.members ++ [(v.t.r, k)] ∧ (∀ y ∈ g.members, y.2 ≠ k) ∧ (m = 0 → (k / 64, blockOfSlot v.t.r) ∈ h.blocks) ∧
        (m ≠ 0 → h.blocks = g.blocks) ∧ h.scr = g.scr ∧ h.uni = g.uni ∧ u.mem = s.mem)) ∧
  (∀ (s : State) (v : View) (x : Going) (t : Thread) (handle : Nat), s.thread? v.t.r = some t → v.l.hinge = some (.leave handle) →
    let u := s.performHinge v x
    ((∀ m, m < 4 → ∀ y, t.mem m = some y → handleOf y.gid ≠ handle) → u = s) ∧
    (∀ m y g, m < 4 → t.mem m = some y → handleOf y.gid = handle → y.gid = gidOf t.ctx handle →
      (∀ k, k < m → ∀ z, t.mem k = some z → handleOf z.gid ≠ handle) → s.group? y.gid = some g → (∀ h ∈ s.groups, h.gid = y.gid → h = g) →
      g.gbar = none → s.arrivals = [] → u.thread? v.t.r = some (t.setMem m none) ∧ u.mem = s.mem ∧
        (∀ h, u.group? y.gid = some h → h.members = g.members.filter (·.1 ≠ v.t.r) ∧ (h.dissolved = true ↔ h.members = [])) ∧
        ((∃ z ∈ g.members, z.1 ≠ v.t.r) → (u.group? y.gid).isSome = true))) ∧
  (∀ (s : State) (gid r : Nat) (g : Group) (ph : Gbar), s.group? gid = some g → g.gbar = some ph → r ∈ ph.expected → r ∉ ph.arrived →
    (∀ c, (s.core c).trace = none) →
    let u := s.gbarArrive gid r
    ((∃ y ∈ ph.expected, y ≠ r ∧ y ∉ ph.arrived) → u.group? gid = some { g with
      gbar := some { ph with arrived := setAdd r ph.arrived, waited := 0 } }) ∧
    ((∀ y ∈ ph.expected, y = r ∨ y ∈ ph.arrived) → ph.held = [] →
      (∀ y ∈ r :: ph.arrived, ∀ t, s.thread? y = some t → (.gbarPhase gid) ∉ t.setAside) →
      u.group? gid = some { g with gbar := none, k := min (2 ^ 24 - 1) (g.k + 1) } ∧
        ∀ y ∈ r :: ph.arrived, ∀ t, u.thread? y = some t → t.wait = none))

/-! Cluster instructions -/

/-- The accumulator tile that a matrix word of a lane names. -/
def accOf : Instr → Nat
  | .mma f | .mdrn f => f.acc.toNat
  | _ => 0

/-- R225, R250: a reference names a membership slot in bits [31:30] and an offset in bits [21:0]. It is checked in this order: its membership, cause
0x19; bits [29:22], 0x0B; alignment, 0x0A; the allocation, 0x0B. That DETAIL of 0x19 is the slot is log 35 (DEDUCED), that ADDR is the offset
alone and SIZE 0 is log 104 (DEDUCED). -/
def ScratchReferences : Prop :=
  ∀ (s : State) (v : View) (i : Instr) (ref align extent : Nat) (g : Group),
    let slot := ref / 2 ^ 30 % 4
    let off := ref % 2 ^ 22
    let named := (v.t.mem slot).bind fun m => s.group? m.gid
    (named = none → s.refCheck v i ref align extent = .error (v.info i 0x19 slot)) ∧
    (named = some g → ref / 2 ^ 22 % 2 ^ 8 ≠ 0 → s.refCheck v i ref align extent = .error { v.info i 0x0B g.alloc with addr := off }) ∧
    (named = some g → ref / 2 ^ 22 % 2 ^ 8 = 0 → off % align ≠ 0 →
      s.refCheck v i ref align extent = .error { v.info i 0x0A 0 with addr := off }) ∧
    (named = some g → ref / 2 ^ 22 % 2 ^ 8 = 0 → off % align = 0 → g.alloc < off + extent →
      s.refCheck v i ref align extent = .error { v.info i 0x0B g.alloc with addr := off }) ∧
    (named = some g → ref / 2 ^ 22 % 2 ^ 8 = 0 → off % align = 0 → off + extent ≤ g.alloc →
      s.refCheck v i ref align extent = .ok (g.gid, off))

/-- R253, R260 to R271, R290: the other cluster instructions in their slots, with references that pass. One that reads an object in a poisoned line
sets POISON in the CIR of its run. -/
def ClusterInstructions : Prop :=
  ∀ (s : State) (v : View) (f : FE) (a b : Nat × Nat) (g h : Group),
    let ref := fun (i : Instr) (n align extent : Nat) => s.refCheck v i (s.num v i n) align extent
    let home := (v.t.m0.bind fun m => s.group? m.gid) = some h ∧ f.acc.toNat < h.tile
    let issue := fun (c : EngCmd) => ({ v.l with pond := v.l.pond ++ [.eng v.l.at_ c] } : Lane)
    let area := if f.fmt = .f64 then 32768 else 16384
    let seen := fun (a : Nat × Nat) => s.notePoison v.t.run (s.poison.contains (Place.scr a.1 a.2).line)
    (s.Ready v (.mzero f) → home →
      exec (.mzero f) s = .next (s.goesOn v (issue (.matrix .mzero f.acc.toNat f.fmt 0 0 0 0 0 noBlock)))) ∧
    (s.Ready v (.mlda f) → home → ref (.mlda f) 0 16 area = .ok a →
      exec (.mlda f) s = .next (s.goesOn v (issue (.matrix .mlda f.acc.toNat f.fmt 0 a.1 a.2 0 0 noBlock)))) ∧
    (s.Ready v (.msta f) → home → ref (.msta f) 0 16 area = .ok a → ref (.msta f) 1 16 16 = .ok b →
      exec (.msta f) s = .next (s.goesOn v (issue (.matrix .msta f.acc.toNat f.fmt 0 a.1 a.2 b.1 b.2 noBlock)))) ∧
    (s.Ready v (.cpygo f) → ref (.cpygo f) 0 64 64 = .ok a → s.group? a.1 = some g →
      let rd := fun (o n : Nat) => s.scrView v a.1 (a.2 + o) n
      (∃ k, k ≤ 10 ∧ rd 16 2 = 2 ^ k) → rd 8 4 % 64 = 0 → rd 12 4 % 32 = 0 → rd 8 4 + 64 * rd 16 2 ≤ g.alloc →
      rd 12 4 + 32 * rd 16 2 ≤ g.alloc →
      exec (.cpygo f) s = .next ((s.noteView v a.1 a.2 18).goesOn v { v.l with hinge := some (.cpygo a.1 a.2 (s.num v (.cpygo f) 1)) })) ∧
    (s.Ready v (.cpyw f) → ref (.cpyw f) 0 64 64 = .ok a →
      let d := (BitVec.ofNat 32 (s.scrView v a.1 (a.2 + 4) 4) - s.opd v (.cpyw f) 1 32).toNat
      exec (.cpyw f) s = .next ((s.noteView v a.1 (a.2 + 4) 4).result v (.cpyw f) .n32 (if 1 ≤ d ∧ d ≤ 2 ^ 31 then 1 else 0) 0)) ∧
    (s.Ready v (.binit f) → ref (.binit f) 0 16 16 = .ok a → s.group? a.1 = some g →
      a.2 ∈ g.barTable ∨ g.reserved.any (·.2 == a.2) ∨ (g.reserved.foldl (fun l x => setAdd x.2 l) g.barTable).length < g.bars →
      s.num v (.binit f) 1 ≤ 16383 →
      s.num v (.binit f) 2 < 2 ^ 48 →
      exec (.binit f) s = .next ((s.modGroup a.1 fun g => { g with reserved := g.reserved ++ [(v.t.r, a.2)] }).goesOn v
        (issue (.binit a.1 a.2 (s.num v (.binit f) 1) (s.num v (.binit f) 2))))) ∧
    (s.Ready v (.barv f) → ref (.barv f) 0 16 16 = .ok a →
      exec (.barv f) s = .next (s.goesOn v { v.l with hinge := some (.barv f.d.toNat a.1 a.2) })) ∧
    (s.Ready v (.bwait f) → ref (.bwait f) 0 16 16 = .ok a → s.raceMode v.t.ctx v.t.run = 0 →
      s.phaseOf a.1 a.2 ≠ (s.num v (.bwait f) 1 % 2 == 1) → exec (.bwait f) s = .next ((seen a).goesOn v v.l)) ∧
    (s.Ready v (.bwait f) → ref (.bwait f) 0 16 16 = .ok a → s.phaseOf a.1 a.2 = (s.num v (.bwait f) 1 % 2 == 1) →
      exec (.bwait f) s =
        .next ((((seen a).park v.t.r (.bwait a.1 a.2 (s.num v (.bwait f) 1 % 2 == 1))).abandon v.p v.t.r).leaveBundle v.p)) ∧
    (s.Ready v (.btest f) → ref (.btest f) 0 16 16 = .ok a → s.raceMode v.t.ctx v.t.run = 0 →
      exec (.btest f) s = .next ((seen a).result v (.btest f) .n32 (if s.phaseOf a.1 a.2 = (s.num v (.btest f) 1 % 2 == 1) then 0 else 1) 0)) ∧
    (s.Ready v (.flinit f) → ref (.flinit f) 0 32 32 = .ok a → s.group? a.1 = some g →
      let base := s.num v (.flinit f) 1
      let nslot := s.num v (.flinit f) 2 % 2 ^ 16
      let z := s.num v (.flinit f) 2 / 2 ^ 16
      base % 16 = 0 → 1 ≤ nslot → nslot ≤ 4096 → 1 ≤ z → z ≤ 4096 → base + nslot * (16 * z) ≤ g.alloc →
      exec (.flinit f) s = .next (s.goesOn v (issue (.flinit a.1 a.2 base nslot (16 * z))))) ∧
    (s.Ready v (.flacq f) → ref (.flacq f) 0 32 32 = .ok a → s.scrRd a.1 (a.2 + 14) 2 ≠ 0 →
      let taken := (seen a).takeSlot a.1 a.2
      ∃ l, exec (.flacq f) s = .next (taken.1.goesOn v l) ∧ (a.1, a.2, taken.2) ∈ l.flumes ∧
        l.res = (v.deliver (.flacq f) .n32 taken.2 0).res ∧ l.temps = (v.deliver (.flacq f) .n32 taken.2 0).temps) ∧
    (s.Ready v (.flacq f) → ref (.flacq f) 0 32 32 = .ok a → s.scrRd a.1 (a.2 + 14) 2 = 0 →
      exec (.flacq f) s = .next ((((seen a).park v.t.r (.flacq a.1 a.2)).abandon v.p v.t.r).leaveBundle v.p)) ∧
    (s.Ready v (.flrel f) → ref (.flrel f) 0 32 32 = .ok a →
      exec (.flrel f) s = .next (s.goesOn v (issue (.flrel a.1 a.2 (s.num v (.flrel f) 1)))))

/-- The byte offset of a memory instruction; 0 for the others. -/
def offsetOf (i : Instr) : Int :=
  match formOf i with
  | .M f .. => f.off
  | _ => 0

/-- R17, R20, R30, R61, R165: when the port whose turn it is stands at a slot, no breakpoint stops it and no hold delays it, and the slot's word
decodes to an instruction, the step is that instruction executed for that lane, with the issue counted, and then what the partition keeps of
it for its replay queue (`keepIssued`); between steps no lane is chosen. -/
def StepIssues : Prop :=
  ∀ (s s1 : State) (p : PortId) (rest : List Move) (r w : Nat) (extra : Int) (v : View) (i : Instr),
    s.agenda = .port p :: rest → s1 = { s with agenda := rest } → s1.stage p = .slot r → s1.viewOf p r = some v →
    (∀ x ∈ s1.lanesAt p v.l.at_, s1.bpHit x = none) →
    (v.l.at_ = 1 → ∀ x ∈ s1.lanesAt p 1, x.t.hold = ⟨false, false, false⟩) →
    v.tr.stepWord v.l.at_ v.l.pass = (w, extra, true) → opcodeOf w ≠ 0xE4 →
    decodeSlot w ((v.tr.prefixAt v.l.at_).bind fun q => (decodePrefix q w).toOption) extra = .ok i →
    let u : State := { s1.countIssue v with cur := some (p, v.t.r) }
    step s = keepIssued u p r (clearCur (exec i u))

/-- R5, R54, R196: an event that is next, of the agenda or of the free schedule (the model's own device, log 2), is performed by its own meaning; time
passes only at a consultation of the schedule, and CLK does not wrap. What waits is tried again in its order before the schedule's move (log 100,
DEDUCED). -/
def StepEvents : Prop :=
  ∀ (s : State) (i : Instr) (rest : List Move), isEvent i = true →
    (s.agenda = .event i :: rest → step s = exec i { s with agenda := rest }) ∧
    (s.agenda = [] →
      let now := min (s.clk.toNat + Config.elapsed s.tick) (2 ^ 64 - 1)
      let t := State.passTime { s with tick := s.tick + 1, clk := .ofNat 64 now } (now - s.clk.toNat)
      (s.waiting = [] → Config.schedule s.tick = .event i → t.allowed (.event i) = true → step s = exec i t) ∧
      ∀ js, s.waiting = i :: js → step s = exec i { t with
        waiting := [], agenda := js.map .event ++ if t.allowed (Config.schedule s.tick) then [Config.schedule s.tick] else [] })

/-- That form holds at reset. -/
def MemoryFormAtReset : Prop := State.reset.memOk

/-- R358, R196, R14: at reset BOOTSTS is 0 in every field, no context, thread, group or bundle exists, CLK is 0, and every counter of a core, a cluster
and a die is 0. That memory lists nothing and reads as 0 (log 1) and that the counters start at 0 (log 71) are the model's choices. -/
def ResetState : Prop :=
  let s := State.reset
  s.pkg.state = 0 ∧ s.pkg.fails = 0 ∧ s.pkg.reason = 0 ∧ s.pkg.dies = 0 ∧ s.contexts = [] ∧ s.threads = [] ∧ s.groups = [] ∧ s.bundles = [] ∧
  s.table = [] ∧ s.clk = 0 ∧ (∀ p, s.byteAt p = 0) ∧
  (∀ c, (s.core c).parts = [{}, {}, {}, {}] ∧ (s.core c).bpf = [0, 0, 0, 0, 0, 0, 0, 0] ∧ (s.core c).tlb = [] ∧ (s.core c).govwait = 0) ∧
  (∀ c, (s.cluster c).mqwait = 0 ∧ (s.cluster c).tlb = []) ∧ (∀ d, (s.die d).tlbmiss = 0 ∧ (s.die d).walks = 0 ∧ (s.die d).walkbad = 0)

/-- The one lane of a bundle stands past its last slot, on its last pass, with no hinge, posted load, CSR write, uniform write, race note or TRET to
commit; no run is being ended. -/
def AtCommit (s : State) (p : PortId) (v : View) : Prop :=
  (∃ b, s.bundle? p = some b ∧ b.lanes = [v.l]) ∧ s.viewOf p v.t.r = some v ∧ v.tr.len < v.l.at_ ∧ v.t.status = .issuing p ∧ v.l.stage = 0 ∧
  v.l.hinge = none ∧ v.l.posted = [] ∧ v.l.gsets = [] ∧ v.l.progs = [] ∧ v.l.notes = [] ∧ v.l.scReads = [] ∧ v.l.tret = none ∧
  v.l.tstatW = none ∧ v.l.pselW = none ∧ v.l.passes ≤ v.l.pass + 1 ∧ ∀ x ∈ s.runs, x.failing = false

/-- No register that the commit writes or that its IND reads awaits a fill, none is in a poisoned line of the pool, and an IND's pair is full. -/
def RegistersFree (v : View) : Prop :=
  let link := tLink v.tr.tword.toNat
  let kind := tKind v.tr.tword.toNat
  v.t.badRegs = [] ∧ (∀ c ∈ v.tr.results, v.t.fills.contains c = false) ∧ (∀ h ∈ v.l.res, v.t.fills.contains h.code = false) ∧
  (kind = 2 ∨ kind = 3 → v.t.fills.contains link = false ∧ v.t.fills.contains (link + 1) = false) ∧
  (kind = 2 → v.t.isEmpty link = false ∧ v.t.isEmpty (link + 1) = false)

/-- R21, R28, R29: the commit of a trace that has computed and written results, without stores and engine commands, with the successor NEXT, JUMP,
IND or CALL. Its named results stand in the registers, full or empty as the trace left them; FLG has what it cleared and raised; the PC is the
successor, for IND what its pair held before the trace; CALL's pair holds the address after the trace. Memory is as before. -/
def CommitWritesResults : Prop :=
  ∀ (s : State) (p : PortId) (v : View), AtCommit s p v → RegistersFree v → v.l.pond = [] → v.l.abort = false → (s.core p.core).trace = none →
    (v.l.res.map (·.code)).Nodup → sWf v.t.regs = true → tKind v.tr.tword.toNat < 4 →
    let kind := tKind v.tr.tword.toNat
    let link := tLink v.tr.tword.toNat
    let linked := fun (c : Nat) => kind = 3 ∧ (c = link ∨ c = link + 1)
    ∃ t th, exec (.commit p) s = .next t ∧ t.thread? v.t.r = some th ∧ t.mem = s.mem ∧ t.groups = s.groups ∧ t.oplog = s.oplog ∧
      t.blocks = s.blocks ∧ t.bundle? p = none ∧
      (∀ c, 0 < c → c < 1016 → ¬linked c → th.reg c = laneReg v.l v.t c) ∧
      (∀ h ∈ v.l.res, h.code ≠ 0 → ¬linked h.code → th.isEmpty h.code = !h.full) ∧
      (∀ c, (∀ h ∈ v.l.res, h.code ≠ c) → ¬linked c → th.isEmpty c = v.t.isEmpty c) ∧
      (∀ c, 0 < c → c < 1016 → linked c → th.isEmpty c = false ∧
        th.reg c = BitVec.ofNat 32 (if c = link then v.tr.after else v.tr.after / 2 ^ 32)) ∧
      th.flg = (v.t.flg &&& ~~~v.l.fclear) ||| v.l.tflags ∧ th.pos = 0 ∧ th.cnt = none ∧
      th.pc = (if kind = 0 then BitVec.ofNat 64 v.tr.after
        else if kind = 2 then BitVec.ofNat 64 ((v.t.reg link).toNat + 2 ^ 32 * (v.t.reg (link + 1)).toNat)
        else BitVec.ofInt 64 (v.tr.hAddr + 8 * (BitVec.ofNat 24 v.tr.tword.toNat).toInt)) ∧
      th.m0 = v.t.m0 ∧ th.m1 = v.t.m1 ∧ th.m2 = v.t.m2 ∧ th.m3 = v.t.m3 ∧ th.psel = v.t.psel

/-- R29, R327: EXIT at the commit ends the thread, which is in no group of its any more, and its run counts it. HALT halts it at its PC, with the
trace's results in its registers, and places an event of kind 5. -/
def CommitEnds : Prop :=
  ∀ (s : State) (p : PortId) (v : View) (x : Run), AtCommit s p v → RegistersFree v → v.l.pond = [] → v.l.abort = false →
    (∀ c, (s.core c).trace = none) → s.run? v.t.run = some x →
    (tKind v.tr.tword.toNat = 4 → ∃ u y, exec (.commit p) s = .next u ∧ u.thread? v.t.r = none ∧ u.run? v.t.run = some y ∧
      y.exited = x.exited + 1 ∧
      ∀ m, m < 4 → ∀ k, v.t.mem m = some k → ∀ g, u.group? k.gid = some g → ∀ q ∈ g.members, q.1 ≠ v.t.r) ∧
    ((v.l.res.map (·.code)).Nodup → sWf v.t.regs = true → tKind v.tr.tword.toNat = 5 →
      ∃ (u w : State) (th : Thread), exec (.commit p) s = .next u ∧ u.thread? v.t.r = some th ∧ th.status = .halted ∧ th.pc = v.t.pc ∧ th.pos = 0 ∧
        (∀ c, 0 < c → c < 1016 → th.reg c = laneReg v.l v.t c) ∧ th.flg = (v.t.flg &&& ~~~v.l.fclear) ||| v.l.tflags ∧
        w.mem = s.mem ∧ w.clk = s.clk ∧ w.contexts = s.contexts ∧ u.mem = (w.event v.t.ctx 5 (s.nodeNo v.t.run) v.t.tag 0).mem)

/-- R21, R162, R305: at the commit the stores of the lane's pond join its partition's store queue as one block, in slot order, where the queue has room;
each carries K of the thread's home group and counts as a release by its ordering or behind a release fence (R174). Memory is as before. An sc
store holds the thread's next trace (R163). No load of the thread is outstanding, and no watchpoint fires. -/
def CommitQueuesStores : Prop :=
  ∀ (s : State) (p : PortId) (v : View), AtCommit s p v → RegistersFree v → v.l.engs = [] → v.l.stores ≠ [] → v.l.abort = false →
    (s.core p.core).trace = none → tKind v.tr.tword.toNat < 2 → s.outstanding v.t.r = [] → s.watchHit v = none →
    let core := coreOfSlot v.t.r
    let part := partOfSlot v.t.r
    s.queueUsed core part + queueEntries v.l.stores ≤ Config.storeQueue →
    ∃ u th, exec (.commit p) s = .next u ∧ u.mem = s.mem ∧ u.out = s.out ∧ u.groups = s.groups ∧ u.oplog = s.oplog ∧
      u.blocks = s.blocks ++ [{ core, part, r := v.t.r, stores := v.l.stores.map fun st =>
        { st with kclk := s.clockOf v.t.homeGid, home := v.t.homeGid, rel := v.t.relall || st.ord.releases } }] ∧
      u.thread? v.t.r = some th ∧ th.hold.drain = (v.t.hold.drain || v.l.stores.any (·.ord == .sc))

/-- R192, R346: the commit of a trace that has executed CHKERR.abort, by the one lane of its bundle, whatever its successor (an IND apart, whose
registers may be awaited): the lane's run has ended with ABORT set, where the successor is EXIT too. No other bundle is at commit, for which
the run would wait (R341; log 17, DEDUCED). -/
def CommitAborts : Prop :=
  ∀ (s : State) (p : PortId) (b : Bundle) (v : View) (x : Run),
    s.bundle? p = some b → b.lanes = [v.l] → s.viewOf p v.t.r = some v → v.tr.len < v.l.at_ → v.t.status = .issuing p → v.l.stage = 0 →
    v.l.hinge = none → v.l.pond = [] → v.l.posted = [] → v.l.gsets = [] → v.l.progs = [] → v.l.notes = [] → v.l.scReads = [] →
    v.l.tret = none → v.l.abort = true → s.run? v.t.run = some x → tKind v.tr.tword.toNat ≠ 2 → s.fillsWait v = false →
    (∀ y ∈ s.bundles, y ≠ b → ∀ l ∈ y.lanes, l.active = false ∨ l.stage = 0) →
    ∃ u y, exec (.commit p) s = .next u ∧ u.run? v.t.run = some y ∧ y.ended = true ∧ y.cir.getLsbD 5 = true

/-- R127, R13, R135: what a commit makes of TSTAT and PSEL. A write gives PEN and RPASS and clears PRB, QR and QCFG where it writes 1; a refused PSEL stays
and sets QCFG; QR and PRB pending in the trace are set; RPASS ends with the commit unless it is written; CAUSE stays. -/
def ControlRegistersAtCommit : Prop :=
  ∀ (l : Lane) (t : Thread),
    let u := csrCommit l t
    let w : Nat → Bool := fun k => match l.tstatW with | some x => x.getLsbD k | none => false
    u.psel = (match l.pselW with
      | some x => if pselOk x then x else t.psel
      | none => t.psel) ∧
    u.tstat.getLsbD 15 = (match l.tstatW with
      | some x => x.getLsbD 15
      | none => t.tstat.getLsbD 15) ∧
    u.tstat.getLsbD 14 = (l.prb || t.tstat.getLsbD 14 && !w 14) ∧
    u.tstat.getLsbD 13 = (l.qr || t.tstat.getLsbD 13 && !w 13) ∧
    u.tstat.getLsbD 12 = (l.pselW.any (fun x => !pselOk x) || t.tstat.getLsbD 12 && !w 12) ∧
    u.tstat.getLsbD 11 = w 11 ∧ u.tstat.extractLsb' 24 8 = t.tstat.extractLsb' 24 8 ∧ { u with tstat := t.tstat, psel := t.psel } = t

/-- R198, R27: a lane that traps. Its thread, not in trap handling, has its PC and loop position saved, CAUSE set and its PC at the handler of its
context; its registers, full/empty bits, FLG and memberships stand; memory has its fault record and nothing else, at its slot's entry, which its
private view shows from now on (log 95, DEDUCED). A deferred fault sets the holds on the next trace, the pending waits and an EXIT or HALT behind
them aside. -/
def TrapEntry : Prop :=
  ∀ (s s1 : State) (r : Nat) (kind : TrapKind) (info : FaultInfo) (succ : Option Succ) (resume : Resume) (trace pos : Nat) (t : Thread) (c : Context)
    (p : PortId),
    s.thread? r = some t → t.trap = none → info.cause ≠ 0x28 → s.writeRecord t info = some s1 → s.ctx? t.ctx = some c → c.par.handler ≠ 0 →
    t.status = .issuing p → (∃ b ∈ s.bundles, b.lanes.any (·.r == r) = true) →
    let u := s.takeTrap r kind info succ resume trace pos
    u.mem = s1.mem ∧ u.hostMem = s.hostMem ∧ u.groups = s.groups ∧
    ∃ th tr, u.thread? r = some th ∧ th.trap = some tr ∧ tr.kind = kind ∧ tr.pc = t.pc.toNat ∧ tr.pos = t.pos ∧ tr.cnt = t.cnt ∧
      tr.succ = succ ∧ tr.resume = resume ∧ th.pc = BitVec.ofNat 64 c.par.handler ∧ th.pos = 0 ∧ th.cnt = none ∧
      th.tstat = setCause t.tstat info.cause ∧ th.regs = t.regs ∧ th.empty = t.empty ∧ th.fills = t.fills ∧ th.flg = t.flg ∧ th.psel = t.psel ∧
      th.m0 = t.m0 ∧ th.m1 = t.m1 ∧ th.m2 = t.m2 ∧ th.m3 = t.m3 ∧ th.recSlot = some r ∧
      (∀ id, kind = .deferred id → tr.holds = t.hold ∧ tr.waits = t.waits ∧ tr.ending = t.ending ∧ th.hold = ⟨false, false, false⟩ ∧
        th.waits = [] ∧ th.ending = none) ∧
      ((∀ id, kind ≠ .deferred id) → tr.waits = [] ∧ tr.ending = none ∧ th.hold = t.hold ∧ th.waits = t.waits ∧ th.ending = t.ending)

/-- R200: a trap of a thread in trap handling is a double trap: CAUSE is 0x30, and with a debugger attached the thread halts. -/
def DoubleTrap : Prop :=
  ∀ (s : State) (r : Nat) (kind : TrapKind) (info : FaultInfo) (succ : Option Succ) (resume : Resume) (trace pos : Nat) (t : Thread) (c : Context),
    s.thread? r = some t → t.trap.isSome = true → info.cause ≠ 0x28 → s.ctx? t.ctx = some c → c.debugger = true →
    ∃ th, (s.takeTrap r kind info succ resume trace pos).thread? r = some th ∧ th.tstat = setCause t.tstat 0x30 ∧ th.status = .halted ∧
      th.trap = t.trap ∧ th.pc = t.pc ∧ th.regs = t.regs

/-! Stores on their way -/

/-- No thread waits on memory. -/
def Machine.State.noWaits (s : State) : Prop := ∀ t ∈ s.threads, t.wait = none
/-- Nothing that has come the same way waits (log 100). -/
def Machine.State.wayFree (s : State) (w : Way) : Prop := ∀ j ∈ s.waiting, s.way j ≠ some w

/-- R162, R163, R175, R290, R312: a block drains into its core whole, in its partition's turn, and its stores to scratch perform at once; a drained
store performs at its home, after the earlier ones that write a byte of it and, where it releases, after every earlier one (log 5), and it
changes its own bytes alone; a parked WAITV loads again after 16,384 cycles. No line is poisoned. -/
def StoresComplete : Prop :=
  (∀ (s : State) (core part : Nat) (b : Block), (s.blocks.find? fun x => x.core == core && x.part == part) = some b → s.poison = [] →
    s.drainTurn core = some part →
    ((∀ st ∈ b.stores, ∀ g o, st.place ≠ .scr g o) → exec (.storeBlockDrain core part) s = .next (State.freeGroups
      { s.modCore core (fun c => { c with drained := part }) with
        blocks := s.blocks.erase b, seq := s.seq + 1, out := s.out ++ b.stores.map fun st => { core := b.core, blk := s.seq, st } })) ∧
    (∀ st gid o g, b.stores = [st] → st.place = .scr gid o → s.group? gid = some g → g.scr.wf = true → g.dissolved = false → st.mem = false →
      st.rel = false → st.bytes.length ≤ 16 → s.noWaits → ∃ u, exec (.storeBlockDrain core part) s = .next u ∧ u.blocks = s.blocks.erase b ∧
        u.mem = s.mem ∧ u.out = s.out ∧ (∀ k, k < st.bytes.length → u.byteAt (.scr gid (o + k)) = st.bytes.getD k 0) ∧
        ∀ k, k < o ∨ o + st.bytes.length ≤ k → u.byteAt (.scr gid k) = g.scr.read k)) ∧
  (∀ (s : State) (core idx : Nat) (o : OutStore) (a : Nat), (s.out.filter (·.core == core))[idx]? = some o →
    (o.st.ord.releases = true → idx = 0) → (∀ x ∈ (s.out.filter (·.core == core)).take idx, o.st.meets x.st = false) →
    o.st.place = .dev a → o.st.mem = false → s.poison = [] → s.noWaits → s.mem.wf = true →
    ∃ u, exec (.storePerformedAtHome core idx) s = .next u ∧ u.out = s.out.erase o ∧
      (∀ k, k < o.st.bytes.length → u.byteAt (.dev (a + k)) = o.st.bytes.getD k 0) ∧
      (∀ b, b < a ∨ a + o.st.bytes.length ≤ b → u.byteAt (.dev b) = s.byteAt (.dev b)) ∧
      u.hostMem = s.hostMem ∧ u.peerMem = s.peerMem ∧ u.groups = s.groups ∧ u.threads = s.threads) ∧
  (∀ (s : State) (slot : Nat) (t : Thread) (w : WaitV), s.thread? slot = some t → t.wait = some (.waitv w) → t.status = .waiting →
    away slot = false → w.since + 16384 ≤ s.clk.toNat → s.loadsWait slot = false → (s.viewBytes t [] w.place w.ty.bytes).2 = false →
    w.race = .dflt → w.cond < 4 → (s.core (coreOfSlot slot)).trace = none →
    let v := BitVec.ofNat w.ty.width (ofLe (s.viewBytes t [] w.place w.ty.bytes).1)
    let holds := holdsOf ([Cond.eq, .ne, .ge, .lt].getD w.cond .eq) (asInt w.ty v) (asInt w.ty (.ofNat w.ty.width w.cmp))
    ∃ u, exec (.waitvTimeoutCheck slot) s = .next u ∧ u.mem = s.mem ∧ u.thread? slot = some
      (if holds then { t with wait := none, status := .runnable } else { t with wait := some (.waitv { w with since := s.clk.toNat }) }))

/-- R290, R292: a poisoned line reads as all ones; a store of part of it is refused and sets POISON in the CIR of its run; a store of the whole line
performs and clears the poison, but in a page whose counter block has failed, which stays poisoned until its last line has been rewritten. A signal
at a barrier object in a poisoned line of scratch changes no object and sets POISON. -/
def PoisonedLines : Prop :=
  (∀ (s : State) (x : Signal) (g : Group) (r : Run), s.group? x.gid = some g → g.resets = x.resets → s.run? x.run = some r →
    s.poison.contains (Place.scr x.gid x.off).line = true →
    let u := s.applySignal x
    u.groups = s.groups ∧ u.mem = s.mem ∧ ∃ y, u.run? x.run = some y ∧ y.cir = r.cir ||| 1) ∧
  ∀ (s : State) (run : Nat) (a : Nat) (l : List Byte) (x : Run), s.mem.wf = true → .dev a ∈ s.poison → a % 64 = 0 → s.run? run = some x →
    let u := s.store (some run) (.dev a) l
    let failed := s.encPages.find? fun e => e.page == a / 4096 && e.broken.isSome
    (∀ k, k < 64 → s.readByte (.dev (a + k)) = 0xFF) ∧
    (0 < l.length → l.length < 64 → u.mem = s.mem ∧ u.poison = s.poison ∧ ∃ y, u.run? run = some y ∧ y.cir = x.cir ||| 1) ∧
    (l.length = 64 → (∀ k, k < 64 → u.byteAt (.dev (a + k)) = l.getD k 0) ∧
      (failed = none → .dev a ∉ u.poison) ∧
      ∀ e, failed = some e →
        let done := setAdd (a % 4096 / 64) (e.broken.getD [])
        if done.length < 64 then u.poison = s.poison else .dev a ∉ u.poison)

/-- R304, R309, R311 to R313: a store or an atomic that performs on checked memory is the line's last write, no read of the line stands after it, and its
snapshot changes as its release says, by the stamp of a thread that has acquired first; one that is not judged leaves the metadata alone and
changes the snapshot alike; a load becomes the last read, or marks it shared where an unordered one stands; other lines and memory keep what
they hold. A report names a pair that no rule orders: another thread's access, whose group's clock neither its own
group nor its horizon has passed, with nothing lost. -/
def RaceMetadata : Prop :=
  (∀ (s : State) (c : Acc) (rel : Bool) (t : Thread), s.shadowPage c.ctx c.run c.place false = (s, true) →
    let line := c.place.line
    let met := if c.atomic && c.acquires then s.acquireLine c.r c.ctx line else s
    met.thread? c.r = some t →
    let key := SnapKey.line line
    let was := s.raceLine? c.ctx line
    let old := s.snap? key
    let room := ((s.dropSnap key).snaps.filter (·.die == s.homeDie line)).length < Config.snapPool
    let u := s.raceWrite c true rel none
    let w := s.raceWrite c false rel none
    let v := s.raceLoad c
    u.raceLine? c.ctx line = some { line, ctx := c.ctx, epoch := s.epoch c.ctx, rd := none, w := some {
      tag := tagNo c.r c.gen, clk := c.clk, scope := c.scope, off := c.place.lineOff, size := c.size,
      kind := if c.atomic then (if rel || old.isSome then 3 else 1) else if rel then 2 else 0 } } ∧
    (∃ l, v.raceLine? c.ctx line = some l ∧ l.w = was.bind (·.w) ∧ l.rd = some (match was.bind (·.rd) with
      | some b => if s.judge b.prior c = .ordered then
          { tag := tagNo c.r c.gen, clk := c.clk, scope := c.scope, shared := false, off := c.place.lineOff, size := c.size }
        else { b with shared := true }
      | none => { tag := tagNo c.r c.gen, clk := c.clk, scope := c.scope, shared := false, off := c.place.lineOff, size := c.size })) ∧
    (∀ l, l ≠ line → u.raceLine? c.ctx l = s.raceLine? c.ctx l ∧ v.raceLine? c.ctx l = s.raceLine? c.ctx l) ∧
    (c.atomic = false → rel = false → u.snap? key = none) ∧ (c.atomic = true → rel = false → u.snap? key = old) ∧
    (rel = true → room → u.snap? key = some (match old with
      | some x => if c.atomic then x.merge (met.stampOf t) else met.stampOf t
      | none => met.stampOf t)) ∧
    (rel = true → ¬room → u.snap? key = none) ∧ w.snaps = u.snaps ∧ w.lines = s.lines ∧
    v.snaps = s.snaps ∧ u.mem = s.mem ∧ v.mem = s.mem) ∧
  (∀ (s : State) (p : Prior) (c : Acc), s.judge p c = .report → p.tag ≠ tagNo c.r c.gen ∧ ∃ e, s.lookupTag p.tag = some e ∧
    e.home ≠ 0 ∧ e.hchg = false ∧ p.clk ≠ 2 ^ 24 - 1 ∧ ((p.kind = 1 ∨ p.kind = 3) → c.atomic = true → scopesMeet p c = false) ∧
    ((p.kind = 2 ∨ p.kind = 3) → c.acquires = true → scopesMeet p c = false) ∧
    (c.home ≠ 0 → c.home = gidOf c.ctx e.home → s.clockOf c.home ≤ p.clk) ∧
    ∀ t, s.thread? c.r = some t → t.hzlost = false ∧ ∀ x ∈ t.hz, x.1 = gidOf c.ctx e.home → x.2 ≤ p.clk)

/-! What the core reports -/

/-- R327: an event is a 32-byte entry at PROD in its context's queue: kind, node, two arguments, CLK; PROD advances and vector 0 of the VF fires. On a
full queue it is dropped and counted. Pointers and counts are of 64 bits. -/
def EventsQueue : Prop :=
  ∀ (s : State) (ctx kind node a0 a1 : Nat) (c : Context), s.ctx? ctx = some c →
    let u := s.event ctx kind node a0 a1
    let standing := (c.evProd + 2 ^ 64 - c.evCons) % 2 ^ 64
    (c.par.evqEntries ≤ standing → u = s.modCtx ctx fun c => { c with evDropped := (c.evDropped + 1) % 2 ^ 64 }) ∧
    (∀ a, standing < c.par.evqEntries →
      s.devPlace ctx (c.par.evqBase + 32 * (c.evProd % c.par.evqEntries)) true = some (.dev a) → s.poison = [] → s.mem.wf = true →
      (ofLe (u.mem.readN a 2) = kind % 2 ^ 16 ∧ ofLe (u.mem.readN (a + 2) 2) = 0 ∧ ofLe (u.mem.readN (a + 4) 4) = node % 2 ^ 32 ∧
        ofLe (u.mem.readN (a + 8) 8) = a0 % 2 ^ 64 ∧ ofLe (u.mem.readN (a + 16) 8) = a1 % 2 ^ 64 ∧
        ofLe (u.mem.readN (a + 24) 8) = s.clk.toNat) ∧
      (∀ b, b < a ∨ a + 32 ≤ b → u.mem.read b = s.mem.read b) ∧ u.ctx? ctx = some { c with evProd := (c.evProd + 1) % 2 ^ 64 } ∧
      u.vf? c.par.vf = (s.vf? c.par.vf).map (fun v => { v with msi0 := v.msi0 + 1 }) ∧ u.threads = s.threads)

/-- R165, R199, R206, R207, R214 to R217, R267: an operation of the replay queue whose result a re-execution finds again is counted and forgotten; one
that it does not is a pipeline-error, and so is a residue or parity that the slot just issued fails; a pipeline-error sets PIPEERR and leaves
the PC; a sync packet is a header and an entry for each resident thread of the traced context, and the records that stood behind it follow; a
sample is one resident thread's entry; a barrier whose missing members are not held up for the hang limit reports event 9, with up to 8 tags
(the packing of its words is log 27). -/
def CoreReports : Prop :=
  (∀ (s : State) (slot slotNo kind pipe : Nat) (seen : List Nat) (v : View) (o : ReplayOp), s.issuingView slot = some v →
    s.opOf slot slotNo pipe = some o → s.committing slot = false →
    let u := (s.modCore (coreOfSlot slot) fun x => { x with replay := x.replay.erase o }).modPart (coreOfSlot slot) o.part fun x =>
      { x with replaychk := (x.replaychk + 1) % 2 ^ 48 }
    exec (.replayCheck slot slotNo 3 pipe seen) s =
      .next (if seen = o.result then u else u.slotFault v (v.pipeInfo slotNo 3 pipe)) ∧
    (∀ result, kind = 1 ∨ kind = 2 → slotNo + 1 = v.l.at_ → v.slotResult slotNo pipe = some result →
      exec (.replayCheck slot slotNo kind pipe seen) s =
        .next (if seen = result then s else s.slotFault v (v.pipeInfo slotNo kind pipe))) ∧
    (v.pipeInfo slotNo kind pipe).cause = 0x28) ∧
  (∀ (s s1 : State) (r : Nat) (info : FaultInfo) (succ : Option Succ) (resume : Resume) (trace pos : Nat) (t : Thread) (x : Run),
    s.thread? r = some t → info.cause = 0x28 → s.writeRecord t info = some s1 → s.run? t.run = some x →
    t.pipes.contains (t.pc.toNat, t.pos) = false →
    let u := s.takeTrap r .slot info succ resume trace pos
    ∃ y, u.run? t.run = some y ∧ y.cir = x.cir ||| 2 ∧
      u.thread? r = some { t with tstat := setCause t.tstat 0x28, recSlot := some r, pipes := t.pipes ++ [(t.pc.toNat, t.pos)] }) ∧
  (∀ (s : State) (core : Nat) (b : TraceBuf), (s.core core).trace = some b → 512 ≤ b.since → 16 ≤ b.size → b.pend.length < 512 →
    let n := ((s.residents core).filter (·.ctx == b.ctx)).length
    ∃ u, exec (.syncPacket core) s = .next u ∧
      (u.core core).trace = some { b with next := b.next + 1 + n + b.pend.length, since := b.pend.length, pend := [] } ∧
      u.threads = s.threads ∧
      (∀ a, n = 0 → b.pend = [] → s.devPlace b.ctx (b.base + 16 * (b.next % (b.size / 16))) true = some (.dev a) → s.poison = [] →
        s.mem.wf = true →
        ofLe (u.mem.readN a 16) = 2 ^ 125 * 7 + 2 ^ 15 * (s.clk.toNat % 2 ^ 54) ∧ ∀ k, k < a ∨ a + 16 ≤ k → u.mem.read k = s.mem.read k)) ∧
  (∀ (s : State) (core pick : Nat) (t : Thread), core < 256 → (s.residents core)[pick % (s.residents core).length]? = some t →
    let entry := 2 ^ 125 * 6 + 2 ^ 101 * t.tag + 2 ^ 69 * (t.tid % 2 ^ 32) + 2 ^ 15 * (t.pc.toNat / 8 % 2 ^ 54) + 2 ^ 10 * t.code + t.pos % 1024
    exec (.pcSample core pick) s = .next { s with hostResp := .value entry }) ∧
  (∀ (s : State) (ctx gid block : Nat) (g : Group) (ph : Gbar) (c : Context), s.group? gid = some g → g.gbar = some ph → g.ctx = ctx →
    s.ctx? ctx = some c → ph.arrived ≠ [] →
    let missing := ph.expected.filter (· ∉ ph.arrived)
    missing ≠ [] → (∀ r ∈ missing, ∀ t, s.thread? r = some t → t.counts = true) → c.par.hang ≤ ph.waited →
    exec (.hangEvent ctx (some gid) block) s = .next
      ((s.modGroup gid fun g => { g with gbar := g.gbar.map fun x => { x with waited := 0 } }).hangEvents ctx (s.nodeNo g.run)
        (handleOf gid :: s.tagWords missing))) ∧
  (∀ (s : State) (ctx block : Nat) (a : Arrival) (g : Group) (c : Context), s.arrivals.find? (·.block == block) = some a →
    s.group? a.gid = some g → ctxOfGid a.gid = ctx → s.ctx? ctx = some c →
    let missing := ((g.laneSet a.set).map (·.1)).filter (· ∉ a.arrived)
    missing ≠ [] → (∀ r ∈ missing, ∀ t, s.thread? r = some t → t.counts = true) → c.par.hang ≤ a.waited →
    exec (.hangEvent ctx none block) s = .next
      ((s.modArrival block fun x => { x with waited := 0 }).hangEvents ctx (s.nodeNo g.run) (a.addr :: s.tagWords missing))) ∧
  (∀ (s : State) (gid off : Nat) (g : Group) (c : Context) (w : Thread) (ph : Bool), s.group? gid = some g → g.resident = true →
    s.ctx? g.ctx = some c → w ∈ s.threads → w.status = .bwait gid off ph →
    (∀ m ∈ g.members, ∀ t, s.thread? m.1 = some t → (∃ ph, t.status = .bwait gid off ph) ∨ t.counts = true) →
    c.par.hang ≤ assocD 0 g.barWaited off →
    let waiting := (s.threads.filter fun t => t.waitsOn gid off).map (·.r)
    exec (.barrierObjectHang gid off) s = .next
      ((s.modGroup gid fun g => { g with barWaited := assocSet g.barWaited off 0 }).hangEvents g.ctx (s.nodeNo g.run)
        ([handleOf gid + 2 ^ 32 * off, g.rd off 4 % 2 ^ 14 + 2 ^ 16 * g.rd (off + 10) 6] ++ s.tagWords waiting)))

/-! Engines -/

/-- The element that MMA gives for a row of A and a column of B over n positions (R230), by the format of the command. -/
def chainOf (t : Ty) (rm : Rm) (acc : Nat) (a b : List Byte) (n : Nat) : Nat × Flags := tileElem t rm n acc a b

/-- The value of position k of a row or column, as R46 and R230 decode it, and the flags that its decoding raises. -/
def elemOf (t : Ty) (row : List Byte) (k : Nat) : FV := (decodeElem t row k).1
def elemFlags (t : Ty) (row : List Byte) (k : Nat) : Flags := (decodeElem t row k).2

/-- R45, R46, R251: element k of a KD8 block record: its code is byte 4 + k, the block's scale is byte 0. Zero, SAT, NaV and an absent block raise no
flag; a finite code raises those of its rounding to f32. -/
def Kd8Elements : Prop :=
  ∀ (row : List Byte) (k : Nat),
    let S := (row.headD 0).toInt
    let code := (row.getD (4 + k) 0).toNat
    ∃ x : Nat × Flags, elemOf .kd8 row k = fdec .f32 x.1 ∧ elemFlags .kd8 row k = x.2 ∧
      if S = -128 ∨ code = 0 then x = (0, 0)
      else if code = 0x01 then x = (finf .f32, 0)
      else if code = 0x81 then x = (fsigned .f32 true (finf .f32), 0)
      else if code = 0x80 then x = (fnan .f32, 0)
      else RoundsFrom .f32 .rne (kdRat code * 10 ^ S) x

/-- R51 for one block of n positions: its sum as rounded to f32, with the flags of that. A NaN operand, 0 × ∞ or +∞ meeting −∞ gives the canonical NaN;
another infinite product gives infinity; else the exact sum of the products is rounded once, a zero sum being −0 where all 32 products are (log 28,
DEDUCED). -/
def BlockSumOf (a b : Nat → FV) (n : Nat) (x : Nat × Flags) : Prop :=
  let nan := fun k => (a k).isNan = true ∨ (b k).isNan = true
  let zeroInf := fun k => (a k).isInf = true ∧ (b k).isZero = true ∨ (a k).isZero = true ∧ (b k).isInf = true
  let infinite := fun (s : Bool) k => ¬nan k ∧ ¬zeroInf k ∧ ((a k).isInf = true ∨ (b k).isInf = true) ∧ ((a k).neg != (b k).neg) = s
  let invalid := (∃ k, k < n ∧ ((a k).isSNan = true ∨ (b k).isSNan = true)) ∨ (∃ k, k < n ∧ zeroInf k) ∨
    ((∃ k, k < n ∧ infinite true k) ∧ ∃ k, k < n ∧ infinite false k)
  let q := ((List.range n).map fun k => (a k).rat * (b k).rat).sum
  let negZero := fun k => (a k).rat * (b k).rat = 0 ∧ (a k).neg ≠ (b k).neg
  (invalid → x = (fnan .f32, flIV)) ∧
  (¬invalid → (∃ k, k < n ∧ nan k) → x = (fnan .f32, 0)) ∧
  (∀ s, ¬invalid → (∀ k, k < n → ¬nan k) → (∃ k, k < n ∧ infinite s k) → x = (fsigned .f32 s (finf .f32), 0)) ∧
  ((∀ k, k < n → (a k).isFin = true ∧ (b k).isFin = true) →
    (q = 0 → 32 ≤ n → (∀ k, k < n → negZero k) → x = (2 ^ 31, 0)) ∧
    (q = 0 → n < 32 ∨ (∃ k, k < n ∧ ¬negZero k) → x = (0, 0)) ∧ (q ≠ 0 → RoundsFrom .f32 .rne q x))

/-- R50, R51, R52: the arithmetic of MMA on one element. INT8 adds the exact products modulo 2^32; FP32 and FP64 are a chain of fused multiply-adds, each
rounded once; KD8, BF16 and FP16 round the block's exact sum to f32 and add it to the element with one more rounding; only KD8 raises flags in
its decoding. -/
def MatrixArithmetic : Prop :=
  ∀ (rm : Rm) (acc : Nat) (a b : List Byte) (n : Nat),
    (chainOf .i8 rm acc a b n = ((BitVec.ofInt 32 ((BitVec.ofNat 32 acc).toInt +
      ((List.range n).map fun k => (a.getD k 0).toInt * (b.getD k 0).toInt).sum)).toNat, 0)) ∧
    (∀ t, t = .f32 ∨ t = .f64 → chainOf t rm acc a b 0 = (acc % 2 ^ t.width, 0) ∧
      ∃ r : Nat × Flags, FusedOf t rm false (elemOf t a n) (elemOf t b n) (fdec t (chainOf t rm acc a b n).1) r ∧
        chainOf t rm acc a b (n + 1) = (r.1, (chainOf t rm acc a b n).2 ||| r.2)) ∧
    (∀ t, t = .bf16 ∨ t = .f16 ∨ t = .kd8 →
      let decoded := (List.range n).foldl (fun (f : Flags) k => f ||| elemFlags t a k ||| elemFlags t b k) 0
      (t ≠ .kd8 → decoded = 0) ∧
      ∃ x r : Nat × Flags, BlockSumOf (elemOf t a) (elemOf t b) n x ∧
        SumOf .f32 .rne (fdec .f32 (acc % 2 ^ 32)) (fdec .f32 x.1) r ∧ chainOf t rm acc a b n = (r.1, decoded ||| x.2 ||| r.2))

/-! What a drain writes (R234, R235, R254) -/

/-- The generator of R235: whether an element of the full matrix is kept. -/
def kept (b : DrainBlock) (row col : Nat) : Prop :=
  let x : BitVec 32 := BitVec.ofNat 32 b.seed ^^^ (BitVec.ofNat 32 (b.row0 + row) * 65536 + BitVec.ofNat 32 (b.col0 + col))
  let y : BitVec 32 := x * 0x9E3779B1 + BitVec.ofNat 32 (b.seed / 2 ^ 32)
  ((y ^^^ y >>> 15) >>> 16).toNat < b.keep

/-- R235 for one f32 element: the residual is added where RES says so; where DROP does, a kept element is scaled and another is +0. -/
def DrainedElem (b : DrainBlock) (fw row col acc res : Nat) (r : Nat × Flags) : Prop :=
  ∃ v w : Nat × Flags, (if fwRes fw then SumOf .f32 .rne (fdec .f32 acc) (fdec .f32 res) v else v = (acc, 0)) ∧
    (fwDrop fw = false → w = (v.1, 0)) ∧
    (fwDrop fw = true → kept b row col → ProductOf .f32 .rne (fdec .f32 v.1) (fdec .f32 b.kscale) w) ∧
    (fwDrop fw = true → ¬kept b row col → w = (0, 0)) ∧ r = (w.1, v.2 ||| w.2)

/-- R106, R43 for a value of one format rounded to another. -/
def ConvertsTo (t : Ty) (rm : Rm) (a : FV) (r : Nat × Flags) : Prop :=
  (a.isNan = true → r = (fnan t, if a.isSNan then flIV else 0)) ∧
  (a.isInf = true → r = (fsigned t a.neg (finf t), 0)) ∧
  (a.isZero = true → r = (fsigned t a.neg 0, 0)) ∧
  (a.isFin = true → a.isZero = false → RoundsFrom t rm a.rat r)

/-- R47, R44: QuantiseBlock of n values from a starting scale. The scale rises while a finite value saturates, at most three times and not beyond 127;
each value takes the nearest code at the last scale, on a tie the one whose bit 0 is clear, then the smaller. -/
def Quantises (n : Nat) (S0 : Int) (v : Nat → FV) (code : Nat → Nat) (S : Int) (fl : Flags) : Prop :=
  let past := fun (S : Int) e => e < n ∧ (v e).isFin = true ∧ 10 ^ 13 * 10 ^ S < |(v e).rat|
  S0 ≤ S ∧ S ≤ 127 ∧ S ≤ S0 + 3 ∧ (∀ k, S0 ≤ k → k < S → ∃ e, past k e) ∧ (S < S0 + 3 → S < 127 → ∀ e, ¬past S e) ∧
  (∀ e, e < n → ((v e).isNan = true → code e = 0x80) ∧
    ((v e).isInf = true ∨ past S e → code e = if (v e).neg then 0x81 else 0x01) ∧
    ((v e).isFin = true → ¬past S e →
      code e < 256 ∧ code e ≠ 0x80 ∧ code e % 128 ≠ 1 ∧ (code e ≠ 0 → (128 ≤ code e ↔ (v e).neg = true)) ∧
      ∀ body, body < 128 → body ≠ 1 →
        abs (abs (v e).rat / 10 ^ S - abs (kdRat (code e))) ≤ abs (abs (v e).rat / 10 ^ S - kdRat body) ∧
        (abs (abs (v e).rat / 10 ^ S - abs (kdRat (code e))) = abs (abs (v e).rat / 10 ^ S - kdRat body) →
          code e % 2 < body % 2 ∨ (code e % 2 = body % 2 ∧ abs (kdRat (code e)) ≤ kdRat body)))) ∧
  (fl &&& flIV ≠ 0 ↔ ∃ e, e < n ∧ (v e).isNan = true) ∧ (fl &&& flOF ≠ 0 ↔ ∃ e, past S e) ∧
  (fl &&& flUF ≠ 0 ↔ ∃ e, e < n ∧ (v e).isFin = true ∧ (v e).rat ≠ 0 ∧ code e = 0) ∧
  (fl &&& flNX ≠ 0 ↔ ∃ e, e < n ∧ (v e).isFin = true ∧ (past S e ∨ kdRat (code e) * 10 ^ S ≠ (v e).rat)) ∧ fl &&& flDZ = 0

/-- R251: a block record of n codes with their scale. -/
def recordOf (n : Nat) (code : Nat → Nat) (S : Int) : List Byte :=
  BitVec.ofInt 8 S :: 0 :: 0 :: 0 :: ((List.range n).map fun e => BitVec.ofNat 8 (code e)) ++ List.replicate (4 * ((n + 3) / 4) - n) 0

/-- R235, R254: the bytes that a drain writes for a row, and the flags that join the row's. An f64 or an i32 tile is written as it stands. -/
def RowDrained (t : Ty) (b : DrainBlock) (fw row : Nat) (acc res : Nat → Nat) (l : List Byte) (fl : Flags) : Prop :=
  let n := fwNcol fw
  (t ≠ .f32 → l = (List.range n).flatMap (fun j => leBytes (tileWidth t / 8) (acc j)) ∧ fl = 0) ∧
  (t = .f32 → ∃ r : Nat → Nat × Flags, (∀ j, j < n → DrainedElem b fw row j (acc j) (res j) (r j)) ∧
    let raised := (List.range n).foldl (fun (f : Flags) j => f ||| (r j).2) 0
    (fwOfmt fw = 0 → l = (List.range n).flatMap (fun j => leBytes 4 (r j).1) ∧ fl = raised) ∧
    (fwOfmt fw = 1 → ∃ w : Nat → Nat × Flags, (∀ j, j < n → ConvertsTo .bf16 .rne (fdec .f32 (r j).1) (w j)) ∧
      l = (List.range n).flatMap (fun j => leBytes 2 (w j).1) ∧ fl = raised ||| (List.range n).foldl (fun (f : Flags) j => f ||| (w j).2) 0) ∧
    (fwOfmt fw = 2 → ∃ (code : Nat → Nat) (S : Nat → Int) (f : Nat → Flags),
      (∀ k, 32 * k < n → Quantises (min 32 (n - 32 * k)) (BitVec.ofNat 8 (fw / 2 ^ 24)).toInt (fun e => fdec .f32 (r (32 * k + e)).1)
        (fun e => code (32 * k + e)) (S k) (f k)) ∧
      l = recordOf (min 32 n) code (S 0) ++ (if 32 < n then recordOf (n - 32) (fun e => code (32 + e)) (S 1) else []) ∧
      fl = raised ||| f 0 ||| (if 32 < n then f 1 else 0)))

/-- R263: an arrival at a barrier object. Below both expectations the counts rise; when both are met the phase bit flips, the surplus stays and every thread
parked on the object is woken, and every HALO gate that waits for the new phase opens. The counts stay within their fields. The object's line is not
poisoned (`PoisonedLines`). -/
def BarrierArrivals : Prop :=
  ∀ (s : State) (gid off na nb : Nat) (pure phase beyond : Bool) (g : Group) (expa arra expb arrb : Nat), s.group? gid = some g →
    g.scr.wf = true → s.noWaits → s.poison.contains (Place.scr gid off).line = false → arra < 2 ^ 14 → expa < 2 ^ 14 → expb < 2 ^ 48 → arrb < 2 ^ 48 →
    s.scrRd gid off 4 = arra + 2 ^ 14 * expa + (if beyond then 2 ^ 30 else 0) + (if phase then 2 ^ 31 else 0) →
    s.scrRd gid (off + 4) 6 = expb → s.scrRd gid (off + 10) 6 = arrb → arra + na < 2 ^ 14 → arrb + nb < 2 ^ 48 →
    (∀ t ∈ s.threads, away t.r = false) →
    let u := s.arriveAt gid off na nb pure
    (arra + na < expa ∨ arrb + nb < expb → s.phaseOf gid off = phase ∧ u.phaseOf gid off = phase ∧
      u.scrRd gid off 4 % 2 ^ 14 = arra + na ∧ u.scrRd gid (off + 10) 6 = arrb + nb ∧ u.threads = s.threads) ∧
    (expa ≤ arra + na → expb ≤ arrb + nb → u.phaseOf gid off = !phase ∧ u.scrRd gid off 4 % 2 ^ 14 = arra + na - expa ∧
      u.scrRd gid (off + 10) 6 = arrb + nb - expb ∧ (∀ t ∈ u.threads, ∀ ph, t.status ≠ .bwait gid off ph) ∧
      ∀ h ∈ u.groups, ∀ k c, h.ring = some k → k.cur = some c → c.gated = true →
        ¬(c.gateGid = gid ∧ c.gateOff = off ∧ c.gatePhase = !phase)) ∧
    u.scrRd gid off 4 / 2 ^ 14 % 2 ^ 14 = expa ∧ u.scrRd gid (off + 4) 6 = expb

/-! Cores and the scheduler -/

/-- R245, R248, R164: a core ends a round unless it is the cluster's lead ahead of a neighbour that works, and then idles a cycle that GOVWAIT counts; a core
with nothing outstanding is gated, or works again; a reset abandons what the core runs, lets its committed stores perform, returns its
registers to their reset values and is counted in the groups at home there (log 29). -/
def CoresPace : Prop :=
  (∀ (s : State) (core : Nat), core < 256 →
    let slow := fun (c : Nat) => 4 * (core / 4) ≤ c ∧ c < 4 * (core / 4) + 4 ∧ c ≠ core ∧ s.holdsGroup c = true ∧ (s.core c).gated = false ∧
      (s.core c).rounds + (s.cluster (core / 4)).lead < (s.core core).rounds + 1
    ((∃ c, slow c) → exec (.roundBoundary core) s = .next (s.modCore core fun c => { c with govwait := (c.govwait + 1) % 2 ^ 48 })) ∧
    ((∀ c, ¬slow c) → exec (.roundBoundary core) s = .next (s.modCore core fun c => { c with rounds := c.rounds + 1 }))) ∧
  (∀ (s : State) (core : Nat), core < 256 →
    ((∀ b ∈ s.bundles, b.p.core ≠ core) → (∀ b ∈ s.blocks, b.core ≠ core) → (∀ o ∈ s.out, o.core ≠ core) → (∀ x ∈ s.ldxs, x.core ≠ core) →
      exec (.powerGating core true) s = .next (s.modCore core fun c => { c with gated := true })) ∧
    (s.pkg.pause = none → (∀ x ∈ s.mailbox, ∀ g ∈ s.groups, g.home = core → x.gid ≠ g.gid) →
      exec (.powerGating core false) s = .next (s.modCore core fun c => { c with gated := false }))) ∧
  (∀ (s : State) (core : Nat), core < 256 → (∀ b ∈ s.bundles, (b.lanes.map (·.r)).Nodup) →
    (∀ b ∈ s.bundles, b.p.core = core → ∀ l ∈ b.lanes, l.stage = 0) → ∃ u, exec (.coreReset core) s = .next u ∧
    u.core core = { id := core, resets := (s.core core).resets + 1 } ∧ (∀ b ∈ u.bundles, b.p.core ≠ core) ∧
    (∀ b ∈ u.blocks, b.core ≠ core) ∧ (∀ o ∈ u.out, o.core ≠ core) ∧
    ∀ g, s.group? g.gid = some g →
      (u.group? g.gid).map (·.resets) = some (g.resets + if g.home = core ∧ g.resident = true then 1 else 0))

/-- R247, R337, R341 to R343: a group that waits on barriers is saved whole, and is resident again at its new slots when it is restored; a slice boundary
that has fallen due sets the targets of a die, which share its 32 cores within the contexts' limits; a stop request is recorded with its
boundary, and at its end saves the groups it names and records how late it was, the pauses of dispatch left out. The mailboxes are within
their bound. -/
def GroupsComeAndGo : Prop :=
  (∀ (s : State) (gid : Nat) (g : Group), s.group? gid = some g → s.swapReady g = true → g.mq = [] → g.drain = none →
    (∀ x ∈ s.ldxs, x.gid ≠ gid) → s.mailFits = true →
    ∃ u h, exec (.swapOut gid) s = .next u ∧ u.group? gid = some h ∧ h.resident = false ∧ h.blocks = [] ∧ h.regBlocks = [] ∧
      h.wake = s.waitedBars g ∧ h.tiles = g.tiles ∧ h.uni = g.uni ∧ ∀ t ∈ u.threads, t.homeGid = gid → Config.numSlots ≤ t.r) ∧
  (∀ (s u : State) (gid : Nat) (at_ : Placement) (g : Group), s.dispatching = true → handleOf gid ≠ 0 → (∀ x ∈ s.mailbox, x.gid ≠ gid) →
    s.group? gid = some g → s.restorable g = true → s.heldBackFor g.ctx g.run = false → g.coresident = false →
    (g.members.map (·.1)).Nodup → s.placeSaved g at_ = some u →
    ∃ w h, exec (.groupRestore [gid] [at_]) s = .next w ∧ w.group? gid = some h ∧ h.resident = true ∧ h.home = at_.home ∧ h.wake = [] ∧
      ∀ r ∈ at_.slots, ∃ t, w.thread? r = some t ∧ t.homeGid = gid) ∧
  (∀ (s : State) (die : Nat) (c : Context), s.dispatching = true → die < 8 → c ∈ s.contexts →
    assocD 0 (s.die die).slices c.id < (s.clk.toNat - s.pkg.paused - c.created) / (c.par.slice * 1400) →
    ∃ u, exec (.sliceBoundary die) s = .next u ∧ u.threads = s.threads ∧ u.groups = s.groups ∧ ((u.die die).targets.map (·.2)).sum ≤ 32 ∧
      (∀ x ∈ (u.die die).targets, ∃ c ∈ s.contexts, c.id = x.1 ∧ x.2 ≤ c.par.coreLimit / 8) ∧
      (u.die die).slices = s.contexts.map fun c => (c.id, s.slicesDue c)) ∧
  (∀ (s : State) (die ctx : Nat) (cores : List Nat) (c : Context), s.ctx? ctx = some c →
    ((s.die die).stops.find? (·.ctx == ctx) = none → s.stopReady die c cores = true →
      ∃ u, exec (.stopRequest die ctx cores) s = .next u ∧ u.mem = s.mem ∧
        (u.die die).stops = (s.die die).stops ++ [{ ctx, cores, boundary := s.nextBoundary die c }]) ∧
    (∀ q, (s.die die).stops.find? (·.ctx == ctx) = some q → q.cores = cores → s.dispatching = true →
      (∀ t ∈ s.threads, s.committing t.r = false) → (∀ g ∈ s.groups, g.mq = [] ∧ g.drain = none) → s.ldxs = [] → s.mailFits = true →
      ∃ u, exec (.stopRequest die ctx cores) s = .next u ∧ (u.die die).stops = (s.die die).stops.filter (· ≠ q) ∧
        (u.die die).overrun = assocSet (s.die die).overrun ctx (s.clk.toNat - s.pkg.paused - q.boundary) ∧
        ∀ g ∈ s.stopGroups ctx cores, ∃ h, u.group? g.gid = some h ∧ h.resident = false))

/-! The host -/

/-- The bytes of the measurement blocks that a requester receives: index and 32 bytes of each (R365). -/
def measured (s : State) (vf : Option Nat) : List Byte := (s.blocksFor vf).flatMap fun x => leBytes 1 x.1 ++ leBytes 32 x.2

/-! Lanes reduced together -/

/-- What a lane brings to a reduction or has of it (R180): bits, the flags of every Combine in it, and whether it has met one. -/
abbrev Part := Option (Nat × Flags × Bool)

/-- Combine (R180): two values give one; a lane without a value gives way. -/
def joined (op : Nat → Nat → Nat × Flags) : Part → Part → Part
  | some (a, f, _), some (b, g, _) => some ((op a b).1, f ||| g ||| (op a b).2, true)
  | some x, none => some x
  | none, y => y

/-- XRED's tree (R181): after step k, position j holds the positions j to j + 2^k − 1. -/
def treeOf (op : Nat → Nat → Nat × Flags) (x : Nat → Part) : Nat → Nat → Part
  | 0, j => x j
  | k + 1, j => joined op (treeOf op x k j) (treeOf op x k (j + 2 ^ k))

/-- SCAN's steps (R181): after step k, position j holds the last 2^k positions up to j. -/
def scanOf (op : Nat → Nat → Nat × Flags) (x : Nat → Part) : Nat → Nat → Part
  | 0, j => x j
  | k + 1, j => if 2 ^ k ≤ j then joined op (scanOf op x k (j - 2 ^ k)) (scanOf op x k j) else scanOf op x k j

/-- The operation of a reduction of integers or bit patterns (R180). -/
def redOf (t : Ty) (n a b : Nat) : Nat :=
  let x := asInt t (.ofNat t.width a)
  let y := asInt t (.ofNat t.width b)
  match n with
  | 0 => (a + b) % 2 ^ t.width
  | 1 => if x ≤ y then a else b
  | 2 => if y ≤ x then a else b
  | 3 => a &&& b
  | 4 => a ||| b
  | _ => a ^^^ b

/-- The identity of a reduction (R49). -/
def identityOf (t : Ty) (n : Nat) : Nat :=
  match n with
  | 1 => if t.isFloat then finf t else (BitVec.ofInt t.width (intMax t)).toNat
  | 2 => if t.isFloat then fsigned t true (finf t) else (BitVec.ofInt t.width (intMin t)).toNat
  | 3 => 2 ^ t.width - 1
  | _ => 0

/-- What is delivered of it (R49, R181): the identity where there is no value, a canonical NaN for a NaN that has met no Combine. -/
def reduced (t : Ty) (op : Nat) : Part → Nat × Flags
  | none => (identityOf t op, 0)
  | some (x, f, met) =>
    if t.isFloat && !met && (fdec t x).isNan then (fnan t, if (fdec t x).isSNan then flIV else 0) else (x, f)

/-! What a commit performs -/

end Sys2Proof

section
open Sys2Proof Sys2Proof.Machine

/-- R82, R83: integer sums and products, in every form and width. -/
def Obligations.IntegerArithmetic : Prop := WrappingArithmetic ∧ WideProducts

/-- R84 with its edges: a zero divisor, and the most negative number by −1; and the word that it gives. -/
def Obligations.Division : Prop :=
  (∀ f : FA, Delivers (.idiv f) f.ty fun o =>
    let a := o 0 f.ty.width
    let b := o 1 f.ty.width
    (if b = 0 then BitVec.allOnes f.ty.width else if f.ty.isI then a.sdiv b else a.udiv b).toNat) ∧
  (∀ f : FA, Delivers (.irem f) f.ty fun o =>
    let a := o 0 f.ty.width
    let b := o 1 f.ty.width
    (if b = 0 then a else if f.ty.isI then a.srem b else a.umod b).toNat) ∧
  decodeWord 0x16300001C0501800 = .ok (.idiv
    { ty := .i32, rm := .rne, kp := 0, gap := 0, feA := false, feB := false, feC := false, us := 0, d := 7, a := 5, b := 6, c := 0 })

/-- R85, R86: magnitude, minimum, maximum and the saturating sums. -/
def Obligations.MagnitudeAndSaturation : Prop :=
  (∀ f : FA, Delivers (.iabs f) f.ty fun o => (o 0 f.ty.width).abs.toNat) ∧
  (∀ f : FA, Delivers (.imin f) f.ty fun o =>
    (if asInt f.ty (o 0 _) ≤ asInt f.ty (o 1 _) then o 0 f.ty.width else o 1 f.ty.width).toNat) ∧
  (∀ f : FI, Delivers (.iminImm f) f.ty fun o =>
    (if asInt f.ty (o 0 _) ≤ asInt f.ty (extend f.ty _ f.imm) then o 0 f.ty.width else extend f.ty f.ty.width f.imm).toNat) ∧
  (∀ f : FA, Delivers (.imax f) f.ty fun o =>
    (if asInt f.ty (o 1 _) ≤ asInt f.ty (o 0 _) then o 0 f.ty.width else o 1 f.ty.width).toNat) ∧
  (∀ f : FI, Delivers (.imaxImm f) f.ty fun o =>
    (if asInt f.ty (extend f.ty _ f.imm) ≤ asInt f.ty (o 0 _) then o 0 f.ty.width else extend f.ty f.ty.width f.imm).toNat) ∧
  (∀ f : FA, Delivers (.iadds f) f.ty fun o =>
    let x := asInt f.ty (o 0 _) + asInt f.ty (o 1 _)
    (BitVec.ofInt f.ty.width (if x < intMin f.ty then intMin f.ty else if intMax f.ty < x then intMax f.ty else x)).toNat) ∧
  (∀ f : FA, Delivers (.isubs f) f.ty fun o =>
    let x := asInt f.ty (o 0 _) - asInt f.ty (o 1 _)
    (BitVec.ofInt f.ty.width (if x < intMin f.ty then intMin f.ty else if intMax f.ty < x then intMax f.ty else x)).toNat)

/-- R87, R88: logic, shifts and rotation, in every form. -/
def Obligations.LogicAndShifts : Prop := Logic ∧ Shifts

/-- R89, R90: bit fields, counts and the reversal. -/
def Obligations.FieldsAndCounts : Prop := BitFields ∧ Counts

/-- R91 to R93: comparison, selection, moves and address arithmetic. -/
def Obligations.SelectAndMove : Prop := CompareAndSelect ∧ MovesAndAddresses

/-- R96: FADD, FSUB, FMUL, FMA and FNMA form the exact result and round it once. -/
def Obligations.FloatArithmetic : Prop :=
  (∀ f : FA, Meets (.fadd f) f.ty fun o => SumOf f.ty f.rm (fdec f.ty (o 0)) (fdec f.ty (o 1))) ∧
  (∀ f : FA, Meets (.fsub f) f.ty fun o => SumOf f.ty f.rm (fdec f.ty (o 0)) (fdec f.ty (o 1)).opp) ∧
  (∀ f : FA, Meets (.fmul f) f.ty fun o => ProductOf f.ty f.rm (fdec f.ty (o 0)) (fdec f.ty (o 1))) ∧
  (∀ f : FA, Meets (.fma f) f.ty fun o => FusedOf f.ty f.rm false (fdec f.ty (o 0)) (fdec f.ty (o 1)) (fdec f.ty (o 2))) ∧
  (∀ f : FA, Meets (.fnma f) f.ty fun o => FusedOf f.ty f.rm true (fdec f.ty (o 0)) (fdec f.ty (o 1)) (fdec f.ty (o 2)))

/-- R41: what RoundTo delivers, where it does not overflow, is a value of the format next to the exact one, chosen as the mode says, and
NX tells whether it differs. `y` is the value delivered and `z` any other finite value of the format. -/
def Obligations.RoundingIsCorrect : Prop :=
  ∀ (t : Ty) (rm : Rm) (x : Ex), t.isFloat = true → 0 < x.den → 0 < x.num → (roundTo t rm x).2 &&& flOF = 0 →
    let r := roundTo t rm x
    let y := (fdec t r.1).rat
    (fdec t r.1).isFin = true ∧ (fdec t r.1).neg = x.neg ∧ r.1 < 2 ^ t.width ∧ (r.2 &&& flNX = 0 ↔ y = x.rat) ∧
    ∀ w, (fdec t w).isFin = true →
      let z := (fdec t w).rat
      ¬(y < z ∧ z < x.rat) ∧ ¬(x.rat < z ∧ z < y) ∧
      match rm with
      | .rne => |y - x.rat| ≤ |z - x.rat| ∧ (z ≠ y → |y - x.rat| = |z - x.rat| → r.1 % 2 = 0)
      | .rna => |y - x.rat| ≤ |z - x.rat| ∧ (z ≠ y → |y - x.rat| = |z - x.rat| → |z| ≤ |y|)
      | .rtz => |y| ≤ |x.rat|
      | .rup => x.rat ≤ y
      | .rdn => y ≤ x.rat
      | .rod => y ≠ x.rat → r.1 % 2 = 1

/-- R42, R43: OF is raised exactly where the value rounded with an unbounded exponent range exceeds the largest finite value, and what is
delivered then depends on the mode alone; UF exactly where the result is inexact and so rounded lies below the smallest normal. -/
def Obligations.RoundingEdges : Prop :=
  ∀ (t : Ty) (rm : Rm) (x : Ex), t.isFloat = true → 0 < x.den → 0 < x.num →
    let r := roundTo t rm x
    let top : Rat := 2 ^ (fbias t + 1)
    let unit : Rat := top / 2 ^ fprec t
    let least : Rat := 4 / top
    (r.2 &&& flOF ≠ 0 ↔ match rm with
      | .rne | .rna => top - unit / 2 ≤ |x.rat|
      | .rtz | .rod => top ≤ |x.rat|
      | .rup => if x.neg then top ≤ |x.rat| else top - unit < |x.rat|
      | .rdn => if x.neg then top - unit < |x.rat| else top ≤ |x.rat|) ∧
    (r.2 &&& flOF ≠ 0 → r.2 = flOF ||| flNX ∧ r.1 = fsigned t x.neg (match rm with
        | .rne | .rna => finf t
        | .rtz | .rod => fmaxFin t
        | .rup => if x.neg then fmaxFin t else finf t
        | .rdn => if x.neg then finf t else fmaxFin t)) ∧
    (r.2 &&& flUF ≠ 0 ↔ r.2 &&& flNX ≠ 0 ∧ match rm with
      | .rne | .rna => |x.rat| < least * (1 - 1 / 2 ^ (fprec t + 1))
      | .rtz | .rod => |x.rat| < least
      | .rup => if x.neg then |x.rat| < least else |x.rat| ≤ least * (1 - 1 / 2 ^ fprec t)
      | .rdn => if x.neg then |x.rat| ≤ least * (1 - 1 / 2 ^ fprec t) else |x.rat| < least)

/-- R102, R55: FDIV, FSQRT, FRCP and FRSQ complete for every ready lane; FDIV and FSQRT are correctly rounded; FRCP is within 1 ulp on its mode's
side; the special operands of all four. -/
def Obligations.DivisionAndRoots : Prop :=
  (∀ f : FA, Completes (.fdiv f) f.ty ∧ Completes (.fsqrt f) f.ty ∧ Completes (.frcp f) f.ty ∧ Completes (.frsq f) f.ty) ∧
  (∀ f : FA, Meets (.fdiv f) f.ty fun o => QuotientOf f.ty f.rm (fdec f.ty (o 0)) (fdec f.ty (o 1))) ∧
  (∀ f : FA, Meets (.fsqrt f) f.ty fun o => RootOf f.ty f.rm (fdec f.ty (o 0))) ∧
  (∀ f : FA, Meets (.frcp f) f.ty fun o => ReciprocalOf f.ty f.rm (fdec f.ty (o 0))) ∧
  (∀ f : FA, Meets (.frsq f) f.ty fun o r =>
    let t := f.ty
    let a := fdec t (o 0)
    (a.isNan = true → r = (fnan t, if a.isSNan then flIV else 0)) ∧
    (a.isZero = true → r = (fsigned t a.neg (finf t), flDZ)) ∧
    (a.isNan = false → a.isZero = false → a.neg = true → r = (fnan t, flIV)) ∧
    (a.isInf = true → a.neg = false → r = (0, 0)) ∧
    (∀ k : Int, a.isFin = true → a.neg = false → a.rat = 2 ^ (2 * k) → RoundsFrom t f.rm (2 ^ (-k)) r) ∧
    (a.isFin = true → a.neg = false → a.isZero = false → (∀ k : Int, a.rat ≠ 2 ^ (2 * k)) → r.2 &&& flNX ≠ 0))

/-- R103: the table of special arguments of the nine functions; the exact points of R55; NX everywhere else, but that of FERF, which rests on
the digits of its series, is not stated here. -/
def Obligations.FunctionsSpecialArguments : Prop :=
  let one := fun (t : Ty) => fbias t * 2 ^ (fprec t - 1)
  let invalid := fun (t : Ty) => (fnan t, flIV)
  let keep := fun (t : Ty) (n : Bool) => (fsigned t n 0, (0 : Flags))
  let none := fun (_ _ : Rat) => False
  (∀ f : FA, Meets (.fexp f) f.ty fun o =>
    FunctionOf ⟨fun _ => (one f.ty, 0), (finf f.ty, 0), (0, 0), false⟩ none f.ty (fdec f.ty (o 0))) ∧
  (∀ f : FA, Meets (.fexp2 f) f.ty fun o =>
    FunctionOf ⟨fun _ => (one f.ty, 0), (finf f.ty, 0), (0, 0), false⟩
      (fun a q => ∃ k : Int, a = k ∧ q = 2 ^ k ∧ fmin2 f.ty ≤ k ∧ k ≤ fbias f.ty) f.ty (fdec f.ty (o 0))) ∧
  (∀ f : FA, Meets (.flog f) f.ty fun o =>
    FunctionOf ⟨fun _ => (fsigned f.ty true (finf f.ty), flDZ), (finf f.ty, 0), invalid f.ty, true⟩ (fun a q => a = 1 ∧ q = 0) f.ty
      (fdec f.ty (o 0))) ∧
  (∀ f : FA, Meets (.flog2 f) f.ty fun o =>
    FunctionOf ⟨fun _ => (fsigned f.ty true (finf f.ty), flDZ), (finf f.ty, 0), invalid f.ty, true⟩
      (fun a q => ∃ k : Int, a = 2 ^ k ∧ q = k) f.ty (fdec f.ty (o 0))) ∧
  (∀ f : FA, Meets (.fsin f) f.ty fun o =>
    FunctionOf ⟨keep f.ty, invalid f.ty, invalid f.ty, false⟩ none f.ty (fdec f.ty (o 0))) ∧
  (∀ f : FA, Meets (.fcos f) f.ty fun o =>
    FunctionOf ⟨fun _ => (one f.ty, 0), invalid f.ty, invalid f.ty, false⟩ none f.ty (fdec f.ty (o 0))) ∧
  (∀ f : FA, Meets (.ftanh f) f.ty fun o =>
    FunctionOf ⟨keep f.ty, (one f.ty, 0), (fsigned f.ty true (one f.ty), 0), false⟩ none f.ty (fdec f.ty (o 0))) ∧
  (∀ f : FA, Meets (.fsigm f) f.ty fun o =>
    FunctionOf ⟨fun _ => ((fbias f.ty - 1) * 2 ^ (fprec f.ty - 1), 0), (one f.ty, 0), (0, 0), false⟩ none f.ty (fdec f.ty (o 0))) ∧
  (∀ f : FA, Meets (.ferf f) f.ty fun o r =>
    let a := fdec f.ty (o 0)
    (a.isNan = true → r = (fnan f.ty, if a.isSNan then flIV else 0)) ∧ (a.isZero = true → r = keep f.ty a.neg) ∧
    (a.isInf = true → r = (fsigned f.ty a.neg (one f.ty), 0)))

/-- R101, R106: FRND and every conversion. -/
def Obligations.RoundingToOtherForms : Prop := RoundToIntegral ∧ Conversions

/-- R107, R109, R44 to R47: quantising to KD8 codes and expanding them. -/
def Obligations.Kd8Codes : Prop := Kd8Expand ∧ Kd8Quantise

/-- R97 to R100, R104, R105: the floating-point instructions that do not round, and the flag registers. -/
def Obligations.FloatOrderAndSign : Prop := FloatMinMaxAndSign ∧ FloatCompareAndClass ∧ FlagsReadAndClear

/-- R139, R140: sums, differences, products, negation and equality of residues modulo M = p^k, of the PSEL committed before the trace (R133); and
the word that R139 gives. -/
def Obligations.ResidueArithmetic : Prop :=
  decodeWord 0x94E000053FCFE000 = .ok (.qmul
    { ty := .q128, rm := .rne, kp := 0, gap := 0, feA := false, feB := false, feC := false, us := 0, d := 20, a := 1020, b := 1016, c := 0 }) ∧
  ∀ (s : State) (v : View) (f : FA),
    let M := pselP v.t.psel ^ pselK v.t.psel
    (s.Ready v (.qadd f) → exec (.qadd f) s = .next (qResult s v (.qadd f) .q128 ((s.num v (.qadd f) 0 + s.num v (.qadd f) 1) % M) false)) ∧
    (s.Ready v (.qsub f) → exec (.qsub f) s = .next (qResult s v (.qsub f) .q128
      (((s.num v (.qsub f) 0 : Int) - s.num v (.qsub f) 1) % M).toNat false)) ∧
    (s.Ready v (.qmul f) → exec (.qmul f) s = .next (qResult s v (.qmul f) .q128 (s.num v (.qmul f) 0 * s.num v (.qmul f) 1 % M) false)) ∧
    (s.Ready v (.qneg f) → exec (.qneg f) s = .next (qResult s v (.qneg f) .q128 ((-(s.num v (.qneg f) 0 : Int)) % M).toNat false)) ∧
    (s.Ready v (.qeq f) → exec (.qeq f) s = .next (qResult s v (.qeq f) .n32
      (if s.num v (.qeq f) 0 % M = s.num v (.qeq f) 1 % M then 1 else 0) false))

/-- R141, R142: division by a unit, the trap where the divisor is none, and the word that R142 gives. -/
def Obligations.UnitDivision : Prop := ResidueDivision ∧ NonInvertibleDivisor ∧
  decodeWord 0x90E000FF3F8FE800 = .ok (.qenc
    { ty := .q128, rm := .rne, kp := 0, gap := 0, feA := false, feB := false, feC := false, us := 0, d := 1020, a := 1016, b := 1018, c := 0 })

/-- R136, R143, R144: QDEC delivers the one fraction in lowest terms within the bound N that a residue stands for; where there is none it
delivers 0 and 0 and sets QR. -/
def Obligations.FractionDecode : Prop :=
  ∀ (s : State) (v : View) (f : FA), s.Ready v (.qdec f) → pselOk v.t.psel = true →
    let M := pselP v.t.psel ^ pselK v.t.psel
    let N := Nat.sqrt ((M - 1) / 2)
    let x := s.num v (.qdec f) 0
    let stands := fun (num : Int) (den : Nat) =>
      num.natAbs ≤ N ∧ 0 < den ∧ den ≤ N ∧ Nat.gcd num.natAbs den = 1 ∧ ((den : Int) * x - num) % M = 0
    (∀ num den, stands num den → Nat.gcd den (pselP v.t.psel) = 1 ∧ exec (.qdec f) s =
      .next (qResult s v (.qdec f) .q128 ((BitVec.ofInt 64 num).toNat + 2 ^ 64 * den) false)) ∧
    ((∀ num den, ¬stands num den) → exec (.qdec f) s = .next (qResult s v (.qdec f) .q128 0 true))

/-- R19, R112 to R116: what each guard tests, and what becomes of a lane that fails one. -/
def Obligations.Guarding : Prop := GuardTests ∧ GuardFailure

/-- R10, R18, R36: where a result stands, and how a value fills its registers. -/
def Obligations.ResultsLand : Prop := ResultLands ∧ RegisterImages

/-- R10, R11, R65 to R67, R159, R290: what a slot instruction meets before it has its operands. The order of the causes 0x03, 0x19 and 0x04 and the
choice of the first register out of range are log 14 (DEDUCED), the poisoned register is log 99 (DEDUCED). -/
def Obligations.SourcesAndFields : Prop := EmptySources ∧ RefusedFields ∧ PoisonedSources

/-- R126 to R132, R192 to R195: what each thread-control instruction does in its slot; a CSR write, TRAP, TRET and the rest take effect at
commit. -/
def Obligations.ThreadControl : Prop :=
  ∀ (s : State) (v : View) (f : FS),
    (s.Ready v (.nop f) → exec (.nop f) s = .next (s.goesOn v v.l)) ∧
    (s.Ready v (.trap f) → exec (.trap f) s = .next (s.goesOn v { v.l with hinge := some (.trap f.imm.toNat (putS 0x01 f)) })) ∧
    (s.Ready v (.csrr f) →
      (f.csr = 0x000 → exec (.csrr f) s = .next (s.goesOn v (v.l.putN f.d.toNat 64 1))) ∧
      (f.csr = 0x001 → exec (.csrr f) s = .next (s.goesOn v (v.l.putN f.d.toNat v.t.tid 1))) ∧
      (f.csr = 0x002 → exec (.csrr f) s = .next (s.goesOn v (v.l.putN f.d.toNat v.t.tstat.toNat 1))) ∧
      (f.csr = 0x003 → exec (.csrr f) s = .next (s.goesOn v (v.l.putN f.d.toNat v.t.psel.toNat 2))) ∧
      (∀ c, s.ctx? v.t.ctx = some c →
        f.csr = 0x100 → exec (.csrr f) s = .next (s.goesOn v (v.l.putN f.d.toNat c.par.mdef.toNat 1))) ∧
      (∀ x, s.run? v.t.run = some x →
        (f.csr = 0x101 → exec (.csrr f) s = .next (s.goesOn v (v.l.putN f.d.toNat x.cir.toNat 1))) ∧
        (f.csr = 0x102 → exec (.csrr f) s = .next (s.goesOn v (v.l.putN f.d.toNat x.racectl.toNat 1)))) ∧
      (f.csr = 0x200 → exec (.csrr f) s = .next (s.goesOn v (v.l.putN f.d.toNat s.clk.toNat 2)))) ∧
    (s.Ready v (.csrw f) →
      (f.csr = 0x003 → exec (.csrw f) s = .next (s.goesOn v { v.l with pselW := some (s.opd v (.csrw f) 0 64) })) ∧
      (f.csr = 0x002 → exec (.csrw f) s = .next (s.goesOn v { v.l with tstatW := some (s.opd v (.csrw f) 0 32) }))) ∧
    (s.Ready v (.csrwImm f) → exec (.csrwImm f) s = .next (s.goesOn v { v.l with tstatW := some (f.imm.setWidth 32) })) ∧
    (s.Ready v (.chkerr f) → ∀ x, s.run? v.t.run = some x →
      exec (.chkerr f) s = .next (s.goesOn v (v.l.putN f.d.toNat x.cir.toNat 1))) ∧
    (s.Ready v (.chkerrAbort f) → ∀ x, s.run? v.t.run = some x →
      exec (.chkerrAbort f) s = .next (s.goesOn v { v.l.putN f.d.toNat x.cir.toNat 1 with abort := true })) ∧
    (s.Ready v (.prog f) → exec (.prog f) s = .next (s.goesOn v { v.l with progs := v.l.progs ++ [f.imm.toNat] })) ∧
    (s.Ready v (.yield f) → exec (.yield f) s = .next (s.goesOn v { v.l with yields := true })) ∧
    (s.Ready v (.tretRe f) → v.t.trap.isSome = true → exec (.tretRe f) s = .next (s.goesOn v { v.l with tret := some false })) ∧
    (s.Ready v (.tretSkip f) → v.t.trap.isSome = true → exec (.tretSkip f) s = .next (s.goesOn v { v.l with tret := some true })) ∧
    (s.Ready v (.tretRe f) → v.t.trap = none → exec (.tretRe f) s = .next (s.slotFault v (v.info (.tretRe f) 0x21 0))) ∧
    (s.Ready v (.tretSkip f) → v.t.trap = none → exec (.tretSkip f) s = .next (s.slotFault v (v.info (.tretSkip f) 0x21 0)))

/-- R128, R129: FILL, VOID and WAITF. -/
def Obligations.FillVoidAndWait : Prop := FillAndVoid ∧ WaitForFull

/-- R118, R279, R280: the checks of an access, and the fault of one that fails them. -/
def Obligations.AccessRules : Prop := AccessChecks ∧ AccessFaults

/-- R117, R121: a store keeps one pond entry for each value, with the bytes of its registers in little-endian order, at the address that
the checks have let through; memory does not change before commit. Race checking is off. -/
def Obligations.StoreInSlot : Prop :=
  ∀ (s s' : State) (v : View) (f : FM) (ps : List (Place × Bool)), s.Ready v (.st f) →
    s.checkAccess v.t (s.attrs v.t f.pre ordSt).space (addrOf s v (.st f) f) f.ty.bytes (cntOf f.cnt) true = (s', .ok ps) →
    s'.raceMode v.t.ctx v.t.run = 0 →
    ∃ l, exec (.st f) s = .next (s'.goesOn v l) ∧ s'.mem = s.mem ∧ l.res = v.l.res ∧ l.temps = v.l.temps ∧
      l.stores.length = v.l.stores.length + ps.length ∧ l.stores.take v.l.stores.length = v.l.stores ∧
      ∀ j (h : j < ps.length), ∃ st, l.stores[v.l.stores.length + j]? = some st ∧ st.place = ps[j].1 ∧
        st.va = addrOf s v (.st f) f + j * f.ty.bytes ∧ st.r = v.t.r ∧ st.gen = v.t.gen ∧ st.ord = (s.attrs v.t f.pre ordSt).ord ∧
        st.bytes = leBytes f.ty.bytes (s.num v (.st f) 2 / 2 ^ (32 * f.ty.words * j) % 2 ^ f.ty.width)

/-- R18, R25, R117 to R120, R163: what a load does in its slot, and what it sees; that it sees no stale copy is log 4 (DEDUCED). -/
def Obligations.Loads : Prop := LoadInSlot ∧ LoadSeesNewest

/-- R171, R173: the twelve atomics in their slots; host memory takes ADD, EXCH and CAS only, and any other takes cause 0x0E. -/
def Obligations.AtomicsInSlot : Prop :=
  (∀ f : FM, KeepsAtomic (.atomAdd f) 0 f ∧ KeepsAtomic (.atomSub f) 1 f ∧ KeepsAtomic (.atomMin f) 2 f ∧ KeepsAtomic (.atomMax f) 3 f ∧
    KeepsAtomic (.atomAnd f) 4 f ∧ KeepsAtomic (.atomOr f) 5 f ∧ KeepsAtomic (.atomXor f) 6 f ∧ KeepsAtomic (.atomExch f) 7 f ∧
    KeepsAtomic (.atomCas f) 8 f ∧ KeepsAtomic (.atomFadd f) 9 f ∧ KeepsAtomic (.atomFmin f) 10 f ∧ KeepsAtomic (.atomFmax f) 11 f) ∧
  ∀ (s s' : State) (v : View) (f : FM) (h a : Nat) (chk : Bool), ∀ i ∈ atomicsOf f, s.Ready v i →
    i ≠ .atomAdd f → i ≠ .atomExch f → i ≠ .atomCas f →
    let va := (BitVec.ofInt 64 ((s.num v i 0 : Int) + f.off)).toNat
    s.checkAccess v.t (s.attrs v.t f.pre ordAny).space va f.ty.bytes 1 true = (s', .ok [(.host h a, chk)]) →
    exec i s = .next (s'.slotFault v { v.info i 0x0E 0 with size := Nat.log2 f.ty.bytes, addr := va })

/-- R124, R125, R174 to R177, R195: PREF changes nothing; PTOG gives the global address behind a private offset, leaves a global or host address as
it is and gives 0 for the rest (of the fault record it gives the entry last written, log 95, DEDUCED); FENCE, WAITV, PUBLISH and LAUNCH keep their
hinge, and LDX its transfer, for commit. PUBLISH to scratch, to private or to device memory takes cause 0x0F; the space that it asserts is log 98
(DEDUCED). That LDX makes the check of its space, and takes a source in the private or the host window like one in the global window, is log 79
(DEDUCED). -/
def Obligations.MemoryControl : Prop :=
  ∀ (s s' : State) (v : View) (f : FM),
    let space := fun (f : FM) => if f.pre.isSome then Space.generic else (s.attrs v.t none ordAny).space
    (s.Ready v (.pref f) → exec (.pref f) s = .next (s.goesOn v v.l)) ∧
    (s.Ready v (.ptog f) →
      let va := addrOf s v (.ptog f) f
      let off := va - privateBase
      exec (.ptog f) s = .next (s.goesOn v (v.l.putN f.d.toNat
        (if windowOf va = some .own ∧ off < v.t.psize then
           (if off < 64 then ((s.ctx? v.t.ctx).map fun c => c.par.faultArea + 64 * v.t.recSlot.getD v.t.r + off).getD 0 else v.t.storeBase + off)
         else if windowOf va = some .global ∨ windowOf va = some .host then va else 0) 2))) ∧
    (s.Ready v (.fence f) → exec (.fence f) s = .next (s.goesOn v
      { v.l with hinge := some (.fence (s.attrs v.t f.pre ordAny).ord (s.attrs v.t f.pre ordAny).scope) })) ∧
    (∀ p chk, s.Ready v (.waitv f) →
      s.checkAccess v.t (s.attrs v.t f.pre ordWaitv).space (addrOf s v (.waitv f) f) f.ty.bytes 1 false = (s', .ok [(p, chk)]) →
      s'.raceMode v.t.ctx v.t.run = 0 →
      ∃ w l, exec (.waitv f) s = .next (s'.goesOn v l) ∧ l.hinge = some (.waitv w) ∧ w.place = p ∧ w.ty = f.ty ∧ w.cond = f.cnt.toNat ∧
        w.cmp = s.num v (.waitv f) 2 ∧ w.acq = (s.attrs v.t f.pre ordWaitv).ord.acquires ∧ w.race = .dflt ∧ l.res = v.l.res ∧
        l.temps = v.l.temps ∧ l.pond = v.l.pond) ∧
    (∀ h a chk, s.Ready v (.publish f) →
      let va := (BitVec.ofInt 64 ((s.num v (.publish f) 0 : Int) + f.off)).toNat
      (windowOf va = some .global ∨ windowOf va = some .host) → windowOf (va + 7) = windowOf va → inSpace (space f) va 8 = true → va % 8 = 0 →
      s.placeOf v.t va true = (s', .ok (.host h a) chk) →
      exec (.publish f) s = .next (s'.goesOn v { v.l with hinge := some (.publish f.d.toNat (.host h a)) })) ∧
    (∀ a chk, s.Ready v (.publish f) →
      let va := (BitVec.ofInt 64 ((s.num v (.publish f) 0 : Int) + f.off)).toNat
      let refused := fun (u : State) => exec (.publish f) s = .next (u.slotFault v { v.info (.publish f) 0x0F 0 with size := 3, addr := va })
      inWindows v.t va 8 = true → inSpace (space f) va 8 = true → va % 8 = 0 →
      (windowOf va = some .scratch ∨ windowOf va = some .own → refused s) ∧
      (windowOf va = some .global → s.placeOf v.t va true = (s', .ok (.dev a) chk) → refused s')) ∧
    (∀ (g : FS) ps, s.Ready v (.launch g) → s.checkAccess v.t (s.attrs v.t none ordLd).space (s.num v (.launch g) 0) 8 1 false = (s', .ok ps) →
      exec (.launch g) s = .next (s'.goesOn v
        { v.l with hinge := some (.launch g.d.toNat (s.num v (.launch g) 0) (ps.headD default).1 g.imm.toNat) })) ∧
    (∀ (g : FX) gr ps, s.Ready v (.ldx g) →
      let bytes := 4 * 2 ^ g.fn.toNat
      let unit := min bytes 16
      let va := s.num v (.ldx g) 0
      let dst := s.num v (.ldx g) 1
      let bar := s.num v (.ldx g) 2
      let parts := (List.range (bytes / unit)).map (va + · * unit)
      (∀ a ∈ parts, inWindows v.t a unit = true ∧ inSpace (s.attrs v.t g.pre ordPlain).space a unit = true ∧
        windowOf a ≠ some .scratch ∧ windowOf (a + unit - 1) ≠ some .scratch) → va % unit = 0 → dst % unit = 0 → bar % 16 = 0 →
      v.t.m0.isSome = true → s.group? v.t.homeGid = some gr → dst + bytes ≤ gr.alloc → bar + 16 ≤ gr.alloc →
      s.placesOf v.t false parts = (s', .ok ps) →
      exec (.ldx g) s = .next (s'.goesOn v
        { v.l with pond := v.l.pond ++ [.eng v.l.at_ (.ldx (ps.map (·.1)) va bytes v.t.homeGid dst bar)] }))

/-- R178, R179, R182: SHFL gives each lane the value of the lane at the position that its mode names, or its own; VOTE tells any, all, which and
how many lanes of the segment vote yes. -/
def Obligations.ShuffleAndVote : Prop :=
  ∀ (s s' : State) (v : View) (f : FX) (ps : List Peer), s.view = some v → (ps.map (·.v.l.no)).Nodup → (∀ p ∈ ps, p.v.l.no < 64) →
    let sw := max 1 (64 / 2 ^ (f.c.toNat % 8))
    (s.readPeers (s.crossPeers v (.shfl f)) = (s', some ps) →
      ∃ res : Peer → Nat × Flags, exec (.shfl f) s = .next (s'.givePeers ps f.ty res) ∧ ∀ p ∈ ps,
        let j := p.v.l.no % sw
        let sel := p.vals.getD 1 0
        let from_ : Option Nat := match f.fn.toNat with
          | 0 => some (sel % sw)
          | 1 => if sel ≤ j then some (j - sel) else none
          | 2 => if j + sel < sw then some (j + sel) else none
          | _ => some ((j ^^^ sel) % sw)
        (∀ q ∈ segmentOf ps p f.c.toNat, from_ = some (q.v.l.no % sw) → res p = (q.vals.getD 0 0 % 2 ^ f.ty.width, 0)) ∧
        ((∀ q ∈ segmentOf ps p f.c.toNat, from_ ≠ some (q.v.l.no % sw)) → res p = (p.vals.getD 0 0 % 2 ^ f.ty.width, 0))) ∧
    (s.readPeers (s.crossPeers v (.vote f)) = (s', some ps) →
      ∃ res : Peer → Nat × Flags, exec (.vote f) s = .next (s'.givePeers ps f.ty res) ∧ ∀ p ∈ ps,
        let seg := segmentOf ps p f.c.toNat
        let yes := seg.filter (votePred f)
        (f.fn.toNat % 4 = 0 → res p = (if yes = [] then 0 else 1, 0)) ∧
        (f.fn.toNat % 4 = 1 → res p = (if ∀ q ∈ seg, votePred f q = true then 1 else 0, 0)) ∧
        (f.fn.toNat % 4 = 2 → ∀ k, k < f.ty.width → (res p).1.testBit k = seg.any fun q => votePred f q && q.v.l.no % sw == k) ∧
        (f.fn.toNat % 4 = 3 → res p = (yes.length, 0)))

/-- R184 to R191: the group instructions, in their slots and at commit. -/
def Obligations.GroupInstructions : Prop := GroupSlots ∧ GroupHinges

/-- R232, R250, R252, R254: MMA and MDRN keep one matrix command in each lane, where every lane's tile and references pass and the lanes of each group
agree on a format word that keeps the rules. MDRN reads its block, and sets POISON where that is in a poisoned line. -/
def Obligations.MatrixVotes : Prop :=
  ∀ (s s' : State) (v : View) (f : FE) (ps : List Peer) (A B : Peer → Nat × Nat), s.view = some v → (ps.map (·.v.t.r)).Nodup →
    (∀ p ∈ ps, ∃ g, (p.v.t.m0.bind fun m => s'.group? m.gid) = some g ∧ accOf p.i < g.tile) →
    (s.readPeers (s.crossPeers v (.mma f)) = (s', some ps) →
      (∀ p ∈ ps, (∃ g, p.i = .mma g) ∧ mmaWordOk f.fmt (p.vals.getD 2 0) = true ∧
        s'.refCheck p.v p.i (p.vals.getD 0 0) (mmaAlign f.fmt) (rowBytes f.fmt (fwKlen (p.vals.getD 2 0))) = .ok (A p) ∧
        s'.refCheck p.v p.i (p.vals.getD 1 0) (mmaAlign f.fmt) (bExtent f.fmt (p.vals.getD 2 0)) = .ok (B p)) →
      (∀ p ∈ ps, ∀ q ∈ ps, p.v.t.homeGid = q.v.t.homeGid → p.vals.getD 2 0 = q.vals.getD 2 0) →
      exec (.mma f) s = .next (s'.issuePeers (ps.map fun p =>
        (p, .matrix .mma (accOf p.i) f.fmt (p.vals.getD 2 0) (A p).1 (A p).2 (B p).1 (B p).2 noBlock)))) ∧
    (∀ D : Peer → DrainBlock, s.readPeers (s.drainPeers v (.mdrn f)) = (s', some ps) →
      (∀ p ∈ ps, (∃ g, p.i = .mdrn g) ∧ mdrnWordOk f.fmt (p.vals.getD 1 0) = true ∧ p.vals.getD 0 0 / 2 ^ 30 % 4 = 0 ∧
        s'.refCheck p.v p.i (p.vals.getD 0 0) 64 64 = .ok (A p) ∧
        s'.drainBlockOf p.v p.i f.fmt (p.vals.getD 1 0) (A p).1 (A p).2 = .ok (D p)) →
      (∀ p ∈ ps, ∀ q ∈ ps, p.v.t.homeGid = q.v.t.homeGid → p.vals.getD 1 0 = q.vals.getD 1 0) →
      exec (.mdrn f) s = .next ((ps.foldl (fun u p => u.noteView p.v (A p).1 (A p).2 64) s').issuePeers (ps.map fun p =>
        (p, .matrix .mdrn (accOf p.i) f.fmt (p.vals.getD 1 0) (A p).1 (A p).2 0 0 (D p)))))

/-- R225, R250, R253, R260 to R271: references into scratch, and the cluster instructions in their slots. -/
def Obligations.ClusterSlots : Prop := ScratchReferences ∧ ClusterInstructions

/-- R56 to R64: words of the spec's own examples decode to the instructions they stand for. -/
def Obligations.WordsDecode : Prop :=
  decodeWord 0x303000033F800001 = .ok (.iaddImm
    { ty := .i32, rm := .rne, kp := 0, gap := 0, feA := false, usA := false, d := 12, a := 1016, imm := 1 }) ∧
  decodeWord 0x16300001C0501800 = .ok (.idiv
    { ty := .i32, rm := .rne, kp := 0, gap := 0, feA := false, feB := false, feC := false, us := 0, d := 7, a := 5, b := 6, c := 0 }) ∧
  decodeWord 0x4AB0000501505802 = .ok (.fcmp
    { ty := .f32, rm := .rne, kp := 0, gap := 0, feA := false, feB := false, feC := false, us := 0, d := 20, a := 21, b := 22, c := 2 }) ∧
  decodeWord 0x702200050150000B = .ok (.cvt
    { ty := .i16, rm := .rtz, kp := 0, gap := 0, feA := false, feB := false, feC := false, us := 0, d := 20, a := 21, b := 0, c := 11 }) ∧
  decodeWord 0x5B0000014000001F = .ok (.flgc
    { ty := .b32, rm := .rne, kp := 0, gap := 0, feA := false, usA := false, d := 5, a := 0, imm := 0x1F }) ∧
  decodeWord 0x8032100C64000014 = .ok (.gcmpImm
    { ty := .i32, cond := .lt, feA := false, feB := false, usB := false, a := 3, b := 100, alt := 20 }) ∧
  decodeWord 0x94E000053FCFE000 = .ok (.qmul
    { ty := .q128, rm := .rne, kp := 0, gap := 0, feA := false, feB := false, feC := false, us := 0, d := 20, a := 1020, b := 1016, c := 0 }) ∧
  decodeWord 0x303000033F900001 ≠ decodeWord 0x303000033F800001 ∧
  decodeWord 0x0F00000000000000 = .error .unassigned

/-- R56 to R65: decoding the words of a well-formed instruction gives it back, every field at every value; the offset of a memory instruction is one
that its 16 bits hold. -/
def Obligations.DecodeEncode : Prop :=
  ∀ i : Instr, i.WellFormed → isSlot i = true → -32768 ≤ offsetOf i → offsetOf i < 32768 → decodeWords (encode i) = .ok i

/-- R56 to R65: no two words decode to one instruction, and no bit of a word is dropped: a word that decodes is the encoding of what it decodes to. -/
def Obligations.EncodeDecode : Prop :=
  (∀ (w : Nat) (i : Instr), w < 2 ^ 64 → decodeWord w = .ok i → encode i = [w] ∧ i.WellFormed) ∧
  (∀ (p w : Nat) (i : Instr), p < 2 ^ 64 → w < 2 ^ 64 → decodeWords [p, w] = .ok i → encode i = [p, w] ∧ i.WellFormed)

/-- R17, R20, R30, R61: a step is the decoded instruction, or the event, executed. -/
def Obligations.StepRunsTheInstruction : Prop := StepIssues ∧ StepEvents

/-- The machine has no state in which it stops: every step answers a next state. -/
def Obligations.NeverStops : Prop := ∀ s : State, ∃ t, step s = .next t

/-- Every step keeps the canonical form of device, host and peer memory and of every group's scratch. -/
def Obligations.MemoryFormKept : Prop := ∀ s t : State, s.memOk → step s = .next t → t.memOk

/-- R14, R196, R358: what reset leaves, and that the canonical form of memory holds there. -/
def Obligations.ResetIsAsStated : Prop := ResetState ∧ MemoryFormAtReset

/-- R13, R21, R28, R29, R127, R135, R162, R192: a commit writes the results, the flags, the PC and the control registers, CALL's link too, ends or halts
its thread, and queues the stores of its pond as one block; CHKERR.abort ends its run. -/
def Obligations.CommitOfOneLane : Prop :=
  CommitWritesResults ∧ CommitEnds ∧ CommitQueuesStores ∧ ControlRegistersAtCommit ∧ CommitAborts

/-- R198, R202: the fault record, eight little-endian words at 64 × the thread's slot in the fault area, written whole, in poisoned memory too; no other byte
of memory changes. -/
def Obligations.FaultRecord : Prop :=
  ∀ (s s1 : State) (t : Thread) (info : FaultInfo) (c : Context) (a : Nat),
    s.mem.wf = true → s.ctx? t.ctx = some c → s.devPlace t.ctx (c.par.faultArea + 64 * t.r) true = some (.dev a) → a % 64 = 0 →
    s.writeRecord t info = some s1 →
    let word := fun j => ofLe (s1.mem.readN (a + 8 * j) 8)
    word 0 = info.savePc % 2 ^ 64 ∧ word 1 = info.addr % 2 ^ 64 ∧
    word 2 = (info.cause + 2 ^ 8 * (t.r * 32 + t.gen) + 2 ^ 32 * t.tid) % 2 ^ 64 ∧
    word 3 = (info.size % 16 + 2 ^ 4 * (info.opnd % 4) + 2 ^ 6 * (info.reg % 1024) + (if info.deferred then 2 ^ 16 else 0) +
      2 ^ 17 * (info.slotNo % 32) + 2 ^ 22 * (info.pos % 1024) + 2 ^ 32 * info.ttag) % 2 ^ 64 ∧
    word 4 = info.instr % 2 ^ 64 ∧ word 5 = info.pre % 2 ^ 64 ∧ word 6 = info.detail % 2 ^ 64 ∧ word 7 = s.clk.toNat ∧
    ∀ b, b < a ∨ a + 64 ≤ b → s1.mem.read b = s.mem.read b

/-- R198, R200: taking a trap, and the double trap. -/
def Obligations.TrapTaking : Prop := TrapEntry ∧ DoubleTrap

/-- R27, R132: where TRET goes on. TRET.re, and either form after a fault at fetch, goes back to the trace and loop position that trapped; TRET.skip
after a fault in a slot goes to the trace's successor, of every kind; after TRAP either form goes to TRAP's own resume point; a deferred fault's
load is issued again by TRET.re and given up by TRET.skip. The holds, the waits and the EXIT or HALT that the trap has set aside come back. -/
def Obligations.TrapReturn : Prop :=
  ∀ (s : State) (t : Thread) (tr : TrapState) (skip : Bool) (x : Succ),
    let back : Going := { dest := .at_ tr.pc, pos := tr.pos, cnt := tr.cnt }
    let to_ := fun (d : Resume) => ({ dest := d, pos := 0, cnt := none } : Going)
    let branch := (BitVec.ofInt 64 (x.hAddr + 8 * (BitVec.ofNat 24 x.tword.toNat).toInt)).toNat
    let link := x.tword.toNat / 2 ^ 43 % 2 ^ 10
    (tr.kind = .slot → skip = false → s.tretResume t tr skip = (s, back)) ∧
    (tr.kind = .fetch → s.tretResume t tr skip = (s, back)) ∧
    (tr.kind = .soft → s.tretResume t tr skip = (s, { back with dest := tr.resume })) ∧
    (tr.kind = .slot → skip = true → tr.succ = some x →
      (tKind x.tword.toNat = 0 → s.tretResume t tr skip = (s, to_ (.at_ x.after))) ∧
      (tKind x.tword.toNat = 1 → s.tretResume t tr skip = (s, to_ (.at_ branch))) ∧
      (tKind x.tword.toNat = 2 → s.tretResume t tr skip =
        (s, to_ (.at_ ((t.reg link).toNat + 2 ^ 32 * (t.reg (link + 1)).toNat)))) ∧
      (tKind x.tword.toNat = 3 → s.tretResume t tr skip = (s.modThread t.r fun t => t.setPair link x.after, to_ (.at_ branch))) ∧
      (tKind x.tword.toNat = 4 → s.tretResume t tr skip = (s, to_ .exit)) ∧
      (5 ≤ tKind x.tword.toNat → s.tretResume t tr skip = (s, to_ .halt))) ∧
    (∀ id, tr.kind = .deferred id → (s.tretResume t tr skip).2 = back ∧
      (skip = true → (s.tretResume t tr skip).1.oplog = s.oplog.filter (·.id ≠ id)) ∧
      (skip = false → ∀ e ∈ s.oplog, e.id = id →
        { e with walk := true, data := none, fault := none, cancelled := false } ∈ (s.tretResume t tr skip).1.oplog)) ∧
    (t.trap = some tr → t.leaveTrap.trap = none ∧ t.leaveTrap.more = tr.waits ++ t.more ∧
      t.leaveTrap.hold.drain = (t.hold.drain || tr.holds.drain) ∧ t.leaveTrap.hold.fill = (t.hold.fill || tr.holds.fill) ∧
      t.leaveTrap.hold.merge = (t.hold.merge || tr.holds.merge) ∧ t.leaveTrap.ending = t.ending.or tr.ending ∧ t.leaveTrap.regs = t.regs ∧ t.leaveTrap.pc = t.pc)

/-- R32, R149, R153, R155, R16, R30: bundles form from the entries at the lowest address of a partition's table, of one context, up to 64 lanes; an entry that
has waited 4,096 cycles is promoted; a fetched trace stands at its port, one pass or as many as its loop count tells, and a fetch that traps
takes every lane's trap; with no store of the thread queued it leaves memory and the thread as they were (log 92). The threads of the table have no ending, pending wait, home group or hold; a bundle holds one context (log 26). -/
def Obligations.TracesReachPorts : Prop :=
  (∀ (s : State) (core part ctx : Nat),
    let mine := s.table.filter fun e => e.core == core && e.part == part
    let p : PortId := { core, part, port := 0 }
    core < 256 → part < 4 → (s.core core).gated = false → s.stopping core ctx = false → mine ≠ [] → (∀ b ∈ s.bundles, ¬(b.p.core = core ∧ b.p.part = part)) →
    (∀ e ∈ mine, e.gather = none ∧ e.promoted = none ∧ ∃ r t, e.threads = [r] ∧ s.thread? r = some t ∧ t.ctx = ctx ∧ t.m0 = none ∧
      t.ending = none ∧ t.more = [] ∧ t.stepping = false ∧ s.heldBack t = false ∧ s.assembling t = false ∧ s.failing t.run = false) →
    ∃ u b, exec (.bundleFormation core part) s = .next u ∧ u.bundle? p = some b ∧ b.trace = none ∧ b.gather = none ∧ b.lanes ≠ [] ∧
      b.lanes.length ≤ 64 ∧ (∀ e ∈ mine, b.addr ≤ e.addr) ∧
      ∀ l ∈ b.lanes, l.active = true ∧ l.at_ = 1 ∧ (∃ e ∈ mine, e.threads = [l.r] ∧ e.addr = b.addr) ∧
        ∃ t, s.thread? l.r = some t ∧ u.thread? l.r = some { t with status := .issuing p }) ∧
  (∀ (s : State) (slot : Nat) (e : PcEntry), e ∈ s.table → slot ∈ e.threads →
    (∀ x ∈ s.table, slot ∈ x.threads ∨ x.seq = e.seq → x = e) → e.promoted = none → e.since + 4096 ≤ s.clk.toNat →
    ∃ u, exec (.promotion slot) s = .next u ∧ u.table = (s.table.map fun x => if x = e then { x with promoted := some s.seq } else x) ∧
      (u.core e.core).parts[e.part]? = (s.core e.core).parts[e.part]?.map (fun c => { c with promote := (c.promote + 1) % 2 ^ 48 }) ∧
      u.threads = s.threads ∧ u.mem = s.mem) ∧
  (∀ (s s' : State) (p : PortId) (b : Bundle) (l : Lane) (t : Thread), s.bundle? p = some b → b.trace = none → b.lanes = [l] →
    l.active = true → s.thread? l.r = some t → s.poison = [] →
    (∀ x, t.status = .issuing p → s.fetchTrace p.core t.ctx [t.run] t.r b.addr b.gather.isSome = (s', x) → (∀ k ∈ s.blocks, k.r ≠ l.r) →
      s'.mem = s.mem ∧ s'.thread? l.r = some t) ∧
    (∀ tr, s.fetchTrace p.core t.ctx [t.run] t.r b.addr b.gather.isSome = (s', .ok tr) → s'.thread? l.r = some t → t.pos = 0 → t.cnt = none →
      (tr.lword = none → ∃ u, exec (.traceFetch p) s = .next u ∧ u.mem = s'.mem ∧ u.thread? l.r = some t ∧
        u.bundle? p = some { b with trace := some tr, lanes := [{ l with passes := 1, pass := 0 }] }) ∧
      (∀ w n, tr.lword = some w → w.toNat / 2 ^ 46 % 2 ^ 10 = 0 → w.toNat / 2 ^ 36 % 2 ^ 10 = n → 0 < n →
        ∃ u, exec (.traceFetch p) s = .next u ∧ u.mem = s'.mem ∧ u.thread? l.r = some { t with cnt := some n } ∧
          u.bundle? p = some { b with trace := some tr, lanes := [{ l with passes := n, pass := 0 }] })) ∧
    (s.fetchTrace p.core t.ctx [t.run] t.r b.addr b.gather.isSome = (s', .wait) → exec (.traceFetch p) s = .next s') ∧
    (∀ c d a x, s.fetchTrace p.core t.ctx [t.run] t.r b.addr b.gather.isSome = (s', .trap c d a x) →
      exec (.traceFetch p) s = .next ((s'.trapLane p l.r .fetch (fetchInfo c d a x t.pos) none).leaveBundle p)))

/-- R11, R25, R27, R169, R282, R286, R287: a posted load's fill puts its data into its registers and makes them full; a deferred fault of a thread that is not in
trap handling is taken with its registers empty and no fill pending, its holds and waits set aside, and is held by one that is, and by a halted
one (log 78, DEDUCED); a performed hinge fills its destination, the oldest first; a walk that ends leaves the miss table, gives its translation to
every core that waits or tells its failure to every access that does, and the loads that wait are translated; a walk of a page of the host
window asks the host, and waits for it (that such a page stands in the miss table and the TLBs like another is log 96, DESIGN CHOICE); the
host's answer to a page request presents the page or refuses it, to every agent that waits (log 24, DEDUCED). -/
def Obligations.LoadsComplete : Prop :=
  (∀ (s : State) (id : Nat) (e : LogEntry) (t : Thread), s.logEntry? id = some e → e.walk = false → e.cancelled = false → e.fault = none →
    away e.r = false → s.thread? e.r = some t → (∀ x ∈ s.oplog, x.r = e.r → x = e) → t.status = .runnable → t.wait = none →
    (∀ b ∈ s.bundles, ∀ l ∈ b.lanes, l.r ≠ e.r) → (∀ x ∈ e.regs, x.1 ∉ t.badRegs) →
    (e.data = none → e.chk = false ∧ (s.viewValues t [] e.ty.bytes e.places).2 = false) → sWf t.regs = true → (e.regs.map (·.1)).Nodup →
    let data := e.data.getD (s.viewValues t [] e.ty.bytes e.places).1
    ∃ u th, exec (.postedLoadFill id) s = .next u ∧ u.thread? e.r = some th ∧ u.oplog = s.oplog.filter (·.id ≠ id) ∧ u.mem = s.mem ∧
      (∀ x ∈ e.regs, 1 ≤ x.1 → x.1 ≤ 1015 → th.reg x.1 = (loadImages e.ty e.n data).getD x.2 0 ∧ th.isEmpty x.1 = false ∧
        th.fills.contains x.1 = false) ∧
      (∀ c, (∀ x ∈ e.regs, x.1 ≠ c) → th.reg c = t.reg c ∧ th.isEmpty c = t.isEmpty c ∧ th.fills.contains c = t.fills.contains c) ∧
      th.pc = t.pc ∧ th.flg = t.flg ∧ th.tstat = t.tstat ∧ th.status = t.status) ∧
  (∀ (s : State) (id c d a : Nat) (e : LogEntry) (t : Thread), s.logEntry? id = some e → e.fault = some (c, d, a) → e.cancelled = false →
    away e.r = false → s.committing e.r = false → s.thread? e.r = some t →
    (t.trap.isSome = true ∨ t.status = .halted → (∀ x y, t.status ≠ .waitf x y) → ∃ u, exec (.deferredFault id) s = .next u ∧ u.mem = s.mem ∧
      { e with cancelled := true } ∈ u.oplog ∧ u.thread? e.r = some { t with
        fills := t.fills.filter fun c => !(e.regs.any (·.1 == c)), held := t.held ++ [{ id, info := e.info c d a true }] }) ∧
    (∀ x p, t.trap = none → c ≠ 0x28 → t.status = .runnable → t.m0 = none → s.bundles = [] → s.ctx? t.ctx = some x → x.par.handler ≠ 0 →
      s.devPlace t.ctx (x.par.faultArea + 64 * e.r) true = some p →
      ∃ u th tr, exec (.deferredFault id) s = .next u ∧ { e with cancelled := true } ∈ u.oplog ∧ u.thread? e.r = some th ∧
        th.trap = some tr ∧ tr.kind = .deferred id ∧ tr.pc = t.pc.toNat ∧ tr.pos = t.pos ∧ tr.holds = t.hold ∧ tr.waits = t.waits ∧
        th.pc = BitVec.ofNat 64 x.par.handler ∧ th.tstat = setCause t.tstat c ∧ th.empty = t.empty ∧ th.regs = t.regs ∧
        ∀ y ∈ e.regs, th.fills.contains y.1 = false)) ∧
  (∀ (s : State) (slot : Nat) (t : Thread) (h : HingeFill) (rest : List HingeFill), s.thread? slot = some t → t.hingeFills = h :: rest →
    1 ≤ h.code → h.code + h.words ≤ 1016 → (∀ j, j < h.words → h.code + j ∉ t.badRegs) → sWf t.regs = true → (∀ x y, t.status ≠ .waitf x y) →
    ∃ u th, exec (.hingeFill slot) s = .next u ∧ u.thread? slot = some th ∧ u.mem = s.mem ∧ th.hingeFills = rest ∧
      (∀ j, j < h.words → th.reg (h.code + j) = BitVec.ofNat 32 (h.value / 2 ^ (32 * j)) ∧ th.isEmpty (h.code + j) = false) ∧
      (∀ c, c < h.code ∨ h.code + h.words ≤ c → th.reg c = t.reg c ∧ th.isEmpty c = t.isEmpty c) ∧ th.pc = t.pc ∧ th.flg = t.flg) ∧
  (∀ (s : State) (die ctx page : Nat) (m : Miss),
    ((s.die die).misses.take 64).find? (fun m => m.ctx == ctx && m.page == page) = some m → page < hostBase / 4096 →
    ∃ u, exec (.pageWalkComplete die ctx page) s =
        .next ((s.oplog.filter fun e => e.walk && dieOfCore e.core == die && e.ctx == ctx).foldl State.resolve u) ∧
      u.threads = s.threads ∧ u.mem = s.mem ∧ u.oplog = s.oplog ∧ (u.die die).misses = (s.die die).misses.erase m ∧
      (u.die die).walks = ((s.die die).walks + 1) % 2 ^ 48 ∧
      (s.walk ctx (page * 65536) = none → (u.die die).walkbad = ((s.die die).walkbad + 1) % 2 ^ 48 ∧
        (u.die die).bad = (s.die die).bad ++ m.waiters.map fun w => (ctx, page, w.2)) ∧
      (∀ leaf shift, s.walk ctx (page * 65536) = some (leaf, shift) → (u.die die).walkbad = (s.die die).walkbad ∧
        (u.die die).bad = (s.die die).bad ∧ ∀ w ∈ m.waiters, u.cached w.1 ctx (page * 65536) = some (leaf, shift))) ∧
  (∀ (s s1 : State) (die ctx page : Nat) (m : Miss) (c : Context),
    ((s.die die).misses.take 64).find? (fun m => m.ctx == ctx && m.page == page) = some m → hostBase / 4096 ≤ page → s.ctx? ctx = some c →
    let asked := s.hostAsk c.par.vf (page * 4096 - hostBase) false (walkerAgent die ctx)
    (asked = (s1, .wait) → exec (.pageWalkComplete die ctx page) s = .next s1) ∧
    (asked.2 ≠ .wait → ∃ u, exec (.pageWalkComplete die ctx page) s =
        .next ((asked.1.oplog.filter fun e => e.walk && dieOfCore e.core == die && e.ctx == ctx).foldl State.resolve u) ∧
      u.threads = s.threads ∧ u.mem = s.mem ∧ u.oplog = s.oplog ∧ (u.die die).misses = (s.die die).misses.erase m ∧
      (u.die die).walks = ((s.die die).walks + 1) % 2 ^ 48 ∧ (u.die die).walkbad = (s.die die).walkbad ∧
      (∀ d, asked.2 = .fault 0x0C d → (u.die die).bad = (s.die die).bad ++ m.waiters.map fun w => (ctx, page, w.2)) ∧
      (∀ p k, asked.2 = .ok p k → (u.die die).bad = (s.die die).bad ∧ ∃ leaf, (bit leaf 8 = true ↔ ∃ h ∈ s.hostPages,
          h.vf = c.par.vf ∧ h.page = (page * 4096 - hostBase) / 4096 ∧ h.writable = true) ∧
        ∀ w ∈ m.waiters, u.cached w.1 ctx (page * 4096) = some (leaf, 12)))) ∧
  (∀ (s s1 : State) (e : LogEntry) (t : Thread), s.thread? e.r = some t → e.walk = true → e.cancelled = false → e.fault = none →
    away e.r = false →
    (∀ e', s.translateLoad t e = (s1, .ok e') → (∀ w, t.wait ≠ some (.waitv w)) → s.resolve e = s1.setLog e') ∧
    (∀ f, s.translateLoad t e = (s1, .error (some f)) → s.resolve e = s1.setLog { e with fault := some (f.cause, f.detail, f.addr) }) ∧
    (s.translateLoad t e = (s1, .error none) → s.resolve e = s1)) ∧
  (∀ (s : State) (vf page : Nat) (q : PriRequest), s.pri.find? (fun q => q.vf == vf && q.page == page) = some q →
    (∀ w, exec (.priResponse vf page (some w)) s = .next
      { s with pri := s.pri.erase q, hostPages := s.hostPages ++ [{ vf, page, writable := w }] }) ∧
    exec (.priResponse vf page none) s = .next
      { s with pri := s.pri.erase q, priBad := s.priBad ++ q.agents.map fun a => (vf, page, a) })

/-- R162, R163, R175, R290, R309, R311, R312: a store on its way to its home, poisoned lines, and what the race detector keeps and reports. -/
def Obligations.StoresPerform : Prop := StoresComplete ∧ PoisonedLines ∧ RaceMetadata

/-- R165, R199, R206, R207, R214 to R217, R267, R327: event entries, and what a core reports of itself. -/
def Obligations.ReportsOfCores : Prop := EventsQueue ∧ CoreReports

/-- R45, R46, R50 to R52, R251, R263: the elements of KD8 blocks, the matrix sums with the sign of their zero (log 28, DEDUCED), and the arrivals at a
barrier object. -/
def Obligations.SumsAndArrivals : Prop := Kd8Elements ∧ MatrixArithmetic ∧ BarrierArrivals

/-- R228, R230, R233 to R236, R253, R254, R177, R248: the engine of a cluster takes the command at the head of a group's queue: MZERO zeroes its rows and
their flags, MLDA reads its rows from scratch and clears their flags, MMA gives each element of its rows the sum that its format tells, and MDRN
has the bytes of its rows to write, converted and quantised as its format word says. A drain that completes adds its bytes to its barrier object,
resets the rows where MDRN says so, and joins the row flags into the FLG of the rows' threads; its row writes stand then; an LDX transfer puts its
bytes into scratch, each the newest store that has drained into its core, else what memory holds (that no older value is read is log 4, DEDUCED);
a mailboxed signal arrives. The barrier's core has not been reset since the command was released, and no line of the tiles is poisoned. -/
def Obligations.EnginesWork : Prop :=
  (∀ (s : State) (cl gid : Nat) (g : Group) (c : MCmd) (q : List MCmd), s.group? gid = some g → g.dissolved = false → g.resident = true →
    (s.core g.home).gated = false → clusterOfCore g.home = cl → g.drain = none → g.mq = c :: q → sWf g.tiles = true → sWf g.rowFlags = true → g.badTile = [] →
    (∀ h ∈ s.groups, (h.gid = gid → h = g) ∧ (h.gid ≠ gid → clusterOfCore h.home = cl → h.mq = [] ∧ h.drain = none)) →
    (c.op = .mzero → ∃ u h, exec (.tileStep cl) s = .next u ∧ u.group? gid = some h ∧ h.mq = q ∧ h.scr = g.scr ∧ u.mem = s.mem ∧
      u.threads = s.threads ∧ ∀ tile row col, row < 64 → col < 64 →
        if tile = c.tile ∧ (c.rows.any fun x => x.row == row) = true then h.elem tile row col = 0 ∧ h.flagsOf tile row = 0
        else h.elem tile row col = g.elem tile row col ∧ h.flagsOf tile row = g.flagsOf tile row) ∧
    (c.op = .mlda → s.poison = [] → (c.rows.map MRow.row).Nodup → ∃ u h, exec (.tileStep cl) s = .next u ∧ u.group? gid = some h ∧ h.mq = q ∧
      h.scr = g.scr ∧ u.mem = s.mem ∧ u.threads = s.threads ∧
      (∀ x ∈ c.rows, h.flagsOf c.tile x.row = 0 ∧ ∀ j, j < 64 →
        let w := tileWidth c.fmt
        (h.elem c.tile x.row j).toNat % 2 ^ w = ofLe (s.readAt (.scr x.aGid (x.aOff + x.row * tilePitch c.fmt + j * (w / 8))) (w / 8))) ∧
      ∀ tile row col, row < 64 → col < 64 → tile ≠ c.tile ∨ (c.rows.any fun x => x.row == row) = false →
        h.elem tile row col = g.elem tile row col ∧ h.flagsOf tile row = g.flagsOf tile row) ∧
    (c.op = .mma → s.poison = [] → (c.rows.map MRow.row).Nodup → fwNcol c.fword ≤ 64 → ∃ u h, exec (.tileStep cl) s = .next u ∧
      u.group? gid = some h ∧ h.mq = q ∧ h.scr = g.scr ∧ u.mem = s.mem ∧ u.threads = s.threads ∧
      (∀ x ∈ c.rows, ∀ j, j < fwNcol c.fword →
        let K := fwKlen c.fword
        let A := s.readAt (.scr x.aGid x.aOff) (rowBytes c.fmt K)
        let B := s.readAt (.scr c.bGid (c.bOff + j * colPitch c.fmt K)) (rowBytes c.fmt K)
        (h.elem c.tile x.row j).toNat % 2 ^ tileWidth c.fmt =
          (chainOf c.fmt ((Rm.ofCode? (fwRm c.fword)).getD .rne) (g.elem c.tile x.row j).toNat A B K).1 % 2 ^ tileWidth c.fmt) ∧
      ∀ tile row col, row < 64 → col < 64 → tile ≠ c.tile ∨ (c.rows.any fun x => x.row == row) = false ∨ fwNcol c.fword ≤ col →
        h.elem tile row col = g.elem tile row col) ∧
    (c.op = .mdrn → s.poison = [] → (c.rows.map MRow.row).Nodup → fwNcol c.fword ≤ 64 → c.fmt = .f32 ∨ c.fmt = .f64 ∨ c.fmt = .i8 →
      mdrnWordOk c.fmt c.fword = true →
      ∃ (u : State) (h : Group) (l : MRow → List Byte) (f : MRow → Flags), exec (.tileStep cl) s = .next u ∧ u.group? gid = some h ∧
        h.mq = c :: q ∧ h.scr = g.scr ∧ u.mem = s.mem ∧ u.threads = s.threads ∧ h.drain = some {
          cmd := c, shown := [], bytes := (c.rows.map fun x => (l x).length).sum
          writes := c.rows.map fun x => (c.blk.outGid, c.blk.outOff + x.row * outPitch c.fmt c.fword, l x) } ∧
        (∀ tile row col, h.elem tile row col = g.elem tile row col) ∧
        ∀ x ∈ c.rows, h.flagsOf c.tile x.row = g.flagsOf c.tile x.row ||| f x ∧
          RowDrained c.fmt c.blk c.fword x.row (fun j => (g.elem c.tile x.row j).toNat % 2 ^ tileWidth c.fmt)
            (fun j => ofLe (s.readAt (.scr c.blk.resGid (c.blk.resOff + 256 * x.row + 4 * j)) 4)) (l x) (f x))) ∧
  (∀ (s : State) (gid : Nat) (g k : Group) (d : DrainPend), s.group? gid = some g → g.drain = some d → g.dissolved = false →
    d.cmd.op = .msta ∨ d.cmd.op = .mdrn → (d.cmd.rows.map MRow.row).Nodup → (d.cmd.rows.map (·.r)).Nodup → sWf g.rowFlags = true →
    sWf g.tiles = true → g.badTile = [] → fwNcol d.cmd.fword ≤ 64 →
    let bar := if d.cmd.op = .mdrn then (d.cmd.blk.barGid, d.cmd.blk.barOff) else (d.cmd.bGid, d.cmd.bOff)
    s.group? bar.1 = some k → k.dissolved = false → k.resident = true → (s.core k.home).gated = false → k.resets = d.cmd.resets →
    let w := s.showAll d
    (∃ u h, exec (.drainComplete gid) s = .next u ∧ u.group? gid = some h ∧ h.drain = none ∧ h.mq = g.mq.drop 1 ∧
      (u.group? bar.1).map (·.scr) = ((w.arriveAt bar.1 bar.2 0 d.bytes false).group? bar.1).map (·.scr) ∧
      (∀ tile row col, row < 64 → col < 64 →
        if d.cmd.op = .mdrn ∧ d.cmd.fword.testBit 3 = true ∧ tile = d.cmd.tile ∧ (d.cmd.rows.any fun x => x.row == row) = true ∧
            col < fwNcol d.cmd.fword then (h.elem tile row col).toNat % 2 ^ tileWidth d.cmd.fmt = 0
        else h.elem tile row col = g.elem tile row col) ∧
      ∀ x ∈ d.cmd.rows, h.flagsOf d.cmd.tile x.row = 0 ∧ ∀ t, s.thread? x.r = some t → t.gen = x.gen →
        (u.thread? x.r).map (·.flg) = some (t.flg ||| g.flagsOf d.cmd.tile x.row)) ∧
    (∀ to_ off l y, d.writes = [(to_, off, l)] → d.shown = [] → s.group? to_ = some y → y.scr.wf = true → s.poison = [] → s.noWaits →
      (∀ j, j < l.length → w.byteAt (.scr to_ (off + j)) = l.getD j 0) ∧
      ∀ j, j < off ∨ off + l.length ≤ j → w.byteAt (.scr to_ j) = s.byteAt (.scr to_ j))) ∧
  (∀ (s : State) (id : Nat) (x : LdxMove) (p : Place) (g : Group), s.ldxs.find? (·.id == id) = some x → x.src = [p] →
    s.group? x.gid = some g → g.dissolved = false → g.resident = true → (s.core g.home).gated = false → g.resets = x.resets →
    g.scr.wf = true → s.poison = [] → x.barOff + 16 ≤ x.off ∨ x.off + x.bytes ≤ x.barOff →
    ∃ u, exec (.ldxTransferComplete id) s = .next u ∧ u.ldxs = s.ldxs.filter (·.id ≠ id) ∧
      ∀ k, k < x.bytes → u.byteAt (.scr x.gid (x.off + k)) =
        match newestByte (s.drained x.core) (p.add k) with
        | some b => b
        | none => s.readByte (p.add k)) ∧
  (∀ (s : State) (die : Nat) (x : Signal) (g : Group), s.dispatching = true → s.mailbox.find? (·.die == die) = some x →
    s.group? x.gid = some g →
    (g.resets = x.resets → exec (.mailboxSignal die) s = .next
      ((({ s with mailbox := s.mailbox.erase x } : State).notePoison x.run (s.poison.contains (Place.scr x.gid x.off).line)).arriveAt
        x.gid x.off x.arrivals x.bytes x.pure)) ∧
    (∀ y, g.resets ≠ x.resets → s.run? x.run = some y → ∃ u z, exec (.mailboxSignal die) s = .next u ∧ u.run? x.run = some z ∧
      z.cir.getLsbD 2 = true ∧ u.mailbox = s.mailbox.erase x))

/-- R237 to R240, R243, R255 to R258: the copy engine at a ring whose turn it is. It starts the entry at CONS once PROD has passed it; it moves an
element's bytes unchanged; the gate of a HALO opens when its barrier's phase bit has the entry's value; a flume command takes the slot at HEAD
when one is free and fills it (which stream slot takes one, and when, is log 54, DEDUCED); a command that has ended writes its completion record and advances CONS, and then signals. No line is poisoned and no thread waits. -/
def Obligations.CopiesWork : Prop :=
  (∀ (s : State) (gid : Nat) (g : Group) (k : Ring) (snap : RingSnap), s.group? gid = some g → g.ring = some k → k.cur = none →
    s.copyTurnOf g = true →
    let pos := g.rd (k.off + 4) 4
    let e := k.entries + 64 * (pos % k.nent)
    let cover := (BitVec.ofNat 32 (g.rd k.off 4) - BitVec.ofNat 32 pos).toNat
    k.snapFor pos = some snap → 1 ≤ cover → cover ≤ 2 ^ 31 → (g.rd e 4).testBit 10 = false → (g.rd e 4).testBit 8 = false →
    (g.rd e 4).testBit 9 = false → g.rd e 4 % 16 = 0 → entryRefused g k (copyEntry g k snap pos) = false →
    (∀ i, i < 5 → g.rd (e + 24 + 8 * i) 8 % 2 ^ 16 ≠ 0) → ∀ b, s.ringRef snap (g.rd (e + 4) 4) 16 16 = .ok b →
    ∃ u h k' c, exec (.copyCommandStart gid) s = .next u ∧ u.group? gid = some h ∧ h.ring = some k' ∧ k'.cur = some c ∧ h.scr = g.scr ∧
      c.pos = pos ∧ c.ended = false ∧ c.next = 0 ∧ c.esz = g.rd e 4 / 16 % 16 ∧ c.src = g.rd (e + 8) 8 ∧ c.dst = g.rd (e + 16) 8 ∧
      c.barGid = some b.1 ∧ c.barOff = b.2 ∧ c.bytes = 0 ∧ c.run = snap.run ∧ u.mem = s.mem) ∧
  (∀ (s s1 s2 : State) (gid a b : Nat) (g : Group) (k : Ring) (c : CopyCur) (x y : Bool), s.group? gid = some g → g.ring = some k →
    k.cur = some c → s.copyTurnOf g = true → c.kind ≠ 2 → c.ended = false → s.poison = [] →
    s.noWaits → s.mem.wf = true → c.counts.foldl (· * ·) 1 = c.next + 1 →
    (s.tookTurn g).copySide gid g.home c false c.next = (s1, .ok (.dev a, x)) → s1.copySide gid g.home c true c.next = (s2, .ok (.dev b, y)) →
    ∃ u h k', exec (.copyCommandStart gid) s = .next u ∧ u.group? gid = some h ∧ h.ring = some k' ∧
      k'.cur = some { c with next := c.next + 1, bytes := c.bytes + 2 ^ c.esz, ended := true } ∧
      (∀ i, i < 2 ^ c.esz → u.byteAt (.dev (b + i)) = s.byteAt (.dev (a + i))) ∧
      (∀ i, i < b ∨ b + 2 ^ c.esz ≤ i → u.byteAt (.dev i) = s.byteAt (.dev i)) ∧ u.threads = s.threads) ∧
  (∀ (s : State) (gid : Nat) (g : Group) (k : Ring) (c : CopyCur), s.group? gid = some g → g.ring = some k → k.cur = some c →
    c.gated = true → s.copyHeld c = false →
    (s.phaseOf c.gateGid c.gateOff = c.gatePhase → exec (.haloStart gid) s =
      .next ((s.notePoison c.run (s.poison.contains (Place.scr c.gateGid c.gateOff).line)).setCopy gid { c with gated := false })) ∧
    (s.phaseOf c.gateGid c.gateOff ≠ c.gatePhase → exec (.haloStart gid) s = .next s)) ∧
  (∀ (s s1 : State) (gid a : Nat) (g d : Group) (k : Ring) (c : CopyCur) (x : Bool), s.group? gid = some g → g.ring = some k →
    k.cur = some c → s.copyTurnOf g = true → c.kind = 2 → c.ended = false → c.taken = 0 → s.group? c.dstGid = some d →
    d.scr.wf = true → s.poison = [] → s.noWaits → c.counts.foldl (· * ·) 1 = c.next + 1 →
    let rd := fun (o n : Nat) => s.scrRd c.dstGid (c.dst + o) n
    let z := rd 4 4
    let e := 2 ^ c.esz
    let o := strideSum c.dstr (unlinear c.counts c.next)
    let slot := rd 16 2
    let to_ := rd 0 4 + slot * z + o.toNat
    0 ≤ o → o.toNat + e ≤ z → rd 12 2 ≠ 0 → rd 14 2 < 2 ^ 16 - 1 → to_ % e = 0 → to_ + e ≤ d.alloc → 1 ≤ rd 8 2 →
    to_ + e ≤ c.dst ∨ c.dst + 32 ≤ to_ →
    (s.tookTurn g).copySide gid g.home c false c.next = (s1, .ok (.dev a, x)) →
    ∃ u h k' c', exec (.flumeSlotWrite gid) s = .next u ∧ u.group? gid = some h ∧ h.ring = some k' ∧ k'.cur = some c' ∧ c'.ended = true ∧
      c'.status = c.status ∧ c'.next = c.next + 1 ∧ c'.bytes = c.bytes + e ∧ c'.taken = 1 ∧ c'.slotIdx = slot ∧
      (∀ i, i < e → u.byteAt (.scr c.dstGid (to_ + i)) = s.byteAt (.dev (a + i))) ∧
      u.scrRd c.dstGid (c.dst + 12) 2 = rd 12 2 - 1 ∧ u.scrRd c.dstGid (c.dst + 14) 2 = rd 14 2 + 1 ∧
      u.scrRd c.dstGid (c.dst + 16) 2 = (rd 16 2 + 1) % rd 8 2) ∧
  (∀ (s : State) (gid : Nat) (g : Group) (k : Ring) (c : CopyCur), s.group? gid = some g → g.ring = some k → k.cur = some c →
    c.ended = true → c.gated = false → s.served g = true → (∀ b, c.barGid = some b → s.mailRoom b = true) → g.scr.wf = true →
    s.poison = [] → s.noWaits → c.counts.length = 5 → c.startV.length = 5 →
    let r := k.recs + 32 * (c.pos % k.nent)
    let n := (c.pos + if c.ext then 2 else 1) % 2 ^ 32
    r + 32 ≤ k.off ∨ k.off + 64 ≤ r →
    ∃ (w : State) (h : Group) (k' : Ring), exec (.copyCommandComplete gid) s = .next ((match c.barGid with
        | some b => w.signal c.run b c.barOff c.bytes c.resets
        | none => w).freeGroups) ∧
      w.group? gid = some h ∧ h.ring = some k' ∧ k'.cur = none ∧ w.scrRd gid (k.off + 4) 4 = n ∧
      w.scrRd gid (k.off + 20) 4 = (s.scrRd gid (k.off + 20) 4 + if c.status = 0 then 0 else 1) % 2 ^ 32 ∧
      w.scrRd gid r 4 = (c.status + 2 ^ 8 * c.cause + (if c.poison then 2 ^ 16 else 0)) % 2 ^ 32 ∧
      w.scrRd gid (r + 4) 6 = c.bytes % 2 ^ 48 ∧ w.scrRd gid (r + 20) 4 = c.pos % 2 ^ 32 ∧ w.scrRd gid (r + 24) 8 = c.faddr % 2 ^ 64 ∧
      w.mem = s.mem ∧ w.threads = s.threads)

/-- R164, R245, R247, R248, R337, R341 to R343: rounds, gating and reset of cores, and saving and restoring groups. That saved threads are numbered
from Config.numSlots on is log 41, and the moments of a slice boundary and of a stop request are log 43 (both DESIGN CHOICE). -/
def Obligations.CoresAndGroups : Prop := CoresPace ∧ GroupsComeAndGo

/-- R328 to R331, R335, R349: a published submission whose header or image can never be an image ends with STATUS 0x101 and STATE 4; an image that
passes every check becomes a loaded graph, whose nodes without a dependency are queued and whose others are blocked; a translation is
recorded for its kernel. -/
def Obligations.GraphsLoad : Prop :=
  (∀ (s : State) (ctx entry base : Nat) (edits : List TableEdit) (c : Context), s.ctx? ctx = some c → s.dispatching = true → 1 ≤ entry →
    entry < 64 → (∀ e, 1 ≤ e → e < entry → s.subRead c e 0 4 ≠ 1) → s.subRead c entry 0 4 = 1 →
    let image := s.subRead c entry 8 8
    (image % 64 ≠ 0 ∨ (image % 64 = 0 ∧ ∃ h, s.farBytes ctx 2 image 16 = some h ∧ imgNum h 0 4 ≠ 0x4247434B) ∨
        (image % 64 = 0 ∧ s.farBytes ctx 2 image 16 = none ∧ s.farAsk c 2 image 16 = (s, false)) → s.poison = [] → s.noWaits →
      s.mem.wf = true → ∃ u, exec (.submission ctx entry base edits) s = .next u ∧ u.subRead c entry 0 4 = 4 ∧ u.subRead c entry 4 4 = 0x101 ∧
        u.subRead c 0 0 8 = (s.subRead c 0 0 8 + 2) % 2 ^ 64 ∧ u.graphs = s.graphs ∧ u.threads = s.threads) ∧
    (∀ h img, image % 64 = 0 → s.farBytes ctx 2 image 16 = some h → imgNum h 0 4 = 0x4247434B →
      s.farBytes ctx (imgNum h 8 8 / 4096 + 2) image (imgNum h 8 8) = some img → imgOk img = true →
      let t := s.subState c entry 2 0
      let g := graphOf s.seq ctx entry base img (s.subRead c entry 16 8) (s.subRead c entry 24 4)
      let m := t.applyEdits ctx edits
      planPages g.plan g.nodes.length ≤ s.poolPages c → s.refusedNode ctx g = none → base % 64 = 0 → s.editsOk edits = true →
      s.addsOnly ctx [] edits = true → s.guardsKept m ctx = true → s.encFits m ctx edits = true → m.mappedRange ctx base img.length false = true →
      (∀ p ∈ upFrom (base / 65536) ((base % 65536 + img.length + 65535) / 65536), m.devPlace ctx (65536 * p) true = none) →
      (∀ x ∈ s.graphs, x.ctx = ctx → base + img.length ≤ x.base ∨ x.base + x.size ≤ base) → (∀ x ∈ s.graphs, x.id ≠ s.seq) →
      g.nodes ≠ [] → (∀ q, s.queueLength ctx q + g.nodes.length ≤ Config.queueNodes) →
      ∃ u k, exec (.submission ctx entry base edits) s = .next u ∧ u.graph? s.seq = some k ∧ k.ctx = ctx ∧ k.base = base ∧
        k.size = img.length ∧ k.nodes.length = (imgNodes img).length ∧
        ∀ n ∈ k.nodes, n.state = (if n.deps = 0 then .queued else .blocked) ∧
          n.deps = ((imgEdges img).filter (·.2 == n.idx)).length)) ∧
  (∀ (s : State) (ctx graph kernel code : Nat) (g : Graph) (k : KernelDesc), s.graph? graph = some g → s.dispatching = true → g.ctx = ctx →
    (imgKernels (s.graphImage g))[kernel]? = some k → hasBreuz (s.graphImage g) kernel = true → nativeCode (s.graphImage g) kernel = none →
    (∀ x ∈ g.translated, x.1 ≠ kernel) → code % 8 = 0 → code ≠ 0 → s.mappedRange ctx code 8 false = true →
    ∃ u, exec (.breuzTranslation ctx graph kernel code) s = .next u ∧ u.mem = s.mem ∧ u.runs = s.runs ∧
      u.graph? graph = some { g with translated := g.translated ++ [(kernel, code)] })

/-- R14, R69, R134, R183, R301, R304, R325, R334, R336, R339, R340, R344 to R348: a node that may start has a run, with the race mode that its
context then has, the context's next race epoch, and frames of the pool for its shadows; a creation takes its queue's turn and places one
group, threads without a group, or every group of a coresident launch; the threads have the state that R69 lists; a flip maps each
shadowed page to its shadow; a run that ends clean makes its node done and places event 1; one with POISON or ABORT that may be retried
puts its node at the head of its queue with its count raised, and places event 2. The packing of events 1 and 2 is log 61, order 0 at the queue's
head log 53, and PSEL at the start (startPsel) log 74: the model's choices. -/
def Obligations.NodesRun : Prop :=
  (∀ (s : State) (run dataAddr : Nat) (frames : List Nat) (edits : List TableEdit) (g : Graph) (n : Node) (c : Context) (data : List Byte),
    s.graph? (run / 2 ^ 32) = some g → g.nodes.find? (·.idx == run % 2 ^ 32) = some n → s.startReady g n frames = true →
    s.editsOk edits = true → s.addsOnly g.ctx [] edits = true → s.guardsKept (s.applyEdits g.ctx edits) g.ctx = true →
    s.encFits (s.applyEdits g.ctx edits) g.ctx edits = true →
    s.dataBytes g n = some data → s.ctx? g.ctx = some c → s.poison = [] →
    n.data = some dataAddr ∨ (n.data = none ∧ (s.applyEdits g.ctx edits).dataPlaced g.ctx dataAddr n.kd.dataSize = true) →
    ∃ u x h, exec (.nodeStart run dataAddr frames edits) s = .next u ∧ u.run? run = some x ∧ x.ctx = g.ctx ∧ x.graph = g.id ∧
      x.node = n.idx ∧ x.cir = BitVec.ofNat 32 (n.retry * 64) ∧ x.nthr = n.info.threads ∧ x.group = n.info.group ∧ x.created = 0 ∧
      x.exited = 0 ∧ x.dataAddr = dataAddr ∧ x.kd = n.kd ∧ x.ended = false ∧ x.shadows.map (·.2.2) = frames ∧
      x.racectl = (match c.raceNext with
        | some z => BitVec.ofNat 32 z.1
        | none => c.racectl) ∧ u.graph? g.id = some h ∧
      (∀ m ∈ h.nodes, m.idx = n.idx → m.state = .running ∧ m.data = some dataAddr) ∧
      (u.ctx? g.ctx).map (·.epoch) = some ((c.epoch + 1) % 2 ^ 16) ∧
      (u.ctx? g.ctx).map (·.pool) = some (c.pool.filter (!frames.contains ·)) ∧ u.threads = s.threads) ∧
  (∀ (s v u : State) (run : Nat) (handles slots stores : List Nat) (x : Run), s.run? run = some x → s.dispatching = true → x.ended = false → x.failing = false →
    0 < slots.length → slots.length = x.nextSize slots.length → stores.length = slots.length → s.heldBackFor x.ctx x.id = false →
    s.runTurn x = true → (x.created = 0 → x.coresident = false → s.savedFirst x.ctx = false) →
    s.takeTurn x.ctx (((s.node? x).map (·.info.queue)).getD 0) = some v →
    (x.group = 0 → handles = [] → v.placeGroup x 0 x.created slots stores = some u →
      exec (.threadCreate run handles slots stores) s = .next u) ∧
    (x.group ≠ 0 → x.coresident = false → ∀ h, handles = [h] → v.placeGroup x (gidOf x.ctx h) x.created slots stores = some u →
      exec (.threadCreate run handles slots stores) s = .next u) ∧
    (x.group ≠ 0 → x.coresident = true → v.placeGroups x handles x.created slots stores = some u →
      exec (.threadCreate run handles slots stores) s = .next u)) ∧
  (∀ (s : State) (x : Run) (handle base : Nat) (slots stores : List Nat),
    let n := slots.length
    let home := coreOfSlot (slots.headD 0)
    let gid := if x.group = 0 then 0 else gidOf x.ctx handle
    let sets := if x.group = 0 then [] else laneSets (upFrom 0 n) slots
    let s1 := if x.group = 0 then s else s.addGroup x gid home sets
    let s2 := ((upFrom 0 n).zip (slots.zip stores)).foldl (fun (u : State) z => u.addThread x gid (base + z.1) z.1 z.2.1 z.2.2) s1
    let u := s2.modRun x.id fun y => { y with created := y.created + n }
    0 < n → stores.length = n → s.slotsFree home slots = true →
    s.setsOk sets = true → s.storesOk x.ctx x.psize stores = true → (x.group = 0 → ∀ r ∈ slots, s.unbound (blockOfSlot r) = true) →
    (x.group ≠ 0 → s.handleFree x.ctx handle = true ∧ ∀ r ∈ slots, clusterOfSlot r = clusterOfCore home) →
    u.coresFit x.ctx (slots.map coreOfSlot) = true →
    s.placeGroup x gid base slots stores = some u ∧
    (x.group ≠ 0 → ∃ g, u.group? gid = some g ∧ g.scr = [] ∧ g.uni = [] ∧ g.tiles = [] ∧ g.home = home ∧
      g.members = slots.zip (upFrom 0 n)) ∧
    ∀ k r, slots[k]? = some r → ∃ t, u.thread? r = some t ∧ t.tid = base + k ∧ t.pc = BitVec.ofNat 64 x.entry ∧
      t.gen = (((s.tag? r).map (·.gen)).getD 0 + 1) % 32 ∧ (∀ c, c ≠ 2 → c ≠ 3 → t.reg c = 0) ∧
      t.reg 2 = BitVec.ofNat 32 x.dataAddr ∧ t.reg 3 = BitVec.ofNat 32 (x.dataAddr / 2 ^ 32) ∧ t.empty = [] ∧ t.fills = [] ∧ t.flg = 0 ∧
      t.tstat = 0 ∧ t.psel = startPsel x.kd.psel ∧ (x.kd.psel = none → t.psel = BitVec.ofNat 64 (3 + 2 ^ 32)) ∧
      t.m0 = (if x.group = 0 then none else some { gid, rank := k }) ∧ t.m1 = none ∧ t.m2 = none ∧
      t.m3 = none ∧ t.pos = 0 ∧ t.status = .runnable ∧ t.trap = none ∧ stores[k]? = some t.storeBase) ∧
  (∀ (s u : State) (x : Run) (edits : List TableEdit), s.flip x edits = some u → x.shadows ≠ [] →
    (∀ h ∈ x.shadows, u.devPlace x.ctx (65536 * h.1) false = some (.dev (65536 * h.2.2))) ∧
    ∀ c, s.ctx? x.ctx = some c → ∀ y ∈ s.instances x.ctx, u.walk x.ctx (y.1 + instanceBytes y.2) = none) ∧
  (∀ (s : State) (run : Nat) (edits : List TableEdit) (x : Run) (g : Graph) (n : Node), s.run? run = some x → s.graph? x.graph = some g →
    g.nodes.find? (·.idx == x.node) = some n → n.state = .running → s.dispatching = true → s.quiet x.ctx = true → s.runOver g x = true →
    s.mailFits = true → x.cir.getLsbD 2 = false →
    (x.cir.getLsbD 0 = false → x.cir.getLsbD 5 = false → edits = [] → x.shadows = [] → n.succs = [] → n.doneAddr = 0 →
      (∃ m ∈ g.nodes, m.idx ≠ n.idx ∧ m.state ≠ .done) →
      ∃ (w : State) (h : Graph), exec (.nodeRunEnd run edits) s = .next (w.event x.ctx 1 n.idx (x.cir.toNat &&& 10) g.entry) ∧
        w.run? run = some { x with ended := true } ∧ w.graph? g.id = some h ∧ h.nodes = (g.nodes.map fun m =>
          if m.idx = n.idx then { m with state := .done } else m) ∧ w.threads = s.threads ∧ w.mem = s.mem) ∧
    (x.cir.getLsbD 0 = true ∨ x.cir.getLsbD 5 = true → x.noretry = false → x.wrote = false → x.outward = false →
      x.coresident = false ∨ x.synced = false → n.retry < 2 → x.shadows = [] → (∃ done, s.donePlace g n = (s, some done)) →
      ∃ (w : State) (h : Graph), exec (.nodeRunEnd run edits) s = .next (w.event x.ctx 2 n.idx 0 g.entry) ∧ w.run? run = none ∧ w.graph? g.id = some h ∧
        h.nodes = (g.nodes.map fun m => if m.idx = n.idx then { m with state := .queued, retry := m.retry + 1, order := 0 } else m) ∧
        w.mem = s.mem))

/-- R288, R290 to R292, R301, R318, R324, R373, R379, R380: a creation whose parameters are in range gives the context its frames, written with zeros, and
binds its VF; a destruction leaves nothing of it; an invalidation makes the edits and drops the cached translations; RACE waits for the
next node, and MODE 11 or a ring out of range is refused with a status that the spec does not give (log 48); PEER binds and unbinds, and a port outside the new mask is no longer the peer's; the
scrubber marks lines poisoned, of device memory, scratch, registers and tiles (log 93 and 99, DEDUCED: no drained store lies in a line named, and pool
lines read as all-ones); a write-back of an encrypted page raises its line's minor counter, and past 127 the page's major one, and
changes the page's 512 bytes alone, with the digests above them; a tag or a counter block that fails leaves its lines poisoned. Commands wait while
the management firmware is being replaced, and those that the scheduler performs while dispatch is paused (log 100, DEDUCED). A context's
number is its VF's (log 49, DESIGN CHOICE), status 0 is success (log 48, DESIGN CHOICE), and where a page's 512 bytes lie is log 19 (DESIGN CHOICE). -/
def Obligations.ContextsAndMemory : Prop :=
  (∀ (s : State) (a : CreateArgs), s.pkg.state = 4 → s.managementPaused = false → s.wayFree .mailbox → s.dispatching = true →
    let p := createParams a
    paramsOk p = true → s.ctx? p.vf = none → ((s.vf? p.vf).bind (·.ctx)) = none →
    s.framesFree p.frames = true → (s.addContext p).editsOk p.table = true → s.encFits (s.addContext p) p.vf p.table = true →
    (s.addContext p).mappedRange p.vf p.faultArea (64 * Config.numSlots) true = true → s.mem.wf = true → s.poison = [] →
    ∃ u, exec (.create a) s = .next u ∧
      u.ctx? p.vf = some (Context.fresh p s.seq s.dispatchTime (Config.freeNat s.free % 2 ^ 256)) ∧ u.hostResp = .status 0 ∧
      (u.vf? p.vf).bind (·.ctx) = some p.vf ∧ (∀ f ∈ p.frames, assocD (2 ^ 64) u.owners f = p.vf) ∧
      (p.raceRing = none → ∀ a, a / 65536 ∈ p.frames → u.byteAt (.dev a) = 0) ∧ u.threads = s.threads ∧ u.groups = s.groups) ∧
  (∀ (s : State) (ctx : Nat) (c : Context), s.pkg.state = 4 → s.managementPaused = false → s.wayFree .mailbox → s.dispatching = true →
    s.mailFits = true → s.ctx? ctx = some c → (∀ x ∈ s.runs, x.ctx = ctx → x.ended = true) →
    (∀ b ∈ s.bundles, ∀ l ∈ b.lanes, l.ctx = ctx → l.stage = 0) →
    ∃ u, exec (.destroy ctx) s = .next u ∧ u.ctx? ctx = none ∧ u.hostResp = .status 0 ∧ (∀ t ∈ u.threads, t.ctx ≠ ctx) ∧
      (∀ g ∈ u.groups, g.ctx ≠ ctx) ∧ (∀ g ∈ u.graphs, g.ctx ≠ ctx) ∧ (∀ o ∈ u.owners, o.2 ≠ ctx) ∧ (∀ v ∈ u.vfs, v.ctx ≠ some ctx) ∧
      (∀ d, d ≠ ctx → u.ctx? d = s.ctx? d) ∧ u.mem = s.mem) ∧
  (∀ (s : State) (ctx : Nat) (edits : List TableEdit) (c : Context), s.pkg.state = 4 → s.managementPaused = false → s.wayFree .mailbox →
    s.dispatching = true → s.mailFits = true → s.encFits (s.applyEdits ctx edits) ctx edits = true → s.ctx? ctx = some c → s.quiet ctx = true → s.editsOk edits = true →
    (∀ t ∈ s.threads, t.wait = none ∧ t.more = [] ∧ t.trap = none) → (∀ b ∈ s.blocks, ∀ st ∈ b.stores, st.ctx ≠ ctx) →
    (∀ o ∈ s.out, o.st.ctx ≠ ctx) → (∀ x ∈ s.ldxs, x.ctx ≠ ctx) →
    ∃ u, exec (.inval ctx edits [] []) s = .next u ∧ u.hostResp = .status 0 ∧
      u.mem = edits.foldl (fun (m : Memory) e => m.writeN e.1 (leBytes 8 e.2.toNat)) s.mem ∧
      (∀ x ∈ u.cores, ∀ e ∈ x.tlb, e.ctx ≠ ctx) ∧ (∀ x ∈ u.clusters, ∀ e ∈ x.tlb, e.ctx ≠ ctx) ∧
      (∀ e ∈ u.oplog, e.ctx = ctx → e.data = none → e.cancelled = false → e.walk = true) ∧ u.threads = s.threads) ∧
  (∀ (s : State) (ctx mode pages : Nat) (ring : Option RaceRing) (c : Context), s.pkg.state = 4 → s.managementPaused = false → s.wayFree .mailbox →
    s.ctx? ctx = some c →
    (mode ≤ 2 → (∀ r, ring = some r → r.base % 64 = 0 ∧ ∃ k, 4 ≤ k ∧ k ≤ 20 ∧ r.entries = 2 ^ k) →
      exec (.race ctx mode ring pages) s = .next { (s.modCtx ctx fun c => { c with raceNext := some (mode, ring, pages) }) with
        hostResp := .status 0 }) ∧
    (2 < mode ∨ (∃ r, ring = some r ∧ (r.base % 64 ≠ 0 ∨ ∀ k, 4 ≤ k → k ≤ 20 → r.entries ≠ 2 ^ k)) →
      exec (.race ctx mode ring pages) s = .next { s with
        free := s.free + 1, hostResp := .status (Config.freeNat s.free % 2 ^ 32) })) ∧
  (∀ (s : State) (num mask module ctx : Nat), s.pkg.state = 4 → s.managementPaused = false → s.wayFree .mailbox → num ≤ 255 → mask < 2 ^ 16 →
    (∃ u, exec (.peer num (some (mask, module, ctx))) s = .next u ∧ u.hostResp = .status 0 ∧
      u.peers.find? (·.num == num) = some { num, mask, module, ctx } ∧ (∀ k, k ≠ num → u.peers.find? (·.num == k) = s.peers.find? (·.num == k)) ∧
      ∀ x ∈ u.ports, (mask.testBit x.id = true → x.peer = num ∧ x.state ≠ 3) ∧ (mask.testBit x.id = false → x.peer ≠ num ∨ x.peer = 0)) ∧
    (∃ u, exec (.peer num none) s = .next u ∧ u.hostResp = .status 0 ∧ u.peers.find? (·.num == num) = none ∧
      (∀ k, k ≠ num → u.peers.find? (·.num == k) = s.peers.find? (·.num == k)) ∧ ∀ x ∈ u.ports, x.peer ≠ num ∨ x.peer = 0)) ∧
  (∀ (s : State) (i : Instr), (s.managementPaused = true → s.way i = some .mailbox → (∀ k v b a, i ≠ .install k v b a) →
      exec i s = .next { s with waiting := s.waiting ++ [i] }) ∧
    (s.pkg.state = 4 → s.managementPaused = false → s.wayFree .mailbox → s.dispatching = false →
      (∀ a, i = .create a → exec i s = .next { s with waiting := s.waiting ++ [i] }) ∧
      ∀ ctx c edits give take, s.ctx? ctx = some c → i = .destroy ctx ∨ i = .inval ctx edits give take →
        exec i s = .next { s with waiting := s.waiting ++ [i] })) ∧
  (∀ (s : State) (lines : List Nat) (scratch regs tiles : List (Nat × Nat)),
    (∀ o ∈ s.out, (∀ a ∈ lines, o.st.place.line ≠ .dev a) ∧ ∀ x ∈ scratch, o.st.place.line ≠ .scr x.1 x.2) →
    ∃ u, exec (.patrolScrub ⟨lines, scratch, regs, tiles⟩) s = .next u ∧ u.mem = s.mem ∧ (regs = [] → u.threads = s.threads) ∧
    (∀ x ∈ scratch, ∀ g, s.group? x.1 = some g → g.scr.wf = true → x.2 % 64 = 0 → x.2 < g.alloc → ∀ k, k < 64 →
      u.byteAt (.scr x.1 (x.2 + k)) = 0xFF) ∧
    (∀ r code t, regs = [(r, code)] → s.thread? r = some t → t.badRegs = [] → sWf t.regs = true → 1 ≤ code → code ≤ 1015 →
      ∃ th, u.thread? r = some th ∧ th.badRegs = [code] ∧ th.reg code = 0xFFFFFFFF ∧ (∀ c, c ≠ code → th.reg c = t.reg c) ∧
        th.pc = t.pc ∧ th.status = t.status) ∧
    (∀ gid n g, tiles = [(gid, n)] → s.group? gid = some g → sWf g.tiles = true → n < 512 * g.tile → ∃ h, u.group? gid = some h ∧ n ∈ h.badTile ∧
      ∀ k, sGet h.tiles k = if k / 8 = n then 0xFFFFFFFFFFFFFFFF else sGet g.tiles k) ∧
    (∀ p ∈ s.poison, p ∈ u.poison) ∧ (∀ a ∈ lines, a % 64 = 0 → a < Config.devBytes → .dev a ∈ u.poison) ∧
    (∀ x ∈ scratch, ∀ g, s.group? x.1 = some g → x.2 % 64 = 0 → x.2 < g.alloc → .scr x.1 x.2 ∈ u.poison) ∧
    ∀ p ∈ u.poison, p ∈ s.poison ∨ (∃ a ∈ lines, p = .dev a ∧ a % 64 = 0) ∨ ∃ x ∈ scratch, p = .scr x.1 x.2 ∧ x.2 % 64 = 0) ∧
  (∀ (s : State) (ctx va leaf shift space : Nat) (c : Context) (e : EncPage), s.walk ctx va = some (leaf, shift) → s.ctx? ctx = some c →
    s.mem.wf = true →
    let a := bits leaf 16 40 * 2 ^ 16 + va % 2 ^ shift
    let page := a / 4096
    bits leaf 14 2 = 0 → bit leaf 13 = true → assocD (2 ^ 64) s.owners (a / 65536) = ctx →
    s.encSpaceOf page = some space →
    s.encPages.find? (·.page == page) = some e ∨ (s.encPages.find? (·.page == page) = none ∧
      e = { page, ctx, major := 0, minors := [], lines := [], broken := none }) →
    (∀ line, line < 64 →
      let n := assocD 0 e.minors line
      ∃ u f, exec (.reencryption ⟨ctx, va⟩ ⟨[line], [], false⟩) s = .next u ∧ u.encPages.find? (·.page == page) = some f ∧
        u.encSpaceOf page = some space ∧ u.mem.readN space 512 = f.block ∧
        (∀ b, b < space ∨ space + 512 ≤ b → u.mem.read b = s.mem.read b) ∧
        (let tree := (u.die (s.homeDie (.dev (4096 * page)))).tree
         let node := fun (l : List TreeNode) (num : Nat) => ((l.find? (·.num == num)).map (·.digests)).getD []
         assocD 0 (node tree.middle (page / 64)) page = Config.treeDigest (f.block.take 64) ∧
         assocD 0 (node tree.top (page / 4096)) (page / 64) = nodeDigest tree.middle (page / 64) ∧
         assocD 0 tree.root (page / 4096) = nodeDigest tree.top (page / 4096)) ∧ u.poison = s.poison ∧ u.threads = s.threads ∧
        (n < 127 → f.major = e.major ∧ assocD 0 f.minors line = n + 1) ∧
        (127 ≤ n → f.major = (e.major + 1) % 2 ^ 64 ∧ f.minors = [])) ∧
    ∀ (bad : List Nat) (tree : Bool), ∃ u, exec (.reencryption ⟨ctx, va⟩ ⟨[], bad, tree⟩) s = .next u ∧
      ∀ i, i < 64 → i ∈ bad ∨ tree = true → 4096 * page + 64 * i < Config.devBytes → .dev (4096 * page + 64 * i) ∈ u.poison)

/-- R35, R209, R211, R212, R214, R216, R218, R366: what a debugger of an attached context does. A thread that is not issuing halts at its PC with event 5, and one in
mid-trace abandons it; a halted thread re-enters the PC table, with or without its one pass; a stepped thread issues alone, and is halted
again when its stepping is abandoned; the EXIT of a trace that has committed comes before a step; a gather trace is not stepped: the thread resumes and the answer says so (log 42); the debug block's
registers keep their RW fields, and refuse a write for a context that nothing is attached to (who may write one is log 42, DESIGN CHOICE), as every
other use of the debug blocks is refused; an attachment places an event of which the spec gives no more (log 42). Status 0 is success and a
refusal's status is free (log 48, DESIGN CHOICE); a core has one trace buffer (log 97, DEDUCED). -/
def Obligations.DebuggerActs : Prop :=
  (∀ (s : State) (slot : Nat) (t : Thread) (c : Context), s.thread? slot = some t → away slot = false → s.ctx? t.ctx = some c →
    c.debugger = true → s.pkg.state = 4 → s.managementPaused = false →
    (t.status = .runnable → ∃ w : State, exec (.debugHalt slot) s = .next (w.event t.ctx 5 (s.nodeNo t.run) t.tag 0) ∧
      w.thread? slot = some { t with status := .halted, stepping := false } ∧ (∀ e ∈ w.table, slot ∉ e.threads) ∧
      ((s.core (coreOfSlot slot)).trace = none → w.mem = s.mem)) ∧
    (∀ p b l, t.status = .issuing p → s.bundle? p = some b → b.lanes = [l] → l.r = slot → l.stage = 0 →
      ∃ u th, exec (.debugHalt slot) s = .next u ∧ u.thread? slot = some th ∧ th.status = .halted ∧ th.pc = t.pc ∧ th.pos = t.pos ∧
        th.regs = t.regs ∧ th.empty = t.empty ∧ th.flg = t.flg ∧ u.bundle? p = none ∧ u.blocks = s.blocks ∧ u.oplog = s.oplog) ∧
    (t.status = .halted → t.wait = none → t.held = [] ∨ t.trap.isSome = true →
      let table := s.table ++ [{ core := coreOfSlot slot, part := partOfSlot slot, addr := t.pc.toNat, threads := [slot], gather := none,
                                 seq := s.seq, since := s.clk.toNat, promoted := none }]
      (∃ u, exec (.debugResume slot) s = .next u ∧ u.thread? slot = some { t with status := .runnable, stepping := false } ∧ u.table = table ∧
        u.mem = s.mem) ∧
      (∃ u, exec (.debugResumeOneTimePass slot) s = .next u ∧
        u.thread? slot = some { t with status := .runnable, stepping := false, onePass := true } ∧ u.table = table ∧ u.mem = s.mem) ∧
      (s.stopping (coreOfSlot slot) t.ctx = false → s.failing t.run = false → t.ending = some .exit →
        ∃ u, exec (.slotStep slot) s = .next u ∧ u.thread? slot = none) ∧
      (s.stopping (coreOfSlot slot) t.ctx = false → s.failing t.run = false → t.ending = none →
        s.gatherAt (coreOfSlot slot) t.ctx t.run t.pc.toNat = true →
        ∃ u, exec (.slotStep slot) s = .next u ∧ u.thread? slot = some { t with status := .runnable, stepping := false } ∧ u.table = table ∧
          u.hostResp = .status 1) ∧
      (s.stopping (coreOfSlot slot) t.ctx = false → s.failing t.run = false → t.ending = none →
        s.gatherAt (coreOfSlot slot) t.ctx t.run t.pc.toNat = false → s.bundles = [] →
        let p : PortId := { core := coreOfSlot slot, part := partOfSlot slot, port := 0 }
        ∃ u b l, exec (.slotStep slot) s = .next u ∧ u.thread? slot = some { t with status := .issuing p, stepping := true } ∧
          u.bundle? p = some b ∧ b.addr = t.pc.toNat ∧ b.lanes = [l] ∧ l.r = slot ∧ b.trace = none ∧
          u.agenda = s.agenda ++ [.port p, .port p])) ∧
    (∀ p b l, t.status = .issuing p → t.stepping = true → s.bundle? p = some b → b.lanes = [l] → l.r = slot → l.stage = 0 →
      ∃ u th, exec (.debugAbandon slot) s = .next u ∧ u.thread? slot = some th ∧ th.status = .halted ∧ th.stepping = false ∧ th.pc = t.pc ∧
        th.pos = t.pos ∧ th.regs = t.regs ∧ u.bundle? p = none)) ∧
  (∀ (s : State) (ctx core n : Nat) (v : BitVec 64), s.pkg.state = 4 → s.managementPaused = false → s.wayFree .mailbox → core < 256 →
    let refused : State := { s with free := s.free + 1, hostResp := .status (Config.freeNat s.free % 2 ^ 32) }
    let set := fun (reg : DebugReg) (f : Core → Core) => s.mayWrite ctx core reg v = true →
      exec (.registerWrite ⟨ctx, core⟩ reg v) s = .next { s.modCore core f with hostResp := .status 0 }
    let wp := fun (f : Watch → Watch) (c : Core) => { c with wps := c.wps.modify n f }
    set (.bpf n) (fun c => { c with bpf := c.bpf.set n (v &&& 0xFFFFFFFFFFFFFFF0) }) ∧
    set (.wpc n) (wp fun w => { w with ctl := v &&& 0xFF00000000000000 }) ∧
    set (.bpa n) (fun c => { c with bpa := c.bpa.set n (v &&& 0x01FFFFFFFFFFFFF8) }) ∧
    set (.wpb n) (wp fun w => { w with base := v }) ∧ set (.wpl n) (wp fun w => { w with limit := v }) ∧
    set (.wpv n) (wp fun w => { w with value := v }) ∧ set (.wpm n) (wp fun w => { w with mask := v }) ∧
    ∀ reg, s.attached ctx = false → exec (.registerWrite ⟨ctx, core⟩ reg v) s = .next refused) ∧
  (∀ (s : State) (ctx core lo hi d : Nat) (c : Context), s.pkg.state = 4 → s.managementPaused = false → s.wayFree .mailbox →
    s.ctx? ctx = some c →
    let refused : State := { s with free := s.free + 1, hostResp := .status (Config.freeNat s.free % 2 ^ 32) }
    (∀ profiler, ∃ kind a b, exec (.debug ctx (.attach profiler)) s = .next { (({ s with free := s.free + 3 } : State).modCtx ctx fun c =>
      { c with debugger := c.debugger || !profiler, profiler := c.profiler || profiler, attached := c.attached + 1 }).event ctx kind 0xFFFFFFFF a b with
        hostResp := .status 0 }) ∧
    (∀ profiler, exec (.debug ctx (.detach profiler)) s = .next { s.modCtx ctx fun c =>
      { c with debugger := c.debugger && profiler, profiler := c.profiler && !profiler } with hostResp := .status 0 }) ∧
    (∀ cmd, (∀ p, cmd ≠ .attach p ∧ cmd ≠ .detach p) → c.debugger = false ∧ c.profiler = false ∨ debugOk cmd = false →
      exec (.debug ctx cmd) s = .next refused) ∧
    (c.debugger = true ∨ c.profiler = true →
      (core < 256 → exec (.debug ctx (.traceOff core)) s = .next { s.modCore core fun c => { c with trace := none } with hostResp := .status 0 }) ∧
      (d < 256 → exec (.debug ctx (.trial lo hi d)) s = .next { s.modCtx ctx fun c => { c with trial := some (lo, hi, d) } with
        hostResp := .status 0 }) ∧
      exec (.debug ctx .trialOff) s = .next { s.modCtx ctx fun c => { c with trial := none } with hostResp := .status 0 } ∧
      (core < 256 → exec (.debug ctx (.readCounters core)) s = .next { s with hostResp := .reply 0 ((s.counters ctx core).flatMap (leBytes 8)) }) ∧
      ∀ base size, core < 256 → 16 ≤ size → ∃ u b, exec (.debug ctx (.traceOn core base size)) s = .next u ∧ (u.core core).trace = some b ∧ u.hostResp = .status 0 ∧
        b.ctx = ctx ∧ b.base = base ∧ b.size = size ∧ b.since = 0 ∧ 1 ≤ b.next))

/-- R2, R356 to R362, R364, R365, R368, R369: a start that meets no fault serves commands with its firmware loaded and measured, its dies powered, its host
links up, at most 16 ports of distinct numbers, which are up or train, and nothing of the module's earlier work; one that fails leaves its step,
reason, dies and count, a link whose partner refuses FLIT operation is down, and past step 4 the ports train; while the cold plate is hot it fails with reason 8 (log 90 tells when); a thermal trip is such a failure. An image that is
installed pauses dispatch and then runs under the watch of its heartbeats; one that is silent for more than 50 ms in its first second
gives way to the old image, and later resets the module. A heartbeat is one image's own, which a free value names; that a late one is not taken is log
47 (DESIGN CHOICE), and so are reason and dies of that failure. Status 0 is success and the
status of an IMAGE that does not fit is free (log 48, DESIGN CHOICE). -/
def Obligations.PackageStarts : Prop :=
  (∀ (s : State) (dies : Nat), let q := s.moduleReset.pkg
    s.pkg.hot = false → q.imageOk 1 = true → q.imageOk 2 = true → q.imageOk 3 = true → q.image 0 = none ∨ q.imageOk 0 = true →
    q.recordsOk = true →
    let up := fun (u : State) => u.pkg.state = 4 ∧ u.pkg.fails = 0 ∧ u.pkg.records = q.takeRecords.records ∧ u.pkg.flash = s.pkg.flash ∧
      u.threads = [] ∧ u.groups = [] ∧ u.contexts = [] ∧ u.clk = 0 ∧ u.cores = [] ∧ (∀ d, d < 8 → (u.die d).powered = true) ∧
      (∀ l ∈ u.pkg.links, l.up = true ∧ l.functions = true) ∧ (u.ports.map (·.id)).Nodup ∧ (∀ x ∈ u.ports, x.id < 16 ∧ (x.state = 1 ∨ x.state = 2)) ∧
      (∀ k v b, k < 4 → q.image k = some (v, b) → (k + 1, sha256 b) ∈ u.pkg.log ∧
        ∃ f, u.pkg.firmware.find? (·.kind == k) = some f ∧ f.version = v ∧ f.bytes = b)
    (s.pkg.state = 0 → s.pkg.fails = 0 → (∃ u, exec (.powerOnStart 0 0 dies) s = .next u ∧ up u) ∧
      (∃ u, exec (.powerOnStart 3 4 dies) s = .next u ∧ u.pkg.state = 2 ∧ u.pkg.fails = 1 ∧ u.pkg.reason = 4 ∧ u.pkg.dies = dies % 256 ∧
        u.contexts = []) ∧
      (∃ u, exec (.powerOnStart 4 6 dies) s = .next u ∧ u.pkg.state = 2 ∧ u.pkg.fails = 1 ∧ u.pkg.reason = 6 ∧ u.pkg.dies = 0 ∧
        ∀ l ∈ u.pkg.links, l.up = !dies.testBit l.id) ∧
      ∃ u, exec (.powerOnStart 5 7 dies) s = .next u ∧ u.pkg.state = 3 ∧ u.pkg.fails = 1 ∧ u.pkg.reason = 7 ∧ u.pkg.dies = dies % 256 ∧
        u.ports.map (·.id) = portList (Config.portsOf (((q.takeRecords.records.find? (·.id == 2)).map (·.body)).getD [])) ∧
        ∀ x ∈ u.ports, x.state = 1 ∨ x.state = 2) ∧
    (s.pkg.state = 4 ∨ s.pkg.state = 5 → s.managementPaused = false → s.wayFree .mailbox → ∃ u, exec (.start 0 0 dies) s = .next u ∧ up u ∧ u.hostResp = .status 0)) ∧
  (∀ (s : State) (dies : Nat), s.pkg.state = 0 → s.pkg.fails = 0 → s.pkg.hot = false → ∃ u, exec (.powerOnStart 1 1 dies) s = .next u ∧
    u.pkg.state = 1 ∧ u.pkg.fails = 1 ∧ u.pkg.reason = 1 ∧ u.pkg.dies = 0 ∧ u.contexts = []) ∧
  (∀ (s : State) (dies : Nat), s.pkg.state = 0 → s.pkg.fails = 0 → s.pkg.hot = true → Config.freeNat s.free % 2 = 1 →
    ∃ u, exec (.powerOnStart 0 0 dies) s = .next u ∧ u.pkg.state = 1 ∧ u.pkg.fails = 1 ∧ u.pkg.reason = 8 ∧ u.pkg.hot = true ∧
      ∀ d, d < 8 → (u.die d).powered = false) ∧
  (∀ (s : State), ∃ u, exec .thermalTrip s = .next u ∧ u.pkg.fails = min 3 (s.pkg.fails + 1) ∧ u.pkg.reason = 8 ∧ u.pkg.hot = true ∧
    u.pkg.state = (if 2 ≤ s.pkg.fails then 5 else 0) ∧ (∀ d, d < 8 → (u.die d).powered = false) ∧ u.contexts = [] ∧ u.threads = []) ∧
  (∀ (s : State) (item : FlashItem), s.pkg.state = 4 ∨ s.pkg.state = 5 → s.managementPaused = false → s.wayFree .mailbox →
    let size := ((s.pkg.flash.filter (fun x => !sameItem x item) ++ [item]).map FlashItem.size).sum
    (size ≤ 2 ^ 26 → ∃ u, exec (.image item) s = .next u ∧ u.hostResp = .status 0 ∧
      item ∈ u.pkg.flash ∧ (∀ x, x ≠ item → (x ∈ u.pkg.flash ↔ x ∈ s.pkg.flash ∧ sameItem x item = false)) ∧ u.mem = s.mem ∧
      u.pkg.firmware = s.pkg.firmware) ∧
    (2 ^ 26 < size → exec (.image item) s = .next { s with free := s.free + 1, hostResp := .status (Config.freeNat s.free % 2 ^ 32) })) ∧
  (∀ (s : State) (kind version : Nat) (bytes : List Byte) (old : Firmware), s.pkg.state = 4 → s.pkg.firmware.find? (·.kind == kind) = some old →
    let new : Firmware := { kind, version, bytes }
    (kind ≠ 0 → s.pkg.pause = none → s.wayFree .mailbox → .image kind version bytes ∈ s.pkg.flash → Config.signed bytes = true →
      exec (.install kind version bytes true) s = .next { s with
        pkg := { s.pkg with pause := some { new, since := s.clk.toNat, back := false } } }) ∧
    (∀ x, s.pkg.pause = some x → x.back = false → x.new = new → s.held = [] → ∃ u, exec (.install kind version bytes true) s = .next u ∧
      u.hostResp = .status 0 ∧ u.pkg.pause = none ∧ u.pkg.firmware.find? (·.kind == kind) = some new ∧
      { kind, old, since := s.clk.toNat, beat := s.clk.toNat } ∈ u.pkg.replacing ∧ u.threads = s.threads)) ∧
  (∀ (s : State), s.pkg.state = 4 ∨ s.pkg.state = 5 → s.managementPaused = false → s.wayFree .mailbox → exec .log s = .next { s with
    hostResp := .reply 0 (s.pkg.log.flatMap fun x => leBytes 1 x.1 ++ leBytes 32 x.2) }) ∧
  (∀ (s : State), (s.pkg.replacing = [] → exec .heartbeat s = .next s) ∧
    (s.pkg.replacing ≠ [] → ∃ u k, exec .heartbeat s = .next u ∧ k < s.pkg.replacing.length ∧ u.pkg.replacing.length = s.pkg.replacing.length ∧
      (∀ j, j ≠ k → u.pkg.replacing[j]? = s.pkg.replacing[j]?) ∧
      ∀ x, s.pkg.replacing[k]? = some x → u.pkg.replacing[k]? = some { x with beat := if s.clk.toNat ≤ x.beat + 70000000 then s.clk.toNat else x.beat })) ∧
  (∀ (s : State) (x : Replacing), s.pkg.replacing = [x] →
    (s.clk.toNat ≤ x.beat + 70000000 →
      exec .heartbeat s = .next { s with pkg := { s.pkg with replacing := [{ x with beat := s.clk.toNat }] }, free := s.free + 1 }) ∧
    (x.beat + 70000000 < s.clk.toNat → exec .heartbeat s = .next { s with free := s.free + 1 }) ∧
    (s.pkg.pause = none → x.beat + 70000000 < s.clk.toNat → x.beat + 70000000 < x.since + 1400000000 →
      exec .heartbeatMiss s = .next { s with pkg := { s.pkg with pause := some { new := x.old, since := s.clk.toNat, back := true } } }) ∧
    (∀ y f, s.pkg.pause = some y → y.back = true → s.pkg.firmware.find? (·.kind == y.new.kind) = some f →
      ∃ u, exec .heartbeatMiss s = .next u ∧ u.pkg.pause = none ∧ u.pkg.state = s.pkg.state ∧
        u.pkg.firmware.find? (·.kind == y.new.kind) = some y.new ∧ (y.new.kind, f.version) ∈ u.pkg.refused ∧
        (y.new.kind, y.new.version) ∈ u.pkg.next ∧ ∀ z ∈ u.pkg.replacing, z.kind ≠ y.new.kind) ∧
    (s.pkg.pause = none → x.beat + 70000000 < s.clk.toNat → x.since + 1400000000 ≤ x.beat + 70000000 →
      ∃ u, exec .heartbeatMiss s = .next u ∧
        u.pkg.fails = min 3 (s.pkg.fails + 1) ∧ u.contexts = [] ∧ u.threads = [] ∧ u.pkg.replacing = [])) ∧
  (∀ (s : State) (die eol drift cerate temp : Nat), die < 8 →
    (s.pkg.state = 4 → s.overCap die = true → (s.die die).clockSteps + 1 < 28 →
      exec (.throttle die) s = .next (s.modDie die fun d => { d with clockSteps := d.clockSteps + 1 })) ∧
    (s.overCap die = false ∨ 28 ≤ (s.die die).clockSteps + 1 → exec (.throttle die) s = .next s) ∧
    exec (.healthMonitorUpdate die eol drift cerate temp) s = .next (s.modDie die fun d =>
      { d with eol := if s.pkg.monitored + s.clk.toNat < 3628800000000000 then 0xFFFF else eol % 2 ^ 16
               drift := drift % 2 ^ 16, cerate := cerate % 2 ^ 16, temp := temp % 2 ^ 8 }))

/-- R331, R365, R370 to R374: attestation answers with a body or, for measurements and challenges, with a signature over nonce and body (the bodies and the signature
are free, log 19), to the host or to a tenant through its VF; a VF enters or leaves RUN; a posted write reaches the submission page, CONS of the event queue and the race ring's control block (log 10); BAR2 reads,
writes and updates the context's memory, BAR0 of a VF reads its submission page, its event queue's block (log 10) and zeros, that of the physical
function its capability list, and a VF in RUN answers only its own stream; a read of a poisoned line has EP set and all-ones, and places event 12;
a write that waits for the host's answer to a page request is kept (log 100). A host read names its window (log 64, DESIGN CHOICE), and nothing that has come through
the link waits. But where it says so, no line is poisoned, and no thread waits. -/
def Obligations.HostAccesses : Prop :=
  (∀ (s : State) (vf : Option Nat) (nonce : List Byte), s.pkg.state = 4 → (∀ n, vf = some n → n < 64) →
    let body := fun (i : Instr) (k : Nat) => exec i s = .next { s with hostResp := .data (Config.spdmBody k) false }
    body (.getVersion vf) 0 ∧ body (.getCapabilities vf) 1 ∧ body (.negotiateAlgorithms vf) 2 ∧ body (.getDigests vf) 3 ∧
    body (.getCertificate vf) 4 ∧
    exec (.getMeasurements vf nonce) s = .next { s with
      hostResp := .data (measured s vf ++ Config.sign (nonce ++ measured s vf)) false } ∧
    (let digest := leBytes 32 (sha256 (measured s vf))
     exec (.challenge vf nonce) s = .next { s with hostResp := .data (digest ++ Config.sign (nonce ++ digest)) false }) ∧
    ∀ n run, vf = some n → ∃ u v, exec (.tdispRequest n run) s = .next u ∧ u.vf? n = some v ∧ v.running = run ∧ v.ctx = (s.vf? n).bind (·.ctx) ∧
      u.mem = s.mem) ∧
  (∀ (s : State) (vf off : Nat) (bytes : List Byte) (ide : Bool) (v : Vf) (id : Nat) (c : Context), s.pkg.state = 4 → s.vf? vf = some v →
    v.ctx = some id → s.ctx? id = some c → s.wayFree (.link (s.linkOf vf)) → s.poison = [] → s.noWaits → s.mem.wf = true →
    off + bytes.length ≤ 0x4000 →
    (v.running = true → ide = false → exec (.hostPostedWrite vf off bytes ide) s = .next { s with hostResp := .unsupported }) ∧
    (v.running = false ∨ ide = true → off + bytes.length ≤ 0x1000 → ∃ u, exec (.hostPostedWrite vf off bytes ide) s = .next u ∧
      (∀ k, k < bytes.length → u.byteAt (.dev (c.par.subPage + off + k)) = bytes.getD k 0) ∧
      (∀ a, a < c.par.subPage + off ∨ c.par.subPage + off + bytes.length ≤ a → u.byteAt (.dev a) = s.byteAt (.dev a)) ∧
      u.threads = s.threads ∧ (s.lines = [] → u.contexts = s.contexts)) ∧
    (∀ r a leaf shift s1 chk, c.raceRing = some r → v.running = false ∨ ide = true → 0x1040 ≤ off → off + bytes.length ≤ 0x1080 → bytes ≠ [] →
      s.walk id (r.block + (off - 0x1040)) = some (leaf, shift) →
      s.leafXlat id (r.block + (off - 0x1040)) leaf shift true hostAgent = (s1, .ok (.dev a) chk) →
      ∃ u, exec (.hostPostedWrite vf off bytes ide) s = .next u ∧ (∀ k, k < bytes.length → u.byteAt (.dev (a + k)) = bytes.getD k 0) ∧
        (∀ b, b < a ∨ a + bytes.length ≤ b → u.byteAt (.dev b) = s.byteAt (.dev b)) ∧ u.threads = s.threads) ∧
    (v.running = false ∨ ide = true → off = 0x1018 → bytes.length = 8 → c.evCons < 2 ^ 64 →
      ∃ u, exec (.hostPostedWrite vf off bytes ide) s = .next u ∧ (u.ctx? id).map (·.evCons) = some (ofLe bytes) ∧ u.mem = s.mem)) ∧
  (∀ (s : State) (vf off n : Nat) (ide : Bool) (v : Vf) (id : Nat) (c : Context), s.vf? vf = some v → v.ctx = some id → s.ctx? id = some c →
    s.pkg.state = 4 → s.wayFree (.link (s.linkOf vf)) → v.running = false ∨ ide = true →
    let reads := fun (l : List Byte) => exec (.bar2Read vf (.bar0 off) n ide) s = .next { s with hostResp := .data l false }
    (off + n ≤ 0x1000 → s.poison = [] → reads (s.mem.readN (c.par.subPage + off) n)) ∧
    (0x1000 ≤ off → off + n ≤ 0x1040 → reads ((c.queueBlock.drop (off - 0x1000)).take n)) ∧
    (0x1080 ≤ off → off + n ≤ 0x4000 → reads (List.replicate n 0)) ∧
    (0x4000 < off + n → exec (.bar2Read vf (.bar0 off) n ide) s = .next { s with hostResp := .unsupported }) ∧
    (0 < n → off % 64 + n ≤ 64 → off + n ≤ 0x1000 → c.par.subPage % 64 = 0 → s.poison.contains (Place.dev (c.par.subPage + off)).line = true →
      exec (.bar2Read vf (.bar0 off) n ide) s = .next { s.event c.id 12 0xFFFFFFFF ((c.par.subPage + off) / 64 * 64) 0 with
        hostResp := .data (List.replicate n 0xFF) true })) ∧
  (∀ (s : State) (vf off : Nat) (ide : Bool) (w : DWord), off % 8 = 0 → s.capRead off = some w → (∃ l ∈ s.pkg.links, l.up = true) →
    exec (.bar2Read vf (.pf off) 8 ide) s = .next { s with hostResp := .data (leBytes 8 w.toNat) false }) ∧
  (∀ (s s1 : State) (vf addr a leaf shift : Nat) (chk ide : Bool) (v : Vf) (id : Nat) (c : Context), s.pkg.state = 4 → s.vf? vf = some v →
    v.ctx = some id → s.ctx? id = some c → s.wayFree (.link (s.linkOf vf)) → (v.running = true → ide = true) →
    s.walk id addr = some (leaf, shift) → s.poison = [] →
    s.noWaits → s.mem.wf = true →
    (∀ n, 0 < n → addr % 64 + n ≤ 64 → addr + n ≤ c.par.bar2Size → s.leafXlat id addr leaf shift false hostAgent = (s1, .ok (.dev a) chk) →
      exec (.bar2Read vf (.bar2 addr) n ide) s = .next { s with hostResp := .data (s.mem.readN a n) false }) ∧
    (s.leafXlat id addr leaf shift true hostAgent = (s1, .wait) → ∀ bytes : List Byte, bytes ≠ [] → addr % 64 + bytes.length ≤ 64 →
      addr + bytes.length ≤ c.par.bar2Size →
      exec (.bar2Write vf addr bytes ide) s = .next { s1 with waiting := s1.waiting ++ [.bar2Write vf addr bytes ide] }) ∧
    (s.leafXlat id addr leaf shift true hostAgent = (s1, .ok (.dev a) chk) →
      (∀ bytes : List Byte, bytes ≠ [] → addr % 64 + bytes.length ≤ 64 → addr + bytes.length ≤ c.par.bar2Size →
        ∃ u, exec (.bar2Write vf addr bytes ide) s = .next u ∧ (∀ k, k < bytes.length → u.byteAt (.dev (a + k)) = bytes.getD k 0) ∧
          (∀ b, b < a ∨ a + bytes.length ≤ b → u.byteAt (.dev b) = s.byteAt (.dev b)) ∧ u.threads = s.threads ∧ u.hostResp = s.hostResp) ∧
      (∀ size cmp data, size = 4 ∨ size = 8 → addr % size = 0 → addr + size ≤ c.par.bar2Size →
        let old := ofLe (s.mem.readN a size)
        let w := fun (op : HostAtomic) (new : Nat) => ∃ u, exec (.bar2Atomic vf addr size op cmp data ide) s = .next u ∧
          u.hostResp = .value old ∧ ofLe (u.mem.readN a size) = new ∧
          (∀ b, b < a ∨ a + size ≤ b → u.byteAt (.dev b) = s.byteAt (.dev b)) ∧ u.threads = s.threads
        w .fetchAdd ((old + data) % 2 ^ (8 * size)) ∧ w .swap (data % 2 ^ (8 * size)) ∧
        w .cas (if old = cmp % 2 ^ (8 * size) then data % 2 ^ (8 * size) else old)))) ∧
  (∀ (s : State) (vf addr n : Nat) (ide : Bool), s.vf? vf = none → s.wayFree (.link (s.linkOf vf)) →
    exec (.bar2Read vf (.bar2 addr) n ide) s = .next { s with hostResp := .unsupported } ∧
    exec (.hostPostedWrite vf addr (List.replicate n 0) ide) s = .next { s with hostResp := .unsupported })

/-- R377, R378: `f` is the flit that a port forms next, of a type, with credits that it returns. -/
def FormsFlit (x : FPort) (type back : Nat) (f : Nat × List Byte) : Prop :=
  f.1 = (x.txSeq + 1) % 4096 ∧ f.2.length = 64 ∧ ofLe (f.2.take 4) = f.1 + 2 ^ 12 * type + 2 ^ 16 * x.rxSeq + 2 ^ 28 * back ∧
    ofLe (f.2.drop 60) = (crc32c (f.2.take 60)).toNat

/-- R377 to R381: a flit whose CRC is right and whose number is next is taken, with its acknowledgement, credits and payload; one whose CRC is wrong is
discarded and answered by a NAK flit of the last good number, and what follows it is discarded; a received NAK, and NAK_REPLAY, send the flits behind
the named one again, and the sixteenth replay in a row of one flit, 1 ms without an acknowledgement,
or a lane lost at 4 lanes fails the port, with vector 0 of the PF; a request or a response spends a credit, and waits where there is none; a
peer's request is performed at the line's home and answered by a flit (its payload's layout is log 9), and one that cannot be performed is
answered too. When a flit that is not idle is taken, an idle flit, or a credit flit where 8 credits are owed, acknowledges it (log 57, DESIGN CHOICE). -/
def Obligations.FabricPorts : Prop :=
  (∀ (s : State) (port : Nat) (bytes : List Byte) (x : FPort), s.port? port = some x → x.state = 2 → s.fabricPaused = false → bytes.length = 64 →
    let w := ofLe (bytes.take 4)
    let good := ofLe (bytes.drop 60) = (crc32c (bytes.take 60)).toNat
    let type := w / 2 ^ 12 % 16
    let left := x.replay.filter fun f => !seqLe f.1 (w / 2 ^ 16 % 2 ^ 12)
    let owed := x.owed + if type = 1 ∨ type = 2 then 1 else 0
    (good → w % 2 ^ 12 = (x.rxSeq + 1) % 4096 → x.again < 15 → x.queue = [] → left.length < 2048 →
      ∃ u y, exec (.flitReceive port bytes) s = .next u ∧ u.port? port = some y ∧
      y.rxSeq = w % 2 ^ 12 ∧ y.nak = none ∧ y.credits = x.credits + 8 * (w / 2 ^ 28) ∧ y.state = 2 ∧
      (type = 0 → y.replay = left) ∧
      (type ≠ 0 → ∃ f, y.replay = left ++ [f] ∧
        FormsFlit { x with rxSeq := w % 2 ^ 12 } (if 8 ≤ owed then 3 else 0) (min 15 (owed / 8)) f ∧ y.owed = owed - 8 * min 15 (owed / 8)) ∧
      (type = 4 → left ≠ [] → y.replays = min (2 ^ 32 - 1) (x.replays + left.length)) ∧
      y.delivered = (if type = 1 ∨ type = 2 then x.delivered ++ [bytes] else x.delivered) ∧ u.mem = s.mem) ∧
    (¬good → x.again < 16 → x.rxSeq < 4096 → x.replay.length < 2048 → ∃ u y f, exec (.flitReceive port bytes) s = .next u ∧
      u.port? port = some y ∧ y.replay = x.replay ++ [f] ∧ FormsFlit x 4 (min 15 (x.owed / 8)) f ∧ y.nak = some x.rxSeq ∧ y.rxSeq = x.rxSeq ∧
      y.delivered = x.delivered ∧ y.state = 2 ∧ u.mem = s.mem) ∧
    (good → w % 2 ^ 12 ≠ (x.rxSeq + 1) % 4096 → x.nak.isSome = true ∨ seqLe (w % 2 ^ 12) x.rxSeq = true → x.again < 16 →
      ∃ u, exec (.flitReceive port bytes) s = .next u ∧ u.port? port = some x ∧ u.mem = s.mem)) ∧
  (∀ (x : FPort) (type now : Nat) (payload : List Byte), x.queue = [] → payload.length ≤ 56 → type < 16 → x.rxSeq < 4096 →
    (0 < x.credits → x.replay.length < 2048 → ∃ f, FormsFlit x type (min 15 (x.owed / 8)) f ∧ (f.2.drop 4).take payload.length = payload ∧
      (x.send type now payload).replay = x.replay ++ [f] ∧ (x.send type now payload).queue = [] ∧
      (x.send type now payload).credits = x.credits - 1) ∧
    (x.credits = 0 ∨ 2048 ≤ x.replay.length → x.send type now payload = { x with queue := [(type, payload)] })) ∧
  (∀ (s : State) (port seq : Nat) (x : FPort), s.port? port = some x → x.state = 2 → s.fabricPaused = false →
    let left := x.replay.filter fun f => !seqLe f.1 seq
    left ≠ [] → ∃ u y, exec (.nakReplay port seq) s = .next u ∧ u.port? port = some y ∧ y.replay = left ∧
      y.replays = min (2 ^ 32 - 1) (x.replays + left.length) ∧
      (let n := if left.length = x.replay.length then x.again + 1 else 1
       y.again = n ∧ (n < 16 → y.state = 2 ∧ u.pkg = s.pkg) ∧
        (16 ≤ n → y.state = 3 ∧ y.failcause = 1 ∧ u.pkg.pfMsi = s.pkg.pfMsi + 1))) ∧
  (∀ (s : State) (port : Nat) (x : FPort), s.port? port = some x → x.state = 2 →
    (x.replay ≠ [] → x.lastAck + 1400000 ≤ s.clk.toNat → ∃ u, exec (.ackTimeout port) s = .next u ∧
      u.port? port = some { x with state := 3, failcause := 2 } ∧ u.pkg.pfMsi = s.pkg.pfMsi + 1) ∧
    (x.narrow = true → ∃ u, exec (.laneLoss port) s = .next u ∧ u.port? port = some { x with state := 3, failcause := 3 } ∧
      u.pkg.pfMsi = s.pkg.pfMsi + 1)) ∧
  (∀ (s s1 : State) (num ctx addr a leaf shift : Nat) (chk : Bool) (x : FPort) (c : Context), s.pkg.state = 4 → s.fabricPaused = false → s.ctx? ctx = some c →
    s.wayFree (.peer num) → s.peerPort num (addr / 64) = some x → addr < 2 ^ 56 → s.walk ctx addr = some (leaf, shift) → s.poison = [] →
    s.noWaits → s.mem.wf = true → (s.ports.map (·.id)).Nodup →
    let answer := fun (u : State) (l : List Byte) => u.port? x.id = some (x.send 2 s.clk.toNat (Config.flitPayload (0 :: l)))
    (∀ n, addr % 64 + n ≤ 64 → s.leafXlat ctx addr leaf shift false (.agent (4 * num)) = (s1, .ok (.dev a) chk) →
      ∃ u, exec (.peerRequest num ctx addr (.load n)) s = .next u ∧ answer u (s.mem.readN a n) ∧ u.mem = s.mem ∧ u.threads = s.threads) ∧
    (∀ l : List Byte, addr % 64 + l.length ≤ 64 → s.leafXlat ctx addr leaf shift true (.agent (4 * num)) = (s1, .ok (.dev a) chk) →
      ∃ u, exec (.peerRequest num ctx addr (.store l)) s = .next u ∧ answer u [] ∧
        (∀ k, k < l.length → u.byteAt (.dev (a + k)) = l.getD k 0) ∧
        (∀ b, b < a ∨ a + l.length ≤ b → u.byteAt (.dev b) = s.byteAt (.dev b)) ∧ u.threads = s.threads) ∧
    (∀ (k : Nat) (ty : Ty) (cmp data : Nat), k < 8 → addr % 64 + ty.bytes ≤ 64 → 0 < ty.bytes →
      s.leafXlat ctx addr leaf shift true (.agent (4 * num)) = (s1, .ok (.dev a) chk) →
      ∃ u, exec (.peerRequest num ctx addr (.atom k ty cmp data)) s = .next u ∧ answer u (s.mem.readN a ty.bytes) ∧
        (∀ new, atomNew k ty (ofLe (s.mem.readN a ty.bytes)) data = some new → u.mem.readN a ty.bytes = leBytes ty.bytes new) ∧
        (∀ b, b < a ∨ a + ty.bytes ≤ b → u.byteAt (.dev b) = s.byteAt (.dev b)) ∧ u.threads = s.threads)) ∧
  (∀ (s : State) (num ctx addr : Nat) (op : PeerOp) (x : FPort), s.pkg.state = 4 → s.wayFree (.peer num) →
    s.peerPort num (addr / 64) = some x → (s.ports.map (·.id)).Nodup →
    (s.fabricPaused = true → exec (.peerRequest num ctx addr op) s = .next { s with waiting := s.waiting ++ [.peerRequest num ctx addr op] }) ∧
    (s.fabricPaused = false → s.ctx? ctx = none ∨ 2 ^ 56 ≤ addr ∨ s.walk ctx addr = none → ∃ u, exec (.peerRequest num ctx addr op) s = .next u ∧
      u.port? x.id = some (x.send 2 s.clk.toNat (Config.flitPayload [1])) ∧ u.mem = s.mem ∧ u.threads = s.threads))

/-- R49, R178, R180, R181: XRED gives every lane of a segment the combination of all its lanes' values (or flags, with fn[3]), and SCAN that of the lanes up
to its own, or below its own when it is exclusive. Over integers and bit patterns the order does not matter; over floating point it is the
order of the tree and of the steps, with the flags of every Combine. -/
def Obligations.Reductions : Prop :=
  ∀ (s s' : State) (v : View) (f : FX) (ps : List Peer), s.view = some v → (ps.map (·.v.l.no)).Nodup → (∀ p ∈ ps, p.v.l.no < 64) →
    f.fn.toNat % 8 < 6 →
    let n := f.fn.toNat % 8
    let op := redOp f.ty n ((Rm.ofCode? (f.c.toNat / 8 % 8)).getD .rne)
    let k := 6 - f.c.toNat % 8
    let val := fun (q : Peer) => q.vals.getD 0 0 % 2 ^ f.ty.width
    let src := fun (q : Peer) => if f.fn.toNat < 8 then val q else q.v.flags.toNat
    let at_ := fun (x : Peer → Nat) (p : Peer) (j : Nat) =>
      ((segmentOf ps p f.c.toNat).find? fun q => q.v.l.no % 2 ^ k == j).map fun q => (x q, (0 : Flags), false)
    (s.readPeers (s.crossPeers v (.xred f)) = (s', some ps) →
      ∃ res : Peer → Nat × Flags, exec (.xred f) s = .next (s'.givePeers ps f.ty res) ∧ ∀ p ∈ ps,
        (f.ty.isFloat = false →
          res p = ((segmentOf ps p f.c.toNat).foldl (fun a q => redOf f.ty n a (src q)) (identityOf f.ty n), 0)) ∧
        (f.ty.isFloat = true → res p = reduced f.ty n (treeOf op (at_ src p) k 0))) ∧
    (s.readPeers (s.crossPeers v (.scan f)) = (s', some ps) →
      ∃ res : Peer → Nat × Flags, exec (.scan f) s = .next (s'.givePeers ps f.ty res) ∧ ∀ p ∈ ps,
        (f.ty.isFloat = false →
          res p = (((segmentOf ps p f.c.toNat).filter fun q =>
            if f.fn.toNat < 8 then q.v.l.no ≤ p.v.l.no else q.v.l.no < p.v.l.no).foldl (fun a q => redOf f.ty n a (val q)) (identityOf f.ty n), 0)) ∧
        (f.ty.isFloat = true →
          let j := p.v.l.no % 2 ^ k
          res p = reduced f.ty n (if f.fn.toNat < 8 then scanOf op (at_ val p) k j
            else if j = 0 then none else scanOf op (at_ val p) k (j - 1))))

/-- R171, R172, R174, R176: an atomic writes its operation's result over the value it read, and the value read is its fill; PUBLISH counts a 64-bit
word of host memory up; FENCE holds the next trace and its thread's later stores as its ordering tells. Nothing of the thread is on its way,
no line is poisoned and no thread waits. -/
def Obligations.AtomicsPerform : Prop :=
  (∀ (t : Ty) (old data : Nat), old < 2 ^ t.width →
    let a : BitVec t.width := .ofNat t.width old
    let b : BitVec t.width := .ofNat t.width data
    let x := fdec t old
    let y := fdec t b.toNat
    atomNew 0 t old data = some (a + b).toNat ∧ atomNew 1 t old data = some (a - b).toNat ∧
    atomNew 2 t old data = some (if asInt t b < asInt t a then b else a).toNat ∧
    atomNew 3 t old data = some (if asInt t a < asInt t b then b else a).toNat ∧
    atomNew 4 t old data = some (a &&& b).toNat ∧ atomNew 5 t old data = some (a ||| b).toNat ∧
    atomNew 6 t old data = some (a ^^^ b).toNat ∧ atomNew 7 t old data = some b.toNat ∧
    atomNew 8 t old data = (if a = b then some (data / 2 ^ t.width % 2 ^ t.width) else none) ∧
    (t.isFloat = true → ∃ r, SumOf t .rne x y r ∧ atomNew 9 t old data = some r.1) ∧
    (t.isFloat = true → x.isNan = false → y.isNan = false → atomNew 10 t old data = some (if fLess y x then b.toNat else old) ∧
      atomNew 11 t old data = some (if fLess x y then b.toNat else old))) ∧
  ∀ (s : State) (v : View) (g : Going) (t : Thread), s.thread? v.t.r = some t → s.oplog = [] → s.blocks = [] → s.out = [] → s.poison = [] →
    s.noWaits → s.mem.wf = true → s.hostMem.wf = true →
    let u := s.performHinge v g
    (∀ op ty d data a va pre n, v.l.hinge = some (.atom op ty d data (.dev a) va pre .dflt n) → 1 ≤ d →
      let old := ofLe (s.mem.readN a ty.bytes)
      u.thread? v.t.r = some { t with hingeFills := t.hingeFills ++ [{ code := d, words := ty.words, value := old }] } ∧
      (∀ new, atomNew op ty old data = some new → u.mem.readN a ty.bytes = leBytes ty.bytes new) ∧
      (atomNew op ty old data = none → u.mem = s.mem) ∧ (∀ b, b < a ∨ a + ty.bytes ≤ b → u.mem.read b = s.mem.read b) ∧
      u.hostMem = s.hostMem ∧ u.groups = s.groups ∧ u.bundles = s.bundles) ∧
    (∀ d h a, v.l.hinge = some (.publish d (.host h a)) → 1 ≤ d →
      let n := (ofLe (s.hostMem.readN (farKey h a) 8) + 1) % 2 ^ 64
      u.thread? v.t.r = some { t with hingeFills := t.hingeFills ++ [{ code := d, words := 2, value := n }] } ∧
      u.hostMem.readN (farKey h a) 8 = leBytes 8 n ∧
      (∀ b, b < farKey h a ∨ farKey h a + 8 ≤ b → u.hostMem.read b = s.hostMem.read b) ∧ u.mem = s.mem ∧ u.groups = s.groups) ∧
    (∀ ord scope, v.l.hinge = some (.fence ord scope) → u.mem = s.mem ∧ ∃ th, u.thread? v.t.r = some th ∧
      th.hold = { drain := t.hold.drain || ord == .plain || ord == .sc, fill := t.hold.fill || ord.acquires,
                  merge := t.hold.merge || ord.acquires } ∧
      th.relall = (t.relall || ord.releases) ∧ th.regs = t.regs ∧ th.pc = t.pc)

/-- R191, R226, R264, R269, R270, R177: what the engine commands and the uniform writes of a commit do. BINIT and FLINIT write their objects, FLREL gives a slot back,
a lane's matrix command enters its group's queue, LDX sets out, and GSET writes its group's registers. Nothing of the thread is on its way,
no signal waits in a mailbox, no line is poisoned and no thread waits. -/
def Obligations.CommandsAtCommit : Prop :=
  ∀ (s : State) (v : View) (gid off : Nat) (g : Group), s.group? gid = some g → g.scr.wf = true → s.oplog = [] → s.blocks = [] → s.out = [] →
    s.mailbox = [] → s.poison = [] → s.noWaits →
    let kept := fun (u : State) (lo n : Nat) => u.mem = s.mem ∧ u.threads = s.threads ∧
      ∀ k, k < lo ∨ lo + n ≤ k → u.byteAt (.scr gid k) = s.byteAt (.scr gid k)
    (∀ a b, a ≤ 16383 → b < 2 ^ 48 →
      let u := s.releaseEng v (.binit gid off a b)
      kept u off 16 ∧ u.scrRd gid off 4 = 2 ^ 14 * a + (if s.phaseOf gid off then 2 ^ 31 else 0) ∧ u.scrRd gid (off + 4) 6 = b ∧
        u.scrRd gid (off + 10) 6 = 0 ∧ ∃ h, u.group? gid = some h ∧ off ∈ h.barTable) ∧
    (∀ base n z, base < 2 ^ 32 → n ≤ 4096 → z < 2 ^ 32 →
      let u := s.releaseEng v (.flinit gid off base n z)
      kept u off 32 ∧ u.scrRd gid off 4 = base ∧ u.scrRd gid (off + 4) 4 = z ∧ u.scrRd gid (off + 8) 2 = n ∧ u.scrRd gid (off + 12) 2 = n ∧
        u.scrRd gid (off + 14) 2 = 0 ∧ u.scrRd gid (off + 16) 2 = 0 ∧ u.scrRd gid (off + 18) 2 = 0) ∧
    (∀ slot,
      let u := s.releaseEng v (.flrel gid off slot)
      kept u (off + 12) 2 ∧ u.scrRd gid (off + 12) 2 = (s.scrRd gid (off + 12) 2 + 1) % 2 ^ 16) ∧
    (∀ src va bytes bar,
      let u := s.releaseEng v (.ldx src va bytes gid off bar)
      u.mem = s.mem ∧ u.groups = s.groups ∧ u.threads = s.threads ∧ ∃ x, u.ldxs = s.ldxs ++ [x] ∧ x.src = src ∧ x.gid = gid ∧ x.off = off ∧
        x.bytes = bytes ∧ x.barOff = bar ∧ x.core = coreOfSlot v.t.r ∧ x.run = v.t.run) ∧
    (∀ n op tile fmt fword aG aO bG bO blk, v.t.homeGid = gid → v.l.engs = [(n, .matrix op tile fmt fword aG aO bG bO blk)] →
      ∃ h c, (s.formMatrix gid (matrixOf [v] n gid tile)).group? gid = some h ∧ h.mq = g.mq ++ [c] ∧ c.op = op ∧ c.tile = tile ∧ c.fmt = fmt ∧
        c.fword = fword ∧ c.bGid = bG ∧ c.bOff = bO ∧ c.blk = blk ∧ c.run = v.t.run ∧
        c.rows = [{ r := v.t.r, gen := v.t.gen, rank := (v.t.m0.map (·.rank)).getD 0, aGid := aG, aOff := aO }]) ∧
    (v.t.homeGid = gid → (v.l.gsets.map (·.1)).Nodup → sWf g.uni = true → ∃ h, (s.commitUniforms [v]).group? gid = some h ∧
      (∀ x ∈ v.l.gsets, sGet h.uni x.1 = x.2) ∧ (∀ c, (∀ x ∈ v.l.gsets, x.1 ≠ c) → sGet h.uni c = sGet g.uni c) ∧ h.scr = g.scr)

end
end

