-- ==== Sys2Proof/Laws/Memory.lean ====
section
/-! SUPPORT. Sparse maps and memory: reading after writing, and that every operation keeps the canonical form. -/

namespace Sys2Proof.Machine

open Sys2Proof

/-! Sparse maps -/

/-- A non-empty sparse map is well formed when its first value is not zero, its first key is below the others, and the rest is. -/
theorem sWf_cons {n : Nat} (k : Nat) (v : BitVec n) (m : List (Nat × BitVec n)) :
    sWf ((k, v) :: m) = true ↔ v ≠ 0 ∧ (∀ e ∈ m, k < e.1) ∧ sWf m = true := by
  induction m generalizing k v with
  | nil => simp [sWf]
  | cons e m ih =>
    obtain ⟨j, w⟩ := e
    simp only [sWf, Bool.and_eq_true, decide_eq_true_eq, List.mem_cons, forall_eq_or_imp]
    constructor
    · rintro ⟨⟨h1, h2⟩, h3⟩
      exact ⟨h1, ⟨h2, fun e he => Nat.lt_trans h2 (((ih j w).mp h3).2.1 e he)⟩, h3⟩
    · rintro ⟨h1, ⟨h2, -⟩, h3⟩
      exact ⟨⟨h1, h2⟩, h3⟩

@[simp] theorem sWf_nil {n : Nat} : sWf ([] : List (Nat × BitVec n)) = true := rfl

/-- Every key of a map after a write is the key written or one it had. -/
theorem mem_sSet {n : Nat} (m : List (Nat × BitVec n)) (k : Nat) (v : BitVec n) (e : Nat × BitVec n) (h : e ∈ sSet m k v) :
    e = (k, v) ∨ e ∈ m := by
  induction m with
  | nil =>
    unfold sSet at h
    split at h <;> simp_all
  | cons x m ih =>
    obtain ⟨a, w⟩ := x
    simp only [sSet] at h
    simp only [List.mem_cons]
    split at h
    · rcases List.mem_cons.mp h with h | h
      · exact .inr (.inl h)
      · exact (ih h).imp id .inr
    · split at h
      · split at h
        · exact .inr (.inr h)
        · exact (List.mem_cons.mp h).imp id .inr
      · split at h
        · exact .inr (List.mem_cons.mp h)
        · exact (List.mem_cons.mp h).imp id List.mem_cons.mp

/-- A write keeps the canonical form. -/
theorem sSet_wf {n : Nat} (m : List (Nat × BitVec n)) (k : Nat) (v : BitVec n) (h : sWf m = true) : sWf (sSet m k v) = true := by
  induction m with
  | nil =>
    unfold sSet
    split
    · rfl
    · rw [sWf_cons]; simp_all
  | cons x m ih =>
    obtain ⟨a, w⟩ := x
    obtain ⟨h1, h2, h3⟩ := (sWf_cons a w m).mp h
    unfold sSet
    split
    · rename_i hk
      refine (sWf_cons _ _ _).mpr ⟨h1, fun e he => ?_, ih h3⟩
      rcases mem_sSet m k v e he with rfl | he
      · exact hk
      · exact h2 e he
    · split
      · split
        · exact h3
        · rename_i ha hv; exact (sWf_cons _ _ _).mpr ⟨hv, fun e he => ha ▸ h2 e he, h3⟩
      · split
        · exact h
        · rename_i hk ha hv
          refine (sWf_cons _ _ _).mpr ⟨hv, fun e he => ?_, h⟩
          rcases List.mem_cons.mp he with rfl | he
          · exact Nat.lt_of_le_of_ne (Nat.le_of_not_lt hk) (fun hh => ha hh.symm)
          · exact Nat.lt_of_le_of_lt (Nat.le_of_not_lt hk) (h2 e he)

/-- A key below every listed one reads as zero. -/
theorem sGet_below {n : Nat} (m : List (Nat × BitVec n)) (k : Nat) (h : ∀ e ∈ m, k < e.1) : sGet m k = 0 := by
  cases m with
  | nil => rfl
  | cons x m =>
    have hk : k < x.1 := h x (by simp)
    simp [sGet, Nat.ne_of_gt hk, hk]

/-- Reading after a write: the value written at its key, the earlier value elsewhere. -/
theorem sGet_sSet {n : Nat} (m : List (Nat × BitVec n)) (k j : Nat) (v : BitVec n) (h : sWf m = true) :
    sGet (sSet m k v) j = if j = k then v else sGet m j := by
  induction m with
  | nil =>
    unfold sSet
    split
    · rename_i hv; subst hv; simp [sGet]
    · by_cases hj : j = k
      · simp [sGet, hj]
      · simp [sGet, hj, Ne.symm hj]
  | cons x m ih =>
    obtain ⟨a, w⟩ := x
    obtain ⟨-, h2, h3⟩ := (sWf_cons a w m).mp h
    have low : ∀ i, i ≤ a → sGet m i = 0 := fun i hi => sGet_below m i fun e he => Nat.lt_of_le_of_lt hi (h2 e he)
    have := ih h3
    unfold sSet
    split
    · rename_i hk
      simp only [sGet]
      by_cases hj : a = j
      · subst hj; simp [Nat.ne_of_lt hk]
      · by_cases hj' : j < a
        · simp [hj, hj', Nat.ne_of_lt (Nat.lt_trans hj' hk)]
        · simp [hj, hj', this]
    · split
      · rename_i hk ha
        subst ha
        split
        · rename_i hv
          subst hv
          by_cases hj : j = a
          · subst hj; simp [low]
          · by_cases hj' : j < a
            · simp [sGet, hj, hj', Ne.symm hj, low j (Nat.le_of_lt hj')]
            · simp [sGet, hj, hj', Ne.symm hj]
        · by_cases hj : j = a
          · subst hj; simp [sGet]
          · simp [sGet, hj, Ne.symm hj]
      · rename_i hk ha
        have hlt : k < a := Nat.lt_of_le_of_ne (Nat.le_of_not_lt hk) (fun hh => ha hh.symm)
        split
        · rename_i hv
          subst hv
          by_cases hj : j = k
          · subst hj; simp [sGet, Nat.ne_of_gt hlt, hlt]
          · simp [hj]
        · by_cases hj : j = k
          · subst hj; simp [sGet]
          · by_cases hj' : j < k
            · simp [sGet, hj, hj', Ne.symm hj, Nat.ne_of_gt (Nat.lt_trans hj' hlt), Nat.lt_trans hj' hlt]
            · simp [sGet, hj, hj', Ne.symm hj]

/-- A map thinned out keeps its form. -/
theorem sWf_filter {n : Nat} (p : Nat × BitVec n → Bool) (m : List (Nat × BitVec n)) (h : sWf m = true) :
    sWf (m.filter p) = true := by
  induction m with
  | nil => rfl
  | cons x m ih =>
    obtain ⟨a, w⟩ := x
    obtain ⟨h1, h2, h3⟩ := (sWf_cons a w m).mp h
    rw [List.filter_cons]
    split
    · exact (sWf_cons _ _ _).mpr ⟨h1, fun e he => h2 e (List.mem_filter.mp he).1, ih h3⟩
    · exact ih h3

/-! Memory -/

theorem Memory.wf_nil : Memory.wf [] = true := rfl

/-- A byte reads as the last one written there. -/
theorem Memory.read_write (m : Memory) (a b : Nat) (v : Byte) (h : m.wf = true) :
    (m.write a v).read b = if b = a then v else m.read b := sGet_sSet m a b v h

theorem Memory.write_wf (m : Memory) (a : Nat) (v : Byte) (h : m.wf = true) : (m.write a v).wf = true := sSet_wf m a v h

theorem Memory.writeN_wf (m : Memory) (a : Nat) (l : List Byte) (h : m.wf = true) : (m.writeN a l).wf = true := by
  induction l generalizing m a with
  | nil => exact h
  | cons b l ih => exact ih _ _ (Memory.write_wf m a b h)

theorem Memory.filter_wf (m : Memory) (p : Host.Cell → Bool) (h : m.wf = true) : Memory.wf (m.filter p) = true := sWf_filter p m h

theorem Memory.clear_wf (m : Memory) (a n : Nat) (h : m.wf = true) : (m.clear a n).wf = true := sWf_filter _ m h

/-- A write of bytes leaves every byte outside it alone. -/
theorem Memory.read_writeN_other (m : Memory) (a b : Nat) (l : List Byte) (h : m.wf = true) (hb : b < a ∨ a + l.length ≤ b) :
    (m.writeN a l).read b = m.read b := by
  induction l generalizing m a with
  | nil => rfl
  | cons x l ih =>
    simp only [List.length_cons] at hb
    rw [Memory.writeN, ih _ _ (Memory.write_wf m a x h) (by omega), Memory.read_write m a b x h, if_neg (by omega)]

/-- Bytes written are the bytes read. -/
theorem Memory.readN_writeN (m : Memory) (a : Nat) (l : List Byte) (h : m.wf = true) :
    (m.writeN a l).readN a l.length = l := by
  induction l generalizing m a with
  | nil => rfl
  | cons x l ih =>
    simp only [List.length_cons, Memory.readN, Memory.writeN]
    rw [ih _ _ (Memory.write_wf m a x h), Memory.read_writeN_other _ _ _ _ (Memory.write_wf m a x h) (by omega),
      Memory.read_write m a a x h, if_pos rfl]

/-- Two memories in canonical form that read alike are the same list. -/
theorem Memory.ext_of_read (m k : Memory) (hm : m.wf = true) (hk : k.wf = true) (h : ∀ a, m.read a = k.read a) : m = k := by
  induction m generalizing k with
  | nil =>
    cases k with
    | nil => rfl
    | cons y k =>
      obtain ⟨b, w⟩ := y
      have hb := h b
      have := ((sWf_cons b w k).mp hk).1
      simp [Memory.read, sGet] at hb
      exact absurd hb.symm this
  | cons x m ih =>
    obtain ⟨a, v⟩ := x
    obtain ⟨hv, ha, hm'⟩ := (sWf_cons a v m).mp hm
    cases k with
    | nil =>
      have hb := h a
      simp [Memory.read, sGet] at hb
      exact absurd hb hv
    | cons y k =>
      obtain ⟨b, w⟩ := y
      obtain ⟨hw, hb, hk'⟩ := (sWf_cons b w k).mp hk
      have hab : a = b := by
        rcases Nat.lt_trichotomy a b with hlt | rfl | hlt
        · have := h a; simp [Memory.read, sGet, Nat.ne_of_gt hlt, hlt] at this; exact absurd this hv
        · rfl
        · have := h b; simp [Memory.read, sGet, Nat.ne_of_gt hlt, hlt] at this; exact absurd this.symm hw
      subst hab
      have hvw : v = w := by have := h a; simpa [Memory.read, sGet] using this
      subst hvw
      congr 1
      refine ih k hm' hk' fun c => ?_
      rcases Nat.lt_trichotomy a c with hlt | rfl | hlt
      · have := h c
        simpa [Memory.read, sGet, Nat.ne_of_lt hlt, Nat.not_lt.mpr (Nat.le_of_lt hlt)] using this
      · simp only [Memory.read]; rw [sGet_below m a ha, sGet_below k a hb]
      · simp only [Memory.read]
        rw [sGet_below m c fun e he => Nat.lt_trans hlt (ha e he), sGet_below k c fun e he => Nat.lt_trans hlt (hb e he)]

end Sys2Proof.Machine
end

