-- ==== Sys2Proof/Laws/State.lean ====
section
/-! SUPPORT. What each update of one part of the state leaves alone: one lemma for each other field. -/

namespace Sys2Proof.Machine

open Sys2Proof

/-! modThread changes `threads` alone. -/

@[simp] theorem modThread_agenda (s : State) (r : Nat) (f : Thread → Thread) : (s.modThread r f).agenda = s.agenda := rfl
@[simp] theorem modThread_tick (s : State) (r : Nat) (f : Thread → Thread) : (s.modThread r f).tick = s.tick := rfl
@[simp] theorem modThread_free (s : State) (r : Nat) (f : Thread → Thread) : (s.modThread r f).free = s.free := rfl
@[simp] theorem modThread_seq (s : State) (r : Nat) (f : Thread → Thread) : (s.modThread r f).seq = s.seq := rfl
@[simp] theorem modThread_cur (s : State) (r : Nat) (f : Thread → Thread) : (s.modThread r f).cur = s.cur := rfl
@[simp] theorem modThread_clk (s : State) (r : Nat) (f : Thread → Thread) : (s.modThread r f).clk = s.clk := rfl
@[simp] theorem modThread_mem (s : State) (r : Nat) (f : Thread → Thread) : (s.modThread r f).mem = s.mem := rfl
@[simp] theorem modThread_hostMem (s : State) (r : Nat) (f : Thread → Thread) : (s.modThread r f).hostMem = s.hostMem := rfl
@[simp] theorem modThread_peerMem (s : State) (r : Nat) (f : Thread → Thread) : (s.modThread r f).peerMem = s.peerMem := rfl
@[simp] theorem modThread_poison (s : State) (r : Nat) (f : Thread → Thread) : (s.modThread r f).poison = s.poison := rfl
@[simp] theorem modThread_owners (s : State) (r : Nat) (f : Thread → Thread) : (s.modThread r f).owners = s.owners := rfl
@[simp] theorem modThread_hostPages (s : State) (r : Nat) (f : Thread → Thread) : (s.modThread r f).hostPages = s.hostPages := rfl
@[simp] theorem modThread_pri (s : State) (r : Nat) (f : Thread → Thread) : (s.modThread r f).pri = s.pri := rfl
@[simp] theorem modThread_priBad (s : State) (r : Nat) (f : Thread → Thread) : (s.modThread r f).priBad = s.priBad := rfl
@[simp] theorem modThread_encPages (s : State) (r : Nat) (f : Thread → Thread) : (s.modThread r f).encPages = s.encPages := rfl
@[simp] theorem modThread_encSpaces (s : State) (r : Nat) (f : Thread → Thread) : (s.modThread r f).encSpaces = s.encSpaces := rfl
@[simp] theorem modThread_contexts (s : State) (r : Nat) (f : Thread → Thread) : (s.modThread r f).contexts = s.contexts := rfl
@[simp] theorem modThread_graphs (s : State) (r : Nat) (f : Thread → Thread) : (s.modThread r f).graphs = s.graphs := rfl
@[simp] theorem modThread_runs (s : State) (r : Nat) (f : Thread → Thread) : (s.modThread r f).runs = s.runs := rfl
@[simp] theorem modThread_groups (s : State) (r : Nat) (f : Thread → Thread) : (s.modThread r f).groups = s.groups := rfl
@[simp] theorem modThread_tags (s : State) (r : Nat) (f : Thread → Thread) : (s.modThread r f).tags = s.tags := rfl
@[simp] theorem modThread_bundles (s : State) (r : Nat) (f : Thread → Thread) : (s.modThread r f).bundles = s.bundles := rfl
@[simp] theorem modThread_table (s : State) (r : Nat) (f : Thread → Thread) : (s.modThread r f).table = s.table := rfl
@[simp] theorem modThread_arrivals (s : State) (r : Nat) (f : Thread → Thread) : (s.modThread r f).arrivals = s.arrivals := rfl
@[simp] theorem modThread_blocks (s : State) (r : Nat) (f : Thread → Thread) : (s.modThread r f).blocks = s.blocks := rfl
@[simp] theorem modThread_out (s : State) (r : Nat) (f : Thread → Thread) : (s.modThread r f).out = s.out := rfl
@[simp] theorem modThread_oplog (s : State) (r : Nat) (f : Thread → Thread) : (s.modThread r f).oplog = s.oplog := rfl
@[simp] theorem modThread_ldxs (s : State) (r : Nat) (f : Thread → Thread) : (s.modThread r f).ldxs = s.ldxs := rfl
@[simp] theorem modThread_cores (s : State) (r : Nat) (f : Thread → Thread) : (s.modThread r f).cores = s.cores := rfl
@[simp] theorem modThread_clusters (s : State) (r : Nat) (f : Thread → Thread) : (s.modThread r f).clusters = s.clusters := rfl
@[simp] theorem modThread_diesS (s : State) (r : Nat) (f : Thread → Thread) : (s.modThread r f).diesS = s.diesS := rfl
@[simp] theorem modThread_mailbox (s : State) (r : Nat) (f : Thread → Thread) : (s.modThread r f).mailbox = s.mailbox := rfl
@[simp] theorem modThread_lines (s : State) (r : Nat) (f : Thread → Thread) : (s.modThread r f).lines = s.lines := rfl
@[simp] theorem modThread_snaps (s : State) (r : Nat) (f : Thread → Thread) : (s.modThread r f).snaps = s.snaps := rfl
@[simp] theorem modThread_progs (s : State) (r : Nat) (f : Thread → Thread) : (s.modThread r f).progs = s.progs := rfl
@[simp] theorem modThread_vfs (s : State) (r : Nat) (f : Thread → Thread) : (s.modThread r f).vfs = s.vfs := rfl
@[simp] theorem modThread_ports (s : State) (r : Nat) (f : Thread → Thread) : (s.modThread r f).ports = s.ports := rfl
@[simp] theorem modThread_peers (s : State) (r : Nat) (f : Thread → Thread) : (s.modThread r f).peers = s.peers := rfl
@[simp] theorem modThread_pkg (s : State) (r : Nat) (f : Thread → Thread) : (s.modThread r f).pkg = s.pkg := rfl
@[simp] theorem modThread_held (s : State) (r : Nat) (f : Thread → Thread) : (s.modThread r f).held = s.held := rfl
@[simp] theorem modThread_waiting (s : State) (r : Nat) (f : Thread → Thread) : (s.modThread r f).waiting = s.waiting := rfl
@[simp] theorem modThread_hostResp (s : State) (r : Nat) (f : Thread → Thread) : (s.modThread r f).hostResp = s.hostResp := rfl

/-! modGroup changes `groups` alone. -/

@[simp] theorem modGroup_agenda (s : State) (k : Nat) (f : Group → Group) : (s.modGroup k f).agenda = s.agenda := rfl
@[simp] theorem modGroup_tick (s : State) (k : Nat) (f : Group → Group) : (s.modGroup k f).tick = s.tick := rfl
@[simp] theorem modGroup_free (s : State) (k : Nat) (f : Group → Group) : (s.modGroup k f).free = s.free := rfl
@[simp] theorem modGroup_seq (s : State) (k : Nat) (f : Group → Group) : (s.modGroup k f).seq = s.seq := rfl
@[simp] theorem modGroup_cur (s : State) (k : Nat) (f : Group → Group) : (s.modGroup k f).cur = s.cur := rfl
@[simp] theorem modGroup_clk (s : State) (k : Nat) (f : Group → Group) : (s.modGroup k f).clk = s.clk := rfl
@[simp] theorem modGroup_mem (s : State) (k : Nat) (f : Group → Group) : (s.modGroup k f).mem = s.mem := rfl
@[simp] theorem modGroup_hostMem (s : State) (k : Nat) (f : Group → Group) : (s.modGroup k f).hostMem = s.hostMem := rfl
@[simp] theorem modGroup_peerMem (s : State) (k : Nat) (f : Group → Group) : (s.modGroup k f).peerMem = s.peerMem := rfl
@[simp] theorem modGroup_poison (s : State) (k : Nat) (f : Group → Group) : (s.modGroup k f).poison = s.poison := rfl
@[simp] theorem modGroup_owners (s : State) (k : Nat) (f : Group → Group) : (s.modGroup k f).owners = s.owners := rfl
@[simp] theorem modGroup_hostPages (s : State) (k : Nat) (f : Group → Group) : (s.modGroup k f).hostPages = s.hostPages := rfl
@[simp] theorem modGroup_pri (s : State) (k : Nat) (f : Group → Group) : (s.modGroup k f).pri = s.pri := rfl
@[simp] theorem modGroup_priBad (s : State) (k : Nat) (f : Group → Group) : (s.modGroup k f).priBad = s.priBad := rfl
@[simp] theorem modGroup_encPages (s : State) (k : Nat) (f : Group → Group) : (s.modGroup k f).encPages = s.encPages := rfl
@[simp] theorem modGroup_encSpaces (s : State) (k : Nat) (f : Group → Group) : (s.modGroup k f).encSpaces = s.encSpaces := rfl
@[simp] theorem modGroup_contexts (s : State) (k : Nat) (f : Group → Group) : (s.modGroup k f).contexts = s.contexts := rfl
@[simp] theorem modGroup_graphs (s : State) (k : Nat) (f : Group → Group) : (s.modGroup k f).graphs = s.graphs := rfl
@[simp] theorem modGroup_runs (s : State) (k : Nat) (f : Group → Group) : (s.modGroup k f).runs = s.runs := rfl
@[simp] theorem modGroup_threads (s : State) (k : Nat) (f : Group → Group) : (s.modGroup k f).threads = s.threads := rfl
@[simp] theorem modGroup_tags (s : State) (k : Nat) (f : Group → Group) : (s.modGroup k f).tags = s.tags := rfl
@[simp] theorem modGroup_bundles (s : State) (k : Nat) (f : Group → Group) : (s.modGroup k f).bundles = s.bundles := rfl
@[simp] theorem modGroup_table (s : State) (k : Nat) (f : Group → Group) : (s.modGroup k f).table = s.table := rfl
@[simp] theorem modGroup_arrivals (s : State) (k : Nat) (f : Group → Group) : (s.modGroup k f).arrivals = s.arrivals := rfl
@[simp] theorem modGroup_blocks (s : State) (k : Nat) (f : Group → Group) : (s.modGroup k f).blocks = s.blocks := rfl
@[simp] theorem modGroup_out (s : State) (k : Nat) (f : Group → Group) : (s.modGroup k f).out = s.out := rfl
@[simp] theorem modGroup_oplog (s : State) (k : Nat) (f : Group → Group) : (s.modGroup k f).oplog = s.oplog := rfl
@[simp] theorem modGroup_ldxs (s : State) (k : Nat) (f : Group → Group) : (s.modGroup k f).ldxs = s.ldxs := rfl
@[simp] theorem modGroup_cores (s : State) (k : Nat) (f : Group → Group) : (s.modGroup k f).cores = s.cores := rfl
@[simp] theorem modGroup_clusters (s : State) (k : Nat) (f : Group → Group) : (s.modGroup k f).clusters = s.clusters := rfl
@[simp] theorem modGroup_diesS (s : State) (k : Nat) (f : Group → Group) : (s.modGroup k f).diesS = s.diesS := rfl
@[simp] theorem modGroup_mailbox (s : State) (k : Nat) (f : Group → Group) : (s.modGroup k f).mailbox = s.mailbox := rfl
@[simp] theorem modGroup_lines (s : State) (k : Nat) (f : Group → Group) : (s.modGroup k f).lines = s.lines := rfl
@[simp] theorem modGroup_snaps (s : State) (k : Nat) (f : Group → Group) : (s.modGroup k f).snaps = s.snaps := rfl
@[simp] theorem modGroup_progs (s : State) (k : Nat) (f : Group → Group) : (s.modGroup k f).progs = s.progs := rfl
@[simp] theorem modGroup_vfs (s : State) (k : Nat) (f : Group → Group) : (s.modGroup k f).vfs = s.vfs := rfl
@[simp] theorem modGroup_ports (s : State) (k : Nat) (f : Group → Group) : (s.modGroup k f).ports = s.ports := rfl
@[simp] theorem modGroup_peers (s : State) (k : Nat) (f : Group → Group) : (s.modGroup k f).peers = s.peers := rfl
@[simp] theorem modGroup_pkg (s : State) (k : Nat) (f : Group → Group) : (s.modGroup k f).pkg = s.pkg := rfl
@[simp] theorem modGroup_held (s : State) (k : Nat) (f : Group → Group) : (s.modGroup k f).held = s.held := rfl
@[simp] theorem modGroup_waiting (s : State) (k : Nat) (f : Group → Group) : (s.modGroup k f).waiting = s.waiting := rfl
@[simp] theorem modGroup_hostResp (s : State) (k : Nat) (f : Group → Group) : (s.modGroup k f).hostResp = s.hostResp := rfl

/-! modCtx changes `contexts` alone. -/

@[simp] theorem modCtx_agenda (s : State) (k : Nat) (f : Context → Context) : (s.modCtx k f).agenda = s.agenda := rfl
@[simp] theorem modCtx_tick (s : State) (k : Nat) (f : Context → Context) : (s.modCtx k f).tick = s.tick := rfl
@[simp] theorem modCtx_free (s : State) (k : Nat) (f : Context → Context) : (s.modCtx k f).free = s.free := rfl
@[simp] theorem modCtx_seq (s : State) (k : Nat) (f : Context → Context) : (s.modCtx k f).seq = s.seq := rfl
@[simp] theorem modCtx_cur (s : State) (k : Nat) (f : Context → Context) : (s.modCtx k f).cur = s.cur := rfl
@[simp] theorem modCtx_clk (s : State) (k : Nat) (f : Context → Context) : (s.modCtx k f).clk = s.clk := rfl
@[simp] theorem modCtx_mem (s : State) (k : Nat) (f : Context → Context) : (s.modCtx k f).mem = s.mem := rfl
@[simp] theorem modCtx_hostMem (s : State) (k : Nat) (f : Context → Context) : (s.modCtx k f).hostMem = s.hostMem := rfl
@[simp] theorem modCtx_peerMem (s : State) (k : Nat) (f : Context → Context) : (s.modCtx k f).peerMem = s.peerMem := rfl
@[simp] theorem modCtx_poison (s : State) (k : Nat) (f : Context → Context) : (s.modCtx k f).poison = s.poison := rfl
@[simp] theorem modCtx_owners (s : State) (k : Nat) (f : Context → Context) : (s.modCtx k f).owners = s.owners := rfl
@[simp] theorem modCtx_hostPages (s : State) (k : Nat) (f : Context → Context) : (s.modCtx k f).hostPages = s.hostPages := rfl
@[simp] theorem modCtx_pri (s : State) (k : Nat) (f : Context → Context) : (s.modCtx k f).pri = s.pri := rfl
@[simp] theorem modCtx_priBad (s : State) (k : Nat) (f : Context → Context) : (s.modCtx k f).priBad = s.priBad := rfl
@[simp] theorem modCtx_encPages (s : State) (k : Nat) (f : Context → Context) : (s.modCtx k f).encPages = s.encPages := rfl
@[simp] theorem modCtx_encSpaces (s : State) (k : Nat) (f : Context → Context) : (s.modCtx k f).encSpaces = s.encSpaces := rfl
@[simp] theorem modCtx_graphs (s : State) (k : Nat) (f : Context → Context) : (s.modCtx k f).graphs = s.graphs := rfl
@[simp] theorem modCtx_runs (s : State) (k : Nat) (f : Context → Context) : (s.modCtx k f).runs = s.runs := rfl
@[simp] theorem modCtx_groups (s : State) (k : Nat) (f : Context → Context) : (s.modCtx k f).groups = s.groups := rfl
@[simp] theorem modCtx_threads (s : State) (k : Nat) (f : Context → Context) : (s.modCtx k f).threads = s.threads := rfl
@[simp] theorem modCtx_tags (s : State) (k : Nat) (f : Context → Context) : (s.modCtx k f).tags = s.tags := rfl
@[simp] theorem modCtx_bundles (s : State) (k : Nat) (f : Context → Context) : (s.modCtx k f).bundles = s.bundles := rfl
@[simp] theorem modCtx_table (s : State) (k : Nat) (f : Context → Context) : (s.modCtx k f).table = s.table := rfl
@[simp] theorem modCtx_arrivals (s : State) (k : Nat) (f : Context → Context) : (s.modCtx k f).arrivals = s.arrivals := rfl
@[simp] theorem modCtx_blocks (s : State) (k : Nat) (f : Context → Context) : (s.modCtx k f).blocks = s.blocks := rfl
@[simp] theorem modCtx_out (s : State) (k : Nat) (f : Context → Context) : (s.modCtx k f).out = s.out := rfl
@[simp] theorem modCtx_oplog (s : State) (k : Nat) (f : Context → Context) : (s.modCtx k f).oplog = s.oplog := rfl
@[simp] theorem modCtx_ldxs (s : State) (k : Nat) (f : Context → Context) : (s.modCtx k f).ldxs = s.ldxs := rfl
@[simp] theorem modCtx_cores (s : State) (k : Nat) (f : Context → Context) : (s.modCtx k f).cores = s.cores := rfl
@[simp] theorem modCtx_clusters (s : State) (k : Nat) (f : Context → Context) : (s.modCtx k f).clusters = s.clusters := rfl
@[simp] theorem modCtx_diesS (s : State) (k : Nat) (f : Context → Context) : (s.modCtx k f).diesS = s.diesS := rfl
@[simp] theorem modCtx_mailbox (s : State) (k : Nat) (f : Context → Context) : (s.modCtx k f).mailbox = s.mailbox := rfl
@[simp] theorem modCtx_lines (s : State) (k : Nat) (f : Context → Context) : (s.modCtx k f).lines = s.lines := rfl
@[simp] theorem modCtx_snaps (s : State) (k : Nat) (f : Context → Context) : (s.modCtx k f).snaps = s.snaps := rfl
@[simp] theorem modCtx_progs (s : State) (k : Nat) (f : Context → Context) : (s.modCtx k f).progs = s.progs := rfl
@[simp] theorem modCtx_vfs (s : State) (k : Nat) (f : Context → Context) : (s.modCtx k f).vfs = s.vfs := rfl
@[simp] theorem modCtx_ports (s : State) (k : Nat) (f : Context → Context) : (s.modCtx k f).ports = s.ports := rfl
@[simp] theorem modCtx_peers (s : State) (k : Nat) (f : Context → Context) : (s.modCtx k f).peers = s.peers := rfl
@[simp] theorem modCtx_pkg (s : State) (k : Nat) (f : Context → Context) : (s.modCtx k f).pkg = s.pkg := rfl
@[simp] theorem modCtx_held (s : State) (k : Nat) (f : Context → Context) : (s.modCtx k f).held = s.held := rfl
@[simp] theorem modCtx_waiting (s : State) (k : Nat) (f : Context → Context) : (s.modCtx k f).waiting = s.waiting := rfl
@[simp] theorem modCtx_hostResp (s : State) (k : Nat) (f : Context → Context) : (s.modCtx k f).hostResp = s.hostResp := rfl

/-! modRun changes `runs` alone. -/

@[simp] theorem modRun_agenda (s : State) (k : Nat) (f : Run → Run) : (s.modRun k f).agenda = s.agenda := rfl
@[simp] theorem modRun_tick (s : State) (k : Nat) (f : Run → Run) : (s.modRun k f).tick = s.tick := rfl
@[simp] theorem modRun_free (s : State) (k : Nat) (f : Run → Run) : (s.modRun k f).free = s.free := rfl
@[simp] theorem modRun_seq (s : State) (k : Nat) (f : Run → Run) : (s.modRun k f).seq = s.seq := rfl
@[simp] theorem modRun_cur (s : State) (k : Nat) (f : Run → Run) : (s.modRun k f).cur = s.cur := rfl
@[simp] theorem modRun_clk (s : State) (k : Nat) (f : Run → Run) : (s.modRun k f).clk = s.clk := rfl
@[simp] theorem modRun_mem (s : State) (k : Nat) (f : Run → Run) : (s.modRun k f).mem = s.mem := rfl
@[simp] theorem modRun_hostMem (s : State) (k : Nat) (f : Run → Run) : (s.modRun k f).hostMem = s.hostMem := rfl
@[simp] theorem modRun_peerMem (s : State) (k : Nat) (f : Run → Run) : (s.modRun k f).peerMem = s.peerMem := rfl
@[simp] theorem modRun_poison (s : State) (k : Nat) (f : Run → Run) : (s.modRun k f).poison = s.poison := rfl
@[simp] theorem modRun_owners (s : State) (k : Nat) (f : Run → Run) : (s.modRun k f).owners = s.owners := rfl
@[simp] theorem modRun_hostPages (s : State) (k : Nat) (f : Run → Run) : (s.modRun k f).hostPages = s.hostPages := rfl
@[simp] theorem modRun_pri (s : State) (k : Nat) (f : Run → Run) : (s.modRun k f).pri = s.pri := rfl
@[simp] theorem modRun_priBad (s : State) (k : Nat) (f : Run → Run) : (s.modRun k f).priBad = s.priBad := rfl
@[simp] theorem modRun_encPages (s : State) (k : Nat) (f : Run → Run) : (s.modRun k f).encPages = s.encPages := rfl
@[simp] theorem modRun_encSpaces (s : State) (k : Nat) (f : Run → Run) : (s.modRun k f).encSpaces = s.encSpaces := rfl
@[simp] theorem modRun_contexts (s : State) (k : Nat) (f : Run → Run) : (s.modRun k f).contexts = s.contexts := rfl
@[simp] theorem modRun_graphs (s : State) (k : Nat) (f : Run → Run) : (s.modRun k f).graphs = s.graphs := rfl
@[simp] theorem modRun_groups (s : State) (k : Nat) (f : Run → Run) : (s.modRun k f).groups = s.groups := rfl
@[simp] theorem modRun_threads (s : State) (k : Nat) (f : Run → Run) : (s.modRun k f).threads = s.threads := rfl
@[simp] theorem modRun_tags (s : State) (k : Nat) (f : Run → Run) : (s.modRun k f).tags = s.tags := rfl
@[simp] theorem modRun_bundles (s : State) (k : Nat) (f : Run → Run) : (s.modRun k f).bundles = s.bundles := rfl
@[simp] theorem modRun_table (s : State) (k : Nat) (f : Run → Run) : (s.modRun k f).table = s.table := rfl
@[simp] theorem modRun_arrivals (s : State) (k : Nat) (f : Run → Run) : (s.modRun k f).arrivals = s.arrivals := rfl
@[simp] theorem modRun_blocks (s : State) (k : Nat) (f : Run → Run) : (s.modRun k f).blocks = s.blocks := rfl
@[simp] theorem modRun_out (s : State) (k : Nat) (f : Run → Run) : (s.modRun k f).out = s.out := rfl
@[simp] theorem modRun_oplog (s : State) (k : Nat) (f : Run → Run) : (s.modRun k f).oplog = s.oplog := rfl
@[simp] theorem modRun_ldxs (s : State) (k : Nat) (f : Run → Run) : (s.modRun k f).ldxs = s.ldxs := rfl
@[simp] theorem modRun_cores (s : State) (k : Nat) (f : Run → Run) : (s.modRun k f).cores = s.cores := rfl
@[simp] theorem modRun_clusters (s : State) (k : Nat) (f : Run → Run) : (s.modRun k f).clusters = s.clusters := rfl
@[simp] theorem modRun_diesS (s : State) (k : Nat) (f : Run → Run) : (s.modRun k f).diesS = s.diesS := rfl
@[simp] theorem modRun_mailbox (s : State) (k : Nat) (f : Run → Run) : (s.modRun k f).mailbox = s.mailbox := rfl
@[simp] theorem modRun_lines (s : State) (k : Nat) (f : Run → Run) : (s.modRun k f).lines = s.lines := rfl
@[simp] theorem modRun_snaps (s : State) (k : Nat) (f : Run → Run) : (s.modRun k f).snaps = s.snaps := rfl
@[simp] theorem modRun_progs (s : State) (k : Nat) (f : Run → Run) : (s.modRun k f).progs = s.progs := rfl
@[simp] theorem modRun_vfs (s : State) (k : Nat) (f : Run → Run) : (s.modRun k f).vfs = s.vfs := rfl
@[simp] theorem modRun_ports (s : State) (k : Nat) (f : Run → Run) : (s.modRun k f).ports = s.ports := rfl
@[simp] theorem modRun_peers (s : State) (k : Nat) (f : Run → Run) : (s.modRun k f).peers = s.peers := rfl
@[simp] theorem modRun_pkg (s : State) (k : Nat) (f : Run → Run) : (s.modRun k f).pkg = s.pkg := rfl
@[simp] theorem modRun_held (s : State) (k : Nat) (f : Run → Run) : (s.modRun k f).held = s.held := rfl
@[simp] theorem modRun_waiting (s : State) (k : Nat) (f : Run → Run) : (s.modRun k f).waiting = s.waiting := rfl
@[simp] theorem modRun_hostResp (s : State) (k : Nat) (f : Run → Run) : (s.modRun k f).hostResp = s.hostResp := rfl

/-! modGraph changes `graphs` alone. -/

@[simp] theorem modGraph_agenda (s : State) (k : Nat) (f : Graph → Graph) : (s.modGraph k f).agenda = s.agenda := rfl
@[simp] theorem modGraph_tick (s : State) (k : Nat) (f : Graph → Graph) : (s.modGraph k f).tick = s.tick := rfl
@[simp] theorem modGraph_free (s : State) (k : Nat) (f : Graph → Graph) : (s.modGraph k f).free = s.free := rfl
@[simp] theorem modGraph_seq (s : State) (k : Nat) (f : Graph → Graph) : (s.modGraph k f).seq = s.seq := rfl
@[simp] theorem modGraph_cur (s : State) (k : Nat) (f : Graph → Graph) : (s.modGraph k f).cur = s.cur := rfl
@[simp] theorem modGraph_clk (s : State) (k : Nat) (f : Graph → Graph) : (s.modGraph k f).clk = s.clk := rfl
@[simp] theorem modGraph_mem (s : State) (k : Nat) (f : Graph → Graph) : (s.modGraph k f).mem = s.mem := rfl
@[simp] theorem modGraph_hostMem (s : State) (k : Nat) (f : Graph → Graph) : (s.modGraph k f).hostMem = s.hostMem := rfl
@[simp] theorem modGraph_peerMem (s : State) (k : Nat) (f : Graph → Graph) : (s.modGraph k f).peerMem = s.peerMem := rfl
@[simp] theorem modGraph_poison (s : State) (k : Nat) (f : Graph → Graph) : (s.modGraph k f).poison = s.poison := rfl
@[simp] theorem modGraph_owners (s : State) (k : Nat) (f : Graph → Graph) : (s.modGraph k f).owners = s.owners := rfl
@[simp] theorem modGraph_hostPages (s : State) (k : Nat) (f : Graph → Graph) : (s.modGraph k f).hostPages = s.hostPages := rfl
@[simp] theorem modGraph_pri (s : State) (k : Nat) (f : Graph → Graph) : (s.modGraph k f).pri = s.pri := rfl
@[simp] theorem modGraph_priBad (s : State) (k : Nat) (f : Graph → Graph) : (s.modGraph k f).priBad = s.priBad := rfl
@[simp] theorem modGraph_encPages (s : State) (k : Nat) (f : Graph → Graph) : (s.modGraph k f).encPages = s.encPages := rfl
@[simp] theorem modGraph_encSpaces (s : State) (k : Nat) (f : Graph → Graph) : (s.modGraph k f).encSpaces = s.encSpaces := rfl
@[simp] theorem modGraph_contexts (s : State) (k : Nat) (f : Graph → Graph) : (s.modGraph k f).contexts = s.contexts := rfl
@[simp] theorem modGraph_runs (s : State) (k : Nat) (f : Graph → Graph) : (s.modGraph k f).runs = s.runs := rfl
@[simp] theorem modGraph_groups (s : State) (k : Nat) (f : Graph → Graph) : (s.modGraph k f).groups = s.groups := rfl
@[simp] theorem modGraph_threads (s : State) (k : Nat) (f : Graph → Graph) : (s.modGraph k f).threads = s.threads := rfl
@[simp] theorem modGraph_tags (s : State) (k : Nat) (f : Graph → Graph) : (s.modGraph k f).tags = s.tags := rfl
@[simp] theorem modGraph_bundles (s : State) (k : Nat) (f : Graph → Graph) : (s.modGraph k f).bundles = s.bundles := rfl
@[simp] theorem modGraph_table (s : State) (k : Nat) (f : Graph → Graph) : (s.modGraph k f).table = s.table := rfl
@[simp] theorem modGraph_arrivals (s : State) (k : Nat) (f : Graph → Graph) : (s.modGraph k f).arrivals = s.arrivals := rfl
@[simp] theorem modGraph_blocks (s : State) (k : Nat) (f : Graph → Graph) : (s.modGraph k f).blocks = s.blocks := rfl
@[simp] theorem modGraph_out (s : State) (k : Nat) (f : Graph → Graph) : (s.modGraph k f).out = s.out := rfl
@[simp] theorem modGraph_oplog (s : State) (k : Nat) (f : Graph → Graph) : (s.modGraph k f).oplog = s.oplog := rfl
@[simp] theorem modGraph_ldxs (s : State) (k : Nat) (f : Graph → Graph) : (s.modGraph k f).ldxs = s.ldxs := rfl
@[simp] theorem modGraph_cores (s : State) (k : Nat) (f : Graph → Graph) : (s.modGraph k f).cores = s.cores := rfl
@[simp] theorem modGraph_clusters (s : State) (k : Nat) (f : Graph → Graph) : (s.modGraph k f).clusters = s.clusters := rfl
@[simp] theorem modGraph_diesS (s : State) (k : Nat) (f : Graph → Graph) : (s.modGraph k f).diesS = s.diesS := rfl
@[simp] theorem modGraph_mailbox (s : State) (k : Nat) (f : Graph → Graph) : (s.modGraph k f).mailbox = s.mailbox := rfl
@[simp] theorem modGraph_lines (s : State) (k : Nat) (f : Graph → Graph) : (s.modGraph k f).lines = s.lines := rfl
@[simp] theorem modGraph_snaps (s : State) (k : Nat) (f : Graph → Graph) : (s.modGraph k f).snaps = s.snaps := rfl
@[simp] theorem modGraph_progs (s : State) (k : Nat) (f : Graph → Graph) : (s.modGraph k f).progs = s.progs := rfl
@[simp] theorem modGraph_vfs (s : State) (k : Nat) (f : Graph → Graph) : (s.modGraph k f).vfs = s.vfs := rfl
@[simp] theorem modGraph_ports (s : State) (k : Nat) (f : Graph → Graph) : (s.modGraph k f).ports = s.ports := rfl
@[simp] theorem modGraph_peers (s : State) (k : Nat) (f : Graph → Graph) : (s.modGraph k f).peers = s.peers := rfl
@[simp] theorem modGraph_pkg (s : State) (k : Nat) (f : Graph → Graph) : (s.modGraph k f).pkg = s.pkg := rfl
@[simp] theorem modGraph_held (s : State) (k : Nat) (f : Graph → Graph) : (s.modGraph k f).held = s.held := rfl
@[simp] theorem modGraph_waiting (s : State) (k : Nat) (f : Graph → Graph) : (s.modGraph k f).waiting = s.waiting := rfl
@[simp] theorem modGraph_hostResp (s : State) (k : Nat) (f : Graph → Graph) : (s.modGraph k f).hostResp = s.hostResp := rfl

/-! modBundle changes `bundles` alone. -/

@[simp] theorem modBundle_agenda (s : State) (p : PortId) (f : Bundle → Bundle) : (s.modBundle p f).agenda = s.agenda := rfl
@[simp] theorem modBundle_tick (s : State) (p : PortId) (f : Bundle → Bundle) : (s.modBundle p f).tick = s.tick := rfl
@[simp] theorem modBundle_free (s : State) (p : PortId) (f : Bundle → Bundle) : (s.modBundle p f).free = s.free := rfl
@[simp] theorem modBundle_seq (s : State) (p : PortId) (f : Bundle → Bundle) : (s.modBundle p f).seq = s.seq := rfl
@[simp] theorem modBundle_cur (s : State) (p : PortId) (f : Bundle → Bundle) : (s.modBundle p f).cur = s.cur := rfl
@[simp] theorem modBundle_clk (s : State) (p : PortId) (f : Bundle → Bundle) : (s.modBundle p f).clk = s.clk := rfl
@[simp] theorem modBundle_mem (s : State) (p : PortId) (f : Bundle → Bundle) : (s.modBundle p f).mem = s.mem := rfl
@[simp] theorem modBundle_hostMem (s : State) (p : PortId) (f : Bundle → Bundle) : (s.modBundle p f).hostMem = s.hostMem := rfl
@[simp] theorem modBundle_peerMem (s : State) (p : PortId) (f : Bundle → Bundle) : (s.modBundle p f).peerMem = s.peerMem := rfl
@[simp] theorem modBundle_poison (s : State) (p : PortId) (f : Bundle → Bundle) : (s.modBundle p f).poison = s.poison := rfl
@[simp] theorem modBundle_owners (s : State) (p : PortId) (f : Bundle → Bundle) : (s.modBundle p f).owners = s.owners := rfl
@[simp] theorem modBundle_hostPages (s : State) (p : PortId) (f : Bundle → Bundle) : (s.modBundle p f).hostPages = s.hostPages := rfl
@[simp] theorem modBundle_pri (s : State) (p : PortId) (f : Bundle → Bundle) : (s.modBundle p f).pri = s.pri := rfl
@[simp] theorem modBundle_priBad (s : State) (p : PortId) (f : Bundle → Bundle) : (s.modBundle p f).priBad = s.priBad := rfl
@[simp] theorem modBundle_encPages (s : State) (p : PortId) (f : Bundle → Bundle) : (s.modBundle p f).encPages = s.encPages := rfl
@[simp] theorem modBundle_encSpaces (s : State) (p : PortId) (f : Bundle → Bundle) : (s.modBundle p f).encSpaces = s.encSpaces := rfl
@[simp] theorem modBundle_contexts (s : State) (p : PortId) (f : Bundle → Bundle) : (s.modBundle p f).contexts = s.contexts := rfl
@[simp] theorem modBundle_graphs (s : State) (p : PortId) (f : Bundle → Bundle) : (s.modBundle p f).graphs = s.graphs := rfl
@[simp] theorem modBundle_runs (s : State) (p : PortId) (f : Bundle → Bundle) : (s.modBundle p f).runs = s.runs := rfl
@[simp] theorem modBundle_groups (s : State) (p : PortId) (f : Bundle → Bundle) : (s.modBundle p f).groups = s.groups := rfl
@[simp] theorem modBundle_threads (s : State) (p : PortId) (f : Bundle → Bundle) : (s.modBundle p f).threads = s.threads := rfl
@[simp] theorem modBundle_tags (s : State) (p : PortId) (f : Bundle → Bundle) : (s.modBundle p f).tags = s.tags := rfl
@[simp] theorem modBundle_table (s : State) (p : PortId) (f : Bundle → Bundle) : (s.modBundle p f).table = s.table := rfl
@[simp] theorem modBundle_arrivals (s : State) (p : PortId) (f : Bundle → Bundle) : (s.modBundle p f).arrivals = s.arrivals := rfl
@[simp] theorem modBundle_blocks (s : State) (p : PortId) (f : Bundle → Bundle) : (s.modBundle p f).blocks = s.blocks := rfl
@[simp] theorem modBundle_out (s : State) (p : PortId) (f : Bundle → Bundle) : (s.modBundle p f).out = s.out := rfl
@[simp] theorem modBundle_oplog (s : State) (p : PortId) (f : Bundle → Bundle) : (s.modBundle p f).oplog = s.oplog := rfl
@[simp] theorem modBundle_ldxs (s : State) (p : PortId) (f : Bundle → Bundle) : (s.modBundle p f).ldxs = s.ldxs := rfl
@[simp] theorem modBundle_cores (s : State) (p : PortId) (f : Bundle → Bundle) : (s.modBundle p f).cores = s.cores := rfl
@[simp] theorem modBundle_clusters (s : State) (p : PortId) (f : Bundle → Bundle) : (s.modBundle p f).clusters = s.clusters := rfl
@[simp] theorem modBundle_diesS (s : State) (p : PortId) (f : Bundle → Bundle) : (s.modBundle p f).diesS = s.diesS := rfl
@[simp] theorem modBundle_mailbox (s : State) (p : PortId) (f : Bundle → Bundle) : (s.modBundle p f).mailbox = s.mailbox := rfl
@[simp] theorem modBundle_lines (s : State) (p : PortId) (f : Bundle → Bundle) : (s.modBundle p f).lines = s.lines := rfl
@[simp] theorem modBundle_snaps (s : State) (p : PortId) (f : Bundle → Bundle) : (s.modBundle p f).snaps = s.snaps := rfl
@[simp] theorem modBundle_progs (s : State) (p : PortId) (f : Bundle → Bundle) : (s.modBundle p f).progs = s.progs := rfl
@[simp] theorem modBundle_vfs (s : State) (p : PortId) (f : Bundle → Bundle) : (s.modBundle p f).vfs = s.vfs := rfl
@[simp] theorem modBundle_ports (s : State) (p : PortId) (f : Bundle → Bundle) : (s.modBundle p f).ports = s.ports := rfl
@[simp] theorem modBundle_peers (s : State) (p : PortId) (f : Bundle → Bundle) : (s.modBundle p f).peers = s.peers := rfl
@[simp] theorem modBundle_pkg (s : State) (p : PortId) (f : Bundle → Bundle) : (s.modBundle p f).pkg = s.pkg := rfl
@[simp] theorem modBundle_held (s : State) (p : PortId) (f : Bundle → Bundle) : (s.modBundle p f).held = s.held := rfl
@[simp] theorem modBundle_waiting (s : State) (p : PortId) (f : Bundle → Bundle) : (s.modBundle p f).waiting = s.waiting := rfl
@[simp] theorem modBundle_hostResp (s : State) (p : PortId) (f : Bundle → Bundle) : (s.modBundle p f).hostResp = s.hostResp := rfl

/-! modTag changes `tags` alone. -/

@[simp] theorem modTag_agenda (s : State) (r : Nat) (f : TagEntry → TagEntry) : (s.modTag r f).agenda = s.agenda := rfl
@[simp] theorem modTag_tick (s : State) (r : Nat) (f : TagEntry → TagEntry) : (s.modTag r f).tick = s.tick := rfl
@[simp] theorem modTag_free (s : State) (r : Nat) (f : TagEntry → TagEntry) : (s.modTag r f).free = s.free := rfl
@[simp] theorem modTag_seq (s : State) (r : Nat) (f : TagEntry → TagEntry) : (s.modTag r f).seq = s.seq := rfl
@[simp] theorem modTag_cur (s : State) (r : Nat) (f : TagEntry → TagEntry) : (s.modTag r f).cur = s.cur := rfl
@[simp] theorem modTag_clk (s : State) (r : Nat) (f : TagEntry → TagEntry) : (s.modTag r f).clk = s.clk := rfl
@[simp] theorem modTag_mem (s : State) (r : Nat) (f : TagEntry → TagEntry) : (s.modTag r f).mem = s.mem := rfl
@[simp] theorem modTag_hostMem (s : State) (r : Nat) (f : TagEntry → TagEntry) : (s.modTag r f).hostMem = s.hostMem := rfl
@[simp] theorem modTag_peerMem (s : State) (r : Nat) (f : TagEntry → TagEntry) : (s.modTag r f).peerMem = s.peerMem := rfl
@[simp] theorem modTag_poison (s : State) (r : Nat) (f : TagEntry → TagEntry) : (s.modTag r f).poison = s.poison := rfl
@[simp] theorem modTag_owners (s : State) (r : Nat) (f : TagEntry → TagEntry) : (s.modTag r f).owners = s.owners := rfl
@[simp] theorem modTag_hostPages (s : State) (r : Nat) (f : TagEntry → TagEntry) : (s.modTag r f).hostPages = s.hostPages := rfl
@[simp] theorem modTag_pri (s : State) (r : Nat) (f : TagEntry → TagEntry) : (s.modTag r f).pri = s.pri := rfl
@[simp] theorem modTag_priBad (s : State) (r : Nat) (f : TagEntry → TagEntry) : (s.modTag r f).priBad = s.priBad := rfl
@[simp] theorem modTag_encPages (s : State) (r : Nat) (f : TagEntry → TagEntry) : (s.modTag r f).encPages = s.encPages := rfl
@[simp] theorem modTag_encSpaces (s : State) (r : Nat) (f : TagEntry → TagEntry) : (s.modTag r f).encSpaces = s.encSpaces := rfl
@[simp] theorem modTag_contexts (s : State) (r : Nat) (f : TagEntry → TagEntry) : (s.modTag r f).contexts = s.contexts := rfl
@[simp] theorem modTag_graphs (s : State) (r : Nat) (f : TagEntry → TagEntry) : (s.modTag r f).graphs = s.graphs := rfl
@[simp] theorem modTag_runs (s : State) (r : Nat) (f : TagEntry → TagEntry) : (s.modTag r f).runs = s.runs := rfl
@[simp] theorem modTag_groups (s : State) (r : Nat) (f : TagEntry → TagEntry) : (s.modTag r f).groups = s.groups := rfl
@[simp] theorem modTag_threads (s : State) (r : Nat) (f : TagEntry → TagEntry) : (s.modTag r f).threads = s.threads := rfl
@[simp] theorem modTag_bundles (s : State) (r : Nat) (f : TagEntry → TagEntry) : (s.modTag r f).bundles = s.bundles := rfl
@[simp] theorem modTag_table (s : State) (r : Nat) (f : TagEntry → TagEntry) : (s.modTag r f).table = s.table := rfl
@[simp] theorem modTag_arrivals (s : State) (r : Nat) (f : TagEntry → TagEntry) : (s.modTag r f).arrivals = s.arrivals := rfl
@[simp] theorem modTag_blocks (s : State) (r : Nat) (f : TagEntry → TagEntry) : (s.modTag r f).blocks = s.blocks := rfl
@[simp] theorem modTag_out (s : State) (r : Nat) (f : TagEntry → TagEntry) : (s.modTag r f).out = s.out := rfl
@[simp] theorem modTag_oplog (s : State) (r : Nat) (f : TagEntry → TagEntry) : (s.modTag r f).oplog = s.oplog := rfl
@[simp] theorem modTag_ldxs (s : State) (r : Nat) (f : TagEntry → TagEntry) : (s.modTag r f).ldxs = s.ldxs := rfl
@[simp] theorem modTag_cores (s : State) (r : Nat) (f : TagEntry → TagEntry) : (s.modTag r f).cores = s.cores := rfl
@[simp] theorem modTag_clusters (s : State) (r : Nat) (f : TagEntry → TagEntry) : (s.modTag r f).clusters = s.clusters := rfl
@[simp] theorem modTag_diesS (s : State) (r : Nat) (f : TagEntry → TagEntry) : (s.modTag r f).diesS = s.diesS := rfl
@[simp] theorem modTag_mailbox (s : State) (r : Nat) (f : TagEntry → TagEntry) : (s.modTag r f).mailbox = s.mailbox := rfl
@[simp] theorem modTag_lines (s : State) (r : Nat) (f : TagEntry → TagEntry) : (s.modTag r f).lines = s.lines := rfl
@[simp] theorem modTag_snaps (s : State) (r : Nat) (f : TagEntry → TagEntry) : (s.modTag r f).snaps = s.snaps := rfl
@[simp] theorem modTag_progs (s : State) (r : Nat) (f : TagEntry → TagEntry) : (s.modTag r f).progs = s.progs := rfl
@[simp] theorem modTag_vfs (s : State) (r : Nat) (f : TagEntry → TagEntry) : (s.modTag r f).vfs = s.vfs := rfl
@[simp] theorem modTag_ports (s : State) (r : Nat) (f : TagEntry → TagEntry) : (s.modTag r f).ports = s.ports := rfl
@[simp] theorem modTag_peers (s : State) (r : Nat) (f : TagEntry → TagEntry) : (s.modTag r f).peers = s.peers := rfl
@[simp] theorem modTag_pkg (s : State) (r : Nat) (f : TagEntry → TagEntry) : (s.modTag r f).pkg = s.pkg := rfl
@[simp] theorem modTag_held (s : State) (r : Nat) (f : TagEntry → TagEntry) : (s.modTag r f).held = s.held := rfl
@[simp] theorem modTag_waiting (s : State) (r : Nat) (f : TagEntry → TagEntry) : (s.modTag r f).waiting = s.waiting := rfl
@[simp] theorem modTag_hostResp (s : State) (r : Nat) (f : TagEntry → TagEntry) : (s.modTag r f).hostResp = s.hostResp := rfl

/-! modPort changes `ports` alone. -/

@[simp] theorem modPort_agenda (s : State) (k : Nat) (f : FPort → FPort) : (s.modPort k f).agenda = s.agenda := rfl
@[simp] theorem modPort_tick (s : State) (k : Nat) (f : FPort → FPort) : (s.modPort k f).tick = s.tick := rfl
@[simp] theorem modPort_free (s : State) (k : Nat) (f : FPort → FPort) : (s.modPort k f).free = s.free := rfl
@[simp] theorem modPort_seq (s : State) (k : Nat) (f : FPort → FPort) : (s.modPort k f).seq = s.seq := rfl
@[simp] theorem modPort_cur (s : State) (k : Nat) (f : FPort → FPort) : (s.modPort k f).cur = s.cur := rfl
@[simp] theorem modPort_clk (s : State) (k : Nat) (f : FPort → FPort) : (s.modPort k f).clk = s.clk := rfl
@[simp] theorem modPort_mem (s : State) (k : Nat) (f : FPort → FPort) : (s.modPort k f).mem = s.mem := rfl
@[simp] theorem modPort_hostMem (s : State) (k : Nat) (f : FPort → FPort) : (s.modPort k f).hostMem = s.hostMem := rfl
@[simp] theorem modPort_peerMem (s : State) (k : Nat) (f : FPort → FPort) : (s.modPort k f).peerMem = s.peerMem := rfl
@[simp] theorem modPort_poison (s : State) (k : Nat) (f : FPort → FPort) : (s.modPort k f).poison = s.poison := rfl
@[simp] theorem modPort_owners (s : State) (k : Nat) (f : FPort → FPort) : (s.modPort k f).owners = s.owners := rfl
@[simp] theorem modPort_hostPages (s : State) (k : Nat) (f : FPort → FPort) : (s.modPort k f).hostPages = s.hostPages := rfl
@[simp] theorem modPort_pri (s : State) (k : Nat) (f : FPort → FPort) : (s.modPort k f).pri = s.pri := rfl
@[simp] theorem modPort_priBad (s : State) (k : Nat) (f : FPort → FPort) : (s.modPort k f).priBad = s.priBad := rfl
@[simp] theorem modPort_encPages (s : State) (k : Nat) (f : FPort → FPort) : (s.modPort k f).encPages = s.encPages := rfl
@[simp] theorem modPort_encSpaces (s : State) (k : Nat) (f : FPort → FPort) : (s.modPort k f).encSpaces = s.encSpaces := rfl
@[simp] theorem modPort_contexts (s : State) (k : Nat) (f : FPort → FPort) : (s.modPort k f).contexts = s.contexts := rfl
@[simp] theorem modPort_graphs (s : State) (k : Nat) (f : FPort → FPort) : (s.modPort k f).graphs = s.graphs := rfl
@[simp] theorem modPort_runs (s : State) (k : Nat) (f : FPort → FPort) : (s.modPort k f).runs = s.runs := rfl
@[simp] theorem modPort_groups (s : State) (k : Nat) (f : FPort → FPort) : (s.modPort k f).groups = s.groups := rfl
@[simp] theorem modPort_threads (s : State) (k : Nat) (f : FPort → FPort) : (s.modPort k f).threads = s.threads := rfl
@[simp] theorem modPort_tags (s : State) (k : Nat) (f : FPort → FPort) : (s.modPort k f).tags = s.tags := rfl
@[simp] theorem modPort_bundles (s : State) (k : Nat) (f : FPort → FPort) : (s.modPort k f).bundles = s.bundles := rfl
@[simp] theorem modPort_table (s : State) (k : Nat) (f : FPort → FPort) : (s.modPort k f).table = s.table := rfl
@[simp] theorem modPort_arrivals (s : State) (k : Nat) (f : FPort → FPort) : (s.modPort k f).arrivals = s.arrivals := rfl
@[simp] theorem modPort_blocks (s : State) (k : Nat) (f : FPort → FPort) : (s.modPort k f).blocks = s.blocks := rfl
@[simp] theorem modPort_out (s : State) (k : Nat) (f : FPort → FPort) : (s.modPort k f).out = s.out := rfl
@[simp] theorem modPort_oplog (s : State) (k : Nat) (f : FPort → FPort) : (s.modPort k f).oplog = s.oplog := rfl
@[simp] theorem modPort_ldxs (s : State) (k : Nat) (f : FPort → FPort) : (s.modPort k f).ldxs = s.ldxs := rfl
@[simp] theorem modPort_cores (s : State) (k : Nat) (f : FPort → FPort) : (s.modPort k f).cores = s.cores := rfl
@[simp] theorem modPort_clusters (s : State) (k : Nat) (f : FPort → FPort) : (s.modPort k f).clusters = s.clusters := rfl
@[simp] theorem modPort_diesS (s : State) (k : Nat) (f : FPort → FPort) : (s.modPort k f).diesS = s.diesS := rfl
@[simp] theorem modPort_mailbox (s : State) (k : Nat) (f : FPort → FPort) : (s.modPort k f).mailbox = s.mailbox := rfl
@[simp] theorem modPort_lines (s : State) (k : Nat) (f : FPort → FPort) : (s.modPort k f).lines = s.lines := rfl
@[simp] theorem modPort_snaps (s : State) (k : Nat) (f : FPort → FPort) : (s.modPort k f).snaps = s.snaps := rfl
@[simp] theorem modPort_progs (s : State) (k : Nat) (f : FPort → FPort) : (s.modPort k f).progs = s.progs := rfl
@[simp] theorem modPort_vfs (s : State) (k : Nat) (f : FPort → FPort) : (s.modPort k f).vfs = s.vfs := rfl
@[simp] theorem modPort_peers (s : State) (k : Nat) (f : FPort → FPort) : (s.modPort k f).peers = s.peers := rfl
@[simp] theorem modPort_pkg (s : State) (k : Nat) (f : FPort → FPort) : (s.modPort k f).pkg = s.pkg := rfl
@[simp] theorem modPort_held (s : State) (k : Nat) (f : FPort → FPort) : (s.modPort k f).held = s.held := rfl
@[simp] theorem modPort_waiting (s : State) (k : Nat) (f : FPort → FPort) : (s.modPort k f).waiting = s.waiting := rfl
@[simp] theorem modPort_hostResp (s : State) (k : Nat) (f : FPort → FPort) : (s.modPort k f).hostResp = s.hostResp := rfl

/-! modVf changes `vfs` alone. -/

@[simp] theorem modVf_agenda (s : State) (k : Nat) (f : Vf → Vf) : (s.modVf k f).agenda = s.agenda := rfl
@[simp] theorem modVf_tick (s : State) (k : Nat) (f : Vf → Vf) : (s.modVf k f).tick = s.tick := rfl
@[simp] theorem modVf_free (s : State) (k : Nat) (f : Vf → Vf) : (s.modVf k f).free = s.free := rfl
@[simp] theorem modVf_seq (s : State) (k : Nat) (f : Vf → Vf) : (s.modVf k f).seq = s.seq := rfl
@[simp] theorem modVf_cur (s : State) (k : Nat) (f : Vf → Vf) : (s.modVf k f).cur = s.cur := rfl
@[simp] theorem modVf_clk (s : State) (k : Nat) (f : Vf → Vf) : (s.modVf k f).clk = s.clk := rfl
@[simp] theorem modVf_mem (s : State) (k : Nat) (f : Vf → Vf) : (s.modVf k f).mem = s.mem := rfl
@[simp] theorem modVf_hostMem (s : State) (k : Nat) (f : Vf → Vf) : (s.modVf k f).hostMem = s.hostMem := rfl
@[simp] theorem modVf_peerMem (s : State) (k : Nat) (f : Vf → Vf) : (s.modVf k f).peerMem = s.peerMem := rfl
@[simp] theorem modVf_poison (s : State) (k : Nat) (f : Vf → Vf) : (s.modVf k f).poison = s.poison := rfl
@[simp] theorem modVf_owners (s : State) (k : Nat) (f : Vf → Vf) : (s.modVf k f).owners = s.owners := rfl
@[simp] theorem modVf_hostPages (s : State) (k : Nat) (f : Vf → Vf) : (s.modVf k f).hostPages = s.hostPages := rfl
@[simp] theorem modVf_pri (s : State) (k : Nat) (f : Vf → Vf) : (s.modVf k f).pri = s.pri := rfl
@[simp] theorem modVf_priBad (s : State) (k : Nat) (f : Vf → Vf) : (s.modVf k f).priBad = s.priBad := rfl
@[simp] theorem modVf_encPages (s : State) (k : Nat) (f : Vf → Vf) : (s.modVf k f).encPages = s.encPages := rfl
@[simp] theorem modVf_encSpaces (s : State) (k : Nat) (f : Vf → Vf) : (s.modVf k f).encSpaces = s.encSpaces := rfl
@[simp] theorem modVf_contexts (s : State) (k : Nat) (f : Vf → Vf) : (s.modVf k f).contexts = s.contexts := rfl
@[simp] theorem modVf_graphs (s : State) (k : Nat) (f : Vf → Vf) : (s.modVf k f).graphs = s.graphs := rfl
@[simp] theorem modVf_runs (s : State) (k : Nat) (f : Vf → Vf) : (s.modVf k f).runs = s.runs := rfl
@[simp] theorem modVf_groups (s : State) (k : Nat) (f : Vf → Vf) : (s.modVf k f).groups = s.groups := rfl
@[simp] theorem modVf_threads (s : State) (k : Nat) (f : Vf → Vf) : (s.modVf k f).threads = s.threads := rfl
@[simp] theorem modVf_tags (s : State) (k : Nat) (f : Vf → Vf) : (s.modVf k f).tags = s.tags := rfl
@[simp] theorem modVf_bundles (s : State) (k : Nat) (f : Vf → Vf) : (s.modVf k f).bundles = s.bundles := rfl
@[simp] theorem modVf_table (s : State) (k : Nat) (f : Vf → Vf) : (s.modVf k f).table = s.table := rfl
@[simp] theorem modVf_arrivals (s : State) (k : Nat) (f : Vf → Vf) : (s.modVf k f).arrivals = s.arrivals := rfl
@[simp] theorem modVf_blocks (s : State) (k : Nat) (f : Vf → Vf) : (s.modVf k f).blocks = s.blocks := rfl
@[simp] theorem modVf_out (s : State) (k : Nat) (f : Vf → Vf) : (s.modVf k f).out = s.out := rfl
@[simp] theorem modVf_oplog (s : State) (k : Nat) (f : Vf → Vf) : (s.modVf k f).oplog = s.oplog := rfl
@[simp] theorem modVf_ldxs (s : State) (k : Nat) (f : Vf → Vf) : (s.modVf k f).ldxs = s.ldxs := rfl
@[simp] theorem modVf_cores (s : State) (k : Nat) (f : Vf → Vf) : (s.modVf k f).cores = s.cores := rfl
@[simp] theorem modVf_clusters (s : State) (k : Nat) (f : Vf → Vf) : (s.modVf k f).clusters = s.clusters := rfl
@[simp] theorem modVf_diesS (s : State) (k : Nat) (f : Vf → Vf) : (s.modVf k f).diesS = s.diesS := rfl
@[simp] theorem modVf_mailbox (s : State) (k : Nat) (f : Vf → Vf) : (s.modVf k f).mailbox = s.mailbox := rfl
@[simp] theorem modVf_lines (s : State) (k : Nat) (f : Vf → Vf) : (s.modVf k f).lines = s.lines := rfl
@[simp] theorem modVf_snaps (s : State) (k : Nat) (f : Vf → Vf) : (s.modVf k f).snaps = s.snaps := rfl
@[simp] theorem modVf_progs (s : State) (k : Nat) (f : Vf → Vf) : (s.modVf k f).progs = s.progs := rfl
@[simp] theorem modVf_ports (s : State) (k : Nat) (f : Vf → Vf) : (s.modVf k f).ports = s.ports := rfl
@[simp] theorem modVf_peers (s : State) (k : Nat) (f : Vf → Vf) : (s.modVf k f).peers = s.peers := rfl
@[simp] theorem modVf_pkg (s : State) (k : Nat) (f : Vf → Vf) : (s.modVf k f).pkg = s.pkg := rfl
@[simp] theorem modVf_held (s : State) (k : Nat) (f : Vf → Vf) : (s.modVf k f).held = s.held := rfl
@[simp] theorem modVf_waiting (s : State) (k : Nat) (f : Vf → Vf) : (s.modVf k f).waiting = s.waiting := rfl
@[simp] theorem modVf_hostResp (s : State) (k : Nat) (f : Vf → Vf) : (s.modVf k f).hostResp = s.hostResp := rfl

/-! modLane changes `bundles` alone. -/

@[simp] theorem modLane_agenda (s : State) (p : PortId) (r : Nat) (f : Lane → Lane) : (s.modLane p r f).agenda = s.agenda := rfl
@[simp] theorem modLane_tick (s : State) (p : PortId) (r : Nat) (f : Lane → Lane) : (s.modLane p r f).tick = s.tick := rfl
@[simp] theorem modLane_free (s : State) (p : PortId) (r : Nat) (f : Lane → Lane) : (s.modLane p r f).free = s.free := rfl
@[simp] theorem modLane_seq (s : State) (p : PortId) (r : Nat) (f : Lane → Lane) : (s.modLane p r f).seq = s.seq := rfl
@[simp] theorem modLane_cur (s : State) (p : PortId) (r : Nat) (f : Lane → Lane) : (s.modLane p r f).cur = s.cur := rfl
@[simp] theorem modLane_clk (s : State) (p : PortId) (r : Nat) (f : Lane → Lane) : (s.modLane p r f).clk = s.clk := rfl
@[simp] theorem modLane_mem (s : State) (p : PortId) (r : Nat) (f : Lane → Lane) : (s.modLane p r f).mem = s.mem := rfl
@[simp] theorem modLane_hostMem (s : State) (p : PortId) (r : Nat) (f : Lane → Lane) : (s.modLane p r f).hostMem = s.hostMem := rfl
@[simp] theorem modLane_peerMem (s : State) (p : PortId) (r : Nat) (f : Lane → Lane) : (s.modLane p r f).peerMem = s.peerMem := rfl
@[simp] theorem modLane_poison (s : State) (p : PortId) (r : Nat) (f : Lane → Lane) : (s.modLane p r f).poison = s.poison := rfl
@[simp] theorem modLane_owners (s : State) (p : PortId) (r : Nat) (f : Lane → Lane) : (s.modLane p r f).owners = s.owners := rfl
@[simp] theorem modLane_hostPages (s : State) (p : PortId) (r : Nat) (f : Lane → Lane) : (s.modLane p r f).hostPages = s.hostPages := rfl
@[simp] theorem modLane_pri (s : State) (p : PortId) (r : Nat) (f : Lane → Lane) : (s.modLane p r f).pri = s.pri := rfl
@[simp] theorem modLane_priBad (s : State) (p : PortId) (r : Nat) (f : Lane → Lane) : (s.modLane p r f).priBad = s.priBad := rfl
@[simp] theorem modLane_encPages (s : State) (p : PortId) (r : Nat) (f : Lane → Lane) : (s.modLane p r f).encPages = s.encPages := rfl
@[simp] theorem modLane_encSpaces (s : State) (p : PortId) (r : Nat) (f : Lane → Lane) : (s.modLane p r f).encSpaces = s.encSpaces := rfl
@[simp] theorem modLane_contexts (s : State) (p : PortId) (r : Nat) (f : Lane → Lane) : (s.modLane p r f).contexts = s.contexts := rfl
@[simp] theorem modLane_graphs (s : State) (p : PortId) (r : Nat) (f : Lane → Lane) : (s.modLane p r f).graphs = s.graphs := rfl
@[simp] theorem modLane_runs (s : State) (p : PortId) (r : Nat) (f : Lane → Lane) : (s.modLane p r f).runs = s.runs := rfl
@[simp] theorem modLane_groups (s : State) (p : PortId) (r : Nat) (f : Lane → Lane) : (s.modLane p r f).groups = s.groups := rfl
@[simp] theorem modLane_threads (s : State) (p : PortId) (r : Nat) (f : Lane → Lane) : (s.modLane p r f).threads = s.threads := rfl
@[simp] theorem modLane_tags (s : State) (p : PortId) (r : Nat) (f : Lane → Lane) : (s.modLane p r f).tags = s.tags := rfl
@[simp] theorem modLane_table (s : State) (p : PortId) (r : Nat) (f : Lane → Lane) : (s.modLane p r f).table = s.table := rfl
@[simp] theorem modLane_arrivals (s : State) (p : PortId) (r : Nat) (f : Lane → Lane) : (s.modLane p r f).arrivals = s.arrivals := rfl
@[simp] theorem modLane_blocks (s : State) (p : PortId) (r : Nat) (f : Lane → Lane) : (s.modLane p r f).blocks = s.blocks := rfl
@[simp] theorem modLane_out (s : State) (p : PortId) (r : Nat) (f : Lane → Lane) : (s.modLane p r f).out = s.out := rfl
@[simp] theorem modLane_oplog (s : State) (p : PortId) (r : Nat) (f : Lane → Lane) : (s.modLane p r f).oplog = s.oplog := rfl
@[simp] theorem modLane_ldxs (s : State) (p : PortId) (r : Nat) (f : Lane → Lane) : (s.modLane p r f).ldxs = s.ldxs := rfl
@[simp] theorem modLane_cores (s : State) (p : PortId) (r : Nat) (f : Lane → Lane) : (s.modLane p r f).cores = s.cores := rfl
@[simp] theorem modLane_clusters (s : State) (p : PortId) (r : Nat) (f : Lane → Lane) : (s.modLane p r f).clusters = s.clusters := rfl
@[simp] theorem modLane_diesS (s : State) (p : PortId) (r : Nat) (f : Lane → Lane) : (s.modLane p r f).diesS = s.diesS := rfl
@[simp] theorem modLane_mailbox (s : State) (p : PortId) (r : Nat) (f : Lane → Lane) : (s.modLane p r f).mailbox = s.mailbox := rfl
@[simp] theorem modLane_lines (s : State) (p : PortId) (r : Nat) (f : Lane → Lane) : (s.modLane p r f).lines = s.lines := rfl
@[simp] theorem modLane_snaps (s : State) (p : PortId) (r : Nat) (f : Lane → Lane) : (s.modLane p r f).snaps = s.snaps := rfl
@[simp] theorem modLane_progs (s : State) (p : PortId) (r : Nat) (f : Lane → Lane) : (s.modLane p r f).progs = s.progs := rfl
@[simp] theorem modLane_vfs (s : State) (p : PortId) (r : Nat) (f : Lane → Lane) : (s.modLane p r f).vfs = s.vfs := rfl
@[simp] theorem modLane_ports (s : State) (p : PortId) (r : Nat) (f : Lane → Lane) : (s.modLane p r f).ports = s.ports := rfl
@[simp] theorem modLane_peers (s : State) (p : PortId) (r : Nat) (f : Lane → Lane) : (s.modLane p r f).peers = s.peers := rfl
@[simp] theorem modLane_pkg (s : State) (p : PortId) (r : Nat) (f : Lane → Lane) : (s.modLane p r f).pkg = s.pkg := rfl
@[simp] theorem modLane_held (s : State) (p : PortId) (r : Nat) (f : Lane → Lane) : (s.modLane p r f).held = s.held := rfl
@[simp] theorem modLane_waiting (s : State) (p : PortId) (r : Nat) (f : Lane → Lane) : (s.modLane p r f).waiting = s.waiting := rfl
@[simp] theorem modLane_hostResp (s : State) (p : PortId) (r : Nat) (f : Lane → Lane) : (s.modLane p r f).hostResp = s.hostResp := rfl

/-! modCore changes `cores` alone. -/

@[simp] theorem modCore_agenda (s : State) (c : Nat) (f : Core → Core) : (s.modCore c f).agenda = s.agenda := by unfold State.modCore; split <;> rfl
@[simp] theorem modCore_tick (s : State) (c : Nat) (f : Core → Core) : (s.modCore c f).tick = s.tick := by unfold State.modCore; split <;> rfl
@[simp] theorem modCore_free (s : State) (c : Nat) (f : Core → Core) : (s.modCore c f).free = s.free := by unfold State.modCore; split <;> rfl
@[simp] theorem modCore_seq (s : State) (c : Nat) (f : Core → Core) : (s.modCore c f).seq = s.seq := by unfold State.modCore; split <;> rfl
@[simp] theorem modCore_cur (s : State) (c : Nat) (f : Core → Core) : (s.modCore c f).cur = s.cur := by unfold State.modCore; split <;> rfl
@[simp] theorem modCore_clk (s : State) (c : Nat) (f : Core → Core) : (s.modCore c f).clk = s.clk := by unfold State.modCore; split <;> rfl
@[simp] theorem modCore_mem (s : State) (c : Nat) (f : Core → Core) : (s.modCore c f).mem = s.mem := by unfold State.modCore; split <;> rfl
@[simp] theorem modCore_hostMem (s : State) (c : Nat) (f : Core → Core) : (s.modCore c f).hostMem = s.hostMem := by unfold State.modCore; split <;> rfl
@[simp] theorem modCore_peerMem (s : State) (c : Nat) (f : Core → Core) : (s.modCore c f).peerMem = s.peerMem := by unfold State.modCore; split <;> rfl
@[simp] theorem modCore_poison (s : State) (c : Nat) (f : Core → Core) : (s.modCore c f).poison = s.poison := by unfold State.modCore; split <;> rfl
@[simp] theorem modCore_owners (s : State) (c : Nat) (f : Core → Core) : (s.modCore c f).owners = s.owners := by unfold State.modCore; split <;> rfl
@[simp] theorem modCore_hostPages (s : State) (c : Nat) (f : Core → Core) : (s.modCore c f).hostPages = s.hostPages := by unfold State.modCore; split <;> rfl
@[simp] theorem modCore_pri (s : State) (c : Nat) (f : Core → Core) : (s.modCore c f).pri = s.pri := by unfold State.modCore; split <;> rfl
@[simp] theorem modCore_priBad (s : State) (c : Nat) (f : Core → Core) : (s.modCore c f).priBad = s.priBad := by unfold State.modCore; split <;> rfl
@[simp] theorem modCore_encPages (s : State) (c : Nat) (f : Core → Core) : (s.modCore c f).encPages = s.encPages := by unfold State.modCore; split <;> rfl
@[simp] theorem modCore_encSpaces (s : State) (c : Nat) (f : Core → Core) : (s.modCore c f).encSpaces = s.encSpaces := by unfold State.modCore; split <;> rfl
@[simp] theorem modCore_contexts (s : State) (c : Nat) (f : Core → Core) : (s.modCore c f).contexts = s.contexts := by unfold State.modCore; split <;> rfl
@[simp] theorem modCore_graphs (s : State) (c : Nat) (f : Core → Core) : (s.modCore c f).graphs = s.graphs := by unfold State.modCore; split <;> rfl
@[simp] theorem modCore_runs (s : State) (c : Nat) (f : Core → Core) : (s.modCore c f).runs = s.runs := by unfold State.modCore; split <;> rfl
@[simp] theorem modCore_groups (s : State) (c : Nat) (f : Core → Core) : (s.modCore c f).groups = s.groups := by unfold State.modCore; split <;> rfl
@[simp] theorem modCore_threads (s : State) (c : Nat) (f : Core → Core) : (s.modCore c f).threads = s.threads := by unfold State.modCore; split <;> rfl
@[simp] theorem modCore_tags (s : State) (c : Nat) (f : Core → Core) : (s.modCore c f).tags = s.tags := by unfold State.modCore; split <;> rfl
@[simp] theorem modCore_bundles (s : State) (c : Nat) (f : Core → Core) : (s.modCore c f).bundles = s.bundles := by unfold State.modCore; split <;> rfl
@[simp] theorem modCore_table (s : State) (c : Nat) (f : Core → Core) : (s.modCore c f).table = s.table := by unfold State.modCore; split <;> rfl
@[simp] theorem modCore_arrivals (s : State) (c : Nat) (f : Core → Core) : (s.modCore c f).arrivals = s.arrivals := by unfold State.modCore; split <;> rfl
@[simp] theorem modCore_blocks (s : State) (c : Nat) (f : Core → Core) : (s.modCore c f).blocks = s.blocks := by unfold State.modCore; split <;> rfl
@[simp] theorem modCore_out (s : State) (c : Nat) (f : Core → Core) : (s.modCore c f).out = s.out := by unfold State.modCore; split <;> rfl
@[simp] theorem modCore_oplog (s : State) (c : Nat) (f : Core → Core) : (s.modCore c f).oplog = s.oplog := by unfold State.modCore; split <;> rfl
@[simp] theorem modCore_ldxs (s : State) (c : Nat) (f : Core → Core) : (s.modCore c f).ldxs = s.ldxs := by unfold State.modCore; split <;> rfl
@[simp] theorem modCore_clusters (s : State) (c : Nat) (f : Core → Core) : (s.modCore c f).clusters = s.clusters := by unfold State.modCore; split <;> rfl
@[simp] theorem modCore_diesS (s : State) (c : Nat) (f : Core → Core) : (s.modCore c f).diesS = s.diesS := by unfold State.modCore; split <;> rfl
@[simp] theorem modCore_mailbox (s : State) (c : Nat) (f : Core → Core) : (s.modCore c f).mailbox = s.mailbox := by unfold State.modCore; split <;> rfl
@[simp] theorem modCore_lines (s : State) (c : Nat) (f : Core → Core) : (s.modCore c f).lines = s.lines := by unfold State.modCore; split <;> rfl
@[simp] theorem modCore_snaps (s : State) (c : Nat) (f : Core → Core) : (s.modCore c f).snaps = s.snaps := by unfold State.modCore; split <;> rfl
@[simp] theorem modCore_progs (s : State) (c : Nat) (f : Core → Core) : (s.modCore c f).progs = s.progs := by unfold State.modCore; split <;> rfl
@[simp] theorem modCore_vfs (s : State) (c : Nat) (f : Core → Core) : (s.modCore c f).vfs = s.vfs := by unfold State.modCore; split <;> rfl
@[simp] theorem modCore_ports (s : State) (c : Nat) (f : Core → Core) : (s.modCore c f).ports = s.ports := by unfold State.modCore; split <;> rfl
@[simp] theorem modCore_peers (s : State) (c : Nat) (f : Core → Core) : (s.modCore c f).peers = s.peers := by unfold State.modCore; split <;> rfl
@[simp] theorem modCore_pkg (s : State) (c : Nat) (f : Core → Core) : (s.modCore c f).pkg = s.pkg := by unfold State.modCore; split <;> rfl
@[simp] theorem modCore_held (s : State) (c : Nat) (f : Core → Core) : (s.modCore c f).held = s.held := by unfold State.modCore; split <;> rfl
@[simp] theorem modCore_waiting (s : State) (c : Nat) (f : Core → Core) : (s.modCore c f).waiting = s.waiting := by unfold State.modCore; split <;> rfl
@[simp] theorem modCore_hostResp (s : State) (c : Nat) (f : Core → Core) : (s.modCore c f).hostResp = s.hostResp := by unfold State.modCore; split <;> rfl

/-! modCluster changes `clusters` alone. -/

@[simp] theorem modCluster_agenda (s : State) (c : Nat) (f : Cluster → Cluster) : (s.modCluster c f).agenda = s.agenda := by unfold State.modCluster; split <;> rfl
@[simp] theorem modCluster_tick (s : State) (c : Nat) (f : Cluster → Cluster) : (s.modCluster c f).tick = s.tick := by unfold State.modCluster; split <;> rfl
@[simp] theorem modCluster_free (s : State) (c : Nat) (f : Cluster → Cluster) : (s.modCluster c f).free = s.free := by unfold State.modCluster; split <;> rfl
@[simp] theorem modCluster_seq (s : State) (c : Nat) (f : Cluster → Cluster) : (s.modCluster c f).seq = s.seq := by unfold State.modCluster; split <;> rfl
@[simp] theorem modCluster_cur (s : State) (c : Nat) (f : Cluster → Cluster) : (s.modCluster c f).cur = s.cur := by unfold State.modCluster; split <;> rfl
@[simp] theorem modCluster_clk (s : State) (c : Nat) (f : Cluster → Cluster) : (s.modCluster c f).clk = s.clk := by unfold State.modCluster; split <;> rfl
@[simp] theorem modCluster_mem (s : State) (c : Nat) (f : Cluster → Cluster) : (s.modCluster c f).mem = s.mem := by unfold State.modCluster; split <;> rfl
@[simp] theorem modCluster_hostMem (s : State) (c : Nat) (f : Cluster → Cluster) : (s.modCluster c f).hostMem = s.hostMem := by unfold State.modCluster; split <;> rfl
@[simp] theorem modCluster_peerMem (s : State) (c : Nat) (f : Cluster → Cluster) : (s.modCluster c f).peerMem = s.peerMem := by unfold State.modCluster; split <;> rfl
@[simp] theorem modCluster_poison (s : State) (c : Nat) (f : Cluster → Cluster) : (s.modCluster c f).poison = s.poison := by unfold State.modCluster; split <;> rfl
@[simp] theorem modCluster_owners (s : State) (c : Nat) (f : Cluster → Cluster) : (s.modCluster c f).owners = s.owners := by unfold State.modCluster; split <;> rfl
@[simp] theorem modCluster_hostPages (s : State) (c : Nat) (f : Cluster → Cluster) : (s.modCluster c f).hostPages = s.hostPages := by unfold State.modCluster; split <;> rfl
@[simp] theorem modCluster_pri (s : State) (c : Nat) (f : Cluster → Cluster) : (s.modCluster c f).pri = s.pri := by unfold State.modCluster; split <;> rfl
@[simp] theorem modCluster_priBad (s : State) (c : Nat) (f : Cluster → Cluster) : (s.modCluster c f).priBad = s.priBad := by unfold State.modCluster; split <;> rfl
@[simp] theorem modCluster_encPages (s : State) (c : Nat) (f : Cluster → Cluster) : (s.modCluster c f).encPages = s.encPages := by unfold State.modCluster; split <;> rfl
@[simp] theorem modCluster_encSpaces (s : State) (c : Nat) (f : Cluster → Cluster) : (s.modCluster c f).encSpaces = s.encSpaces := by unfold State.modCluster; split <;> rfl
@[simp] theorem modCluster_contexts (s : State) (c : Nat) (f : Cluster → Cluster) : (s.modCluster c f).contexts = s.contexts := by unfold State.modCluster; split <;> rfl
@[simp] theorem modCluster_graphs (s : State) (c : Nat) (f : Cluster → Cluster) : (s.modCluster c f).graphs = s.graphs := by unfold State.modCluster; split <;> rfl
@[simp] theorem modCluster_runs (s : State) (c : Nat) (f : Cluster → Cluster) : (s.modCluster c f).runs = s.runs := by unfold State.modCluster; split <;> rfl
@[simp] theorem modCluster_groups (s : State) (c : Nat) (f : Cluster → Cluster) : (s.modCluster c f).groups = s.groups := by unfold State.modCluster; split <;> rfl
@[simp] theorem modCluster_threads (s : State) (c : Nat) (f : Cluster → Cluster) : (s.modCluster c f).threads = s.threads := by unfold State.modCluster; split <;> rfl
@[simp] theorem modCluster_tags (s : State) (c : Nat) (f : Cluster → Cluster) : (s.modCluster c f).tags = s.tags := by unfold State.modCluster; split <;> rfl
@[simp] theorem modCluster_bundles (s : State) (c : Nat) (f : Cluster → Cluster) : (s.modCluster c f).bundles = s.bundles := by unfold State.modCluster; split <;> rfl
@[simp] theorem modCluster_table (s : State) (c : Nat) (f : Cluster → Cluster) : (s.modCluster c f).table = s.table := by unfold State.modCluster; split <;> rfl
@[simp] theorem modCluster_arrivals (s : State) (c : Nat) (f : Cluster → Cluster) : (s.modCluster c f).arrivals = s.arrivals := by unfold State.modCluster; split <;> rfl
@[simp] theorem modCluster_blocks (s : State) (c : Nat) (f : Cluster → Cluster) : (s.modCluster c f).blocks = s.blocks := by unfold State.modCluster; split <;> rfl
@[simp] theorem modCluster_out (s : State) (c : Nat) (f : Cluster → Cluster) : (s.modCluster c f).out = s.out := by unfold State.modCluster; split <;> rfl
@[simp] theorem modCluster_oplog (s : State) (c : Nat) (f : Cluster → Cluster) : (s.modCluster c f).oplog = s.oplog := by unfold State.modCluster; split <;> rfl
@[simp] theorem modCluster_ldxs (s : State) (c : Nat) (f : Cluster → Cluster) : (s.modCluster c f).ldxs = s.ldxs := by unfold State.modCluster; split <;> rfl
@[simp] theorem modCluster_cores (s : State) (c : Nat) (f : Cluster → Cluster) : (s.modCluster c f).cores = s.cores := by unfold State.modCluster; split <;> rfl
@[simp] theorem modCluster_diesS (s : State) (c : Nat) (f : Cluster → Cluster) : (s.modCluster c f).diesS = s.diesS := by unfold State.modCluster; split <;> rfl
@[simp] theorem modCluster_mailbox (s : State) (c : Nat) (f : Cluster → Cluster) : (s.modCluster c f).mailbox = s.mailbox := by unfold State.modCluster; split <;> rfl
@[simp] theorem modCluster_lines (s : State) (c : Nat) (f : Cluster → Cluster) : (s.modCluster c f).lines = s.lines := by unfold State.modCluster; split <;> rfl
@[simp] theorem modCluster_snaps (s : State) (c : Nat) (f : Cluster → Cluster) : (s.modCluster c f).snaps = s.snaps := by unfold State.modCluster; split <;> rfl
@[simp] theorem modCluster_progs (s : State) (c : Nat) (f : Cluster → Cluster) : (s.modCluster c f).progs = s.progs := by unfold State.modCluster; split <;> rfl
@[simp] theorem modCluster_vfs (s : State) (c : Nat) (f : Cluster → Cluster) : (s.modCluster c f).vfs = s.vfs := by unfold State.modCluster; split <;> rfl
@[simp] theorem modCluster_ports (s : State) (c : Nat) (f : Cluster → Cluster) : (s.modCluster c f).ports = s.ports := by unfold State.modCluster; split <;> rfl
@[simp] theorem modCluster_peers (s : State) (c : Nat) (f : Cluster → Cluster) : (s.modCluster c f).peers = s.peers := by unfold State.modCluster; split <;> rfl
@[simp] theorem modCluster_pkg (s : State) (c : Nat) (f : Cluster → Cluster) : (s.modCluster c f).pkg = s.pkg := by unfold State.modCluster; split <;> rfl
@[simp] theorem modCluster_held (s : State) (c : Nat) (f : Cluster → Cluster) : (s.modCluster c f).held = s.held := by unfold State.modCluster; split <;> rfl
@[simp] theorem modCluster_waiting (s : State) (c : Nat) (f : Cluster → Cluster) : (s.modCluster c f).waiting = s.waiting := by unfold State.modCluster; split <;> rfl
@[simp] theorem modCluster_hostResp (s : State) (c : Nat) (f : Cluster → Cluster) : (s.modCluster c f).hostResp = s.hostResp := by unfold State.modCluster; split <;> rfl

/-! modDie changes `diesS` alone. -/

@[simp] theorem modDie_agenda (s : State) (d : Nat) (f : Die → Die) : (s.modDie d f).agenda = s.agenda := by unfold State.modDie; split <;> rfl
@[simp] theorem modDie_tick (s : State) (d : Nat) (f : Die → Die) : (s.modDie d f).tick = s.tick := by unfold State.modDie; split <;> rfl
@[simp] theorem modDie_free (s : State) (d : Nat) (f : Die → Die) : (s.modDie d f).free = s.free := by unfold State.modDie; split <;> rfl
@[simp] theorem modDie_seq (s : State) (d : Nat) (f : Die → Die) : (s.modDie d f).seq = s.seq := by unfold State.modDie; split <;> rfl
@[simp] theorem modDie_cur (s : State) (d : Nat) (f : Die → Die) : (s.modDie d f).cur = s.cur := by unfold State.modDie; split <;> rfl
@[simp] theorem modDie_clk (s : State) (d : Nat) (f : Die → Die) : (s.modDie d f).clk = s.clk := by unfold State.modDie; split <;> rfl
@[simp] theorem modDie_mem (s : State) (d : Nat) (f : Die → Die) : (s.modDie d f).mem = s.mem := by unfold State.modDie; split <;> rfl
@[simp] theorem modDie_hostMem (s : State) (d : Nat) (f : Die → Die) : (s.modDie d f).hostMem = s.hostMem := by unfold State.modDie; split <;> rfl
@[simp] theorem modDie_peerMem (s : State) (d : Nat) (f : Die → Die) : (s.modDie d f).peerMem = s.peerMem := by unfold State.modDie; split <;> rfl
@[simp] theorem modDie_poison (s : State) (d : Nat) (f : Die → Die) : (s.modDie d f).poison = s.poison := by unfold State.modDie; split <;> rfl
@[simp] theorem modDie_owners (s : State) (d : Nat) (f : Die → Die) : (s.modDie d f).owners = s.owners := by unfold State.modDie; split <;> rfl
@[simp] theorem modDie_hostPages (s : State) (d : Nat) (f : Die → Die) : (s.modDie d f).hostPages = s.hostPages := by unfold State.modDie; split <;> rfl
@[simp] theorem modDie_pri (s : State) (d : Nat) (f : Die → Die) : (s.modDie d f).pri = s.pri := by unfold State.modDie; split <;> rfl
@[simp] theorem modDie_priBad (s : State) (d : Nat) (f : Die → Die) : (s.modDie d f).priBad = s.priBad := by unfold State.modDie; split <;> rfl
@[simp] theorem modDie_encPages (s : State) (d : Nat) (f : Die → Die) : (s.modDie d f).encPages = s.encPages := by unfold State.modDie; split <;> rfl
@[simp] theorem modDie_encSpaces (s : State) (d : Nat) (f : Die → Die) : (s.modDie d f).encSpaces = s.encSpaces := by unfold State.modDie; split <;> rfl
@[simp] theorem modDie_contexts (s : State) (d : Nat) (f : Die → Die) : (s.modDie d f).contexts = s.contexts := by unfold State.modDie; split <;> rfl
@[simp] theorem modDie_graphs (s : State) (d : Nat) (f : Die → Die) : (s.modDie d f).graphs = s.graphs := by unfold State.modDie; split <;> rfl
@[simp] theorem modDie_runs (s : State) (d : Nat) (f : Die → Die) : (s.modDie d f).runs = s.runs := by unfold State.modDie; split <;> rfl
@[simp] theorem modDie_groups (s : State) (d : Nat) (f : Die → Die) : (s.modDie d f).groups = s.groups := by unfold State.modDie; split <;> rfl
@[simp] theorem modDie_threads (s : State) (d : Nat) (f : Die → Die) : (s.modDie d f).threads = s.threads := by unfold State.modDie; split <;> rfl
@[simp] theorem modDie_tags (s : State) (d : Nat) (f : Die → Die) : (s.modDie d f).tags = s.tags := by unfold State.modDie; split <;> rfl
@[simp] theorem modDie_bundles (s : State) (d : Nat) (f : Die → Die) : (s.modDie d f).bundles = s.bundles := by unfold State.modDie; split <;> rfl
@[simp] theorem modDie_table (s : State) (d : Nat) (f : Die → Die) : (s.modDie d f).table = s.table := by unfold State.modDie; split <;> rfl
@[simp] theorem modDie_arrivals (s : State) (d : Nat) (f : Die → Die) : (s.modDie d f).arrivals = s.arrivals := by unfold State.modDie; split <;> rfl
@[simp] theorem modDie_blocks (s : State) (d : Nat) (f : Die → Die) : (s.modDie d f).blocks = s.blocks := by unfold State.modDie; split <;> rfl
@[simp] theorem modDie_out (s : State) (d : Nat) (f : Die → Die) : (s.modDie d f).out = s.out := by unfold State.modDie; split <;> rfl
@[simp] theorem modDie_oplog (s : State) (d : Nat) (f : Die → Die) : (s.modDie d f).oplog = s.oplog := by unfold State.modDie; split <;> rfl
@[simp] theorem modDie_ldxs (s : State) (d : Nat) (f : Die → Die) : (s.modDie d f).ldxs = s.ldxs := by unfold State.modDie; split <;> rfl
@[simp] theorem modDie_cores (s : State) (d : Nat) (f : Die → Die) : (s.modDie d f).cores = s.cores := by unfold State.modDie; split <;> rfl
@[simp] theorem modDie_clusters (s : State) (d : Nat) (f : Die → Die) : (s.modDie d f).clusters = s.clusters := by unfold State.modDie; split <;> rfl
@[simp] theorem modDie_mailbox (s : State) (d : Nat) (f : Die → Die) : (s.modDie d f).mailbox = s.mailbox := by unfold State.modDie; split <;> rfl
@[simp] theorem modDie_lines (s : State) (d : Nat) (f : Die → Die) : (s.modDie d f).lines = s.lines := by unfold State.modDie; split <;> rfl
@[simp] theorem modDie_snaps (s : State) (d : Nat) (f : Die → Die) : (s.modDie d f).snaps = s.snaps := by unfold State.modDie; split <;> rfl
@[simp] theorem modDie_progs (s : State) (d : Nat) (f : Die → Die) : (s.modDie d f).progs = s.progs := by unfold State.modDie; split <;> rfl
@[simp] theorem modDie_vfs (s : State) (d : Nat) (f : Die → Die) : (s.modDie d f).vfs = s.vfs := by unfold State.modDie; split <;> rfl
@[simp] theorem modDie_ports (s : State) (d : Nat) (f : Die → Die) : (s.modDie d f).ports = s.ports := by unfold State.modDie; split <;> rfl
@[simp] theorem modDie_peers (s : State) (d : Nat) (f : Die → Die) : (s.modDie d f).peers = s.peers := by unfold State.modDie; split <;> rfl
@[simp] theorem modDie_pkg (s : State) (d : Nat) (f : Die → Die) : (s.modDie d f).pkg = s.pkg := by unfold State.modDie; split <;> rfl
@[simp] theorem modDie_held (s : State) (d : Nat) (f : Die → Die) : (s.modDie d f).held = s.held := by unfold State.modDie; split <;> rfl
@[simp] theorem modDie_waiting (s : State) (d : Nat) (f : Die → Die) : (s.modDie d f).waiting = s.waiting := by unfold State.modDie; split <;> rfl
@[simp] theorem modDie_hostResp (s : State) (d : Nat) (f : Die → Die) : (s.modDie d f).hostResp = s.hostResp := by unfold State.modDie; split <;> rfl

/-! modPart changes `cores` alone. -/

@[simp] theorem modPart_agenda (s : State) (c p : Nat) (f : PartCounters → PartCounters) : (s.modPart c p f).agenda = s.agenda := modCore_agenda _ _ _
@[simp] theorem modPart_tick (s : State) (c p : Nat) (f : PartCounters → PartCounters) : (s.modPart c p f).tick = s.tick := modCore_tick _ _ _
@[simp] theorem modPart_free (s : State) (c p : Nat) (f : PartCounters → PartCounters) : (s.modPart c p f).free = s.free := modCore_free _ _ _
@[simp] theorem modPart_seq (s : State) (c p : Nat) (f : PartCounters → PartCounters) : (s.modPart c p f).seq = s.seq := modCore_seq _ _ _
@[simp] theorem modPart_cur (s : State) (c p : Nat) (f : PartCounters → PartCounters) : (s.modPart c p f).cur = s.cur := modCore_cur _ _ _
@[simp] theorem modPart_clk (s : State) (c p : Nat) (f : PartCounters → PartCounters) : (s.modPart c p f).clk = s.clk := modCore_clk _ _ _
@[simp] theorem modPart_mem (s : State) (c p : Nat) (f : PartCounters → PartCounters) : (s.modPart c p f).mem = s.mem := modCore_mem _ _ _
@[simp] theorem modPart_hostMem (s : State) (c p : Nat) (f : PartCounters → PartCounters) : (s.modPart c p f).hostMem = s.hostMem := modCore_hostMem _ _ _
@[simp] theorem modPart_peerMem (s : State) (c p : Nat) (f : PartCounters → PartCounters) : (s.modPart c p f).peerMem = s.peerMem := modCore_peerMem _ _ _
@[simp] theorem modPart_poison (s : State) (c p : Nat) (f : PartCounters → PartCounters) : (s.modPart c p f).poison = s.poison := modCore_poison _ _ _
@[simp] theorem modPart_owners (s : State) (c p : Nat) (f : PartCounters → PartCounters) : (s.modPart c p f).owners = s.owners := modCore_owners _ _ _
@[simp] theorem modPart_hostPages (s : State) (c p : Nat) (f : PartCounters → PartCounters) : (s.modPart c p f).hostPages = s.hostPages := modCore_hostPages _ _ _
@[simp] theorem modPart_pri (s : State) (c p : Nat) (f : PartCounters → PartCounters) : (s.modPart c p f).pri = s.pri := modCore_pri _ _ _
@[simp] theorem modPart_priBad (s : State) (c p : Nat) (f : PartCounters → PartCounters) : (s.modPart c p f).priBad = s.priBad := modCore_priBad _ _ _
@[simp] theorem modPart_encPages (s : State) (c p : Nat) (f : PartCounters → PartCounters) : (s.modPart c p f).encPages = s.encPages := modCore_encPages _ _ _
@[simp] theorem modPart_encSpaces (s : State) (c p : Nat) (f : PartCounters → PartCounters) : (s.modPart c p f).encSpaces = s.encSpaces := modCore_encSpaces _ _ _
@[simp] theorem modPart_contexts (s : State) (c p : Nat) (f : PartCounters → PartCounters) : (s.modPart c p f).contexts = s.contexts := modCore_contexts _ _ _
@[simp] theorem modPart_graphs (s : State) (c p : Nat) (f : PartCounters → PartCounters) : (s.modPart c p f).graphs = s.graphs := modCore_graphs _ _ _
@[simp] theorem modPart_runs (s : State) (c p : Nat) (f : PartCounters → PartCounters) : (s.modPart c p f).runs = s.runs := modCore_runs _ _ _
@[simp] theorem modPart_groups (s : State) (c p : Nat) (f : PartCounters → PartCounters) : (s.modPart c p f).groups = s.groups := modCore_groups _ _ _
@[simp] theorem modPart_threads (s : State) (c p : Nat) (f : PartCounters → PartCounters) : (s.modPart c p f).threads = s.threads := modCore_threads _ _ _
@[simp] theorem modPart_tags (s : State) (c p : Nat) (f : PartCounters → PartCounters) : (s.modPart c p f).tags = s.tags := modCore_tags _ _ _
@[simp] theorem modPart_bundles (s : State) (c p : Nat) (f : PartCounters → PartCounters) : (s.modPart c p f).bundles = s.bundles := modCore_bundles _ _ _
@[simp] theorem modPart_table (s : State) (c p : Nat) (f : PartCounters → PartCounters) : (s.modPart c p f).table = s.table := modCore_table _ _ _
@[simp] theorem modPart_arrivals (s : State) (c p : Nat) (f : PartCounters → PartCounters) : (s.modPart c p f).arrivals = s.arrivals := modCore_arrivals _ _ _
@[simp] theorem modPart_blocks (s : State) (c p : Nat) (f : PartCounters → PartCounters) : (s.modPart c p f).blocks = s.blocks := modCore_blocks _ _ _
@[simp] theorem modPart_out (s : State) (c p : Nat) (f : PartCounters → PartCounters) : (s.modPart c p f).out = s.out := modCore_out _ _ _
@[simp] theorem modPart_oplog (s : State) (c p : Nat) (f : PartCounters → PartCounters) : (s.modPart c p f).oplog = s.oplog := modCore_oplog _ _ _
@[simp] theorem modPart_ldxs (s : State) (c p : Nat) (f : PartCounters → PartCounters) : (s.modPart c p f).ldxs = s.ldxs := modCore_ldxs _ _ _
@[simp] theorem modPart_clusters (s : State) (c p : Nat) (f : PartCounters → PartCounters) : (s.modPart c p f).clusters = s.clusters := modCore_clusters _ _ _
@[simp] theorem modPart_diesS (s : State) (c p : Nat) (f : PartCounters → PartCounters) : (s.modPart c p f).diesS = s.diesS := modCore_diesS _ _ _
@[simp] theorem modPart_mailbox (s : State) (c p : Nat) (f : PartCounters → PartCounters) : (s.modPart c p f).mailbox = s.mailbox := modCore_mailbox _ _ _
@[simp] theorem modPart_lines (s : State) (c p : Nat) (f : PartCounters → PartCounters) : (s.modPart c p f).lines = s.lines := modCore_lines _ _ _
@[simp] theorem modPart_snaps (s : State) (c p : Nat) (f : PartCounters → PartCounters) : (s.modPart c p f).snaps = s.snaps := modCore_snaps _ _ _
@[simp] theorem modPart_progs (s : State) (c p : Nat) (f : PartCounters → PartCounters) : (s.modPart c p f).progs = s.progs := modCore_progs _ _ _
@[simp] theorem modPart_vfs (s : State) (c p : Nat) (f : PartCounters → PartCounters) : (s.modPart c p f).vfs = s.vfs := modCore_vfs _ _ _
@[simp] theorem modPart_ports (s : State) (c p : Nat) (f : PartCounters → PartCounters) : (s.modPart c p f).ports = s.ports := modCore_ports _ _ _
@[simp] theorem modPart_peers (s : State) (c p : Nat) (f : PartCounters → PartCounters) : (s.modPart c p f).peers = s.peers := modCore_peers _ _ _
@[simp] theorem modPart_pkg (s : State) (c p : Nat) (f : PartCounters → PartCounters) : (s.modPart c p f).pkg = s.pkg := modCore_pkg _ _ _
@[simp] theorem modPart_held (s : State) (c p : Nat) (f : PartCounters → PartCounters) : (s.modPart c p f).held = s.held := modCore_held _ _ _
@[simp] theorem modPart_waiting (s : State) (c p : Nat) (f : PartCounters → PartCounters) : (s.modPart c p f).waiting = s.waiting := modCore_waiting _ _ _
@[simp] theorem modPart_hostResp (s : State) (c p : Nat) (f : PartCounters → PartCounters) : (s.modPart c p f).hostResp = s.hostResp := modCore_hostResp _ _ _

end Sys2Proof.Machine
end

