-- ==== Sys2Proof/Laws/MemOk.lean ====
section
/-! SUPPORT. The canonical form of memory is kept by the operations over memory, races, members, traps, traces and the shared path of a slot. `ok_f` says of `f`: where every memory of a state is in its
canonical form, so is every memory of the state that `f` hands on. -/

namespace Sys2Proof.Machine

open Sys2Proof

/-! Base -/

/-! Updates of other parts of the state -/

theorem memOk_proj {s : State} (h : s.memOk) :
    s.mem.wf = true ∧ s.hostMem.wf = true ∧ s.peerMem.wf = true ∧ ∀ g ∈ s.groups, g.scr.wf = true := h

theorem ok_foldl {α : Type} {f : State → α → State} {s : State} {l : List α} (h : s.memOk)
    (hf : ∀ t x, t.memOk → (f t x).memOk) : (l.foldl f s).memOk := by
  induction l generalizing s with
  | nil => exact h
  | cons x l ih => exact ih (hf s x h)

theorem memOk_mk (agenda : List Move) (tick : Nat) (free : Nat) (seq : Nat) (cur : Option (PortId × Nat)) (clk : DWord) (mem : Memory) (hostMem : Memory) (peerMem : Memory) (poison : List Place) (owners : List (Nat × Nat)) (hostPages : List HostPage) (pri : List PriRequest) (priBad : List (Nat × Nat × Nat)) (encPages : List EncPage) (encSpaces : List EncSpace) (contexts : List Context) (graphs : List Graph) (runs : List Run) (groups : List Group) (threads : List Thread) (tags : List TagEntry) (bundles : List Bundle) (table : List PcEntry) (arrivals : List Arrival) (blocks : List Block) (out : List OutStore) (oplog : List LogEntry) (ldxs : List LdxMove) (cores : List Core) (clusters : List Cluster) (diesS : List Die) (mailbox : List Signal) (lines : List RaceLine) (snaps : List Snap) (progs : List ((Nat × Nat × Nat) × Nat)) (vfs : List Vf) (ports : List FPort) (peers : List PeerBind) (pkg : Package) (held : List HeldLaunch) (waiting : List Instr) (hostResp : HostResp) :
    State.memOk (State.mk agenda tick free seq cur clk mem hostMem peerMem poison owners hostPages pri priBad encPages encSpaces contexts graphs runs groups threads tags bundles table arrivals blocks out oplog ldxs cores clusters diesS mailbox lines snaps progs vfs ports peers pkg held waiting hostResp) ↔
      Memory.wf mem = true ∧ Memory.wf hostMem = true ∧ Memory.wf peerMem = true ∧ ∀ g ∈ groups, g.scr.wf = true := Iff.rfl

/-- Every state that an act, a reading, an issue or an outcome hands on has its memories in canonical form. -/
def Act.memOk : Act → Prop
  | .done s _ => s.memOk
  | .alt s => s.memOk
  | .fault s _ => s.memOk
  | .stall s _ => s.memOk
  | .park s _ => s.memOk

def Read.memOk : Read → Prop
  | .ok s _ _ => s.memOk
  | .fault s _ => s.memOk
  | .stall s _ => s.memOk

def Issued.memOk : Issued → Prop
  | .ran s => s.memOk
  | .run _ s => s.memOk

def outOk : Host.Outcome State Fault Refusal → Prop
  | .next s => s.memOk
  | .fault _ => True
  | .refused _ => True

theorem ok_wr {g : Group} (h : g.scr.wf = true) (off n v : Nat) : (g.wr off n v).scr.wf = true := Memory.writeN_wf _ _ _ h

theorem ok_getD {o : Option State} {d : State} (hd : d.memOk) (ho : ∀ t, o = some t → t.memOk) : (o.getD d).memOk := by
  cases o with
  | none => exact hd
  | some t => exact ho t rfl

theorem ok_ite {c : Prop} [Decidable c] {a b : State} (ha : a.memOk) (hb : b.memOk) : (if c then a else b).memOk := by
  split
  · exact ha
  · exact hb

theorem ok_ite1 {α : Type} {c : Prop} [Decidable c] {a b : State × α} (ha : a.1.memOk) (hb : b.1.memOk) : (if c then a else b).1.memOk := by
  split
  · exact ha
  · exact hb

/-- A group is added. -/
theorem memOk_addGroup {s : State} (h : s.memOk) {g : Group} (hg : g.scr.wf = true) :
    State.memOk { s with groups := s.groups ++ [g] } := by
  refine ⟨h.1, h.2.1, h.2.2.1, fun x hx => ?_⟩
  rcases List.mem_append.mp hx with hx | hx
  · exact h.2.2.2 x hx
  · rw [List.mem_singleton.mp hx]; exact hg


/-- A fold of memory operations keeps the canonical form. -/
theorem wf_foldl {α : Type} {f : Memory → α → Memory} {m : Memory} {l : List α} (h : m.wf = true)
    (hf : ∀ k x, k.wf = true → (f k x).wf = true) : (l.foldl f m).wf = true := by
  induction l generalizing m with
  | nil => exact h
  | cons x l ih => exact ih (hf m x h)

/-- Every group is changed. -/
theorem memOk_mapGroups {s : State} (h : s.memOk) {f : Group → Group} (hf : ∀ g, g.scr.wf = true → (f g).scr.wf = true) :
    State.memOk { s with groups := s.groups.map f } := by
  refine ⟨h.1, h.2.1, h.2.2.1, fun x hx => ?_⟩
  obtain ⟨g, hg, rfl⟩ := List.mem_map.mp hx
  exact hf g (h.2.2.2 g hg)

theorem ok_modThread {s : State} (h : s.memOk) (r : Nat) (f : Thread → Thread) : (State.modThread s r f).memOk := by
  unfold State.modThread
  grind [memOk_mk, memOk_proj, ok_foldl]

theorem ok_modGroup {s : State} (h : s.memOk) (k : Nat) (f : Group → Group)
    (hf : ∀ g, g.scr.wf = true → (f g).scr.wf = true) : (s.modGroup k f).memOk := by
  refine ⟨h.1, h.2.1, h.2.2.1, fun g hg => ?_⟩
  simp only [State.modGroup, List.mem_map] at hg
  obtain ⟨x, hx, rfl⟩ := hg
  split
  · exact hf x (h.2.2.2 x hx)
  · exact h.2.2.2 x hx

theorem ok_modCtx {s : State} (h : s.memOk) (id : Nat) (f : Context → Context) : (State.modCtx s id f).memOk := by
  unfold State.modCtx
  grind [memOk_mk, memOk_proj, ok_foldl]

theorem ok_modRun {s : State} (h : s.memOk) (id : Nat) (f : Run → Run) : (State.modRun s id f).memOk := by
  unfold State.modRun
  grind [memOk_mk, memOk_proj, ok_foldl]

theorem ok_modGraph {s : State} (h : s.memOk) (id : Nat) (f : Graph → Graph) : (State.modGraph s id f).memOk := by
  unfold State.modGraph
  grind [memOk_mk, memOk_proj, ok_foldl]

theorem ok_modBundle {s : State} (h : s.memOk) (p : PortId) (f : Bundle → Bundle) : (State.modBundle s p f).memOk := by
  unfold State.modBundle
  grind [memOk_mk, memOk_proj, ok_foldl]

theorem ok_modTag {s : State} (h : s.memOk) (r : Nat) (f : TagEntry → TagEntry) : (State.modTag s r f).memOk := by
  unfold State.modTag
  grind [memOk_mk, memOk_proj, ok_foldl]

theorem ok_modPort {s : State} (h : s.memOk) (id : Nat) (f : FPort → FPort) : (State.modPort s id f).memOk := by
  unfold State.modPort
  grind [memOk_mk, memOk_proj, ok_foldl]

theorem ok_modVf {s : State} (h : s.memOk) (id : Nat) (f : Vf → Vf) : (State.modVf s id f).memOk := by
  unfold State.modVf
  grind [memOk_mk, memOk_proj, ok_foldl]

theorem ok_modCore {s : State} (h : s.memOk) (c : Nat) (f : Core → Core) : (State.modCore s c f).memOk := by
  unfold State.modCore
  grind [memOk_mk, memOk_proj, ok_foldl]

theorem ok_modCluster {s : State} (h : s.memOk) (c : Nat) (f : Cluster → Cluster) : (State.modCluster s c f).memOk := by
  unfold State.modCluster
  grind [memOk_mk, memOk_proj, ok_foldl]

theorem ok_modDie {s : State} (h : s.memOk) (d : Nat) (f : Die → Die) : (State.modDie s d f).memOk := by
  unfold State.modDie
  grind [memOk_mk, memOk_proj, ok_foldl]

theorem ok_modPart {s : State} (h : s.memOk) (core : Nat) (part : Nat) (f : PartCounters → PartCounters) : (State.modPart s core part f).memOk := by
  unfold State.modPart
  grind [memOk_mk, memOk_proj, ok_foldl, ok_modCore]

theorem ok_modLane {s : State} (h : s.memOk) (p : PortId) (r : Nat) (f : Lane → Lane) : (State.modLane s p r f).memOk := by
  unfold State.modLane
  grind [memOk_mk, memOk_proj, ok_foldl, ok_modBundle]

theorem ok_setCir {s : State} (h : s.memOk) (run : Nat) (i : Nat) : (State.setCir s run i).memOk := by
  unfold State.setCir
  grind [memOk_mk, memOk_proj, ok_foldl, ok_modRun]

theorem ok_putByte {s : State} (h : s.memOk) (p : Place) (b : Byte) : (s.putByte p b).memOk := by
  cases p with
  | dev a => exact ⟨Memory.write_wf _ _ _ h.1, h.2⟩
  | host vf a => exact ⟨h.1, Memory.write_wf _ _ _ h.2.1, h.2.2⟩
  | peer k a => exact ⟨h.1, h.2.1, Memory.write_wf _ _ _ h.2.2.1, h.2.2.2⟩
  | scr gid o => exact ok_modGroup h _ _ fun g hg => Memory.write_wf _ _ _ hg

theorem ok_askPeer {s : State} (h : s.memOk) (l : List Byte) (p : Place) : (State.askPeer s l p).memOk := by
  unfold State.askPeer
  grind [memOk_mk, memOk_proj, ok_foldl, ok_modPort]

theorem ok_writeAt {s : State} (h : s.memOk) (p : Place) (l : List Byte) : (s.writeAt p l).memOk := by
  induction l generalizing s p with
  | nil => exact h
  | cons b l ih => exact ih (ok_putByte h p b) _

theorem ok_heal {s : State} (h : s.memOk) (line : Place) : (State.heal s line).memOk := by
  unfold State.heal
  grind [memOk_mk, memOk_proj, ok_foldl]

theorem ok_storeLine {s : State} (h : s.memOk) (run : Option Nat) (p : Place) (l : List Byte) : (State.storeLine s run p l).memOk := by
  unfold State.storeLine
  grind [memOk_mk, memOk_proj, ok_foldl, ok_setCir, ok_askPeer, ok_writeAt, ok_heal]

theorem ok_storeLines {s : State} (h : s.memOk) (run : Option Nat) (n : Nat) (p : Place) (l : List Byte) :
    (s.storeLines run n p l).memOk := by
  induction n generalizing s p l with
  | zero => exact h
  | succ n ih => unfold State.storeLines; grind [ok_storeLine]

theorem ok_store {s : State} (h : s.memOk) (run : Option Nat) (p : Place) (l : List Byte) : (State.store s run p l).memOk := by
  unfold State.store
  grind [memOk_mk, memOk_proj, ok_foldl, ok_storeLines]

theorem ok_cacheLeaf {s : State} (h : s.memOk) (core : Nat) (ctx : Nat) (va : Nat) (leaf : Nat) (shift : Nat) : (State.cacheLeaf s core ctx va leaf shift).memOk := by
  unfold State.cacheLeaf
  grind [memOk_mk, memOk_proj, ok_foldl, ok_modCore, ok_modCluster]

theorem ok_hostAsk {s : State} (h : s.memOk) (vf : Nat) (a : Nat) (write : Bool) (agent : Nat) : (State.hostAsk s vf a write agent).1.memOk := by
  unfold State.hostAsk
  grind [memOk_mk, memOk_proj, ok_foldl]

theorem ok_askWalk {s : State} (h : s.memOk) (core : Nat) (ctx : Nat) (page : Nat) (who : Nat) : (State.askWalk s core ctx page who).memOk := by
  unfold State.askWalk
  grind [memOk_mk, memOk_proj, ok_foldl, ok_modDie]

theorem ok_missed {s : State} (h : s.memOk) (core : Nat) (ctx : Nat) (page : Nat) (who : Nat) (detail : Nat) : (State.missed s core ctx page who detail).1.memOk := by
  unfold State.missed
  grind [memOk_mk, memOk_proj, ok_foldl, ok_modDie, ok_askWalk]

theorem ok_hostXlat {s : State} (h : s.memOk) (ctx : Nat) (vf : Nat) (a : Nat) (write : Bool) (by_ : Asker) : (State.hostXlat s ctx vf a write by_).1.memOk := by
  unfold State.hostXlat
  grind [memOk_mk, memOk_proj, ok_foldl, ok_hostAsk, ok_missed]

theorem ok_leafXlat {s : State} (h : s.memOk) (ctx : Nat) (va : Nat) (leaf : Nat) (shift : Nat) (write : Bool) (by_ : Asker) : (State.leafXlat s ctx va leaf shift write by_).1.memOk := by
  unfold State.leafXlat
  grind [memOk_mk, memOk_proj, ok_foldl, ok_hostXlat]

theorem ok_xlatGlobal {s : State} (h : s.memOk) (core : Nat) (ctx : Nat) (va : Nat) (write : Bool) (who : Nat) : (State.xlatGlobal s core ctx va write who).1.memOk := by
  unfold State.xlatGlobal
  grind [memOk_mk, memOk_proj, ok_foldl, ok_missed, ok_leafXlat]

theorem ok_xlat {s : State} (h : s.memOk) (core : Nat) (ctx : Nat) (va : Nat) (write : Bool) (who : Nat) : (State.xlat s core ctx va write who).1.memOk := by
  unfold State.xlat
  grind [memOk_mk, memOk_proj, ok_foldl, ok_hostXlat, ok_xlatGlobal]

theorem ok_writeCtx {s : State} (h : s.memOk) (ctx va : Nat) (l : List Byte) (t : State) (e : s.writeCtx ctx va l = some t) :
    t.memOk := by
  unfold State.writeCtx at e
  obtain ⟨p, -, rfl⟩ := Option.map_eq_some_iff.mp e
  exact ok_store h _ _ _

theorem ok_event {s : State} (h : s.memOk) (ctx : Nat) (kind : Nat) (node : Nat) (arg0 : Nat) (arg1 : Nat) : (State.event s ctx kind node arg0 arg1).memOk := by
  unfold State.event
  grind [memOk_mk, memOk_proj, ok_foldl, ok_modCtx, ok_modVf, ok_writeCtx]

theorem ok_writeRecord {s : State} (h : s.memOk) (t : Thread) (i : FaultInfo) (out : State) (e : s.writeRecord t i = some out) :
    out.memOk := by
  unfold State.writeRecord at e
  obtain ⟨c, -, hc⟩ := Option.bind_eq_some_iff.mp e
  exact ok_writeCtx h _ _ _ _ hc

theorem ok_enterTable {s : State} (h : s.memOk) (r : Nat) : (State.enterTable s r).memOk := by
  unfold State.enterTable
  grind [memOk_mk, memOk_proj, ok_foldl, ok_modThread]

theorem ok_leaveTable {s : State} (h : s.memOk) (r : Nat) : (State.leaveTable s r).memOk := by
  unfold State.leaveTable
  grind [memOk_mk, memOk_proj, ok_foldl]

theorem ok_wake {s : State} (h : s.memOk) (r : Nat) : (State.wake s r).memOk := by
  unfold State.wake
  grind [memOk_mk, memOk_proj, ok_foldl, ok_modThread, ok_enterTable]

/-! Race -/

theorem ok_tickGroup {s : State} (h : s.memOk) (gid : Nat) : (State.tickGroup s gid).memOk := by
  unfold State.tickGroup
  grind [memOk_mk, memOk_proj, ok_foldl, ok_modGroup]

theorem ok_setRaceLine {s : State} (h : s.memOk) (l : RaceLine) : (State.setRaceLine s l).memOk := by
  unfold State.setRaceLine
  grind [memOk_mk, memOk_proj, ok_foldl]

theorem ok_nextEpoch {s : State} (h : s.memOk) (ctx : Nat) : (State.nextEpoch s ctx).memOk := by
  unfold State.nextEpoch
  grind [memOk_mk, memOk_proj, ok_foldl, ok_modCtx]

theorem ok_countLoss {s : State} (h : s.memOk) (ctx : Nat) (run : Nat) (f : Context → Context) : (State.countLoss s ctx run f).memOk := by
  unfold State.countLoss
  grind [memOk_mk, memOk_proj, ok_foldl, ok_modCtx, ok_setCir]

theorem ok_shadowPage {s : State} (h : s.memOk) (ctx : Nat) (run : Nat) (p : Place) (count : Bool) : (State.shadowPage s ctx run p count).1.memOk := by
  unfold State.shadowPage
  grind [memOk_mk, memOk_proj, ok_foldl, ok_modCtx, ok_countLoss]

theorem ok_keepHorizon {s : State} (h : s.memOk) (t : Thread) : (State.keepHorizon s t).memOk := by
  unfold State.keepHorizon
  grind [memOk_mk, memOk_proj, ok_foldl]

theorem ok_dropSnap {s : State} (h : s.memOk) (k : SnapKey) : (State.dropSnap s k).memOk := by
  unfold State.dropSnap
  grind [memOk_mk, memOk_proj, ok_foldl]

theorem ok_setSnap {s : State} (h : s.memOk) (die : Nat) (k : SnapKey) (st : Stamp) : (State.setSnap s die k st).1.memOk := by
  unfold State.setSnap
  grind [memOk_mk, memOk_proj, ok_foldl, ok_dropSnap]

theorem ok_mergeInto {s : State} (h : s.memOk) (r : Nat) (st : Stamp) : (State.mergeInto s r st).memOk := by
  unfold State.mergeInto
  grind [memOk_mk, memOk_proj, ok_foldl, ok_modThread]

theorem ok_loseHorizon {s : State} (h : s.memOk) (r : Nat) : (State.loseHorizon s r).memOk := by
  unfold State.loseHorizon
  grind [memOk_mk, memOk_proj, ok_foldl, ok_modThread]

theorem ok_acquireLine {s : State} (h : s.memOk) (r : Nat) (ctx : Nat) (line : Place) : (State.acquireLine s r ctx line).memOk := by
  unfold State.acquireLine
  grind [memOk_mk, memOk_proj, ok_foldl, ok_mergeInto, ok_loseHorizon]

theorem ok_pendLine {s : State} (h : s.memOk) (r : Nat) (line : Place) : (State.pendLine s r line).memOk := by
  unfold State.pendLine
  grind [memOk_mk, memOk_proj, ok_foldl, ok_modThread]

theorem ok_mergePending {s : State} (h : s.memOk) (r : Nat) : (State.mergePending s r).memOk := by
  unfold State.mergePending
  grind [memOk_mk, memOk_proj, ok_foldl, ok_modThread]

theorem ok_raceRecord {s : State} (h : s.memOk) (ctx run : Nat) (words : List Nat) : (s.raceRecord ctx run words).memOk := by
  unfold State.raceRecord
  split
  · exact h
  · dsimp only
    split
    · exact ok_modCtx (ok_modCtx h _ _) _ _
    · split
      · split
        · split
          · rename_i e
            exact ok_getD (ok_writeCtx (ok_modCtx h _ _) _ _ _ _ e)
              fun t ht => ok_writeCtx (ok_writeCtx (ok_modCtx h _ _) _ _ _ _ e) _ _ _ _ ht
          · exact ok_modCtx (ok_modCtx h _ _) _ _
        · exact ok_getD (ok_modCtx h _ _) fun t ht => ok_writeCtx (ok_modCtx h _ _) _ _ _ _ ht
      · exact ok_modCtx (ok_modCtx h _ _) _ _

theorem ok_writeRing {s : State} (h : s.memOk) (ctx : Nat) (ring : Option RaceRing) : (State.writeRing s ctx ring).memOk := by
  unfold State.writeRing
  grind [memOk_mk, memOk_proj, ok_foldl, ok_getD, ok_writeCtx]

theorem ok_countVerdict {s : State} (h : s.memOk) (c : Acc) (v : Verdict) : (s.countVerdict c v).memOk := by
  unfold State.countVerdict; grind [ok_countLoss]

theorem ok_judgePrior {s : State} (h : s.memOk) (c : Acc) (p : Option Prior) : (State.judgePrior s c p).1.memOk := by
  unfold State.judgePrior
  grind [memOk_mk, memOk_proj, ok_foldl, ok_countVerdict]

theorem ok_checkRace {s : State} (h : s.memOk) (c : Acc) : (State.checkRace s c).1.memOk := by
  unfold State.checkRace
  grind [memOk_mk, memOk_proj, ok_foldl, ok_modCtx, ok_modTag, ok_shadowPage, ok_judgePrior]

theorem ok_raceLoad {s : State} (h : s.memOk) (c : Acc) : (State.raceLoad s c).memOk := by
  unfold State.raceLoad
  grind [memOk_mk, memOk_proj, ok_foldl, ok_setRaceLine, ok_shadowPage]

theorem ok_raceWrite {s : State} (h : s.memOk) (c : Acc) (judge : Bool) (rel : Bool) (gone : Option Stamp) : (State.raceWrite s c judge rel gone).memOk := by
  unfold State.raceWrite
  grind [memOk_mk, memOk_proj, ok_foldl, ok_getD, ok_setRaceLine, ok_countLoss, ok_shadowPage, ok_dropSnap, ok_setSnap, ok_acquireLine]

theorem ok_resetLine {s : State} (h : s.memOk) (ctx : Nat) (line : Place) : (State.resetLine s ctx line).memOk := by
  unfold State.resetLine
  grind [memOk_mk, memOk_proj, ok_foldl, ok_modCtx, ok_dropSnap]

theorem ok_resetLines {s : State} (h : s.memOk) (ctx : Nat) (chk : Bool) (ls : List Place) : (State.resetLines s ctx chk ls).memOk := by
  unfold State.resetLines
  grind [memOk_mk, memOk_proj, ok_foldl, ok_resetLine]

/-! Memory -/

theorem ok_notePoison {s : State} (h : s.memOk) (run : Nat) (poisoned : Bool) : (State.notePoison s run poisoned).memOk := by
  unfold State.notePoison
  grind [memOk_mk, memOk_proj, ok_foldl, ok_setCir]

theorem ok_noteRegs {s : State} (h : s.memOk) (r : Nat) (codes : List Nat) : (State.noteRegs s r codes).memOk := by
  unfold State.noteRegs
  grind [memOk_mk, memOk_proj, ok_foldl, ok_notePoison]

theorem ok_noteWrite {s : State} (h : s.memOk) (run : Nat) (va : Nat) (p : Place) (sync : Bool) : (State.noteWrite s run va p sync).memOk := by
  unfold State.noteWrite
  grind [memOk_mk, memOk_proj, ok_foldl, ok_modRun]

theorem ok_waitvCheck {s : State} (h : s.memOk) (t : Thread) (w : WaitV) : (State.waitvCheck s t w).memOk := by
  unfold State.waitvCheck
  grind [memOk_mk, memOk_proj, ok_foldl, ok_raceRecord, ok_checkRace, ok_raceLoad]

theorem ok_waitvJudge {s : State} (h : s.memOk) (t : Thread) (w : WaitV) : (State.waitvJudge s t w).memOk := by
  unfold State.waitvJudge
  grind [memOk_mk, memOk_proj, ok_foldl, ok_acquireLine, ok_pendLine, ok_waitvCheck]

theorem ok_putTrace {s : State} (h : s.memOk) (core : Nat) (ctx : Nat) (rec : Nat) : (State.putTrace s core ctx rec).memOk := by
  unfold State.putTrace
  grind [memOk_mk, memOk_proj, ok_foldl, ok_getD, ok_modCore, ok_writeCtx]

theorem ok_writeTrace {s : State} (h : s.memOk) (core : Nat) (ctx : Nat) (rec : Nat) : (State.writeTrace s core ctx rec).memOk := by
  unfold State.writeTrace
  grind [memOk_mk, memOk_proj, ok_foldl, ok_modCore, ok_event, ok_putTrace]

theorem ok_keepRec {s : State} (h : s.memOk) (r : Nat) (ctx : Nat) (rec' : Nat) : (State.keepRec s r ctx rec').memOk := by
  unfold State.keepRec
  grind [memOk_mk, memOk_proj, ok_foldl, ok_modLane, ok_writeTrace]

theorem ok_traceThread {s : State} (h : s.memOk) (r : Nat) (kind : Nat) : (State.traceThread s r kind).memOk := by
  unfold State.traceThread
  grind [memOk_mk, memOk_proj, ok_foldl, ok_keepRec]

theorem ok_unpark {s : State} (h : s.memOk) (r : Nat) : (State.unpark s r).memOk := by
  unfold State.unpark
  grind [memOk_mk, memOk_proj, ok_foldl, ok_modThread, ok_wake, ok_traceThread]

theorem ok_park {s : State} (h : s.memOk) (r : Nat) (st : Status) : (State.park s r st).memOk := by
  unfold State.park
  grind [memOk_mk, memOk_proj, ok_foldl, ok_modThread, ok_traceThread]

theorem ok_waitvNow {s : State} (h : s.memOk) (t : Thread) (w : WaitV) : (State.waitvNow s t w).1.memOk := by
  unfold State.waitvNow
  grind [memOk_mk, memOk_proj, ok_foldl, ok_modThread, ok_askPeer, ok_notePoison, ok_waitvJudge]

theorem ok_waitvTry {s : State} (h : s.memOk) (r : Nat) : (State.waitvTry s r).memOk := by
  unfold State.waitvTry
  grind [memOk_mk, memOk_proj, ok_foldl, ok_unpark, ok_waitvNow]

theorem ok_waitvOpen {s : State} (h : s.memOk) (r : Nat) (w : WaitV) : (State.waitvOpen s r w).memOk := by
  unfold State.waitvOpen
  grind [memOk_mk, memOk_proj, ok_foldl, ok_park, ok_waitvNow]

theorem ok_wakeLine {s : State} (h : s.memOk) (line : Place) : (State.wakeLine s line).memOk := by
  unfold State.wakeLine
  grind [memOk_mk, memOk_proj, ok_foldl, ok_waitvTry]

theorem ok_wakeLines {s : State} (h : s.memOk) (p : Place) (n : Nat) : (State.wakeLines s p n).memOk := by
  unfold State.wakeLines
  grind [memOk_mk, memOk_proj, ok_foldl, ok_wakeLine]

theorem ok_storeNotes {s : State} (h : s.memOk) (st : Store) : (State.storeNotes s st).memOk := by
  unfold State.storeNotes
  grind [memOk_mk, memOk_proj, ok_foldl, ok_raceWrite, ok_noteWrite]

theorem ok_putStore {s : State} (h : s.memOk) (st : Store) : (State.putStore s st).memOk := by
  unfold State.putStore
  grind [memOk_mk, memOk_proj, ok_foldl, ok_store, ok_storeNotes]

theorem ok_wakeStores {s : State} (h : s.memOk) (l : List Store) : (State.wakeStores s l).memOk := by
  unfold State.wakeStores
  grind [memOk_mk, memOk_proj, ok_foldl, ok_wakeLines]

theorem ok_performStore {s : State} (h : s.memOk) (st : Store) : (State.performStore s st).memOk := by
  unfold State.performStore
  grind [memOk_mk, memOk_proj, ok_foldl, ok_putStore, ok_wakeStores]

theorem ok_engineWrite {s : State} (h : s.memOk) (run : Option Nat) (ctx : Nat) (va : Nat) (chk : Bool) (p : Place) (l : List Byte) : (State.engineWrite s run ctx va chk p l).memOk := by
  unfold State.engineWrite
  grind [memOk_mk, memOk_proj, ok_foldl, ok_store, ok_resetLines, ok_noteWrite, ok_wakeLines]

theorem ok_putOut {s : State} (h : s.memOk) (p : OutStore → Bool) : (State.putOut s p).memOk := by
  unfold State.putOut
  grind [memOk_mk, memOk_proj, ok_foldl, ok_putStore]

theorem ok_flushOut {s : State} (h : s.memOk) (p : OutStore → Bool) : (State.flushOut s p).memOk := by
  unfold State.flushOut
  grind [memOk_mk, memOk_proj, ok_foldl, ok_wakeStores, ok_putOut]

theorem ok_fullLine {s : State} (h : s.memOk) (l : List Store) (line : Place) : (State.fullLine s l line).memOk := by
  unfold State.fullLine
  grind [memOk_mk, memOk_proj, ok_foldl, ok_writeAt, ok_heal]

theorem ok_drainStore {s : State} (h : s.memOk) (core : Nat) (blk : Nat) (lines : List Place) (st : Store) : (State.drainStore s core blk lines st).memOk := by
  unfold State.drainStore
  grind [memOk_mk, memOk_proj, ok_foldl, ok_storeNotes, ok_putStore, ok_putOut]

theorem ok_drainBlock {s : State} (h : s.memOk) (b : Block) : (State.drainBlock s b).memOk := by
  unfold State.drainBlock
  grind [memOk_mk, memOk_proj, ok_foldl, ok_modPart, ok_setCir, ok_wakeStores, ok_putOut, ok_fullLine, ok_drainStore]

theorem ok_drainThread {s : State} (h : s.memOk) (r : Nat) : (State.drainThread s r).memOk := by
  unfold State.drainThread
  grind [memOk_mk, memOk_proj, ok_foldl, ok_drainBlock]

theorem ok_flushThread {s : State} (h : s.memOk) (r : Nat) : (State.flushThread s r).memOk := by
  unfold State.flushThread
  grind [memOk_mk, memOk_proj, ok_foldl, ok_flushOut, ok_drainThread]

theorem ok_capture {s : State} (h : s.memOk) (pond : List Store) (e : LogEntry) : (State.capture s pond e).1.memOk := by
  unfold State.capture
  grind [memOk_mk, memOk_proj, ok_foldl, ok_askPeer, ok_pendLine, ok_notePoison]

theorem ok_captureLog {s : State} (h : s.memOk) (p : LogEntry → Bool) : (State.captureLog s p).memOk := by
  unfold State.captureLog
  grind [memOk_mk, memOk_proj, ok_foldl, ok_capture]

/-! Members -/

theorem ok_scrWr {s : State} (h : s.memOk) (gid off n v : Nat) : (s.scrWr gid off n v).memOk := by
  unfold State.scrWr
  exact ok_ite h (ok_wakeLines (ok_modGroup h _ _ fun g hg => ok_wr hg _ _ _) _ _)

theorem ok_noteScr {s : State} (h : s.memOk) (run : Nat) (gid : Nat) (off : Nat) : (State.noteScr s run gid off).memOk := by
  unfold State.noteScr
  grind [memOk_mk, memOk_proj, ok_foldl, ok_notePoison]

theorem ok_halt {s : State} (h : s.memOk) (r : Nat) (kind : Nat) (arg1 : Nat) : (State.halt s r kind arg1).memOk := by
  unfold State.halt
  grind [memOk_mk, memOk_proj, ok_foldl, ok_modThread, ok_event, ok_traceThread]

theorem ok_stampOn {s : State} (h : s.memOk) (die : Nat) (k : SnapKey) (t : Thread) : (State.stampOn s die k t).memOk := by
  unfold State.stampOn
  grind [memOk_mk, memOk_proj, ok_foldl, ok_countLoss, ok_setSnap]

theorem ok_barStamp {s : State} (h : s.memOk) (gid : Nat) (off : Nat) (r : Nat) : (State.barStamp s gid off r).memOk := by
  unfold State.barStamp
  grind [memOk_mk, memOk_proj, ok_foldl, ok_stampOn]

theorem ok_openGates {s : State} (h : s.memOk) (gid : Nat) (off : Nat) (phase : Bool) : (State.openGates s gid off phase).memOk := by
  unfold State.openGates
  grind [memOk_mk, memOk_proj, ok_foldl]

theorem ok_wakeBar {s : State} (h : s.memOk) (gid : Nat) (off : Nat) : (State.wakeBar s gid off).memOk := by
  unfold State.wakeBar
  grind [memOk_mk, memOk_proj, ok_foldl, ok_unpark]

theorem ok_arriveAt {s : State} (h : s.memOk) (gid off na nb : Nat) (pure : Bool) : (s.arriveAt gid off na nb pure).memOk := by
  unfold State.arriveAt
  split
  · exact h
  · split
    · exact h
    extract_lets w expa expb a0 b0 a b beyond pures flip put
    have hp : ∀ (ph : Bool) (x y : Nat) (ps : List (Nat × Bool)) (t : State), t.memOk → (put ph x y ps t).memOk := by
      intro ph x y ps t ht
      refine ok_wakeLines (ok_modGroup ht gid _ fun g hg => ?_) _ _
      show (((g.wr off 4 _).wr (off + 10) 6 _).scr).wf = true
      exact ok_wr (ok_wr hg _ _ _) _ _ _
    clear_value put w expa expb a0 b0 a b beyond pures flip
    split
    · exact ok_wakeBar (ok_openGates (ok_ite (ok_tickGroup (hp _ _ _ _ _ h) _) (hp _ _ _ _ _ h)) _ _ _) _ _
    · exact hp _ _ _ _ _ h

theorem ok_gbarStamp {s : State} (h : s.memOk) (gid : Nat) (r : Nat) : (State.gbarStamp s gid r).memOk := by
  unfold State.gbarStamp
  grind [memOk_mk, memOk_proj, ok_foldl, ok_stampOn]

theorem ok_gbarWake {s : State} (h : s.memOk) (gid : Nat) (st : Option Stamp) (r : Nat) : (State.gbarWake s gid st r).memOk := by
  unfold State.gbarWake
  grind [memOk_mk, memOk_proj, ok_foldl, ok_modThread, ok_mergeInto, ok_unpark]

theorem ok_gbarCheck {s : State} (h : s.memOk) (gid n : Nat) : (s.gbarCheck gid n).memOk := by
  induction n generalizing s with
  | zero => exact h
  | succ n ih =>
    unfold State.gbarCheck
    split
    · exact h
    · split
      · exact h
      · split
        · dsimp only
          have h1 : ∀ st (l : List Nat), (l.foldl (fun (s : State) r => s.gbarWake gid st r)
              (((s.dropSnap (.gbar gid)).tickGroup gid).modGroup gid fun g => { g with gbar := none })).memOk := fun st l =>
            ok_foldl (ok_modGroup (ok_tickGroup (ok_dropSnap h _) _) _ _ fun g hg => hg) fun t x ht => ok_gbarWake ht _ _ _
          split
          · exact h1 _ _
          · exact ih (ok_foldl (ok_modGroup (h1 _ _) _ _ fun g hg => hg) fun t x ht => ok_gbarStamp ht _ _)
        · exact h

theorem ok_gbarArrive {s : State} (h : s.memOk) (gid : Nat) (r : Nat) : (State.gbarArrive s gid r).memOk := by
  unfold State.gbarArrive
  grind [memOk_mk, memOk_proj, ok_foldl, ok_modThread, ok_modGroup, ok_gbarStamp, ok_gbarCheck]

theorem ok_gbarResume {s : State} (h : s.memOk) (r : Nat) : (State.gbarResume s r).memOk := by
  unfold State.gbarResume
  grind [memOk_mk, memOk_proj, ok_foldl, ok_flushThread, ok_gbarArrive]

theorem ok_modArrival {s : State} (h : s.memOk) (block : Nat) (f : Arrival → Arrival) : (State.modArrival s block f).memOk := by
  unfold State.modArrival
  grind [memOk_mk, memOk_proj, ok_foldl]

theorem ok_addArrival {s : State} (h : s.memOk) (a : Arrival) : (State.addArrival s a).memOk := by
  unfold State.addArrival
  grind [memOk_mk, memOk_proj, ok_foldl]

theorem ok_gatherCheck {s : State} (h : s.memOk) (block : Nat) : (State.gatherCheck s block).memOk := by
  unfold State.gatherCheck
  grind [memOk_mk, memOk_proj, ok_foldl, ok_modThread, ok_traceThread]

theorem ok_gatherArrive {s : State} (h : s.memOk) (r : Nat) : (State.gatherArrive s r).memOk := by
  unfold State.gatherArrive
  grind [memOk_mk, memOk_proj, ok_foldl, ok_modPart, ok_leaveTable, ok_park, ok_modArrival, ok_addArrival, ok_gatherCheck]

theorem ok_detach {s : State} (h : s.memOk) (r : Nat) : (State.detach s r).memOk := by
  unfold State.detach
  grind [memOk_mk, memOk_proj, ok_foldl, ok_leaveTable, ok_park]

theorem ok_giveBack {s : State} (h : s.memOk) (f : Nat × Nat × Nat) : (s.giveBack f).memOk := by
  unfold State.giveBack
  exact ok_foldl (ok_modGroup (ok_scrWr h _ _ _ _) _ _ fun g hg => hg) fun t x ht => ok_unpark ht _

theorem ok_retireOps {s : State} (h : s.memOk) (r : Nat) : (State.retireOps s r).memOk := by
  unfold State.retireOps
  grind [memOk_mk, memOk_proj, ok_foldl, ok_modCore, ok_modPart]

theorem ok_discard {s : State} (h : s.memOk) (p : PortId) (r : Nat) (abandoned : Bool) : (State.discard s p r abandoned).memOk := by
  unfold State.discard
  grind [memOk_mk, memOk_proj, ok_foldl, ok_modThread, ok_modLane, ok_giveBack, ok_retireOps]

theorem ok_brakeLeave {s : State} (h : s.memOk) (b : Bundle) : (State.brakeLeave s b).memOk := by
  unfold State.brakeLeave
  grind [memOk_mk, memOk_proj, ok_foldl, ok_modPart]

theorem ok_closeBanks {s : State} (h : s.memOk) (p : PortId) : (State.closeBanks s p).memOk := by
  unfold State.closeBanks
  grind [memOk_mk, memOk_proj, ok_foldl, ok_modBundle, ok_modPart]

theorem ok_leaveBundle {s : State} (h : s.memOk) (p : PortId) : (State.leaveBundle s p).memOk := by
  unfold State.leaveBundle
  grind [memOk_mk, memOk_proj, ok_foldl, ok_modThread, ok_enterTable, ok_writeTrace, ok_brakeLeave, ok_closeBanks]

theorem ok_abandon {s : State} (h : s.memOk) (p : PortId) (r : Nat) : (State.abandon s p r).memOk := by
  unfold State.abandon
  grind [memOk_mk, memOk_proj, ok_foldl, ok_discard]

theorem ok_freeGroups {s : State} (h : s.memOk)  : (State.freeGroups s).memOk := by
  unfold State.freeGroups
  grind [memOk_mk, memOk_proj, ok_foldl]

theorem ok_depart {s : State} (h : s.memOk) (r : Nat) (gid : Nat) : (State.depart s r gid).memOk := by
  unfold State.depart
  grind [memOk_mk, memOk_proj, ok_foldl, ok_modGroup, ok_gbarCheck, ok_gatherCheck, ok_freeGroups]

theorem ok_exitThread {s : State} (h : s.memOk) (r : Nat) : (State.exitThread s r).memOk := by
  unfold State.exitThread
  grind [memOk_mk, memOk_proj, ok_foldl, ok_modRun, ok_modTag, ok_keepHorizon, ok_detach, ok_depart]

theorem ok_abandonRun {s : State} (h : s.memOk) (run : Nat) : (State.abandonRun s run).memOk := by
  unfold State.abandonRun
  grind [memOk_mk, memOk_proj, ok_foldl, ok_abandon]

theorem ok_endRunNow {s : State} (h : s.memOk) (run : Nat) : (State.endRunNow s run).memOk := by
  unfold State.endRunNow
  grind [memOk_mk, memOk_proj, ok_foldl, ok_modRun, ok_leaveBundle, ok_freeGroups, ok_exitThread]

theorem ok_endRun {s : State} (h : s.memOk) (run : Nat) : (State.endRun s run).memOk := by
  unfold State.endRun
  grind [memOk_mk, memOk_proj, ok_foldl, ok_modRun, ok_leaveBundle, ok_abandonRun, ok_endRunNow]

theorem ok_endFailing {s : State} (h : s.memOk)  : (State.endFailing s).memOk := by
  unfold State.endFailing
  grind [memOk_mk, memOk_proj, ok_foldl, ok_endRun]

theorem ok_failNode {s : State} (h : s.memOk) (run : Nat) : (State.failNode s run).memOk := by
  unfold State.failNode
  grind [memOk_mk, memOk_proj, ok_foldl, ok_setCir, ok_endRun]

theorem ok_loseSignal {s : State} (h : s.memOk) (run : Nat) (gid : Nat) : (State.loseSignal s run gid).memOk := by
  unfold State.loseSignal
  grind [memOk_mk, memOk_proj, ok_foldl, ok_setCir, ok_endRun]

theorem ok_signal {s : State} (h : s.memOk) (run : Nat) (gid : Nat) (off : Nat) (bytes : Nat) (resets : Nat) : (State.signal s run gid off bytes resets).memOk := by
  unfold State.signal
  grind [memOk_mk, memOk_proj, ok_foldl, ok_noteScr, ok_arriveAt, ok_loseSignal]

theorem ok_applySignal {s : State} (h : s.memOk) (x : Signal) : (State.applySignal s x).memOk := by
  unfold State.applySignal
  grind [memOk_mk, memOk_proj, ok_foldl, ok_noteScr, ok_arriveAt, ok_loseSignal]

theorem ok_mailObject {s : State} (h : s.memOk) (gid : Nat) (off : Nat) : (State.mailObject s gid off).memOk := by
  unfold State.mailObject
  grind [memOk_mk, memOk_proj, ok_foldl, ok_applySignal]

/-! Ops -/

theorem ok_xlatAs {s : State} (h : s.memOk) (t : Thread) (va : Nat) (write : Bool) (who : Nat) : (State.xlatAs s t va write who).1.memOk := by
  unfold State.xlatAs
  grind [memOk_mk, memOk_proj, ok_foldl, ok_xlat]

theorem ok_ownPlace {s : State} (h : s.memOk) (t : Thread) (off : Nat) (write : Bool) (who : Nat) : (State.ownPlace s t off write who).1.memOk := by
  unfold State.ownPlace
  grind [memOk_mk, memOk_proj, ok_foldl, ok_xlat, ok_xlatAs]

theorem ok_placeOf {s : State} (h : s.memOk) (t : Thread) (va : Nat) (write : Bool) (who : Nat) : (s.placeOf t va write who).1.memOk := by
  have h1 := ok_ownPlace h t (va - privateBase) write who
  have h2 := ok_xlatAs h t va write who
  rw [State.placeOf.eq_def]
  generalize s.ownPlace t (va - privateBase) write who = x at *
  split
  · exact h
  · exact h1
  · exact h2

theorem ok_placesOf {s : State} (h : s.memOk) (t : Thread) (write : Bool) (l : List Nat) (who : Nat) :
    (s.placesOf t write l who).1.memOk := by
  induction l generalizing s with
  | nil => exact h
  | cons va l ih =>
    unfold State.placesOf
    have h1 := ok_placeOf h t va write who
    split
    · rename_i e; rw [e] at h1; exact h1
    · rename_i e
      rw [e] at h1
      have h2 := ih h1
      split
      · rename_i e; rw [e] at h2; exact h2
      · exact h2
    · rename_i e
      rw [e] at h1
      have h2 := ih h1
      refine ok_ite1 h1 ?_
      split <;> (rename_i e; rw [e] at h2; exact h2)

theorem ok_checkAccess {s : State} (h : s.memOk) (t : Thread) (sp : Space) (va : Nat) (size : Nat) (n : Nat) (write : Bool) (who : Nat) : (State.checkAccess s t sp va size n write who).1.memOk := by
  unfold State.checkAccess
  grind [memOk_mk, memOk_proj, ok_foldl, ok_placesOf]

theorem ok_haltOrFail {s : State} (h : s.memOk) (r : Nat) (kind : Nat) (arg1 : Nat) : (State.haltOrFail s r kind arg1).memOk := by
  unfold State.haltOrFail
  grind [memOk_mk, memOk_proj, ok_foldl, ok_halt, ok_detach, ok_failNode]

theorem ok_doubleTrap {s : State} (h : s.memOk) (r : Nat) (cause : Nat) : (State.doubleTrap s r cause).memOk := by
  unfold State.doubleTrap
  grind [memOk_mk, memOk_proj, ok_foldl, ok_modThread, ok_event, ok_detach, ok_failNode]

theorem ok_pipelineTrap {s : State} (h : s.memOk) (t : Thread) : (State.pipelineTrap s t).memOk := by
  unfold State.pipelineTrap
  grind [memOk_mk, memOk_proj, ok_foldl, ok_modThread, ok_setCir, ok_failNode]

theorem ok_goOn {s : State} (h : s.memOk) (r : Nat) : (State.goOn s r).memOk := by
  unfold State.goOn
  grind [memOk_mk, memOk_proj, ok_foldl, ok_wake, ok_unpark, ok_detach]

theorem ok_takeTrap {s : State} (h : s.memOk) (r : Nat) (kind : TrapKind) (info : FaultInfo) (succ : Option Succ) (resume : Resume) (trace : Nat) (pos : Nat) : (State.takeTrap s r kind info succ resume trace pos).memOk := by
  unfold State.takeTrap
  grind [memOk_mk, memOk_proj, ok_foldl, ok_modThread, ok_writeRecord, ok_keepRec, ok_failNode, ok_haltOrFail, ok_doubleTrap, ok_pipelineTrap,
    ok_goOn]

theorem ok_noteRec {s : State} (h : s.memOk) (p : PortId) (r : Nat) (kind : Nat) (slotNo : Nat) : (State.noteRec s p r kind slotNo).memOk := by
  unfold State.noteRec
  grind [memOk_mk, memOk_proj, ok_foldl, ok_modLane]

theorem ok_trapLane {s : State} (h : s.memOk) (p : PortId) (r : Nat) (kind : TrapKind) (info : FaultInfo) (succ : Option Succ) : (State.trapLane s p r kind info succ).memOk := by
  unfold State.trapLane
  grind [memOk_mk, memOk_proj, ok_foldl, ok_discard, ok_takeTrap]

theorem ok_deferredTrap {s : State} (h : s.memOk) (r : Nat) (h : HeldFault) : (State.deferredTrap s r h).memOk := by
  unfold State.deferredTrap
  grind [memOk_mk, memOk_proj, ok_foldl, ok_discard, ok_takeTrap]

theorem ok_deferFault {s : State} (h : s.memOk) (e : LogEntry) (info : FaultInfo) : (State.deferFault s e info).memOk := by
  unfold State.deferFault
  grind [memOk_mk, memOk_proj, ok_foldl, ok_modThread, ok_leaveBundle, ok_deferredTrap]

theorem ok_translateLoad {s : State} (h : s.memOk) (t : Thread) (e : LogEntry) : (State.translateLoad s t e).1.memOk := by
  unfold State.translateLoad
  grind [memOk_mk, memOk_proj, ok_foldl, ok_placesOf]

theorem ok_setLog {s : State} (h : s.memOk) (e : LogEntry) : (State.setLog s e).memOk := by
  unfold State.setLog
  grind [memOk_mk, memOk_proj, ok_foldl]

theorem ok_performEntry {s : State} (h : s.memOk) (t : Thread) (e : LogEntry) : (State.performEntry s t e).memOk := by
  unfold State.performEntry
  grind [memOk_mk, memOk_proj, ok_foldl, ok_capture, ok_translateLoad, ok_setLog]

theorem ok_performInOrder {s : State} (h : s.memOk) (t : Thread) (l : List LogEntry) : (s.performInOrder t l).memOk := by
  induction l generalizing s with
  | nil => exact h
  | cons e l ih =>
    unfold State.performInOrder
    dsimp only
    split
    · exact ok_performEntry h _ _
    · exact ih (ok_performEntry h _ _)

theorem ok_performLog {s : State} (h : s.memOk) (t : Thread) (upTo : Nat) : (State.performLog s t upTo).memOk := by
  unfold State.performLog
  grind [memOk_mk, memOk_proj, ok_foldl, ok_performInOrder]

theorem ok_resumeWaits {s : State} (h : s.memOk) (r : Nat) : (State.resumeWaits s r).memOk := by
  unfold State.resumeWaits
  grind [memOk_mk, memOk_proj, ok_foldl, ok_modThread, ok_park, ok_waitvNow, ok_gbarResume, ok_detach, ok_performLog]

/-! Trace -/

theorem ok_codeSettle {s : State} (h : s.memOk) (who : Nat) (p : Place) : (State.codeSettle s who p).memOk := by
  unfold State.codeSettle
  grind [memOk_mk, memOk_proj, ok_foldl, ok_drainThread]

theorem ok_codeWord {s : State} (h : s.memOk) (core : Nat) (ctx : Nat) (runs : List Nat) (who : Nat) (va : Nat) : (State.codeWord s core ctx runs who va).1.memOk := by
  unfold State.codeWord
  grind [memOk_mk, memOk_proj, ok_foldl, ok_askPeer, ok_xlat, ok_notePoison, ok_codeSettle]

theorem ok_codeWords {s : State} (h : s.memOk) (core ctx : Nat) (runs : List Nat) (who va n : Nat) :
    (s.codeWords core ctx runs who va n).1.memOk := by
  induction n generalizing s va with
  | zero => exact h
  | succ n ih => unfold State.codeWords; grind [ok_codeWord]

theorem ok_fetchTrace {s : State} (h : s.memOk) (core ctx : Nat) (runs : List Nat) (who va : Nat) (inSet : Bool) :
    (s.fetchTrace core ctx runs who va inSet).1.memOk := by
  unfold State.fetchTrace
  split
  · exact h
  · have h1 := ok_codeWord h core ctx runs who va
    split
    · rename_i e; rw [e] at h1; exact h1
    · rename_i s1 w0 e
      rw [e] at h1
      have h2 : (if opcodeOf w0 == 0xE3 then s1.codeWord core ctx runs who (if opcodeOf w0 == 0xE3 then va + 8 else va)
          else (s1, .ok w0)).1.memOk := by split <;> first | exact ok_codeWord h1 _ _ _ _ _ | exact h1
      extract_lets hasL ha
      split
      · rename_i e; rw [e] at h2; exact h2
      · rename_i s2 w e
        rw [e] at h2
        split
        · exact h2
        · split
          · exact h2
          · have h3 := ok_codeWords h2 core ctx runs who (ha + 8) (hLen w + 2)
            split
            · rename_i e; rw [e] at h3; exact h3
            · rename_i e
              rw [e] at h3
              extract_lets n t
              split
              · exact h3
              · split <;> exact h3

/-! Lane -/

theorem ok_slotFault {s : State} (h : s.memOk) (v : View) (info : FaultInfo) : (State.slotFault s v info).memOk := by
  unfold State.slotFault
  grind [memOk_mk, memOk_proj, ok_foldl, ok_leaveBundle, ok_trapLane]

theorem ok_illegal {s : State} (h : s.memOk) (v : View) (info : FaultInfo) (slots : Nat) : (State.illegal s v info slots).memOk := by
  unfold State.illegal
  grind [memOk_mk, memOk_proj, ok_foldl, ok_modLane, ok_slotFault]

theorem ok_judgeValues {s : State} (h : s.memOk) (t : Thread) (x : AccAt) (write atomic : Bool)
    (l : List (Nat × Place × Bool)) : (s.judgeValues t x write atomic l).1.memOk := by
  induction l generalizing s with
  | nil => exact h
  | cons y l ih =>
    obtain ⟨va, p, chk⟩ := y
    unfold State.judgeValues
    split
    · exact ih h
    · dsimp only
      have h1 := ok_checkRace h (s.accOf t x.pw p va x.size write atomic)
      split
      · exact ok_raceRecord h1 _ _ _
      · exact ih h1

theorem ok_judgeEntry {s : State} (h : s.memOk) (t : Thread) (e : LogEntry) : (State.judgeEntry s t e).1.memOk := by
  unfold State.judgeEntry
  grind [memOk_mk, memOk_proj, ok_foldl, ok_judgeValues]

theorem ok_settleEntry {s : State} (h : s.memOk) (t : Thread) (l : Lane) (e : LogEntry) : (State.settleEntry s t l e).memOk := by
  unfold State.settleEntry
  grind [memOk_mk, memOk_proj, ok_foldl, Read.memOk, ok_translateLoad, ok_judgeEntry]

theorem ok_performPosted {s : State} (h : s.memOk) (t : Thread) (l : Lane) (id : Nat) : (State.performPosted s t l id).memOk := by
  unfold State.performPosted
  grind [memOk_mk, memOk_proj, ok_foldl, Read.memOk, ok_capture, ok_settleEntry]

theorem ok_performEach {s : State} (h : s.memOk) (t : Thread) (l : Lane) (ids : List Nat) : (s.performEach t l ids).memOk := by
  induction ids generalizing s l with
  | nil => exact h
  | cons id ids ih =>
    unfold State.performEach
    grind [ok_performPosted, Read.memOk]

theorem ok_performLoads {s : State} (h : s.memOk) (t : Thread) (l : Lane) (upTo : Nat) : (State.performLoads s t l upTo).memOk := by
  unfold State.performLoads
  grind [memOk_mk, memOk_proj, ok_foldl, Read.memOk, ok_performLog, ok_performEach]

theorem ok_finishLoad {s : State} (h : s.memOk) (t : Thread) (l : Lane) (e : LogEntry) : (State.finishLoad s t l e).memOk := by
  unfold State.finishLoad
  grind [memOk_mk, memOk_proj, ok_foldl, Read.memOk, ok_performLoads]

theorem ok_readReg1 {s : State} (h : s.memOk) (v : View) (i : Instr) (l : Lane) (x : Src) (code : Nat) : (State.readReg1 s v i l x code).memOk := by
  unfold State.readReg1
  grind [memOk_mk, memOk_proj, ok_foldl, Read.memOk, ok_finishLoad]

theorem ok_readRegs {s : State} (h : s.memOk) (v : View) (i : Instr) (l : Lane) (x : Src) (cs : List Nat) :
    (s.readRegs v i l x cs).memOk := by
  induction cs generalizing s l with
  | nil => exact h
  | cons c cs ih =>
    unfold State.readRegs
    have h1 := ok_readReg1 h v i l x c
    split
    · rename_i e; rw [e] at h1; exact ih h1 _
    · exact h1

theorem ok_readAll {s : State} (h : s.memOk) (v : View) (i : Instr) (l : Lane) (xs : List Src) : (s.readAll v i l xs).memOk := by
  induction xs generalizing s l with
  | nil => exact h
  | cons x xs ih =>
    unfold State.readAll
    split
    · split
      · exact h
      · exact ih h _
    · have h1 := ok_readRegs h v i l x (if x.code = 0 then [] else upFrom x.code x.words)
      split
      · rename_i e; rw [e] at h1; exact ih h1 _
      · exact h1

theorem ok_readSources {s : State} (h : s.memOk) (v : View) (i : Instr) : (s.readSources v i).memOk := by
  unfold State.readSources
  have h1 := ok_readAll h v i v.l (srcsOf i)
  split
  · rename_i e
    rw [e] at h1
    split
    · exact h1
    · exact ok_noteRegs h1 _ _
  · exact h1

theorem ok_failGuard {s : State} (h : s.memOk) (v : View) (alt : Int) : (State.failGuard s v alt).memOk := by
  unfold State.failGuard
  grind [memOk_mk, memOk_proj, ok_foldl, ok_modThread, ok_discard, ok_leaveBundle, ok_noteRec]

theorem ok_settle (v : View) (i : Instr) (a : Act) (h : a.memOk) : (settle v i a).memOk := by
  cases a with
  | done s l => exact ok_modLane h _ _ _
  | alt s => exact ok_failGuard h _ _
  | fault s info => exact ok_slotFault h _ _
  | stall s l => exact ok_modLane h _ _ _
  | park s st => exact ok_leaveBundle (ok_abandon (ok_park h _ _) _ _) _

theorem ok_slot {s : State} (h : s.memOk) (v : View) (i : Instr) (k : State → View → List Nat → Act)
    (hk : ∀ s v vals, s.memOk → (k s v vals).memOk) : (s.slot v i k).memOk := by
  unfold State.slot
  split
  · exact ok_illegal h _ _ _
  · have h1 := ok_readSources h v i
    split
    · rename_i e; rw [e] at h1; exact ok_slotFault h1 _ _
    · rename_i e; rw [e] at h1; exact h1
    · rename_i e; rw [e] at h1; exact ok_settle _ _ _ (hk _ _ _ h1)

theorem ok_runSlot {s : State} (h : s.memOk) (i : Instr) (k : State → View → List Nat → Act)
    (hk : ∀ s v vals, s.memOk → (k s v vals).memOk) : outOk (runSlot i s k) := by
  unfold runSlot
  split
  · trivial
  · exact ok_slot h _ _ _ hk

theorem ok_runPure {s : State} (h : s.memOk) (i : Instr) (t : Ty) (f : List Nat → Nat × Flags) : outOk (runPure i s t f) :=
  ok_runSlot h _ _ fun _ _ _ hs => hs

theorem ok_runInt {s : State} (h : s.memOk) (i : Instr) (t : Ty) (f : List Nat → Nat) : outOk (runInt i s t f) :=
  ok_runPure h _ _ _

end Sys2Proof.Machine
end

