-- ==== Sys2Proof/Laws/MemOkSlots.lean ====
section
/-! SUPPORT. The canonical form of memory is kept by the meanings of the slot instructions. `ok_f` says of `f`: where every memory of a state is in its
canonical form, so is every memory of the state that `f` hands on. -/

namespace Sys2Proof.Machine

open Sys2Proof

/-! Integer -/

theorem ok_execIadd {s : State} (h : s.memOk) (f : FA) : outOk (execIadd f s) := by
  unfold execIadd
  grind [memOk_mk, memOk_proj, ok_foldl, outOk, ok_runSlot, ok_runPure, ok_runInt, Act.memOk, ok_runInt]

theorem ok_execIaddImm {s : State} (h : s.memOk) (f : FI) : outOk (execIaddImm f s) := by
  unfold execIaddImm
  grind [memOk_mk, memOk_proj, ok_foldl, outOk, ok_runSlot, ok_runPure, ok_runInt, Act.memOk, ok_runInt]

theorem ok_execIsub {s : State} (h : s.memOk) (f : FA) : outOk (execIsub f s) := by
  unfold execIsub
  grind [memOk_mk, memOk_proj, ok_foldl, outOk, ok_runSlot, ok_runPure, ok_runInt, Act.memOk, ok_runInt]

theorem ok_execImul {s : State} (h : s.memOk) (f : FA) : outOk (execImul f s) := by
  unfold execImul
  grind [memOk_mk, memOk_proj, ok_foldl, outOk, ok_runSlot, ok_runPure, ok_runInt, Act.memOk, ok_runInt]

theorem ok_execImulImm {s : State} (h : s.memOk) (f : FI) : outOk (execImulImm f s) := by
  unfold execImulImm
  grind [memOk_mk, memOk_proj, ok_foldl, outOk, ok_runSlot, ok_runPure, ok_runInt, Act.memOk, ok_runInt]

theorem ok_execImulh {s : State} (h : s.memOk) (f : FA) : outOk (execImulh f s) := by
  unfold execImulh
  grind [memOk_mk, memOk_proj, ok_foldl, outOk, ok_runSlot, ok_runPure, ok_runInt, Act.memOk, ok_runInt]

theorem ok_execImad {s : State} (h : s.memOk) (f : FA) : outOk (execImad f s) := by
  unfold execImad
  grind [memOk_mk, memOk_proj, ok_foldl, outOk, ok_runSlot, ok_runPure, ok_runInt, Act.memOk, ok_runInt]

theorem ok_execImadw {s : State} (h : s.memOk) (f : FA) : outOk (execImadw f s) := by
  unfold execImadw
  grind [memOk_mk, memOk_proj, ok_foldl, outOk, ok_runSlot, ok_runPure, ok_runInt, Act.memOk, ok_runInt]

theorem ok_execIdiv {s : State} (h : s.memOk) (f : FA) : outOk (execIdiv f s) := by
  unfold execIdiv
  grind [memOk_mk, memOk_proj, ok_foldl, outOk, ok_runSlot, ok_runPure, ok_runInt, Act.memOk, ok_runInt]

theorem ok_execIrem {s : State} (h : s.memOk) (f : FA) : outOk (execIrem f s) := by
  unfold execIrem
  grind [memOk_mk, memOk_proj, ok_foldl, outOk, ok_runSlot, ok_runPure, ok_runInt, Act.memOk, ok_runInt]

theorem ok_execIneg {s : State} (h : s.memOk) (f : FA) : outOk (execIneg f s) := by
  unfold execIneg
  grind [memOk_mk, memOk_proj, ok_foldl, outOk, ok_runSlot, ok_runPure, ok_runInt, Act.memOk, ok_runInt]

theorem ok_execIabs {s : State} (h : s.memOk) (f : FA) : outOk (execIabs f s) := by
  unfold execIabs
  grind [memOk_mk, memOk_proj, ok_foldl, outOk, ok_runSlot, ok_runPure, ok_runInt, Act.memOk, ok_runInt]

theorem ok_execImin {s : State} (h : s.memOk) (f : FA) : outOk (execImin f s) := by
  unfold execImin
  grind [memOk_mk, memOk_proj, ok_foldl, outOk, ok_runSlot, ok_runPure, ok_runInt, Act.memOk, ok_runInt]

theorem ok_execIminImm {s : State} (h : s.memOk) (f : FI) : outOk (execIminImm f s) := by
  unfold execIminImm
  grind [memOk_mk, memOk_proj, ok_foldl, outOk, ok_runSlot, ok_runPure, ok_runInt, Act.memOk, ok_runInt]

theorem ok_execImax {s : State} (h : s.memOk) (f : FA) : outOk (execImax f s) := by
  unfold execImax
  grind [memOk_mk, memOk_proj, ok_foldl, outOk, ok_runSlot, ok_runPure, ok_runInt, Act.memOk, ok_runInt]

theorem ok_execImaxImm {s : State} (h : s.memOk) (f : FI) : outOk (execImaxImm f s) := by
  unfold execImaxImm
  grind [memOk_mk, memOk_proj, ok_foldl, outOk, ok_runSlot, ok_runPure, ok_runInt, Act.memOk, ok_runInt]

theorem ok_execIadds {s : State} (h : s.memOk) (f : FA) : outOk (execIadds f s) := by
  unfold execIadds
  grind [memOk_mk, memOk_proj, ok_foldl, outOk, ok_runSlot, ok_runPure, ok_runInt, Act.memOk, ok_runInt]

theorem ok_execIsubs {s : State} (h : s.memOk) (f : FA) : outOk (execIsubs f s) := by
  unfold execIsubs
  grind [memOk_mk, memOk_proj, ok_foldl, outOk, ok_runSlot, ok_runPure, ok_runInt, Act.memOk, ok_runInt]

theorem ok_execAnd {s : State} (h : s.memOk) (f : FA) : outOk (execAnd f s) := by
  unfold execAnd
  grind [memOk_mk, memOk_proj, ok_foldl, outOk, ok_runSlot, ok_runPure, ok_runInt, Act.memOk, ok_runInt]

theorem ok_execAndImm {s : State} (h : s.memOk) (f : FI) : outOk (execAndImm f s) := by
  unfold execAndImm
  grind [memOk_mk, memOk_proj, ok_foldl, outOk, ok_runSlot, ok_runPure, ok_runInt, Act.memOk, ok_runInt]

theorem ok_execOr {s : State} (h : s.memOk) (f : FA) : outOk (execOr f s) := by
  unfold execOr
  grind [memOk_mk, memOk_proj, ok_foldl, outOk, ok_runSlot, ok_runPure, ok_runInt, Act.memOk, ok_runInt]

theorem ok_execOrImm {s : State} (h : s.memOk) (f : FI) : outOk (execOrImm f s) := by
  unfold execOrImm
  grind [memOk_mk, memOk_proj, ok_foldl, outOk, ok_runSlot, ok_runPure, ok_runInt, Act.memOk, ok_runInt]

theorem ok_execXor {s : State} (h : s.memOk) (f : FA) : outOk (execXor f s) := by
  unfold execXor
  grind [memOk_mk, memOk_proj, ok_foldl, outOk, ok_runSlot, ok_runPure, ok_runInt, Act.memOk, ok_runInt]

theorem ok_execXorImm {s : State} (h : s.memOk) (f : FI) : outOk (execXorImm f s) := by
  unfold execXorImm
  grind [memOk_mk, memOk_proj, ok_foldl, outOk, ok_runSlot, ok_runPure, ok_runInt, Act.memOk, ok_runInt]

theorem ok_execAndn {s : State} (h : s.memOk) (f : FA) : outOk (execAndn f s) := by
  unfold execAndn
  grind [memOk_mk, memOk_proj, ok_foldl, outOk, ok_runSlot, ok_runPure, ok_runInt, Act.memOk, ok_runInt]

theorem ok_execLsl {s : State} (h : s.memOk) (f : FA) : outOk (execLsl f s) := by
  unfold execLsl
  grind [memOk_mk, memOk_proj, ok_foldl, outOk, ok_runSlot, ok_runPure, ok_runInt, Act.memOk, ok_runInt]

theorem ok_execLslImm {s : State} (h : s.memOk) (f : FI) : outOk (execLslImm f s) := by
  unfold execLslImm
  grind [memOk_mk, memOk_proj, ok_foldl, outOk, ok_runSlot, ok_runPure, ok_runInt, Act.memOk, ok_runInt]

theorem ok_execLsr {s : State} (h : s.memOk) (f : FA) : outOk (execLsr f s) := by
  unfold execLsr
  grind [memOk_mk, memOk_proj, ok_foldl, outOk, ok_runSlot, ok_runPure, ok_runInt, Act.memOk, ok_runInt]

theorem ok_execLsrImm {s : State} (h : s.memOk) (f : FI) : outOk (execLsrImm f s) := by
  unfold execLsrImm
  grind [memOk_mk, memOk_proj, ok_foldl, outOk, ok_runSlot, ok_runPure, ok_runInt, Act.memOk, ok_runInt]

theorem ok_execAsr {s : State} (h : s.memOk) (f : FA) : outOk (execAsr f s) := by
  unfold execAsr
  grind [memOk_mk, memOk_proj, ok_foldl, outOk, ok_runSlot, ok_runPure, ok_runInt, Act.memOk, ok_runInt]

theorem ok_execAsrImm {s : State} (h : s.memOk) (f : FI) : outOk (execAsrImm f s) := by
  unfold execAsrImm
  grind [memOk_mk, memOk_proj, ok_foldl, outOk, ok_runSlot, ok_runPure, ok_runInt, Act.memOk, ok_runInt]

theorem ok_execRot {s : State} (h : s.memOk) (f : FA) : outOk (execRot f s) := by
  unfold execRot
  grind [memOk_mk, memOk_proj, ok_foldl, outOk, ok_runSlot, ok_runPure, ok_runInt, Act.memOk, ok_runInt]

theorem ok_execRotImm {s : State} (h : s.memOk) (f : FI) : outOk (execRotImm f s) := by
  unfold execRotImm
  grind [memOk_mk, memOk_proj, ok_foldl, outOk, ok_runSlot, ok_runPure, ok_runInt, Act.memOk, ok_runInt]

theorem ok_execBfx {s : State} (h : s.memOk) (f : FA) : outOk (execBfx f s) := by
  unfold execBfx
  grind [memOk_mk, memOk_proj, ok_foldl, outOk, ok_runSlot, ok_runPure, ok_runInt, Act.memOk, ok_runInt]

theorem ok_execBfxImm {s : State} (h : s.memOk) (f : FI) : outOk (execBfxImm f s) := by
  unfold execBfxImm
  grind [memOk_mk, memOk_proj, ok_foldl, outOk, ok_runSlot, ok_runPure, ok_runInt, Act.memOk, ok_runInt]

theorem ok_execBfi {s : State} (h : s.memOk) (f : FA) : outOk (execBfi f s) := by
  unfold execBfi
  grind [memOk_mk, memOk_proj, ok_foldl, outOk, ok_runSlot, ok_runPure, ok_runInt, Act.memOk, ok_runInt]

theorem ok_execPopc {s : State} (h : s.memOk) (f : FA) : outOk (execPopc f s) := by
  unfold execPopc
  grind [memOk_mk, memOk_proj, ok_foldl, outOk, ok_runSlot, ok_runPure, ok_runInt, Act.memOk, ok_runInt]

theorem ok_execClz {s : State} (h : s.memOk) (f : FA) : outOk (execClz f s) := by
  unfold execClz
  grind [memOk_mk, memOk_proj, ok_foldl, outOk, ok_runSlot, ok_runPure, ok_runInt, Act.memOk, ok_runInt]

theorem ok_execCtz {s : State} (h : s.memOk) (f : FA) : outOk (execCtz f s) := by
  unfold execCtz
  grind [memOk_mk, memOk_proj, ok_foldl, outOk, ok_runSlot, ok_runPure, ok_runInt, Act.memOk, ok_runInt]

theorem ok_execBrev {s : State} (h : s.memOk) (f : FA) : outOk (execBrev f s) := by
  unfold execBrev
  grind [memOk_mk, memOk_proj, ok_foldl, outOk, ok_runSlot, ok_runPure, ok_runInt, Act.memOk, ok_runInt]

theorem ok_execIcmp {s : State} (h : s.memOk) (f : FA) : outOk (execIcmp f s) := by
  unfold execIcmp
  grind [memOk_mk, memOk_proj, ok_foldl, outOk, ok_runSlot, ok_runPure, ok_runInt, Act.memOk, ok_runInt]

theorem ok_execIcmpImm {s : State} (h : s.memOk) (f : FI) : outOk (execIcmpImm f s) := by
  unfold execIcmpImm
  grind [memOk_mk, memOk_proj, ok_foldl, outOk, ok_runSlot, ok_runPure, ok_runInt, Act.memOk, ok_runInt]

theorem ok_execSel {s : State} (h : s.memOk) (f : FA) : outOk (execSel f s) := by
  unfold execSel
  grind [memOk_mk, memOk_proj, ok_foldl, outOk, ok_runSlot, ok_runPure, ok_runInt, Act.memOk, ok_runInt]

theorem ok_execMov {s : State} (h : s.memOk) (f : FA) : outOk (execMov f s) := by
  unfold execMov
  grind [memOk_mk, memOk_proj, ok_foldl, outOk, ok_runSlot, ok_runPure, ok_runInt, Act.memOk, ok_runInt]

theorem ok_execMovi {s : State} (h : s.memOk) (f : FI) : outOk (execMovi f s) := by
  unfold execMovi
  grind [memOk_mk, memOk_proj, ok_foldl, outOk, ok_runSlot, ok_runPure, ok_runInt, Act.memOk, ok_runInt]

theorem ok_execMovh {s : State} (h : s.memOk) (f : FI) : outOk (execMovh f s) := by
  unfold execMovh
  grind [memOk_mk, memOk_proj, ok_foldl, outOk, ok_runSlot, ok_runPure, ok_runInt, Act.memOk, ok_runInt]

theorem ok_execLea {s : State} (h : s.memOk) (f : FA) : outOk (execLea f s) := by
  unfold execLea
  grind [memOk_mk, memOk_proj, ok_foldl, outOk, ok_runSlot, ok_runPure, ok_runInt, Act.memOk, ok_runInt]

theorem ok_execLeaImm {s : State} (h : s.memOk) (f : FI) : outOk (execLeaImm f s) := by
  unfold execLeaImm
  grind [memOk_mk, memOk_proj, ok_foldl, outOk, ok_runSlot, ok_runPure, ok_runInt, Act.memOk, ok_runInt]

/-! FloatOps -/

theorem ok_execFadd {s : State} (h : s.memOk) (f : FA) : outOk (execFadd f s) := by
  unfold execFadd
  grind [memOk_mk, memOk_proj, ok_foldl, outOk, ok_runSlot, ok_runPure, ok_runInt, Act.memOk, ok_runPure]

theorem ok_execFsub {s : State} (h : s.memOk) (f : FA) : outOk (execFsub f s) := by
  unfold execFsub
  grind [memOk_mk, memOk_proj, ok_foldl, outOk, ok_runSlot, ok_runPure, ok_runInt, Act.memOk, ok_runPure]

theorem ok_execFmul {s : State} (h : s.memOk) (f : FA) : outOk (execFmul f s) := by
  unfold execFmul
  grind [memOk_mk, memOk_proj, ok_foldl, outOk, ok_runSlot, ok_runPure, ok_runInt, Act.memOk, ok_runPure]

theorem ok_execFma {s : State} (h : s.memOk) (f : FA) : outOk (execFma f s) := by
  unfold execFma
  grind [memOk_mk, memOk_proj, ok_foldl, outOk, ok_runSlot, ok_runPure, ok_runInt, Act.memOk, ok_runPure]

theorem ok_execFnma {s : State} (h : s.memOk) (f : FA) : outOk (execFnma f s) := by
  unfold execFnma
  grind [memOk_mk, memOk_proj, ok_foldl, outOk, ok_runSlot, ok_runPure, ok_runInt, Act.memOk, ok_runPure]

theorem ok_execFmin {s : State} (h : s.memOk) (f : FA) : outOk (execFmin f s) := by
  unfold execFmin
  grind [memOk_mk, memOk_proj, ok_foldl, outOk, ok_runSlot, ok_runPure, ok_runInt, Act.memOk, ok_runPure]

theorem ok_execFmax {s : State} (h : s.memOk) (f : FA) : outOk (execFmax f s) := by
  unfold execFmax
  grind [memOk_mk, memOk_proj, ok_foldl, outOk, ok_runSlot, ok_runPure, ok_runInt, Act.memOk, ok_runPure]

theorem ok_execFabs {s : State} (h : s.memOk) (f : FA) : outOk (execFabs f s) := by
  unfold execFabs
  grind [memOk_mk, memOk_proj, ok_foldl, outOk, ok_runSlot, ok_runPure, ok_runInt, Act.memOk, ok_runInt]

theorem ok_execFneg {s : State} (h : s.memOk) (f : FA) : outOk (execFneg f s) := by
  unfold execFneg
  grind [memOk_mk, memOk_proj, ok_foldl, outOk, ok_runSlot, ok_runPure, ok_runInt, Act.memOk, ok_runInt]

theorem ok_execFcps {s : State} (h : s.memOk) (f : FA) : outOk (execFcps f s) := by
  unfold execFcps
  grind [memOk_mk, memOk_proj, ok_foldl, outOk, ok_runSlot, ok_runPure, ok_runInt, Act.memOk, ok_runInt]

theorem ok_execFcmp {s : State} (h : s.memOk) (f : FA) : outOk (execFcmp f s) := by
  unfold execFcmp
  grind [memOk_mk, memOk_proj, ok_foldl, outOk, ok_runSlot, ok_runPure, ok_runInt, Act.memOk, ok_runPure]

theorem ok_execFcls {s : State} (h : s.memOk) (f : FA) : outOk (execFcls f s) := by
  unfold execFcls
  grind [memOk_mk, memOk_proj, ok_foldl, outOk, ok_runSlot, ok_runPure, ok_runInt, Act.memOk, ok_runInt]

theorem ok_execFdiv {s : State} (h : s.memOk) (f : FA) : outOk (execFdiv f s) := by
  unfold execFdiv
  grind [memOk_mk, memOk_proj, ok_foldl, outOk, ok_runSlot, ok_runPure, ok_runInt, Act.memOk, ok_runPure]

theorem ok_execFsqrt {s : State} (h : s.memOk) (f : FA) : outOk (execFsqrt f s) := by
  unfold execFsqrt
  grind [memOk_mk, memOk_proj, ok_foldl, outOk, ok_runSlot, ok_runPure, ok_runInt, Act.memOk, ok_runPure]

theorem ok_execFrcp {s : State} (h : s.memOk) (f : FA) : outOk (execFrcp f s) := by
  unfold execFrcp
  grind [memOk_mk, memOk_proj, ok_foldl, outOk, ok_runSlot, ok_runPure, ok_runInt, Act.memOk, ok_runPure]

theorem ok_execFrsq {s : State} (h : s.memOk) (f : FA) : outOk (execFrsq f s) := by
  unfold execFrsq
  grind [memOk_mk, memOk_proj, ok_foldl, outOk, ok_runSlot, ok_runPure, ok_runInt, Act.memOk, ok_runPure]

theorem ok_execFexp {s : State} (h : s.memOk) (f : FA) : outOk (execFexp f s) := by
  unfold execFexp
  grind [memOk_mk, memOk_proj, ok_foldl, outOk, ok_runSlot, ok_runPure, ok_runInt, Act.memOk, ok_runPure]

theorem ok_execFexp2 {s : State} (h : s.memOk) (f : FA) : outOk (execFexp2 f s) := by
  unfold execFexp2
  grind [memOk_mk, memOk_proj, ok_foldl, outOk, ok_runSlot, ok_runPure, ok_runInt, Act.memOk, ok_runPure]

theorem ok_execFlog {s : State} (h : s.memOk) (f : FA) : outOk (execFlog f s) := by
  unfold execFlog
  grind [memOk_mk, memOk_proj, ok_foldl, outOk, ok_runSlot, ok_runPure, ok_runInt, Act.memOk, ok_runPure]

theorem ok_execFlog2 {s : State} (h : s.memOk) (f : FA) : outOk (execFlog2 f s) := by
  unfold execFlog2
  grind [memOk_mk, memOk_proj, ok_foldl, outOk, ok_runSlot, ok_runPure, ok_runInt, Act.memOk, ok_runPure]

theorem ok_execFsin {s : State} (h : s.memOk) (f : FA) : outOk (execFsin f s) := by
  unfold execFsin
  grind [memOk_mk, memOk_proj, ok_foldl, outOk, ok_runSlot, ok_runPure, ok_runInt, Act.memOk, ok_runPure]

theorem ok_execFcos {s : State} (h : s.memOk) (f : FA) : outOk (execFcos f s) := by
  unfold execFcos
  grind [memOk_mk, memOk_proj, ok_foldl, outOk, ok_runSlot, ok_runPure, ok_runInt, Act.memOk, ok_runPure]

theorem ok_execFtanh {s : State} (h : s.memOk) (f : FA) : outOk (execFtanh f s) := by
  unfold execFtanh
  grind [memOk_mk, memOk_proj, ok_foldl, outOk, ok_runSlot, ok_runPure, ok_runInt, Act.memOk, ok_runPure]

theorem ok_execFsigm {s : State} (h : s.memOk) (f : FA) : outOk (execFsigm f s) := by
  unfold execFsigm
  grind [memOk_mk, memOk_proj, ok_foldl, outOk, ok_runSlot, ok_runPure, ok_runInt, Act.memOk, ok_runPure]

theorem ok_execFerf {s : State} (h : s.memOk) (f : FA) : outOk (execFerf f s) := by
  unfold execFerf
  grind [memOk_mk, memOk_proj, ok_foldl, outOk, ok_runSlot, ok_runPure, ok_runInt, Act.memOk, ok_runPure]

theorem ok_execFrnd {s : State} (h : s.memOk) (f : FA) : outOk (execFrnd f s) := by
  unfold execFrnd
  grind [memOk_mk, memOk_proj, ok_foldl, outOk, ok_runSlot, ok_runPure, ok_runInt, Act.memOk, ok_runPure]

theorem ok_execFlgr {s : State} (h : s.memOk) (f : FA) : outOk (execFlgr f s) := by
  unfold execFlgr
  grind [memOk_mk, memOk_proj, ok_foldl, outOk, ok_runSlot, ok_runPure, ok_runInt, Act.memOk, ok_runSlot]

theorem ok_execFlgc {s : State} (h : s.memOk) (f : FI) : outOk (execFlgc f s) := by
  unfold execFlgc
  grind [memOk_mk, memOk_proj, ok_foldl, outOk, ok_runSlot, ok_runPure, ok_runInt, Act.memOk, ok_runSlot]

theorem ok_execCvt {s : State} (h : s.memOk) (f : FA) : outOk (execCvt f s) := by
  unfold execCvt
  grind [memOk_mk, memOk_proj, ok_foldl, outOk, ok_runSlot, ok_runPure, ok_runInt, Act.memOk, ok_runPure]

theorem ok_execKdq {s : State} (h : s.memOk) (f : FA) : outOk (execKdq f s) := by
  unfold execKdq
  grind [memOk_mk, memOk_proj, ok_foldl, outOk, ok_runSlot, ok_runPure, ok_runInt, Act.memOk, ok_runPure]

theorem ok_execKdx {s : State} (h : s.memOk) (f : FA) : outOk (execKdx f s) := by
  unfold execKdx
  grind [memOk_mk, memOk_proj, ok_foldl, outOk, ok_runSlot, ok_runPure, ok_runInt, Act.memOk, ok_runPure]

/-! Rational -/

theorem ok_runQ {s : State} (h : s.memOk) (i : Instr) (t : Ty) (f : DWord → List Nat → Nat × Bool) : outOk (runQ i s t f) := by
  unfold runQ
  grind [memOk_mk, memOk_proj, ok_foldl, outOk, ok_runSlot, ok_runPure, ok_runInt, Act.memOk, ok_runSlot]

theorem ok_runQDiv {s : State} (h : s.memOk) (i : Instr) (n : Nat) (f : DWord → List Nat → Nat × Bool) : outOk (runQDiv i s n f) := by
  unfold runQDiv
  grind [memOk_mk, memOk_proj, ok_foldl, outOk, ok_runSlot, ok_runPure, ok_runInt, Act.memOk, ok_runSlot]

theorem ok_execQenc {s : State} (h : s.memOk) (f : FA) : outOk (execQenc f s) := by
  unfold execQenc
  grind [memOk_mk, memOk_proj, ok_foldl, outOk, ok_runSlot, ok_runPure, ok_runInt, Act.memOk, ok_runQDiv]

theorem ok_execQdec {s : State} (h : s.memOk) (f : FA) : outOk (execQdec f s) := by
  unfold execQdec
  grind [memOk_mk, memOk_proj, ok_foldl, outOk, ok_runSlot, ok_runPure, ok_runInt, Act.memOk, ok_runQ]

theorem ok_execQadd {s : State} (h : s.memOk) (f : FA) : outOk (execQadd f s) := by
  unfold execQadd
  grind [memOk_mk, memOk_proj, ok_foldl, outOk, ok_runSlot, ok_runPure, ok_runInt, Act.memOk, ok_runQ]

theorem ok_execQsub {s : State} (h : s.memOk) (f : FA) : outOk (execQsub f s) := by
  unfold execQsub
  grind [memOk_mk, memOk_proj, ok_foldl, outOk, ok_runSlot, ok_runPure, ok_runInt, Act.memOk, ok_runQ]

theorem ok_execQmul {s : State} (h : s.memOk) (f : FA) : outOk (execQmul f s) := by
  unfold execQmul
  grind [memOk_mk, memOk_proj, ok_foldl, outOk, ok_runSlot, ok_runPure, ok_runInt, Act.memOk, ok_runQ]

theorem ok_execQdiv {s : State} (h : s.memOk) (f : FA) : outOk (execQdiv f s) := by
  unfold execQdiv
  grind [memOk_mk, memOk_proj, ok_foldl, outOk, ok_runSlot, ok_runPure, ok_runInt, Act.memOk, ok_runQDiv]

theorem ok_execQinv {s : State} (h : s.memOk) (f : FA) : outOk (execQinv f s) := by
  unfold execQinv
  grind [memOk_mk, memOk_proj, ok_foldl, outOk, ok_runSlot, ok_runPure, ok_runInt, Act.memOk, ok_runQDiv]

theorem ok_execQneg {s : State} (h : s.memOk) (f : FA) : outOk (execQneg f s) := by
  unfold execQneg
  grind [memOk_mk, memOk_proj, ok_foldl, outOk, ok_runSlot, ok_runPure, ok_runInt, Act.memOk, ok_runQ]

theorem ok_execQeq {s : State} (h : s.memOk) (f : FA) : outOk (execQeq f s) := by
  unfold execQeq
  grind [memOk_mk, memOk_proj, ok_foldl, outOk, ok_runSlot, ok_runPure, ok_runInt, Act.memOk, ok_runQ]

/-! Guards -/

theorem ok_guardAct {s : State} (h : s.memOk) (l : Lane) (ok : Bool) (fl : Flags) : (guardAct s l ok fl).memOk := by
  unfold guardAct
  grind [memOk_mk, memOk_proj, ok_foldl, Act.memOk]

theorem ok_runGuard {s : State} (h : s.memOk) (i : Instr) (f : List Nat → Bool × Flags) : outOk (runGuard i s f) := by
  unfold runGuard
  grind [memOk_mk, memOk_proj, ok_foldl, outOk, ok_runSlot, ok_runPure, ok_runInt, Act.memOk, ok_runSlot, ok_guardAct]

theorem ok_execGcmp {s : State} (h : s.memOk) (f : FG) : outOk (execGcmp f s) := by
  unfold execGcmp
  grind [memOk_mk, memOk_proj, ok_foldl, outOk, ok_runSlot, ok_runPure, ok_runInt, Act.memOk, ok_runGuard]

theorem ok_execGcmpImm {s : State} (h : s.memOk) (f : FG) : outOk (execGcmpImm f s) := by
  unfold execGcmpImm
  grind [memOk_mk, memOk_proj, ok_foldl, outOk, ok_runSlot, ok_runPure, ok_runInt, Act.memOk, ok_runGuard]

theorem ok_execGz {s : State} (h : s.memOk) (f : FG) : outOk (execGz f s) := by
  unfold execGz
  grind [memOk_mk, memOk_proj, ok_foldl, outOk, ok_runSlot, ok_runPure, ok_runInt, Act.memOk, ok_runGuard]

theorem ok_execGnz {s : State} (h : s.memOk) (f : FG) : outOk (execGnz f s) := by
  unfold execGnz
  grind [memOk_mk, memOk_proj, ok_foldl, outOk, ok_runSlot, ok_runPure, ok_runInt, Act.memOk, ok_runGuard]

theorem ok_execGrng {s : State} (h : s.memOk) (f : FG) : outOk (execGrng f s) := by
  unfold execGrng
  grind [memOk_mk, memOk_proj, ok_foldl, outOk, ok_runSlot, ok_runPure, ok_runInt, Act.memOk, ok_runGuard]

theorem ok_execGflg {s : State} (h : s.memOk) (f : FG) : outOk (execGflg f s) := by
  unfold execGflg
  grind [memOk_mk, memOk_proj, ok_foldl, outOk, ok_runSlot, ok_runPure, ok_runInt, Act.memOk, ok_runSlot, ok_guardAct]

theorem ok_execGflgImm {s : State} (h : s.memOk) (f : FG) : outOk (execGflgImm f s) := by
  unfold execGflgImm
  grind [memOk_mk, memOk_proj, ok_foldl, outOk, ok_runSlot, ok_runPure, ok_runInt, Act.memOk, ok_runSlot, ok_guardAct]

theorem ok_execGfull {s : State} (h : s.memOk) (f : FG) : outOk (execGfull f s) := by
  unfold execGfull
  grind [memOk_mk, memOk_proj, ok_foldl, outOk, ok_runSlot, ok_runPure, ok_runInt, Act.memOk, ok_runSlot, ok_guardAct]

/-! ThreadCtl -/

theorem ok_execNop {s : State} (h : s.memOk) (f : FS) : outOk (execNop f s) := by
  unfold execNop
  grind [memOk_mk, memOk_proj, ok_foldl, outOk, ok_runSlot, ok_runPure, ok_runInt, Act.memOk, ok_runSlot]

theorem ok_execTrap {s : State} (h : s.memOk) (f : FS) : outOk (execTrap f s) := by
  unfold execTrap
  grind [memOk_mk, memOk_proj, ok_foldl, outOk, ok_runSlot, ok_runPure, ok_runInt, Act.memOk, ok_runSlot]

theorem ok_tretSlot {s : State} (h : s.memOk) (i : Instr) (skip : Bool) : outOk (tretSlot i skip s) := by
  unfold tretSlot
  grind [memOk_mk, memOk_proj, ok_foldl, outOk, ok_runSlot, ok_runPure, ok_runInt, Act.memOk, ok_runSlot]

theorem ok_execTretRe {s : State} (h : s.memOk) (f : FS) : outOk (execTretRe f s) := by
  unfold execTretRe
  grind [memOk_mk, memOk_proj, ok_foldl, outOk, ok_runSlot, ok_runPure, ok_runInt, Act.memOk, ok_tretSlot]

theorem ok_execTretSkip {s : State} (h : s.memOk) (f : FS) : outOk (execTretSkip f s) := by
  unfold execTretSkip
  grind [memOk_mk, memOk_proj, ok_foldl, outOk, ok_runSlot, ok_runPure, ok_runInt, Act.memOk, ok_tretSlot]

theorem ok_execCsrr {s : State} (h : s.memOk) (f : FS) : outOk (execCsrr f s) := by
  unfold execCsrr
  grind [memOk_mk, memOk_proj, ok_foldl, outOk, ok_runSlot, ok_runPure, ok_runInt, Act.memOk, ok_runSlot]

theorem ok_execCsrw {s : State} (h : s.memOk) (f : FS) : outOk (execCsrw f s) := by
  unfold execCsrw
  grind [memOk_mk, memOk_proj, ok_foldl, outOk, ok_runSlot, ok_runPure, ok_runInt, Act.memOk, ok_runSlot]

theorem ok_execCsrwImm {s : State} (h : s.memOk) (f : FS) : outOk (execCsrwImm f s) := by
  unfold execCsrwImm
  grind [memOk_mk, memOk_proj, ok_foldl, outOk, ok_runSlot, ok_runPure, ok_runInt, Act.memOk, ok_runSlot]

theorem ok_execFill {s : State} (h : s.memOk) (f : FS) : outOk (execFill f s) := by
  unfold execFill
  grind [memOk_mk, memOk_proj, ok_foldl, outOk, ok_runSlot, ok_runPure, ok_runInt, Act.memOk, ok_runSlot]

theorem ok_execVoid {s : State} (h : s.memOk) (f : FS) : outOk (execVoid f s) := by
  unfold execVoid
  grind [memOk_mk, memOk_proj, ok_foldl, outOk, ok_runSlot, ok_runPure, ok_runInt, Act.memOk, ok_runSlot]

theorem ok_waitf {s : State} (h : s.memOk) (i : Instr) (d : Nat) (n : Nat) (v : View) : (waitf i d n s v).memOk := by
  unfold waitf
  grind [memOk_mk, memOk_proj, ok_foldl, Act.memOk, ok_park]

theorem ok_execWaitf {s : State} (h : s.memOk) (f : FS) : outOk (execWaitf f s) := by
  unfold execWaitf
  grind [memOk_mk, memOk_proj, ok_foldl, outOk, ok_runSlot, ok_runPure, ok_runInt, Act.memOk, ok_runSlot, ok_waitf]

theorem ok_execChkerr {s : State} (h : s.memOk) (f : FS) : outOk (execChkerr f s) := by
  unfold execChkerr
  grind [memOk_mk, memOk_proj, ok_foldl, outOk, ok_runSlot, ok_runPure, ok_runInt, Act.memOk, ok_runSlot]

theorem ok_execChkerrAbort {s : State} (h : s.memOk) (f : FS) : outOk (execChkerrAbort f s) := by
  unfold execChkerrAbort
  grind [memOk_mk, memOk_proj, ok_foldl, outOk, ok_runSlot, ok_runPure, ok_runInt, Act.memOk, ok_runSlot]

theorem ok_execProg {s : State} (h : s.memOk) (f : FS) : outOk (execProg f s) := by
  unfold execProg
  grind [memOk_mk, memOk_proj, ok_foldl, outOk, ok_runSlot, ok_runPure, ok_runInt, Act.memOk, ok_runSlot]

theorem ok_execYield {s : State} (h : s.memOk) (f : FS) : outOk (execYield f s) := by
  unfold execYield
  grind [memOk_mk, memOk_proj, ok_foldl, outOk, ok_runSlot, ok_runPure, ok_runInt, Act.memOk, ok_runSlot]

theorem ok_execLaunch {s : State} (h : s.memOk) (f : FS) : outOk (execLaunch f s) := by
  unfold execLaunch
  grind [memOk_mk, memOk_proj, ok_foldl, outOk, ok_runSlot, ok_runPure, ok_runInt, Act.memOk, ok_checkAccess, ok_runSlot]

/-! MemoryOps -/

theorem ok_accessThen {s : State} (h : s.memOk) (i : Instr) (v : View) (pw : PWord) (va size n : Nat) (write atomic : Bool)
    (pre : Place → Option FaultInfo) (k : State → View → List (Place × Bool) → Act)
    (hk : ∀ s v ps, s.memOk → (k s v ps).memOk) : (accessThen i s v pw va size n write atomic pre k).memOk := by
  unfold accessThen
  have h1 := ok_checkAccess h v.t pw.space va size n write v.t.r
  generalize s.checkAccess v.t pw.space va size n write = x at h1
  obtain ⟨s1, x⟩ := x
  dsimp only at h1 ⊢
  split
  · simp_all [Act.memOk]
  · simp_all [Act.memOk]
  · rename_i s2 ps e
    obtain ⟨rfl, rfl⟩ := Prod.mk.inj e
    split
    · exact h1
    · have h2 := ok_judgeValues h1 v.t (v.accAt pw size) write atomic ((valueAddrs va size n).zip ps)
      generalize s1.judgeValues v.t (v.accAt pw size) write atomic ((valueAddrs va size n).zip ps) = y at h2
      obtain ⟨s3, notes, bad⟩ := y
      cases bad with
      | some f => exact h2
      | none => exact hk _ _ _ h2

theorem ok_loadNow {s : State} (h : s.memOk) (f : FM) (v : View) (pw : PWord) (ps : List (Place × Bool)) : (State.loadNow s f v pw ps).1.memOk := by
  unfold State.loadNow
  grind [memOk_mk, memOk_proj, ok_foldl, ok_askPeer, ok_acquireLine, ok_pendLine, ok_notePoison, ok_flushOut]

theorem ok_loadJudged {s : State} (h : s.memOk) (f : FM) (v : View) (pw : PWord) (va : Nat) (ps : List (Place × Bool))
    (k : State → View → Act) (hk : ∀ s v, s.memOk → (k s v).memOk) : (loadJudged f s v pw va ps k).memOk := by
  unfold loadJudged
  have h1 := ok_judgeValues h v.t (v.accAt pw f.ty.bytes) false false ((valueAddrs va f.ty.bytes (cntOf f.cnt)).zip ps)
  split
  · rename_i e; rw [e] at h1; exact h1
  · rename_i e; rw [e] at h1; exact hk _ _ h1

theorem ok_execLd {s : State} (h : s.memOk) (f : FM) : outOk (execLd f s) := by
  unfold execLd
  refine ok_runSlot h _ _ fun s v vals hs => ?_
  extract_lets i size n va pw posts
  have h1 := ok_checkAccess hs v.t pw.space va size n false (if posts then loadWho s.seq else v.t.r)
  split
  · rename_i e; rw [e] at h1; split <;> exact h1
  · rename_i e; rw [e] at h1; split <;> exact h1
  · rename_i s1 ps e
    rw [e] at h1
    split
    · exact ok_loadJudged h1 _ _ _ _ _ _ fun _ _ hs => hs
    · have h2 := ok_performLoads h1 v.t v.l s1.seq
      split
      · rename_i e; rw [e] at h2; exact h2
      · rename_i e; rw [e] at h2; exact h2
      · rename_i s2 l _ e
        rw [e] at h2
        refine ok_loadJudged h2 _ _ _ _ _ _ fun s3 v3 hs3 => ?_
        exact ok_loadNow hs3 f v3 pw ps

theorem ok_execSt {s : State} (h : s.memOk) (f : FM) : outOk (execSt f s) := by
  unfold execSt
  grind [memOk_mk, memOk_proj, ok_foldl, outOk, ok_runSlot, ok_runPure, ok_runInt, Act.memOk, ok_runSlot, ok_accessThen]

theorem ok_execPref {s : State} (h : s.memOk) (f : FM) : outOk (execPref f s) := by
  unfold execPref
  grind [memOk_mk, memOk_proj, ok_foldl, outOk, ok_runSlot, ok_runPure, ok_runInt, Act.memOk, ok_runSlot]

theorem ok_execPtog {s : State} (h : s.memOk) (f : FM) : outOk (execPtog f s) := by
  unfold execPtog
  grind [memOk_mk, memOk_proj, ok_foldl, outOk, ok_runSlot, ok_runPure, ok_runInt, Act.memOk, ok_runSlot]

theorem ok_execLdx {s : State} (h : s.memOk) (f : FX) : outOk (execLdx f s) := by
  unfold execLdx
  refine ok_runSlot h _ _ fun s v vals hs => ?_
  extract_lets i bytes unit va dst bar pw bad parts alloc outside
  split
  · exact hs
  · exact hs
  · have h1 := ok_placesOf hs v.t false parts v.t.r
    repeat' split
    all_goals first
      | exact hs
      | (rename_i e; rw [e] at h1; exact h1)

theorem ok_execFence {s : State} (h : s.memOk) (f : FM) : outOk (execFence f s) := by
  unfold execFence
  grind [memOk_mk, memOk_proj, ok_foldl, outOk, ok_runSlot, ok_runPure, ok_runInt, Act.memOk, ok_runSlot]

theorem ok_execWaitv {s : State} (h : s.memOk) (f : FM) : outOk (execWaitv f s) := by
  unfold execWaitv
  grind [memOk_mk, memOk_proj, ok_foldl, outOk, ok_runSlot, ok_runPure, ok_runInt, Act.memOk, ok_runSlot, ok_accessThen]

theorem ok_execPublish {s : State} (h : s.memOk) (f : FM) : outOk (execPublish f s) := by
  unfold execPublish
  grind [memOk_mk, memOk_proj, ok_foldl, outOk, ok_runSlot, ok_runPure, ok_runInt, Act.memOk, ok_placeOf, ok_runSlot]

theorem ok_atomSlot {s : State} (h : s.memOk) (i : Instr) (op : Nat) (f : FM) : outOk (atomSlot i op f s) := by
  unfold atomSlot
  grind [memOk_mk, memOk_proj, ok_foldl, outOk, ok_runSlot, ok_runPure, ok_runInt, Act.memOk, ok_runSlot, ok_accessThen]

theorem ok_execAtomAdd {s : State} (h : s.memOk) (f : FM) : outOk (execAtomAdd f s) := by
  unfold execAtomAdd
  grind [memOk_mk, memOk_proj, ok_foldl, outOk, ok_runSlot, ok_runPure, ok_runInt, Act.memOk, ok_atomSlot]

theorem ok_execAtomSub {s : State} (h : s.memOk) (f : FM) : outOk (execAtomSub f s) := by
  unfold execAtomSub
  grind [memOk_mk, memOk_proj, ok_foldl, outOk, ok_runSlot, ok_runPure, ok_runInt, Act.memOk, ok_atomSlot]

theorem ok_execAtomMin {s : State} (h : s.memOk) (f : FM) : outOk (execAtomMin f s) := by
  unfold execAtomMin
  grind [memOk_mk, memOk_proj, ok_foldl, outOk, ok_runSlot, ok_runPure, ok_runInt, Act.memOk, ok_atomSlot]

theorem ok_execAtomMax {s : State} (h : s.memOk) (f : FM) : outOk (execAtomMax f s) := by
  unfold execAtomMax
  grind [memOk_mk, memOk_proj, ok_foldl, outOk, ok_runSlot, ok_runPure, ok_runInt, Act.memOk, ok_atomSlot]

theorem ok_execAtomAnd {s : State} (h : s.memOk) (f : FM) : outOk (execAtomAnd f s) := by
  unfold execAtomAnd
  grind [memOk_mk, memOk_proj, ok_foldl, outOk, ok_runSlot, ok_runPure, ok_runInt, Act.memOk, ok_atomSlot]

theorem ok_execAtomOr {s : State} (h : s.memOk) (f : FM) : outOk (execAtomOr f s) := by
  unfold execAtomOr
  grind [memOk_mk, memOk_proj, ok_foldl, outOk, ok_runSlot, ok_runPure, ok_runInt, Act.memOk, ok_atomSlot]

theorem ok_execAtomXor {s : State} (h : s.memOk) (f : FM) : outOk (execAtomXor f s) := by
  unfold execAtomXor
  grind [memOk_mk, memOk_proj, ok_foldl, outOk, ok_runSlot, ok_runPure, ok_runInt, Act.memOk, ok_atomSlot]

theorem ok_execAtomExch {s : State} (h : s.memOk) (f : FM) : outOk (execAtomExch f s) := by
  unfold execAtomExch
  grind [memOk_mk, memOk_proj, ok_foldl, outOk, ok_runSlot, ok_runPure, ok_runInt, Act.memOk, ok_atomSlot]

theorem ok_execAtomCas {s : State} (h : s.memOk) (f : FM) : outOk (execAtomCas f s) := by
  unfold execAtomCas
  grind [memOk_mk, memOk_proj, ok_foldl, outOk, ok_runSlot, ok_runPure, ok_runInt, Act.memOk, ok_atomSlot]

theorem ok_execAtomFadd {s : State} (h : s.memOk) (f : FM) : outOk (execAtomFadd f s) := by
  unfold execAtomFadd
  grind [memOk_mk, memOk_proj, ok_foldl, outOk, ok_runSlot, ok_runPure, ok_runInt, Act.memOk, ok_atomSlot]

theorem ok_execAtomFmin {s : State} (h : s.memOk) (f : FM) : outOk (execAtomFmin f s) := by
  unfold execAtomFmin
  grind [memOk_mk, memOk_proj, ok_foldl, outOk, ok_runSlot, ok_runPure, ok_runInt, Act.memOk, ok_atomSlot]

theorem ok_execAtomFmax {s : State} (h : s.memOk) (f : FM) : outOk (execAtomFmax f s) := by
  unfold execAtomFmax
  grind [memOk_mk, memOk_proj, ok_foldl, outOk, ok_runSlot, ok_runPure, ok_runInt, Act.memOk, ok_atomSlot]

/-! CrossLane -/

/-! CrossLane -/

theorem ok_readPeers {s : State} (h : s.memOk) (l : List (View × Instr)) : (s.readPeers l).1.memOk := by
  induction l generalizing s with
  | nil => exact h
  | cons x l ih =>
    obtain ⟨v, i⟩ := x
    unfold State.readPeers
    refine ok_ite1 (ih (ok_illegal h _ _ _)) ?_
    have h1 := ok_readSources h v i
    split
    · rename_i e; rw [e] at h1; exact ih (ok_slotFault h1 _ _)
    · rename_i e; rw [e] at h1; exact h1
    · rename_i e
      rw [e] at h1
      have h2 := ih h1
      split
      · rename_i e; rw [e] at h2; exact h2
      · rename_i e; rw [e] at h2; exact h2

theorem ok_givePeers {s : State} (h : s.memOk) (ps : List Peer) (t : Ty) (res : Peer → Nat × Flags) : (State.givePeers s ps t res).memOk := by
  unfold State.givePeers
  grind [memOk_mk, memOk_proj, ok_foldl, ok_modLane]

theorem ok_runCross {s : State} (h : s.memOk) (i : Instr) (t : Ty) (res : List Peer → Peer → Nat × Flags) : outOk (runCross i s t res) := by
  unfold runCross
  split
  · trivial
  · rename_i v _
    have h1 := ok_readPeers h (s.crossPeers v i)
    split
    · rename_i e; rw [e] at h1; exact h1
    · rename_i e; rw [e] at h1; exact ok_givePeers h1 _ _ _

theorem ok_execShfl {s : State} (h : s.memOk) (f : FX) : outOk (execShfl f s) := by
  unfold execShfl
  grind [memOk_mk, memOk_proj, ok_foldl, outOk, ok_runSlot, ok_runPure, ok_runInt, Act.memOk, ok_runCross]

theorem ok_execXred {s : State} (h : s.memOk) (f : FX) : outOk (execXred f s) := by
  unfold execXred
  grind [memOk_mk, memOk_proj, ok_foldl, outOk, ok_runSlot, ok_runPure, ok_runInt, Act.memOk, ok_runCross]

theorem ok_execScan {s : State} (h : s.memOk) (f : FX) : outOk (execScan f s) := by
  unfold execScan
  grind [memOk_mk, memOk_proj, ok_foldl, outOk, ok_runSlot, ok_runPure, ok_runInt, Act.memOk, ok_runCross]

theorem ok_execVote {s : State} (h : s.memOk) (f : FX) : outOk (execVote f s) := by
  unfold execVote
  grind [memOk_mk, memOk_proj, ok_foldl, outOk, ok_runSlot, ok_runPure, ok_runInt, Act.memOk, ok_runCross]

/-! Groups -/

theorem ok_setMember {s : State} (h : s.memOk) (r : Nat) (m : Nat) (x : Option Membership) : (State.setMember s r m x).memOk := by
  unfold State.setMember
  grind [memOk_mk, memOk_proj, ok_foldl, ok_modThread, ok_modTag]

theorem ok_joinGroup {s : State} (h : s.memOk) (r : Nat) (g : Group) : (State.joinGroup s r g).1.memOk := by
  unfold State.joinGroup
  grind [memOk_mk, memOk_proj, ok_foldl, ok_modGroup, ok_setMember]

theorem ok_putGroup {s : State} (h : s.memOk) {g : Group} (hg : g.scr.wf = true) : (s.putGroup g).memOk := memOk_addGroup h hg

theorem ok_newHandle {s : State} (h : s.memOk) (ctx : Nat) : (State.newHandle s ctx).1.memOk := by
  unfold State.newHandle
  grind [memOk_mk, memOk_proj, ok_foldl, ok_modCtx]

theorem ok_groupNew {s : State} (h : s.memOk) (r scratch tiles : Nat) : (s.groupNew r scratch tiles).1.memOk := by
  unfold State.groupNew
  split
  · exact h
  · rename_i t _
    dsimp only
    refine ok_ite1 h ?_
    refine ok_joinGroup (ok_putGroup (ok_newHandle h _) rfl) _ _

theorem ok_groupJoin {s : State} (h : s.memOk) (r : Nat) (handle : Nat) : (State.groupJoin s r handle).1.memOk := by
  unfold State.groupJoin
  grind [memOk_mk, memOk_proj, ok_foldl, ok_joinGroup]

theorem ok_groupLeave {s : State} (h : s.memOk) (r : Nat) (handle : Nat) : (State.groupLeave s r handle).memOk := by
  unfold State.groupLeave
  grind [memOk_mk, memOk_proj, ok_foldl, ok_depart, ok_setMember]

theorem ok_joinSlot {s : State} (h : s.memOk) (i : Instr) (detail : List Nat → Nat) (h : List Nat → Hinge) : outOk (joinSlot i s detail h) := by
  unfold joinSlot
  grind [memOk_mk, memOk_proj, ok_foldl, outOk, ok_runSlot, ok_runPure, ok_runInt, Act.memOk, ok_runSlot]

theorem ok_execGnew {s : State} (h : s.memOk) (f : FX) : outOk (execGnew f s) := by
  unfold execGnew
  grind [memOk_mk, memOk_proj, ok_foldl, outOk, ok_runSlot, ok_runPure, ok_runInt, Act.memOk, ok_joinSlot]

theorem ok_execJoin {s : State} (h : s.memOk) (f : FX) : outOk (execJoin f s) := by
  unfold execJoin
  grind [memOk_mk, memOk_proj, ok_foldl, outOk, ok_runSlot, ok_runPure, ok_runInt, Act.memOk, ok_joinSlot]

theorem ok_execLeave {s : State} (h : s.memOk) (f : FX) : outOk (execLeave f s) := by
  unfold execLeave
  grind [memOk_mk, memOk_proj, ok_foldl, outOk, ok_runSlot, ok_runPure, ok_runInt, Act.memOk, ok_runSlot]

theorem ok_execGbar {s : State} (h : s.memOk) (f : FX) : outOk (execGbar f s) := by
  unfold execGbar
  grind [memOk_mk, memOk_proj, ok_foldl, outOk, ok_runSlot, ok_runPure, ok_runInt, Act.memOk, ok_runSlot]

theorem ok_execGrank {s : State} (h : s.memOk) (f : FX) : outOk (execGrank f s) := by
  unfold execGrank
  grind [memOk_mk, memOk_proj, ok_foldl, outOk, ok_runSlot, ok_runPure, ok_runInt, Act.memOk, ok_runSlot]

theorem ok_execGsize {s : State} (h : s.memOk) (f : FX) : outOk (execGsize f s) := by
  unfold execGsize
  grind [memOk_mk, memOk_proj, ok_foldl, outOk, ok_runSlot, ok_runPure, ok_runInt, Act.memOk, ok_runSlot]

theorem ok_execGset {s : State} (h : s.memOk) (f : FX) : outOk (execGset f s) := by
  unfold execGset
  grind [memOk_mk, memOk_proj, ok_foldl, outOk, ok_runSlot, ok_runPure, ok_runInt, Act.memOk, ok_runSlot]

/-! ClusterOps -/

theorem ok_noteView {s : State} (h : s.memOk) (v : View) (gid : Nat) (off : Nat) (n : Nat) : (State.noteView s v gid off n).memOk := by
  unfold State.noteView
  grind [memOk_mk, memOk_proj, ok_foldl, ok_notePoison]

theorem ok_ofExcept {s : State} (h : s.memOk) (x : Except FaultInfo Act) (hx : ∀ a, x = .ok a → a.memOk) : (ofExcept s x).memOk := by
  cases x with
  | ok a => exact hx a rfl
  | error f => exact h

/-! ClusterOps -/

theorem ok_filterPeers {α : Type} {s : State} (h : s.memOk) (chk : State → Peer → Except FaultInfo α) (l : List Peer) :
    (s.filterPeers chk l).1.memOk := by
  induction l generalizing s with
  | nil => exact h
  | cons p l ih =>
    unfold State.filterPeers
    split
    · exact ih h
    · exact ih (ok_slotFault h _ _)

theorem ok_issuePeers {s : State} (h : s.memOk) (ps : List (Peer × EngCmd)) : (State.issuePeers s ps).memOk := by
  unfold State.issuePeers
  grind [memOk_mk, memOk_proj, ok_foldl, ok_modLane]

theorem ok_runVote {s : State} (h : s.memOk) (peers : State → View → List (View × Instr))
    (chk : State → Peer → Except FaultInfo (Nat × Nat × Nat × Nat)) (word : Peer → Nat) (ok : Nat → Bool)
    (fin : State → Peer → Nat × Nat × Nat × Nat → Except FaultInfo EngCmd) (reads : State → Peer → Nat × Nat × Nat × Nat → State)
    (hr : ∀ s p x, s.memOk → (reads s p x).memOk) : outOk (runVote s peers chk word ok fin reads) := by
  unfold runVote
  split
  · trivial
  · rename_i v _
    have h1 := ok_readPeers h (peers s v)
    split
    · rename_i e; rw [e] at h1; exact h1
    · rename_i e
      rw [e] at h1
      exact ok_issuePeers (ok_filterPeers (ok_foldl (ok_filterPeers (ok_filterPeers h1 _ _) _ _) fun t x ht => hr _ _ _ ht) _ _) _

theorem ok_execMma {s : State} (h : s.memOk) (f : FE) : outOk (execMma f s) := by
  unfold execMma
  grind [memOk_mk, memOk_proj, ok_foldl, outOk, ok_runSlot, ok_runPure, ok_runInt, Act.memOk, ok_runVote]

theorem ok_tileSlot {s : State} (h : s.memOk) (i : Instr) (op : MOp) (f : FE)
    (refs : State → View → List Nat → Except FaultInfo (Nat × Nat × Nat × Nat)) : outOk (tileSlot i op f s refs) := by
  unfold tileSlot
  refine ok_runSlot h _ _ fun s v vals hs => ok_ofExcept hs _ fun a ha => ?_
  simp only [bind, Except.bind, pure, Except.pure] at ha
  grind [Act.memOk]

theorem ok_execMzero {s : State} (h : s.memOk) (f : FE) : outOk (execMzero f s) := by
  unfold execMzero
  grind [memOk_mk, memOk_proj, ok_foldl, outOk, ok_runSlot, ok_runPure, ok_runInt, Act.memOk, ok_tileSlot]

theorem ok_execMlda {s : State} (h : s.memOk) (f : FE) : outOk (execMlda f s) := by
  unfold execMlda
  grind [memOk_mk, memOk_proj, ok_foldl, outOk, ok_runSlot, ok_runPure, ok_runInt, Act.memOk, ok_tileSlot]

theorem ok_execMsta {s : State} (h : s.memOk) (f : FE) : outOk (execMsta f s) := by
  unfold execMsta
  grind [memOk_mk, memOk_proj, ok_foldl, outOk, ok_runSlot, ok_runPure, ok_runInt, Act.memOk, ok_tileSlot]

theorem ok_execMdrn {s : State} (h : s.memOk) (f : FE) : outOk (execMdrn f s) :=
  ok_runVote h _ _ _ _ _ _ fun _ p x hs => ok_noteView hs p.v x.1 x.2.1 64

theorem ok_execCpygo {s : State} (h : s.memOk) (f : FE) : outOk (execCpygo f s) := by
  unfold execCpygo
  refine ok_runSlot h _ _ fun s v vals hs => ?_
  dsimp only
  split
  · exact hs
  · refine ok_ofExcept (ok_noteView hs _ _ _ _) _ fun a ha => ?_
    simp only [pure, Except.pure] at ha
    grind [Act.memOk, ok_noteView]

theorem ok_execCpyw {s : State} (h : s.memOk) (f : FE) : outOk (execCpyw f s) := by
  unfold execCpyw
  refine ok_runSlot h _ _ fun s v vals hs => ok_ofExcept hs _ fun a ha => ?_
  generalize s.refCheck v (.cpyw f) (arg vals 0) 64 64 = r at ha
  cases r with
  | error e => exact absurd ha (by simp [bind, Except.bind])
  | ok x => obtain rfl := Except.ok.inj ha; exact ok_noteView hs _ _ _ _

theorem ok_execBinit {s : State} (h : s.memOk) (f : FE) : outOk (execBinit f s) := by
  unfold execBinit
  refine ok_runSlot h _ _ fun s v vals hs => ok_ofExcept hs _ fun a ha => ?_
  dsimp only at ha
  generalize s.refCheck v (.binit f) (arg vals 0) 16 16 = r at ha
  cases r with
  | error e => exact absurd ha (by simp [bind, Except.bind])
  | ok x =>
    simp only [bind, Except.bind, pure, Except.pure] at ha
    split at ha
    · cases ha
    · split at ha
      · cases ha
      · split at ha
        · cases ha
        · split at ha
          · cases ha
          · obtain rfl := Except.ok.inj ha
            exact ok_modGroup hs _ _ fun g hg => hg

theorem ok_execBarv {s : State} (h : s.memOk) (f : FE) : outOk (execBarv f s) := by
  unfold execBarv
  refine ok_runSlot h _ _ fun s v vals hs => ok_ofExcept hs _ fun a ha => ?_
  simp only [bind, Except.bind, pure, Except.pure] at ha
  grind [Act.memOk]

theorem ok_observeFlip {s : State} (h : s.memOk) (t : Thread) (gid : Nat) (off : Nat) : (State.observeFlip s t gid off).memOk := by
  unfold State.observeFlip
  grind [memOk_mk, memOk_proj, ok_foldl, ok_mergeInto]

theorem ok_execBwait {s : State} (h : s.memOk) (f : FE) : outOk (execBwait f s) := by
  unfold execBwait
  refine ok_runSlot h _ _ fun s v vals hs => ok_ofExcept hs _ fun a ha => ?_
  generalize s.refCheck v (.bwait f) (arg vals 0) 16 16 = r at ha
  cases r with
  | error e => exact absurd ha (by simp [bind, Except.bind])
  | ok x =>
    simp only [bind, Except.bind, pure, Except.pure] at ha
    split at ha
    · obtain rfl := Except.ok.inj ha
      exact ok_observeFlip (ok_noteScr hs _ _ _) _ _ _
    · obtain rfl := Except.ok.inj ha
      exact ok_noteScr hs _ _ _

theorem ok_execBtest {s : State} (h : s.memOk) (f : FE) : outOk (execBtest f s) := by
  unfold execBtest
  refine ok_runSlot h _ _ fun s v vals hs => ok_ofExcept hs _ fun a ha => ?_
  generalize s.refCheck v (.btest f) (arg vals 0) 16 16 = r at ha
  cases r with
  | error e => exact absurd ha (by simp [bind, Except.bind])
  | ok x =>
    obtain rfl := Except.ok.inj ha
    exact ok_ite (ok_observeFlip (ok_noteScr hs _ _ _) _ _ _) (ok_noteScr hs _ _ _)

theorem ok_execFlinit {s : State} (h : s.memOk) (f : FE) : outOk (execFlinit f s) := by
  unfold execFlinit
  refine ok_runSlot h _ _ fun s v vals hs => ok_ofExcept hs _ fun a ha => ?_
  simp only [bind, Except.bind, pure, Except.pure] at ha
  grind [Act.memOk]

theorem ok_takeSlot {s : State} (h : s.memOk) (gid : Nat) (off : Nat) : (State.takeSlot s gid off).1.memOk := by
  unfold State.takeSlot
  grind [memOk_mk, memOk_proj, ok_foldl, ok_modGroup, ok_scrWr]

theorem ok_execFlacq {s : State} (h : s.memOk) (f : FE) : outOk (execFlacq f s) := by
  unfold execFlacq
  refine ok_runSlot h _ _ fun s v vals hs => ok_ofExcept hs _ fun a ha => ?_
  generalize s.refCheck v (.flacq f) (arg vals 0) 32 32 = r at ha
  cases r with
  | error e => exact absurd ha (by simp [bind, Except.bind])
  | ok x =>
    simp only [bind, Except.bind, pure, Except.pure] at ha
    split at ha
    · obtain rfl := Except.ok.inj ha
      exact ok_noteScr hs _ _ _
    · obtain rfl := Except.ok.inj ha
      exact ok_takeSlot (ok_noteScr hs _ _ _) _ _

theorem ok_execFlrel {s : State} (h : s.memOk) (f : FE) : outOk (execFlrel f s) := by
  unfold execFlrel
  refine ok_runSlot h _ _ fun s v vals hs => ok_ofExcept hs _ fun a ha => ?_
  simp only [bind, Except.bind, pure, Except.pure] at ha
  grind [Act.memOk]

end Sys2Proof.Machine
end

