-- ==== Sys2Proof/Laws/MemOkCore.lean ====
section
/-! SUPPORT. The canonical form of memory is kept by commit, issue and the steps of the core, the cluster and their engines. `ok_f` says of `f`: where every memory of a state is in its
canonical form, so is every memory of the state that `f` hands on. -/

namespace Sys2Proof.Machine

open Sys2Proof

/-! Graphs -/

theorem ok_enqueue {s : State} (h : s.memOk) (graph : Nat) (idx : Nat) : (State.enqueue s graph idx).memOk := by
  unfold State.enqueue
  grind [memOk_mk, memOk_proj, ok_foldl, ok_modGraph]

theorem ok_acceptLaunch {s : State} (h : s.memOk) (ctx : Nat) (run : Nat) (va : Nat) (p : Place) (queue : Nat) : (State.acceptLaunch s ctx run va p queue).1.memOk := by
  unfold State.acceptLaunch
  grind [memOk_mk, memOk_proj, ok_foldl, ok_modRun, ok_modGraph, ok_nextEpoch, ok_notePoison, ok_enqueue]

theorem ok_handLaunch {s : State} (h : s.memOk) (x : HeldLaunch) : (State.handLaunch s x).1.memOk := by
  unfold State.handLaunch
  grind [memOk_mk, memOk_proj, ok_foldl, ok_acceptLaunch]

theorem ok_serveHeld {s : State} (h : s.memOk)  : (State.serveHeld s).memOk := by
  unfold State.serveHeld
  grind [memOk_mk, memOk_proj, ok_foldl, ok_modThread, ok_acceptLaunch]

/-! Commit -/

theorem ok_commitResults {s : State} (h : s.memOk) (v : View) : (State.commitResults s v).memOk := by
  unfold State.commitResults
  grind [memOk_mk, memOk_proj, ok_foldl, ok_modThread, ok_noteRegs]

theorem ok_commitUniforms {s : State} (h : s.memOk) (vs : List View) : (State.commitUniforms s vs).memOk := by
  unfold State.commitUniforms
  grind [memOk_mk, memOk_proj, ok_foldl, ok_modGroup]

theorem ok_countProgress {s : State} (h : s.memOk) (v : View) : (State.countProgress s v).memOk := by
  unfold State.countProgress
  grind [memOk_mk, memOk_proj, ok_foldl]

theorem ok_commitNotes {s : State} (h : s.memOk) (v : View) : (State.commitNotes s v).memOk := by
  unfold State.commitNotes
  grind [memOk_mk, memOk_proj, ok_foldl, ok_raceRecord, ok_raceLoad, ok_slot]

theorem ok_commitFlags {s : State} (h : s.memOk) (v : View) : (State.commitFlags s v).memOk := by
  unfold State.commitFlags
  grind [memOk_mk, memOk_proj, ok_foldl, ok_modThread]

theorem ok_translateLog {s : State} (h : s.memOk) (t : Thread) : (State.translateLog s t).memOk := by
  unfold State.translateLog
  grind [memOk_mk, memOk_proj, ok_foldl, ok_translateLoad, ok_setLog]

theorem ok_loadsBefore {s : State} (h : s.memOk) (t : Thread) (mine : List Nat) (stores : List Store) : (State.loadsBefore s t mine stores).memOk := by
  unfold State.loadsBefore
  grind [memOk_mk, memOk_proj, ok_foldl, ok_performEntry]

theorem ok_commitStores {s : State} (h : s.memOk) (v : View) : (State.commitStores s v).1.memOk := by
  unfold State.commitStores
  grind [memOk_mk, memOk_proj, ok_foldl, ok_modThread, ok_modPart, ok_modLane, ok_flushThread, ok_performLog, ok_translateLog, ok_loadsBefore]

theorem ok_binit {s : State} (h : s.memOk) (run r gid off expA expB : Nat) : (s.binit run r gid off expA expB).memOk := by
  unfold State.binit
  refine ok_wakeLines (ok_dropSnap (ok_modGroup (ok_noteScr (ok_mailObject h _ _) _ _ _) _ _ fun g hg => ?_) _) _ _
  show (if _ then g else _ : Group).scr.wf = true
  split
  · exact hg
  · exact ok_wr (ok_wr (ok_wr hg _ _ _) _ _ _) _ _ _

theorem ok_flinit {s : State} (h : s.memOk) (run gid off base nslot z : Nat) : (s.flinit run gid off base nslot z).memOk := by
  unfold State.flinit
  exact ok_ite (ok_noteScr h _ _ _) (ok_wakeLines (ok_modGroup h _ _ fun g hg => Memory.writeN_wf _ _ _ hg) _ _)

theorem ok_releaseEng {s : State} (h : s.memOk) (v : View) (c : EngCmd) : (State.releaseEng s v c).memOk := by
  unfold State.releaseEng
  grind [memOk_mk, memOk_proj, ok_foldl, ok_drainThread, ok_flushThread, ok_scrWr, ok_noteScr, ok_binit, ok_flinit]

theorem ok_formMatrix {s : State} (h : s.memOk) (gid : Nat) (mine : List (View × EngCmd)) : (State.formMatrix s gid mine).memOk := by
  unfold State.formMatrix
  grind [memOk_mk, memOk_proj, ok_foldl, ok_modGroup, ok_flushThread]

theorem ok_dropEng {s : State} (h : s.memOk) (p : PortId) (r : Nat) (slot : Nat) (c : EngCmd) : (State.dropEng s p r slot c).memOk := by
  unfold State.dropEng
  grind [memOk_mk, memOk_proj, ok_foldl, ok_modLane]

theorem ok_loadsDone {s : State} (h : s.memOk) (vs : List View) : (State.loadsDone s vs).1.memOk := by
  unfold State.loadsDone
  grind [memOk_mk, memOk_proj, ok_foldl, ok_performLog]

theorem ok_releaseAll {s : State} (h : s.memOk) (p : PortId) (l : List Release) : (s.releaseAll p l).1.memOk := by
  induction l generalizing s with
  | nil => exact h
  | cons x l ih =>
    cases x with
    | one r n c =>
      unfold State.releaseAll
      split
      · exact ih h
      · rename_i v _
        have h1 := ok_loadsDone h [v]
        split
        · rename_i e; rw [e] at h1; exact h1
        · rename_i e; rw [e] at h1; exact ih (ok_dropEng (ok_releaseEng h1 _ _) _ _ _ _)
    | matrix n gid tile =>
      unfold State.releaseAll
      extract_lets vs mine
      split
      · exact ok_modCluster h _ _
      · have h1 := ok_loadsDone h (mine.map (·.1))
        split
        · rename_i e; rw [e] at h1; exact h1
        · rename_i e
          rw [e] at h1
          exact ih (ok_foldl (ok_formMatrix h1 _ _) fun t x ht => ok_dropEng ht _ _ _ _)

theorem ok_tretResume {s : State} (h : s.memOk) (t : Thread) (tr : TrapState) (skip : Bool) : (State.tretResume s t tr skip).1.memOk := by
  unfold State.tretResume
  grind [memOk_mk, memOk_proj, ok_foldl, ok_modThread, ok_slot]

theorem ok_going {s : State} (h : s.memOk) (v : View) : (State.going s v).1.memOk := by
  unfold State.going
  grind [memOk_mk, memOk_proj, ok_foldl, ok_tretResume]

theorem ok_goTo {s : State} (h : s.memOk) (r : Nat) (g : Going) : (State.goTo s r g).memOk := by
  unfold State.goTo
  grind [memOk_mk, memOk_proj, ok_foldl, ok_modThread]

theorem ok_fillHinge {s : State} (h : s.memOk) (v : View) (value : Nat) : (State.fillHinge s v value).memOk := by
  unfold State.fillHinge
  grind [memOk_mk, memOk_proj, ok_foldl, ok_modThread]

theorem ok_allBefore {s : State} (h : s.memOk) (t : Thread) : (State.allBefore s t).memOk := by
  unfold State.allBefore
  grind [memOk_mk, memOk_proj, ok_foldl, ok_flushThread, ok_performLog]

theorem ok_parkWait {s : State} (h : s.memOk) (r : Nat) (w : Wait) : (State.parkWait s r w).memOk := by
  unfold State.parkWait
  grind [memOk_mk, memOk_proj, ok_foldl, ok_modThread, ok_park]

theorem ok_fence {s : State} (h : s.memOk) (t : Thread) (ord : Ord) : (State.fence s t ord).memOk := by
  unfold State.fence
  grind [memOk_mk, memOk_proj, ok_foldl, ok_modThread, ok_allBefore]

theorem ok_atom {s : State} (h : s.memOk) (v : View) (op : Nat) (ty : Ty) (data : Nat) (p : Place) (va : Nat) (pre : PWord) (race : RaceAttr) : (State.atom s v op ty data p va pre race).1.memOk := by
  unfold State.atom
  grind [memOk_mk, memOk_proj, ok_foldl, ok_setCir, ok_askPeer, ok_store, ok_raceWrite, ok_noteWrite, ok_wakeLines, ok_flushOut, ok_flushThread]

theorem ok_publish {s : State} (h : s.memOk) (v : View) (p : Place) : (State.publish s v p).1.memOk := by
  unfold State.publish
  grind [memOk_mk, memOk_proj, ok_foldl, ok_modRun, ok_store, ok_wakeLines, ok_allBefore]

theorem ok_cpygo {s : State} (h : s.memOk) (v : View) (gid : Nat) (off : Nat) (prod : Nat) : (State.cpygo s v gid off prod).memOk := by
  unfold State.cpygo
  grind [memOk_mk, memOk_proj, ok_foldl, ok_modGroup, ok_scrWr, ok_noteScr, ok_allBefore]

theorem ok_barv {s : State} (h : s.memOk) (v : View) (gid : Nat) (off : Nat) : (State.barv s v gid off).1.memOk := by
  unfold State.barv
  grind [memOk_mk, memOk_proj, ok_foldl, ok_noteScr, ok_barStamp, ok_arriveAt, ok_allBefore]

theorem ok_performHinge {s : State} (h : s.memOk) (v : View) (g : Going) : (State.performHinge s v g).memOk := by
  unfold State.performHinge
  grind [memOk_mk, memOk_proj, ok_foldl, ok_waitvOpen, ok_gbarArrive, ok_gbarResume, ok_takeTrap, ok_groupNew, ok_groupJoin, ok_groupLeave,
    ok_handLaunch, ok_fillHinge, ok_allBefore, ok_parkWait, ok_fence, ok_atom, ok_publish, ok_cpygo, ok_barv]

theorem ok_afterTret {s : State} (h : s.memOk) (r : Nat) : (State.afterTret s r).memOk := by
  unfold State.afterTret
  grind [memOk_mk, memOk_proj, ok_foldl, ok_modThread, ok_deferredTrap, ok_resumeWaits]

theorem ok_finishLane {s : State} (h : s.memOk) (v : View) (g : Going) : (State.finishLane s v g).memOk := by
  unfold State.finishLane
  grind [memOk_mk, memOk_proj, ok_foldl, ok_modThread, ok_modLane, ok_traceThread, ok_halt, ok_retireOps, ok_exitThread, ok_afterTret]

theorem ok_eachLane {s : State} (h : s.memOk) (p : PortId) (k : State → View → State × Bool) (l : List Nat)
    (hk : ∀ s v, s.memOk → (k s v).1.memOk) : (s.eachLane p k l).1.memOk := by
  induction l generalizing s with
  | nil => exact h
  | cons r l ih =>
    unfold State.eachLane
    split
    · exact ih h
    · rename_i v _
      have h1 := hk s v h
      split
      · rename_i e; rw [e] at h1; exact ih h1
      · rename_i e; rw [e] at h1; exact h1

theorem ok_commitGoing {s : State} (h : s.memOk) (v : View) : (State.commitGoing s v).memOk := by
  unfold State.commitGoing
  grind [memOk_mk, memOk_proj, ok_foldl, ok_modLane, ok_going]

theorem ok_commitBegin {s : State} (h : s.memOk) (vs : List View) : (State.commitBegin s vs).memOk := by
  unfold State.commitBegin
  grind [memOk_mk, memOk_proj, ok_foldl, ok_noteRec, ok_commitResults, ok_commitUniforms, ok_countProgress, ok_commitNotes, ok_commitFlags,
    ok_commitGoing]

theorem ok_commitHinge {s : State} (h : s.memOk) (v : View) : (State.commitHinge s v).1.memOk := by
  unfold State.commitHinge
  grind [memOk_mk, memOk_proj, ok_foldl, ok_modLane, ok_loadsDone, ok_goTo, ok_performHinge, ok_finishLane]

theorem ok_commitEnd {s : State} (h : s.memOk) (v : View) : (State.commitEnd s v).1.memOk := by
  unfold State.commitEnd
  grind [memOk_mk, memOk_proj, ok_foldl, ok_finishLane]

theorem ok_commitAborts {s : State} (h : s.memOk) (p : PortId) (runs : List Nat) : (State.commitAborts s p runs).memOk := by
  unfold State.commitAborts
  exact ok_foldl (ok_modBundle h _ _) fun _ _ ht => ok_failNode ht _

theorem ok_commitOn {s : State} (h : s.memOk) (p : PortId) (rs : List Nat) : (s.commitOn p rs).memOk := by
  unfold State.commitOn
  have h1 := ok_eachLane h p State.commitStores rs fun _ _ ht => ok_commitStores ht _
  split
  · rename_i e; rw [e] at h1; exact h1
  · rename_i s1 e
    rw [e] at h1
    have h2 := ok_releaseAll h1 p (releasesOf (rs.filterMap (s1.viewOf p)))
    split
    · rename_i e; rw [e] at h2; exact h2
    · rename_i s2 e
      rw [e] at h2
      have h3 := ok_eachLane h2 p State.commitHinge rs fun _ _ ht => ok_commitHinge ht _
      split
      · rename_i e; rw [e] at h3; exact h3
      · rename_i s3 e
        rw [e] at h3
        exact ok_leaveBundle (ok_modBundle (ok_commitAborts
          (ok_eachLane h3 p State.commitEnd rs fun _ _ ht => ok_commitEnd ht _) _ _) _ _) _

theorem ok_watchStop {s : State} (h : s.memOk) (v : View) (n : Nat) (va : Nat) : (State.watchStop s v n va).memOk := by
  unfold State.watchStop
  grind [memOk_mk, memOk_proj, ok_foldl, ok_halt, ok_leaveBundle, ok_abandon]

theorem ok_beforeCommit (v : View) {x : Read} (h : x.memOk) : (State.beforeCommit v x).memOk := by
  cases x with
  | ok s l _ => exact ok_modLane h _ _ _
  | fault s f => exact ok_slotFault h _ _
  | stall s l => exact ok_modLane h _ _ _

theorem ok_scReady {s : State} (h : s.memOk) (p : PortId) (vs : List View) : (State.scReady s p vs).1.memOk := by
  unfold State.scReady
  grind [memOk_mk, memOk_proj, ok_foldl, ok_drainThread, ok_translateLog]

theorem ok_judgeLate {s : State} (h : s.memOk) (v : View) (e : LogEntry) : (s.judgeLate v e).memOk := by
  unfold State.judgeLate
  have h1 := ok_translateLoad h v.t e
  split
  · rename_i e; rw [e] at h1; exact ok_modLane h1 _ _ _
  · rename_i e; rw [e] at h1; exact ok_beforeCommit _ (ok_settleEntry h1 _ _ _)

theorem ok_commitStep {s : State} (h : s.memOk) (p : PortId) : (s.commitStep p).memOk := by
  unfold State.commitStep
  extract_lets vs rs
  refine ok_ite h (ok_ite (ok_commitOn h _ _) ?_)
  split
  · exact ok_beforeCommit _ (ok_finishLoad h _ _ _)
  · split
    · exact ok_judgeLate h _ _
    · split
      · exact ok_watchStop h _ _ _
      · split
        · exact ok_slotFault h _ _
        · refine ok_ite h ?_
          have h1 := ok_scReady h p vs
          split
          · rename_i e; rw [e] at h1; exact h1
          · rename_i e
            rw [e] at h1
            split
            · exact ok_leaveBundle (ok_abandon h1 _ _) _
            · exact ok_commitOn (ok_commitBegin (ok_closeBanks h1 _) _) _ _

theorem ok_execCommit {s : State} (h : s.memOk) (p : PortId) : outOk (execCommit p s) := by
  unfold execCommit
  grind [memOk_mk, memOk_proj, ok_foldl, outOk, ok_runSlot, ok_runPure, ok_runInt, Act.memOk, ok_endFailing, ok_commitStep]

/-! Issue -/

theorem ok_enterReplay {s : State} (h : s.memOk) (p : PortId) (op : ReplayOp) : (State.enterReplay s p op).memOk := by
  unfold State.enterReplay
  grind [memOk_mk, memOk_proj, ok_foldl, ok_modCore, ok_modPart]

theorem ok_countIssue {s : State} (h : s.memOk) (v : View) : (State.countIssue s v).memOk := by
  unfold State.countIssue
  grind [memOk_mk, memOk_proj, ok_foldl, ok_modBundle, ok_modPart, ok_closeBanks]

theorem ok_keepSlot {s : State} (h : s.memOk) (before : State) (x : View) : (State.keepSlot s before x).memOk := by
  unfold State.keepSlot
  grind [memOk_mk, memOk_proj, ok_foldl, ok_modBundle, ok_readSources, ok_enterReplay]

theorem ok_keepIssue {s : State} (h : s.memOk) (before : State) (p : PortId) (r : Nat) : (State.keepIssue s before p r).memOk := by
  unfold State.keepIssue
  grind [memOk_mk, memOk_proj, ok_foldl, ok_keepSlot]

theorem ok_bpStop {s : State} (h : s.memOk) (v : View) (n : Nat) : (State.bpStop s v n).memOk := by
  unfold State.bpStop
  grind [memOk_mk, memOk_proj, ok_foldl, ok_halt, ok_abandon]

theorem ok_endHold {s : State} (h : s.memOk) (t : Thread) : (State.endHold s t).memOk := by
  unfold State.endHold
  grind [memOk_mk, memOk_proj, ok_foldl, ok_modThread, ok_mergePending]

theorem ok_issueWord {s : State} (h : s.memOk) (v : View) : (State.issueWord s v).memOk := by
  unfold State.issueWord
  grind [memOk_mk, memOk_proj, ok_foldl, Issued.memOk, ok_modLane, ok_slotFault, ok_illegal, ok_slot, ok_countIssue]

theorem ok_issue {s : State} (h : s.memOk) (p : PortId) (r : Nat) : (State.issue s p r).memOk := by
  unfold State.issue
  grind [memOk_mk, memOk_proj, ok_foldl, Issued.memOk, ok_leaveBundle, ok_bpStop, ok_endHold, ok_issueWord]

/-! CoreSteps -/

theorem ok_applyWaits {s : State} (h : s.memOk) (r : Nat) : (State.applyWaits s r).memOk := by
  unfold State.applyWaits
  grind [memOk_mk, memOk_proj, ok_foldl, ok_resumeWaits]

theorem ok_endNow {s : State} (h : s.memOk) (r : Nat) (e : Resume) : (s.endNow r e).memOk := by
  unfold State.endNow
  split
  · exact ok_exitThread (ok_traceThread (ok_leaveTable h _) _ _) _
  · exact ok_halt (ok_modThread (ok_leaveTable h _) _ _) _ _ _

theorem ok_applyEnding {s : State} (h : s.memOk) (r : Nat) : (State.applyEnding s r).memOk := by
  unfold State.applyEnding
  grind [memOk_mk, memOk_proj, ok_foldl, ok_endNow]

theorem ok_reachGather {s : State} (h : s.memOk) (r : Nat) : (State.reachGather s r).memOk := by
  unfold State.reachGather
  grind [memOk_mk, memOk_proj, ok_foldl, ok_leaveTable, ok_gatherArrive, ok_doubleTrap]

theorem ok_formBundle {s : State} (h : s.memOk) (p : PortId) (addr : Nat) (gather : Option Nat) (rs : List Nat) : (State.formBundle s p addr gather rs).memOk := by
  unfold State.formBundle
  grind [memOk_mk, memOk_proj, ok_foldl, ok_modThread, ok_modPart]

theorem ok_fillPort {s : State} (h : s.memOk) (p : PortId) : (State.fillPort s p).memOk := by
  unfold State.fillPort
  grind [memOk_mk, memOk_proj, ok_foldl, ok_formBundle]

theorem ok_formation {s : State} (h : s.memOk) (core : Nat) (part : Nat) : (State.formation s core part).memOk := by
  unfold State.formation
  grind [memOk_mk, memOk_proj, ok_foldl, ok_applyWaits, ok_applyEnding, ok_reachGather, ok_fillPort]

theorem ok_execBundleFormation {s : State} (h : s.memOk) (core : Nat) (part : Nat) : outOk (execBundleFormation core part s) := by
  unfold execBundleFormation
  grind [memOk_mk, memOk_proj, ok_foldl, outOk, ok_runSlot, ok_runPure, ok_runInt, Act.memOk, ok_formation]

theorem ok_promote {s : State} (h : s.memOk) (slot : Nat) : (State.promote s slot).memOk := by
  unfold State.promote
  grind [memOk_mk, memOk_proj, ok_foldl, ok_modPart]

theorem ok_execPromotion {s : State} (h : s.memOk) (slot : Nat) : outOk (execPromotion slot s) := by
  unfold execPromotion
  grind [memOk_mk, memOk_proj, ok_foldl, outOk, ok_runSlot, ok_runPure, ok_runInt, Act.memOk, ok_promote]

theorem ok_zeroPass {s : State} (h : s.memOk) (p : PortId) (tr : Trace) (t : Thread) : (State.zeroPass s p tr t).memOk := by
  unfold State.zeroPass
  grind [memOk_mk, memOk_proj, ok_foldl, ok_modThread, ok_modLane, ok_traceThread, ok_halt, ok_exitThread, ok_goTo]

theorem ok_enterLane {s : State} (h : s.memOk) (p : PortId) (tr : Trace) (r : Nat) : (State.enterLane s p tr r).memOk := by
  unfold State.enterLane
  grind [memOk_mk, memOk_proj, ok_foldl, ok_modThread, ok_modLane, ok_noteRegs, ok_trapLane, ok_slot, ok_zeroPass]

theorem ok_fetchTrap {s : State} (h : s.memOk) (p : PortId) (cause : Nat) (detail : Nat) (addr : Nat) (ttag : Nat) (r : Nat) : (State.fetchTrap s p cause detail addr ttag r).memOk := by
  unfold State.fetchTrap
  grind [memOk_mk, memOk_proj, ok_foldl, ok_trapLane]

theorem ok_fetch {s : State} (h : s.memOk) (p : PortId) : (s.fetch p).memOk := by
  unfold State.fetch
  split
  · exact h
  · rename_i b _
    extract_lets rs
    refine ok_ite h ?_
    split
    · exact ok_leaveBundle h _
    · rename_i runs _ t _
      have h1 := ok_fetchTrace h p.core t.ctx runs t.r b.addr b.gather.isSome
      split
      · rename_i e; rw [e] at h1; exact h1
      · rename_i e
        rw [e] at h1
        exact ok_leaveBundle (ok_foldl h1 fun t x ht => ok_fetchTrap ht _ _ _ _ _ _) _
      · rename_i e
        rw [e] at h1
        exact ok_ite h1 (ok_leaveBundle (ok_foldl (ok_modBundle h1 _ _) fun t x ht => ok_enterLane ht _ _ _) _)

theorem ok_execTraceFetch {s : State} (h : s.memOk) (p : PortId) : outOk (execTraceFetch p s) := by
  unfold execTraceFetch
  grind [memOk_mk, memOk_proj, ok_foldl, outOk, ok_runSlot, ok_runPure, ok_runInt, Act.memOk, ok_fetch]

theorem ok_waitfCheck {s : State} (h : s.memOk) (r : Nat) : (State.waitfCheck s r).memOk := by
  unfold State.waitfCheck
  grind [memOk_mk, memOk_proj, ok_foldl, ok_unpark]

theorem ok_resolve {s : State} (h : s.memOk) (e : LogEntry) : (State.resolve s e).memOk := by
  unfold State.resolve
  grind [memOk_mk, memOk_proj, ok_foldl, ok_waitvTry, ok_translateLoad, ok_setLog, ok_performLog]

theorem ok_fill {s : State} (h : s.memOk) (id : Nat) : (State.fill s id).memOk := by
  unfold State.fill
  grind [memOk_mk, memOk_proj, ok_foldl, ok_modThread, ok_noteRegs, ok_waitvTry, ok_gbarResume, ok_performLog, ok_waitfCheck, ok_resolve]

theorem ok_execPostedLoadFill {s : State} (h : s.memOk) (id : Nat) : outOk (execPostedLoadFill id s) := by
  unfold execPostedLoadFill
  grind [memOk_mk, memOk_proj, ok_foldl, outOk, ok_runSlot, ok_runPure, ok_runInt, Act.memOk, ok_fill]

theorem ok_deliver {s : State} (h : s.memOk) (id : Nat) : (State.deliver s id).memOk := by
  unfold State.deliver
  grind [memOk_mk, memOk_proj, ok_foldl, ok_deferFault, ok_waitfCheck]

theorem ok_execDeferredFault {s : State} (h : s.memOk) (id : Nat) : outOk (execDeferredFault id s) := by
  unfold execDeferredFault
  grind [memOk_mk, memOk_proj, ok_foldl, outOk, ok_runSlot, ok_runPure, ok_runInt, Act.memOk, ok_deliver]

theorem ok_walkEnd {s : State} (h : s.memOk) (die : Nat) (ctx : Nat) (page : Nat) : (State.walkEnd s die ctx page).1.memOk := by
  unfold State.walkEnd
  grind [memOk_mk, memOk_proj, ok_foldl, ok_hostAsk]

theorem ok_walkDone {s : State} (h : s.memOk) (die : Nat) (ctx : Nat) (page : Nat) : (State.walkDone s die ctx page).memOk := by
  unfold State.walkDone
  grind [memOk_mk, memOk_proj, ok_foldl, ok_modDie, ok_cacheLeaf, ok_resolve, ok_walkEnd]

theorem ok_execPageWalkComplete {s : State} (h : s.memOk) (die : Nat) (ctx : Nat) (page : Nat) : outOk (execPageWalkComplete die ctx page s) := by
  unfold execPageWalkComplete
  grind [memOk_mk, memOk_proj, ok_foldl, outOk, ok_runSlot, ok_runPure, ok_runInt, Act.memOk, ok_walkDone]

theorem ok_priDone {s : State} (h : s.memOk) (vf : Nat) (page : Nat) (grant : Option Bool) : (State.priDone s vf page grant).memOk := by
  unfold State.priDone
  grind [memOk_mk, memOk_proj, ok_foldl]

theorem ok_execPriResponse {s : State} (h : s.memOk) (vf : Nat) (page : Nat) (grant : Option Bool) : outOk (execPriResponse vf page grant s) := by
  unfold execPriResponse
  grind [memOk_mk, memOk_proj, ok_foldl, outOk, ok_runSlot, ok_runPure, ok_runInt, Act.memOk, ok_priDone]

theorem ok_drainOne {s : State} (h : s.memOk) (core : Nat) (part : Nat) : (State.drainOne s core part).memOk := by
  unfold State.drainOne
  grind [memOk_mk, memOk_proj, ok_foldl, ok_modCore, ok_drainBlock, ok_freeGroups]

theorem ok_execStoreBlockDrain {s : State} (h : s.memOk) (core : Nat) (part : Nat) : outOk (execStoreBlockDrain core part s) := by
  unfold execStoreBlockDrain
  grind [memOk_mk, memOk_proj, ok_foldl, outOk, ok_runSlot, ok_runPure, ok_runInt, Act.memOk, ok_drainOne]

theorem ok_homeOne {s : State} (h : s.memOk) (core : Nat) (idx : Nat) : (State.homeOne s core idx).memOk := by
  unfold State.homeOne
  grind [memOk_mk, memOk_proj, ok_foldl, ok_performStore]

theorem ok_execStorePerformedAtHome {s : State} (h : s.memOk) (core : Nat) (idx : Nat) : outOk (execStorePerformedAtHome core idx s) := by
  unfold execStorePerformedAtHome
  grind [memOk_mk, memOk_proj, ok_foldl, outOk, ok_runSlot, ok_runPure, ok_runInt, Act.memOk, ok_homeOne]

theorem ok_waitvTimeout {s : State} (h : s.memOk) (r : Nat) : (State.waitvTimeout s r).memOk := by
  unfold State.waitvTimeout
  grind [memOk_mk, memOk_proj, ok_foldl, ok_waitvTry]

theorem ok_execWaitvTimeoutCheck {s : State} (h : s.memOk) (slot : Nat) : outOk (execWaitvTimeoutCheck slot s) := by
  unfold execWaitvTimeoutCheck
  grind [memOk_mk, memOk_proj, ok_foldl, outOk, ok_runSlot, ok_runPure, ok_runInt, Act.memOk, ok_waitvTimeout]

theorem ok_fillDest {s : State} (h : s.memOk) (r : Nat) : (State.fillDest s r).memOk := by
  unfold State.fillDest
  grind [memOk_mk, memOk_proj, ok_foldl, ok_modThread, ok_noteRegs, ok_waitfCheck]

theorem ok_execHingeFill {s : State} (h : s.memOk) (slot : Nat) : outOk (execHingeFill slot s) := by
  unfold execHingeFill
  grind [memOk_mk, memOk_proj, ok_foldl, outOk, ok_runSlot, ok_runPure, ok_runInt, Act.memOk, ok_fillDest]

theorem ok_replayCheck {s : State} (h : s.memOk) (r : Nat) (slotNo : Nat) (kind : Nat) (pipe : Nat) (seen : List Nat) : (State.replayCheck s r slotNo kind pipe seen).memOk := by
  unfold State.replayCheck
  grind [memOk_mk, memOk_proj, ok_foldl, ok_modCore, ok_modPart, ok_slotFault]

theorem ok_execReplayCheck {s : State} (h : s.memOk) (slot : Nat) (slotNo : Nat) (kind : Nat) (pipe : Nat) (seen : List Nat) : outOk (execReplayCheck slot slotNo kind pipe seen s) := by
  unfold execReplayCheck
  grind [memOk_mk, memOk_proj, ok_foldl, outOk, ok_runSlot, ok_runPure, ok_runInt, Act.memOk, ok_replayCheck]

theorem ok_writeSync {s : State} (h : s.memOk) (core : Nat) : (State.writeSync s core).memOk := by
  unfold State.writeSync
  grind [memOk_mk, memOk_proj, ok_foldl, ok_modCore, ok_putTrace, ok_writeTrace]

theorem ok_execSyncPacket {s : State} (h : s.memOk) (core : Nat) : outOk (execSyncPacket core s) := by
  unfold execSyncPacket
  grind [memOk_mk, memOk_proj, ok_foldl, outOk, ok_runSlot, ok_runPure, ok_runInt, Act.memOk, ok_writeSync]

theorem ok_execPcSample {s : State} (h : s.memOk) (core : Nat) (pick : Nat) : outOk (execPcSample core pick s) := by
  unfold execPcSample
  grind [memOk_mk, memOk_proj, ok_foldl, outOk, ok_runSlot, ok_runPure, ok_runInt, Act.memOk]

theorem ok_hangEvents {s : State} (h : s.memOk) (ctx : Nat) (node : Nat) (words : List Nat) : (State.hangEvents s ctx node words).memOk := by
  unfold State.hangEvents
  grind [memOk_mk, memOk_proj, ok_foldl, ok_event]

theorem ok_hangEvent {s : State} (h : s.memOk) (ctx : Nat) (gid : Option Nat) (block : Nat) : (State.hangEvent s ctx gid block).memOk := by
  unfold State.hangEvent
  grind [memOk_mk, memOk_proj, ok_foldl, ok_modGroup, ok_modArrival, ok_hangEvents]

theorem ok_execHangEvent {s : State} (h : s.memOk) (ctx : Nat) (gid : Option Nat) (block : Nat) : outOk (execHangEvent ctx gid block s) := by
  unfold execHangEvent
  grind [memOk_mk, memOk_proj, ok_foldl, outOk, ok_runSlot, ok_runPure, ok_runInt, Act.memOk, ok_hangEvent]

theorem ok_barrierHang {s : State} (h : s.memOk) (gid : Nat) (off : Nat) : (State.barrierHang s gid off).memOk := by
  unfold State.barrierHang
  grind [memOk_mk, memOk_proj, ok_foldl, ok_modGroup, ok_hangEvents]

theorem ok_execBarrierObjectHang {s : State} (h : s.memOk) (gid : Nat) (off : Nat) : outOk (execBarrierObjectHang gid off s) := by
  unfold execBarrierObjectHang
  grind [memOk_mk, memOk_proj, ok_foldl, outOk, ok_runSlot, ok_runPure, ok_runInt, Act.memOk, ok_barrierHang]

theorem ok_passTime {s : State} (h : s.memOk) (d : Nat) : (s.passTime d).memOk := by
  refine ⟨h.1, h.2.1, h.2.2.1, fun x hx => ?_⟩
  obtain ⟨g, hg, rfl⟩ := List.mem_map.mp hx
  exact h.2.2.2 g hg

/-! Engines -/

theorem ok_engRead {s : State} (h : s.memOk) (run : Nat) (gid : Nat) (off : Nat) (n : Nat) : (State.engRead s run gid off n).1.memOk := by
  unfold State.engRead
  grind [memOk_mk, memOk_proj, ok_foldl, ok_notePoison]

theorem ok_engWrite {s : State} (h : s.memOk) (run : Nat) (ctx : Nat) (gid : Nat) (off : Nat) (l : List Byte) : (State.engWrite s run ctx gid off l).memOk := by
  unfold State.engWrite
  grind [memOk_mk, memOk_proj, ok_foldl, ok_engineWrite]

theorem ok_gfold {α : Type} {f : Group → α → Group} {g : Group} {l : List α} (h : g.scr.wf = true)
    (hf : ∀ t x, t.scr.wf = true → (f t x).scr.wf = true) : (l.foldl f g).scr.wf = true := by
  induction l generalizing g with
  | nil => exact h
  | cons x l ih => exact ih (hf g x h)

theorem ok_pfold {α β : Type} {f : State × β → α → State × β} {x : State × β} {l : List α} (h : x.1.memOk)
    (hf : ∀ y a, y.1.memOk → (f y a).1.memOk) : (l.foldl f x).1.memOk := by
  induction l generalizing x with
  | nil => exact h
  | cons a l ih => exact ih (hf x a h)

theorem joinFlags_scr (g : Group) (tile row : Nat) (f : Flags) : (g.joinFlags tile row f).scr = g.scr := rfl

theorem setElem_scr (g : Group) (tile row col w v : Nat) : (g.setElem tile row col w v).scr = g.scr := by
  unfold Group.setElem; split <;> rfl

theorem ok_mmaRow {s : State} (h : s.memOk) (g : Nat) (c : MCmd) (cols : List (List Byte)) (x : MRow) : (s.mmaRow g c cols x).memOk := by
  unfold State.mmaRow
  dsimp only
  refine ok_modGroup (ok_engRead h _ _ _ _) _ _ fun g hg => ok_gfold hg fun t y ht => ?_
  show (t.setElem _ _ _ _ _).scr.wf = true
  rw [setElem_scr]; exact ht

theorem ok_mmaStep {s : State} (h : s.memOk) (g : Nat) (c : MCmd) : (s.mmaStep g c).memOk := by
  unfold State.mmaStep
  dsimp only
  exact ok_foldl (ok_pfold h fun y a hy => ok_engRead hy _ _ _ _) fun t x ht => ok_mmaRow ht _ _ _ _

theorem ok_loadRow {s : State} (h : s.memOk) (g : Nat) (c : MCmd) (x : MRow) : (s.loadRow g c x).memOk := by
  unfold State.loadRow
  dsimp only
  refine ok_modGroup (ok_engRead h _ _ _ _) _ _ fun g hg => ?_
  unfold Group.setFlags
  dsimp only
  refine ok_gfold hg fun t y ht => ?_
  rw [setElem_scr]; exact ht

theorem ok_storeRow {s : State} (h : s.memOk) (g : Nat) (c : MCmd) (x : MRow) : (s.storeRow g c x).1.memOk := h

theorem ok_drainRow {s : State} (h : s.memOk) (g : Nat) (c : MCmd) (x : MRow) : (s.drainRow g c x).1.memOk := by
  have h1 : (if fwRes c.fword then s.engRead c.run c.blk.resGid (c.blk.resOff + 256 * x.row) 256 else (s, [])).1.memOk :=
    ok_ite1 (ok_engRead h _ _ _ _) h
  unfold State.drainRow
  extract_lets i
  generalize (if fwRes c.fword then s.engRead c.run c.blk.resGid (c.blk.resOff + 256 * i) 256 else (s, [])) = y at h1
  obtain ⟨s1, res⟩ := y
  dsimp -zeta only
  extract_lets raw es s2
  have h2 : s2.memOk := ok_modGroup h1 _ _ fun g hg => (joinFlags_scr g _ _ _).symm ▸ hg
  exact h2

theorem ok_showSome {s : State} (h : s.memOk) (gid : Nat) : (s.showSome gid).memOk := by
  unfold State.showSome
  split
  · exact h
  · extract_lets l now s1 s2
    exact ok_foldl (ok_modGroup h _ _ fun g hg => hg) fun t x ht => ok_wakeLines (ok_putByte ht _ _) _ _

theorem ok_showAll {s : State} (h : s.memOk) (d : DrainPend) : (State.showAll s d).memOk := by
  unfold State.showAll
  grind [memOk_mk, memOk_proj, ok_foldl, ok_engWrite]

theorem ok_popMatrix {s : State} (h : s.memOk) (g : Nat) : (State.popMatrix s g).memOk := by
  unfold State.popMatrix
  grind [memOk_mk, memOk_proj, ok_foldl, ok_modGroup, ok_freeGroups]

theorem ok_noteTiles {s : State} (h : s.memOk) (gid : Nat) (c : MCmd) : (State.noteTiles s gid c).memOk := by
  unfold State.noteTiles
  grind [memOk_mk, memOk_proj, ok_foldl, ok_notePoison]

theorem zeroRow_scr (g : Group) (tile row : Nat) : (g.zeroRow tile row).scr = g.scr := rfl

theorem ok_matrixStep {s : State} (h : s.memOk) (gid : Nat) : (s.matrixStep gid).memOk := by
  unfold State.matrixStep
  split
  · exact h
  · split
    · exact h
    · rename_i c _ _
      have h := ok_noteTiles h gid c
      extract_lets s1 pend
      change s1.memOk at h
      have hp : ∀ f : State → MRow → State × Nat × Nat × List Byte, (∀ t x, t.memOk → (f t x).1.memOk) → (pend f).memOk :=
        fun f hf => by
          have h1 := ok_pfold (f := fun (x : State × List (Nat × Nat × List Byte)) r => ((f x.1 r).1, x.2 ++ [(f x.1 r).2]))
            (x := (s1, [])) (l := c.rows) h fun y a hy => hf _ _ hy
          exact ok_modGroup h1 gid _ fun g hg => hg
      clear_value pend s1
      split
      · exact ok_popMatrix (ok_mmaStep h _ _) _
      · refine ok_popMatrix (ok_modGroup h _ _ fun g hg => ok_gfold hg fun t x ht => ?_) _
        rw [zeroRow_scr]; exact ht
      · exact ok_popMatrix (ok_foldl h fun t x ht => ok_loadRow ht _ _ _) _
      · exact hp _ fun t x ht => ok_storeRow ht _ _ _
      · exact hp _ fun t x ht => ok_drainRow ht _ _ _

theorem ok_tileTurn {s : State} (h : s.memOk) (cluster : Nat) : (State.tileTurn s cluster).memOk := by
  unfold State.tileTurn
  grind [memOk_mk, memOk_proj, ok_foldl, ok_modCluster, ok_showSome, ok_matrixStep]

theorem ok_execTileStep {s : State} (h : s.memOk) (cluster : Nat) : outOk (execTileStep cluster s) := by
  unfold execTileStep
  grind [memOk_mk, memOk_proj, ok_foldl, outOk, ok_runSlot, ok_runPure, ok_runInt, Act.memOk, ok_tileTurn]

theorem ok_joinOwner {s : State} (h : s.memOk) (gid : Nat) (c : MCmd) (x : MRow) : (s.joinOwner gid c x).memOk := by
  unfold State.joinOwner
  split
  · exact h
  · exact ok_modGroup (ok_modThread h _ _) _ _ fun g hg => hg

theorem ok_drainDone {s : State} (h : s.memOk) (gid : Nat) : (s.drainDone gid).memOk := by
  unfold State.drainDone
  split
  · exact h
  · extract_lets c s1 s2 s3
    have h2 : s2.memOk := ok_signal (ok_showAll h _) _ _ _ _ _
    have h3 : s3.memOk := by
      refine ok_ite (ok_modGroup h2 _ _ fun g hg => ok_gfold hg fun t x ht => ok_gfold ht fun t x ht => ?_) h2
      rw [setElem_scr]; exact ht
    exact ok_popMatrix (ok_foldl h3 fun t x ht => ok_joinOwner ht _ _ _) _

theorem ok_execDrainComplete {s : State} (h : s.memOk) (gid : Nat) : outOk (execDrainComplete gid s) := by
  unfold execDrainComplete
  grind [memOk_mk, memOk_proj, ok_foldl, outOk, ok_runSlot, ok_runPure, ok_runInt, Act.memOk, ok_drainDone]

theorem ok_runMatrix {s : State} (h : s.memOk) (gid n : Nat) : (s.runMatrix gid n).memOk := by
  induction n generalizing s with
  | zero => exact h
  | succ n ih => unfold State.runMatrix; grind [ok_matrixStep, ok_drainDone]

theorem ok_copySide {s : State} (h : s.memOk) (gid : Nat) (core : Nat) (c : CopyCur) (write : Bool) (n : Nat) : (State.copySide s gid core c write n).1.memOk := by
  unfold State.copySide
  grind [memOk_mk, memOk_proj, ok_foldl, ok_xlat]

theorem ok_setCopy {s : State} (h : s.memOk) (gid : Nat) (c : CopyCur) : (State.setCopy s gid c).memOk := by
  unfold State.setCopy
  grind [memOk_mk, memOk_proj, ok_foldl, ok_modGroup]

def Moved.memOk : Moved → Prop
  | .moved s _ => s.memOk
  | .stopped s _ => s.memOk
  | .wait s => s.memOk

theorem ok_moveTo {s : State} (h : s.memOk) (gid core : Nat) (c : CopyCur) (va : Nat)
    (dst : State → State × Except (Option (Nat × Nat)) (Place × Bool)) (hd : ∀ t, t.memOk → (dst t).1.memOk) :
    (s.moveTo gid core c va dst).memOk := by
  unfold State.moveTo
  have h1 := ok_copySide h gid core c false c.next
  split
  · rename_i e; rw [e] at h1; exact h1
  · rename_i e; rw [e] at h1; exact h1
  · rename_i e
    rw [e] at h1
    have h2 := hd _ h1
    split
    · rename_i e; rw [e] at h2; exact h2
    · rename_i e; rw [e] at h2; exact h2
    · rename_i e
      rw [e] at h2
      dsimp only
      exact ok_engineWrite (ok_notePoison (ok_askPeer h2 _ _) _ _) _ _ _ _ _ _

theorem ok_copyRun {s : State} (h : s.memOk) (gid core : Nat) (c : CopyCur) (n : Nat) : (s.copyRun gid core c n).1.memOk := by
  induction n generalizing s c with
  | zero => exact h
  | succ n ih =>
    unfold State.copyRun
    refine ok_ite1 h (ok_ite1 h ?_)
    have h1 := ok_moveTo h gid core c c.dstVa (fun s => s.copySide gid core c true c.next) fun t ht => ok_copySide ht _ _ _ _ _
    split
    · rename_i e; rw [e] at h1; exact ih h1 _
    · rename_i e; rw [e] at h1; exact h1
    · rename_i e; rw [e] at h1; exact h1

theorem ok_copyStart {s : State} (h : s.memOk) (g : Group) (k : Ring) : (s.copyStart g k).memOk := by
  unfold State.copyStart
  extract_lets pos cover
  split
  · exact h
  · rename_i snap _
    extract_lets c s1 bar
    have h1 : s1.memOk := ok_foldl (ok_ite (ok_noteScr h _ _ _) h) fun t x ht => ok_noteScr ht _ _ _
    exact ok_ite h1 (ok_ite (ok_setCopy h1 _ _) (ok_setCopy h1 _ _))

theorem ok_tookTurn {s : State} (h : s.memOk) (g : Group) : (State.tookTurn s g).memOk := by
  unfold State.tookTurn
  grind [memOk_mk, memOk_proj, ok_foldl, ok_modCluster]

theorem ok_copyTurn {s : State} (h : s.memOk) (gid : Nat) : (s.copyTurn gid).memOk := by
  unfold State.copyTurn
  split
  · exact h
  · rename_i g _
    have h1 := ok_tookTurn h g
    refine ok_ite h ?_
    split
    · exact h
    · split
      · exact ok_copyStart h1 _ _
      · exact ok_ite h (ok_setCopy (ok_copyRun h1 _ _ _ _) _ _)

theorem ok_execCopyCommandStart {s : State} (h : s.memOk) (gid : Nat) : outOk (execCopyCommandStart gid s) := by
  unfold execCopyCommandStart
  grind [memOk_mk, memOk_proj, ok_foldl, outOk, ok_runSlot, ok_runPure, ok_runInt, Act.memOk, ok_copyTurn]

theorem ok_haloOpen {s : State} (h : s.memOk) (gid : Nat) : (State.haloOpen s gid).memOk := by
  unfold State.haloOpen
  grind [memOk_mk, memOk_proj, ok_foldl, ok_noteScr, ok_setCopy]

theorem ok_execHaloStart {s : State} (h : s.memOk) (gid : Nat) : outOk (execHaloStart gid s) := by
  unfold execHaloStart
  grind [memOk_mk, memOk_proj, ok_foldl, outOk, ok_runSlot, ok_runPure, ok_runInt, Act.memOk, ok_haloOpen]

theorem ok_fillSlots {s : State} (h : s.memOk) (c : CopyCur) (n : Nat) : (State.fillSlots s c n).memOk := by
  unfold State.fillSlots
  grind [memOk_mk, memOk_proj, ok_foldl, ok_unpark, ok_scrWr, ok_noteScr]

theorem ok_flumeEnd {s : State} (h : s.memOk) (c : CopyCur) : (State.flumeEnd s c).memOk := by
  unfold State.flumeEnd
  grind [memOk_mk, memOk_proj, ok_foldl, ok_fillSlots]

theorem ok_nextSlot {s : State} (h : s.memOk) (c : CopyCur) : (State.nextSlot s c).memOk := by
  unfold State.nextSlot
  grind [memOk_mk, memOk_proj, ok_foldl, ok_scrWr, ok_fillSlots]

theorem ok_flumeRun {s : State} (h : s.memOk) (gid core : Nat) (c : CopyCur) (n : Nat) : (s.flumeRun gid core c n).1.memOk := by
  induction n generalizing s c with
  | zero => exact h
  | succ n ih =>
    unfold State.flumeRun
    extract_lets z o e slot at_ dst
    refine ok_ite1 h (ok_ite1 (ok_flumeEnd h _) (ok_ite1 (ok_flumeEnd h _) ?_))
    have h1 := ok_moveTo h gid core c scratchBase dst fun t ht => ht
    split
    · rename_i e; rw [e] at h1; exact ok_ite1 (ok_flumeEnd (ok_nextSlot h1 _) _) (ih (ok_nextSlot h1 _) _)
    · rename_i e; rw [e] at h1; exact ok_flumeEnd h1 _
    · rename_i e; rw [e] at h1; exact h1

theorem ok_flumeTurn {s : State} (h : s.memOk) (gid : Nat) : (s.flumeTurn gid).memOk := by
  unfold State.flumeTurn
  split
  · exact h
  · rename_i g _
    refine ok_ite h ?_
    split
    · exact h
    · rename_i c _
      exact ok_ite h (ok_setCopy (ok_flumeRun (ok_noteScr (ok_tookTurn h g) _ _ _) gid g.home c c.perTurn) _ _)

theorem ok_execFlumeSlotWrite {s : State} (h : s.memOk) (gid : Nat) : outOk (execFlumeSlotWrite gid s) := by
  unfold execFlumeSlotWrite
  grind [memOk_mk, memOk_proj, ok_foldl, outOk, ok_runSlot, ok_runPure, ok_runInt, Act.memOk, ok_flumeTurn]

theorem ok_copyDone {s : State} (h : s.memOk) (gid : Nat) : (s.copyDone gid).memOk := by
  unfold State.copyDone
  split
  · exact h
  · split
    · exact h
    · split
      · exact h
      · refine ok_ite h ?_
        extract_lets s1 cons s2 s3 s4
        have h2 : s2.memOk := ok_engWrite (ok_engWrite h _ _ _ _ _) _ _ _ _ _
        have h4 : s4.memOk := ok_modGroup (ok_ite h2 (ok_engWrite h2 _ _ _ _ _)) _ _ fun g hg => hg
        refine ok_freeGroups ?_
        split
        · exact ok_signal h4 _ _ _ _ _
        · exact h4

theorem ok_execCopyCommandComplete {s : State} (h : s.memOk) (gid : Nat) : outOk (execCopyCommandComplete gid s) := by
  unfold execCopyCommandComplete
  grind [memOk_mk, memOk_proj, ok_foldl, outOk, ok_runSlot, ok_runPure, ok_runInt, Act.memOk, ok_copyDone]

theorem ok_ldxRun {s : State} (h : s.memOk) (x : LdxMove) : (State.ldxRun s x).memOk := by
  unfold State.ldxRun
  grind [memOk_mk, memOk_proj, ok_foldl, ok_askPeer, ok_notePoison, ok_freeGroups, ok_signal, ok_engWrite]

theorem ok_execLdxTransferComplete {s : State} (h : s.memOk) (id : Nat) : outOk (execLdxTransferComplete id s) := by
  unfold execLdxTransferComplete
  grind [memOk_mk, memOk_proj, ok_foldl, outOk, ok_runSlot, ok_runPure, ok_runInt, Act.memOk, ok_ldxRun]

theorem ok_mailStep {s : State} (h : s.memOk) (die : Nat) : (State.mailStep s die).memOk := by
  unfold State.mailStep
  grind [memOk_mk, memOk_proj, ok_foldl, ok_applySignal]

theorem ok_execMailboxSignal {s : State} (h : s.memOk) (die : Nat) : outOk (execMailboxSignal die s) := by
  unfold execMailboxSignal
  grind [memOk_mk, memOk_proj, ok_foldl, outOk, ok_runSlot, ok_runPure, ok_runInt, Act.memOk, ok_mailStep]

theorem ok_mailAll {s : State} (h : s.memOk) (gid : Nat) : (State.mailAll s gid).memOk := by
  unfold State.mailAll
  grind [memOk_mk, memOk_proj, ok_foldl, ok_applySignal]

theorem ok_roundEnd {s : State} (h : s.memOk) (core : Nat) : (State.roundEnd s core).memOk := by
  unfold State.roundEnd
  grind [memOk_mk, memOk_proj, ok_foldl, ok_modCore]

theorem ok_execRoundBoundary {s : State} (h : s.memOk) (core : Nat) : outOk (execRoundBoundary core s) := by
  unfold execRoundBoundary
  grind [memOk_mk, memOk_proj, ok_foldl, outOk, ok_runSlot, ok_runPure, ok_runInt, Act.memOk, ok_roundEnd]

theorem ok_gate {s : State} (h : s.memOk) (core : Nat) (on : Bool) : (State.gate s core on).memOk := by
  unfold State.gate
  grind [memOk_mk, memOk_proj, ok_foldl, ok_modCore, ok_mailAll]

theorem ok_execPowerGating {s : State} (h : s.memOk) (core : Nat) (on : Bool) : outOk (execPowerGating core on s) := by
  unfold execPowerGating
  grind [memOk_mk, memOk_proj, ok_foldl, outOk, ok_runSlot, ok_runPure, ok_runInt, Act.memOk, ok_gate]

theorem ok_resetCore {s : State} (h : s.memOk) (core : Nat) : (State.resetCore s core).memOk := by
  unfold State.resetCore
  grind [memOk_mk, memOk_proj, ok_foldl, ok_modCore, ok_flushOut, ok_drainBlock, ok_leaveBundle, ok_abandon]

theorem ok_execCoreReset {s : State} (h : s.memOk) (core : Nat) : outOk (execCoreReset core s) := by
  unfold execCoreReset
  grind [memOk_mk, memOk_proj, ok_foldl, outOk, ok_runSlot, ok_runPure, ok_runInt, Act.memOk, ok_resetCore]

end Sys2Proof.Machine
end

