-- ==== Sys2Proof/Laws/MemOkDevice.lean ====
section
/-! SUPPORT. The canonical form of memory is kept by debugging, the die scheduler, the loader, the package, management and the host. `ok_f` says of `f`: where every memory of a state is in its
canonical form, so is every memory of the state that `f` hands on. -/

namespace Sys2Proof.Machine

open Sys2Proof

/-! Debug -/

theorem ok_answer {s : State} (h : s.memOk) (code : Nat) : (State.answer s code).memOk := by
  unfold State.answer
  grind [memOk_mk, memOk_proj, ok_foldl]

theorem ok_takeFreeNat {s : State} (h : s.memOk)  : (State.takeFreeNat s).1.memOk := by
  unfold State.takeFreeNat
  grind [memOk_mk, memOk_proj, ok_foldl]

theorem ok_refuse {s : State} (h : s.memOk)  : (State.refuse s).memOk := by
  unfold State.refuse
  grind [memOk_mk, memOk_proj, ok_foldl, ok_answer, ok_takeFreeNat]

theorem ok_await {s : State} (h : s.memOk) (i : Instr) : (State.await s i).memOk := by
  unfold State.await
  grind [memOk_mk, memOk_proj, ok_foldl]

theorem ok_inTurn {s : State} (h : s.memOk) (i : Instr) (k : State → State) (hk : ∀ t, t.memOk → (k t).memOk) : (s.inTurn i k).memOk := by
  unfold State.inTurn
  exact ok_ite (ok_await h _) (hk _ h)

theorem ok_command {s : State} (h : s.memOk) (marked : Bool) (i : Instr) (k : State → State) (hk : ∀ t, t.memOk → (k t).memOk) :
    (s.command marked i k).memOk := by
  have h1 := ok_inTurn h i k hk
  unfold State.command
  exact ok_ite (ok_await h _) (ok_ite h1 (ok_ite (ok_ite h1 (ok_answer h _)) (ok_ite h (ok_ite h1 (ok_refuse h)))))

theorem ok_writeReg {s : State} (h : s.memOk) (ctx : Nat) (core : Nat) (reg : DebugReg) (v : BitVec 64) : (State.writeReg s ctx core reg v).memOk := by
  unfold State.writeReg
  grind [memOk_mk, memOk_proj, ok_foldl, ok_modCore, ok_answer, ok_refuse, ok_command]

theorem ok_execRegisterWrite {s : State} (h : s.memOk) (target : DebugTarget) (reg : DebugReg) (value : BitVec 64) : outOk (execRegisterWrite target reg value s) := by
  unfold execRegisterWrite
  grind [memOk_mk, memOk_proj, ok_foldl, outOk, ok_runSlot, ok_runPure, ok_runInt, Act.memOk, ok_writeReg]

theorem ok_debugBlock {s : State} (h : s.memOk) (ctx : Nat) (cmd : DebugCmd) : (s.debugBlock ctx cmd).memOk := by
  cases cmd with
  | attach => exact h
  | detach => exact h
  | traceOn core base size => exact ok_answer (ok_writeSync (ok_modCore h _ _) _) _
  | traceOff core => exact ok_answer (ok_modCore h _ _) _
  | trial lo hi d => exact ok_answer (ok_modCtx h _ _) _
  | trialOff => exact ok_answer (ok_modCtx h _ _) _
  | readCounters core => exact h

theorem ok_debug {s : State} (h : s.memOk) (ctx : Nat) (cmd : DebugCmd) : (State.debug s ctx cmd).memOk := by
  unfold State.debug
  grind [memOk_mk, memOk_proj, ok_foldl, ok_modCtx, ok_event, ok_detach, ok_answer, ok_takeFreeNat, ok_refuse, ok_command, ok_debugBlock]

theorem ok_execDebug {s : State} (h : s.memOk) (ctx : Nat) (cmd : DebugCmd) : outOk (execDebug ctx cmd s) := by
  unfold execDebug
  grind [memOk_mk, memOk_proj, ok_foldl, outOk, ok_runSlot, ok_runPure, ok_runInt, Act.memOk, ok_debug]

theorem ok_debugHalt {s : State} (h : s.memOk) (r : Nat) : (State.debugHalt s r).memOk := by
  unfold State.debugHalt
  grind [memOk_mk, memOk_proj, ok_foldl, ok_halt, ok_detach, ok_leaveBundle, ok_abandon]

theorem ok_execDebugHalt {s : State} (h : s.memOk) (slot : Nat) : outOk (execDebugHalt slot s) := by
  unfold execDebugHalt
  grind [memOk_mk, memOk_proj, ok_foldl, outOk, ok_runSlot, ok_runPure, ok_runInt, Act.memOk, ok_debugHalt]

theorem ok_resumeHalted {s : State} (h : s.memOk) (r : Nat) : (State.resumeHalted s r).memOk := by
  unfold State.resumeHalted
  grind [memOk_mk, memOk_proj, ok_foldl, ok_modThread, ok_enterTable, ok_park, ok_waitvTry, ok_gbarResume, ok_deferredTrap]

theorem ok_resumeThread {s : State} (h : s.memOk) (t : Thread) : (State.resumeThread s t).memOk := by
  unfold State.resumeThread
  grind [memOk_mk, memOk_proj, ok_foldl, ok_modThread, ok_resumeHalted]

theorem ok_debugResume {s : State} (h : s.memOk) (r : Nat) : (State.debugResume s r).memOk := by
  unfold State.debugResume
  grind [memOk_mk, memOk_proj, ok_foldl, ok_resumeThread]

theorem ok_execDebugResume {s : State} (h : s.memOk) (slot : Nat) : outOk (execDebugResume slot s) := by
  unfold execDebugResume
  grind [memOk_mk, memOk_proj, ok_foldl, outOk, ok_runSlot, ok_runPure, ok_runInt, Act.memOk, ok_debugResume]

theorem ok_debugPass {s : State} (h : s.memOk) (r : Nat) : (State.debugPass s r).memOk := by
  unfold State.debugPass
  grind [memOk_mk, memOk_proj, ok_foldl, ok_modThread, ok_resumeThread]

theorem ok_execDebugResumeOneTimePass {s : State} (h : s.memOk) (slot : Nat) : outOk (execDebugResumeOneTimePass slot s) := by
  unfold execDebugResumeOneTimePass
  grind [memOk_mk, memOk_proj, ok_foldl, outOk, ok_runSlot, ok_runPure, ok_runInt, Act.memOk, ok_debugPass]

theorem ok_stepBegin {s : State} (h : s.memOk) (t : Thread) : (State.stepBegin s t).memOk := by
  unfold State.stepBegin
  grind [memOk_mk, memOk_proj, ok_foldl, ok_modThread, ok_leaveTable, ok_endNow, ok_formBundle, ok_answer, ok_resumeThread]

theorem ok_slotStep {s : State} (h : s.memOk) (r : Nat) : (State.slotStep s r).memOk := by
  unfold State.slotStep
  grind [memOk_mk, memOk_proj, ok_foldl, ok_modThread, ok_resumeHalted, ok_stepBegin]

theorem ok_execSlotStep {s : State} (h : s.memOk) (slot : Nat) : outOk (execSlotStep slot s) := by
  unfold execSlotStep
  grind [memOk_mk, memOk_proj, ok_foldl, outOk, ok_runSlot, ok_runPure, ok_runInt, Act.memOk, ok_slotStep]

theorem ok_debugAbandon {s : State} (h : s.memOk) (r : Nat) : (State.debugAbandon s r).memOk := by
  unfold State.debugAbandon
  grind [memOk_mk, memOk_proj, ok_foldl, ok_leaveBundle, ok_abandon]

theorem ok_execDebugAbandon {s : State} (h : s.memOk) (slot : Nat) : outOk (execDebugAbandon slot s) := by
  unfold execDebugAbandon
  grind [memOk_mk, memOk_proj, ok_foldl, outOk, ok_runSlot, ok_runPure, ok_runInt, Act.memOk, ok_debugAbandon]

/-! Sched -/

theorem ok_moveName {s : State} (h : s.memOk) (r : Nat) (r' : Nat) (gen' : Nat) : (State.moveName s r r' gen').memOk := by
  unfold State.moveName
  grind [memOk_mk, memOk_proj, ok_foldl]

theorem ok_saveThread {s : State} (h : s.memOk) (r : Nat) : (State.saveThread s r).memOk := by
  unfold State.saveThread
  grind [memOk_mk, memOk_proj, ok_foldl, ok_modThread, ok_leaveTable, ok_traceThread, ok_moveName]

theorem ok_saveGroup {s : State} (h : s.memOk) (gid : Nat) : (State.saveGroup s gid).memOk := by
  unfold State.saveGroup
  grind [memOk_mk, memOk_proj, ok_foldl, ok_modGroup, ok_saveThread]

theorem ok_finishMatrix {s : State} (h : s.memOk) (gid : Nat) : (State.finishMatrix s gid).memOk := by
  unfold State.finishMatrix
  grind [memOk_mk, memOk_proj, ok_foldl, ok_runMatrix]

theorem ok_finishLdx {s : State} (h : s.memOk) (p : LdxMove → Bool) : (State.finishLdx s p).memOk := by
  unfold State.finishLdx
  grind [memOk_mk, memOk_proj, ok_foldl, ok_ldxRun]

theorem ok_fillAll {s : State} (h : s.memOk) (r : Nat) : (State.fillAll s r).memOk := by
  unfold State.fillAll
  grind [memOk_mk, memOk_proj, ok_foldl, ok_fillDest]

theorem ok_ifRoom {s : State} (h : s.memOk) {t : State} (ht : t.memOk) : (s.ifRoom t).memOk := ok_ite ht h

theorem ok_swapOut {s : State} (h : s.memOk) (gid : Nat) : (State.swapOut s gid).memOk := by
  unfold State.swapOut
  grind [memOk_mk, memOk_proj, ok_foldl, ok_modGroup, ok_flushThread, ok_saveGroup, ok_finishMatrix, ok_finishLdx, ok_fillAll, ok_ifRoom]

theorem ok_execSwapOut {s : State} (h : s.memOk) (gid : Nat) : outOk (execSwapOut gid s) := by
  unfold execSwapOut
  grind [memOk_mk, memOk_proj, ok_foldl, outOk, ok_runSlot, ok_runPure, ok_runInt, Act.memOk, ok_swapOut]

theorem ok_occupySlot {s : State} (h : s.memOk) (ctx : Nat) (slot : Nat) (home : Nat) : (State.occupySlot s ctx slot home).1.memOk := by
  unfold State.occupySlot
  grind [memOk_mk, memOk_proj, ok_foldl, ok_nextEpoch]

theorem ok_setLead {s : State} (h : s.memOk) (ctx : Nat) (core : Nat) : (State.setLead s ctx core).memOk := by
  unfold State.setLead
  grind [memOk_mk, memOk_proj, ok_foldl, ok_modCluster]

theorem ok_moveTag {s : State} (h : s.memOk) (name : Nat) (old : Nat) (slot : Nat) (new : Nat) : (State.moveTag s name old slot new).memOk := by
  unfold State.moveTag
  grind [memOk_mk, memOk_proj, ok_foldl]

theorem ok_restoreThread {s : State} (h : s.memOk) (r : Nat) (slot : Nat) : (State.restoreThread s r slot).memOk := by
  unfold State.restoreThread
  grind [memOk_mk, memOk_proj, ok_foldl, ok_moveName, ok_occupySlot, ok_moveTag]

theorem ok_goOnRestored {s : State} (h : s.memOk) (r : Nat) : (State.goOnRestored s r).memOk := by
  unfold State.goOnRestored
  grind [memOk_mk, memOk_proj, ok_foldl, ok_modThread, ok_enterTable, ok_traceThread, ok_unpark, ok_waitvTry, ok_gbarResume, ok_waitfCheck]

theorem ok_placeSaved {s : State} (h : s.memOk) (g : Group) (at_ : Placement) (out : State) (e : s.placeSaved g at_ = some out) :
    out.memOk := by
  unfold State.placeSaved at e
  extract_lets mine sets s1 s2 s3 at e
  have h1 : s1.memOk := ok_modGroup h _ _ fun g hg => hg
  have h2 : s2.memOk := ok_foldl h1 fun t x ht => ok_restoreThread ht _ _
  have h3 : s3.memOk := ok_setLead h2 _ _
  split at e
  · simp at e
  · split at e
    · simp only [Option.some.injEq] at e
      exact e ▸ h3
    · simp at e

theorem ok_placeLoose {s : State} (h : s.memOk) (ctx : Nat) (slots : List Nat) (out : State) (e : s.placeLoose ctx slots = some out) :
    out.memOk := by
  unfold State.placeLoose at e
  dsimp only at e
  split at e
  · simp at e
  · split at e
    · simp only [Option.some.injEq] at e
      subst e
      exact ok_foldl (ok_foldl h fun t x ht => ok_restoreThread ht _ _) fun t x ht => ok_goOnRestored ht _
    · simp at e

theorem ok_placeAll {s : State} (h : s.memOk) (l : List (Group × Placement)) (out : State) (e : s.placeAll l = some out) : out.memOk := by
  induction l generalizing s with
  | nil => exact Option.some.inj e ▸ h
  | cons x l ih =>
    obtain ⟨t, ht, e⟩ := Option.bind_eq_some_iff.mp e
    exact ih (ok_placeSaved h _ _ _ ht) e

theorem ok_restoreGroup {s : State} (h : s.memOk) (places : List (Nat × Placement)) : (s.restoreGroup places).memOk := by
  unfold State.restoreGroup
  refine ok_ite h ?_
  split
  · exact h
  · refine ok_ite (ok_ite (ok_getD h fun t ht => ok_placeLoose h _ _ _ ht) h) ?_
    extract_lets x gs
    refine ok_ite (ok_getD h fun t ht => ?_) h
    obtain ⟨u, hu, rfl⟩ := Option.map_eq_some_iff.mp ht
    exact ok_foldl (ok_placeAll (ok_foldl h fun t y ht => ok_mailAll ht _) _ _ hu) fun t r ht => ok_goOnRestored ht _

theorem ok_execGroupRestore {s : State} (h : s.memOk) (gids : List Nat) (places : List Placement) : outOk (execGroupRestore gids places s) := by
  unfold execGroupRestore
  grind [memOk_mk, memOk_proj, ok_foldl, outOk, ok_runSlot, ok_runPure, ok_runInt, Act.memOk, ok_restoreGroup]

theorem ok_slice {s : State} (h : s.memOk) (die : Nat) : (State.slice s die).memOk := by
  unfold State.slice
  grind [memOk_mk, memOk_proj, ok_foldl, ok_modDie]

theorem ok_execSliceBoundary {s : State} (h : s.memOk) (die : Nat) : outOk (execSliceBoundary die s) := by
  unfold execSliceBoundary
  grind [memOk_mk, memOk_proj, ok_foldl, outOk, ok_runSlot, ok_runPure, ok_runInt, Act.memOk, ok_slice]

theorem ok_abandonBundle {s : State} (h : s.memOk) (b : Bundle) : (State.abandonBundle s b).memOk := by
  unfold State.abandonBundle
  grind [memOk_mk, memOk_proj, ok_foldl, ok_leaveBundle, ok_abandon]

theorem ok_abandonAll {s : State} (h : s.memOk) (rs : List Nat) : (State.abandonAll s rs).memOk := by
  unfold State.abandonAll
  grind [memOk_mk, memOk_proj, ok_foldl, ok_abandonBundle]

theorem ok_stopBegin {s : State} (h : s.memOk) (die : Nat) (c : Context) (cores : List Nat) : (State.stopBegin s die c cores).memOk := by
  unfold State.stopBegin
  grind [memOk_mk, memOk_proj, ok_foldl, ok_modDie, ok_abandonAll]

theorem ok_stopEnd {s : State} (h : s.memOk) (die : Nat) (c : Context) (q : StopReq) : (State.stopEnd s die c q).memOk := by
  unfold State.stopEnd
  grind [memOk_mk, memOk_proj, ok_foldl, ok_modDie, ok_event, ok_flushThread, ok_saveThread, ok_saveGroup, ok_finishMatrix, ok_finishLdx, ok_fillAll,
    ok_ifRoom, ok_abandonAll]

theorem ok_stop {s : State} (h : s.memOk) (die : Nat) (ctx : Nat) (cores : List Nat) : (State.stop s die ctx cores).memOk := by
  unfold State.stop
  grind [memOk_mk, memOk_proj, ok_foldl, ok_stopBegin, ok_stopEnd]

theorem ok_execStopRequest {s : State} (h : s.memOk) (die : Nat) (ctx : Nat) (cores : List Nat) : outOk (execStopRequest die ctx cores s) := by
  unfold execStopRequest
  grind [memOk_mk, memOk_proj, ok_foldl, outOk, ok_runSlot, ok_runPure, ok_runInt, Act.memOk, ok_stop]

/-! Loader -/

theorem ok_dropTlbs {s : State} (h : s.memOk) (ctx : Nat) : (State.dropTlbs s ctx).memOk := by
  unfold State.dropTlbs
  grind [memOk_mk, memOk_proj, ok_foldl]

theorem ok_takeEnc {s : State} (h : s.memOk) (ctx : Nat) : (State.takeEnc s ctx).memOk := by
  unfold State.takeEnc
  grind [memOk_mk, memOk_proj, ok_foldl]

theorem ok_applyEdits {s : State} (h : s.memOk) (ctx : Nat) (edits : List TableEdit) : (s.applyEdits ctx edits).memOk := by
  unfold State.applyEdits
  extract_lets s1
  have h1 : s1.memOk := by
    refine ok_dropTlbs ?_ _
    exact ⟨wf_foldl h.1 fun k x hk => Memory.writeN_wf _ _ _ hk, h.2⟩
  exact ok_ite (ok_takeEnc h1 _) h1

theorem ok_settleOld {s : State} (h : s.memOk) (ctx : Nat) : (State.settleOld s ctx).memOk := by
  unfold State.settleOld
  grind [memOk_mk, memOk_proj, ok_foldl, ok_flushOut, ok_drainThread, ok_finishLdx]

theorem ok_rewait {s : State} (h : s.memOk) (t : Thread) : (State.rewait s t).memOk := by
  unfold State.rewait
  grind [memOk_mk, memOk_proj, ok_foldl, ok_modThread, ok_waitvTry]

theorem ok_rewaitAll {s : State} (h : s.memOk) (ctx : Nat) : (State.rewaitAll s ctx).memOk := by
  unfold State.rewaitAll
  grind [memOk_mk, memOk_proj, ok_foldl, ok_rewait]

theorem ok_putCtx {s : State} (h : s.memOk) (ctx k va : Nat) (l : List Byte) : (s.putCtx ctx k va l).memOk := by
  induction k generalizing s va l with
  | zero => exact h
  | succ k ih =>
    unfold State.putCtx
    refine ok_ite h ?_
    dsimp only
    refine ih ?_ _ _
    split
    · exact ok_store h _ _ _
    · exact h

theorem ok_farAsk {s : State} (h : s.memOk) (c : Context) (pages : Nat) (va : Nat) (n : Nat) : (State.farAsk s c pages va n).1.memOk := by
  unfold State.farAsk
  grind [memOk_mk, memOk_proj, ok_foldl, ok_hostAsk]

theorem ok_subWrite {s : State} (h : s.memOk) (c : Context) (entry : Nat) (off : Nat) (n : Nat) (v : Nat) : (State.subWrite s c entry off n v).memOk := by
  unfold State.subWrite
  grind [memOk_mk, memOk_proj, ok_foldl, ok_store, ok_wakeLines]

theorem ok_subState {s : State} (h : s.memOk) (c : Context) (entry : Nat) (state : Nat) (status : Nat) : (State.subState s c entry state status).memOk := by
  unfold State.subState
  grind [memOk_mk, memOk_proj, ok_foldl, ok_modVf, ok_subWrite]

theorem ok_subFail {s : State} (h : s.memOk) (c : Context) (entry : Nat) (status : Nat) (node : Option Nat) : (State.subFail s c entry status node).memOk := by
  unfold State.subFail
  grind [memOk_mk, memOk_proj, ok_foldl, ok_subWrite, ok_subState]

theorem ok_retire {s : State} (h : s.memOk) (ctx : Nat) (f : Nat) : (State.retire s ctx f).memOk := by
  unfold State.retire
  grind [memOk_mk, memOk_proj, ok_foldl, ok_modCtx]

theorem ok_returnFrames {s : State} (h : s.memOk) (ctx : Nat) (fs : List Nat) : (State.returnFrames s ctx fs).memOk := by
  unfold State.returnFrames
  grind [memOk_mk, memOk_proj, ok_foldl, ok_modCtx, ok_retire]

theorem ok_copyFrame {s : State} (h : s.memOk) (run src dst : Nat) : (s.copyFrame run src dst).memOk := by
  unfold State.copyFrame
  extract_lets lo dest cells m1 bad m2
  have h2 : m2.wf = true := wf_foldl (wf_foldl (Memory.clear_wf _ _ _ h.1) fun k x hk => Memory.write_wf _ _ _ hk)
    fun k x hk => Memory.writeN_wf _ _ _ hk
  refine ok_notePoison (s := { s with mem := m2, poison := _ }) ?_ _ _
  exact ⟨h2, h.2⟩

theorem ok_flushRun {s : State} (h : s.memOk) (run : Nat) : (State.flushRun s run).memOk := by
  unfold State.flushRun
  grind [memOk_mk, memOk_proj, ok_foldl, ok_flushOut, ok_drainThread]

theorem ok_stopRun {s : State} (h : s.memOk) (run : Nat) : (State.stopRun s run).memOk := by
  unfold State.stopRun
  grind [memOk_mk, memOk_proj, ok_foldl, ok_endRun, ok_finishMatrix, ok_finishLdx, ok_fillAll, ok_abandonBundle, ok_flushRun]

theorem ok_unmap {s : State} (h : s.memOk) (ctx : Nat) (x : Nat × Nat) : (State.unmap s ctx x).memOk := by
  unfold State.unmap
  grind [memOk_mk, memOk_proj, ok_foldl, ok_applyEdits]

theorem ok_freeInstances {s : State} (h : s.memOk) (g : Graph) : (State.freeInstances s g).memOk := by
  unfold State.freeInstances
  grind [memOk_mk, memOk_proj, ok_foldl, ok_modCtx, ok_settleOld, ok_rewaitAll, ok_unmap]

theorem ok_graphFail {s : State} (h : s.memOk) (graph : Nat) (status : Nat) (node : Nat) (arg : Nat) : (State.graphFail s graph status node arg).memOk := by
  unfold State.graphFail
  grind [memOk_mk, memOk_proj, ok_foldl, ok_event, ok_subFail, ok_returnFrames, ok_stopRun, ok_freeInstances]

theorem ok_release {s : State} (h : s.memOk) (graph : Nat) (nodes : List Nat) : (State.release s graph nodes).memOk := by
  unfold State.release
  grind [memOk_mk, memOk_proj, ok_foldl, ok_enqueue, ok_graphFail]

theorem ok_graphDone {s : State} (h : s.memOk) (graph : Nat) : (State.graphDone s graph).memOk := by
  unfold State.graphDone
  grind [memOk_mk, memOk_proj, ok_foldl, ok_event, ok_subState, ok_freeInstances]

theorem ok_loadGraph {s : State} (h : s.memOk) (c : Context) (entry base : Nat) (edits : List TableEdit) (img : List Byte) :
    (s.loadGraph c entry base edits img).memOk := by
  unfold State.loadGraph
  dsimp only
  have h1 := ok_subState h c entry 2 0
  refine ok_ite (ok_subFail h1 _ _ _ _) (ok_ite (ok_subFail h1 _ _ _ _) ?_)
  split
  · exact ok_event (ok_subFail h1 _ _ _ _) _ _ _ _ _
  · refine ok_ite h (ok_graphDone (ok_release ?_ _ _) _)
    exact ok_putCtx (ok_applyEdits h1 _ _) _ _ _ _

theorem ok_submit {s : State} (h : s.memOk) (ctx : Nat) (entry : Nat) (base : Nat) (edits : List TableEdit) : (State.submit s ctx entry base edits).memOk := by
  unfold State.submit
  grind [memOk_mk, memOk_proj, ok_foldl, ok_farAsk, ok_subState, ok_subFail, ok_loadGraph]

theorem ok_execSubmission {s : State} (h : s.memOk) (ctx : Nat) (entry : Nat) (base : Nat) (edits : List TableEdit) : outOk (execSubmission ctx entry base edits s) := by
  unfold execSubmission
  grind [memOk_mk, memOk_proj, ok_foldl, outOk, ok_runSlot, ok_runPure, ok_runInt, Act.memOk, ok_submit]

theorem ok_translate {s : State} (h : s.memOk) (ctx : Nat) (graph : Nat) (kernel : Nat) (code : Nat) : (State.translate s ctx graph kernel code).memOk := by
  unfold State.translate
  grind [memOk_mk, memOk_proj, ok_foldl, ok_modGraph]

theorem ok_execBreuzTranslation {s : State} (h : s.memOk) (ctx : Nat) (graph : Nat) (kernel : Nat) (code : Nat) : outOk (execBreuzTranslation ctx graph kernel code s) := by
  unfold execBreuzTranslation
  grind [memOk_mk, memOk_proj, ok_foldl, outOk, ok_runSlot, ok_runPure, ok_runInt, Act.memOk, ok_translate]

theorem ok_raceTakes {s : State} (h : s.memOk) (ctx : Nat) : (State.raceTakes s ctx).memOk := by
  unfold State.raceTakes
  grind [memOk_mk, memOk_proj, ok_foldl, ok_modCtx, ok_writeRing]

theorem ok_startNode {s : State} (h : s.memOk) (run dataAddr : Nat) (frames : List Nat) (edits : List TableEdit) :
    (s.startNode run dataAddr frames edits).memOk := by
  unfold State.startNode
  split
  · exact h
  · rename_i g n _
    refine ok_ite h ?_
    split
    · split
      · exact ok_farAsk h _ _ _ _
      · exact h
    · extract_lets pages u u1 u2 u3 x u4
      have hu : u.memOk := ok_modGraph (ok_applyEdits h _ _) _ _
      have h1 : u1.memOk := ok_raceTakes (s := { u with runs := u.runs.filter (·.id ≠ run) }) hu _
      have h2 : u2.memOk := ok_modCtx h1 _ _
      have h3 : u3.memOk := ok_ite h2 (ok_putCtx h2 _ _ _ _)
      have h4 : u4.memOk := by
        exact ok_nextEpoch (s := { u3 with runs := u3.runs ++ [x] }) h3 _
      exact ok_ite h (ok_foldl h4 fun t x ht => ok_copyFrame ht _ _ _)

theorem ok_execNodeStart {s : State} (h : s.memOk) (run : Nat) (dataAddr : Nat) (shadowFrames : List Nat) (edits : List TableEdit) : outOk (execNodeStart run dataAddr shadowFrames edits s) := by
  unfold execNodeStart
  grind [memOk_mk, memOk_proj, ok_foldl, outOk, ok_runSlot, ok_runPure, ok_runInt, Act.memOk, ok_startNode]

theorem ok_addThread {s : State} (h : s.memOk) (x : Run) (gid : Nat) (tid : Nat) (rank : Nat) (slot : Nat) (store : Nat) : (State.addThread s x gid tid rank slot store).memOk := by
  unfold State.addThread
  grind [memOk_mk, memOk_proj, ok_foldl, ok_modGroup, ok_enterTable, ok_occupySlot]

theorem ok_addGroup {s : State} (h : s.memOk) (x : Run) (gid home : Nat) (sets : List (Nat × Nat)) :
    (s.addGroup x gid home sets).memOk := by
  unfold State.addGroup
  dsimp only
  exact ok_setLead (ok_modCtx (ok_putGroup h rfl) _ _) _ _

theorem ok_takeTurn {s : State} (h : s.memOk) (ctx q : Nat) (out : State) (e : s.takeTurn ctx q = some out) : out.memOk := by
  obtain ⟨c, _, e⟩ := Option.bind_eq_some_iff.mp e
  obtain ⟨p, _, rfl⟩ := Option.map_eq_some_iff.mp e
  exact ok_modCtx h _ _

theorem ok_placeGroup {s : State} (h : s.memOk) (x : Run) (gid base : Nat) (slots stores : List Nat) (out : State)
    (e : s.placeGroup x gid base slots stores = some out) : out.memOk := by
  unfold State.placeGroup at e
  extract_lets ranks sets home u u1 u2 at e
  have h2 : u2.memOk := ok_modRun (ok_foldl (ok_ite h (ok_addGroup h _ _ _ _)) fun t x ht => ok_addThread ht _ _ _ _ _ _) _ _
  split at e
  · simp at e
  · split at e
    · exact Option.some.inj e ▸ h2
    · simp at e

theorem ok_placeGroups {s : State} (h : s.memOk) (x : Run) (l : List Nat) (base : Nat) (slots stores : List Nat) (out : State)
    (e : s.placeGroups x l base slots stores = some out) : out.memOk := by
  induction l generalizing s base slots stores with
  | nil =>
    unfold State.placeGroups at e
    split at e
    · exact Option.some.inj e ▸ h
    · simp at e
  | cons y l ih =>
    unfold State.placeGroups at e
    extract_lets n at e
    split at e
    · simp at e
    · obtain ⟨t, ht, e⟩ := Option.bind_eq_some_iff.mp e
      exact ih (ok_placeGroup h _ _ _ _ _ _ ht) _ _ _ e

theorem ok_createThreads {s : State} (h : s.memOk) (run : Nat) (handles slots stores : List Nat) :
    (s.createThreads run handles slots stores).memOk := by
  unfold State.createThreads
  split
  · exact h
  · extract_lets n queue
    refine ok_ite h (ok_getD h fun t ht => ?_)
    obtain ⟨u, hu, e⟩ := Option.bind_eq_some_iff.mp ht
    have h1 := ok_takeTurn h _ _ _ hu
    split at e
    · split at e
      · exact ok_placeGroup h1 _ _ _ _ _ _ e
      · simp at e
    · split at e
      · simp at e
      · exact ok_placeGroups h1 _ _ _ _ _ _ e

theorem ok_execThreadCreate {s : State} (h : s.memOk) (run : Nat) (handles : List Nat) (slots : List Nat) (stores : List Nat) : outOk (execThreadCreate run handles slots stores s) := by
  unfold execThreadCreate
  grind [memOk_mk, memOk_proj, ok_foldl, outOk, ok_runSlot, ok_runPure, ok_runInt, Act.memOk, ok_createThreads]

theorem ok_nodeRetry {s : State} (h : s.memOk) (g : Graph) (n : Node) (x : Run) : (State.nodeRetry s g n x).memOk := by
  unfold State.nodeRetry
  grind [memOk_mk, memOk_proj, ok_foldl, ok_modGraph, ok_event, ok_returnFrames]

theorem ok_donePlace {s : State} (h : s.memOk) (g : Graph) (n : Node) : (State.donePlace s g n).1.memOk := by
  unfold State.donePlace
  grind [memOk_mk, memOk_proj, ok_foldl, ok_hostAsk, ok_leafXlat]

theorem ok_countDone {s : State} (h : s.memOk) (p : Option Place) : (State.countDone s p).memOk := by
  unfold State.countDone
  grind [memOk_mk, memOk_proj, ok_foldl, ok_store, ok_wakeLines]

theorem ok_nodeClean {s : State} (h : s.memOk) (g : Graph) (n : Node) (x : Run) (done : Option Place) : (State.nodeClean s g n x done).memOk := by
  unfold State.nodeClean
  grind [memOk_mk, memOk_proj, ok_foldl, ok_modRun, ok_modGraph, ok_event, ok_returnFrames, ok_release, ok_graphDone, ok_countDone]

theorem ok_flip {s : State} (h : s.memOk) (x : Run) (edits : List TableEdit) (out : State) (e : s.flip x edits = some out) : out.memOk := by
  unfold State.flip at e
  split at e
  · split at e
    · exact Option.some.inj e ▸ h
    · simp at e
  · extract_lets ok u at e
    have hu : u.memOk := ok_rewaitAll (ok_applyEdits (ok_settleOld h _) _ _) _
    split at e
    · exact Option.some.inj e ▸ hu
    · simp at e

theorem ok_nodeOver {s : State} (h : s.memOk) (g : Graph) (n : Node) (x : Run) (done : Option Place) (edits : List TableEdit) (out : State)
    (e : s.nodeOver g n x done edits = some out) : out.memOk := by
  unfold State.nodeOver at e
  extract_lets hit at e
  split at e
  · exact Option.some.inj e ▸ ok_graphFail h _ _ _ _
  · split at e
    · refine Option.some.inj e ▸ ok_ite (ok_nodeRetry h _ _ _) (ok_graphFail h _ _ _ _)
    · obtain ⟨u, hu, rfl⟩ := Option.map_eq_some_iff.mp e
      exact ok_nodeClean (ok_flip h _ _ _ hu) _ _ _ _

theorem ok_endNode {s : State} (h : s.memOk) (run : Nat) (edits : List TableEdit) : (State.endNode s run edits).memOk := by
  unfold State.endNode
  grind [memOk_mk, memOk_proj, ok_foldl, ok_getD, ok_ifRoom, ok_donePlace, ok_nodeOver]

theorem ok_execNodeRunEnd {s : State} (h : s.memOk) (run : Nat) (edits : List TableEdit) : outOk (execNodeRunEnd run edits s) := by
  unfold execNodeRunEnd
  grind [memOk_mk, memOk_proj, ok_foldl, outOk, ok_runSlot, ok_runPure, ok_runInt, Act.memOk, ok_endNode]

theorem ok_spoil {s : State} (h : s.memOk) (gid off : Nat) : (s.spoil gid off).memOk := by
  unfold State.spoil
  generalize List.replicate 64 (0xFF : Byte) = l
  exact ok_modGroup h _ _ fun g hg => Memory.writeN_wf _ _ _ hg

theorem ok_scrub {s : State} (h : s.memOk) (lines : List Nat) (scratch : List (Nat × Nat)) : (State.scrub s lines scratch).memOk := by
  unfold State.scrub
  extract_lets scr all s1 s2
  have h2 : s2.memOk := ok_foldl (ok_ite h (ok_flushOut h _)) fun t x ht => ok_spoil ht _ _
  clear_value s2
  exact h2

theorem ok_scrubPool {s : State} (h : s.memOk) (regs : List (Nat × Nat)) (tiles : List (Nat × Nat)) : (State.scrubPool s regs tiles).memOk := by
  unfold State.scrubPool
  grind [memOk_mk, memOk_proj, ok_foldl, ok_modThread, ok_modGroup]

theorem ok_execPatrolScrub {s : State} (h : s.memOk) (found : FoundErrors) : outOk (execPatrolScrub found s) := by
  unfold execPatrolScrub
  grind [memOk_mk, memOk_proj, ok_foldl, outOk, ok_runSlot, ok_runPure, ok_runInt, Act.memOk, ok_scrub, ok_scrubPool]

theorem ok_reencrypt {s : State} (h : s.memOk) (ctx va : Nat) (writebacks bad : List Nat) (fails : Bool) :
    (s.reencrypt ctx va writebacks bad fails).memOk := by
  unfold State.reencrypt
  split
  · refine ok_ite h ?_
    split
    · exact h
    · rename_i space _
      extract_lets e0 e1 e2 hit s1
      have h1 : s1.memOk := ok_modDie h _ _
      clear_value s1
      generalize e2.block = b
      have hk : (s1.mem.writeN space b).wf = true := Memory.writeN_wf _ _ _ h1.1
      generalize s1.mem.writeN space b = k at hk
      refine ok_scrub ?_ _ _
      exact ⟨hk, h1.2⟩
  · exact h

theorem ok_execReencryption {s : State} (h : s.memOk) (page : PageName) (acts : LineActs) : outOk (execReencryption page acts s) := by
  unfold execReencryption
  grind [memOk_mk, memOk_proj, ok_foldl, outOk, ok_runSlot, ok_runPure, ok_runInt, Act.memOk, ok_reencrypt]

/-! Package -/

/-! Package -/

theorem ok_moduleReset {s : State} (h : s.memOk) : s.moduleReset.memOk := ⟨rfl, h.2.1, h.2.2.1, by simp [State.moduleReset, State.reset]⟩

theorem ok_powerDies {s : State} (h : s.memOk) (on : Bool) : (State.powerDies s on).memOk := by
  unfold State.powerDies
  grind [memOk_mk, memOk_proj, ok_foldl, ok_modDie]

theorem ok_startFails {s : State} (h : s.memOk) (state : Nat) (reason : Nat) (dies : Nat) : (State.startFails s state reason dies).memOk := by
  unfold State.startFails
  grind [memOk_mk, memOk_proj, ok_foldl, ok_powerDies]

theorem ok_trainPorts {s : State} (h : s.memOk)  : (State.trainPorts s).memOk := by
  unfold State.trainPorts
  grind [memOk_mk, memOk_proj, ok_foldl]

theorem ok_coolCheck {s : State} (h : s.memOk)  : (State.coolCheck s).memOk := by
  unfold State.coolCheck
  grind [memOk_mk, memOk_proj, ok_foldl, ok_takeFreeNat]

theorem ok_boot {s : State} (h : s.memOk) (failStep : Nat) (reason : Nat) (dies : Nat) : (State.boot s failStep reason dies).memOk := by
  unfold State.boot
  grind [memOk_mk, memOk_proj, ok_foldl, ok_moduleReset, ok_powerDies, ok_startFails, ok_trainPorts, ok_coolCheck]

theorem ok_execPowerOnStart {s : State} (h : s.memOk) (failStep : Nat) (reason : Nat) (dies : Nat) : outOk (execPowerOnStart failStep reason dies s) := by
  unfold execPowerOnStart
  grind [memOk_mk, memOk_proj, ok_foldl, outOk, ok_runSlot, ok_runPure, ok_runInt, Act.memOk, ok_boot]

theorem ok_eventAll {s : State} (h : s.memOk) (kind : Nat) (arg0 : Nat) (arg1 : Nat) : (State.eventAll s kind arg0 arg1).memOk := by
  unfold State.eventAll
  grind [memOk_mk, memOk_proj, ok_foldl, ok_event]

theorem ok_heartbeat {s : State} (h : s.memOk) : (State.heartbeat s).memOk := by
  unfold State.heartbeat
  grind [memOk_mk, memOk_proj, ok_foldl, ok_takeFreeNat]

theorem ok_execHeartbeat {s : State} (h : s.memOk) : outOk (execHeartbeat s) := by
  unfold execHeartbeat
  grind [memOk_mk, memOk_proj, ok_foldl, outOk, ok_runSlot, ok_runPure, ok_runInt, Act.memOk, ok_heartbeat]

theorem ok_endPause {s : State} (h : s.memOk) (x : Pause) : (State.endPause s x).memOk := by
  unfold State.endPause
  grind [memOk_mk, memOk_proj, ok_foldl, ok_serveHeld]

theorem ok_takeOver {s : State} (h : s.memOk) (x : Pause) (replacing : List Replacing) : (State.takeOver s x replacing).memOk := by
  unfold State.takeOver
  grind [memOk_mk, memOk_proj, ok_foldl, ok_eventAll, ok_endPause]

theorem ok_reloadOld {s : State} (h : s.memOk) (x : Pause) : (State.reloadOld s x).memOk := by
  unfold State.reloadOld
  grind [memOk_mk, memOk_proj, ok_foldl, ok_takeOver]

theorem ok_beatMiss {s : State} (h : s.memOk)  : (State.beatMiss s).memOk := by
  unfold State.beatMiss
  grind [memOk_mk, memOk_proj, ok_foldl, ok_takeFreeNat, ok_moduleReset, ok_startFails, ok_reloadOld]

theorem ok_execHeartbeatMiss {s : State} (h : s.memOk)  : outOk (execHeartbeatMiss s) := by
  unfold execHeartbeatMiss
  grind [memOk_mk, memOk_proj, ok_foldl, outOk, ok_runSlot, ok_runPure, ok_runInt, Act.memOk, ok_beatMiss]

theorem ok_thermal {s : State} (h : s.memOk)  : (State.thermal s).memOk := by
  unfold State.thermal
  grind [memOk_mk, memOk_proj, ok_foldl, ok_moduleReset, ok_startFails]

theorem ok_execThermalTrip {s : State} (h : s.memOk)  : outOk (execThermalTrip s) := by
  unfold execThermalTrip
  grind [memOk_mk, memOk_proj, ok_foldl, outOk, ok_runSlot, ok_runPure, ok_runInt, Act.memOk, ok_thermal]

theorem ok_execThrottle {s : State} (h : s.memOk) (die : Nat) : outOk (execThrottle die s) := by
  unfold execThrottle
  grind [memOk_mk, memOk_proj, ok_foldl, outOk, ok_runSlot, ok_runPure, ok_runInt, Act.memOk, ok_modDie]

theorem ok_execHealthMonitorUpdate {s : State} (h : s.memOk) (die : Nat) (eol : Nat) (drift : Nat) (cerate : Nat) (temp : Nat) : outOk (execHealthMonitorUpdate die eol drift cerate temp s) := by
  unfold execHealthMonitorUpdate
  grind [memOk_mk, memOk_proj, ok_foldl, outOk, ok_runSlot, ok_runPure, ok_runInt, Act.memOk, ok_modDie]

theorem ok_spdm {s : State} (h : s.memOk) (code : Nat) (vf : Option Nat) : (State.spdm s code vf).memOk := by
  unfold State.spdm
  grind [memOk_mk, memOk_proj, ok_foldl]

theorem ok_execGetVersion {s : State} (h : s.memOk) (vf : Option Nat) : outOk (execGetVersion vf s) := by
  unfold execGetVersion
  grind [memOk_mk, memOk_proj, ok_foldl, outOk, ok_runSlot, ok_runPure, ok_runInt, Act.memOk, ok_spdm]

theorem ok_execGetCapabilities {s : State} (h : s.memOk) (vf : Option Nat) : outOk (execGetCapabilities vf s) := by
  unfold execGetCapabilities
  grind [memOk_mk, memOk_proj, ok_foldl, outOk, ok_runSlot, ok_runPure, ok_runInt, Act.memOk, ok_spdm]

theorem ok_execNegotiateAlgorithms {s : State} (h : s.memOk) (vf : Option Nat) : outOk (execNegotiateAlgorithms vf s) := by
  unfold execNegotiateAlgorithms
  grind [memOk_mk, memOk_proj, ok_foldl, outOk, ok_runSlot, ok_runPure, ok_runInt, Act.memOk, ok_spdm]

theorem ok_execGetDigests {s : State} (h : s.memOk) (vf : Option Nat) : outOk (execGetDigests vf s) := by
  unfold execGetDigests
  grind [memOk_mk, memOk_proj, ok_foldl, outOk, ok_runSlot, ok_runPure, ok_runInt, Act.memOk, ok_spdm]

theorem ok_execGetCertificate {s : State} (h : s.memOk) (vf : Option Nat) : outOk (execGetCertificate vf s) := by
  unfold execGetCertificate
  grind [memOk_mk, memOk_proj, ok_foldl, outOk, ok_runSlot, ok_runPure, ok_runInt, Act.memOk, ok_spdm]

theorem ok_quote {s : State} (h : s.memOk) (vf : Option Nat) (nonce : List Byte) (body : List Byte) : (State.quote s vf nonce body).memOk := by
  unfold State.quote
  grind [memOk_mk, memOk_proj, ok_foldl]

theorem ok_execChallenge {s : State} (h : s.memOk) (vf : Option Nat) (nonce : List Byte) : outOk (execChallenge vf nonce s) := by
  unfold execChallenge
  grind [memOk_mk, memOk_proj, ok_foldl, outOk, ok_runSlot, ok_runPure, ok_runInt, Act.memOk, ok_quote]

theorem ok_execGetMeasurements {s : State} (h : s.memOk) (vf : Option Nat) (nonce : List Byte) : outOk (execGetMeasurements vf nonce s) := by
  unfold execGetMeasurements
  grind [memOk_mk, memOk_proj, ok_foldl, outOk, ok_runSlot, ok_runPure, ok_runInt, Act.memOk, ok_quote]

/-! Mgmt -/

theorem ok_giveFrames {s : State} (h : s.memOk) (ctx : Nat) (fs : List Nat) : (s.giveFrames ctx fs).memOk :=
  ⟨Memory.filter_wf _ _ h.1, h.2⟩

theorem ok_addContext {s : State} (h : s.memOk) (p : CtxParams) : (State.addContext s p).memOk := by
  unfold State.addContext
  grind [memOk_mk, memOk_proj, ok_foldl, ok_writeRing, ok_takeFreeNat, ok_applyEdits, ok_giveFrames]

theorem ok_createContext {s : State} (h : s.memOk) (a : CreateArgs) : (State.createContext s a).memOk := by
  unfold State.createContext
  grind [memOk_mk, memOk_proj, ok_foldl, ok_answer, ok_refuse, ok_await, ok_command, ok_addContext]

theorem ok_execCreate {s : State} (h : s.memOk) (p : CreateArgs) : outOk (execCreate p s) := by
  unfold execCreate
  grind [memOk_mk, memOk_proj, ok_foldl, outOk, ok_runSlot, ok_runPure, ok_runInt, Act.memOk, ok_createContext]

theorem ok_dropContext {s : State} (h : s.memOk) (c : Context) : (State.dropContext s c).memOk := by
  unfold State.dropContext
  grind [memOk_mk, memOk_proj, ok_foldl, ok_dropTlbs]

theorem ok_destroyContext {s : State} (h : s.memOk) (ctx : Nat) : (State.destroyContext s ctx).memOk := by
  unfold State.destroyContext
  grind [memOk_mk, memOk_proj, ok_foldl, ok_answer, ok_refuse, ok_await, ok_command, ok_stopRun, ok_dropContext]

theorem ok_execDestroy {s : State} (h : s.memOk) (ctx : Nat) : outOk (execDestroy ctx s) := by
  unfold execDestroy
  grind [memOk_mk, memOk_proj, ok_foldl, outOk, ok_runSlot, ok_runPure, ok_runInt, Act.memOk, ok_destroyContext]

theorem ok_invalidate {s : State} (h : s.memOk) (ctx : Nat) (edits : List TableEdit) (give : List Nat) (take : List Nat) : (State.invalidate s ctx edits give take).memOk := by
  unfold State.invalidate
  grind [memOk_mk, memOk_proj, ok_foldl, ok_modCtx, ok_answer, ok_refuse, ok_await, ok_command, ok_applyEdits, ok_settleOld, ok_rewaitAll,
    ok_giveFrames]

theorem ok_execInval {s : State} (h : s.memOk) (ctx : Nat) (edits : List TableEdit) (give : List Nat) (take : List Nat) : outOk (execInval ctx edits give take s) := by
  unfold execInval
  grind [memOk_mk, memOk_proj, ok_foldl, outOk, ok_runSlot, ok_runPure, ok_runInt, Act.memOk, ok_invalidate]

theorem ok_setRace {s : State} (h : s.memOk) (ctx : Nat) (mode : Nat) (ring : Option RaceRing) (pages : Nat) : (State.setRace s ctx mode ring pages).memOk := by
  unfold State.setRace
  grind [memOk_mk, memOk_proj, ok_foldl, ok_modCtx, ok_answer, ok_refuse, ok_command]

theorem ok_execRace {s : State} (h : s.memOk) (ctx : Nat) (mode : Nat) (ring : Option RaceRing) (pages : Nat) : outOk (execRace ctx mode ring pages s) := by
  unfold execRace
  grind [memOk_mk, memOk_proj, ok_foldl, outOk, ok_runSlot, ok_runPure, ok_runInt, Act.memOk, ok_setRace]

theorem ok_setPeer {s : State} (h : s.memOk) (num : Nat) (b : Option (Nat × Nat × Nat)) : (State.setPeer s num b).memOk := by
  unfold State.setPeer
  grind [memOk_mk, memOk_proj, ok_foldl, ok_answer, ok_refuse, ok_command]

theorem ok_execPeer {s : State} (h : s.memOk) (num : Nat) (binding : Option (Nat × Nat × Nat)) : outOk (execPeer num binding s) := by
  unfold execPeer
  grind [memOk_mk, memOk_proj, ok_foldl, outOk, ok_runSlot, ok_runPure, ok_runInt, Act.memOk, ok_setPeer]

theorem ok_putFlash {s : State} (h : s.memOk) (item : FlashItem) : (State.putFlash s item).memOk := by
  unfold State.putFlash
  grind [memOk_mk, memOk_proj, ok_foldl, ok_answer, ok_refuse, ok_command]

theorem ok_execImage {s : State} (h : s.memOk) (item : FlashItem) : outOk (execImage item s) := by
  unfold execImage
  grind [memOk_mk, memOk_proj, ok_foldl, outOk, ok_runSlot, ok_runPure, ok_runInt, Act.memOk, ok_putFlash]

theorem ok_installImage {s : State} (h : s.memOk) (kind : Nat) (version : Nat) (bytes : List Byte) (accepts : Bool) : (State.installImage s kind version bytes accepts).memOk := by
  unfold State.installImage
  grind [memOk_mk, memOk_proj, ok_foldl, ok_answer, ok_refuse, ok_command, ok_takeOver]

theorem ok_execInstall {s : State} (h : s.memOk) (kind : Nat) (version : Nat) (bytes : List Byte) (accepts : Bool) : outOk (execInstall kind version bytes accepts s) := by
  unfold execInstall
  grind [memOk_mk, memOk_proj, ok_foldl, outOk, ok_runSlot, ok_runPure, ok_runInt, Act.memOk, ok_installImage]

theorem ok_execStart {s : State} (h : s.memOk) (failStep : Nat) (reason : Nat) (dies : Nat) : outOk (execStart failStep reason dies s) := by
  unfold execStart
  grind [memOk_mk, memOk_proj, ok_foldl, outOk, ok_runSlot, ok_runPure, ok_runInt, Act.memOk, ok_answer, ok_command, ok_boot]

theorem ok_execLog {s : State} (h : s.memOk)  : outOk (execLog s) := by
  unfold execLog
  grind [memOk_mk, memOk_proj, ok_foldl, outOk, ok_runSlot, ok_runPure, ok_runInt, Act.memOk, ok_command]

/-! HostSteps -/

theorem ok_unsupported {s : State} (h : s.memOk)  : (State.unsupported s).memOk := by
  unfold State.unsupported
  grind [memOk_mk, memOk_proj, ok_foldl]

theorem ok_tdisp {s : State} (h : s.memOk) (vf : Nat) (run : Bool) : (State.tdisp s vf run).memOk := by
  unfold State.tdisp
  grind [memOk_mk, memOk_proj, ok_foldl, ok_modVf]

theorem ok_execTdispRequest {s : State} (h : s.memOk) (vf : Nat) (run : Bool) : outOk (execTdispRequest vf run s) := by
  unfold execTdispRequest
  grind [memOk_mk, memOk_proj, ok_foldl, outOk, ok_runSlot, ok_runPure, ok_runInt, Act.memOk, ok_tdisp]

theorem ok_hostPoison {s : State} (h : s.memOk) (c : Context) (va : Nat) (write : Bool) : (State.hostPoison s c va write).memOk := by
  unfold State.hostPoison
  grind [memOk_mk, memOk_proj, ok_foldl, ok_event]

theorem ok_hostStore {s : State} (h : s.memOk) (c : Context) (va : Nat) (chk : Bool) (p : Place) (bytes : List Byte) : (State.hostStore s c va chk p bytes).memOk := by
  unfold State.hostStore
  grind [memOk_mk, memOk_proj, ok_foldl, ok_engineWrite, ok_hostPoison]

theorem ok_putCons {s : State} (h : s.memOk) (c : Context) (off : Nat) (b : Byte) : (State.putCons s c off b).memOk := by
  unfold State.putCons
  grind [memOk_mk, memOk_proj, ok_foldl, ok_modCtx]

theorem ok_bar0At {s : State} (h : s.memOk) (c : Context) (off : Nat) (n : Nat) (write : Bool) : (State.bar0At s c off n write).1.memOk := by
  unfold State.bar0At
  grind [memOk_mk, memOk_proj, ok_foldl, ok_leafXlat]

theorem ok_bar0Ats {s : State} (h : s.memOk) (c : Context) (write : Bool) (l : List (Nat × Nat)) : (s.bar0Ats c write l).1.memOk := by
  induction l generalizing s with
  | nil => exact h
  | cons x l ih =>
    obtain ⟨off, n⟩ := x
    unfold State.bar0Ats
    have h1 := ok_bar0At h c off n write
    split
    · rename_i e; rw [e] at h1; exact h1
    · rename_i e
      rw [e] at h1
      have h2 := ih h1
      split <;> (rename_i e; rw [e] at h2; exact h2)

theorem ok_bar0Piece {s : State} (h : s.memOk) (c : Context) (off : Nat) (x : Bar0At) (bytes : List Byte) : (State.bar0Piece s c off x bytes).memOk := by
  unfold State.bar0Piece
  grind [memOk_mk, memOk_proj, ok_foldl, ok_hostStore, ok_putCons]

theorem ok_bar0Data {s : State} (h : s.memOk) (c : Context) (off : Nat) (n : Nat) (x : Bar0At) : (State.bar0Data s c off n x).1.memOk := by
  unfold State.bar0Data
  grind [memOk_mk, memOk_proj, ok_foldl, ok_askPeer, ok_takeFreeNat]

theorem ok_postedWrite {s : State} (h : s.memOk) (vf : Nat) (off : Nat) (bytes : List Byte) (ide : Bool) : (State.postedWrite s vf off bytes ide).memOk := by
  unfold State.postedWrite
  grind [memOk_mk, memOk_proj, ok_foldl, ok_await, ok_inTurn, ok_unsupported, ok_bar0Ats, ok_bar0Piece]

theorem ok_execHostPostedWrite {s : State} (h : s.memOk) (vf : Nat) (off : Nat) (bytes : List Byte) (ide : Bool) : outOk (execHostPostedWrite vf off bytes ide s) := by
  unfold execHostPostedWrite
  grind [memOk_mk, memOk_proj, ok_foldl, outOk, ok_runSlot, ok_runPure, ok_runInt, Act.memOk, ok_postedWrite]

theorem ok_hostData {s : State} (h : s.memOk) (c : Context) (data : List Byte) (bad : List Nat) : (State.hostData s c data bad).memOk := by
  unfold State.hostData
  grind [memOk_mk, memOk_proj, ok_foldl, ok_hostPoison]

theorem ok_bar0Read {s : State} (h : s.memOk) (i : Instr) (vf off len : Nat) (ide : Bool) : (s.bar0Read i vf off len ide).memOk := by
  unfold State.bar0Read
  split
  · exact ok_unsupported h
  · rename_i c _
    refine ok_ite (ok_unsupported h) ?_
    have h1 := ok_bar0Ats h c false (linePieces (len / 64 + 2) off len)
    split
    · rename_i e; rw [e] at h1; exact ok_await h1 _
    · rename_i l e
      rw [e] at h1
      exact ok_hostData (ok_pfold (x := (_, [], [])) h1 fun a x ha => ok_bar0Data ha c x.1 x.2.1 x.2.2) _ _ _

theorem ok_pfRead {s : State} (h : s.memOk) (off : Nat) (len : Nat) : (State.pfRead s off len).memOk := by
  unfold State.pfRead
  grind [memOk_mk, memOk_proj, ok_foldl]

theorem ok_bar2Places {s : State} (h : s.memOk) (ctx : Nat) (write : Bool) (l : List (Nat × Nat)) :
    (s.bar2Places ctx write l).1.memOk := by
  induction l generalizing s with
  | nil => exact h
  | cons x l ih =>
    obtain ⟨va, n⟩ := x
    unfold State.bar2Places
    split
    · exact h
    · rename_i leaf shift _
      have h1 := ok_leafXlat h ctx va leaf shift write hostAgent
      split
      · rename_i e; rw [e] at h1; exact h1
      · rename_i e; rw [e] at h1; exact h1
      · rename_i e
        rw [e] at h1
        have h2 := ih h1
        split
        · rename_i e; rw [e] at h2; exact h2
        · exact h2

theorem ok_bar2 {s : State} (h : s.memOk) (i : Instr) (vf addr len : Nat) (ide write : Bool)
    (k : State → Context → List (Nat × Place × Bool × Nat) → State) (hk : ∀ t c l, t.memOk → (k t c l).memOk) :
    (s.bar2 i vf addr len ide write k).memOk := by
  unfold State.bar2
  split
  · exact ok_unsupported h
  · rename_i c _
    refine ok_ite (ok_unsupported h) ?_
    have h1 := ok_bar2Places h c.id write (linePieces (len / 64 + 2) addr len)
    split
    · rename_i e; rw [e] at h1; exact ok_unsupported h1
    · rename_i e; rw [e] at h1; exact ok_await h1 _
    · rename_i e; rw [e] at h1; exact hk _ _ _ h1

theorem ok_hostRead {s : State} (h : s.memOk) (vf : Nat) (at_ : HostPlace) (len : Nat) (ide : Bool) : (State.hostRead s vf at_ len ide).memOk := by
  unfold State.hostRead
  grind [memOk_mk, memOk_proj, ok_foldl, ok_askPeer, ok_inTurn, ok_hostData, ok_bar0Read, ok_pfRead, ok_bar2]

theorem ok_execBar2Read {s : State} (h : s.memOk) (vf : Nat) (at_ : HostPlace) (len : Nat) (ide : Bool) : outOk (execBar2Read vf at_ len ide s) := by
  unfold execBar2Read
  grind [memOk_mk, memOk_proj, ok_foldl, outOk, ok_runSlot, ok_runPure, ok_runInt, Act.memOk, ok_hostRead]

theorem ok_bar2Piece {s : State} (h : s.memOk) (c : Context) (x : Nat × Place × Bool × Nat) (bytes : List Byte) : (State.bar2Piece s c x bytes).memOk := by
  unfold State.bar2Piece
  grind [memOk_mk, memOk_proj, ok_foldl, ok_hostStore]

theorem ok_bar2Store {s : State} (h : s.memOk) (vf : Nat) (addr : Nat) (bytes : List Byte) (ide : Bool) : (State.bar2Store s vf addr bytes ide).memOk := by
  unfold State.bar2Store
  grind [memOk_mk, memOk_proj, ok_foldl, ok_inTurn, ok_bar2, ok_bar2Piece]

theorem ok_execBar2Write {s : State} (h : s.memOk) (vf : Nat) (addr : Nat) (bytes : List Byte) (ide : Bool) : outOk (execBar2Write vf addr bytes ide s) := by
  unfold execBar2Write
  grind [memOk_mk, memOk_proj, ok_foldl, outOk, ok_runSlot, ok_runPure, ok_runInt, Act.memOk, ok_bar2Store]

theorem ok_hostAtom {s : State} (h : s.memOk) (c : Context) (addr : Nat) (size : Nat) (op : HostAtomic) (cmp : Nat) (data : Nat) (p : Place) (chk : Bool) : (State.hostAtom s c addr size op cmp data p chk).memOk := by
  unfold State.hostAtom
  grind [memOk_mk, memOk_proj, ok_foldl, ok_askPeer, ok_engineWrite, ok_hostPoison]

theorem ok_bar2Atom {s : State} (h : s.memOk) (vf : Nat) (addr : Nat) (size : Nat) (op : HostAtomic) (cmp : Nat) (data : Nat) (ide : Bool) : (State.bar2Atom s vf addr size op cmp data ide).memOk := by
  unfold State.bar2Atom
  grind [memOk_mk, memOk_proj, ok_foldl, ok_inTurn, ok_unsupported, ok_bar2, ok_hostAtom]

theorem ok_execBar2Atomic {s : State} (h : s.memOk) (vf : Nat) (addr : Nat) (size : Nat) (op : HostAtomic) (cmp : Nat) (data : Nat) (ide : Bool) : outOk (execBar2Atomic vf addr size op cmp data ide s) := by
  unfold execBar2Atomic
  grind [memOk_mk, memOk_proj, ok_foldl, outOk, ok_runSlot, ok_runPure, ok_runInt, Act.memOk, ok_bar2Atom]

theorem ok_portFails {s : State} (h : s.memOk) (port : Nat) (cause : Nat) : (State.portFails s port cause).memOk := by
  unfold State.portFails
  grind [memOk_mk, memOk_proj, ok_foldl, ok_modPort]

theorem ok_replayLimit {s : State} (h : s.memOk) (port : Nat) : (State.replayLimit s port).memOk := by
  unfold State.replayLimit
  grind [memOk_mk, memOk_proj, ok_foldl, ok_portFails]

theorem ok_flit {s : State} (h : s.memOk) (port : Nat) (bytes : List Byte) : (State.flit s port bytes).memOk := by
  unfold State.flit
  grind [memOk_mk, memOk_proj, ok_foldl, ok_modPort, ok_replayLimit]

theorem ok_execFlitReceive {s : State} (h : s.memOk) (port : Nat) (bytes : List Byte) : outOk (execFlitReceive port bytes s) := by
  unfold execFlitReceive
  grind [memOk_mk, memOk_proj, ok_foldl, outOk, ok_runSlot, ok_runPure, ok_runInt, Act.memOk, ok_flit]

theorem ok_nakReplay {s : State} (h : s.memOk) (port : Nat) (seq : Nat) : (State.nakReplay s port seq).memOk := by
  unfold State.nakReplay
  grind [memOk_mk, memOk_proj, ok_foldl, ok_modPort, ok_replayLimit]

theorem ok_execNakReplay {s : State} (h : s.memOk) (port : Nat) (seq : Nat) : outOk (execNakReplay port seq s) := by
  unfold execNakReplay
  grind [memOk_mk, memOk_proj, ok_foldl, outOk, ok_runSlot, ok_runPure, ok_runInt, Act.memOk, ok_nakReplay]

theorem ok_execAckTimeout {s : State} (h : s.memOk) (port : Nat) : outOk (execAckTimeout port s) := by
  unfold execAckTimeout
  grind [memOk_mk, memOk_proj, ok_foldl, outOk, ok_runSlot, ok_runPure, ok_runInt, Act.memOk, ok_portFails]

theorem ok_execLaneLoss {s : State} (h : s.memOk) (port : Nat) : outOk (execLaneLoss port s) := by
  unfold execLaneLoss
  grind [memOk_mk, memOk_proj, ok_foldl, outOk, ok_runSlot, ok_runPure, ok_runInt, Act.memOk, ok_portFails]

theorem ok_peerAt {s : State} (h : s.memOk) (ctx : Nat) (va : Nat) (p : Place) (chk : Bool) (op : PeerOp) : (State.peerAt s ctx va p chk op).1.memOk := by
  unfold State.peerAt
  grind [memOk_mk, memOk_proj, ok_foldl, ok_askPeer, ok_store, ok_engineWrite, ok_atom]

theorem ok_peerServe {s : State} (h : s.memOk) (num : Nat) (ctx : Nat) (addr : Nat) (op : PeerOp) : (State.peerServe s num ctx addr op).1.memOk := by
  unfold State.peerServe
  grind [memOk_mk, memOk_proj, ok_foldl, ok_leafXlat, ok_peerAt]

theorem ok_peerRequest {s : State} (h : s.memOk) (num : Nat) (ctx : Nat) (addr : Nat) (op : PeerOp) : (State.peerRequest s num ctx addr op).memOk := by
  unfold State.peerRequest
  grind [memOk_mk, memOk_proj, ok_foldl, ok_modPort, ok_await, ok_inTurn, ok_peerServe]

theorem ok_execPeerRequest {s : State} (h : s.memOk) (num : Nat) (ctx : Nat) (addr : Nat) (op : PeerOp) : outOk (execPeerRequest num ctx addr op s) := by
  unfold execPeerRequest
  grind [memOk_mk, memOk_proj, ok_foldl, outOk, ok_runSlot, ok_runPure, ok_runInt, Act.memOk, ok_peerRequest]

/-! Run -/

theorem ok_turn {s : State} (h : s.memOk) (m : Option Move) : (State.turn s m).1.memOk := by
  unfold State.turn
  grind [memOk_mk, memOk_proj, ok_foldl, ok_event]

/-! Run -/

theorem ok_place {s : State} (h : s.memOk) (ws : List Nat) : (s.place ws).memOk := by
  refine ⟨h.1, h.2.1, h.2.2.1, fun g hg => ?_⟩
  rcases List.mem_append.mp hg with hg | hg
  · exact h.2.2.2 g (List.mem_filter.mp hg).1
  · rw [List.mem_singleton.mp hg]; rfl

end Sys2Proof.Machine
end

