-- ==== Sys2Proof/Laws/PerInstr.lean ====
section
/-! SUPPORT. The words of each instruction: a slot instruction has one, or two with a P word, each of 64 bits; an event has none. -/

namespace Sys2Proof.Laws.EncodedWords

open Sys2Proof Machine

/-- At most two words, each of 64 bits (R56, R61). -/
def Statement (i : Instr) : Prop := (encode i).length ≤ 2 ∧ ∀ w ∈ encode i, w < 2 ^ 64

/-- Fields fill no more bits than their widths have in all. -/
theorem packFields_lt (l : List (Nat × Nat)) : packFields l < 2 ^ (l.map (·.1)).sum := by
  induction l with
  | nil => simp [packFields]
  | cons x t ih =>
    obtain ⟨n, v⟩ := x
    simp only [packFields, List.map_cons, List.sum_cons, Nat.pow_add]
    calc v % 2 ^ n + 2 ^ n * packFields t < 2 ^ n + 2 ^ n * packFields t := by
          have := Nat.mod_lt v (Nat.two_pow_pos n); omega
      _ = 2 ^ n * (packFields t + 1) := by ring
      _ ≤ 2 ^ n * 2 ^ (t.map (·.1)).sum := Nat.mul_le_mul_left _ ih

theorem putA_lt (op : Nat) (f : FA) : putA op f < 2 ^ 64 := packFields_lt _
theorem putI_lt (op : Nat) (f : FI) : putI op f < 2 ^ 64 := packFields_lt _
theorem putG_lt (op ib : Nat) (f : FG) : putG op ib f < 2 ^ 64 := packFields_lt _
theorem putM_lt (op : Nat) (f : FM) : putM op f < 2 ^ 64 := packFields_lt _
theorem putX_lt (op : Nat) (f : FX) : putX op f < 2 ^ 64 := packFields_lt _
theorem putE_lt (op : Nat) (f : FE) : putE op f < 2 ^ 64 := packFields_lt _
theorem putS_lt (op : Nat) (f : FS) : putS op f < 2 ^ 64 := packFields_lt _
theorem putP_lt (p : PWord) : putP p < 2 ^ 64 := packFields_lt _

/-- An instruction of one word. -/
theorem of_word {i : Instr} {w : Nat} (e : encode i = [w]) (h : w < 2 ^ 64) : Statement i := by
  unfold Statement; rw [e]; simpa using h

/-- An instruction of one word with the P word it may take. -/
theorem of_prefixed {i : Instr} {p : Option PWord} {w : Nat} (e : encode i = withP p w) (h : w < 2 ^ 64) : Statement i := by
  unfold Statement; rw [e]
  cases p with
  | none => simpa [withP] using h
  | some p => simpa [withP] using And.intro (putP_lt p) h

/-- An event. -/
theorem of_event {i : Instr} (e : encode i = []) : Statement i := by
  unfold Statement; rw [e]; simp

theorem nop (f : FS) : Statement (.nop f) := of_word rfl (putS_lt 0x00 f)
theorem trap (f : FS) : Statement (.trap f) := of_word rfl (putS_lt 0x01 f)
theorem tretRe (f : FS) : Statement (.tretRe f) := of_word rfl (putS_lt 0x02 f)
theorem tretSkip (f : FS) : Statement (.tretSkip f) := of_word rfl (putS_lt 0x02 f)
theorem csrr (f : FS) : Statement (.csrr f) := of_word rfl (putS_lt 0x03 f)
theorem csrw (f : FS) : Statement (.csrw f) := of_word rfl (putS_lt 0x04 f)
theorem csrwImm (f : FS) : Statement (.csrwImm f) := of_word rfl (putS_lt 0x04 f)
theorem fill (f : FS) : Statement (.fill f) := of_word rfl (putS_lt 0x05 f)
theorem void (f : FS) : Statement (.void f) := of_word rfl (putS_lt 0x06 f)
theorem waitf (f : FS) : Statement (.waitf f) := of_word rfl (putS_lt 0x07 f)
theorem chkerr (f : FS) : Statement (.chkerr f) := of_word rfl (putS_lt 0x08 f)
theorem chkerrAbort (f : FS) : Statement (.chkerrAbort f) := of_word rfl (putS_lt 0x08 f)
theorem prog (f : FS) : Statement (.prog f) := of_word rfl (putS_lt 0x09 f)
theorem yield (f : FS) : Statement (.yield f) := of_word rfl (putS_lt 0x0A f)
theorem launch (f : FS) : Statement (.launch f) := of_word rfl (putS_lt 0x0B f)
theorem iadd (f : FA) : Statement (.iadd f) := of_word rfl (putA_lt 0x10 f)
theorem iaddImm (f : FI) : Statement (.iaddImm f) := of_word rfl (putI_lt 0x30 f)
theorem isub (f : FA) : Statement (.isub f) := of_word rfl (putA_lt 0x11 f)
theorem imul (f : FA) : Statement (.imul f) := of_word rfl (putA_lt 0x12 f)
theorem imulImm (f : FI) : Statement (.imulImm f) := of_word rfl (putI_lt 0x31 f)
theorem imulh (f : FA) : Statement (.imulh f) := of_word rfl (putA_lt 0x13 f)
theorem imad (f : FA) : Statement (.imad f) := of_word rfl (putA_lt 0x14 f)
theorem imadw (f : FA) : Statement (.imadw f) := of_word rfl (putA_lt 0x15 f)
theorem idiv (f : FA) : Statement (.idiv f) := of_word rfl (putA_lt 0x16 f)
theorem irem (f : FA) : Statement (.irem f) := of_word rfl (putA_lt 0x17 f)
theorem ineg (f : FA) : Statement (.ineg f) := of_word rfl (putA_lt 0x18 f)
theorem iabs (f : FA) : Statement (.iabs f) := of_word rfl (putA_lt 0x19 f)
theorem imin (f : FA) : Statement (.imin f) := of_word rfl (putA_lt 0x1A f)
theorem iminImm (f : FI) : Statement (.iminImm f) := of_word rfl (putI_lt 0x32 f)
theorem imax (f : FA) : Statement (.imax f) := of_word rfl (putA_lt 0x1B f)
theorem imaxImm (f : FI) : Statement (.imaxImm f) := of_word rfl (putI_lt 0x33 f)
theorem iadds (f : FA) : Statement (.iadds f) := of_word rfl (putA_lt 0x1C f)
theorem isubs (f : FA) : Statement (.isubs f) := of_word rfl (putA_lt 0x1D f)
theorem and (f : FA) : Statement (.and f) := of_word rfl (putA_lt 0x1E f)
theorem andImm (f : FI) : Statement (.andImm f) := of_word rfl (putI_lt 0x34 f)
theorem or (f : FA) : Statement (.or f) := of_word rfl (putA_lt 0x1F f)
theorem orImm (f : FI) : Statement (.orImm f) := of_word rfl (putI_lt 0x35 f)
theorem xor (f : FA) : Statement (.xor f) := of_word rfl (putA_lt 0x20 f)
theorem xorImm (f : FI) : Statement (.xorImm f) := of_word rfl (putI_lt 0x36 f)
theorem andn (f : FA) : Statement (.andn f) := of_word rfl (putA_lt 0x21 f)
theorem lsl (f : FA) : Statement (.lsl f) := of_word rfl (putA_lt 0x22 f)
theorem lslImm (f : FI) : Statement (.lslImm f) := of_word rfl (putI_lt 0x38 f)
theorem lsr (f : FA) : Statement (.lsr f) := of_word rfl (putA_lt 0x23 f)
theorem lsrImm (f : FI) : Statement (.lsrImm f) := of_word rfl (putI_lt 0x39 f)
theorem asr (f : FA) : Statement (.asr f) := of_word rfl (putA_lt 0x24 f)
theorem asrImm (f : FI) : Statement (.asrImm f) := of_word rfl (putI_lt 0x3A f)
theorem rot (f : FA) : Statement (.rot f) := of_word rfl (putA_lt 0x25 f)
theorem rotImm (f : FI) : Statement (.rotImm f) := of_word rfl (putI_lt 0x3B f)
theorem bfx (f : FA) : Statement (.bfx f) := of_word rfl (putA_lt 0x26 f)
theorem bfxImm (f : FI) : Statement (.bfxImm f) := of_word rfl (putI_lt 0x37 f)
theorem bfi (f : FA) : Statement (.bfi f) := of_word rfl (putA_lt 0x27 f)
theorem popc (f : FA) : Statement (.popc f) := of_word rfl (putA_lt 0x28 f)
theorem clz (f : FA) : Statement (.clz f) := of_word rfl (putA_lt 0x29 f)
theorem ctz (f : FA) : Statement (.ctz f) := of_word rfl (putA_lt 0x2A f)
theorem brev (f : FA) : Statement (.brev f) := of_word rfl (putA_lt 0x2B f)
theorem icmp (f : FA) : Statement (.icmp f) := of_word rfl (putA_lt 0x2C f)
theorem icmpImm (f : FI) : Statement (.icmpImm f) := of_word rfl (putI_lt 0x3C f)
theorem sel (f : FA) : Statement (.sel f) := of_word rfl (putA_lt 0x2D f)
theorem mov (f : FA) : Statement (.mov f) := of_word rfl (putA_lt 0x2E f)
theorem movi (f : FI) : Statement (.movi f) := of_word rfl (putI_lt 0x3E f)
theorem movh (f : FI) : Statement (.movh f) := of_word rfl (putI_lt 0x3F f)
theorem lea (f : FA) : Statement (.lea f) := of_word rfl (putA_lt 0x2F f)
theorem leaImm (f : FI) : Statement (.leaImm f) := of_word rfl (putI_lt 0x3D f)
theorem fadd (f : FA) : Statement (.fadd f) := of_word rfl (putA_lt 0x40 f)
theorem fsub (f : FA) : Statement (.fsub f) := of_word rfl (putA_lt 0x41 f)
theorem fmul (f : FA) : Statement (.fmul f) := of_word rfl (putA_lt 0x42 f)
theorem fma (f : FA) : Statement (.fma f) := of_word rfl (putA_lt 0x43 f)
theorem fnma (f : FA) : Statement (.fnma f) := of_word rfl (putA_lt 0x44 f)
theorem fmin (f : FA) : Statement (.fmin f) := of_word rfl (putA_lt 0x45 f)
theorem fmax (f : FA) : Statement (.fmax f) := of_word rfl (putA_lt 0x46 f)
theorem fabs (f : FA) : Statement (.fabs f) := of_word rfl (putA_lt 0x47 f)
theorem fneg (f : FA) : Statement (.fneg f) := of_word rfl (putA_lt 0x48 f)
theorem fcps (f : FA) : Statement (.fcps f) := of_word rfl (putA_lt 0x49 f)
theorem fcmp (f : FA) : Statement (.fcmp f) := of_word rfl (putA_lt 0x4A f)
theorem fcls (f : FA) : Statement (.fcls f) := of_word rfl (putA_lt 0x4B f)
theorem fdiv (f : FA) : Statement (.fdiv f) := of_word rfl (putA_lt 0x4C f)
theorem fsqrt (f : FA) : Statement (.fsqrt f) := of_word rfl (putA_lt 0x4D f)
theorem frcp (f : FA) : Statement (.frcp f) := of_word rfl (putA_lt 0x4E f)
theorem frsq (f : FA) : Statement (.frsq f) := of_word rfl (putA_lt 0x4F f)
theorem fexp (f : FA) : Statement (.fexp f) := of_word rfl (putA_lt 0x50 f)
theorem fexp2 (f : FA) : Statement (.fexp2 f) := of_word rfl (putA_lt 0x51 f)
theorem flog (f : FA) : Statement (.flog f) := of_word rfl (putA_lt 0x52 f)
theorem flog2 (f : FA) : Statement (.flog2 f) := of_word rfl (putA_lt 0x53 f)
theorem fsin (f : FA) : Statement (.fsin f) := of_word rfl (putA_lt 0x54 f)
theorem fcos (f : FA) : Statement (.fcos f) := of_word rfl (putA_lt 0x55 f)
theorem ftanh (f : FA) : Statement (.ftanh f) := of_word rfl (putA_lt 0x56 f)
theorem fsigm (f : FA) : Statement (.fsigm f) := of_word rfl (putA_lt 0x57 f)
theorem ferf (f : FA) : Statement (.ferf f) := of_word rfl (putA_lt 0x58 f)
theorem frnd (f : FA) : Statement (.frnd f) := of_word rfl (putA_lt 0x59 f)
theorem flgr (f : FA) : Statement (.flgr f) := of_word rfl (putA_lt 0x5A f)
theorem flgc (f : FI) : Statement (.flgc f) := of_word rfl (putI_lt 0x5B f)
theorem cvt (f : FA) : Statement (.cvt f) := of_word rfl (putA_lt 0x70 f)
theorem kdq (f : FA) : Statement (.kdq f) := of_word rfl (putA_lt 0x71 f)
theorem kdx (f : FA) : Statement (.kdx f) := of_word rfl (putA_lt 0x72 f)
theorem gcmp (f : FG) : Statement (.gcmp f) := of_word rfl (putG_lt 0x80 0 f)
theorem gcmpImm (f : FG) : Statement (.gcmpImm f) := of_word rfl (putG_lt 0x80 1 f)
theorem gz (f : FG) : Statement (.gz f) := of_word rfl (putG_lt 0x81 0 f)
theorem gnz (f : FG) : Statement (.gnz f) := of_word rfl (putG_lt 0x82 0 f)
theorem grng (f : FG) : Statement (.grng f) := of_word rfl (putG_lt 0x83 0 f)
theorem gflg (f : FG) : Statement (.gflg f) := of_word rfl (putG_lt 0x84 0 f)
theorem gflgImm (f : FG) : Statement (.gflgImm f) := of_word rfl (putG_lt 0x84 1 f)
theorem gfull (f : FG) : Statement (.gfull f) := of_word rfl (putG_lt 0x85 0 f)
theorem qenc (f : FA) : Statement (.qenc f) := of_word rfl (putA_lt 0x90 f)
theorem qdec (f : FA) : Statement (.qdec f) := of_word rfl (putA_lt 0x91 f)
theorem qadd (f : FA) : Statement (.qadd f) := of_word rfl (putA_lt 0x92 f)
theorem qsub (f : FA) : Statement (.qsub f) := of_word rfl (putA_lt 0x93 f)
theorem qmul (f : FA) : Statement (.qmul f) := of_word rfl (putA_lt 0x94 f)
theorem qdiv (f : FA) : Statement (.qdiv f) := of_word rfl (putA_lt 0x95 f)
theorem qinv (f : FA) : Statement (.qinv f) := of_word rfl (putA_lt 0x96 f)
theorem qneg (f : FA) : Statement (.qneg f) := of_word rfl (putA_lt 0x97 f)
theorem qeq (f : FA) : Statement (.qeq f) := of_word rfl (putA_lt 0x98 f)
theorem ld (f : FM) : Statement (.ld f) := of_prefixed rfl (putM_lt 0xA0 f)
theorem st (f : FM) : Statement (.st f) := of_prefixed rfl (putM_lt 0xA1 f)
theorem pref (f : FM) : Statement (.pref f) := of_prefixed rfl (putM_lt 0xA2 f)
theorem ptog (f : FM) : Statement (.ptog f) := of_prefixed rfl (putM_lt 0xA3 f)
theorem ldx (f : FX) : Statement (.ldx f) := of_prefixed rfl (putX_lt 0xA4 f)
theorem fence (f : FM) : Statement (.fence f) := of_prefixed rfl (putM_lt 0xA5 f)
theorem waitv (f : FM) : Statement (.waitv f) := of_prefixed rfl (putM_lt 0xA6 f)
theorem publish (f : FM) : Statement (.publish f) := of_prefixed rfl (putM_lt 0xA7 f)
theorem atomAdd (f : FM) : Statement (.atomAdd f) := of_prefixed rfl (putM_lt 0xB0 f)
theorem atomSub (f : FM) : Statement (.atomSub f) := of_prefixed rfl (putM_lt 0xB1 f)
theorem atomMin (f : FM) : Statement (.atomMin f) := of_prefixed rfl (putM_lt 0xB2 f)
theorem atomMax (f : FM) : Statement (.atomMax f) := of_prefixed rfl (putM_lt 0xB3 f)
theorem atomAnd (f : FM) : Statement (.atomAnd f) := of_prefixed rfl (putM_lt 0xB4 f)
theorem atomOr (f : FM) : Statement (.atomOr f) := of_prefixed rfl (putM_lt 0xB5 f)
theorem atomXor (f : FM) : Statement (.atomXor f) := of_prefixed rfl (putM_lt 0xB6 f)
theorem atomExch (f : FM) : Statement (.atomExch f) := of_prefixed rfl (putM_lt 0xB7 f)
theorem atomCas (f : FM) : Statement (.atomCas f) := of_prefixed rfl (putM_lt 0xB8 f)
theorem atomFadd (f : FM) : Statement (.atomFadd f) := of_prefixed rfl (putM_lt 0xB9 f)
theorem atomFmin (f : FM) : Statement (.atomFmin f) := of_prefixed rfl (putM_lt 0xBA f)
theorem atomFmax (f : FM) : Statement (.atomFmax f) := of_prefixed rfl (putM_lt 0xBB f)
theorem shfl (f : FX) : Statement (.shfl f) := of_prefixed rfl (putX_lt 0xC0 f)
theorem xred (f : FX) : Statement (.xred f) := of_prefixed rfl (putX_lt 0xC1 f)
theorem scan (f : FX) : Statement (.scan f) := of_prefixed rfl (putX_lt 0xC2 f)
theorem vote (f : FX) : Statement (.vote f) := of_prefixed rfl (putX_lt 0xC3 f)
theorem gnew (f : FX) : Statement (.gnew f) := of_prefixed rfl (putX_lt 0xC4 f)
theorem join (f : FX) : Statement (.join f) := of_prefixed rfl (putX_lt 0xC5 f)
theorem leave (f : FX) : Statement (.leave f) := of_prefixed rfl (putX_lt 0xC6 f)
theorem gbar (f : FX) : Statement (.gbar f) := of_prefixed rfl (putX_lt 0xC7 f)
theorem grank (f : FX) : Statement (.grank f) := of_prefixed rfl (putX_lt 0xC8 f)
theorem gsize (f : FX) : Statement (.gsize f) := of_prefixed rfl (putX_lt 0xC9 f)
theorem gset (f : FX) : Statement (.gset f) := of_prefixed rfl (putX_lt 0xCA f)
theorem mma (f : FE) : Statement (.mma f) := of_word rfl (putE_lt 0xD0 f)
theorem mzero (f : FE) : Statement (.mzero f) := of_word rfl (putE_lt 0xD1 f)
theorem mlda (f : FE) : Statement (.mlda f) := of_word rfl (putE_lt 0xD2 f)
theorem msta (f : FE) : Statement (.msta f) := of_word rfl (putE_lt 0xD3 f)
theorem mdrn (f : FE) : Statement (.mdrn f) := of_word rfl (putE_lt 0xD4 f)
theorem cpygo (f : FE) : Statement (.cpygo f) := of_word rfl (putE_lt 0xD5 f)
theorem cpyw (f : FE) : Statement (.cpyw f) := of_word rfl (putE_lt 0xD6 f)
theorem binit (f : FE) : Statement (.binit f) := of_word rfl (putE_lt 0xD7 f)
theorem barv (f : FE) : Statement (.barv f) := of_word rfl (putE_lt 0xD8 f)
theorem bwait (f : FE) : Statement (.bwait f) := of_word rfl (putE_lt 0xD9 f)
theorem btest (f : FE) : Statement (.btest f) := of_word rfl (putE_lt 0xDA f)
theorem flinit (f : FE) : Statement (.flinit f) := of_word rfl (putE_lt 0xDB f)
theorem flacq (f : FE) : Statement (.flacq f) := of_word rfl (putE_lt 0xDC f)
theorem flrel (f : FE) : Statement (.flrel f) := of_word rfl (putE_lt 0xDD f)
theorem bundleFormation (core part : Nat) : Statement (.bundleFormation core part) := of_event rfl
theorem promotion (slot : Nat) : Statement (.promotion slot) := of_event rfl
theorem traceFetch (p : PortId) : Statement (.traceFetch p) := of_event rfl
theorem commit (p : PortId) : Statement (.commit p) := of_event rfl
theorem postedLoadFill (id : Nat) : Statement (.postedLoadFill id) := of_event rfl
theorem deferredFault (id : Nat) : Statement (.deferredFault id) := of_event rfl
theorem pageWalkComplete (die ctx page : Nat) : Statement (.pageWalkComplete die ctx page) := of_event rfl
theorem priResponse (vf page : Nat) (grant : Option Bool) : Statement (.priResponse vf page grant) := of_event rfl
theorem storeBlockDrain (core part : Nat) : Statement (.storeBlockDrain core part) := of_event rfl
theorem waitvTimeoutCheck (slot : Nat) : Statement (.waitvTimeoutCheck slot) := of_event rfl
theorem replayCheck (slot slotNo kind pipe : Nat) (seen : List Nat) : Statement (.replayCheck slot slotNo kind pipe seen) := of_event rfl
theorem syncPacket (core : Nat) : Statement (.syncPacket core) := of_event rfl
theorem pcSample (core pick : Nat) : Statement (.pcSample core pick) := of_event rfl
theorem hangEvent (ctx : Nat) (gid : Option Nat) (block : Nat) : Statement (.hangEvent ctx gid block) := of_event rfl
theorem barrierObjectHang (gid off : Nat) : Statement (.barrierObjectHang gid off) := of_event rfl
theorem tileStep (cluster : Nat) : Statement (.tileStep cluster) := of_event rfl
theorem drainComplete (gid : Nat) : Statement (.drainComplete gid) := of_event rfl
theorem copyCommandStart (gid : Nat) : Statement (.copyCommandStart gid) := of_event rfl
theorem copyCommandComplete (gid : Nat) : Statement (.copyCommandComplete gid) := of_event rfl
theorem haloStart (gid : Nat) : Statement (.haloStart gid) := of_event rfl
theorem flumeSlotWrite (gid : Nat) : Statement (.flumeSlotWrite gid) := of_event rfl
theorem ldxTransferComplete (id : Nat) : Statement (.ldxTransferComplete id) := of_event rfl
theorem mailboxSignal (die : Nat) : Statement (.mailboxSignal die) := of_event rfl
theorem swapOut (gid : Nat) : Statement (.swapOut gid) := of_event rfl
theorem groupRestore (gids : List Nat) (places : List Placement) : Statement (.groupRestore gids places) := of_event rfl
theorem sliceBoundary (die : Nat) : Statement (.sliceBoundary die) := of_event rfl
theorem stopRequest (die ctx : Nat) (cores : List Nat) : Statement (.stopRequest die ctx cores) := of_event rfl
theorem submission (ctx entry base : Nat) (edits : List TableEdit) : Statement (.submission ctx entry base edits) := of_event rfl
theorem breuzTranslation (ctx graph kernel code : Nat) : Statement (.breuzTranslation ctx graph kernel code) := of_event rfl
theorem nodeStart (run dataAddr : Nat) (shadowFrames : List Nat) (edits : List TableEdit) : Statement (.nodeStart run dataAddr shadowFrames edits) := of_event rfl
theorem threadCreate (run : Nat) (handles slots stores : List Nat) : Statement (.threadCreate run handles slots stores) := of_event rfl
theorem nodeRunEnd (run : Nat) (edits : List TableEdit) : Statement (.nodeRunEnd run edits) := of_event rfl
theorem patrolScrub (found : FoundErrors) : Statement (.patrolScrub found) := of_event rfl
theorem reencryption (page : PageName) (acts : LineActs) : Statement (.reencryption page acts) := of_event rfl
theorem create (p : CreateArgs) : Statement (.create p) := of_event rfl
theorem destroy (ctx : Nat) : Statement (.destroy ctx) := of_event rfl
theorem inval (ctx : Nat) (edits : List TableEdit) (give take : List Nat) : Statement (.inval ctx edits give take) := of_event rfl
theorem race (ctx mode : Nat) (ring : Option RaceRing) (pages : Nat) : Statement (.race ctx mode ring pages) := of_event rfl
theorem peer (num : Nat) (binding : Option (Nat × Nat × Nat)) : Statement (.peer num binding) := of_event rfl
theorem debug (ctx : Nat) (cmd : DebugCmd) : Statement (.debug ctx cmd) := of_event rfl
theorem debugResume (slot : Nat) : Statement (.debugResume slot) := of_event rfl
theorem debugResumeOneTimePass (slot : Nat) : Statement (.debugResumeOneTimePass slot) := of_event rfl
theorem slotStep (slot : Nat) : Statement (.slotStep slot) := of_event rfl
theorem debugAbandon (slot : Nat) : Statement (.debugAbandon slot) := of_event rfl
theorem image (item : FlashItem) : Statement (.image item) := of_event rfl
theorem install (kind version : Nat) (bytes : List Byte) (accepts : Bool) : Statement (.install kind version bytes accepts) := of_event rfl
theorem start (failStep reason dies : Nat) : Statement (.start failStep reason dies) := of_event rfl
theorem log : Statement (.log) := of_event rfl
theorem powerOnStart (failStep reason dies : Nat) : Statement (.powerOnStart failStep reason dies) := of_event rfl
theorem heartbeat : Statement .heartbeat := of_event rfl
theorem heartbeatMiss : Statement (.heartbeatMiss) := of_event rfl
theorem thermalTrip : Statement (.thermalTrip) := of_event rfl
theorem throttle (die : Nat) : Statement (.throttle die) := of_event rfl
theorem getVersion (vf : Option Nat) : Statement (.getVersion vf) := of_event rfl
theorem getCapabilities (vf : Option Nat) : Statement (.getCapabilities vf) := of_event rfl
theorem negotiateAlgorithms (vf : Option Nat) : Statement (.negotiateAlgorithms vf) := of_event rfl
theorem getDigests (vf : Option Nat) : Statement (.getDigests vf) := of_event rfl
theorem getCertificate (vf : Option Nat) : Statement (.getCertificate vf) := of_event rfl
theorem challenge (vf : Option Nat) (nonce : List Byte) : Statement (.challenge vf nonce) := of_event rfl
theorem getMeasurements (vf : Option Nat) (nonce : List Byte) : Statement (.getMeasurements vf nonce) := of_event rfl
theorem hostPostedWrite (vf off : Nat) (bytes : List Byte) (ide : Bool) : Statement (.hostPostedWrite vf off bytes ide) := of_event rfl
theorem bar2Read (vf : Nat) (at_ : HostPlace) (len : Nat) (ide : Bool) : Statement (.bar2Read vf at_ len ide) := of_event rfl
theorem bar2Write (vf addr : Nat) (bytes : List Byte) (ide : Bool) : Statement (.bar2Write vf addr bytes ide) := of_event rfl
theorem bar2Atomic (vf addr size : Nat) (op : HostAtomic) (cmp data : Nat) (ide : Bool) : Statement (.bar2Atomic vf addr size op cmp data ide) := of_event rfl
theorem flitReceive (port : Nat) (bytes : List Byte) : Statement (.flitReceive port bytes) := of_event rfl
theorem nakReplay (port seq : Nat) : Statement (.nakReplay port seq) := of_event rfl
theorem ackTimeout (port : Nat) : Statement (.ackTimeout port) := of_event rfl
theorem laneLoss (port : Nat) : Statement (.laneLoss port) := of_event rfl
theorem peerRequest (num ctx addr : Nat) (op : PeerOp) : Statement (.peerRequest num ctx addr op) := of_event rfl
theorem registerWrite (target : DebugTarget) (reg : DebugReg) (value : BitVec 64) : Statement (.registerWrite target reg value) := of_event rfl
theorem debugHalt (slot : Nat) : Statement (.debugHalt slot) := of_event rfl
theorem hingeFill (slot : Nat) : Statement (.hingeFill slot) := of_event rfl
theorem storePerformedAtHome (core idx : Nat) : Statement (.storePerformedAtHome core idx) := of_event rfl
theorem roundBoundary (core : Nat) : Statement (.roundBoundary core) := of_event rfl
theorem powerGating (core : Nat) (on : Bool) : Statement (.powerGating core on) := of_event rfl
theorem coreReset (core : Nat) : Statement (.coreReset core) := of_event rfl
theorem healthMonitorUpdate (die eol drift cerate temp : Nat) : Statement (.healthMonitorUpdate die eol drift cerate temp) := of_event rfl
theorem tdispRequest (vf : Nat) (run : Bool) : Statement (.tdispRequest vf run) := of_event rfl

end Sys2Proof.Laws.EncodedWords
end

