-- ==== Sys2Proof/Laws/Slot.lean ====
section
/-! SUPPORT. A slot of a lane: what the shared path of every slot instruction does, once its operands are at hand. -/

namespace Sys2Proof.Machine

open Sys2Proof

/-- The lane of a view is the one its state holds, and it is active. -/
theorem view_spec {s : State} {v : View} (h : s.view = some v) :
    s.cur = some (v.p, v.t.r) ∧ s.bundle? v.p = some v.b ∧ v.b.trace = some v.tr ∧ v.b.lane? v.t.r = some v.l ∧
      s.thread? v.t.r = some v.t ∧ v.l.active = true := by
  unfold State.view at h
  cases hc : s.cur with
  | none => simp [hc] at h
  | some c =>
    obtain ⟨p, r⟩ := c
    simp only [hc, Option.bind_some, State.viewOf] at h
    cases hb : s.bundle? p with
    | none => simp [hb] at h
    | some b =>
      cases ht : b.trace with
      | none => simp [hb, ht] at h
      | some tr =>
        cases hl : b.lane? r with
        | none => simp [hb, ht, hl] at h
        | some l =>
          cases hr : s.thread? r with
          | none => simp [hb, ht, hl, hr] at h
          | some t =>
            have hk : t.r = r := by simpa using List.find?_some hr
            simp only [hb, ht, hl, hr, Option.ite_none_right_eq_some, Option.some.injEq] at h
            obtain ⟨ha, rfl⟩ := h
            subst hk
            exact ⟨rfl, hb, ht, hl, hr, ha⟩

/-- Registers at hand are read without a change. -/
theorem readRegs_atHand (s : State) (v : View) (i : Instr) (x : Src) (cs : List Nat) (h : cs.all v.atHand = true) :
    s.readRegs v i v.l x cs = .ok s v.l [] := by
  induction cs with
  | nil => rfl
  | cons c cs ih =>
    simp only [List.all_cons, Bool.and_eq_true] at h
    have h1 : s.readReg1 v i v.l x c = .ok s v.l [] := by
      have hc := h.1
      simp only [View.atHand, Bool.or_eq_true, Bool.and_eq_true, Bool.not_eq_true', beq_iff_eq, decide_eq_true_eq] at hc
      unfold State.readReg1
      by_cases hq : (decide (c = 0) || decide (1016 ≤ c) || v.l.res.any (·.code == c)) = true
      · simp [hq]
      · rcases hc with hc | ⟨hp, he⟩
        · exact absurd (by simpa using hc) hq
        · have hf : v.l.posted.find? (fun e => e.regs.any (·.1 == c)) = none := by
            rw [List.find?_eq_none]
            intro e he'
            have := List.any_eq_false.mp hp e he'
            simpa using this
          simp [hq, hf, he]
    simp only [State.readRegs, h1, ih h.2]

/-- Sources at hand are read without a change. -/
theorem readAll_ready (s : State) (v : View) (i : Instr) (xs : List Src) (h : xs.all v.srcReady = true) :
    s.readAll v i v.l xs = .ok s v.l [] := by
  induction xs with
  | nil => rfl
  | cons x xs ih =>
    simp only [List.all_cons, Bool.and_eq_true] at h
    have hx := h.1
    unfold View.srcReady at hx
    unfold State.readAll
    split
    · rename_i hu
      simp only [hu, if_true] at hx
      simp only [Option.isSome_iff_ne_none, ne_eq, ← Option.isNone_iff_eq_none, Bool.not_eq_true] at hx
      simp only [hx]
      exact ih h.2
    · rename_i hu
      simp only [hu] at hx
      have : s.readRegs v i v.l x (if x.code = 0 then [] else upFrom x.code x.words) = .ok s v.l [] := by
        split
        · rfl
        · rename_i hc
          refine readRegs_atHand s v i x _ ?_
          simpa [hc] using hx
      simp only [this, ih h.2]

/-- The operands of a ready lane. -/
theorem readSources_ready {s : State} {v : View} {i : Instr} (h : s.Ready v i) :
    s.readSources v i = .ok s v.l (s.operands v i) := by
  obtain ⟨hv, -, ho, ha, hb⟩ := h
  have hn : s.noteRegs v.t.r (regsRead v.l (srcsOf i)) = s := by
    unfold State.noteRegs
    rw [(view_spec hv).2.2.2.2.1]
    simp only [State.notePoison, hb]
    rfl
  simp [State.readSources, ho, readAll_ready s v i (srcsOf i) ha, State.operands, hn]

/-- A slot of a ready lane is the instruction's own effect on its operands. -/
theorem runSlot_ready {s : State} {v : View} {i : Instr} (h : s.Ready v i) (k : State → View → List Nat → Act) :
    runSlot i s k = .next (settle v i (k s v (s.operands v i))) := by
  simp [runSlot, h.1, State.slot, h.2.1, readSources_ready h]

/-- An effect that completes makes the lane go on. -/
theorem runSlot_done {s t : State} {v : View} {i : Instr} {l : Lane} (h : s.Ready v i) (k : State → View → List Nat → Act)
    (hk : k s v (s.operands v i) = .done t l) : runSlot i s k = .next (t.goesOn v l) := by
  rw [runSlot_ready h, hk]; rfl

/-- An instruction that only computes delivers its result and its flags, and changes nothing else. -/
theorem runPure_ready {s : State} {v : View} {i : Instr} (h : s.Ready v i) (t : Ty) (f : List Nat → Nat × Flags) :
    runPure i s t f = .next (s.goesOn v (v.deliver i t (f (s.operands v i)).1 (f (s.operands v i)).2)) :=
  runSlot_done h _ rfl

theorem raise_zero (l : Lane) : l.raise 0 = l := by simp [Lane.raise]

/-- An integer instruction delivers its result and raises no flag. -/
theorem runInt_ready {s : State} {v : View} {i : Instr} (h : s.Ready v i) (t : Ty) (f : List Nat → Nat) :
    runInt i s t f = .next (s.goesOn v (v.deliver i t (f (s.operands v i)) 0)) := runPure_ready h t _

/-- A guard of a ready lane goes on, or the lane takes its alternative. -/
theorem runGuard_ready {s : State} {v : View} {i : Instr} (h : s.Ready v i) (f : List Nat → Bool × Flags) :
    runGuard i s f = .next (if (f (s.operands v i)).1 then s.goesOn v (v.l.raise (f (s.operands v i)).2)
      else s.failGuard v (altOf i)) := by
  unfold runGuard
  rw [runSlot_ready h]
  simp only [guardAct]
  split <;> rfl

/-- A slot instruction always answers a next state for a lane in its slot. -/
theorem runSlot_next {s : State} {v : View} (h : s.view = some v) (i : Instr) (k : State → View → List Nat → Act) :
    runSlot i s k = .next (s.slot v i k) := by simp [runSlot, h]

/-! What going on leaves alone -/

@[simp] theorem goesOn_mem (s : State) (v : View) (l : Lane) : (s.goesOn v l).mem = s.mem := rfl
@[simp] theorem goesOn_hostMem (s : State) (v : View) (l : Lane) : (s.goesOn v l).hostMem = s.hostMem := rfl
@[simp] theorem goesOn_peerMem (s : State) (v : View) (l : Lane) : (s.goesOn v l).peerMem = s.peerMem := rfl
@[simp] theorem goesOn_groups (s : State) (v : View) (l : Lane) : (s.goesOn v l).groups = s.groups := rfl
@[simp] theorem goesOn_threads (s : State) (v : View) (l : Lane) : (s.goesOn v l).threads = s.threads := rfl
@[simp] theorem goesOn_cur (s : State) (v : View) (l : Lane) : (s.goesOn v l).cur = s.cur := rfl

end Sys2Proof.Machine
end

