-- ==== Sys2Proof/Tests/Slice0.lean ====
section
/-! SUPPORT. Tests: ill-formed terms, words written out from the layouts of R57 and the bytes of R64, the spec's worked examples, and a
witness for the hypotheses of each statement. -/

namespace Sys2Proof.Tests

open Sys2Proof Machine

-- One theorem at a time: kernel evaluations that wait for one another would each hold a thread.
set_option Elab.async false

/-! Operands of the formats, with every other field zero -/

def fa (ty : Ty) (d a : RegCode) (b c : RegCode := 0) (rm : Rm := .rne) : FA := ⟨ty, rm, 0, 0, false, false, false, 0, d, a, b, c⟩
def fi (ty : Ty) (d a : RegCode) (imm : BitVec 20) : FI := ⟨ty, .rne, 0, 0, false, false, d, a, imm⟩
def fg (ty : Ty) (a b : RegCode) (cond : Cond := .eq) : FG := ⟨ty, cond, false, false, false, a, b, 20⟩
def fm (ty : Ty) (d base index : RegCode) (off : Int := 0) (cnt : BitVec 2 := 0) : FM := ⟨ty, 0, false, false, cnt, d, base, index, off, none⟩
def fx (ty : Ty) (d a b c : RegCode) (fn : BitVec 4 := 0) : FX := ⟨ty, fn, 0, false, false, d, a, b, c, none⟩
def fe (d a b c : RegCode) (fmt : Ty := .b32) : FE := ⟨fmt, 0, 0, false, false, 0, d, a, b, c⟩
def fs (csr : BitVec 12) (fn : BitVec 4) (d a : RegCode) (imm : BitVec 20 := 0) : FS := ⟨csr, fn, d, a, imm⟩

/-! Ill-formed terms (R65) -/

theorem test_refused_form_a : ([
    -- a type that the entry does not list, a rounding mode where nothing rounds, kp on an unused field
    .iadd (fa .f32 7 5 6), .iadd (fa .i32 7 5 6 0 .rtz), .ineg { fa .i32 7 5 with kp := 2 },
    -- registers of a pair and of a quad not aligned, an unused field, fe and us on unused fields
    .iadd (fa .i64 7 10 12), .iadd (fa .i64 8 11 12), .qadd (fa .q128 8 14 16), .ineg (fa .i32 7 5 6),
    .ineg { fa .i32 7 5 with feB := true }, .ineg { fa .i32 7 5 with us := 3 },
    -- a g register past g383, a quad of g registers
    .iadd { fa .i32 7 384 6 with us := 1 }, .qadd { fa .q128 8 12 16 with us := 1 },
    -- condition and type literals, types of single entries
    .icmp (fa .i32 7 5 6 6), .icmp (fa .i32 7 5 6 16), .icmp (fa .b32 7 5 6 2), .fcmp (fa .f32 7 5 6 6), .cvt (fa .i32 7 5 0 2),
    .cvt (fa .f32 7 5 0 13), .kdq (fa .f64 8 12 5 6), .fdiv (fa .f16 7 5 6), .iabs (fa .n32 7 5), .imadw (fa .i64 8 10 12 14),
    .qinv (fa .i64 8 12), .lea (fa .i16 8 10 5 6), .flgr (fa .n32 7 0)].all fun (i : Instr) => !wfBool i) = true := by decide +kernel

theorem test_refused_forms_i_g : ([
    .iaddImm { fi .i32 7 5 1 with kp := 2 }, .iaddImm (fi .f32 7 5 1), .iaddImm { fi .i32 7 384 1 with usA := true }, .movi (fi .f32 7 0 1),
    .movi (fi .i32 7 5 1), .movh (fi .i32 7 5 1), .leaImm (fi .i64 8 10 1), .bfxImm (fi .i32 7 5 0x80), .bfxImm (fi .i32 7 5 0x8000),
    .icmpImm (fi .i32 7 5 0x60000), .icmpImm (fi .b32 7 5 0x20000), .flgc (fi .b32 7 0 32),
    .gcmp (fg .b32 5 6 .lt), .gcmp (fg .q128 8 12), .gz (fg .i32 5 0 .ne), .gz (fg .i32 5 6), .grng (fg .i32 5 7), .grng (fg .f64 8 10),
    .gcmp { fg .i32 5 384 with usB := true }, .gflg (fg .i32 0 5), .gflgImm (fg .b32 0 32), .gfull { fg .b32 5 0 with feA := true }].all
    fun (i : Instr) => !wfBool i) = true := by decide +kernel

theorem test_refused_form_m : ([
    -- cnt 3, a span over the end of its class, v0 for several values, fe(data) on LD, orderings, P words
    .ld (fm .i32 8 2 0 0 3), .ld (fm .i32 1014 2 0 0 2), .ld (fm .i32 1022 2 0 0 2), .ld (fm .i32 0 2 0 0 1), .ld { fm .i32 8 2 0 with feData := true },
    .ld { fm .i32 8 2 0 with pre := some ⟨.rel, .dev, .generic, .dflt, .dflt⟩ }, .st { fm .i32 8 2 0 with pre := some ⟨.acq, .dev, .generic, .dflt, .dflt⟩ },
    .pref { fm .i32 0 2 0 with pre := some ⟨.sc, .dev, .generic, .dflt, .dflt⟩ }, .ptog { fm .n64 6 2 0 with pre := some ⟨.plain, .dev, .generic, .dflt, .dflt⟩ },
    .ld (fm .i32 8 3 0), .st (fm .i64 9 2 0), .pref (fm .i32 0 2 0 0 1), .pref (fm .i32 5 2 0), .ptog (fm .n64 7 2 0), .fence (fm .b32 0 0 0 8), .fence (fm .i32 0 0 0),
    .waitv (fm .i16 5 2 0), .waitv (fm .b32 5 2 0 0 2), .publish (fm .i64 6 8 0), .publish (fm .n64 6 8 5),
    .publish { fm .n64 6 8 0 with pre := some ⟨.acq, .dev, .generic, .dflt, .dflt⟩ }, .atomAdd (fm .i32 1016 2 5), .atomAdd (fm .f32 5 2 6),
    .atomAnd (fm .f64 6 2 8), .atomFadd (fm .i32 5 2 6), .atomCas (fm .i32 5 2 7), .atomAdd (fm .i32 5 2 6 0 1)].all
    fun (i : Instr) => !wfBool i) = true := by decide +kernel

theorem test_refused_forms_x_e_s : ([
    .shfl (fx .f32 5 6 7 0 4), .shfl (fx .f32 5 6 7 8), .shfl (fx .q128 8 12 7 0), .xred (fx .i32 5 6 0 0 6), .xred (fx .b32 5 6 0 0),
    .xred (fx .i32 5 6 0 8), .xred (fx .f32 5 6 0 0x30), .xred (fx .n32 5 0 0 0 8), .vote (fx .n32 5 6 0 0 4), .vote (fx .n64 6 8 0 0), .vote (fx .n32 5 6 0 8),
    .gbar (fx .b32 0 0 0 4), .grank (fx .b32 5 0 0 4), .gset (fx .f64 384 8 0 0), .gset (fx .f64 381 8 0 0), .gset (fx .i16 5 8 0 0), .gnew (fx .b32 1016 5 6 0),
    .shfl { fx .f32 5 6 7 0 with pre := some ⟨.plain, .dev, .generic, .dflt, .dflt⟩ }, .ldx (fx .b32 0 2 5 6 9), .ldx (fx .b32 0 3 5 6),
    .mma (fe 0 5 6 7 .i32), .mma (fe 8 5 6 7 .f32), .mdrn (fe 0 5 0 7 .bf16), .mlda (fe 0 5 0 0 .f16), .mzero (fe 0 0 0 0 .f32), .mma { fe 0 5 6 7 .f32 with fn := 1 },
    .cpygo { fe 0 5 6 0 with acc := 1 }, .binit (fe 0 5 6 7), .barv (fe 1016 5 0 0),
    .csrr (fs 0x004 0 5 0), .csrr (fs 0x003 0 5 0), .csrw (fs 0x001 0 0 5), .csrw (fs 0x003 0 0 5), .csrwImm (fs 0x003 1 0 0), .fill (fs 0 0 0 0),
    .fill (fs 0 0 1016 0), .waitf (fs 0 0 12 0 17), .waitf (fs 0 0 1010 0 8), .waitf (fs 0 0 12 0 0), .prog (fs 0 0 0 0 16), .launch (fs 0 0 5 20 8),
    .launch (fs 0 0 5 21 0), .nop (fs 0 0 0 0 1), .trap (fs 1 0 0 0), .tretSkip (fs 0 0 0 0), .yield (fs 0 1 0 0)].all
    fun (i : Instr) => !wfBool i) = true := by decide +kernel

/-! Decoding: one word of each constructor -/

theorem test_decode_thread_control : ([
  0x0000000000000000,
  0x0100000000012345,
  0x0200000000000000,
  0x0200010000000000,
  0x0320000180000000,
  0x0400300000800000,
  0x0400210000008000,
  0x050000FDC0000000,
  0x0600000040000000,
  0x0700000300000010,
  0x080000FE40000000,
  0x08000100C0000000,
  0x090000000000000F,
  0x0A00000000000000,
  0x0B00000141400007].map fun w => (decodeWord w).toOption) = [
  some (.nop ⟨0x0, 0, 0, 0, 0x0⟩),
  some (.trap ⟨0x0, 0, 0, 0, 0x12345⟩),
  some (.tretRe ⟨0x0, 0, 0, 0, 0x0⟩),
  some (.tretSkip ⟨0x0, 1, 0, 0, 0x0⟩),
  some (.csrr ⟨0x200, 0, 6, 0, 0x0⟩),
  some (.csrw ⟨0x3, 0, 0, 8, 0x0⟩),
  some (.csrwImm ⟨0x2, 1, 0, 0, 0x8000⟩),
  some (.fill ⟨0x0, 0, 1015, 0, 0x0⟩),
  some (.void ⟨0x0, 0, 1, 0, 0x0⟩),
  some (.waitf ⟨0x0, 0, 12, 0, 0x10⟩),
  some (.chkerr ⟨0x0, 0, 1017, 0, 0x0⟩),
  some (.chkerrAbort ⟨0x0, 1, 3, 0, 0x0⟩),
  some (.prog ⟨0x0, 0, 0, 0, 0xF⟩),
  some (.yield ⟨0x0, 0, 0, 0, 0x0⟩),
  some (.launch ⟨0x0, 0, 5, 20, 0x7⟩)] := by decide +kernel

theorem test_decode_integer : ([
  0x10100101D7F01800,
  0x1180600200AFF800,
  0x12610001C0501800,
  0x1340100200A03000,
  0x14200301C0501809,
  0x1570040500501816,
  0x16300001C0501800,
  0x17500801C0501800,
  0x1840000200A00000,
  0x19300001C0500000,
  0x1A30020781F01000,
  0x1B700001C0501800,
  0x1C20000501505800,
  0x1D60000501505800].map fun w => (decodeWord w).toOption) = [
  some (.iadd ⟨.i8, .rne, 0, 0, false, false, false, 1, 7, 383, 6, 0⟩),
  some (.isub ⟨.n64, .rne, 0, 3, false, false, false, 0, 8, 10, 1022, 0⟩),
  some (.imul ⟨.n16, .rne, 2, 0, false, false, false, 0, 7, 5, 6, 0⟩),
  some (.imulh ⟨.i64, .rne, 0, 0, true, false, false, 0, 8, 10, 12, 0⟩),
  some (.imad ⟨.i16, .rne, 0, 0, false, false, false, 3, 7, 5, 6, 9⟩),
  some (.imadw ⟨.n32, .rne, 0, 0, false, false, true, 0, 20, 5, 6, 22⟩),
  some (.idiv ⟨.i32, .rne, 0, 0, false, false, false, 0, 7, 5, 6, 0⟩),
  some (.irem ⟨.n8, .rne, 0, 0, false, true, false, 0, 7, 5, 6, 0⟩),
  some (.ineg ⟨.i64, .rne, 0, 0, false, false, false, 0, 8, 10, 0, 0⟩),
  some (.iabs ⟨.i32, .rne, 0, 0, false, false, false, 0, 7, 5, 0, 0⟩),
  some (.imin ⟨.i32, .rne, 0, 0, false, false, false, 2, 30, 31, 4, 0⟩),
  some (.imax ⟨.n32, .rne, 0, 0, false, false, false, 0, 7, 5, 6, 0⟩),
  some (.iadds ⟨.i16, .rne, 0, 0, false, false, false, 0, 20, 21, 22, 0⟩),
  some (.isubs ⟨.n16, .rne, 0, 0, false, false, false, 0, 20, 21, 22, 0⟩)] := by decide +kernel

theorem test_decode_bits : ([
  0x1E000001C0501800,
  0x1F80000200A03000,
  0x20100001C0501800,
  0x2100000240902800,
  0x2280000501601400,
  0x23100001C0501800,
  0x2440000501601C00,
  0x25000001C0501800,
  0x26300001C0501800,
  0x2780000200A03005,
  0x28800001C1600000,
  0x2980000781600000,
  0x2A200001C0500000,
  0x2B100001C0500000,
  0x2C700001C0501805,
  0x2D40000200A03005,
  0x2EE0000200C00000,
  0x2F70000200A01406].map fun w => (decodeWord w).toOption) = [
  some (.and ⟨.b32, .rne, 0, 0, false, false, false, 0, 7, 5, 6, 0⟩),
  some (.or ⟨.n64, .rne, 0, 0, false, false, false, 0, 8, 10, 12, 0⟩),
  some (.xor ⟨.i8, .rne, 0, 0, false, false, false, 0, 7, 5, 6, 0⟩),
  some (.andn ⟨.b32, .rne, 0, 0, false, false, false, 0, 9, 9, 10, 0⟩),
  some (.lsl ⟨.n64, .rne, 0, 0, false, false, false, 0, 20, 22, 5, 0⟩),
  some (.lsr ⟨.i8, .rne, 0, 0, false, false, false, 0, 7, 5, 6, 0⟩),
  some (.asr ⟨.i64, .rne, 0, 0, false, false, false, 0, 20, 22, 7, 0⟩),
  some (.rot ⟨.b32, .rne, 0, 0, false, false, false, 0, 7, 5, 6, 0⟩),
  some (.bfx ⟨.i32, .rne, 0, 0, false, false, false, 0, 7, 5, 6, 0⟩),
  some (.bfi ⟨.n64, .rne, 0, 0, false, false, false, 0, 8, 10, 12, 5⟩),
  some (.popc ⟨.n64, .rne, 0, 0, false, false, false, 0, 7, 22, 0, 0⟩),
  some (.clz ⟨.n64, .rne, 0, 0, false, false, false, 0, 30, 22, 0, 0⟩),
  some (.ctz ⟨.i16, .rne, 0, 0, false, false, false, 0, 7, 5, 0, 0⟩),
  some (.brev ⟨.i8, .rne, 0, 0, false, false, false, 0, 7, 5, 0, 0⟩),
  some (.icmp ⟨.n32, .rne, 0, 0, false, false, false, 0, 7, 5, 6, 5⟩),
  some (.sel ⟨.i64, .rne, 0, 0, false, false, false, 0, 8, 10, 12, 5⟩),
  some (.mov ⟨.q128, .rne, 0, 0, false, false, false, 0, 8, 12, 0, 0⟩),
  some (.lea ⟨.n32, .rne, 0, 0, false, false, false, 0, 8, 10, 5, 6⟩)] := by decide +kernel

theorem test_decode_immediates : ([
  0x30700001405FFFFF,
  0x312000050150000B,
  0x321080014060007F,
  0x33700001405FFFFF,
  0x340008014C8000FF,
  0x3580000180800001,
  0x3620000140608000,
  0x3730000140607F7F,
  0x3840000180800028,
  0x3900100140600003,
  0x3A40000501600046,
  0x3B50000140600009,
  0x3C3000014062FFFF,
  0x3D80400A00200030,
  0x3E8000FE80000001,
  0x3F000001405ABCDE,
  0x5B0000014000001F].map fun w => (decodeWord w).toOption) = [
  some (.iaddImm ⟨.n32, .rne, 0, 0, false, false, 5, 5, 0xFFFFF⟩),
  some (.imulImm ⟨.i16, .rne, 0, 0, false, false, 20, 21, 0xB⟩),
  some (.iminImm ⟨.i8, .rne, 1, 0, false, false, 5, 6, 0x7F⟩),
  some (.imaxImm ⟨.n32, .rne, 0, 0, false, false, 5, 5, 0xFFFFF⟩),
  some (.andImm ⟨.b32, .rne, 0, 0, false, true, 5, 200, 0xFF⟩),
  some (.orImm ⟨.n64, .rne, 0, 0, false, false, 6, 8, 0x1⟩),
  some (.xorImm ⟨.i16, .rne, 0, 0, false, false, 5, 6, 0x8000⟩),
  some (.bfxImm ⟨.i32, .rne, 0, 0, false, false, 5, 6, 0x7F7F⟩),
  some (.lslImm ⟨.i64, .rne, 0, 0, false, false, 6, 8, 0x28⟩),
  some (.lsrImm ⟨.b32, .rne, 0, 0, true, false, 5, 6, 0x3⟩),
  some (.asrImm ⟨.i64, .rne, 0, 0, false, false, 20, 22, 0x46⟩),
  some (.rotImm ⟨.n8, .rne, 0, 0, false, false, 5, 6, 0x9⟩),
  some (.icmpImm ⟨.i32, .rne, 0, 0, false, false, 5, 6, 0x2FFFF⟩),
  some (.leaImm ⟨.n64, .rne, 0, 2, false, false, 40, 2, 0x30⟩),
  some (.movi ⟨.n64, .rne, 0, 0, false, false, 1018, 0, 0x1⟩),
  some (.movh ⟨.b32, .rne, 0, 0, false, false, 5, 5, 0xABCDE⟩),
  some (.flgc ⟨.b32, .rne, 0, 0, false, false, 5, 0, 0x1F⟩)] := by decide +kernel

theorem test_decode_float : ([
  0x40B40001C0501800,
  0x41CA000200A03000,
  0x42A80001C0501800,
  0x43920001C0501809,
  0x44C6000200A0300E,
  0x45B00001C0501800,
  0x4690020501501C00,
  0x47C0000200A00000,
  0x48A00001C0500000,
  0x49C0000A02A0B000,
  0x4AB0000501505802,
  0x4BC0000501600000,
  0x4CB00001C0501800,
  0x4DC4000200A00000,
  0x4EB00001C0500000,
  0x4FC0000200A00000,
  0x59920001C0500000,
  0x5A000001C0000000].map fun w => (decodeWord w).toOption) = [
  some (.fadd ⟨.f32, .rup, 0, 0, false, false, false, 0, 7, 5, 6, 0⟩),
  some (.fsub ⟨.f64, .rod, 0, 0, false, false, false, 0, 8, 10, 12, 0⟩),
  some (.fmul ⟨.bf16, .rna, 0, 0, false, false, false, 0, 7, 5, 6, 0⟩),
  some (.fma ⟨.f16, .rtz, 0, 0, false, false, false, 0, 7, 5, 6, 9⟩),
  some (.fnma ⟨.f64, .rdn, 0, 0, false, false, false, 0, 8, 10, 12, 14⟩),
  some (.fmin ⟨.f32, .rne, 0, 0, false, false, false, 0, 7, 5, 6, 0⟩),
  some (.fmax ⟨.f16, .rne, 0, 0, false, false, false, 2, 20, 21, 7, 0⟩),
  some (.fabs ⟨.f64, .rne, 0, 0, false, false, false, 0, 8, 10, 0, 0⟩),
  some (.fneg ⟨.bf16, .rne, 0, 0, false, false, false, 0, 7, 5, 0, 0⟩),
  some (.fcps ⟨.f64, .rne, 0, 0, false, false, false, 0, 40, 42, 44, 0⟩),
  some (.fcmp ⟨.f32, .rne, 0, 0, false, false, false, 0, 20, 21, 22, 2⟩),
  some (.fcls ⟨.f64, .rne, 0, 0, false, false, false, 0, 20, 22, 0, 0⟩),
  some (.fdiv ⟨.f32, .rne, 0, 0, false, false, false, 0, 7, 5, 6, 0⟩),
  some (.fsqrt ⟨.f64, .rup, 0, 0, false, false, false, 0, 8, 10, 0, 0⟩),
  some (.frcp ⟨.f32, .rne, 0, 0, false, false, false, 0, 7, 5, 0, 0⟩),
  some (.frsq ⟨.f64, .rne, 0, 0, false, false, false, 0, 8, 10, 0, 0⟩),
  some (.frnd ⟨.f16, .rtz, 0, 0, false, false, false, 0, 7, 5, 0, 0⟩),
  some (.flgr ⟨.b32, .rne, 0, 0, false, false, false, 0, 7, 0, 0, 0⟩)] := by decide +kernel

theorem test_decode_functions : ([
  0x50B80001C0500000,
  0x51B80001C0500000,
  0x52B80001C0500000,
  0x53B80001C0500000,
  0x54B80001C0500000,
  0x55B80001C0500000,
  0x56B80001C0500000,
  0x57B80001C0500000,
  0x58B80001C0500000,
  0x702200050150000B,
  0x71B000050180701D,
  0x72AA000501807000].map fun w => (decodeWord w).toOption) = [
  some (.fexp ⟨.f32, .rna, 0, 0, false, false, false, 0, 7, 5, 0, 0⟩),
  some (.fexp2 ⟨.f32, .rna, 0, 0, false, false, false, 0, 7, 5, 0, 0⟩),
  some (.flog ⟨.f32, .rna, 0, 0, false, false, false, 0, 7, 5, 0, 0⟩),
  some (.flog2 ⟨.f32, .rna, 0, 0, false, false, false, 0, 7, 5, 0, 0⟩),
  some (.fsin ⟨.f32, .rna, 0, 0, false, false, false, 0, 7, 5, 0, 0⟩),
  some (.fcos ⟨.f32, .rna, 0, 0, false, false, false, 0, 7, 5, 0, 0⟩),
  some (.ftanh ⟨.f32, .rna, 0, 0, false, false, false, 0, 7, 5, 0, 0⟩),
  some (.fsigm ⟨.f32, .rna, 0, 0, false, false, false, 0, 7, 5, 0, 0⟩),
  some (.ferf ⟨.f32, .rna, 0, 0, false, false, false, 0, 7, 5, 0, 0⟩),
  some (.cvt ⟨.i16, .rtz, 0, 0, false, false, false, 0, 20, 21, 0, 11⟩),
  some (.kdq ⟨.f32, .rne, 0, 0, false, false, false, 0, 20, 24, 28, 29⟩),
  some (.kdx ⟨.bf16, .rod, 0, 0, false, false, false, 0, 20, 24, 28, 0⟩)] := by decide +kernel

theorem test_decode_guards : ([
  0x80C580280CFFFFFF,
  0x8032100C64000014,
  0x81000FE000000007,
  0x82200FE400FFFFFB,
  0x83300FEBFC000013,
  0x840020017F000002,
  0x840010001F000002,
  0x8500002400000003].map fun w => (decodeWord w).toOption) = [
  some (.gcmp ⟨.f64, .ge, true, false, false, 10, 12, 0xFFFFFF⟩),
  some (.gcmpImm ⟨.i32, .lt, false, false, false, 3, 100, 0x14⟩),
  some (.gz ⟨.b32, .eq, false, false, false, 1016, 0, 0x7⟩),
  some (.gnz ⟨.i16, .eq, false, false, false, 1017, 0, 0xFFFFFB⟩),
  some (.grng ⟨.i32, .eq, false, false, false, 1018, 1020, 0x13⟩),
  some (.gflg ⟨.b32, .eq, false, false, true, 0, 383, 0x2⟩),
  some (.gflgImm ⟨.b32, .eq, false, false, false, 0, 31, 0x2⟩),
  some (.gfull ⟨.b32, .eq, false, false, false, 9, 0, 0x3⟩)] := by decide +kernel

theorem test_decode_rational : ([
  0x90E000FF3F8FE800,
  0x91E0000200C00000,
  0x92E0000200C04000,
  0x93E0000200C04000,
  0x94E000053FCFE000,
  0x95E0000200C04000,
  0x96E0000200C00000,
  0x97E0000200C00000,
  0x98E0000240C04000].map fun w => (decodeWord w).toOption) = [
  some (.qenc ⟨.q128, .rne, 0, 0, false, false, false, 0, 1020, 1016, 1018, 0⟩),
  some (.qdec ⟨.q128, .rne, 0, 0, false, false, false, 0, 8, 12, 0, 0⟩),
  some (.qadd ⟨.q128, .rne, 0, 0, false, false, false, 0, 8, 12, 16, 0⟩),
  some (.qsub ⟨.q128, .rne, 0, 0, false, false, false, 0, 8, 12, 16, 0⟩),
  some (.qmul ⟨.q128, .rne, 0, 0, false, false, false, 0, 20, 1020, 1016, 0⟩),
  some (.qdiv ⟨.q128, .rne, 0, 0, false, false, false, 0, 8, 12, 16, 0⟩),
  some (.qinv ⟨.q128, .rne, 0, 0, false, false, false, 0, 8, 12, 0, 0⟩),
  some (.qneg ⟨.q128, .rne, 0, 0, false, false, false, 0, 8, 12, 0, 0⟩),
  some (.qeq ⟨.q128, .rne, 0, 0, false, false, false, 0, 9, 12, 16, 0⟩)] := by decide +kernel

theorem test_decode_memory : ([
  0xA0203F900BF80000,
  0xA1E040800800FFF0,
  0xA200000008050040,
  0xA380006008000008,
  0xA40700000020000F,
  0xA500000000000000,
  0xA640806008050020,
  0xA78000602000FFF8].map fun w => (decodeWord w).toOption) = [
  some (.ld ⟨.i16, 0, false, false, 0, 1017, 2, 1016, 0, none⟩),
  some (.st ⟨.q128, 0, false, false, 1, 8, 2, 0, (-16), none⟩),
  some (.pref ⟨.b32, 0, false, false, 0, 0, 2, 5, 64, none⟩),
  some (.ptog ⟨.n64, 0, false, false, 0, 6, 2, 0, 8, none⟩),
  some (.ldx ⟨.b32, 7, 0, false, false, 0, 2, 0, 15, none⟩),
  some (.fence ⟨.b32, 0, false, false, 0, 0, 0, 0, 0, none⟩),
  some (.waitv ⟨.i64, 0, false, false, 2, 6, 2, 5, 32, none⟩),
  some (.publish ⟨.n64, 0, false, false, 0, 6, 8, 0, (-8), none⟩)] := by decide +kernel

theorem test_decode_atomics : ([
  0xB030006008140004,
  0xB180006008140008,
  0xB24000800816FFF8,
  0xB370005008070000,
  0xB400005008070000,
  0xB580006008080000,
  0xB630005008070000,
  0xB700000008070000,
  0xB830005008087FFC,
  0xB9C0006008080000,
  0xBAB0005008078000,
  0xBBC0006008080010].map fun w => (decodeWord w).toOption) = [
  some (.atomAdd ⟨.i32, 0, false, false, 0, 6, 2, 20, 4, none⟩),
  some (.atomSub ⟨.n64, 0, false, false, 0, 6, 2, 20, 8, none⟩),
  some (.atomMin ⟨.i64, 0, false, false, 0, 8, 2, 22, (-8), none⟩),
  some (.atomMax ⟨.n32, 0, false, false, 0, 5, 2, 7, 0, none⟩),
  some (.atomAnd ⟨.b32, 0, false, false, 0, 5, 2, 7, 0, none⟩),
  some (.atomOr ⟨.n64, 0, false, false, 0, 6, 2, 8, 0, none⟩),
  some (.atomXor ⟨.i32, 0, false, false, 0, 5, 2, 7, 0, none⟩),
  some (.atomExch ⟨.b32, 0, false, false, 0, 0, 2, 7, 0, none⟩),
  some (.atomCas ⟨.i32, 0, false, false, 0, 5, 2, 8, 32764, none⟩),
  some (.atomFadd ⟨.f64, 0, false, false, 0, 6, 2, 8, 0, none⟩),
  some (.atomFmin ⟨.f32, 0, false, false, 0, 5, 2, 7, (-32768), none⟩),
  some (.atomFmax ⟨.f64, 0, false, false, 0, 6, 2, 8, 16, none⟩)] := by decide +kernel

theorem test_decode_lanes_and_groups : ([
  0xC0C3000180801407,
  0xC1B0000781F00000,
  0xC238000140600001,
  0xC382000180900006,
  0xC400000140601C00,
  0xC500200140600000,
  0xC600000000600000,
  0xC700000000000003,
  0xC800000140000002,
  0xC900000140000001,
  0xCAC0005F80800000].map fun w => (decodeWord w).toOption) = [
  some (.shfl ⟨.f64, 3, 0, false, false, 6, 8, 5, 7, none⟩),
  some (.xred ⟨.f32, 0, 0, false, false, 30, 31, 0, 0, none⟩),
  some (.scan ⟨.i32, 8, 0, false, false, 5, 6, 0, 1, none⟩),
  some (.vote ⟨.n64, 2, 0, false, false, 6, 9, 0, 6, none⟩),
  some (.gnew ⟨.b32, 0, 0, false, false, 5, 6, 7, 0, none⟩),
  some (.join ⟨.b32, 0, 0, true, false, 5, 6, 0, 0, none⟩),
  some (.leave ⟨.b32, 0, 0, false, false, 0, 6, 0, 0, none⟩),
  some (.gbar ⟨.b32, 0, 0, false, false, 0, 0, 0, 3, none⟩),
  some (.grank ⟨.b32, 0, 0, false, false, 5, 0, 0, 2, none⟩),
  some (.gsize ⟨.b32, 0, 0, false, false, 5, 0, 0, 1, none⟩),
  some (.gset ⟨.f64, 0, 0, false, false, 382, 8, 0, 0, none⟩)] := by decide +kernel

theorem test_decode_cluster : ([
  0xD0D0030001405416,
  0xD1000F0000000000,
  0xD2C0010000500000,
  0xD3B0000000501800,
  0xD410020001400016,
  0xD50000000280A400,
  0xD60000014280A400,
  0xD700000000501808,
  0xD800000781F00000,
  0xD900100000501800,
  0xDA000001C0501800,
  0xDB00000000501807,
  0xDC004001C0500000,
  0xDD00000000501800].map fun w => (decodeWord w).toOption) = [
  some (.mma ⟨.kd8, 0, 0, false, false, 3, 0, 20, 21, 22⟩),
  some (.mzero ⟨.b32, 0, 0, false, false, 15, 0, 0, 0, 0⟩),
  some (.mlda ⟨.f64, 0, 0, false, false, 1, 0, 5, 0, 0⟩),
  some (.msta ⟨.f32, 0, 0, false, false, 0, 0, 5, 6, 0⟩),
  some (.mdrn ⟨.i8, 0, 0, false, false, 2, 0, 20, 0, 22⟩),
  some (.cpygo ⟨.b32, 0, 0, false, false, 0, 0, 40, 41, 0⟩),
  some (.cpyw ⟨.b32, 0, 0, false, false, 0, 5, 40, 41, 0⟩),
  some (.binit ⟨.b32, 0, 0, false, false, 0, 0, 5, 6, 8⟩),
  some (.barv ⟨.b32, 0, 0, false, false, 0, 30, 31, 0, 0⟩),
  some (.bwait ⟨.b32, 0, 0, false, true, 0, 0, 5, 6, 0⟩),
  some (.btest ⟨.b32, 0, 0, false, false, 0, 7, 5, 6, 0⟩),
  some (.flinit ⟨.b32, 0, 0, false, false, 0, 0, 5, 6, 7⟩),
  some (.flacq ⟨.b32, 0, 1, false, false, 0, 7, 5, 0, 0⟩),
  some (.flrel ⟨.b32, 0, 0, false, false, 0, 0, 5, 6, 0⟩)] := by decide +kernel
theorem test_decode_memory_prefix :
    (decodeWords [0xE450000000000000, 0xA13000C028090000]).toOption =
      some (.st ⟨.i32, 0, false, false, 0, 12, 10, 9, 0, some ⟨.rel, .sys, .generic, .dflt, .dflt⟩⟩) ∧
    (decodeWords [0xE46C000000000000, 0xB030014020150000]).toOption =
      some (.atomAdd ⟨.i32, 0, false, false, 0, 20, 8, 21, 0, some ⟨.acqrel, .dev, .generic, .dflt, .dflt⟩⟩) := by decide +kernel

/-- Unassigned bytes, structure words, ty code 15, rm code 6, a reserved bit, a P word that nothing takes or whose ordering is refused. -/
theorem test_decode_refusals :
    decodeWord 0x0C00000000000000 = .error .unassigned ∧ decodeWord 0xE200000000000000 = .error .unassigned ∧
    decodeWord 0xFF00000000000000 = .error .unassigned ∧ decodeWord 0x10F00001C0501800 = .error .code ∧
    decodeWord 0x40BC0001C0501800 = .error .code ∧ decodeWord 0x3030010140500001 = .error .reserved ∧
    decodeWord 0x0200020000000000 = .error .subOperation ∧ decodeWord 0x8130100C64000014 = .error .notAccepted ∧
    decodeWords [0xE450000000000000, 0xC1B0000781F00000] = .error .memoryPrefix ∧
    decodeWords [0xE450000000000000, 0xA03000C028090000] = .error .memoryPrefix ∧
    decodeWords [0xE4A0000000000000, 0xA13000C028090000] = .error .code ∧
    decodeWords [0xE450000000000001, 0xA13000C028090000] = .error .reserved := by decide +kernel
/-! One step on a small state -/

/-- The creation parameters of the context of the tests: its page table at 0x10000, its handler, fault area and event queue in frame 1. -/
def params : CtxParams := { placedParams with root := 0x10000, handler := 0x18000, faultArea := 0x14000, evqBase := 0x16000, frames := [0, 1] }

/-- Page table: the first entry of levels 0 and 1, and a 1 GiB leaf, writable, that maps address 0 to device address 0 (R283, R284). -/
def tables : Memory :=
  [(0x10000, 0x01), (0x10001, 0x10), (0x10002, 0x01), (0x11000, 0x01), (0x11001, 0x20), (0x11002, 0x01), (0x12000, 0x03), (0x12001, 0x01)]

/-- A lane stands at its slot; its thread holds the registers listed. -/
def at_ (regs : List (Nat × Nat) := []) (psel : DWord := placedPsel) : State :=
  let s := State.reset.place [0]
  { s with
    cur := some (placedPort, 0), contexts := [Context.fresh params 0 0], owners := [(0, 0), (1, 0)], mem := tables
    runs := [{ (default : Run) with id := 0, ctx := 0 }]
    threads := s.threads.map fun t => { regs.foldl (fun (t : Thread) x => t.setReg x.1 (.ofNat 32 x.2)) t with psel } }

/-- The core has the translation of that leaf. -/
def near (s : State) : State := { s with cores := [{ id := 0, tlb := [{ ctx := 0, page := 0, size := 2 ^ 30, leaf := 0x103 }] }] }

/-- What a register holds for the lane after an instruction, and the flags that the lane has raised. -/
def got (i : Instr) (s : State) (c : Nat) : Option (Nat × Nat) :=
  match exec i s with
  | .next t => t.view.map fun v => ((laneReg v.l v.t c).toNat, v.l.tflags.toNat)
  | _ => none

/-- The cause in TSTAT and the PC of thread 0 after an instruction. -/
def trapped (i : Instr) (s : State) : Option (Nat × Nat) :=
  match exec i s with
  | .next t => (t.thread? 0).map fun t => (t.tstat.toNat / 2 ^ 24, t.pc.toNat)
  | _ => none

-- R82, R83: the examples of the entries
theorem test_imul_low_half : got (.imulImm (fi .i16 20 21 11)) (at_ [(21, 3000)]) 20 = some (0xFFFF80E8, 0) := by decide +kernel
theorem test_iadd_minus_one : got (.iaddImm (fi .n32 5 5 0xFFFFF)) (at_ [(5, 0)]) 5 = some (0xFFFFFFFF, 0) := by decide +kernel
theorem test_imadw_carry : ([20, 21].map (got (.imadw (fa .n32 20 5 6 22)) (at_ [(5, 0xFFFFFFFF), (6, 2), (22, 1)]))) =
    [some (0xFFFFFFFF, 0), some (1, 0)] := by decide +kernel

/-- The edges of R84's table. -/
def quotient (ty : Ty) (a b : Nat) : Option (Nat × Nat) × Option (Nat × Nat) :=
  (got (.idiv (fa ty 7 5 6)) (at_ [(5, a), (6, b)]) 7, got (.irem (fa ty 7 5 6)) (at_ [(5, a), (6, b)]) 7)
theorem test_division_signs : quotient .i32 7 2 = (some (3, 0), some (1, 0)) ∧
    quotient .i32 0xFFFFFFF9 2 = (some (0xFFFFFFFD, 0), some (0xFFFFFFFF, 0)) ∧
    quotient .i32 7 0xFFFFFFFE = (some (0xFFFFFFFD, 0), some (1, 0)) := by decide +kernel
theorem test_division_by_zero : quotient .i32 5 0 = (some (0xFFFFFFFF, 0), some (5, 0)) ∧ quotient .n32 5 0 = (some (0xFFFFFFFF, 0), some (5, 0)) ∧
    quotient .n8 200 0 = (some (255, 0), some (200, 0)) := by decide +kernel
theorem test_division_of_min : quotient .i32 0x80000000 0xFFFFFFFF = (some (0x80000000, 0), some (0, 0)) ∧
    quotient .i8 0xFFFFFF80 0xFFFFFFFF = (some (0xFFFFFF80, 0), some (0, 0)) := by decide +kernel

-- R86, R88 to R90, R85, R87: the examples of the entries
theorem test_iadds_clamps : got (.iadds (fa .i16 20 21 22)) (at_ [(21, 30000), (22, 5000)]) 20 = some (32767, 0) := by decide +kernel
theorem test_asr_clamps : ([20, 21].map (got (.asrImm (fi .i64 20 22 70)) (at_ [(22, 5), (23, 0x80000000)]))) =
    [some (0xFFFFFFFF, 0), some (0xFFFFFFFF, 0)] := by decide +kernel
theorem test_bfx_sign : got (.bfxImm (fi .i32 20 21 0x0804)) (at_ [(21, 0x0F30)]) 20 = some (0xFFFFFFF3, 0) := by decide +kernel
theorem test_clz_pair : got (.clz (fa .n64 30 22 0)) (at_ [(23, 1)]) 30 = some (31, 0) := by decide +kernel
theorem test_imax_immediate_by_type : got (.imaxImm (fi .n32 5 5 0xFFFFF)) (at_ [(5, 7)]) 5 = some (1048575, 0) := by decide +kernel
theorem test_andn : got (.andn (fa .b32 9 9 10)) (at_ [(9, 0xFF), (10, 0x0F)]) 9 = some (0xF0, 0) := by decide +kernel

-- R97, R98, R100, R101, R106, R107: the examples of the entries; R102, R103: the tables of special operands
theorem test_fcps : ([40, 41].map (got (.fcps (fa .f64 40 42 44)) (at_ [(42, 9), (43, 0x7FF00000), (45, 0x80000000)]))) =
    [some (9, 0), some (0xFFF00000, 0)] := by decide +kernel
theorem test_fcls_subnormal : got (.fcls (fa .f64 20 22 0)) (at_ [(22, 1)]) 20 = some (0x080, 0) := by decide +kernel
theorem test_frnd_down : got (.frnd (fa .f32 20 21 0 0 .rdn)) (at_ [(21, 0xC0200000)]) 20 = some (0xC0400000, flNX.toNat) := by decide +kernel
theorem test_cvt_truncates : got (.cvt (fa .i16 20 21 0 11 .rtz)) (at_ [(21, 0xC06CCCCD)]) 20 = some (0xFFFFFFFD, flNX.toNat) := by decide +kernel
theorem test_fdiv_by_zero : got (.fdiv (fa .f32 7 5 6)) (at_ [(5, 0xBF800000)]) 7 = some (0xFF800000, flDZ.toNat) := by decide +kernel
theorem test_flog_of_zero : got (.flog (fa .f32 7 5)) (at_ [(5, 0x80000000)]) 7 = some (0xFF800000, flDZ.toNat) := by decide +kernel
theorem test_kdq_example : ([20, 21].map (got (.kdq (fa .f32 20 32 36 37))
    (at_ [(32, 0x56000000), (33, 0x3F800000), (34, 0x41400000), (35, 0xBE800000), (36, 0x56000000), (37, 0xFFFFFFFF)]))) =
    [some (0xA9614007, flNX.toNat), some (1, flNX.toNat)] := by decide +kernel

-- R143: the table of fractions for p = 7, k = 3
def seven : DWord := 0x0000000300000007
def fraction (x : Nat) : Option (Nat × Nat × Nat × Bool) :=
  match exec (.qdec (fa .q128 20 24)) (at_ [(24, x)] seven) with
  | .next t => t.view.map fun v =>
      ((laneReg v.l v.t 20).toNat, (laneReg v.l v.t 21).toNat, (laneReg v.l v.t 22).toNat, v.l.qr)
  | _ => none
theorem test_qdec_table : fraction 229 = some (1, 0, 3, false) ∧ fraction 274 = some (0xFFFFFFFE, 0xFFFFFFFF, 5, false) ∧
    fraction 160 = some (0, 0, 0, true) := by decide +kernel
theorem test_qinv_of_non_unit : trapped (.qinv (fa .q128 20 24)) (at_ [(24, 49)] seven) = some (0x14, 0x18000) := by decide +kernel

-- R19, R112, R114: a guard that passes leaves the lane at its next slot, one that fails takes the alternative, 20 words from the H word
def passes (i : Instr) (s : State) : Option Nat :=
  match exec i s with
  | .next t => t.view.map (·.l.at_)
  | _ => none
theorem test_gcmp_immediate : passes (.gcmpImm (fg .i32 3 100 .lt)) (at_ [(3, 99)]) = some 2 ∧
    trapped (.gcmpImm (fg .i32 3 100 .lt)) (at_ [(3, 100)]) = some (0, 160) := by decide +kernel
theorem test_grng_bounds : passes (.grng (fg .i32 3 8)) (at_ [(3, 7), (8, 0xFFFFFFFF), (9, 7)]) = some 2 ∧
    trapped (.grng (fg .i32 3 8)) (at_ [(3, 8), (8, 0xFFFFFFFF), (9, 7)]) = some (0, 160) := by decide +kernel

-- R11, R118, R121: an empty register, a misaligned access, a store in the pond
theorem test_empty_register : trapped (.iadd (fa .i32 7 5 6)) { at_ with threads := at_.threads.map fun t => t.markEmpty 6 } =
    some (0x03, 0x18000) := by decide +kernel
theorem test_misaligned : trapped (.st (fm .i32 7 2 0 2)) (at_ [(2, 0x1000)]) = some (0x0A, 0x18000) := by decide +kernel
theorem test_store_in_pond : (match exec (.st (fm .i32 7 2 0 4)) (near (at_ [(2, 0x1000), (7, 0x01020304)])) with
    | .next t => t.view.map fun v => v.l.stores.map fun st => (st.place, st.bytes)
    | _ => none) = some [(.dev 0x1004, [0x04, 0x03, 0x02, 0x01])] := by decide +kernel
-- R284, R285: an address that no leaf maps: the access waits for the walk, and takes its failure
theorem test_no_translation : (let s := at_ [(2, 0x40000000)]
    trapped (.st (fm .i32 7 2 0)) s = some (0, 0) ∧
    (match exec (.st (fm .i32 7 2 0)) s with
      | .next t => (match exec (.pageWalkComplete 0 0 0x4000) t with
        | .next u => trapped (.st (fm .i32 7 2 0)) u
        | _ => none)
      | _ => none) = some (0x0C, 0x18000)) := by decide +kernel

-- R263, R262: one arrival of two, and the flip at the second, with the phase bit in bit 31
def barrier (arr : Nat) : State := (at_.scrWr placedGid 0x40 4 (barWord false false 2 arr))
theorem test_barrier_arrival : ((barrier 0).arriveAt placedGid 0x40 1 0 true).scrRd placedGid 0x40 4 = 2 ^ 14 * 2 + 1 := by decide +kernel
theorem test_barrier_flip : ((barrier 1).arriveAt placedGid 0x40 1 0 true).scrRd placedGid 0x40 4 = 2 ^ 31 + 2 ^ 14 * 2 := by decide +kernel

-- R181: the scan of 1, 2, none, 4 and its sum
def four : List Peer := [(0, 1), (1, 2), (3, 4)].map fun x =>
  { v := { p := placedPort, b := default, tr := default, l := { Lane.fresh placedThread x.1 with no := x.1 }, t := { placedThread with r := x.1 } },
    i := .scan (fx .i32 5 6 0 4), vals := [x.2] }
theorem test_scan_table : (scanTree (redStep (fx .i32 5 6 0 4)) 7 1 (segVals four (four.headD default) 4 fun q => q.vals.getD 0 0)).map
    (·.map (·.bits)) = [some 1, some 3, some 3, some 7] := by decide +kernel

-- R378: the CRC-32C of the nine digits, the polynomial's well-known check value, and of nothing
theorem test_crc32c : crc32c [0x31, 0x32, 0x33, 0x34, 0x35, 0x36, 0x37, 0x38, 0x39] = 0xE3069283 := by decide +kernel

-- R131, R198: the step of a placed instruction, and the traps of TRET outside trap handling
theorem test_step_runs_placed_word : (match step (State.reset.withFetchWord 64 0x3E7000014000002A) with
    | .next t => (t.bundle? placedPort).bind fun b => (b.lane? 0).map fun l => (laneReg l placedThread 5).toNat
    | _ => none) = some 42 := by decide +kernel
theorem test_tret_outside_handling : trapped (.tretRe (fs 0 0 0 0)) at_ = some (0x21, 0x18000) := by decide +kernel

/-! Witnesses: concrete states and operands that meet the hypotheses of the statements -/

/-- Whether the lane that a state has chosen may run an instruction (`State.Ready`). -/
def ready (i : Instr) (s : State) : Bool :=
  match s.view with
  | some v => wfBool i && (outOfRange i v.t).isNone && (srcsOf i).all v.srcReady && !(regsRead v.l (srcsOf i)).any v.t.badRegs.contains
  | none => false

theorem ready_meets {i : Instr} {s : State} (h : ready i s = true) : ∃ v, s.Ready v i := by
  unfold ready at h
  cases hv : s.view with
  | none => simp [hv] at h
  | some v =>
    simp only [hv, Bool.and_eq_true, Option.isNone_iff_eq_none, Bool.not_eq_true'] at h
    exact ⟨v, hv, h.1.1.1, h.1.1.2, h.1.2, h.2⟩

/-- Whether the lane may run it, with operands that have a property. -/
def meets (i : Instr) (s : State) (P : (Nat → Nat) → Bool) : Bool :=
  ready i s && (match s.view with
    | some v => P (s.num v i)
    | none => false)

theorem witness_IntegerArithmetic : ([.iadd (fa .i8 0 5 6), .iadd { fa .i64 8 382 12 with us := 1 }, .iaddImm (fi .n32 1016 5 0xFFFFF),
    .isub (fa .n64 8 10 1022), .imul (fa .n16 7 5 6), .imulImm (fi .i16 20 21 11), .ineg (fa .i64 8 10), .imulh (fa .i64 8 10 12),
    .imad (fa .i16 7 5 6 9), .imadw (fa .n32 20 5 6 22)].all fun i => ready i at_) = true := by decide +kernel
theorem witness_Division : ([.idiv (fa .i32 7 5 6), .irem (fa .n8 7 5 6)].all fun i => ready i at_) = true := by decide +kernel
theorem witness_MagnitudeAndSaturation : ([.iabs (fa .i32 7 5), .imin (fa .i32 30 31 4), .iminImm (fi .i8 5 6 0x7F), .imax (fa .n32 7 5 6),
    .imaxImm (fi .n32 5 5 0xFFFFF), .iadds (fa .i16 20 21 22), .isubs (fa .n16 20 21 22)].all fun i => ready i at_) = true := by decide +kernel
theorem witness_LogicAndShifts : ([.and (fa .b32 7 5 6), .or (fa .n64 8 10 12), .xor (fa .i8 7 5 6), .andn (fa .b32 9 9 10), .andImm (fi .b32 5 6 1),
    .orImm (fi .n64 6 8 1), .xorImm (fi .i16 5 6 0x8000), .lsl (fa .n64 20 22 5), .lslImm (fi .i64 6 8 64), .lsr (fa .i8 7 5 6), .lsrImm (fi .b32 5 6 31),
    .asr (fa .i64 20 22 7), .asrImm (fi .i64 20 22 70), .rot (fa .b32 7 5 6), .rotImm (fi .n8 5 6 9)].all fun i => ready i at_) = true := by decide +kernel
theorem witness_FieldsAndCounts : ([.bfx (fa .i32 7 5 6), .bfxImm (fi .i32 5 6 0x7F7F), .bfi (fa .n64 8 10 12 5), .popc (fa .n64 7 22), .clz (fa .n64 30 22),
    .ctz (fa .i16 7 5), .brev (fa .i8 7 5)].all fun i => ready i at_) = true := by decide +kernel
theorem witness_SelectAndMove : ([.icmp (fa .n32 7 5 6 5), .icmpImm (fi .i32 5 6 0x2FFFF), .sel (fa .i64 8 10 12 5), .mov (fa .q128 8 12), .movi (fi .n64 1018 0 1),
    .movh (fi .b32 5 5 0xABCDE), .lea (fa .n32 8 10 5 6), .leaImm (fi .n64 40 2 0x30)].all fun i => ready i at_) = true ∧
    (fa .n32 7 5 6 5).c.toNat = Cond.ge.code ∧ ((fi .i32 5 6 0x2FFFF).imm.extractLsb' 16 4).toNat = Cond.lt.code := by decide +kernel

/-! Values of binary32: 1, −1, 1/2, 4, +0, −0, +∞, −∞, a quiet and a signalling NaN -/
def f32s : List Nat := [0x3F800000, 0xBF800000, 0x3F000000, 0x40800000, 0, 0x80000000, 0x7F800000, 0xFF800000, 0x7FC00000, 0x7F800001]
theorem one_decodes : fdec .f32 0x3F800000 = .fin false 8388608 (-23) := by decide +kernel
theorem minus_one_decodes : fdec .f32 0xBF800000 = .fin true 8388608 (-23) := by decide +kernel
theorem four_decodes : fdec .f32 0x40800000 = .fin false 8388608 (-21) := by decide +kernel
theorem one_is_one : (FV.fin false 8388608 (-23)).rat = 1 := by norm_num [FV.rat]
theorem minus_one_is : (FV.fin true 8388608 (-23)).rat = -1 := by norm_num [FV.rat]
theorem four_is_four : (FV.fin false 8388608 (-21)).rat = 4 := by norm_num [FV.rat]

/-- An instruction of binary32 over registers 5, 6 and 9. -/
def on3 (i : Instr) (x y z : Nat) (P : FV → FV → FV → Bool) : Bool :=
  meets i (at_ [(5, x), (6, y), (9, z)]) fun o => P (fdec .f32 (o 0)) (fdec .f32 (o 1)) (fdec .f32 (o 2))

/-- Each class of operands that the statement of a sum, a product and a fused sum distinguishes. -/
theorem witness_FloatArithmetic :
    (∀ i ∈ [Instr.fadd (fa .f32 7 5 6), .fsub (fa .f32 7 5 6 0 .rdn), .fmul (fa .f32 7 5 6), .fma (fa .f32 7 5 6 9), .fnma (fa .f32 7 5 6 9)],
      on3 i 0x7FC00000 0 0 (fun a _ _ => a.isNan) = true ∧ on3 i 0x3F800000 0xBF800000 0x3F800000 (fun a b _ => a.isFin && b.isFin) = true ∧
      on3 i 0x7F800000 0xFF800000 0 (fun a b _ => a.isInf && b.isInf) = true ∧ on3 i 0x7F800000 0 0 (fun a b _ => a.isInf && b.isZero) = true ∧
      on3 i 0 0xFF800000 0 (fun a b _ => a.isFin && b.isInf && a.isZero) = true ∧
      on3 i 0x7F800000 0x3F800000 0x7F800000 (fun a b _ => a.isInf && b.isFin && !b.isZero) = true) ∧
    on3 (.fma (fa .f32 7 5 6 9)) 0x3F800000 0x3F800000 0xFF800000 (fun a b c => a.isFin && b.isFin && c.isInf) = true ∧
    on3 (.fma (fa .f32 7 5 6 9)) 0x7F800000 0 0x3F800000 (fun a b c => !c.isNan && a.isInf && b.isZero) = true := by decide +kernel

/-- 1 + 1, 1 + (−1), 1 × 1 and 1 × 1 + (−1): sums that are and are not zero. -/
theorem witness_FloatArithmetic_values :
    (fdec .f32 0x3F800000).rat + (fdec .f32 0x3F800000).rat ≠ 0 ∧ (fdec .f32 0x3F800000).rat + (fdec .f32 0xBF800000).rat = 0 ∧
    (fdec .f32 0x3F800000).rat * (fdec .f32 0x3F800000).rat ≠ 0 ∧ (fdec .f32 0x3F800000).rat * (fdec .f32 0x3F800000).rat + (fdec .f32 0xBF800000).rat = 0 ∧
    (⟨false, 2, 1⟩ : Ex).den = 1 ∧ (⟨false, 2, 1⟩ : Ex).rat = (fdec .f32 0x3F800000).rat + (fdec .f32 0x3F800000).rat := by
  rw [one_decodes, minus_one_decodes, one_is_one, minus_one_is]; norm_num [Ex.rat, Ex.int]

/-- One third, rounded: no overflow; and a finite value of the format beside it. -/
theorem witness_RoundingIsCorrect : ∀ rm ∈ [Rm.rne, .rtz, .rup, .rdn, .rna, .rod], Ty.f32.isFloat = true ∧ 0 < (⟨false, 1, 3⟩ : Ex).den ∧ 0 < (⟨false, 1, 3⟩ : Ex).num ∧
    (roundTo .f32 rm ⟨false, 1, 3⟩).2 &&& flOF = 0 ∧ (fdec .f32 0x3F800000).isFin = true := by decide +kernel

/-- A tie between two values of binary16, 1 and the next above. -/
theorem witness_RoundingIsCorrect_tie : (roundTo .f16 .rne ⟨false, 2049, 2048⟩).2 &&& flOF = 0 ∧ (fdec .f16 0x3C00).isFin = true ∧ (fdec .f16 0x3C01).isFin = true := by
  decide +kernel

/-- 2^128 overflows binary32, 2^−150 is inexact and below the smallest normal, and 1 is neither. -/
theorem witness_RoundingEdges : ∀ rm ∈ [Rm.rne, .rtz, .rup, .rdn, .rna, .rod], (roundTo .f32 rm ⟨false, 2 ^ 128, 1⟩).2 &&& flOF ≠ 0 ∧
    (roundTo .f32 rm ⟨true, 2 ^ 128, 1⟩).2 &&& flOF ≠ 0 ∧ (roundTo .f32 rm ⟨false, 1, 2 ^ 150⟩).2 &&& flUF ≠ 0 ∧ (roundTo .f32 rm ⟨false, 1, 1⟩).2 = 0 := by decide +kernel

theorem witness_DivisionAndRoots :
    (let q := Instr.fdiv (fa .f32 7 5 6)
     on3 q 0x7FC00000 0 0 (fun a _ _ => a.isNan) = true ∧ on3 q 0 0x80000000 0 (fun a b _ => a.isZero && b.isZero && b.isFin) = true ∧
     on3 q 0x3F800000 0x80000000 0 (fun a b _ => a.isFin && !a.isZero && b.isZero) = true ∧
     on3 q 0x7F800000 0x3F800000 0 (fun a b _ => a.isInf && b.isFin) = true ∧ on3 q 0x3F800000 0x7F800000 0 (fun a b _ => a.isFin && b.isInf) = true ∧
     on3 q 0 0x3F800000 0 (fun a b _ => a.isZero && b.isFin && !b.isZero) = true ∧
     on3 q 0x3F800000 0xBF800000 0 (fun a b _ => a.isFin && b.isFin && !a.isZero && !b.isZero) = true) ∧
    ∀ i ∈ [Instr.fsqrt (fa .f32 7 5), .frcp (fa .f32 7 5), .frsq (fa .f32 7 5)],
      on3 i 0x7F800001 0 0 (fun a _ _ => a.isNan) = true ∧ on3 i 0xBF800000 0 0 (fun a _ _ => !a.isNan && a.neg && !a.isZero && a.isFin) = true ∧
      on3 i 0x80000000 0 0 (fun a _ _ => a.isZero) = true ∧ on3 i 0x7F800000 0 0 (fun a _ _ => a.isInf && !a.neg) = true ∧
      on3 i 0x40800000 0 0 (fun a _ _ => a.isFin && !a.neg && !a.isZero) = true := by decide +kernel

/-- 4 is a power of 2 and of 4; 4 = 2^2, so its reciprocal lies between 2^−2 and 2^−1. -/
theorem witness_DivisionAndRoots_values : |(fdec .f32 0x40800000).rat| = 2 ^ (2 : Int) ∧ (fdec .f32 0x40800000).rat = 2 ^ (2 * (1 : Int)) ∧
    (2 : Rat) ^ (-2 : Int) ≤ |1 / (fdec .f32 0x40800000).rat| ∧ |1 / (fdec .f32 0x40800000).rat| < 2 ^ ((-2 : Int) + 1) := by
  rw [four_decodes, four_is_four]; norm_num

/-- 3 is no power of 4. -/
theorem witness_DivisionAndRoots_inexact : ∀ k : Int, (3 : Rat) ≠ 2 ^ (2 * k) := by
  intro k h
  rcases le_or_gt k 0 with hk | hk
  · have : (2 : Rat) ^ (2 * k) ≤ 2 ^ (0 : Int) := zpow_le_zpow_right₀ (by norm_num) (by omega)
    rw [← h] at this; norm_num at this
  · have : (2 : Rat) ^ (2 : Int) ≤ 2 ^ (2 * k) := zpow_le_zpow_right₀ (by norm_num) (by omega)
    rw [← h] at this; norm_num at this

theorem witness_FunctionsSpecialArguments :
    ∀ i ∈ [Instr.fexp (fa .f32 7 5), .fexp2 (fa .f32 7 5), .flog (fa .f32 7 5), .flog2 (fa .f32 7 5), .fsin (fa .f32 7 5), .fcos (fa .f32 7 5),
        .ftanh (fa .f32 7 5), .fsigm (fa .f32 7 5), .ferf (fa .f32 7 5)],
      on3 i 0x7F800001 0 0 (fun a _ _ => a.isNan) = true ∧ on3 i 0x80000000 0 0 (fun a _ _ => a.isZero) = true ∧
      on3 i 0xFF800000 0 0 (fun a _ _ => a.isInf) = true ∧ on3 i 0xBF800000 0 0 (fun a _ _ => a.isFin && !a.isZero && a.neg) = true ∧
      on3 i 0x40800000 0 0 (fun a _ _ => a.isFin && !a.isZero && !a.neg) = true := by decide +kernel

/-- The exact points: ln 1, log₂ 4 and 2^4. -/
theorem witness_FunctionsSpecialArguments_exact : (fdec .f32 0x3F800000).rat = 1 ∧ (∃ k : Int, (fdec .f32 0x40800000).rat = 2 ^ k) ∧
    ∃ k : Int, (fdec .f32 0x40800000).rat = k ∧ fmin2 .f32 ≤ k ∧ k ≤ fbias .f32 := by
  rw [one_decodes, four_decodes, one_is_one, four_is_four]
  exact ⟨rfl, ⟨2, by norm_num⟩, 4, by norm_num, by decide, by decide⟩

theorem witness_RoundingToOtherForms :
    (∀ i ∈ [Instr.frnd (fa .f32 7 5 0 0 .rod), .cvt (fa .f64 8 5 0 11), .cvt (fa .i16 7 5 0 11 .rtz)],
      on3 i 0x7FC00000 0 0 (fun a _ _ => a.isNan) = true ∧ on3 i 0x7F800000 0 0 (fun a _ _ => a.isInf) = true ∧
      on3 i 0x80000000 0 0 (fun a _ _ => a.isZero) = true ∧ on3 i 0x40800000 0 0 (fun a _ _ => a.isFin && !a.isZero) = true) ∧
    (fa .f64 8 5 0 11).c.toNat = Ty.f32.code ∧ (fa .f32 7 5 0 3).c.toNat = Ty.i32.code ∧
    (∀ x ∈ [0, 7], meets (.cvt (fa .f32 7 5 0 3)) (at_ [(5, x)]) (fun o => o 0 == x) = true) := by decide +kernel

/-- KDX with each kind of code and with an absent scale; KDQ over a NaN, an infinity, a value past the range, zero and one. -/
theorem witness_Kd8Codes : (∀ c ∈ [0, 0x01, 0x81, 0x80, 0x40], meets (.kdx (fa .f32 8 5 6 0 .rod)) (at_ [(5, c)]) (fun o => o 0 % 256 == c) = true) ∧
    meets (.kdx (fa .f32 8 5 6)) (at_ [(6, 0x80)]) (fun o => (BitVec.ofNat 8 (o 1)).toInt == -128) = true ∧
    meets (.kdq (fa .f32 20 32 36 37)) (at_ [(32, 0x7FC00000), (33, 0xFF800000), (34, 0x7F000000), (35, 0x3F800000), (36, 0x7F800000)]) (fun o =>
      (fdec .f32 (o 0)).isNan && (fdec .f32 (o 0 / 2 ^ 32)).isInf && (fdec .f32 (o 0 / 2 ^ 64)).isFin && (fdec .f32 (o 1)).isInf) = true := by decide +kernel

theorem witness_FloatOrderAndSign : ([.fmin (fa .f32 7 5 6), .fmax (fa .f16 20 21 7), .fabs (fa .f64 8 10), .fneg (fa .bf16 7 5), .fcps (fa .f64 40 42 44),
    .fcmp (fa .f32 20 21 22 2), .fcls (fa .f64 20 22), .flgr (fa .b32 7 0), .flgc (fi .b32 5 0 0x1F)].all fun i => ready i at_) = true ∧
    (fa .f32 20 21 22 2).c.toNat = Cond.lt.code := by decide +kernel

theorem witness_ResidueArithmetic : ([.qadd (fa .q128 8 12 16), .qsub (fa .q128 8 12 16), .qmul (fa .q128 20 1020 1016), .qneg (fa .q128 8 12),
    .qeq (fa .q128 9 12 16)].all fun i => ready i at_) = true := by decide +kernel

/-- Modulo 343 = 7^3: 5 is a unit and 49 is none, as divisor of each of the three. -/
theorem witness_UnitDivision : pselOk seven = true ∧ pselP seven = 7 ∧
    (∀ x ∈ [(5, 1), (49, 7)],
      meets (.qinv (fa .q128 20 24)) (at_ [(24, x.1)] seven) (fun o => Nat.gcd (o 0) 7 == x.2) = true ∧
      meets (.qdiv (fa .q128 20 24 28)) (at_ [(28, x.1)] seven) (fun o => Nat.gcd (o 1) 7 == x.2) = true ∧
      meets (.qenc (fa .q128 20 24 28)) (at_ [(24, 3), (28, x.1)] seven) (fun o => Nat.gcd (o 1) 7 == x.2) = true) := by decide +kernel

/-- 229 stands for 1/3 (13 is the bound), and 160 for no fraction: no denominator up to the bound gives a numerator within it. -/
theorem witness_FractionDecode : meets (.qdec (fa .q128 20 24)) (at_ [(24, 229)] seven) (fun o => o 0 == 229) = true ∧ Nat.sqrt ((343 - 1) / 2) = 13 ∧
    ((3 : Int) * 229 - 1) % 343 = 0 ∧ meets (.qdec (fa .q128 20 24)) (at_ [(24, 160)] seven) (fun o => o 0 == 160) = true ∧
    (∀ den : Fin 14, ∀ num : Fin 27, den.val = 0 ∨ ((den.val : Int) * 160 - ((num.val : Int) - 13)) % 343 ≠ 0 ∨ Nat.gcd ((num.val : Int) - 13).natAbs den.val ≠ 1) := by
  decide +kernel

theorem witness_Guarding : ([.gcmp (fg .f64 10 12 .ge), .gcmpImm (fg .f32 3 100 .lt), .gz (fg .b32 1016 0), .gnz (fg .f16 5 0), .grng (fg .i32 5 8), .grng (fg .f64 8 12),
    .gflg (fg .b32 0 5), .gflgImm (fg .b32 0 0x1F), .gfull (fg .b32 9 0)].all fun i => ready i at_) = true ∧
    (match at_.view with
      | some v => v.l.flumes == [] && (at_.core v.p.core).trace == none
      | none => false) = true := by decide +kernel

/-- A quad of temporaries at the end of its class, four registers at the end of theirs, and v0; each type's largest value. -/
theorem witness_ResultsLand : (∀ x ∈ [(1020, 4), (1012, 4), (0, 1)], sWf (placedThread.regs) = true ∧ (1016 ≤ x.1 → x.1 + x.2 ≤ 1024) ∧
    (x.1 ≤ 1015 → x.1 + x.2 ≤ 1016)) ∧ (∀ t ∈ [Ty.b32, .i8, .i16, .n8, .n64, .q128], 2 ^ t.width - 1 < 2 ^ t.width) := by decide +kernel

/-- A lane at whose thread register 6 is empty, without and with a fill pending; one without a home group; a thread of 64 registers. -/
def emptied (fill : Bool) : State := { at_ with threads := at_.threads.map fun t => if fill then t.markFill 6 else t.markEmpty 6 }
def homeless : State := { at_ with threads := at_.threads.map fun t => { t with m0 := none } }
def small : State := { at_ with threads := at_.threads.map fun t => { t with limit := 64 } }
def probing : State := { at_ with threads := at_.threads.map fun t => { t with tstat := 0x8000 } }
def viewOk (s : State) (P : View → Bool) : Bool :=
  match s.view with
  | some v => P v
  | none => false
theorem witness_SourcesAndFields :
    (∀ f ∈ [false, true], viewOk (emptied f) (fun v => v.t.isEmpty 6 && v.t.fills.contains 6 == f && v.l.res.isEmpty && v.l.posted.isEmpty) = true) ∧
    (srcsOf (.ineg (fa .i32 7 6)) = [⟨6, 1, false, false, 0⟩] ∧ srcsOf (.ineg { fa .i32 7 6 with feA := true }) = [⟨6, 1, true, false, 0⟩]) ∧
    srcsOf (.ineg { fa .i32 7 6 with us := 1 }) = [⟨6, 1, false, true, 0⟩] ∧ wfBool (.ineg { fa .i32 7 6 with us := 1 }) = true ∧
    wfBool (.ineg { fa .i32 7 6 with feA := true }) = true ∧ viewOk homeless (fun v => v.t.m0.isNone) = true ∧
    (∀ s ∈ [at_, probing], viewOk s (fun v => !wfBool (.ineg (fa .i32 7 6 1)) && v.t.pen == (s == probing)) = true) ∧
    viewOk small (fun v => outOfRange (.ineg (fa .i32 7 65)) v.t == some (65, 0)) = true := by decide +kernel
theorem witness_ThreadControl : ([.nop (fs 0 0 0 0), .trap (fs 0 0 0 0 0x12345), .csrr (fs 0x000 0 5 0), .csrr (fs 0x001 0 5 0), .csrr (fs 0x002 0 5 0), .csrr (fs 0x003 0 6 0),
    .csrr (fs 0x100 0 5 0), .csrr (fs 0x101 0 5 0), .csrr (fs 0x102 0 5 0), .csrr (fs 0x200 0 6 0), .csrw (fs 0x003 0 0 8), .csrw (fs 0x002 0 0 5),
    .csrwImm (fs 0x002 1 0 0 0x8000), .chkerr (fs 0 0 5 0), .chkerrAbort (fs 0 1 5 0), .prog (fs 0 0 0 0 15), .yield (fs 0 0 0 0), .tretRe (fs 0 0 0 0),
    .tretSkip (fs 0 1 0 0)].all fun i => ready i at_) = true ∧
    viewOk at_ (fun v => (at_.ctx? v.t.ctx).isSome && (at_.run? v.t.run).isSome && v.t.trap.isNone) = true := by decide +kernel

/-- A thread in trap handling. -/
def trapState : TrapState := { kind := .slot, pc := 0x100, pos := 0, cnt := none, succ := some ⟨0x100, 0, 0x120⟩, resume := .at_ 0x120, holds := ⟨false, false, false⟩, waits := [], ending := none }
def handling : State := { at_ with threads := at_.threads.map fun t => { t with trap := some trapState } }
theorem witness_ThreadControl_handling : ready (.tretRe (fs 0 0 0 0)) handling = true ∧ ready (.tretSkip (fs 0 1 0 0)) handling = true ∧
    viewOk handling (fun v => v.t.trap.isSome) = true := by decide +kernel

/-- WAITF over v5 to v7: all full, v6 empty with nothing to fill it, every one empty with a fill pending. -/
def allFilling : State := { at_ with threads := at_.threads.map fun t => ((t.markFill 5).markFill 6).markFill 7 }
theorem witness_FillVoidAndWait : (∀ i ∈ [Instr.fill (fs 0 0 1015 0), .void (fs 0 0 1 0), .waitf (fs 0 0 5 0 3)], ready i at_ = true) ∧
    viewOk at_ (fun v => [5, 6, 7].all fun c => !v.t.isEmpty c) = true ∧ ready (.waitf (fs 0 0 5 0 3)) (emptied false) = true ∧
    viewOk (emptied false) (fun v => [5, 6, 7].find? (fun c => v.t.isEmpty c && !v.t.fills.contains c) == some 6) = true ∧
    ready (.waitf (fs 0 0 5 0 3)) allFilling = true ∧ viewOk allFilling (fun v => [5, 6, 7].all fun c => v.t.isEmpty c && v.t.fills.contains c) = true := by decide +kernel

/-- What the checks of an access by the lane's thread find first: a value over the end of a window, one outside the space, one misaligned, one
past the scratch of its group, and none; each at the first address that meets it. -/
theorem witness_AccessRules :
    (let c := fun (sp : Space) (va size n : Nat) (k : Nat) =>
      viewOk at_ fun v =>
        let vs := (List.range n).map (va + · * size)
        let c1 := (vs.find? fun x => !inWindows v.t x size).isSome
        let c2 := (vs.find? fun x => !inSpace sp x size).isSome
        let c4 := (vs.find? fun x => (at_.scratchBreach v.t x size).isSome).isSome
        [c1, !c1 && c2, !c1 && !c2 && va % size != 0, !c1 && !c2 && va % size == 0 && c4, !c1 && !c2 && va % size == 0 && !c4].getD k false
     c .generic (privateBase + 65536 - 4) 8 1 0 = true ∧ c .global (2 ^ 56 - 4) 8 1 1 = true ∧ c .scratch 0x1000 4 1 1 = true ∧ c .generic 0x1002 4 1 2 = true ∧ c .generic (scratchBase + 65532) 4 2 3 = true ∧
     c .generic (scratchBase + 65532) 4 1 4 = true) := by decide +kernel

/-- The outcome of the checks of an access. -/
def isFault (x : State × Chk) : Bool :=
  match x.2 with
  | .fault _ _ _ => true
  | _ => false
def isOk (x : State × Chk) : Bool :=
  match x.2 with
  | .ok ps => !ps.isEmpty
  | _ => false

def allAtomics (f : FM) (g : FM) : List Instr :=
  [.atomAdd f, .atomSub f, .atomMin f, .atomMax f, .atomAnd f, .atomOr f, .atomXor f, .atomExch f, .atomCas f, .atomFadd g, .atomFmin g, .atomFmax g]
/-- A plain and an acquire access, at address 0x1002 and at 0x1000 of device memory (R118). -/
def acquire : FM := { fm .i32 7 2 0 with pre := some ⟨.acq, .dev, .generic, .dflt, .dflt⟩ }
theorem witness_AccessRules_faults : (let s := at_ [(2, 0x1002)]
    ready (.st (fm .i32 7 2 0)) s = true ∧ ready (.ld acquire) s = true ∧ ready (.waitv (fm .i32 6 2 0 0 3)) s = true ∧
    (allAtomics (fm .i32 7 2 6) (fm .f32 7 2 6)).all (fun i => ready i s) = true ∧
    viewOk s (fun v => (s.attrs v.t acquire.pre ordLd).ord != .plain && isFault (s.checkAccess v.t .generic 0x1002 4 1 true) &&
      isFault (s.checkAccess v.t .generic 0x1002 4 1 false)) = true) := by decide +kernel
theorem witness_StoreInSlot : (let s := near (at_ [(2, 0x1000)])
    ready (.st (fm .i32 8 2 0 0 2)) s = true ∧
    viewOk s (fun v => addrOf s v (.st (fm .i32 8 2 0 0 2)) (fm .i32 8 2 0 0 2) == 0x1000 &&
      isOk (s.checkAccess v.t (s.attrs v.t none ordSt).space 0x1000 4 4 true) && (s.checkAccess v.t .generic 0x1000 4 4 true).1.raceMode v.t.ctx v.t.run == 0) = true) := by
  decide +kernel

/-- The same state with the page in the core's TLB: the translation is at hand. -/
def cachedAt : State := near (at_ [(2, 0x1000)])
theorem witness_Loads : (∀ d ∈ [(1 : RegCode), 1012, 1020], ready (.ld (fm .i32 d 2 0 0 2)) cachedAt = true) ∧
    viewOk cachedAt (fun v => v.l.stores.isEmpty && v.l.posted.isEmpty && (cachedAt.outstanding v.t.r).isEmpty &&
      (cachedAt.attrs v.t none ordLd).ord == .plain && isOk (cachedAt.checkAccess v.t .generic 0x1000 4 4 false (loadWho cachedAt.seq)) && cachedAt.raceMode v.t.ctx v.t.run == 0 &&
      (cachedAt.checkAccess v.t .generic 0x1000 4 4 false (loadWho cachedAt.seq)).1.raceMode v.t.ctx v.t.run == 0 && sWf v.l.temps &&
      !(cachedAt.viewValues v.t [] 4 [.dev 0x1000]).2) = true ∧
    viewOk (at_ [(2, 0x1000)]) (fun v => match ((at_ [(2, 0x1000)]).checkAccess v.t .generic 0x1000 4 4 false (loadWho at_.seq)).2 with
      | .wait => true
      | _ => false) = true := by decide +kernel

/-- The page's walk has found no mapping. -/
def unmapped : State := { at_ [(2, 0x1000)] with diesS := [{ id := 0, bad := [(0, 0, loadWho at_.seq)] }] }
theorem witness_Loads_unmapped : ready (.ld (fm .i32 7 2 0 0 2)) unmapped = true ∧
    viewOk unmapped (fun v => match (unmapped.checkAccess v.t .generic 0x1000 4 4 false (loadWho unmapped.seq)).2 with
      | .fault c _ _ => c == 0x0C && (unmapped.attrs v.t none ordLd).ord == .plain
      | _ => false) = true := by decide +kernel
/-- Such a load is posted and its fault left to its log entry (R119, R287). -/
theorem test_posted_fault : (match exec (.ld (fm .i32 7 2 0)) unmapped with
    | .next t => t.view.map fun v => (v.l.posted.map (·.fault), v.t.trap.isNone)
    | _ => none) = some ([some (0x0C, 1, 0x1000)], true) := by decide +kernel

/-- A store of four bytes at 0x1000. -/
def aStore : Store := { r := 0, gen := 1, ctx := 0, run := 0, slotNo := 1, place := .dev 0x1000, va := 0x1000, bytes := [1, 2, 3, 4], ord := .plain, scope := .dev,
                        mem := false, checked := false, kclk := 0, home := 0, rel := false, gone := none }
/-- It is nowhere, queued, drained, or in the pond: the four sources of a load's byte. -/
theorem witness_Loads_newest : viewOk at_ (fun v => (newestByte [] (.dev 0x1003)).isNone && (newestByte (at_.queued v.t.r v.t.gen) (.dev 0x1003)).isNone &&
      (newestByte (at_.drained (coreOfSlot v.t.r)) (.dev 0x1003)).isNone) = true ∧
    (let s : State := { at_ with blocks := [{ core := 0, part := 0, r := 0, stores := [aStore] }] }
     viewOk s (fun v => newestByte (s.queued v.t.r v.t.gen) (.dev 0x1003) == some 4) = true) ∧
    (let s : State := { at_ with out := [{ core := 0, blk := 0, st := aStore }] }
     viewOk s (fun v => (newestByte (s.queued v.t.r v.t.gen) (.dev 0x1003)).isNone && newestByte (s.drained (coreOfSlot v.t.r)) (.dev 0x1003) == some 4) = true) ∧
    3 < aStore.bytes.length := by decide +kernel

/-- Base registers that hold an address of the host window, whose first page the host presents and the core has cached. -/
def hosted : State := { at_ [(2, 0x00000000), (3, 0x01800000)] with
  hostPages := [{ vf := 0, page := 0, writable := true }], cores := [{ id := 0, tlb := [{ ctx := 0, page := hostBase, size := 4096, leaf := 0x100 }] }] }
theorem witness_AtomicsInSlot : (allAtomics (fm .i32 7 2 6) (fm .f32 7 2 6)).all (fun i => ready i (at_ [(2, 0x1000)])) = true ∧
    (let s := near (at_ [(2, 0x1000)])
     viewOk s (fun v => isOk (s.checkAccess v.t .generic 0x1000 4 1 true) && (s.checkAccess v.t .generic 0x1000 4 1 true).1.raceMode v.t.ctx v.t.run == 0) = true) ∧
    (allAtomics (fm .i32 7 2 6) (fm .f32 7 2 6)).all (fun i => ready i hosted) = true ∧
    viewOk hosted (fun v => match hosted.checkAccess v.t .generic hostBase 4 1 true with
      | (_, .ok [(.host _ _, _)]) => true
      | _ => false) = true := by decide +kernel

theorem witness_MemoryControl : (let s := near (at_ [(2, 0x1000), (5, 0x100), (6, 0x40), (20, 0x1000)])
    ([.pref (fm .b32 0 2 5 64), .ptog (fm .n64 6 2 0), .fence (fm .b32 0 0 0), .waitv (fm .i32 6 2 0 0 3), .launch (fs 0 0 5 20 7), .ldx (fx .b32 0 2 5 6 0)].all
      fun i => ready i s) = true ∧
    viewOk s (fun v => isOk (s.checkAccess v.t .generic 0x1000 4 1 false) && isOk (s.checkAccess v.t .generic 0x1000 8 1 false) && inWindows v.t 0x1000 4 && inSpace (s.attrs v.t none ordPlain).space 0x1000 4 && windowOf 0x1003 != some .scratch &&
      v.t.m0.isSome && (match s.group? v.t.homeGid, s.placesOf v.t false [0x1000] with
        | some g, (_, .ok _) => decide (0x104 ≤ g.alloc)
        | _, _ => false) && s.raceMode v.t.ctx v.t.run == 0) = true) ∧
    ready (.publish (fm .n64 6 2 0)) hosted = true ∧ windowOf hostBase = some .host ∧ windowOf (hostBase + 7) = some .host ∧
    viewOk hosted (fun v => match hosted.placeOf v.t hostBase true with
      | (_, .ok (.host _ _) _) => true
      | _ => false) = true := by decide +kernel
/-- PUBLISH to scratch, to private and to device memory: the last byte pairs that its checks let through (R176). -/
theorem witness_MemoryControl_publish : (∀ a ∈ [(2, 0x1000), (2, 8), (2, 0xFF8)], ready (.publish (fm .n64 6 2 0)) (near (at_ [a])) = true) ∧
    viewOk (near (at_ [(2, 0x1000)])) (fun v => [scratchBase, privateBase + 8, 0x1000].all (fun a => inWindows v.t a 8 && a % 8 == 0) &&
      windowOf scratchBase == some .scratch && windowOf (privateBase + 8) == some .own && windowOf 0x1000 == some .global &&
      match (near (at_ [(2, 0x1000)])).placeOf v.t 0x1000 true with
      | (_, .ok (.dev _) _) => true
      | _ => false) = true := by decide +kernel

/-- One lane forms the operation alone. -/
def formed (i : Instr) (s : State) : Bool := viewOk s fun v => match s.readPeers (s.crossPeers v i) with
  | (_, some ps) => !ps.isEmpty && ps.all (fun p => decide (p.v.l.no < 64)) && decide ((ps.map (·.v.l.no)).Nodup)
  | _ => false
theorem witness_ShuffleAndVote : ([.shfl (fx .f64 6 8 5 7 0), .shfl (fx .i32 5 6 7 0 1), .shfl (fx .i32 5 6 7 3 2), .shfl (fx .i32 5 6 7 3 3), .vote (fx .n32 5 6 0 0 0),
    .vote (fx .n32 5 6 0 0 1), .vote (fx .n64 6 8 0 0 2), .vote (fx .n32 5 6 0 0 3)].all fun i => formed i at_) = true ∧ (fx .f64 6 8 5 7 0).fn.toNat = 0 := by decide +kernel
theorem witness_Reductions : ([.xred (fx .i32 5 6 0 0 0), .xred (fx .f32 5 6 0 8 0), .xred (fx .n32 5 0 0 0 11), .scan (fx .i32 5 6 0 7 1), .scan (fx .f64 6 8 0 0 10)].all
    fun i => formed i at_) = true ∧ (fx .n32 5 0 0 0 11).fn.toNat % 8 < 6 := by decide +kernel

def crowded : State := { at_ with threads := at_.threads.map fun t => { t with m1 := t.m0, m2 := t.m0, m3 := t.m0 } }
theorem witness_GroupInstructions : ([.gnew (fx .b32 5 6 7 0), .join (fx .b32 5 6 0 0), .leave (fx .b32 0 6 0 0), .gbar (fx .b32 0 0 0 0), .gbar (fx .b32 0 0 0 3),
    .grank (fx .b32 5 0 0 3), .gsize (fx .b32 5 0 0 0), .gset (fx .f64 382 8 0 0)].all fun i => ready i at_) = true ∧
    viewOk at_ (fun v => v.t.freeSlot.isSome && (v.t.mem 0).isSome && (v.t.mem 3).isNone && v.t.m0.isSome) = true ∧
    ready (.gnew (fx .b32 5 6 7 0)) crowded = true ∧ ready (.join (fx .b32 5 6 0 0)) crowded = true ∧ viewOk crowded (fun v => v.t.freeSlot.isNone) = true ∧
    ready (.gset (fx .f64 382 8 0 0)) homeless = true := by decide +kernel

/-- A lane with a hinge: of a creation with and without room in m0 to m3, of a JOIN, and of a LEAVE (R184 to R186). -/
def atHinge (h : Hinge) (s : State := at_) : State := s.modLane placedPort 0 fun l => { l with hinge := some h }
def ungrouped : State := { homeless with groups := [] }
theorem witness_GroupInstructions_gnew : (∀ s ∈ [{ at_ with groups := [] }, ungrouped], ∀ x ∈ [(0, 0), (256, 16), (4128769, 0), (0, 17)],
      viewOk (atHinge (.gnew 5 x.1 x.2) s) (fun v => (atHinge (.gnew 5 x.1 x.2) s).thread? v.t.r == some v.t && v.t.freeSlot.isSome) = true ∧
      ((x.1 ≤ 4128768 ∧ x.2 ≤ 16) → s.poolUsed 0 + scratchUnits (ceilDiv x.1 256) false + 2 * x.2 ≤ Config.poolUnits ∧ s.uniformUsed 0 < Config.uniformStore)) ∧
    viewOk ungrouped (fun v => v.t.freeSlot == some 0) = true := by decide +kernel
theorem witness_GroupInstructions_gnew_handle : ∀ gid, (atHinge (.gnew 5 256 1) ungrouped).group? gid = none := fun _ => rfl
/-- A group of the same cluster that the lane's thread is not a member of; its other member has rank 0. -/
def other : Group := { Group.fresh (gidOf 0 7) 0 0 0 4 1 0 1 false false [] with members := [(1, 0)] }
theorem witness_GroupInstructions_join :
    (let s := atHinge (.join 5 7) { at_ with groups := at_.groups ++ [other] }
     s.group? (gidOf 0 7) = some other ∧ clusterOfCore other.home = clusterOfSlot 0 ∧ viewOk s (fun v => v.t.r == 0 && v.t.freeSlot == some 1) = true ∧
     other.lowRank (fun _ => true) = some 1) ∧
    (let s := atHinge (.join 5 7) { homeless with groups := [{ other with members := [] }] }
     viewOk s (fun v => v.t.freeSlot == some 0 && s.homeRank { other with members := [] } v.t.r == some 0) = true) ∧
    (atHinge (.join 5 0)).group? (gidOf 0 0) = none := by decide +kernel
theorem witness_GroupInstructions_leave : (let s := atHinge (.leave (handleOf placedGid))
    viewOk s (fun v => (v.t.mem 0).any (fun y => y.gid == gidOf v.t.ctx (handleOf placedGid))) = true ∧ (s.group? placedGid).any (fun g => g.gbar.isNone) = true ∧
      s.groups.length = 1 ∧ s.arrivals = []) ∧
    viewOk (atHinge (.leave 7)) (fun v => [0, 1, 2, 3].all fun m => (v.t.mem m).all fun y => handleOf y.gid != 7) = true := by decide +kernel
/-- A phase that awaits threads 0 and 1, or 2 as well, of which 1 has arrived. -/
def phase (l : List Nat) : State :=
  { at_ with groups := at_.groups.map fun g => { g with gbar := some { expected := 0 :: 1 :: l, arrived := [1], held := [], waited := 0 } } }
theorem witness_GroupInstructions_gbar : (∀ l ∈ [[], [2]], ((phase l).group? placedGid).any (fun g => g.gbar.any fun ph => ph.expected.contains 0 && !ph.arrived.contains 0) = true ∧
    (phase l).threads.all (fun t => !t.setAside.contains (.gbarPhase placedGid)) = true) := by decide +kernel

/-- A format word of one column and K = 1 for MMA, and of one column for MDRN; A, B and the parameter block in scratch that holds zeros. -/
theorem witness_MatrixVotes :
    (let s := at_ [(6, 0x100), (7, 0x20800)]
     viewOk s (fun v => match s.readPeers (s.crossPeers v (.mma (fe 0 5 6 7 .f32))) with
       | (t, some [p]) => mmaWordOk .f32 (p.vals.getD 2 0) && (t.refCheck p.v p.i (p.vals.getD 0 0) 4 4).toOption.isSome &&
          (t.refCheck p.v p.i (p.vals.getD 1 0) 4 (bExtent .f32 0x20800)).toOption.isSome && accOf p.i == 0 &&
          (match p.v.t.m0.bind fun m => t.group? m.gid with
            | some g => decide (accOf p.i < g.tile)
            | none => false)
       | _ => false) = true) ∧
    (let s := at_ [(5, 0x200), (7, 0x20000)]
     viewOk s (fun v => match s.readPeers (s.drainPeers v (.mdrn (fe 0 5 0 7 .f32))) with
       | (t, some [p]) => mdrnWordOk .f32 (p.vals.getD 1 0) && p.vals.getD 0 0 / 2 ^ 30 % 4 == 0 && (t.refCheck p.v p.i (p.vals.getD 0 0) 64 64).toOption.isSome &&
          (t.drainBlockOf p.v p.i .f32 (p.vals.getD 1 0) placedGid 0x200).toOption.isSome
       | _ => false) = true) := by decide +kernel

/-- References into the group's 65,536 bytes: one that passes and one for each check. -/
theorem witness_ClusterSlots_references : viewOk at_ (fun v =>
    ((v.t.mem 3).bind fun m => at_.group? m.gid).isNone && (match (v.t.mem 0).bind fun m => at_.group? m.gid with
      | some g => (2 ^ 22 : Nat) / 2 ^ 22 % 2 ^ 8 != 0 && 8 % 16 != 0 && decide (g.alloc < 65536 + 16) && decide (65520 + 16 ≤ g.alloc)
      | none => false)) = true := by decide +kernel

/-- Scratch with a ring control block of one entry at 0, a barrier object at 0x40 and a flume of two slots at 0x60. -/
def scratched : State := ((((((at_ [(5, 0x40), (6, 0), (8, 4), (9, 0), (20, 0x60), (21, 0x200), (22, 0x10002), (30, 0)]).scrWr placedGid 8 4 0x100).scrWr placedGid 12 4 0x140).scrWr
  placedGid 16 2 1).scrWr placedGid 0x60 4 0x200).scrWr placedGid 0x64 4 16).scrWr placedGid 0x6E 2 1
theorem witness_ClusterSlots : ([.mzero (fe 0 0 0 0), .mlda (fe 0 30 0 0 .f64), .msta (fe 0 30 5 0 .f32), .cpygo (fe 0 30 6 0), .cpyw (fe 7 30 6 0), .binit (fe 0 5 6 8),
    .barv (fe 7 5 0 0), .bwait (fe 0 5 6 0), .btest (fe 7 5 6 0), .flinit (fe 0 20 21 22), .flacq (fe 7 20 0 0), .flrel (fe 0 20 6 0)].all fun i => ready i scratched) = true ∧
    viewOk scratched (fun v =>
      let ref := fun (r align extent : Nat) => (scratched.refCheck v (.mzero (fe 0 0 0 0)) r align extent).toOption == some (placedGid, r % 2 ^ 22)
      ref 0 16 32768 && ref 0 64 64 && ref 0x40 16 16 && ref 0x60 32 32 && scratched.scrRd placedGid 0x6E 2 != 0 &&
      scratched.scrView v placedGid 16 2 == 1 && scratched.scrView v placedGid 8 4 % 64 == 0 && scratched.scrView v placedGid 12 4 % 32 == 0 &&
      scratched.phaseOf placedGid 0x40 == (0 % 2 == 1) && scratched.phaseOf placedGid 0x40 != (1 % 2 == 1) && scratched.raceMode v.t.ctx v.t.run == 0) = true := by decide +kernel
/-- Offsets at both ends of their 16 bits; a word, and a P word and a memory word, that decode. -/
theorem witness_DecodeEncode : ([Instr.ld (fm .i32 8 2 0 (-32768)), .st { fm .i64 8 2 0 32767 with pre := some ⟨.rel, .sys, .hostwin, .noalloc, .exempt⟩ },
    .iadd (fa .i32 7 5 6)].all fun i => wfBool i && isSlot i && decide (-32768 ≤ offsetOf i) && decide (offsetOf i < 32768)) = true := by decide +kernel
theorem witness_EncodeDecode : (decodeWord 0x16300001C0501800).toOption.isSome = true ∧
    (match encode (.st { fm .i64 8 2 0 32767 with pre := some ⟨.rel, .sys, .hostwin, .noalloc, .exempt⟩ }) with
      | [p, w] => (decodeWords [p, w]).toOption.isSome && decide (p < 2 ^ 64 ∧ w < 2 ^ 64)
      | _ => false) = true := by decide +kernel

/-- MOVI v5, 42 where the next step issues it. -/
def placedMovi : State := State.reset.withFetchWord 64 0x3E7000014000002A
theorem witness_StepRunsTheInstruction : (placedMovi.agenda = [.port placedPort] ∧ (let s1 := { placedMovi with agenda := [] }
    s1.stage placedPort = .slot 0 ∧ (match s1.viewOf placedPort 0 with
      | some v => (s1.lanesAt placedPort v.l.at_).all (fun x => (s1.bpHit x).isNone && x.t.hold == ⟨false, false, false⟩) && v.l.at_ == 1 &&
          v.tr.stepWord v.l.at_ v.l.pass == (0x3E7000014000002A, 0, true)
      | none => false) = true ∧ opcodeOf 0x3E7000014000002A ≠ 0xE4 ∧ (decodeSlot 0x3E7000014000002A none 0).toOption.isSome = true)) := by decide +kernel
/-- An event that is next in the agenda, and one that the schedule may give at reset whatever it gives. -/
theorem witness_StepRunsTheInstruction_events : isEvent .heartbeat = true ∧ ({ State.reset with agenda := [.event .heartbeat] } : State).agenda = .event .heartbeat :: [] ∧
    State.reset.agenda = [] ∧ State.reset.waiting = [] ∧ State.reset.allowed (.event .heartbeat) = true := by decide +kernel
theorem witness_MemoryFormKept : placedMovi.mem.wf = true ∧ placedMovi.hostMem.wf = true ∧ placedMovi.peerMem.wf = true ∧ (∀ g ∈ placedMovi.groups, g.scr.wf = true) ∧
    (match step placedMovi with
      | .next _ => true
      | _ => false) = true := by decide +kernel

/-- A lane that has issued its one slot and holds a value for v5 and one for v6 that leaves it empty. -/
def done : State := { at_ with bundles := at_.bundles.map fun b => { b with lanes := b.lanes.map fun l =>
  { l with at_ := 2, tflags := 1, res := [⟨5, 42, true, false, false⟩, ⟨6, 0, false, true, false⟩] } } }
theorem witness_CommitOfOneLane : (match done.bundle? placedPort, done.viewOf placedPort 0 with
    | some b, some v => b.lanes == [v.l] && decide (v.tr.len < v.l.at_) && v.t.status == .issuing placedPort && v.l.stage == 0 && v.l.hinge == none && v.l.pond == [] &&
        v.l.posted == [] && v.l.gsets == [] && v.l.progs == [] && v.l.notes == [] && v.l.tret == none && !v.l.abort &&
        v.l.tstatW == none && v.l.pselW == none && decide (v.l.passes ≤ v.l.pass + 1) && decide ((v.l.res.map (·.code)).Nodup) && sWf v.t.regs &&
        decide (tKind v.tr.tword.toNat < 2) && v.tr.results.all (fun c => !v.t.fills.contains c) && v.l.res.all (fun h => !v.t.fills.contains h.code)
    | _, _ => false) = true ∧ (done.core 0).trace = none := by decide +kernel
/-- A lane whose trace has executed CHKERR.abort and ends with EXIT. -/
def aborting : State := { done with bundles := done.bundles.map fun b => { b with
  trace := b.trace.map fun t => { t with tword := .ofNat 64 (0xE1 * 2 ^ 56 + 4 * 2 ^ 53) }, lanes := b.lanes.map fun l => { l with abort := true } } }
theorem witness_CommitOfOneLane_abort : (match aborting.bundle? placedPort, aborting.viewOf placedPort 0 with
    | some b, some v => b.lanes == [v.l] && decide (v.tr.len < v.l.at_) && v.t.status == .issuing placedPort && v.l.stage == 0 && v.l.hinge == none && v.l.pond == [] &&
        v.l.posted == [] && v.l.gsets == [] && v.l.progs == [] && v.l.notes == [] && v.l.tret == none && v.l.abort && (aborting.run? v.t.run).isSome &&
        tKind v.tr.tword.toNat == 4 && !aborting.fillsWait v
    | _, _ => false) = true := by decide +kernel
theorem test_abort_with_exit : (match exec (.commit placedPort) aborting with
    | .next t => t.threads == [] && (t.run? 0).any fun x => x.ended && x.cir.getLsbD 5
    | _ => false) = true := by decide +kernel

def aRecord : FaultInfo := { cause := 0x0A, detail := 7, pre := 0, instr := 5, ttag := 3, pos := 9, slotNo := 2, deferred := true, reg := 1015, opnd := 1, size := 8,
                             addr := 0x1002, savePc := 0x100 }
theorem witness_FaultRecord : (at_.mem.wf = true ∧ at_.ctx? 0 = some (Context.fresh params 0 0) ∧
    at_.devPlace 0 (params.faultArea + 64 * 0) true = some (.dev 0x14000) ∧ 0x14000 % 64 = 0 ∧ (at_.writeRecord placedThread aRecord).isSome = true) := by decide +kernel
theorem witness_TrapTaking : ((at_.thread? 0).any fun t => t.trap.isNone && (at_.writeRecord t aRecord).isSome && t.status == .issuing placedPort) = true ∧
    (∃ b ∈ at_.bundles, b.lanes.any (·.r == 0) = true) ∧
    aRecord.cause ≠ 0x28 ∧ (at_.ctx? 0).any (fun c => c.par.handler != 0) = true := by decide +kernel
def debugged : State := { handling with contexts := handling.contexts.map fun c => { c with debugger := true } }
theorem witness_TrapTaking_double : (debugged.thread? 0).any (fun t => t.trap.isSome && (debugged.ctx? t.ctx).any (·.debugger)) = true ∧ aRecord.cause ≠ 0x28 := by
  decide +kernel
/-- The kinds of trap state and of successor: N, JUMP and EXIT; a deferred fault whose load waits. -/
theorem witness_TrapReturn : (at_.thread? 0).isSome = true ∧ tKind (0xE1 * 2 ^ 56) = 0 ∧ tKind (0xE1 * 2 ^ 56 + 2 ^ 53) = 1 ∧ tKind (0xE1 * 2 ^ 56 + 4 * 2 ^ 53) = 4 ∧
    tKind (0xE1 * 2 ^ 56 + 2 * 2 ^ 53) = 2 ∧ tKind (0xE1 * 2 ^ 56 + 3 * 2 ^ 53) = 3 ∧ tKind (0xE1 * 2 ^ 56 + 5 * 2 ^ 53) = 5 ∧
    trapState.kind = .slot ∧ trapState.succ.isSome = true ∧ { trapState with kind := .deferred 3 }.kind = .deferred 3 := by decide +kernel
/-- A trace of one NOP at address 0 and one with an L word of three passes at 0x100. -/
def codeBytes : Memory := [(6, 8), (7, 0xE0), (0x17, 0xE1), (0x104, 0x30), (0x107, 0xE3), (0x10D, 2), (0x10E, 8), (0x10F, 0xE0), (0x11F, 0xE1)]
/-- The thread is runnable, at home in no group, and stands in the PC table. -/
def anEntry : PcEntry := { core := 0, part := 0, addr := 0, threads := [0], gather := none, seq := 0, since := 0, promoted := none }
def inTable : State := { at_ with clk := 4096, mem := codeBytes ++ tables, bundles := [], table := [anEntry]
                                  threads := at_.threads.map fun t => { t with status := .runnable, m0 := none } }
theorem witness_TracesReachPorts : inTable.table ≠ [] ∧ inTable.bundles = [] ∧ (inTable.thread? 0).any (fun t =>
    t.ctx == 0 && t.m0.isNone && t.ending.isNone && t.more.isEmpty && !t.stepping && !inTable.heldBack t && !inTable.assembling t) = true ∧ anEntry.since + 4096 ≤ inTable.clk.toNat ∧
    (inTable.core 0).gated = false ∧ inTable.stopping 0 0 = false := by decide +kernel
/-- A bundle of that thread with nothing fetched, at an address. -/
def unfetched (a : Nat) : State := { inTable with
  table := [], bundles := [{ p := placedPort, addr := a, gather := none, trace := none, lanes := [Lane.fresh placedThread 0], seq := 0, since := 0, counted := 0, issue := 0, banks := [], brake := none }]
  cores := [{ id := 0, tlb := [{ ctx := 0, page := 0, size := 2 ^ 30, leaf := 0x103 }] }], threads := inTable.threads.map fun t => { t with status := .issuing placedPort } }
theorem witness_TracesReachPorts_fetch : (∀ a ∈ [0, 0x100, 0x200], ((unfetched a).bundle? placedPort).any (fun b => b.trace.isNone && b.lanes.all fun l =>
      l.active && l.r == 0) = true ∧ ((unfetched a).thread? 0).any (fun t => t.pos == 0 && t.cnt.isNone) = true ∧ (unfetched a).poison = []) ∧
    (match ((unfetched 0x40000000).fetchTrace 0 0 [0] 0 0x40000000 false).2 with
      | .wait => true
      | _ => false) = true ∧
    (match ((unfetched 0).fetchTrace 0 0 [0] 0 0 false).2 with
      | .ok tr => tr.lword.isNone
      | _ => false) = true ∧
    (match ((unfetched 0x100).fetchTrace 0 0 [0] 0 0x100 false).2 with
      | .ok tr => tr.lword.any fun w => w.toNat / 2 ^ 46 % 2 ^ 10 == 0 && w.toNat / 2 ^ 36 % 2 ^ 10 == 3
      | _ => false) = true ∧
    (match ((unfetched 0x200).fetchTrace 0 0 [0] 0 0x200 false).2 with
      | .trap _ _ _ _ => true
      | _ => false) = true ∧ (unfetched 0).blocks = [] ∧ ((unfetched 0).thread? 0).any (fun t => t.status == .issuing placedPort) = true ∧
    (((unfetched 0).fetchTrace 0 0 [0] 0 0 false).1.thread? 0) = (unfetched 0).thread? 0 := by decide +kernel
/-- A word of the trace, NOP, that the thread has stored anew and still queues: the fetch reads YIELD (R16, R163, log 92). -/
def anewed : State := { unfetched 0 with
  blocks := [{ core := 0, part := 0, r := 0, stores := [{ aStore with place := .dev 8, va := 8, bytes := leBytes 8 0x0A00000000000000 }] }] }
theorem test_fetch_own_store : (match anewed.fetchTrace 0 0 [0] 0 0 false with
    | (_, .ok tr) => tr.slots == [0x0A00000000000000]
    | _ => false) = true := by decide +kernel

/-- A posted load of four bytes for v1015, not performed yet, performed, and faulted. -/
def aLoad : LogEntry := { id := 7, core := 0, part := 0, r := 0, gen := 1, ctx := 0, run := 0, dest := 1015, ty := .i32, n := 1, regs := [(1015, 0)], va := 0x1000,
                          pre := ⟨.plain, .dev, .generic, .dflt, .dflt⟩, preWord := 0, word := 0, trace := 0, ttag := 0, slotNo := 1, pos := 0, walk := false, chk := false,
                          places := [.dev 0x1000], data := none, fault := none, cancelled := false }
def loading (e : LogEntry) (trap : Bool) : State := { inTable with
  oplog := [e], threads := inTable.threads.map fun t => { t.markFill 1015 with trap := if trap then some trapState else none } }
theorem witness_LoadsComplete : (∀ e ∈ [aLoad, { aLoad with data := some [1, 2, 3, 4], chk := true }], let s := loading e false
      s.logEntry? 7 = some e ∧ e.walk = false ∧ e.cancelled = false ∧ e.fault = none ∧ away 0 = false ∧ (e.regs.map (·.1)).Nodup ∧
      (s.thread? 0).any (fun t => t.status == .runnable && t.wait == none && sWf t.regs && (e.data.isSome || !(s.viewValues t [] 4 e.places).2)) = true) ∧
    (∀ x ∈ [false, true], let s := loading { aLoad with fault := some (0x0C, 0, 0x1000) } x
      (s.logEntry? 7).isSome = true ∧ s.bundles = [] ∧ (s.thread? 0).any (fun t => t.trap.isSome == x && t.status == .runnable && t.m0.isNone) = true ∧
      (s.ctx? 0).any (fun c => c.par.handler != 0 && (s.devPlace 0 c.par.faultArea true).isSome) = true) := by decide +kernel
def hinged : State := { inTable with threads := inTable.threads.map fun t => { t with hingeFills := [{ code := 1014, words := 2, value := 5 }, { code := 20, words := 1, value := 6 }] } }
/-- A load that waits for the walk of page 0, whose entry stands in the tables, and one whose page has none; and one page of the host asked for. -/
def aMiss (page : Nat) : Miss := { ctx := 0, page, waiters := [(0, loadWho 7)] }
def walking (page : Nat) : State := { loading { aLoad with walk := true, va := page * 65536 } false with diesS := [{ id := 0, misses := [aMiss page] }] }
def walked (page : Nat) : State :=
  match exec (.pageWalkComplete 0 0 page) { walking page with oplog := [] } with
  | .next t => { t with oplog := (walking page).oplog }
  | _ => walking page
theorem witness_LoadsComplete_rest : (hinged.thread? 0).any (fun t => t.hingeFills.length == 2 && sWf t.regs && t.status == .runnable) = true ∧
    (∀ page ∈ [0, 0x4000], (((walking page).die 0).misses.take 64).find? (fun m => m.ctx == 0 && m.page == page) = some (aMiss page)) ∧
    ((walking 0).walk 0 0).isSome = true ∧ (walking 0x4000).walk 0 (0x4000 * 65536) = none ∧
    (((walked 0).thread? 0).any fun t => t.wait.isNone && match (walked 0).translateLoad t { aLoad with walk := true, va := 0 } with
       | (_, .ok _) => true
       | _ => false) = true ∧
    (((walked 0x4000).thread? 0).any fun t => match (walked 0x4000).translateLoad t { aLoad with walk := true, va := 0x4000 * 65536 } with
       | (_, .error (some _)) => true
       | _ => false) = true ∧
    (((walking 0).thread? 0).any fun t => match (walking 0).translateLoad t { aLoad with walk := true, va := 0 } with
       | (_, .error none) => true
       | _ => false) = true ∧
    (let s := { State.reset with pri := [{ vf := 3, page := 5, agents := [8] }] }
     { vf := 3, page := 5, agents := [8] } ∈ s.pri ∧ s.oplog = []) := by decide +kernel

/-- A store in a block of the queue: to device memory and to scratch; and on its way home. -/
def scrStore : Store := { aStore with place := .scr placedGid 0x10 }
def queuedStore (st : Store) : State := { at_ with blocks := [{ core := 0, part := 0, r := 0, stores := [st] }] }
def drainedStore : State := { at_ with out := [{ core := 0, blk := 0, st := aStore }, { core := 0, blk := 1, st := { aStore with place := .dev 0x1004 } }] }
/-- The thread is parked in WAITV for four bytes to be 0. -/
def aWait : WaitV := { place := .dev 0x1000, va := 0x1000, ty := .i32, cond := 0, cmp := 0, acq := false, scope := .dev, race := .dflt, trace := 0, slotNo := 1, pos := 0, since := 0 }
def parked (cmp : Nat) : State := { inTable with clk := 16384, threads := inTable.threads.map fun t => { t with status := .waiting, wait := some (.waitv { aWait with cmp }) } }
theorem witness_StoresPerform :
    (∀ st ∈ [aStore, scrStore], ((queuedStore st).blocks.find? fun x => x.core == 0 && x.part == 0).isSome = true ∧ (queuedStore st).poison = [] ∧
      (queuedStore st).drainTurn 0 = some 0 ∧ st.mem = false ∧ st.rel = false ∧ st.bytes.length ≤ 16 ∧ (∀ t ∈ (queuedStore st).threads, t.wait = none)) ∧
    (at_.group? placedGid).any (fun g => g.scr.wf && !g.dissolved) = true ∧
    (let l := drainedStore.out.filter (·.core == 0)
     l[0]?.any (fun o => !o.st.mem && (l.take 0).all fun x => !o.st.meets x.st) = true ∧
     l[1]?.any (fun o => !o.st.ord.releases && (l.take 1).all fun x => !o.st.meets x.st) = true ∧ drainedStore.mem.wf = true) ∧
    (∀ c ∈ [0, 5], ((parked c).thread? 0).any (fun t => t.status == .waiting && (match t.wait with
        | some (.waitv w) => decide (w.since + 16384 ≤ (parked c).clk.toNat) && !((parked c).viewBytes t [] w.place w.ty.bytes).2 && w.race == .dflt && !(parked c).loadsWait 0 && decide (w.cond < 4)
        | _ => false)) = true ∧ ((parked c).core 0).trace = none) := by decide +kernel
theorem witness_StoresPerform_poison : (let s := { at_ with poison := [.dev 0x1040] }
    s.mem.wf = true ∧ .dev 0x1040 ∈ s.poison ∧ 0x1040 % 64 = 0 ∧ (s.run? 0).isSome = true ∧
      (s.encPages.find? fun e => e.page == 0x1040 / 4096 && e.broken.isSome) = none) ∧
    (∀ n ∈ [62, 63], let s := { at_ with poison := [.dev 0x1040], encPages := [{ page := 1, ctx := 0, major := 0, minors := [], lines := [],
                                                                                 broken := some ((List.range (n + 1)).filter (· ≠ 1)) }] }
     (s.encPages.find? fun e => e.page == 0x1040 / 4096 && e.broken.isSome).any (fun e => (setAdd (0x1040 % 4096 / 64) (e.broken.getD [])).length == n + 1) = true) := by
  decide +kernel
/-- A store, an atomic with a release, and a load of the lane's thread in scratch, whose line another thread has written: a race (R311). -/
def racing : State := { at_ with
  tags := [{ (default : TagEntry) with r := 0, gen := 1, home := handleOf placedGid }, { (default : TagEntry) with r := 1, gen := 2, home := 5 }]
  lines := [{ line := .scr placedGid 0, ctx := 0, epoch := at_.epoch 0, rd := none,
              w := some { tag := 34, clk := 3, scope := .dev, kind := 0, off := 4, size := 2 } }] }
def anAcc (write atomic : Bool) (ord : Ord) : Acc :=
  { r := 0, gen := 1, ctx := 0, run := 0, home := placedGid, clk := 0, place := .scr placedGid 4, va := 0, size := 2, write, atomic, ord, scope := .dev }
theorem witness_StoresPerform_race :
    (∀ c ∈ [anAcc true false .plain, anAcc true true .rel, anAcc false false .acq], racing.shadowPage c.ctx c.run c.place false = (racing, true) ∧
      (racing.thread? c.r).isSome = true ∧ ((racing.raceLine? 0 c.place.line).bind (·.w)).any (fun w => racing.judge w.prior c == .report) = true) ∧
    ((racing.dropSnap (.line (.scr placedGid 0))).snaps.filter (·.die == racing.homeDie (.scr placedGid 0))).length < Config.snapPool := by decide +kernel
def withGroup (f : Group → Group) (s : State := at_) : State := { s with groups := s.groups.map f }
def oneMember (f : Thread → Thread) (s : State := at_) : State := { s with threads := s.threads.map f }
theorem witness_ReportsOfCores_events : (at_.ctx? 0).any (fun c => decide ((c.evProd + 2 ^ 64 - c.evCons) % 2 ^ 64 < c.par.evqEntries)) = true ∧
    at_.devPlace 0 0x16000 true = some (.dev 0x16000) ∧ at_.poison = [] ∧ at_.mem.wf = true ∧
    (({ at_ with contexts := [{ Context.fresh params 0 0 with evProd := 64 }] } : State).ctx? 0).any (fun c => decide (c.par.evqEntries ≤ (c.evProd + 2 ^ 64 - c.evCons) % 2 ^ 64)) = true := by
  decide +kernel
/-- An operation of lane 0 in the replay queue; a trace buffer with 512 records since the last sync packet, on a core with and without residents. -/
def aBuffer : TraceBuf := { ctx := 0, base := 0x19000, size := 4096, next := 0, since := 512, pend := [] }
def replayed : State := { at_.modLane placedPort 0 (fun l => { l with at_ := 2 }) with cores := [{ id := 0, trace := some aBuffer, replay := [{ core := 0, part := 0, issue := 0, r := 0, slotNo := 1, pipe := 2, operands := [1, 2], result := [5, 3, 0] }] }] }
theorem witness_ReportsOfCores : (replayed.issuingView 0).isSome = true ∧
    (replayed.opOf 0 1 2).isSome = true ∧ replayed.committing 0 = false ∧ (replayed.issuingView 0).any (fun v => v.l.at_ == 2) = true ∧
    (at_.thread? 0).any (fun t => (at_.writeRecord t { aRecord with cause := 0x28 }).isSome && (at_.run? t.run).isSome && t.pipes.isEmpty) = true ∧
    (∀ s ∈ [replayed, { replayed with threads := [] }], (s.core 0).trace.any (fun b => decide (512 ≤ b.since) && decide (16 ≤ b.size) &&
      s.devPlace b.ctx (b.base + 16 * (b.next % (b.size / 16))) true == some (.dev 0x19000)) = true ∧ s.poison = [] ∧ s.mem.wf = true) ∧
    (({ replayed with threads := [] } : State).residents 0).length = 0 ∧ (at_.residents 0)[5 % (at_.residents 0).length]?.isSome = true := by decide +kernel
/-- A phase of GBAR, a lane set and a barrier object that two members should reach: one has, the other runs on past the hang limit. -/
def late (f : Group → Group) (st : Status) : State :=
  { withGroup f with clk := 1400000000, threads := at_.threads.map (fun t => { t with status := st }) ++ [{ placedThread with r := 1, status := .runnable }]
                     arrivals := [{ block := 0, gid := placedGid, set := 0, addr := 0, expected := [0, 1], arrived := [0], waited := 1400000000 }] }
def lateGbar : State := late (fun g => { g with members := [(0, 0), (1, 1)], gbar := some { expected := [0, 1], arrived := [0], held := [], waited := 1400000000 } }) (.waiting)
def lateBar : State := late (fun g => { g with members := [(0, 0), (1, 1)], barWaited := [(0x40, 1400000000)] }) (.bwait placedGid 0x40 true)
theorem witness_ReportsOfCores_hangs : (∀ s ∈ [lateGbar, lateBar], (s.ctx? 0).any (fun c => decide (c.par.hang ≤ 1400000000)) = true ∧
      (s.thread? 1).any (fun t => t.counts) = true) ∧
    (lateGbar.group? placedGid).any (fun g => g.ctx == 0 && g.gbar.any fun ph => ph.waited == 1400000000 && ph.arrived != [] && ph.expected.all (fun r => ph.arrived.contains r || r == 1) &&
      ph.expected.contains 1 && !ph.arrived.contains 1) = true ∧
    (lateBar.arrivals.find? (·.block == 0)).any (fun a => a.gid == placedGid && ctxOfGid a.gid == 0 && (lateBar.group? a.gid).any fun g =>
      g.laneSet a.set == [(0, 0), (1, 1)] && a.arrived == [0] && a.waited == 1400000000) = true ∧
    (lateBar.group? placedGid).any (fun g => g.resident && assocD 0 g.barWaited 0x40 == 1400000000 && g.members.all fun m => (lateBar.thread? m.1).any fun t => t.status == .bwait placedGid 0x40 true || t.counts) = true := by
  decide +kernel

theorem witness_SumsAndArrivals : (∀ t ∈ [Ty.bf16, .f16], ∀ k ∈ [0, 1], (elemOf t [0x80, 0x3F, 0, 0xBC] k).isFin = true) ∧
    (∀ x ∈ [(0, 1), (1, 1), (1, 3)], let s := barrier x.1
      s.scrRd placedGid 0x40 4 = x.1 + 2 ^ 14 * 2 + 0 + 0 ∧ s.scrRd placedGid (0x40 + 4) 6 = 0 ∧ s.scrRd placedGid (0x40 + 10) 6 = 0 ∧ x.1 + x.2 < 2 ^ 14 ∧
      (s.group? placedGid).any (·.scr.wf) = true ∧ s.threads.all (fun t => t.wait.isNone && !away t.r) = true ∧ (x.1 + x.2 < 2 ∨ 2 ≤ x.1 + x.2 ∧ 0 ≤ 0 + 0)) := by
  decide +kernel

/-- A command of one row in the group's queue. -/
def aCmd (op : MOp) : MCmd := { op, tile := 3, fmt := .f32, fword := 0x20800, rows := [{ r := 0, gen := 1, rank := 0, aGid := placedGid, aOff := 0x100 }], bGid := placedGid,
                                bOff := 0x40, blk := ⟨0, 0, 0, 0, 0, 0, 0, 0, 0, 0, 0⟩, run := 0, ctx := 0, resets := 0 }
def aSignal (resets : Nat) : Signal := { die := 0, gid := placedGid, off := 0x40, arrivals := 1, bytes := 0, pure := false, run := 0, resets }
def aMove : LdxMove := { id := 4, core := 0, ctx := 0, run := 0, src := [.dev 0x1000], srcVa := 0x1000, gid := placedGid, off := 0x100, barOff := 0x40, bytes := 16, resets := 0 }
theorem witness_EnginesWork :
    (∀ op ∈ [MOp.mzero, .mlda, .mma], let s := withGroup fun g => { g with mq := [aCmd op] }
      (s.group? placedGid).any (fun g => !g.dissolved && g.resident && !(s.core g.home).gated && clusterOfCore g.home == 0 && g.drain.isNone && sWf g.tiles &&
        sWf g.rowFlags && s.groups == [g] && g.mq == [aCmd op]) = true ∧ s.poison = [] ∧ ((aCmd op).rows.map MRow.row).Nodup ∧ fwNcol (aCmd op).fword ≤ 64) ∧
    (let s := withGroup fun g => { g with drain := some { cmd := aCmd .msta, bytes := 64, writes := [(placedGid, 0x800, [1, 2])], shown := [] } }
     (s.group? placedGid).any (fun g => g.drain.any (fun d => d.cmd.op == .msta && d.cmd.bGid == placedGid && g.resets == d.cmd.resets) && !g.dissolved && sWf g.rowFlags &&
        g.resident && !(s.core g.home).gated) = true ∧ ((aCmd .msta).rows.map (·.r)).Nodup ∧ ((aCmd .msta).rows.map MRow.row).Nodup ∧
       (s.group? placedGid).any (fun g => g.scr.wf) = true ∧ s.poison = [] ∧ (∀ t ∈ s.threads, t.wait = none)) ∧
    (let s := { at_ with ldxs := [aMove], mailbox := [aSignal 0] }
     s.ldxs.find? (·.id == 4) = some aMove ∧ aMove.src = [.dev 0x1000] ∧ aMove.barOff + 16 ≤ aMove.off ∧ s.poison = [] ∧ s.mailbox.find? (·.die == 0) = some (aSignal 0) ∧
     ({ s with pkg := { s.pkg with state := 4 } } : State).dispatching = true ∧
     (s.group? placedGid).any (fun g => !g.dissolved && g.resident && !(s.core g.home).gated && g.resets == aMove.resets && g.scr.wf && g.resets == (aSignal 0).resets &&
       g.resets != (aSignal 1).resets) = true ∧ (s.run? 0).isSome = true) := by decide +kernel

/-- A ring of one entry: control block at 0, the entry at 0x100, its record at 0x180, its barrier object at 0x80; the entry copies one element of four bytes. -/
def aSnap : RingSnap := { prod := 1, mems := [some placedGid, none, none, none], resets := [0, 0, 0, 0], run := 0, ctx := 0 }
def aRing (cur : Option CopyCur) : Ring := { off := 0, entries := 0x100, recs := 0x180, nent := 1, snaps := [aSnap], cur }
def ringed (cur : Option CopyCur) : State :=
  let w := fun (s : State) (x : Nat × Nat × Nat) => s.scrWr placedGid x.1 x.2.1 x.2.2
  let s := [(0, 4, 1), (0x100, 4, 0x20), (0x104, 4, 0x80), (0x108, 8, 0x1000), (0x110, 8, 0x2000), (0x118, 8, 1), (0x120, 8, 1), (0x128, 8, 1), (0x130, 8, 1), (0x138, 8, 1),
    (0x60, 4, 0x200), (0x64, 4, 16), (0x68, 2, 1), (0x6C, 2, 1)].foldl w (near at_)
  withGroup (fun g => { g with ring := some (aRing cur) }) s
def aCopy : CopyCur := { copyEntry (((ringed none).group? placedGid).getD default) (aRing none) aSnap 0 with barGid := some placedGid, barOff := 0x80 }
theorem witness_CopiesWork :
    (let s := ringed none
     (s.group? placedGid).any (fun g => g.ring.any fun k => k.cur.isNone && s.copyTurnOf g && (let pos := g.rd (k.off + 4) 4
        let e := k.entries + 64 * (pos % k.nent)
        k.snapFor pos == some aSnap && (BitVec.ofNat 32 (g.rd k.off 4) - BitVec.ofNat 32 pos).toNat == 1 && !(g.rd e 4).testBit 10 && !(g.rd e 4).testBit 8 &&
        !(g.rd e 4).testBit 9 && g.rd e 4 % 16 == 0 && !entryRefused g k (copyEntry g k aSnap pos) && [0, 1, 2, 3, 4].all (fun i => g.rd (e + 24 + 8 * i) 8 % 2 ^ 16 != 0) &&
        (s.ringRef aSnap (g.rd (e + 4) 4) 16 16).toOption == some (placedGid, 0x80)))) = true ∧
    (let s := ringed (some aCopy)
     aCopy.kind = 0 ∧ aCopy.ended = false ∧ s.poison = [] ∧ (∀ t ∈ s.threads, t.wait = none) ∧ s.mem.wf = true ∧ aCopy.counts.foldl (· * ·) 1 = aCopy.next + 1 ∧
     (s.group? placedGid).any (fun g => s.copyTurnOf g && match (s.tookTurn g).copySide placedGid g.home aCopy false 0 with
       | (s1, .ok (.dev a, _)) => a == 0x1000 && (match s1.copySide placedGid g.home aCopy true 0 with
         | (_, .ok (.dev b, _)) => b == 0x2000
         | _ => false)
       | _ => false) = true) := by decide +kernel
def aHalo (phase : Bool) : CopyCur := { aCopy with gated := true, gateGid := placedGid, gateOff := 0x40, gatePhase := phase }
def aFlume : CopyCur := { aCopy with kind := 2, dstGid := placedGid, dst := 0x60 }
theorem witness_CopiesWork_rest :
    (∀ b ∈ [false, true], (ringed (some (aHalo b))).copyHeld (aHalo b) = false ∧ ((ringed (some (aHalo b))).phaseOf placedGid 0x40 = b ↔ b = false)) ∧
    (let s := ringed (some aFlume)
     let rd := fun (o n : Nat) => s.scrRd placedGid (0x60 + o) n
     aFlume.kind = 2 ∧ aFlume.taken = 0 ∧ aFlume.ended = false ∧ s.poison = [] ∧ (s.group? placedGid).any (fun d => d.scr.wf && decide (0x200 + 4 ≤ d.alloc)) = true ∧
     aFlume.counts.foldl (· * ·) 1 = aFlume.next + 1 ∧ strideSum aFlume.dstr (unlinear aFlume.counts 0) = 0 ∧ 4 ≤ rd 4 4 ∧ rd 12 2 ≠ 0 ∧ rd 14 2 < 2 ^ 16 - 1 ∧
     (rd 0 4 + rd 16 2 * rd 4 4) % 4 = 0 ∧ 1 ≤ rd 8 2 ∧ 0x60 + 32 ≤ rd 0 4 ∧
     (s.group? placedGid).any (fun g => s.copyTurnOf g && match (s.tookTurn g).copySide placedGid g.home aFlume false 0 with
       | (_, .ok (.dev a, _)) => a == 0x1000
       | _ => false) = true) ∧
    (let c := { aCopy with ended := true }
     let s := ringed (some c)
     c.gated = false ∧ (s.group? placedGid).any (fun g => s.served g && g.scr.wf) = true ∧ s.mailRoom placedGid = true ∧ c.counts.length = 5 ∧ c.startV.length = 5 ∧
     (aRing (some c)).off + 64 ≤ (aRing (some c)).recs + 32 * (c.pos % (aRing (some c)).nent)) := by decide +kernel
/-- A flume of one slot, which the command holds while its next element belongs to the next slot: it waits, and the slot is not filled (R243, R257). -/
def aFullFlume : CopyCur := { aFlume with taken := 1, next := 4, counts := [8, 1, 1, 1, 1], dstr := [4, 0, 0, 0, 0] }
theorem test_flume_waits_unfilled : (let s := (ringed (some aFullFlume)).scrWr placedGid 0x6C 2 0
    aFullFlume.streamOff = 16 ∧ (match exec (.flumeSlotWrite placedGid) s with
      | .next t => t.scrRd placedGid 0x6E 2 == s.scrRd placedGid 0x6E 2 && ((t.group? placedGid).bind (·.ring)).bind (·.cur) == some aFullFlume
      | _ => false) = true) := by decide +kernel

/-- Core 1 after ten rounds, beside core 0, which works and has ended none; and core 1 without such a lead. -/
theorem witness_CoresAndGroups_cores : (let s := { at_ with cores := [{ id := 1, rounds := 10 }] }
    s.holdsGroup 0 = true ∧ (s.core 0).gated = false ∧ (s.core 0).rounds + (s.cluster 0).lead < (s.core 1).rounds + 1 ∧
    [0, 1, 2, 3].all (fun c => c == 1 || !at_.holdsGroup c || at_.core c == { id := c } && decide ((at_.core 1).rounds + 1 ≤ (at_.core c).rounds + (at_.cluster 0).lead)) = true) ∧
    State.reset.bundles = [] ∧ State.reset.blocks = [] ∧ State.reset.out = [] ∧ State.reset.ldxs = [] ∧ (∀ b ∈ at_.bundles, (b.lanes.map (·.r)).Nodup) := by decide +kernel

/-- The machine serves commands; its group's one member waits on a barrier object. -/
def serving : State := withGroup (fun g => { g with idle := 280000 }) { at_ with
  clk := 2800000, pkg := { at_.pkg with state := 4 }, bundles := [], threads := at_.threads.map fun t => { t with status := .bwait placedGid 0x40 true } }
/-- The group as SWAP_OUT leaves it, with the object flipped. -/
def swapped : State := match exec (.swapOut placedGid) serving with
  | .next t => withGroup (fun g => { g with wake := [] }) t
  | _ => serving
/-- A second context with a run to place, on a die where the first holds one core more than its target. -/
def contested : State := { serving with
  contexts := serving.contexts ++ [Context.fresh { params with vf := 1 } 1 0]
  runs := serving.runs ++ [{ (default : Run) with id := 9, ctx := 1, nthr := 64 }]
  diesS := [{ id := 0, targets := [(0, 0), (1, 4)] }] }
/-- The same die once the request of the first context has gone out. -/
def asked : State := { contested with diesS := contested.diesS.map fun d => { d with stops := [{ ctx := 0, cores := [0], boundary := 2800000 }] } }
theorem witness_CoresAndGroups_groups : ((serving.group? placedGid).any (fun g => serving.swapReady g && g.mq.isEmpty && g.drain.isNone) = true ∧ serving.ldxs = [] ∧ serving.mailFits = true) ∧
    (swapped.dispatching = true ∧ handleOf placedGid ≠ 0 ∧ swapped.mailbox = [] ∧ (swapped.group? placedGid).any (fun g =>
      swapped.restorable g && !swapped.heldBackFor g.ctx g.run && !g.coresident && decide ((g.members.map (·.1)).Nodup) && (swapped.placeSaved g { home := 1, slots := [2048] }).isSome) = true) ∧
    (∃ c ∈ serving.contexts, assocD 0 (serving.die 0).slices c.id < (serving.clk.toNat - serving.pkg.paused - c.created) / (c.par.slice * 1400)) ∧
    ((contested.die 0).stops.find? (·.ctx == 0) = none ∧ (contested.ctx? 0).any (fun c => contested.stopReady 0 c [0]) = true) ∧
    ((asked.die 0).stops.find? (·.ctx == 0) = some { ctx := 0, cores := [0], boundary := 2800000 } ∧ asked.dispatching = true ∧ (asked.ctx? 0).isSome = true ∧
      (∀ t ∈ asked.threads, asked.committing t.r = false) ∧ (∀ g ∈ asked.groups, g.mq = [] ∧ g.drain = none) ∧ asked.ldxs = [] ∧ asked.mailFits = true ∧
      asked.stopGroups 0 [0] ≠ []) := by decide +kernel

/-! A graph binary of one kernel and one node, at address 0x1000, and its submission in entry 1 -/
def imgSparse : List (Nat × Byte) := [(0, 0x4B), (1, 0x43), (2, 0x47), (3, 0x42), (4, 1), (6, 3), (8, 0xA0), (16, 1), (20, 1), (24, 64), (32, 2), (36, 1), (40, 128), (48, 6), (52, 1), (56, 0xA0)]
def anImage : List Byte := (List.range 160).map fun i => (assocD 0 (imgSparse.map fun x => (x.1, x.2.toNat)) i : Nat)
/-- Address 0x40000000 leads to the same memory, not writable; the tables are outside the context's frames. -/
def graphTables : Memory := [(0x20000, 0x01), (0x20001, 0x10), (0x20002, 0x02), (0x21000, 0x01), (0x21001, 0x20), (0x21002, 0x02), (0x22000, 0x03), (0x22001, 0x01), (0x22008, 0x03)]
def submitted (sub : Memory) (img : List (Nat × Byte)) : State := { State.reset with
  pkg := { Package.reset with state := 4 }, contexts := [Context.fresh { params with root := 0x20000 } 0 0], owners := [(0, 0), (1, 0)]
  mem := sub ++ img.map (fun x => (0x1000 + x.1, x.2)) ++ graphTables }
theorem witness_GraphsLoad : ∀ s ∈ [submitted [(0x40, 1), (0x48, 4), (0x49, 0x10)] imgSparse, submitted [(0x40, 1), (0x49, 0x10)] [(0, 0x4C)],
      submitted [(0x40, 1), (0x4A, 0x80)] []],
    (s.ctx? 0).any (fun c => s.dispatching && s.subRead c 1 0 4 == 1 && (s.subRead c 1 8 8 % 64 != 0 || match s.farBytes 0 2 (s.subRead c 1 8 8) 16 with
      | some h => imgNum h 0 4 != 0x4247434B
      | none => decide (s.farAsk c 2 (s.subRead c 1 8 8) 16 = (s, false)))) = true ∧ s.poison = [] ∧ (∀ t ∈ s.threads, t.wait = none) ∧ s.mem.wf = true := by decide +kernel

def aKernel : KernelDesc := default
def aNodeRec : NodeRec := { kernel := 0, threads := 1, group := 0, queue := 0, flags := 0 }
def aNode : Node := { idx := 0, img := 0, info := aNodeRec, kd := aKernel, deps := 0, succs := [], state := .blocked, retry := 0, parent := none, doneAddr := 0, psize := 65536,
                      patch := 0, order := 0, data := none }
def aGraph : Graph := { id := 0, ctx := 0, entry := 1, base := 0x40000000, size := 160, nodes := [aNode], plan := [], translated := [] }
def goodSub : State := submitted [(0x40, 1), (0x49, 0x10)] imgSparse
/-- What the image holds where R328's layouts of a kernel and of a node read so (their layout is free, log 9). -/
theorem witness_GraphsLoad_image (hk : Config.kernelAt anImage 64 = aKernel) (hn : Config.nodeOf (List.replicate 32 0) = aNodeRec) :
    imgOk anImage = true ∧ graphOf 0 0 1 0x40000000 anImage 0 0 = aGraph := by
  have k : imgKernels anImage = [Config.kernelAt anImage 64] := rfl
  have n : imgNodes anImage = [Config.nodeOf (List.replicate 32 0)] := rfl
  constructor
  · unfold imgOk imgExtents; rw [k, n, hk, hn]; decide +kernel
  · unfold graphOf; rw [k, n, hk, hn]; decide +kernel
theorem witness_GraphsLoad_accept : (goodSub.ctx? 0).any (fun c => goodSub.dispatching && goodSub.subRead c 1 0 4 == 1 && goodSub.subRead c 1 8 8 == 0x1000 &&
      (goodSub.farBytes 0 2 0x1000 16).any (fun h => imgNum h 0 4 == 0x4247434B && imgNum h 8 8 == 160) && goodSub.farBytes 0 2 0x1000 160 == some anImage &&
      goodSub.subRead c 1 16 8 == 0 && goodSub.subRead c 1 24 4 == 0 && decide (planPages aGraph.plan 1 ≤ goodSub.poolPages c) &&
      (let m := (goodSub.subState c 1 2 0).applyEdits 0 []
       goodSub.guardsKept m 0 && goodSub.encFits m 0 [] && m.mappedRange 0 0x40000000 160 false && (upFrom (0x40000000 / 65536) ((0x40000000 % 65536 + 160 + 65535) / 65536)).all fun p =>
         (m.devPlace 0 (65536 * p) true).isNone)) = true ∧
    goodSub.refusedNode 0 aGraph = none ∧ goodSub.editsOk [] = true ∧ goodSub.addsOnly 0 [] [] = true ∧ goodSub.graphs = [] ∧ goodSub.seq = 0 := by decide +kernel
theorem witness_GraphsLoad_room (q : Nat) : goodSub.queueLength 0 q + aGraph.nodes.length ≤ Config.queueNodes := by
  have : goodSub.queueLength 0 q = 0 := rfl
  rw [this]; decide
/-- A graph whose image stands at 0x1000 and has code for its kernel only as BREUZ. -/
def loaded : State := { goodSub with graphs := [{ aGraph with base := 0x1000 }] }
theorem witness_GraphsLoad_translation : loaded.dispatching = true ∧ loaded.graph? 0 = some { aGraph with base := 0x1000 } ∧
    (∃ k, (imgKernels (loaded.graphImage { aGraph with base := 0x1000 }))[0]? = some k) ∧ hasBreuz (loaded.graphImage { aGraph with base := 0x1000 }) 0 = true ∧
    nativeCode (loaded.graphImage { aGraph with base := 0x1000 }) 0 = none ∧ loaded.mappedRange 0 0x8000 8 false = true := by
  have e : loaded.graphImage { aGraph with base := 0x1000 } = anImage := by decide +kernel
  rw [e]
  exact ⟨by decide +kernel, by decide +kernel, ⟨_, rfl⟩, by decide +kernel, rfl, by decide +kernel⟩

/-- A node that may start, with its translation; a run of two threads whose node is served; a run that is over. -/
def aRunNode (n : Node) : State := { goodSub with graphs := [{ aGraph with nodes := [n, { aNode with idx := 1 }], translated := [(0, 0x8000)] }] }
def startable : State := aRunNode { aNode with state := .queued }
def aRun (group : Nat) (coresident : Bool := false) : Run := { (default : Run) with id := 0, nthr := 2, group, coresident, psize := 256, kd := aKernel }
def creating (group : Nat) (coresident : Bool := false) : State := { aRunNode { aNode with state := .running } with runs := [aRun group coresident] }
theorem witness_NodesRun : (startable.graph? 0).any (fun g => (g.nodes.find? (·.idx == 0)).any fun n => startable.startReady g n [] && startable.dataBytes g n == some [] &&
      startable.addsOnly g.ctx [] [] && startable.guardsKept (startable.applyEdits g.ctx []) g.ctx && startable.encFits (startable.applyEdits g.ctx []) g.ctx [] && n.data.isNone && (startable.applyEdits 0 []).dataPlaced 0 0 n.kd.dataSize) = true ∧
    startable.editsOk [] = true ∧ (startable.ctx? 0).isSome = true ∧ startable.poison = [] := by decide +kernel
/-- Two threads to create, without groups, in a group, and in a coresident launch's group. -/
theorem witness_NodesRun_create : ∀ y ∈ [(0, false), (64, false), (64, true)],
    let s := creating y.1 y.2
    let x := aRun y.1 y.2
    let slots := [64, 65]
    let stores := [0x5000, 0x5100]
    s.run? 0 = some x ∧ s.dispatching = true ∧ x.ended = false ∧ x.nextSize 2 = 2 ∧ s.heldBackFor 0 0 = false ∧ s.runTurn x = true ∧ s.savedFirst 0 = false ∧
    (s.takeTurn 0 (((s.node? x).map (·.info.queue)).getD 0)).any (fun v =>
      if y.2 then (v.placeGroups x [5] 0 slots stores).isSome else (v.placeGroup x (gidOf 0 (if y.1 = 0 then 0 else 5)) 0 slots stores).isSome) = true := by decide +kernel
theorem witness_NodesRun_place : ∀ y ∈ [(0, false), (64, false), (64, true)],
    let s := creating y.1 y.2
    let x := aRun y.1 y.2
    let slots := [64, 65]
    let stores := [0x5000, 0x5100]
    let gid := if y.1 = 0 then 0 else gidOf 0 5
    let sets := if y.1 = 0 then [] else laneSets (upFrom 0 2) slots
    coreOfSlot 64 = 0 ∧ s.slotsFree 0 slots = true ∧ s.setsOk sets = true ∧ s.storesOk 0 256 stores = true ∧
      (∀ r ∈ slots, s.unbound (blockOfSlot r) = true ∧ clusterOfSlot r = clusterOfCore 0) ∧ s.handleFree 0 5 = true ∧
      (let s1 := if y.1 = 0 then s else s.addGroup x gid 0 sets
       let s2 := ((upFrom 0 2).zip (slots.zip stores)).foldl (fun (u : State) z => u.addThread x gid z.1 z.1 z.2.1 z.2.2) s1
       (s2.modRun 0 fun y => { y with created := 2 }).coresFit 0 [0, 0]) = true := by decide +kernel
/-- A run whose one shadowed page at 0x80000000 is to be mapped to frame 1. -/
def flipping : State := { creating 0 with
  mem := goodSub.mem ++ [(0x22010, 0x01), (0x22011, 0x30), (0x22012, 0x02), (0x23000, 0x01), (0x23001, 0x40), (0x23002, 0x02), (0x24000, 0x03), (0x24001, 0x01)] }
def shadowing : Run := { aRun 0 with shadows := [(0x8000, 0, 1)] }
theorem witness_NodesRun_flip : shadowing.shadows ≠ [] ∧ flipping.mem.wf = true ∧ (flipping.flip shadowing [(0x24000, 0x10103)]).isSome = true := by decide +kernel
def finished (cir : Word) : State := { aRunNode { aNode with state := .running } with runs := [{ aRun 0 with created := 2, exited := 2, cir }] }
def ends (cir : Word) (bad : Bool) : Bool :=
  match (finished cir).runs, (finished cir).graphs with
  | [x], [g] => match g.nodes with
    | n :: m :: [] => n.state == .running && m.state != .done && (finished cir).dispatching && (finished cir).runOver g x && !x.cir.getLsbD 2 &&
        (x.cir.getLsbD 0 || x.cir.getLsbD 5) == bad && x.shadows.isEmpty && n.succs.isEmpty && n.doneAddr == 0 && !x.noretry && !x.wrote && !x.outward &&
        !x.coresident && decide (n.retry < 2) && (finished cir).quiet x.ctx && (finished cir).mailFits && (finished cir).donePlace g n == (finished cir, some none)
    | _ => false
  | _, _ => false
theorem witness_NodesRun_ends : ends 0 false = true ∧ ends 1 true = true ∧ ends 32 true = true := by decide +kernel
/-- 32 frames for a context, to which each leaf of 2 MiB of its fault area leads; its tables stand outside them. -/
def creation : CtxParams := { params with frames := List.range 32, root := 0x3E80000, handler := 0x8000, faultArea := 0, evqBase := 0x16000
                                          table := [(0x3E80000, 0x3E81001), (0x3E81000, 0x3E82001), (0x3E82000, 0x3E83001)] ++
                                            (List.range 16).map fun i => (0x3E83000 + 8 * i, 0x103) }
/-- The same, as CREATE names it. -/
def creationArgs : CreateArgs := { vf := creation.vf, root := creation.root, faultArea := creation.faultArea, evqBase := creation.evqBase, evqEntries := creation.evqEntries
                                   frames := creation.frames, subPage := creation.subPage, table := creation.table, handler := some creation.handler, drain := some creation.drain
                                   weight := some creation.weight, slice := some creation.slice, coreLimit := some creation.coreLimit, hang := some creation.hang
                                   tswap := some creation.tswap, lead := some creation.lead, racectl := some creation.racectl, raceRing := creation.raceRing
                                   shadowPages := some creation.shadowPages, shadowPool := some creation.shadowPool, mdef := some creation.mdef, bar2Size := some creation.bar2Size }
def bare : State := { State.reset with pkg := { Package.reset with state := 4 } }
theorem witness_ContextsAndMemory_create : bare.pkg.state = 4 ∧ bare.managementPaused = false ∧ bare.dispatching = true ∧ createParams creationArgs = creation ∧ paramsOk creation = true ∧ bare.ctx? 0 = none ∧ ((bare.vf? 0).bind (·.ctx)) = none ∧
    bare.framesFree creation.frames = true ∧ (bare.addContext creation).editsOk creation.table = true ∧
    (bare.addContext creation).mappedRange 0 creation.faultArea (64 * Config.numSlots) true = true ∧ bare.mem.wf = true ∧ bare.poison = [] := by decide +kernel
def idle : State := { at_ with pkg := { at_.pkg with state := 4 }, runs := at_.runs.map fun x => { x with ended := true } }
theorem witness_ContextsAndMemory : (idle.pkg.state = 4 ∧ idle.managementPaused = false ∧ idle.dispatching = true ∧ (idle.ctx? 0).isSome = true ∧
      (∀ x ∈ idle.runs, x.ended = true) ∧ idle.quiet 0 = true ∧ idle.mailFits = true ∧
      idle.editsOk [] = true ∧ idle.editsOk [(0x20000, 0x3E81001)] = true ∧ (∀ t ∈ idle.threads, t.wait = none ∧ t.more = [] ∧ t.trap = none) ∧
      idle.blocks = [] ∧ idle.out = [] ∧ idle.ldxs = []) ∧
    (2 ≤ 2 ∧ 2 < 3) ∧ (0x40 % 64 = 0 ∧ 16 = 2 ^ 4 ∧ 4 ≤ 4 ∧ 2 ^ 20 = 2 ^ 20 ∧ 20 ≤ 20) ∧ (0x48 % 64 ≠ 0 ∧ ∀ k, 4 ≤ k → k ≤ 20 → 24 ≠ 2 ^ k) ∧
    (255 ≤ 255 ∧ 2 ^ 16 - 1 < 2 ^ 16) ∧ (Config.devBytes - 64) % 64 = 0 ∧ Config.devBytes - 64 < Config.devBytes ∧
    (at_.group? placedGid).any (fun g => decide (64 % 64 = 0) && decide (64 < g.alloc)) = true := by
  refine ⟨by decide +kernel, by decide, by decide, ⟨by decide, fun k h1 h2 => ?_⟩, by decide, by decide +kernel, by decide +kernel, by decide +kernel⟩
  rcases Nat.lt_or_ge k 5 with h | h
  · have := Nat.pow_le_pow_right (n := 2) (by decide) (show k ≤ 4 by omega); omega
  · have := Nat.pow_le_pow_right (n := 2) (by decide) h; omega
/-- An encrypted page without counters so far; and one whose line 63 is at its last minor counter. -/
def encrypted (pages : List EncPage) : State := { idle with
  mem := [(0x20000, 0x01), (0x20001, 0x10), (0x20002, 0x02), (0x21000, 0x01), (0x21001, 0x20), (0x21002, 0x02), (0x22000, 0x03), (0x22001, 0x21)]
  contexts := [Context.fresh { params with root := 0x20000 } 0 0], encPages := pages, encSpaces := [{ ctx := 0, frame := 0, space := 0x2000 }] }
def aPage (n : Nat) : EncPage := { page := 0, ctx := 0, major := 0, minors := [(63, n)], lines := [], broken := none }
theorem witness_ContextsAndMemory_enc : ∀ pages ∈ [[], [aPage 126], [aPage 127]], let s := encrypted pages
    (s.walk 0 0).any (fun x => bits x.1 14 2 == 0 && bit x.1 13 && bits x.1 16 40 * 2 ^ 16 + 0 % 2 ^ x.2 == 0) = true ∧ (s.ctx? 0).isSome = true ∧ s.mem.wf = true ∧
    assocD (2 ^ 64) s.owners 0 = 0 ∧ s.encPages = pages ∧ s.encSpaceOf 0 = some 0x2000 := by decide +kernel

/-- The thread under a debugger: runnable, issuing, halted with and without a register that waits for its trap, and stepping; its code opens with a
gather trace or not. -/
def watched (s : State) : State := { s with pkg := { s.pkg with state := 4 }, contexts := s.contexts.map fun c => { c with debugger := true } }
def haltedOne (gather : Bool := false) : State :=
  let s := watched (oneMember (fun t => { t with status := .halted }) { at_ with bundles := [] })
  { s with mem := s.mem.writeN 0x18000 (leBytes 8 (0xE000000000000000 + if gather then 2 ^ 42 else 0)), threads := s.threads.map fun t => { t with pc := 0x18000 } }
theorem witness_DebuggerActs :
    (∀ s ∈ [watched inTable, watched at_, haltedOne, haltedOne true, watched (oneMember fun t => { t with stepping := true })],
      (s.thread? 0).any (fun t => t.wait.isNone && t.held.isEmpty && (s.ctx? t.ctx).any (·.debugger)) = true ∧ s.pkg.state = 4 ∧ s.managementPaused = false ∧ away 0 = false) ∧
    ((watched inTable).thread? 0).map (·.status) = some .runnable ∧
    (∀ x ∈ [false, true], let s := watched (oneMember fun t => { t with stepping := x })
      (s.thread? 0).any (fun t => t.status == .issuing placedPort && t.stepping == x) = true ∧
        (s.bundle? placedPort).any (fun b => (b.lanes.map fun l => (l.r, l.stage)) == [(0, 0)]) = true) ∧
    (∀ x ∈ [false, true], let s := haltedOne x
      (s.thread? 0).any (fun t => t.status == .halted && !s.stopping 0 t.ctx && s.gatherAt 0 t.ctx t.run t.pc.toNat == x) = true ∧ s.bundles = []) ∧
    (let s := haltedOne
     s.mayWrite 0 3 (.bpf 7) 0x0000000000000008 = true ∧ s.mayWrite 0 3 (.wpc 3) 0x8000000000000000 = true ∧ s.mayWrite 0 255 (.bpa 15) 0x1000 = true ∧
     s.mayWrite 0 0 (.wpb 0) 5 = true ∧ s.mayWrite 0 0 (.wpl 0) 5 = true ∧ s.mayWrite 0 0 (.wpv 0) 5 = true ∧ s.mayWrite 0 0 (.wpm 0) 5 = true ∧
     at_.attached 0 = false ∧ (s.ctx? 0).any (·.debugger) = true) ∧ (255 < 256 ∧ 256 ≤ 256 ∧ 16 ≤ 16) := by decide +kernel

/-! Flash with four images and records 1, 2 and 4, of which every signature holds where `signed` says so (log 19) -/
def records : List FlashItem := [1, 2, 4].map fun k => .record ((k : Byte) :: List.replicate 15 0)
def flashed (state : Nat) : State := { State.reset with pkg := { Package.reset with
  state, flash := [.image 0 5 [0], .image 1 5 [1], .image 2 5 [2], .image 3 5 [3]] ++ records } }
theorem witness_PackageStarts_start (h : ∀ b, Config.signed b = true) : ∀ k ∈ [0, 4, 5], let q := (flashed k).moduleReset.pkg
    (flashed k).pkg.hot = false ∧ (∀ n ∈ [0, 1, 2, 3], q.imageOk n = true) ∧ q.recordsOk = true ∧ (flashed k).pkg.state = k ∧ (flashed k).pkg.fails = 0 ∧
      (flashed k).managementPaused = false := by
  intro k hk
  have i : ∀ n v b, (flashed k).moduleReset.pkg.image n = some (v, b) → (flashed k).moduleReset.pkg.imageOk n = true := fun n v b e => by
    simp only [Package.imageOk, e, Option.map_some, Option.getD_some, h]
  have r : (flashed k).moduleReset.pkg.rawRecords = [1, 2, 4].map fun k => (k : Byte) :: List.replicate 15 0 := rfl
  have e : (flashed k).moduleReset.pkg.epochs = [] := rfl
  refine ⟨rfl, ?_, ?_, rfl, rfl, rfl⟩
  · intro n hn
    fin_cases hn
    · exact i 0 5 [0] rfl
    · exact i 1 5 [1] rfl
    · exact i 2 5 [2] rfl
    · exact i 3 5 [3] rfl
  · unfold Package.recordsOk
    simp only [r, List.map_cons, List.map_nil, Package.readRecord, h, e]
    simp (decide := true)
/-- No image of the root of trust in flash is no fault; and a start on a hot cold plate. -/
theorem witness_PackageStarts_bare : State.reset.moduleReset.pkg.image 0 = none ∧ ({ State.reset with pkg := { Package.reset with hot := true } } : State).pkg.hot = true ∧
    State.reset.pkg.state = 0 ∧ State.reset.pkg.fails = 0 := by decide
def oldImage : Firmware := { kind := 2, version := 4, bytes := [9] }
def newImage : Firmware := { kind := 2, version := 5, bytes := [2] }
/-- Firmware of kind 2 about to be replaced: before the pause, and in it. -/
def updating (pause : Option Pause) : State := { flashed 4 with pkg := { (flashed 4).pkg with firmware := [oldImage], pause } }
/-- A replacement that has been silent for more than 50 ms in its first second, and one whose second is over. -/
def silent (clk beat : Nat) (pause : Option Pause := none) : State := { State.reset with
  clk := .ofNat 64 clk, pkg := { Package.reset with state := 4, firmware := [newImage], replacing := [{ kind := 2, old := oldImage, since := 0, beat }], pause } }
theorem witness_PackageStarts :
    (∀ k ∈ [4, 5], ((flashed k).pkg.state = 4 ∨ (flashed k).pkg.state = 5) ∧ (flashed k).managementPaused = false) ∧
    (∀ x ∈ [none, some { new := newImage, since := 0, back := false }], let s := updating x
      s.pkg.state = 4 ∧ s.pkg.firmware.find? (·.kind == 2) = some oldImage ∧ FlashItem.image 2 5 [2] ∈ s.pkg.flash ∧ s.pkg.pause = x ∧ s.held = []) ∧
    (((flashed 4).pkg.flash.filter (fun x => !sameItem x (.image 1 6 [])) ++ [FlashItem.image 1 6 []]).map FlashItem.size).sum ≤ 2 ^ 26 ∧
    (∃ x, (silent 70000000 0).pkg.replacing = [x] ∧ (silent 70000000 0).clk.toNat ≤ x.beat + 70000000) ∧
    (∃ x, (silent 70000001 0).pkg.replacing = [x] ∧ (silent 70000001 0).pkg.pause = none ∧ x.beat + 70000000 < (silent 70000001 0).clk.toNat ∧ x.beat + 70000000 < x.since + 1400000000) ∧
    (let s := silent 70000001 0 (some { new := oldImage, since := 70000001, back := true })
     (∃ x, s.pkg.replacing = [x]) ∧ ∃ y f, s.pkg.pause = some y ∧ y.back = true ∧ s.pkg.firmware.find? (·.kind == y.new.kind) = some f) ∧
    (∃ x, (silent 1500000000 1330000000).pkg.replacing = [x] ∧ (silent 1500000000 1330000000).pkg.pause = none ∧
      x.beat + 70000000 < (silent 1500000000 1330000000).clk.toNat ∧ x.since + 1400000000 ≤ x.beat + 70000000) ∧
    (((State.reset.modDie 7 fun d => { d with clockSteps := 26 }).die 7).clockSteps + 1 < 28 ∧ 28 ≤ ((State.reset.modDie 7 fun d => { d with clockSteps := 27 }).die 7).clockSteps + 1) := by
  refine ⟨by decide, by decide +kernel, by decide +kernel, ⟨_, rfl, by decide +kernel⟩, ⟨_, rfl, by decide, by decide +kernel, by decide +kernel⟩, ⟨⟨_, rfl⟩, _, _, rfl, rfl, rfl⟩,
    ⟨_, rfl, by decide, by decide +kernel, by decide +kernel⟩, by decide +kernel⟩
theorem witness_PackageStarts_beats : State.reset.pkg.replacing = [] ∧ (let s := silent 70000000 0
    ({ s with pkg := { s.pkg with replacing := s.pkg.replacing ++ s.pkg.replacing } } : State).pkg.replacing ≠ []) := by decide

/-- The VF of the context, in RUN and not, and a second VF without a context. -/
def hosting (running : Bool) : State := { idle with vfs := [{ id := 0, ctx := some 0, running }] }
theorem witness_HostAccesses : ∀ run ∈ [false, true], let s := hosting run
    s.pkg.state = 4 ∧ (s.vf? 0).any (fun v => v.ctx == some 0 && v.running == run) = true ∧ (s.vf? 1).isNone = true ∧ s.poison = [] ∧ (∀ t ∈ s.threads, t.wait = none) ∧
    s.mem.wf = true ∧ (s.ctx? 0).any (fun c => decide (c.evCons < 2 ^ 64) && decide (0x1038 + 8 ≤ c.par.bar2Size)) = true ∧ (0xFF8 + 8 : Nat) ≤ 0x1000 ∧ 0x1018 + 8 ≤ 0x4000 ∧
    (match s.walk 0 0x1038 with
      | some (leaf, shift) => [false, true].all fun w => match (s.leafXlat 0 0x1038 leaf shift w).2 with
        | .ok (.dev a) _ => a == 0x1038
        | _ => false
      | none => false) = true ∧ 0x1038 % 64 + 8 ≤ 64 := by decide +kernel
/-- The same context with a race ring, whose block stands at 0x3000: a write of its last word. -/
def ringing (running : Bool) : State := { hosting running with contexts := (hosting running).contexts.map fun c => { c with raceRing := some { base := 0x4000, entries := 16, block := 0x3000 } } }
theorem witness_HostAccesses_ring : ∀ run ∈ [false, true], let s := ringing run
    s.pkg.state = 4 ∧ (s.vf? 0).any (fun v => v.ctx == some 0 && v.running == run) = true ∧ s.poison = [] ∧ (∀ t ∈ s.threads, t.wait = none) ∧ s.mem.wf = true ∧
    0x1040 ≤ 0x1078 ∧ 0x1078 + 8 ≤ 0x1080 ∧ ((s.ctx? 0).bind (·.raceRing)).any (fun r => match s.walk 0 (r.block + (0x1078 - 0x1040)) with
      | some (leaf, shift) => match (s.leafXlat 0 (r.block + (0x1078 - 0x1040)) leaf shift true).2 with
        | .ok (.dev a) _ => a == 0x3038
        | _ => false
      | none => false) = true := by decide +kernel

/-- A flit of the first sequence number with a payload and a right CRC, and one with a wrong one. -/
def aFlit : List Byte := let l : List Byte := [1, 0x10, 0, 0] ++ List.replicate 56 7; l ++ leBytes 4 (crc32c l).toNat
def badFlit : List Byte := aFlit.take 63 ++ [(aFlit.getD 63 0) + 1]
def aPort : FPort := { id := 3, state := 2, narrow := true, replay := [(1, []), (2, [])] }
def fabric : State := { idle with clk := 1400000, ports := [aPort], peers := [{ num := 5, mask := 8, module := 1, ctx := 0 }] }
theorem witness_FabricPorts : fabric.port? 3 = some aPort ∧ fabric.fabricPaused = false ∧ aPort.state = 2 ∧ (fabric.ctx? 0).isSome = true ∧ aFlit.length = 64 ∧ badFlit.length = 64 ∧ ofLe (aFlit.drop 60) = (crc32c (aFlit.take 60)).toNat ∧
    ofLe (aFlit.take 4) % 2 ^ 12 = (aPort.rxSeq + 1) % 4096 ∧ ofLe (badFlit.drop 60) ≠ (crc32c (badFlit.take 60)).toNat ∧ (aPort.replay.filter fun f => !seqLe f.1 1) ≠ [] ∧
    aPort.replay ≠ [] ∧ aPort.lastAck + 1400000 ≤ fabric.clk.toNat ∧ aPort.narrow = true ∧ (fabric.ports.map (·.id)).Nodup ∧ aPort.replay.length < 2048 ∧
    (match fabric.walk 0 0x1038 with
      | some (leaf, shift) => [false, true].all fun w => match (fabric.leafXlat 0 0x1038 leaf shift w).2 with
        | .ok (.dev a) _ => a == 0x1038
        | _ => false
      | none => false) = true := by decide +kernel
/-- The one live port of the peer carries every line. -/
theorem witness_FabricPorts_peer (line : Nat) : fabric.peerPort 5 line = some aPort := by
  have p : (fabric.peers.find? fun x => x.num == 5) = some { num := 5, mask := 8, module := 1, ctx := 0 } := by decide +kernel
  have l : (fabric.ports.filter fun x => bit 8 x.id && x.state == 2) = [aPort] := by decide +kernel
  simp only [State.peerPort, p, l]
  simp [Nat.mod_one]

/-- Atomics of each operation, PUBLISH and FENCE as hinges of the lane. -/
def hingeOf (h : Hinge) : State := { at_ with bundles := at_.bundles.map fun b => { b with lanes := b.lanes.map fun l => { l with hinge := some h } } }
theorem witness_AtomicsPerform : (∀ h ∈ [Hinge.atom 8 .i64 1012 (2 ^ 64) (.dev 0x1000) 0x1000 ⟨.plain, .dev, .generic, .dflt, .dflt⟩ .dflt 1, .publish 1014 (.host 0 0x1000),
      .fence .sc .sys], (hingeOf h).viewOf placedPort 0 |>.any (fun v => v.l.hinge == some h && ((hingeOf h).thread? v.t.r).isSome) = true) ∧
    (let s := hingeOf (.fence .sc .sys)
     s.oplog = [] ∧ s.blocks = [] ∧ s.out = [] ∧ s.poison = [] ∧ (∀ t ∈ s.threads, t.wait = none) ∧ s.mem.wf = true ∧ s.hostMem.wf = true) ∧
    (fdec .f32 0x3F800000).isNan = false ∧ (0x3F800000 : Nat) < 2 ^ Ty.width .f32 := by decide +kernel
/-- A matrix command in the pond, and two uniform registers written. -/
def pondOfOne : State := { at_ with bundles := at_.bundles.map fun b => { b with lanes := b.lanes.map fun l =>
  { l with pond := [.eng 4 (.matrix .mma 3 .f32 0x20800 placedGid 0x100 placedGid 0x200 ⟨0, 0, 0, 0, 0, 0, 0, 0, 0, 0, 0⟩)], gsets := [(0, 5), (383, 6)] } } }
theorem witness_CommandsAtCommit : pondOfOne.oplog = [] ∧ pondOfOne.blocks = [] ∧ pondOfOne.out = [] ∧ (∀ t ∈ pondOfOne.threads, t.wait = none) ∧
    (pondOfOne.group? placedGid).any (fun g => g.scr.wf && sWf g.uni) = true ∧
    (pondOfOne.viewOf placedPort 0).any (fun v => v.t.homeGid == placedGid && v.l.engs.length == 1 && decide ((v.l.gsets.map (·.1)).Nodup)) = true := by decide +kernel

/-! Witnesses of further clauses -/

/-- A source register in a poisoned line of the pool (R290). -/
def poisonedReg : State := oneMember fun t => { t with badRegs := [6] }
theorem witness_SourcesAndFields_poisoned : viewOk poisonedReg (fun v => wfBool (.ineg (fa .i32 7 6)) && (outOfRange (.ineg (fa .i32 7 6)) v.t).isNone &&
    (srcsOf (.ineg (fa .i32 7 6))).all v.srcReady && (regsRead v.l (srcsOf (.ineg (fa .i32 7 6)))).any v.t.badRegs.contains) = true := by decide +kernel
theorem test_poisoned_register : (match exec (.ineg (fa .i32 7 6)) poisonedReg with
    | .next t => (t.run? 0).map (·.cir.toNat % 2)
    | _ => none) = some 1 := by decide +kernel

/-- Events from outside that wait (log 100). -/
theorem witness_StepRunsTheInstruction_waiting : (let s : State := { State.reset with waiting := [.thermalTrip, .heartbeat] }
    s.agenda = [] ∧ s.waiting = .thermalTrip :: [.heartbeat]) := by decide

/-- Whether the one lane of a bundle is at its commit (`AtCommit`), with the registers of its commit free (`RegistersFree`). -/
def atCommit (s : State) (P : View → Bool) : Bool :=
  match s.bundle? placedPort, s.viewOf placedPort 0 with
  | some b, some v =>
    let link := tLink v.tr.tword.toNat
    let kind := tKind v.tr.tword.toNat
    b.lanes == [v.l] && decide (v.tr.len < v.l.at_) && v.t.status == .issuing placedPort && v.l.stage == 0 && v.l.hinge == none && v.l.posted == [] &&
      v.l.gsets == [] && v.l.progs == [] && v.l.notes == [] && v.l.scReads == [] && v.l.tret == none && v.l.tstatW == none && v.l.pselW == none &&
      decide (v.l.passes ≤ v.l.pass + 1) && s.runs.all (!·.failing) && v.t.badRegs.isEmpty && v.tr.results.all (!v.t.fills.contains ·) &&
      v.l.res.all (fun h => !v.t.fills.contains h.code) && !v.t.fills.contains link && !v.t.fills.contains (link + 1) &&
      (kind != 2 || (!v.t.isEmpty link && !v.t.isEmpty (link + 1))) && !v.l.abort && (s.core 0).trace.isNone && decide ((v.l.res.map (·.code)).Nodup) &&
      sWf v.t.regs && P v
  | _, _ => false
/-- The trace ends with a successor of a kind, with the pair v10, v11; and its lane has a store in its pond, an sc one too. -/
def doneWith (kind : Nat) (stores : List Store := []) : State := { done with bundles := done.bundles.map fun b => { b with
  trace := b.trace.map (fun t => { t with tword := .ofNat 64 (0xE1 * 2 ^ 56 + kind * 2 ^ 53 + 10 * 2 ^ 43) })
  lanes := b.lanes.map fun l => { l with pond := stores.map .store } } }
theorem witness_CommitOfOneLane_kinds : ∀ kind ∈ [0, 1, 2, 3, 4, 5], atCommit (doneWith kind) (fun v => tKind v.tr.tword.toNat == kind && v.l.pond.isEmpty) = true ∧
    ((doneWith kind).run? 0).isSome = true := by decide +kernel
theorem witness_CommitOfOneLane_stores : ∀ kind ∈ [0, 1], let s := doneWith kind [aStore, { aStore with place := .dev 0x1004, ord := .sc }]
    atCommit s (fun v => v.l.engs.isEmpty && v.l.stores.length == 2 && (s.outstanding v.t.r).isEmpty && (s.watchHit v).isNone &&
      decide (s.queueUsed 0 0 + queueEntries v.l.stores ≤ Config.storeQueue)) = true := by decide +kernel
/-- CALL: its pair gets the address after the trace, and the thread goes where T names; IND goes where its pair points (R28, R29). -/
theorem test_commit_call : (match exec (.commit placedPort) (doneWith 3) with
    | .next u => (u.thread? 0).map fun t => ((t.reg 10).toNat + 2 ^ 32 * (t.reg 11).toNat == (((doneWith 3).viewOf placedPort 0).map (·.tr.after)).getD 0, t.pc.toNat)
    | _ => none) = some (true, placedThread.pc.toNat) := by decide +kernel
theorem test_commit_exit : (match exec (.commit placedPort) (doneWith 4) with
    | .next u => (u.threads.length, (u.run? 0).map (·.exited))
    | _ => (9, none)) = (0, some 1) := by decide +kernel

/-- A walk of the first page of the host window: the host presents it, has refused it, or is still to be asked. -/
def hostWalk (s : State) : State := { s with diesS := [{ id := 0, misses := [{ ctx := 0, page := hostBase / 4096, waiters := [(0, 0)] }] }] }
theorem witness_LoadsComplete_host : (∀ s ∈ [hosted, { at_ with priBad := [(0, 0, walkerAgent 0 0)] }, at_],
      (((hostWalk s).die 0).misses.take 64).find? (fun m => m.ctx == 0 && m.page == hostBase / 4096) = some { ctx := 0, page := hostBase / 4096, waiters := [(0, 0)] } ∧
      ((hostWalk s).ctx? 0).isSome = true) ∧
    ((hostWalk hosted).hostAsk 0 0 false (walkerAgent 0 0)).2 = .ok (.host 0 0) false ∧
    ((hostWalk { at_ with priBad := [(0, 0, walkerAgent 0 0)] }).hostAsk 0 0 false (walkerAgent 0 0)).2 = .fault 0x0C 2 ∧
    ((hostWalk at_).hostAsk 0 0 false (walkerAgent 0 0)).2 = .wait := by decide +kernel

/-- MDRN of one row of an f32 tile, which it resets: two elements, as they stand, as bf16, and as KD8; and of an i32 tile. -/
def drainCmd (fmt : Ty) (fword : Nat) : MCmd := { aCmd .mdrn with fmt, fword, blk := { (default : DrainBlock) with outGid := placedGid, outOff := 0x800, barGid := placedGid, barOff := 0x40 } }
theorem witness_EnginesWork_drain : ∀ c ∈ [drainCmd .f32 0x40008, drainCmd .f32 0x40048, drainCmd .f32 0x40088, drainCmd .i8 0x40008],
    (let s := withGroup fun g => { g with mq := [c] }
     (s.group? placedGid).any (fun g => !g.dissolved && g.resident && !(s.core g.home).gated && clusterOfCore g.home == 0 && g.drain.isNone && sWf g.tiles &&
        sWf g.rowFlags && s.groups == [g] && g.mq == [c] && g.badTile.isEmpty) = true ∧ s.poison = []) ∧ (c.rows.map MRow.row).Nodup ∧
      fwNcol c.fword ≤ 64 ∧ mdrnWordOk c.fmt c.fword = true ∧ c.fword.testBit 3 = true ∧
    (let s := withGroup fun g => { g with drain := some { cmd := c, bytes := 8, writes := [(placedGid, 0x800, [1, 2])], shown := [] } }
     (s.group? placedGid).any (fun g => g.drain.isSome && !g.dissolved && g.resident && !(s.core g.home).gated && g.resets == c.resets && sWf g.rowFlags &&
        sWf g.tiles && g.badTile.isEmpty) = true ∧ c.blk.barGid = placedGid ∧ (c.rows.map (·.r)).Nodup) := by decide +kernel

/-- A signal at a barrier object whose line is poisoned. -/
theorem witness_StoresPerform_signal : (let s := { at_ with poison := [.scr placedGid 0x40] }
    (s.group? placedGid).any (fun g => g.resets == (aSignal 0).resets) = true ∧ (s.run? 0).isSome = true ∧ s.poison.contains (Place.scr placedGid 0x40).line = true) := by
  decide +kernel
/-- A slot that its lane has just performed, and the pipe whose check it takes (R166). -/
theorem witness_ReportsOfCores_slot :
    (let s : State := { replayed with bundles := replayed.bundles.map fun b => { b with trace := b.trace.map fun t => { t with slots := [0x3E7000014000002A] } } }
     (s.issuingView 0).any (fun v => 1 + 1 == v.l.at_ && [0, 1, 2].any fun pipe => (v.slotResult 1 pipe).isSome) = true) := by decide +kernel

/-- A line of a register, of a tile and of scratch that is named, while no drained store lies in it; a port outside a peer's new mask; commands in the
pauses of dispatch and of management. -/
def pausing (kind : Nat) : State := { idle with pkg := { idle.pkg with pause := some { new := { kind, version := 0, bytes := [] }, since := 0, back := false } } }
theorem witness_ContextsAndMemory_rest :
    ((∀ o ∈ at_.out, o.st.place.line ≠ .dev 0) ∧ (at_.thread? 0).any (fun t => t.badRegs.isEmpty && sWf t.regs) = true ∧
      (at_.group? placedGid).any (fun g => sWf g.tiles && g.scr.wf && decide (1 ≤ 512 * (({ g with tile := 1 } : Group).tile))) = true) ∧
    (pausing 1).managementPaused = true ∧ (pausing 1).way .log = some .mailbox ∧
    ((pausing 2).managementPaused = false ∧ (pausing 2).dispatching = false ∧ (pausing 2).pkg.state = 4 ∧ (pausing 2).waiting = [] ∧ ((pausing 2).ctx? 0).isSome = true) ∧
    idle.encFits (idle.applyEdits 0 []) 0 [] = true ∧ bare.encFits (bare.addContext creation) 0 creation.table = true := by decide +kernel

/-- A halted thread whose trace has committed with EXIT behind a wait. -/
theorem witness_DebuggerActs_ending : (let s := oneMember (fun t => { t with ending := some .exit }) haltedOne
    (s.thread? 0).any (fun t => t.status == .halted && t.wait.isNone && t.held.isEmpty && t.ending == some .exit && !s.stopping 0 t.ctx && !s.failing t.run &&
      (s.ctx? t.ctx).any (·.debugger)) = true) ∧ debugOk (.traceOff 256) = false ∧ debugOk (.trial 0 0 256) = false ∧ (at_.ctx? 0).any (fun c => !c.debugger && !c.profiler) = true := by
  decide +kernel

/-- Reads through BAR0: of a submission page that is poisoned too; of the capability list. A write of BAR2 to a page of the host, which is asked for. -/
def hostPaged : State := { encrypted [] with mem := [(0x20000, 0x01), (0x20001, 0x10), (0x20002, 0x02), (0x21000, 0x01), (0x21001, 0x20), (0x21002, 0x02), (0x22000, 0x03), (0x22001, 0x41)]
                                             vfs := [{ id := 0, ctx := some 0, running := false }], encSpaces := [] }
theorem witness_HostAccesses_reads : (let s := { hosting false with poison := [(Place.dev (params.subPage + 0xFC0)).line] }
      (s.ctx? 0).any (fun c => c.par.subPage % 64 == 0 && s.poison.contains (Place.dev (c.par.subPage + 0xFF8)).line) = true ∧ 0xFF8 % 64 + 8 ≤ 64) ∧
    (State.reset.capRead 0x100).isSome = true ∧ (∃ l ∈ (flashed 4).pkg.links.map (fun l => { l with up := true }), l.up = true) ∧
    (match hostPaged.walk 0 0x1038 with
      | some (leaf, shift) => (hostPaged.leafXlat 0 0x1038 leaf shift true hostAgent).2 == .wait
      | none => false) = true ∧ hostPaged.waiting = [] ∧ (hostPaged.vf? 0).any (·.ctx == some 0) = true := by decide +kernel

/-- Flits of each type, with the next number; a port whose replay buffer has room and one with and without credits; a peer that asks for what is not there. -/
def flitOf (type : Nat) : List Byte := let l : List Byte := [1, .ofNat 8 (16 * type), 0, 0] ++ List.replicate 56 7; l ++ leBytes 4 (crc32c l).toNat
theorem witness_FabricPorts_flits : (∀ type ∈ [0, 1, 2, 3, 4], (flitOf type).length = 64 ∧ ofLe ((flitOf type).drop 60) = (crc32c ((flitOf type).take 60)).toNat ∧
      ofLe ((flitOf type).take 4) % 2 ^ 12 = (aPort.rxSeq + 1) % 4096 ∧ ofLe ((flitOf type).take 4) / 2 ^ 12 % 16 = type) ∧
    aPort.again < 15 ∧ aPort.queue = [] ∧ aPort.rxSeq < 4096 ∧ (aPort.replay.filter fun f => !seqLe f.1 0) ≠ [] ∧
    ({ aPort with rxSeq := 1 } : FPort).rxSeq < 4096 ∧ ofLe ((flitOf 1).take 4) % 2 ^ 12 ≠ (1 + 1) % 4096 ∧ seqLe (ofLe ((flitOf 1).take 4) % 2 ^ 12) 1 = true ∧
    aPort.credits = 0 ∧ 0 < ({ aPort with credits := 1 } : FPort).credits ∧ fabric.ctx? 1 = none ∧ fabric.waiting = [] ∧
    ({ fabric with pkg := { fabric.pkg with pause := some { new := { kind := 3, version := 0, bytes := [] }, since := 0, back := false } } } : State).fabricPaused = true := by
  decide +kernel
/-- A flit that is taken is acknowledged by an idle flit; one that is damaged is answered by a NAK (R377, R378). -/
theorem test_flit_answers : ([aFlit, badFlit].map fun b => match exec (.flitReceive 3 b) fabric with
    | .next t => (t.port? 3).map fun x => (x.replay.drop 2).map fun f => (ofLe (f.2.take 4) / 2 ^ 12 % 16, ofLe (f.2.take 4) / 2 ^ 16 % 2 ^ 12)
    | _ => none) = [some [(0, 1)], some [(4, 0)]] := by decide +kernel

/-- The digest of "abc" that FIPS 180-4 gives: ba7816bf 8f01cfea 414140de 5dae2223 b00361a3 96177a9c b410ff61 f20015ad. -/
theorem test_sha256_abc : sha256 [0x61, 0x62, 0x63] = 0xad1500f261ff10b49c7a1796a36103b02322ae5dde404141eacf018fbf1678ba := by decide +kernel

end Sys2Proof.Tests
end

section
/-! SUPPORT. Every step answers a next state: an event by its own definition, a slot instruction because `issue` executes it only for a lane that
stands at its slot, and what happens before the word leaves the lane there. -/

namespace Sys2Proof.Machine

open Sys2Proof

/-! Outcomes of the instructions -/

/-- The outcome of an instruction: a next state, unless it is a slot instruction and no lane stands at a slot. -/
def Answers (i : Instr) (s : State) (o : Host.Outcome State Fault Refusal) : Prop :=
  (∃ t, o = .next t) ∨ (isEvent i = false ∧ s.view = none)

theorem answers_next (i : Instr) (s t : State) : Answers i s (.next t) := .inl ⟨t, rfl⟩

theorem answers_runSlot {i : Instr} (hi : isEvent i = false) (j : Instr) (s : State) (k : State → View → List Nat → Act) :
    Answers i s (runSlot j s k) := by
  cases hv : s.view with
  | none => exact .inr ⟨hi, hv⟩
  | some v => rw [runSlot_next hv]; exact answers_next ..

theorem answers_runCross {i : Instr} (hi : isEvent i = false) (j : Instr) (s : State) (t : Ty)
    (res : List Peer → Peer → Nat × Flags) : Answers i s (runCross j s t res) := by
  unfold runCross
  split
  · exact .inr ⟨hi, ‹_›⟩
  · split <;> exact answers_next ..

theorem answers_runVote {i : Instr} (hi : isEvent i = false) (s : State) (peers : State → View → List (View × Instr))
    (chk : State → Peer → Except FaultInfo (Nat × Nat × Nat × Nat)) (word : Peer → Nat) (ok : Nat → Bool)
    (fin : State → Peer → Nat × Nat × Nat × Nat → Except FaultInfo EngCmd)
    (reads : State → Peer → Nat × Nat × Nat × Nat → State) : Answers i s (runVote s peers chk word ok fin reads) := by
  unfold runVote
  split
  · exact .inr ⟨hi, ‹_›⟩
  · split <;> exact answers_next ..

/-- A word stands behind its P word. -/
theorem withP_isEmpty (p : Option PWord) (w : Nat) : (withP p w).isEmpty = false := by cases p <;> rfl

/-- Each instruction's outcome: an event's is a next state by its definition; a slot instruction takes one of the three shared paths. -/
theorem answers_exec (i : Instr) (s : State) : Answers i s (exec i s) := by
  cases i with
  | bundleFormation | promotion | traceFetch | commit | postedLoadFill | deferredFault | pageWalkComplete | priResponse
  | storeBlockDrain | waitvTimeoutCheck | replayCheck | syncPacket | pcSample | hangEvent | barrierObjectHang | tileStep
  | drainComplete | copyCommandStart | copyCommandComplete | haloStart | flumeSlotWrite | ldxTransferComplete | mailboxSignal
  | swapOut | groupRestore | sliceBoundary | stopRequest | submission | breuzTranslation | nodeStart | threadCreate | nodeRunEnd
  | patrolScrub | reencryption | create | destroy | inval | race | peer | debug | debugResume | debugResumeOneTimePass | slotStep
  | debugAbandon | image | install | start | log | powerOnStart | heartbeat | heartbeatMiss | thermalTrip | throttle | getVersion
  | getCapabilities | negotiateAlgorithms | getDigests | getCertificate | challenge | getMeasurements | hostPostedWrite | bar2Read
  | bar2Write | bar2Atomic | flitReceive | nakReplay | ackTimeout | laneLoss | peerRequest | registerWrite | debugHalt | hingeFill
  | storePerformedAtHome | roundBoundary | powerGating | coreReset | healthMonitorUpdate | tdispRequest => exact answers_next ..
  | shfl | xred | scan | vote => exact answers_runCross (by exact withP_isEmpty ..) ..
  | mma f => unfold exec execMma; exact answers_runVote rfl ..
  | mdrn f => unfold exec execMdrn; exact answers_runVote rfl ..
  | ld | st | pref | ptog | ldx | fence | waitv | publish | atomAdd | atomSub | atomMin | atomMax | atomAnd | atomOr | atomXor
  | atomExch | atomCas | atomFadd | atomFmin | atomFmax | gnew | join | leave | gbar | grank | gsize | gset =>
    exact answers_runSlot (by exact withP_isEmpty ..) ..
  | _ => exact answers_runSlot rfl ..

theorem exec_next_of_isEvent {i : Instr} (h : isEvent i = true) (s : State) : ∃ t, exec i s = .next t :=
  (answers_exec i s).resolve_right fun hn => by simp [h] at hn

theorem exec_next_of_view {s : State} (h : s.view.isSome = true) (i : Instr) : ∃ t, exec i s = .next t :=
  (answers_exec i s).resolve_right fun hn => by simp [hn.2] at h

/-! A lane stands at its slot still after what happens before its word is executed -/

/-- What a view needs of a state. -/
theorem viewOf_isSome_iff (s : State) (p : PortId) (r : Nat) : (s.viewOf p r).isSome = true ↔
    ∃ b l, s.bundle? p = some b ∧ b.trace.isSome = true ∧ b.lane? r = some l ∧ (s.thread? r).isSome = true ∧ l.active = true := by
  unfold State.viewOf
  cases s.bundle? p with
  | none => simp
  | some b => cases ht : b.trace <;> cases hl : b.lane? r <;> cases s.thread? r <;> simp [ht, hl]

/-- A search after a change that keeps what is searched for. -/
theorem find?_map_of_keeps {α : Type} {p : α → Bool} {g : α → α} (h : ∀ x, p (g x) = p x) (l : List α) :
    (l.map g).find? p = (l.find? p).map g := by
  rw [List.find?_map, show p ∘ g = p from funext h]

theorem thread?_modThread (s : State) (q r : Nat) (f : Thread → Thread) (hf : ∀ t, (f t).r = t.r) :
    (s.modThread q f).thread? r = (s.thread? r).map fun t => if t.r = q then f t else t := by
  refine find?_map_of_keeps (fun t => ?_) s.threads
  split <;> simp [hf]

theorem bundle?_modBundle (s : State) (q p : PortId) (f : Bundle → Bundle) (hf : ∀ b, (f b).p = b.p) :
    (s.modBundle q f).bundle? p = (s.bundle? p).map fun b => if b.p = q then f b else b := by
  refine find?_map_of_keeps (fun b => ?_) s.bundles
  split <;> simp [hf]

theorem viewOf_isSome_modThread {s : State} {p : PortId} {r : Nat} (h : (s.viewOf p r).isSome = true) (q : Nat)
    (f : Thread → Thread) (hf : ∀ t, (f t).r = t.r) : ((s.modThread q f).viewOf p r).isSome = true := by
  rw [viewOf_isSome_iff] at h ⊢
  rw [thread?_modThread s q r f hf, Option.isSome_map]
  exact h

/-- A change of what counts in a bundle leaves its lanes where they stand. -/
theorem viewOf_isSome_modBundle {s : State} {p : PortId} {r : Nat} (h : (s.viewOf p r).isSome = true) (q : PortId)
    (f : Bundle → Bundle) (hf : ∀ b, (f b).p = b.p ∧ (f b).trace = b.trace ∧ (f b).lanes = b.lanes) :
    ((s.modBundle q f).viewOf p r).isSome = true := by
  rw [viewOf_isSome_iff] at h ⊢
  obtain ⟨b, l, hb, ht, hl, hr, ha⟩ := h
  obtain ⟨-, htr, hls⟩ := hf b
  refine ⟨if b.p = q then f b else b, l, ?_, ?_, ?_, hr, ha⟩
  · rw [bundle?_modBundle s q p f fun b => (hf b).1, hb, Option.map_some]
  · split <;> simp only [htr, ht]
  · split <;> simpa only [Bundle.lane?, hls] using hl

/-- Views depend on bundles and threads alone. -/
theorem viewOf_congr {s t : State} (hb : t.bundles = s.bundles) (ht : t.threads = s.threads) (p : PortId) (r : Nat) :
    t.viewOf p r = s.viewOf p r := by
  simp only [State.viewOf, State.bundle?, State.thread?, hb, ht]

@[simp] theorem viewOf_modPart (s : State) (c q : Nat) (f : PartCounters → PartCounters) (p : PortId) (r : Nat) :
    (s.modPart c q f).viewOf p r = s.viewOf p r := viewOf_congr (modPart_bundles ..) (modPart_threads ..) p r

theorem viewOf_isSome_closeBanks {s : State} {p : PortId} {r : Nat} (h : (s.viewOf p r).isSome = true) (q : PortId) :
    ((s.closeBanks q).viewOf p r).isSome = true := by
  have hm := viewOf_isSome_modBundle h q (fun b => { b with banks := [] }) fun _ => ⟨rfl, rfl, rfl⟩
  unfold State.closeBanks
  split
  · exact h
  · dsimp only
    split
    · exact h
    · split
      · exact hm
      · rwa [viewOf_modPart]

theorem viewOf_isSome_countIssue {s : State} {p : PortId} {r : Nat} (h : (s.viewOf p r).isSome = true) (v : View) :
    ((s.countIssue v).viewOf p r).isSome = true := by
  have hm := viewOf_isSome_modBundle (viewOf_isSome_closeBanks h v.p) v.p
    (fun b => { b with counted := v.l.at_, issue := s.seq }) fun _ => ⟨rfl, rfl, rfl⟩
  unfold State.countIssue
  dsimp only
  split
  · exact h
  · split
    · exact hm
    · rwa [viewOf_modPart]

/-- What no step of a fold changes, the fold does not change. -/
theorem foldl_keeps {α β γ : Type} (g : β → γ) {f : β → α → β} (hf : ∀ b a, g (f b a) = g b) (l : List α) (b : β) :
    g (l.foldl f b) = g b :=
  (List.foldl_hom g fun b a => (hf b a).symm).symm.trans (List.foldl_fixed l)

theorem mergePair_r (t : Thread) (x : Nat × Nat) : (mergePair t x).r = t.r := by
  unfold mergePair
  split
  · rfl
  · split <;> rfl

theorem merge_r (t : Thread) (st : Stamp) : (t.merge st).r = t.r := by
  have hm : (st.entries.foldl mergePair t).r = t.r := foldl_keeps Thread.r mergePair_r _ _
  unfold Thread.merge
  dsimp only
  split <;> exact hm

theorem viewOf_isSome_endHold {s : State} {p : PortId} {r : Nat} (h : (s.viewOf p r).isSome = true) (t : Thread) :
    ((s.endHold t).viewOf p r).isSome = true := by
  have hm : ((if t.hold.merge then s.mergePending t.r else s).viewOf p r).isSome = true := by
    split
    · exact viewOf_isSome_modThread h t.r _ fun t => foldl_keeps Thread.r merge_r _ t
    · exact h
  unfold State.endHold
  dsimp only
  split
  · exact hm
  · exact viewOf_isSome_modThread hm t.r _ fun _ => rfl

theorem viewOf_isSome_endHolds {p : PortId} {r : Nat} (l : List View) {s : State} (h : (s.viewOf p r).isSome = true) :
    ((l.foldl (fun (s : State) x => s.endHold x.t) s).viewOf p r).isSome = true := by
  induction l generalizing s with
  | nil => exact h
  | cons x l ih => exact ih (viewOf_isSome_endHold h x.t)

/-! The step -/

theorem viewOf_key {s : State} {p : PortId} {r : Nat} {v : View} (h : s.viewOf p r = some v) : v.p = p ∧ v.t.r = r := by
  have hv : ({ s with cur := some (p, r) } : State).view = some v := h
  obtain ⟨hc, -⟩ := view_spec hv
  cases hc
  exact ⟨rfl, rfl⟩

/-- An instruction that a lane's word hands on is executed where the lane stands. -/
theorem issueWord_view {s t : State} {v : View} {i : Instr} (h : (s.viewOf v.p v.t.r).isSome = true)
    (he : s.issueWord v = .run i t) : t.view.isSome = true := by
  unfold State.issueWord at he
  dsimp only at he
  split at he
  · cases he
  · split at he
    · split at he <;> cases he
    · split at he
      · cases he
      · cases he
        exact viewOf_isSome_countIssue h v

theorem issue_view {s t : State} {p : PortId} {r : Nat} {i : Instr} (he : s.issue p r = .run i t) : t.view.isSome = true := by
  unfold State.issue at he
  split at he
  · cases he
  · rename_i v hv
    obtain ⟨rfl, rfl⟩ := viewOf_key hv
    have hs : (s.viewOf v.p v.t.r).isSome = true := by rw [hv]; rfl
    dsimp only at he
    split at he
    · cases he
    · split at he
      · exact issueWord_view hs he
      · split at he
        · cases he
        · exact issueWord_view (viewOf_isSome_endHolds _ hs) he

/-- Every move is performed: an event is executed anywhere, and a slot instruction where its lane stands. -/
theorem perform_next (s : State) (m : Move) : ∃ t, s.perform m = .next t := by
  cases m with
  | event i =>
    by_cases he : isEvent i = true
    · simpa only [State.perform, he, if_true] using exec_next_of_isEvent he s
    · exact ⟨s, if_neg he⟩
  | port p =>
    unfold State.perform
    dsimp only
    split
    · exact ⟨s, rfl⟩
    · exact ⟨_, rfl⟩
    · split
      · exact ⟨_, rfl⟩
      · rename_i i t he
        obtain ⟨u, hu⟩ := exec_next_of_view (issue_view he) i
        rw [hu]
        exact ⟨_, rfl⟩
    · exact ⟨_, rfl⟩

theorem step_next (s : State) : ∃ t, step s = .next t := by
  unfold step State.stepOnce
  split
  · exact perform_next ..
  · exact ⟨_, rfl⟩

/-- Settles O36: an event answers a next state everywhere, and a slot instruction is executed for a lane that stands at its slot. -/
theorem neverStops : Obligations.NeverStops := step_next

end Sys2Proof.Machine
end

section
/-! SUPPORT. What the writes of the hardware, events and launches leave alone: the package, the launches held, and (but for a launch) the
threads. -/

namespace Sys2Proof.Machine

open Sys2Proof

/-- The package, the threads and the launches that a pause has held are the same in two states. -/
structure State.SameControl (s t : State) : Prop where
  pkg : t.pkg = s.pkg
  threads : t.threads = s.threads
  held : t.held = s.held

namespace State.SameControl

theorem refl (s : State) : s.SameControl s := ⟨rfl, rfl, rfl⟩

theorem trans {s t u : State} (a : s.SameControl t) (b : t.SameControl u) : s.SameControl u :=
  ⟨b.pkg.trans a.pkg, b.threads.trans a.threads, b.held.trans a.held⟩

theorem foldl {α : Type} {f : State → α → State} (hf : ∀ (s : State) a, s.SameControl (f s a)) (l : List α) (s : State) :
    s.SameControl (l.foldl f s) :=
  ⟨foldl_keeps State.pkg (fun s a => (hf s a).pkg) l s, foldl_keeps State.threads (fun s a => (hf s a).threads) l s,
    foldl_keeps State.held (fun s a => (hf s a).held) l s⟩

theorem putByte (s : State) (p : Place) (b : Byte) : s.SameControl (s.putByte p b) := by cases p <;> exact ⟨rfl, rfl, rfl⟩

theorem writeAt (s : State) (p : Place) (l : List Byte) : s.SameControl (s.writeAt p l) := by
  induction l generalizing s p with
  | nil => exact refl s
  | cons b l ih => exact (putByte s p b).trans (ih ..)

theorem askPeer (s : State) (l : List Byte) (p : Place) : s.SameControl (s.askPeer l p) := by
  unfold State.askPeer
  split
  · split <;> exact ⟨rfl, rfl, rfl⟩
  · exact refl s

theorem heal (s : State) (line : Place) : s.SameControl (s.heal line) := by
  unfold State.heal
  dsimp only
  split
  · split
    · exact ⟨rfl, rfl, rfl⟩
    · split <;> exact ⟨rfl, rfl, rfl⟩
  · exact ⟨rfl, rfl, rfl⟩

theorem storeLine (s : State) (run : Option Nat) (p : Place) (l : List Byte) : s.SameControl (s.storeLine run p l) := by
  have ha := askPeer s l p
  unfold State.storeLine
  dsimp only
  split
  · split
    · exact (ha.trans (writeAt ..)).trans (heal ..)
    · split
      · exact ha.trans ⟨rfl, rfl, rfl⟩
      · exact ha
  · exact ha.trans (writeAt ..)

theorem storeLines (s : State) (run : Option Nat) (n : Nat) (p : Place) (l : List Byte) : s.SameControl (s.storeLines run n p l) := by
  induction n generalizing s p l with
  | zero => exact refl s
  | succ n ih =>
    unfold State.storeLines
    split
    · exact refl s
    · exact (storeLine ..).trans (ih ..)

theorem store (s : State) (run : Option Nat) (p : Place) (l : List Byte) : s.SameControl (s.store run p l) := storeLines ..

theorem writeCtx {s t : State} {ctx va : Nat} {l : List Byte} (h : s.writeCtx ctx va l = some t) : s.SameControl t := by
  obtain ⟨p, -, rfl⟩ := Option.map_eq_some_iff.mp h
  exact store ..

theorem event (s : State) (ctx kind node arg0 arg1 : Nat) : s.SameControl (s.event ctx kind node arg0 arg1) := by
  unfold State.event
  split
  · exact refl s
  · dsimp only
    split
    · exact ⟨rfl, rfl, rfl⟩
    · split
      · rename_i h
        exact (writeCtx h).trans ⟨rfl, rfl, rfl⟩
      · exact ⟨rfl, rfl, rfl⟩

theorem eventAll (s : State) (kind arg0 arg1 : Nat) : s.SameControl (s.eventAll kind arg0 arg1) := foldl (fun _ _ => event ..) ..

theorem notePoison (s : State) (run : Nat) (b : Bool) : s.SameControl (s.notePoison run b) := by
  unfold State.notePoison
  split
  · exact ⟨rfl, rfl, rfl⟩
  · exact refl s

theorem modGraph (s : State) (k : Nat) (f : Graph → Graph) : s.SameControl (s.modGraph k f) := ⟨rfl, rfl, rfl⟩
theorem modRun (s : State) (k : Nat) (f : Run → Run) : s.SameControl (s.modRun k f) := ⟨rfl, rfl, rfl⟩
theorem enqueue (s : State) (graph idx : Nat) : s.SameControl (s.enqueue graph idx) := ⟨rfl, rfl, rfl⟩
theorem nextEpoch (s : State) (ctx : Nat) : s.SameControl (s.nextEpoch ctx) := ⟨rfl, rfl, rfl⟩

theorem acceptLaunch (s : State) (ctx run va : Nat) (p : Place) (queue : Nat) :
    s.SameControl (s.acceptLaunch ctx run va p queue).1 := by
  have hn := notePoison s run (s.meetsPoison p 64)
  unfold State.acceptLaunch
  dsimp only
  split
  · exact hn
  · split
    · split
      · exact hn
      · split
        · exact (((hn.trans (modGraph ..)).trans (enqueue ..)).trans (nextEpoch ..)).trans (modRun ..)
        · exact hn
    · exact hn

end State.SameControl

/-- The launches that a pause has held are acted on in the graphs, not in the package. -/
@[simp] theorem serveHeld_pkg (s : State) : s.serveHeld.pkg = s.pkg := by
  unfold State.serveHeld
  refine foldl_keeps State.pkg (fun t x => ?_) s.held _
  have ha := (State.SameControl.acceptLaunch t x.ctx x.run x.va x.place x.queue).pkg
  dsimp only
  split <;> exact ha

theorem serveHeld_of_nil {s : State} (h : s.held = []) : s.serveHeld = { s with held := [] } := by
  simp only [State.serveHeld, h, List.foldl_nil]

end Sys2Proof.Machine
end


section
/-! SUPPORT. The parts of a start (R357 to R361): dies, ports, images and records, and what the start comes to with each cause of failure. -/

namespace Sys2Proof.Machine

open Sys2Proof

/-! Dies -/

theorem find?_insertBy_of_not {α : Type} (key : α → Nat) (x : α) (l : List α) (p : α → Bool) (hx : p x = false) :
    (insertBy key x l).find? p = l.find? p := by
  induction l with
  | nil => simp [insertBy, hx]
  | cons y l ih =>
    unfold insertBy
    split
    · simp [hx]
    · simp only [List.find?_cons, ih]

theorem find?_insertBy_of_none {α : Type} (key : α → Nat) (x : α) (l : List α) (p : α → Bool) (hx : p x = true)
    (hl : l.find? p = none) : (insertBy key x l).find? p = some x := by
  induction l with
  | nil => simp [insertBy, hx]
  | cons y l ih =>
    obtain ⟨hy, hl⟩ : p y = false ∧ l.find? p = none := by grind
    unfold insertBy
    split
    · simp [hx]
    · simp [hy, ih hl]

/-- A die after a change of one of them. -/
theorem die_modDie (s : State) (d e : Nat) (f : Die → Die) (hf : ∀ x, (f x).id = x.id) :
    (s.modDie d f).die e = if e = d then f (s.die d) else s.die e := by
  unfold State.modDie
  split
  · rename_i ha
    have hm : ((s.diesS.map fun x => if x.id = d then f x else x).find? fun x => x.id == e) =
        (s.diesS.find? fun x => x.id == e).map fun x => if x.id = d then f x else x :=
      find?_map_of_keeps (fun x => by split <;> simp [hf]) s.diesS
    simp only [State.die, hm]
    cases he : s.diesS.find? fun x => x.id == e with
    | none =>
      have hne : e ≠ d := by rintro rfl; grind [List.find?_eq_none, List.any_eq_true]
      simp [hne]
    | some x =>
      have hx : x.id = e := by simpa using List.find?_some he
      by_cases hd : e = d
      · subst hd; simp [hx, he]
      · simp [hx, hd]
  · rename_i ha
    have hn : (s.diesS.find? fun x => x.id == d) = none := by simpa using ha
    by_cases hd : e = d
    · subst hd
      simp [State.die, hn, find?_insertBy_of_none, hf]
    · simp [State.die, hd, find?_insertBy_of_not, hf, Ne.symm hd]

/-- What no change of a die changes, powering them does not change. -/
theorem powerDies_keeps {γ : Type} (g : State → γ) (hg : ∀ (s : State) (d : Nat) (f : Die → Die), g (s.modDie d f) = g s) (s : State) (on : Bool) :
    g (s.powerDies on) = g s :=
  foldl_keeps g (fun _ _ => hg ..) _ _

@[simp] theorem powerDies_pkg (s : State) (on : Bool) : (s.powerDies on).pkg = s.pkg := powerDies_keeps _ modDie_pkg s on
@[simp] theorem powerDies_threads (s : State) (on : Bool) : (s.powerDies on).threads = s.threads := powerDies_keeps _ modDie_threads s on
@[simp] theorem powerDies_groups (s : State) (on : Bool) : (s.powerDies on).groups = s.groups := powerDies_keeps _ modDie_groups s on
@[simp] theorem powerDies_contexts (s : State) (on : Bool) : (s.powerDies on).contexts = s.contexts := powerDies_keeps _ modDie_contexts s on
@[simp] theorem powerDies_cores (s : State) (on : Bool) : (s.powerDies on).cores = s.cores := powerDies_keeps _ modDie_cores s on
@[simp] theorem powerDies_clk (s : State) (on : Bool) : (s.powerDies on).clk = s.clk := powerDies_keeps _ modDie_clk s on

theorem die_powered_foldl (l : List Nat) (s : State) (on : Bool) (d : Nat) :
    ((l.foldl (fun (s : State) d => s.modDie d fun x => { x with powered := on }) s).die d).powered = if d ∈ l then on else (s.die d).powered := by
  induction l generalizing s with
  | nil => rfl
  | cons e l ih =>
    rw [List.foldl_cons, ih, die_modDie s e d (fun x => { x with powered := on }) fun _ => rfl]
    by_cases hd : d ∈ l
    · simp [hd]
    · by_cases he : d = e <;> simp [hd, he]

theorem mem_upFrom (lo n k : Nat) : k ∈ upFrom lo n ↔ lo ≤ k ∧ k < lo + n := by
  induction n generalizing lo with
  | zero => simp [upFrom]
  | succ n ih => simp only [upFrom, List.mem_cons, ih]; omega

theorem die_powerDies (s : State) (on : Bool) {d : Nat} (hd : d < 8) : ((s.powerDies on).die d).powered = on := by
  have hm : d ∈ upFrom 0 Config.numDies := (mem_upFrom ..).mpr ⟨Nat.zero_le d, by simpa [Config.numDies] using hd⟩
  rw [State.powerDies, die_powered_foldl, if_pos hm]

/-! A start that fails -/

theorem startFails_pkg (s : State) (state reason dies : Nat) : (s.startFails state reason dies).pkg =
    { s.pkg with state := if 2 ≤ s.pkg.fails then 5 else state, fails := min 3 (s.pkg.fails + 1), reason, dies } := by
  have h3 : min 3 (s.pkg.fails + 1) = 3 ↔ 2 ≤ s.pkg.fails := by omega
  unfold State.startFails
  dsimp only
  split <;> simp only [powerDies_pkg, h3]

/-- A failed start changes the package and may power the dies off, and nothing else. -/
theorem startFails_keeps {γ : Type} (g : State → γ) (hp : ∀ (s : State) (p : Package), g { s with pkg := p } = g s)
    (hg : ∀ (s : State) (d : Nat) (f : Die → Die), g (s.modDie d f) = g s) (s : State) (state reason dies : Nat) :
    g (s.startFails state reason dies) = g s := by
  unfold State.startFails
  dsimp only
  split
  · rw [powerDies_keeps g hg, hp]
  · exact hp ..

@[simp] theorem startFails_contexts (s : State) (state reason dies : Nat) : (s.startFails state reason dies).contexts = s.contexts :=
  startFails_keeps _ (fun _ _ => rfl) modDie_contexts s state reason dies
@[simp] theorem startFails_threads (s : State) (state reason dies : Nat) : (s.startFails state reason dies).threads = s.threads :=
  startFails_keeps _ (fun _ _ => rfl) modDie_threads s state reason dies
@[simp] theorem startFails_ports (s : State) (state reason dies : Nat) : (s.startFails state reason dies).ports = s.ports :=
  startFails_keeps _ (fun _ _ => rfl) modDie_ports s state reason dies

/-- No die is powered after a start that fails for heat (R369). -/
theorem die_startFails_hot (s : State) (state dies : Nat) {d : Nat} (hd : d < 8) : ((s.startFails state 8 dies).die d).powered = false := by
  unfold State.startFails
  simp only [BEq.rfl, Bool.or_true, if_true]
  exact die_powerDies _ false hd

/-! Fabric ports -/

/-- The numbers taken so far stay distinct and within the module's ports. -/
theorem portList_foldl (l a : List Nat) (hn : a.Nodup) (hl : ∀ n ∈ a, n < 16) :
    let r := l.foldl (fun a x => if Config.fabricPorts ≤ x || a.contains x then a else a ++ [x]) a
    r.Nodup ∧ ∀ n ∈ r, n < 16 := by
  induction l generalizing a with
  | nil => exact ⟨hn, hl⟩
  | cons x l ih =>
    rw [List.foldl_cons]
    split
    · exact ih a hn hl
    · rename_i hx
      obtain ⟨hx, hm⟩ : x < 16 ∧ x ∉ a := by grind [Config.fabricPorts]
      refine ih (a ++ [x]) (hn.append (List.nodup_singleton x) (by simpa using hm)) fun n hm => ?_
      rcases List.mem_append.mp hm with h | h
      · exact hl n h
      · exact List.mem_singleton.mp h ▸ hx

theorem portList_nodup (l : List Nat) : (portList l).Nodup := (portList_foldl l [] List.nodup_nil (by simp)).1
theorem lt_of_mem_portList {l : List Nat} {n : Nat} (h : n ∈ portList l) : n < 16 := (portList_foldl l [] List.nodup_nil (by simp)).2 n h

theorem train_id (x : FPort) (tick now : Nat) : (x.train tick now).id = x.id := by unfold FPort.train; split <;> rfl
theorem train_state {x : FPort} (h : x.state = 1) (tick now : Nat) : (x.train tick now).state = 1 ∨ (x.train tick now).state = 2 := by
  unfold FPort.train
  split
  · exact .inr rfl
  · exact .inl h

/-- The body of configuration record 2 (R361). -/
def Package.portBody (p : Package) : List Byte := ((p.records.find? (·.id == 2)).map (·.body)).getD []

theorem trainPorts_ids (s : State) : s.trainPorts.ports.map (·.id) = portList (Config.portsOf s.pkg.portBody) := by
  unfold State.trainPorts Package.portBody
  simp only [List.map_map, Function.comp_def, train_id, List.map_id']

theorem trainPorts_state {s : State} {x : FPort} (h : x ∈ s.trainPorts.ports) : x.state = 1 ∨ x.state = 2 := by
  obtain ⟨n, -, rfl⟩ := List.mem_map.mp h
  exact train_state rfl ..

@[simp] theorem trainPorts_pkg (s : State) : s.trainPorts.pkg = s.pkg := rfl
@[simp] theorem trainPorts_threads (s : State) : s.trainPorts.threads = s.threads := rfl
@[simp] theorem trainPorts_groups (s : State) : s.trainPorts.groups = s.groups := rfl
@[simp] theorem trainPorts_contexts (s : State) : s.trainPorts.contexts = s.contexts := rfl
@[simp] theorem trainPorts_clk (s : State) : s.trainPorts.clk = s.clk := rfl
@[simp] theorem trainPorts_cores (s : State) : s.trainPorts.cores = s.cores := rfl
@[simp] theorem trainPorts_die (s : State) (d : Nat) : s.trainPorts.die d = s.die d := rfl

theorem trainPorts_distinct (s : State) : (s.trainPorts.ports.map (·.id)).Nodup := by
  rw [trainPorts_ids]; exact portList_nodup _

theorem trainPorts_id_lt {s : State} {x : FPort} (h : x ∈ s.trainPorts.ports) : x.id < 16 := by
  have hm : x.id ∈ s.trainPorts.ports.map (·.id) := List.mem_map.mpr ⟨x, h, rfl⟩
  rw [trainPorts_ids] at hm
  exact lt_of_mem_portList hm

/-! Images and records -/

/-- What flash must hold for a start (R357, R361): an image of each kind that verifies, but for the root of trust's, and records that all pass. -/
structure Package.Sound (p : Package) : Prop where
  management : p.imageOk 1 = true
  scheduler : p.imageOk 2 = true
  fabric : p.imageOk 3 = true
  root : p.image 0 = none ∨ p.imageOk 0 = true
  records : p.recordsOk = true

/-- With such a flash a start fails only at the step that the event names. -/
theorem startFault_sound {p : Package} (h : p.Sound) (n reason : Nat) :
    p.startFault n reason = if 1 ≤ n ∧ n ≤ 5 then some (n, reason) else none := by
  have hz : ((p.image 0).isNone || p.imageOk 0) = true := by
    rcases h.root with h0 | h0 <;> simp [h0]
  simp only [Package.startFault, h.management, h.scheduler, h.fabric, hz, h.records, Bool.not_true, Bool.false_eq_true, if_false, Bool.and_self]
  by_cases hn : 1 ≤ n ∧ n ≤ 5
  · obtain ⟨h1, h5⟩ := hn
    interval_cases n <;> rfl
  · rw [if_neg hn]
    have hk : ∀ k, 1 ≤ k → k ≤ 5 → n ≠ k := by omega
    simp [hk]

theorem find?_loadFirmware (p : Package) {k : Nat} (hk : k < 4) :
    p.loadFirmware.firmware.find? (·.kind == k) = some ⟨k, ((p.image k).getD (0, [])).1, ((p.image k).getD (0, [])).2⟩ := by
  interval_cases k <;> rfl

/-- The log holds the measurement of each image that a start loads (R357). -/
theorem mem_loadFirmware_log {p : Package} {k v : Nat} {b : List Byte} (hk : k < 4) (h : p.image k = some (v, b)) :
    (k + 1, sha256 b) ∈ p.loadFirmware.log := by
  have hm : (⟨k, v, b⟩ : Firmware) ∈ p.loadFirmware.firmware := by
    simpa only [h, Option.getD_some] using List.mem_of_find?_eq_some (find?_loadFirmware p hk)
  exact List.mem_append_left _ (List.mem_map.mpr ⟨_, hm, rfl⟩)

/-! Starts (R357, R359) -/

/-- The package as a start finds it: each host link is up, but for one whose partner the event names at step 4 (R370). -/
def Package.linked (p : Package) (failStep reason dies : Nat) : Package :=
  { p with links := p.links.map fun l => { l with up := !(failStep == 4 && reason == 6 && bit dies l.id) } }

/-- The failing step of a start and its reason: heat, what the event names, or none. -/
def Package.cause (p : Package) (failStep reason : Nat) : Nat × Nat :=
  if p.hot then (1, 8) else if (reasonsOf failStep).contains reason then (failStep, reason) else (0, 0)

/-- The package of a module that has started. -/
def Package.started (p : Package) : Package := { p.takeRecords.loadFirmware.enableLinks with state := 4, fails := 0 }

/-- What a start that fails at a step has read of flash (R357, R361). `named`: the step that the event names. -/
def Package.readTo (p : Package) (named n code : Nat) : Package :=
  if n = 2 && code == 3 && named ≠ 2 then { p.takeRecords with records := [] } else if 2 < n then p.takeRecords.loadFirmware else p

/-- The package at the step at which a start fails, before the failure is noted. -/
def Package.stoppedAt (p : Package) (named n code : Nat) : Package :=
  let q := p.readTo named n code
  { (if 4 < n then q.enableLinks else q) with hot := q.hot || code == 8 }

/-- A start fails at a step: past step 4 the ports train. -/
def State.failAt (s : State) (named n code dies : Nat) : State :=
  let u : State := { s with pkg := s.pkg.stoppedAt named n code }
  (if 4 < n then u.trainPorts else u).startFails (stepState n) code (if dieReason code then dies % 256 else 0)

/-- A start from a reset module, with the cause of its failure. -/
def State.startFor (s : State) (cause : Nat × Nat) (dies : Nat) : State :=
  match s.pkg.startFault cause.1 cause.2 with
  | some (n, code) => s.failAt cause.1 n code dies
  | none => (State.powerDies { s with pkg := s.pkg.started } true).trainPorts

/-- A start is a reset, a look at the cold plate, the links' training, and the five steps. -/
theorem boot_eq (s : State) (failStep reason dies : Nat) : s.boot failStep reason dies =
    let t := s.moduleReset.coolCheck
    State.startFor { t with pkg := t.pkg.linked failStep reason dies } (t.pkg.cause failStep reason) dies := rfl

theorem startFor_none {s : State} {cause : Nat × Nat} (h : s.pkg.startFault cause.1 cause.2 = none) (dies : Nat) :
    s.startFor cause dies = (State.powerDies { s with pkg := s.pkg.started } true).trainPorts := by
  rw [State.startFor, h]

theorem startFor_some {s : State} {cause : Nat × Nat} {n code : Nat} (h : s.pkg.startFault cause.1 cause.2 = some (n, code)) (dies : Nat) :
    s.startFor cause dies = s.failAt cause.1 n code dies := by
  rw [State.startFor, h]

/-- A look at a hot cold plate takes a free value, which says whether it is hot still (R369). -/
theorem coolCheck_of_hot {s : State} (h : s.pkg.hot = true) : s.coolCheck =
    { s with free := s.free + 1, pkg := { s.pkg with hot := Config.freeNat s.free % 2 == 1 } } := by
  unfold State.coolCheck
  rw [h]
  rfl

theorem coolCheck_of_not {s : State} (h : s.pkg.hot = false) : s.coolCheck = s := by simp [State.coolCheck, h]

/-- A start on a cool cold plate. -/
theorem boot_of_cool {s : State} (h : s.pkg.hot = false) (failStep reason dies : Nat) : s.boot failStep reason dies =
    State.startFor { s.moduleReset with pkg := s.moduleReset.pkg.linked failStep reason dies }
      (if (reasonsOf failStep).contains reason then (failStep, reason) else (0, 0)) dies := by
  have hc : s.moduleReset.coolCheck = s.moduleReset := coolCheck_of_not h
  have hh : s.moduleReset.pkg.hot = false := h
  rw [boot_eq, hc]
  simp only [Package.cause, hh, Bool.false_eq_true, if_false]

theorem sound_linked {p : Package} (h : p.Sound) (n reason dies : Nat) : (p.linked n reason dies).Sound :=
  ⟨h.management, h.scheduler, h.fabric, h.root, h.records⟩

/-- A start that meets no fault. -/
theorem boot_sound {s : State} (hc : s.pkg.hot = false) (h : s.moduleReset.pkg.Sound) (dies : Nat) : s.boot 0 0 dies =
    (State.powerDies { s.moduleReset with pkg := (s.moduleReset.pkg.linked 0 0 dies).started } true).trainPorts := by
  rw [boot_of_cool hc]
  exact startFor_none (startFault_sound (sound_linked h 0 0 dies) 0 0) dies

/-- A start that fails at the step that the event names. -/
theorem boot_fault {s : State} (hc : s.pkg.hot = false) (n reason dies : Nat) (hr : (reasonsOf n).contains reason = true)
    (hf : (s.moduleReset.pkg.linked n reason dies).startFault n reason = some (n, reason)) : s.boot n reason dies =
      State.failAt { s.moduleReset with pkg := s.moduleReset.pkg.linked n reason dies } n n reason dies := by
  rw [boot_of_cool hc, if_pos hr]
  exact startFor_some hf dies

/-- A start on a cold plate that is still hot. -/
theorem boot_of_hot {s : State} (hh : s.pkg.hot = true) (hf : Config.freeNat s.free % 2 = 1) (dies : Nat) : s.boot 0 0 dies =
    (let t := s.moduleReset.coolCheck
     State.failAt { t with pkg := t.pkg.linked 0 0 dies } 1 1 8 dies) := by
  have hm : s.moduleReset.pkg.hot = true := hh
  have hc : s.moduleReset.coolCheck.pkg.cause 0 0 = (1, 8) := by
    have hr : (Config.freeNat s.moduleReset.free % 2 == 1) = true := beq_iff_eq.mpr hf
    rw [coolCheck_of_hot hm]
    exact if_pos hr
  rw [boot_eq]
  dsimp only
  rw [hc]
  exact startFor_some rfl dies

theorem readTo_fails (p : Package) (named n code : Nat) : (p.readTo named n code).fails = p.fails := by
  unfold Package.readTo
  split
  · rfl
  · split <;> rfl

theorem stoppedAt_fails (p : Package) (named n code : Nat) : (p.stoppedAt named n code).fails = p.fails := by
  have hq := readTo_fails p named n code
  unfold Package.stoppedAt
  dsimp only
  split <;> exact hq

theorem failAt_pkg (s : State) (named n code dies : Nat) : (s.failAt named n code dies).pkg =
    { s.pkg.stoppedAt named n code with
      state := if 2 ≤ s.pkg.fails then 5 else stepState n, fails := min 3 (s.pkg.fails + 1), reason := code
      dies := if dieReason code then dies % 256 else 0 } := by
  unfold State.failAt
  dsimp only
  rw [startFails_pkg]
  split <;> simp only [State.trainPorts, stoppedAt_fails]

theorem failAt_contexts (s : State) (named n code dies : Nat) : (s.failAt named n code dies).contexts = s.contexts := by
  unfold State.failAt
  rw [startFails_contexts]
  split <;> rfl

theorem die_failAt_hot (s : State) (named n dies : Nat) {d : Nat} (hd : d < 8) : ((s.failAt named n 8 dies).die d).powered = false :=
  die_startFails_hot _ _ _ hd

/-- A start that fails past step 4 leaves the ports training. -/
theorem failAt_ports (s : State) (named n code dies : Nat) (h : 4 < n) :
    (s.failAt named n code dies).ports = (State.trainPorts { s with pkg := s.pkg.stoppedAt named n code }).ports := by
  unfold State.failAt
  rw [startFails_ports, if_pos h]

end Sys2Proof.Machine
end

section
/-! SUPPORT. What the events of the package and its management commands do: starts, flash, installation, heartbeats, throttling and health (R357 to
R369, R373). -/

namespace Sys2Proof.Machine

open Sys2Proof

/-! Starts -/

/-- What a start that meets no fault leaves of a module: it serves commands, and nothing of its earlier work is left (R357). -/
def StartsUp (s u : State) : Prop :=
  let q := s.moduleReset.pkg
  u.pkg.state = 4 ∧ u.pkg.fails = 0 ∧ u.pkg.records = q.takeRecords.records ∧ u.pkg.flash = s.pkg.flash ∧
      u.threads = [] ∧ u.groups = [] ∧ u.contexts = [] ∧ u.clk = 0 ∧ u.cores = [] ∧ (∀ d, d < 8 → (u.die d).powered = true) ∧
      (∀ l ∈ u.pkg.links, l.up = true ∧ l.functions = true) ∧ (u.ports.map (·.id)).Nodup ∧ (∀ x ∈ u.ports, x.id < 16 ∧ (x.state = 1 ∨ x.state = 2)) ∧
      (∀ k v b, k < 4 → q.image k = some (v, b) → (k + 1, sha256 b) ∈ u.pkg.log ∧
        ∃ f, u.pkg.firmware.find? (·.kind == k) = some f ∧ f.version = v ∧ f.bytes = b)

/-- Each link of a started module is up, with its functions enabled. -/
theorem started_links {p : Package} {dies : Nat} {l : HostLink} (h : l ∈ (p.linked 0 0 dies).started.links) : l.up = true ∧ l.functions = true := by
  obtain ⟨l1, h1, rfl⟩ := List.mem_map.mp h
  obtain ⟨l2, -, rfl⟩ := List.mem_map.mp h1
  exact ⟨rfl, rfl⟩

theorem startsUp_boot {s : State} (hc : s.pkg.hot = false) (h : s.moduleReset.pkg.Sound) (dies : Nat) : StartsUp s (s.boot 0 0 dies) := by
  rw [boot_sound hc h]
  simp only [StartsUp, trainPorts_pkg, trainPorts_threads, trainPorts_groups, trainPorts_contexts, trainPorts_clk, trainPorts_cores, trainPorts_die,
    powerDies_pkg, powerDies_threads, powerDies_groups, powerDies_contexts, powerDies_clk, powerDies_cores]
  refine ⟨rfl, rfl, rfl, rfl, rfl, rfl, rfl, rfl, rfl, fun d hd => die_powerDies _ true hd, fun l hl => started_links hl, trainPorts_distinct _,
    fun x hx => ⟨trainPorts_id_lt hx, trainPorts_state hx⟩, fun k v b hk hi => ⟨mem_loadFirmware_log hk hi, ⟨k, v, b⟩, ?_, rfl, rfl⟩⟩
  have hf := find?_loadFirmware (s.moduleReset.pkg.linked 0 0 dies).takeRecords hk
  have hi' : (s.moduleReset.pkg.linked 0 0 dies).takeRecords.image k = some (v, b) := hi
  rw [hi'] at hf
  exact hf

theorem powerOnStart_of_reset {s : State} (h0 : s.pkg.state = 0) (hf : s.pkg.fails = 0) (n reason dies : Nat) :
    exec (.powerOnStart n reason dies) s = .next (s.boot n reason dies) := by
  have hb : (s.pkg.state = 0 && s.pkg.fails == 0) = true := by simp [h0, hf]
  exact congrArg _ (if_pos hb)

/-- The package after a start, the first to fail, that has failed at the step that the event names. -/
theorem boot_fault_pkg {s : State} (hc : s.pkg.hot = false) (hz : s.pkg.fails = 0) (n reason dies : Nat) (hr : (reasonsOf n).contains reason = true)
    (hf : (s.moduleReset.pkg.linked n reason dies).startFault n reason = some (n, reason)) : (s.boot n reason dies).pkg =
      { (s.moduleReset.pkg.linked n reason dies).stoppedAt n n reason with
        state := stepState n, fails := 1, reason, dies := if dieReason reason then dies % 256 else 0 } := by
  have hz' : (s.moduleReset.pkg.linked n reason dies).fails = 0 := hz
  rw [boot_fault hc n reason dies hr hf, failAt_pkg]
  simp only [hz']
  rfl

theorem boot_fault_contexts {s : State} (hc : s.pkg.hot = false) (n reason dies : Nat) (hr : (reasonsOf n).contains reason = true)
    (hf : (s.moduleReset.pkg.linked n reason dies).startFault n reason = some (n, reason)) : (s.boot n reason dies).contexts = [] := by
  rw [boot_fault hc n reason dies hr hf, failAt_contexts]
  rfl

theorem bit_eq_testBit (v i : Nat) : bit v i = v.testBit i := by
  rw [Nat.testBit_eq_decide_div_mod_eq, bit, beq_eq_decide]

/-- A start that fails at step 3 with reason 4 (R357, R359). -/
theorem boot_step3 {s : State} (hc : s.pkg.hot = false) (hz : s.pkg.fails = 0) (h : s.moduleReset.pkg.Sound) (dies : Nat) :
    let u := s.boot 3 4 dies
    u.pkg.state = 2 ∧ u.pkg.fails = 1 ∧ u.pkg.reason = 4 ∧ u.pkg.dies = dies % 256 ∧ u.contexts = [] := by
  have hf := startFault_sound (sound_linked h 3 4 dies) 3 4
  have hp := boot_fault_pkg hc hz 3 4 dies rfl hf
  dsimp only
  rw [hp]
  exact ⟨rfl, rfl, rfl, rfl, boot_fault_contexts hc 3 4 dies rfl hf⟩

/-- A start that fails at step 4: a link whose partner refuses FLIT operation is down (R370). -/
theorem boot_step4 {s : State} (hc : s.pkg.hot = false) (hz : s.pkg.fails = 0) (h : s.moduleReset.pkg.Sound) (dies : Nat) :
    let u := s.boot 4 6 dies
    u.pkg.state = 2 ∧ u.pkg.fails = 1 ∧ u.pkg.reason = 6 ∧ u.pkg.dies = 0 ∧ ∀ l ∈ u.pkg.links, l.up = !dies.testBit l.id := by
  have hp := boot_fault_pkg hc hz 4 6 dies rfl (startFault_sound (sound_linked h 4 6 dies) 4 6)
  dsimp only
  rw [hp]
  refine ⟨rfl, rfl, rfl, rfl, fun l hl => ?_⟩
  obtain ⟨l0, -, rfl⟩ := List.mem_map.mp hl
  exact congrArg (!·) (bit_eq_testBit dies l0.id)

/-- A start that fails at step 5: the ports that configuration record 2 enables train, or are up. -/
theorem boot_step5 {s : State} (hc : s.pkg.hot = false) (hz : s.pkg.fails = 0) (h : s.moduleReset.pkg.Sound) (dies : Nat) :
    let u := s.boot 5 7 dies
    u.pkg.state = 3 ∧ u.pkg.fails = 1 ∧ u.pkg.reason = 7 ∧ u.pkg.dies = dies % 256 ∧
      u.ports.map (·.id) = portList (Config.portsOf s.moduleReset.pkg.takeRecords.portBody) ∧ ∀ x ∈ u.ports, x.state = 1 ∨ x.state = 2 := by
  have hf := startFault_sound (sound_linked h 5 7 dies) 5 7
  have hp := boot_fault_pkg hc hz 5 7 dies rfl hf
  have hx := failAt_ports { s.moduleReset with pkg := s.moduleReset.pkg.linked 5 7 dies } 5 5 7 dies (by decide)
  rw [← boot_fault hc 5 7 dies rfl hf] at hx
  dsimp only
  rw [hp, hx, trainPorts_ids]
  exact ⟨rfl, rfl, rfl, rfl, rfl, fun x => trainPorts_state⟩

/-- A start of which the root of trust's self-test fails. -/
theorem boot_step1 {s : State} (hc : s.pkg.hot = false) (hz : s.pkg.fails = 0) (dies : Nat) :
    let u := s.boot 1 1 dies
    u.pkg.state = 1 ∧ u.pkg.fails = 1 ∧ u.pkg.reason = 1 ∧ u.pkg.dies = 0 ∧ u.contexts = [] := by
  have hp := boot_fault_pkg hc hz 1 1 dies rfl rfl
  dsimp only
  rw [hp]
  exact ⟨rfl, rfl, rfl, rfl, boot_fault_contexts hc 1 1 dies rfl rfl⟩

/-- A start while the cold plate is hot (R369). -/
theorem boot_hot {s : State} (hh : s.pkg.hot = true) (hz : s.pkg.fails = 0) (hf : Config.freeNat s.free % 2 = 1) (dies : Nat) :
    let u := s.boot 0 0 dies
    u.pkg.state = 1 ∧ u.pkg.fails = 1 ∧ u.pkg.reason = 8 ∧ u.pkg.hot = true ∧ ∀ d, d < 8 → (u.die d).powered = false := by
  have hm : s.moduleReset.pkg.hot = true := hh
  have hz' : s.moduleReset.coolCheck.pkg.fails = 0 := by rw [coolCheck_of_hot hm]; exact hz
  rw [boot_of_hot hh hf]
  dsimp only
  rw [failAt_pkg]
  refine ⟨?_, ?_, rfl, Bool.or_true _, fun d hd => die_failAt_hot _ _ _ _ hd⟩
  · show (if 2 ≤ s.moduleReset.coolCheck.pkg.fails then 5 else stepState 1) = 1
    rw [hz']
    rfl
  · show min 3 (s.moduleReset.coolCheck.pkg.fails + 1) = 1
    rw [hz']
    rfl

/-- A thermal trip is a failed start (R369). -/
theorem thermal_fails (s : State) :
    s.thermal.pkg.fails = min 3 (s.pkg.fails + 1) ∧ s.thermal.pkg.reason = 8 ∧ s.thermal.pkg.hot = true ∧
    s.thermal.pkg.state = (if 2 ≤ s.pkg.fails then 5 else 0) ∧ (∀ d, d < 8 → (s.thermal.die d).powered = false) ∧
    s.thermal.contexts = [] ∧ s.thermal.threads = [] := by
  have hp : s.thermal.pkg = _ := startFails_pkg ..
  rw [hp]
  exact ⟨rfl, rfl, rfl, rfl, fun d hd => die_startFails_hot _ _ _ hd, startFails_contexts .., startFails_threads ..⟩

/-! Flash, installation and the measurement log (R362, R373) -/

/-- A management command is served where the firmware that serves it runs and nothing waits in the mailbox: any command while the module runs, one
marked F in furled mode too (R360, R362, R373). -/
theorem command_served {s : State} {marked : Bool} {i : Instr} (k : State → State) (hs : s.pkg.state = 4 ∨ (marked = true ∧ s.pkg.state = 5))
    (hp : s.managementPaused = false) (hw : s.wayFree .mailbox) (hi : s.way i = some .mailbox) : s.command marked i k = k s := by
  have ht : s.inTurn i k = k s := by
    have hn : (s.waiting.any fun j => s.way j == s.way i) = false := by
      simpa [hi, State.wayFree] using hw
    simp only [State.inTurn, hn, Bool.false_eq_true, if_false]
  rcases hs with h4 | ⟨rfl, h5⟩
  · simp [State.command, hp, h4, ht]
  · simp [State.command, hp, h5, ht]

/-- Flash with an item written over what it replaces. -/
def Package.written (p : Package) (item : FlashItem) : List FlashItem := p.flash.filter (fun x => !sameItem x item) ++ [item]

theorem mem_written (p : Package) (item x : FlashItem) (h : x ≠ item) : x ∈ p.written item ↔ x ∈ p.flash ∧ sameItem x item = false := by
  simp [Package.written, h]

theorem image_fits {s : State} {item : FlashItem} (hs : s.pkg.state = 4 ∨ s.pkg.state = 5) (hp : s.managementPaused = false) (hw : s.wayFree .mailbox)
    (h : ((s.pkg.written item).map FlashItem.size).sum ≤ 2 ^ 26) : ∃ u, exec (.image item) s = .next u ∧ u.hostResp = .status 0 ∧
      u.pkg.flash = s.pkg.written item ∧ u.mem = s.mem ∧ u.pkg.firmware = s.pkg.firmware := by
  have hc : s.putFlash item = _ := command_served _ (hs.imp_right fun h5 => ⟨rfl, h5⟩) hp hw rfl
  have hn : ¬Config.flashBytes < ((s.pkg.written item).map FlashItem.size).sum := by simpa [Config.flashBytes] using h
  refine ⟨_, congrArg Host.Outcome.next (hc.trans (if_neg hn)), rfl, rfl, rfl, ?_⟩
  cases item <;> rfl

theorem image_refused {s : State} {item : FlashItem} (hs : s.pkg.state = 4 ∨ s.pkg.state = 5) (hp : s.managementPaused = false) (hw : s.wayFree .mailbox)
    (h : 2 ^ 26 < ((s.pkg.written item).map FlashItem.size).sum) : exec (.image item) s = .next s.refuse := by
  have hc : s.putFlash item = _ := command_served _ (hs.imp_right fun h5 => ⟨rfl, h5⟩) hp hw rfl
  exact congrArg Host.Outcome.next (hc.trans (if_pos h))

theorem install_pauses {s : State} {kind version : Nat} {bytes : List Byte} {old : Firmware} (hs : s.pkg.state = 4)
    (hf : s.pkg.firmware.find? (·.kind == kind) = some old) (hk : kind ≠ 0) (hp : s.pkg.pause = none) (hw : s.wayFree .mailbox)
    (hm : .image kind version bytes ∈ s.pkg.flash) (hg : Config.signed bytes = true) :
    exec (.install kind version bytes true) s = .next { s with
      pkg := { s.pkg with pause := some { new := { kind, version, bytes }, since := s.clk.toNat, back := false } } } := by
  have hu : s.managementPaused = false := by simp [State.managementPaused, hp]
  have hok : (kind = 0 || (s.pkg.firmware.find? (·.kind == kind)).isNone || !s.pkg.flash.contains (.image kind version bytes) ||
      !Config.signed bytes || !true) = false := by simp [hk, hf, hm, hg]
  show Host.Outcome.next (s.installImage kind version bytes true) = _
  unfold State.installImage
  rw [hp]
  dsimp only
  rw [command_served (marked := false) _ (.inl hs) hu hw rfl, hok]
  rfl

/-- An image that takes over runs in place of its kind's; the launches that the pause has held are then served. -/
theorem takeOver_pkg (s : State) (x : Pause) (l : List Replacing) : ∃ log paused, (s.takeOver x l).pkg =
    { s.pkg with
      firmware := s.pkg.firmware.map fun f => if f.kind = x.new.kind then x.new else f
      replacing := l, log, paused, pause := none } := by
  unfold State.takeOver State.endPause
  dsimp only
  rw [serveHeld_pkg, (State.SameControl.eventAll ..).pkg]
  exact ⟨_, _, rfl⟩

theorem takeOver_threads {s : State} (h : s.held = []) (x : Pause) (l : List Replacing) : (s.takeOver x l).threads = s.threads := by
  unfold State.takeOver State.endPause
  dsimp only
  rw [serveHeld_of_nil]
  · exact (State.SameControl.eventAll ..).threads
  · exact (State.SameControl.eventAll ..).held.trans h

theorem find?_replaced {l : List Firmware} {new old : Firmware} (h : l.find? (·.kind == new.kind) = some old) :
    (l.map fun f => if f.kind = new.kind then new else f).find? (·.kind == new.kind) = some new := by
  have ho : old.kind = new.kind := by simpa using List.find?_some h
  rw [find?_map_of_keeps fun f => by split <;> simp [*], h, Option.map_some, if_pos ho]

/-- A replacement whose image has just taken over (R364). -/
def Replacing.begun (kind : Nat) (old : Firmware) (now : Nat) : Replacing := { kind, old, since := now, beat := now }

theorem install_takes {s : State} {kind version : Nat} {bytes : List Byte} {old : Firmware} {x : Pause}
    (hf : s.pkg.firmware.find? (·.kind == kind) = some old) (hp : s.pkg.pause = some x) (hb : x.back = false)
    (hn : x.new = { kind, version, bytes }) (hh : s.held = []) : ∃ u, exec (.install kind version bytes true) s = .next u ∧
      u.hostResp = .status 0 ∧ u.pkg.pause = none ∧ u.pkg.firmware.find? (·.kind == kind) = some { kind, version, bytes } ∧
      .begun kind old s.clk.toNat ∈ u.pkg.replacing ∧ u.threads = s.threads := by
  obtain ⟨new, since, back⟩ := x
  obtain rfl : new = { kind, version, bytes } := hn
  obtain rfl : back = false := hb
  have hi : s.installImage kind version bytes true = (s.takeOver { new := { kind, version, bytes }, since, back := false }
      (s.pkg.replacing.filter (·.kind ≠ kind) ++ [.begun kind old s.clk.toNat])).answer 0 := by
    unfold State.installImage
    rw [hp]
    dsimp only
    rw [hf]
    simp [Replacing.begun]
  obtain ⟨log, paused, hq⟩ := takeOver_pkg s { new := { kind, version, bytes }, since, back := false }
    (s.pkg.replacing.filter (·.kind ≠ kind) ++ [.begun kind old s.clk.toNat])
  refine ⟨_, congrArg Host.Outcome.next hi, rfl, ?_, ?_, ?_, takeOver_threads hh ..⟩
  · exact congrArg Package.pause hq
  · exact (congrArg (fun q : Package => q.firmware.find? (·.kind == kind)) hq).trans (find?_replaced (new := { kind, version, bytes }) hf)
  · exact (congrArg Package.replacing hq).symm ▸ List.mem_append_right _ (List.mem_singleton.mpr rfl)

theorem log_reads {s : State} (hs : s.pkg.state = 4 ∨ s.pkg.state = 5) (hp : s.managementPaused = false) (hw : s.wayFree .mailbox) :
    exec .log s = .next { s with hostResp := .reply 0 (blockBytes s.pkg.log) } :=
  congrArg Host.Outcome.next (command_served _ (hs.imp_right fun h5 => ⟨rfl, h5⟩) hp hw rfl)

theorem start_served {s : State} (hs : s.pkg.state = 4 ∨ s.pkg.state = 5) (hp : s.managementPaused = false) (hw : s.wayFree .mailbox)
    (n reason dies : Nat) : exec (.start n reason dies) s = .next ((s.boot n reason dies).answer 0) :=
  congrArg Host.Outcome.next (command_served _ (hs.imp_right fun h5 => ⟨rfl, h5⟩) hp hw rfl)

/-! Heartbeats (R364) -/

theorem length_modAt {α : Type} (f : α → α) (n : Nat) (l : List α) : (modAt f n l).length = l.length := by
  induction l generalizing n with
  | nil => simp [modAt]
  | cons x l ih => cases n <;> simp [modAt, ih]

theorem getElem?_modAt {α : Type} (f : α → α) (n : Nat) (l : List α) (j : Nat) :
    (modAt f n l)[j]? = if j = n then l[j]?.map f else l[j]? := by
  induction l generalizing n j with
  | nil => simp [modAt]
  | cons x l ih => cases n <;> cases j <;> simp [modAt, ih]

theorem report_eq (x : Replacing) (now : Nat) : x.report now = { x with beat := if now ≤ x.beat + beatLimit then now else x.beat } := by
  unfold Replacing.report
  split <;> rfl

theorem heartbeat_of_nil {s : State} (h : s.pkg.replacing = []) : exec .heartbeat s = .next s := by
  have hb : s.heartbeat = s := by rw [State.heartbeat, h]
  exact congrArg Host.Outcome.next hb

/-- A heartbeat is that of the image that a free value names. -/
theorem heartbeat_of_ne {s : State} (h : s.pkg.replacing ≠ []) : exec .heartbeat s = .next
    { s with free := s.free + 1, pkg := { s.pkg with
      replacing := modAt (fun x => x.report s.clk.toNat) (Config.freeNat s.free % s.pkg.replacing.length) s.pkg.replacing } } := by
  refine congrArg Host.Outcome.next ?_
  unfold State.heartbeat
  split
  · contradiction
  · rfl

/-- The heartbeat of the one image that is watched. -/
theorem heartbeat_one {s : State} {x : Replacing} (h : s.pkg.replacing = [x]) : exec .heartbeat s = .next
    { s with free := s.free + 1, pkg := { s.pkg with replacing := [x.report s.clk.toNat] } } := by
  rw [heartbeat_of_ne (by simp [h]), h, List.length_singleton, Nat.mod_one]
  rfl

theorem heartbeat_timely {s : State} {x : Replacing} (h : s.pkg.replacing = [x]) (ht : s.clk.toNat ≤ x.beat + beatLimit) :
    exec .heartbeat s = .next { s with pkg := { s.pkg with replacing := [{ x with beat := s.clk.toNat }] }, free := s.free + 1 } := by
  rw [heartbeat_one h, report_eq, if_pos ht]

theorem heartbeat_late {s : State} {x : Replacing} (h : s.pkg.replacing = [x]) (ht : x.beat + beatLimit < s.clk.toNat) :
    exec .heartbeat s = .next { s with free := s.free + 1 } := by
  rw [heartbeat_one h, report_eq, if_neg (Nat.not_le.mpr ht), ← h]

theorem watched_one {p : Package} {x : Replacing} (h : p.replacing = [x]) : p.watched = some x := by
  rw [Package.watched, h]
  rfl

/-- In its first second an image that is silent for too long pauses dispatch for the old one. -/
theorem beatMiss_early {s : State} {x : Replacing} (hx : s.pkg.watched = some x) (hp : s.pkg.pause = none)
    (hl : x.beat + beatLimit < s.clk.toNat) (he : x.beat + beatLimit < x.since + trialTime) :
    s.beatMiss = { s with pkg := { s.pkg with pause := some { new := x.old, since := s.clk.toNat, back := true } } } := by
  unfold State.beatMiss
  rw [hp, hx]
  dsimp only
  rw [if_neg (Nat.not_le.mpr hl), if_pos he]

/-- After it, the module resets, and the start counts as failed. -/
theorem beatMiss_late {s : State} {x : Replacing} (hx : s.pkg.watched = some x) (hp : s.pkg.pause = none)
    (hl : x.beat + beatLimit < s.clk.toNat) (he : x.since + trialTime ≤ x.beat + beatLimit) :
    s.beatMiss = (State.moduleReset { s with free := s.free + 2 }).startFails 0 (Config.freeNat s.free % 256) (Config.freeNat (s.free + 1) % 256) := by
  unfold State.beatMiss
  rw [hp, hx]
  dsimp only
  rw [if_neg (Nat.not_le.mpr hl), if_neg (Nat.not_lt.mpr he)]
  rfl

theorem beatMiss_back {s : State} {y : Pause} (hp : s.pkg.pause = some y) (hb : y.back = true) : s.beatMiss = s.reloadOld y := by
  unfold State.beatMiss
  rw [hp]
  exact if_pos hb

/-- The old image runs again, the new one is marked refused, and the next start loads the old one. -/
theorem reloadOld_pkg {s : State} {y : Pause} {f : Firmware} (hf : s.pkg.firmware.find? (·.kind == y.new.kind) = some f) :
    (s.reloadOld y).pkg.pause = none ∧ (s.reloadOld y).pkg.state = s.pkg.state ∧
    (s.reloadOld y).pkg.firmware.find? (·.kind == y.new.kind) = some y.new ∧ (y.new.kind, f.version) ∈ (s.reloadOld y).pkg.refused ∧
    (y.new.kind, y.new.version) ∈ (s.reloadOld y).pkg.next ∧ ∀ z ∈ (s.reloadOld y).pkg.replacing, z.kind ≠ y.new.kind := by
  unfold State.reloadOld
  dsimp only
  rw [hf, Option.map_some, Option.getD_some]
  obtain ⟨log, paused, hq⟩ := takeOver_pkg { s with pkg := { s.pkg with
    refused := s.pkg.refused.filter (· ≠ (y.new.kind, f.version)) ++ [(y.new.kind, f.version)]
    next := s.pkg.next.filter (·.1 ≠ y.new.kind) ++ [(y.new.kind, y.new.version)] } } y (s.pkg.replacing.filter (·.kind ≠ y.new.kind))
  rw [hq]
  refine ⟨rfl, rfl, find?_replaced hf, ?_, ?_, fun z hz => ?_⟩
  · exact List.mem_append_right _ (List.mem_singleton.mpr rfl)
  · exact List.mem_append_right _ (List.mem_singleton.mpr rfl)
  · simpa using (List.mem_filter.mp hz).2

/-! Throttling and health (R368, R369) -/

theorem throttle_lowers {s : State} {die : Nat} (hd : die < 8) (hs : s.pkg.state = 4) (ho : s.overCap die = true)
    (hc : (s.die die).clockSteps + 1 < 28) : exec (.throttle die) s = .next (s.modDie die fun d => { d with clockSteps := d.clockSteps + 1 }) := by
  have h : (s.pkg.state = 4 && decide (die < Config.numDies) && decide ((s.die die).clockSteps + 1 < clockLimit) && s.overCap die) = true := by
    simp [hs, ho, Config.numDies, hd, clockLimit, hc]
  exact congrArg Host.Outcome.next (if_pos h)

theorem throttle_rests {s : State} {die : Nat} (h : s.overCap die = false ∨ 28 ≤ (s.die die).clockSteps + 1) : exec (.throttle die) s = .next s := by
  have hn : ¬(s.pkg.state = 4 && decide (die < Config.numDies) && decide ((s.die die).clockSteps + 1 < clockLimit) && s.overCap die) = true := by
    rcases h with h | h
    · simp [h]
    · simp [clockLimit, Nat.not_lt.mpr h]
  exact congrArg Host.Outcome.next (if_neg hn)

theorem health_updates (s : State) {die : Nat} (hd : die < 8) (eol drift cerate temp : Nat) :
    exec (.healthMonitorUpdate die eol drift cerate temp) s = .next (s.modDie die fun d =>
      { d with eol := if s.pkg.monitored + s.clk.toNat < healthTime then 0xFFFF else eol % 2 ^ 16
               drift := drift % 2 ^ 16, cerate := cerate % 2 ^ 16, temp := temp % 2 ^ 8 }) :=
  congrArg Host.Outcome.next (if_pos hd)

end Sys2Proof.Machine
end

section
namespace Sys2Proof.Machine
open Sys2Proof

/-- Settles O55, start by start and command by command. -/
theorem packageStarts : Obligations.PackageStarts := by
  unfold Obligations.PackageStarts
  refine ⟨?starts, ?selfTest, ?hot, fun s => ⟨_, rfl, thermal_fails s⟩, ?image, ?install, fun s => log_reads, ?heartbeat, ?oneImage, ?health⟩
  case starts =>
    intro s dies q hc h1 h2 h3 h0 hr up
    have h : q.Sound := ⟨h1, h2, h3, h0, hr⟩
    have hup : StartsUp s (s.boot 0 0 dies) := startsUp_boot hc h dies
    refine ⟨fun hs hz => ?_, fun hs hp hw => ⟨_, start_served hs hp hw 0 0 dies, hup, rfl⟩⟩
    have he := fun n reason => powerOnStart_of_reset hs hz n reason dies
    exact ⟨⟨_, he 0 0, hup⟩, ⟨_, he 3 4, boot_step3 hc hz h dies⟩, ⟨_, he 4 6, boot_step4 hc hz h dies⟩, _, he 5 7, boot_step5 hc hz h dies⟩
  case selfTest => exact fun s dies hs hz hc => ⟨_, powerOnStart_of_reset hs hz 1 1 dies, boot_step1 hc hz dies⟩
  case hot => exact fun s dies hs hz hh hf => ⟨_, powerOnStart_of_reset hs hz 0 0 dies, boot_hot hh hz hf dies⟩
  case image =>
    intro s item hs hp hw size
    refine ⟨fun h => ?_, fun h => image_refused hs hp hw h⟩
    obtain ⟨u, he, ha, hf, hm, hw⟩ := image_fits hs hp hw h
    refine ⟨u, he, ha, ?_, fun x hx => ?_, hm, hw⟩
    · rw [hf]; exact List.mem_append_right _ (List.mem_singleton.mpr rfl)
    · rw [hf]; exact mem_written s.pkg item x hx
  case install =>
    exact fun s kind version bytes old hs hf => ⟨fun hk hp hw hm hg => install_pauses hs hf hk hp hw hm hg,
      fun x hp hb hn hh => install_takes hf hp hb hn hh⟩
  case heartbeat =>
    refine fun s => ⟨heartbeat_of_nil, fun h => ⟨_, Config.freeNat s.free % s.pkg.replacing.length, heartbeat_of_ne h,
      Nat.mod_lt _ (List.length_pos_iff.mpr h), length_modAt .., fun j hj => ?_, fun x hx => ?_⟩⟩
    · exact (getElem?_modAt ..).trans (if_neg hj)
    · rw [getElem?_modAt, if_pos rfl, hx, Option.map_some, report_eq, beatLimit]
  case oneImage =>
    refine fun s x hx => ⟨heartbeat_timely hx, heartbeat_late hx, fun hp hl he => ?_, fun y f hp hb hf => ?_, fun hp hl he => ?_⟩
    · exact congrArg Host.Outcome.next (beatMiss_early (watched_one hx) hp hl he)
    · exact ⟨_, congrArg Host.Outcome.next (beatMiss_back hp hb), reloadOld_pkg hf⟩
    · refine ⟨_, congrArg Host.Outcome.next (beatMiss_late (watched_one hx) hp hl he), ?_, startFails_contexts .., startFails_threads .., ?_⟩
      · exact congrArg Package.fails (startFails_pkg ..)
      · exact congrArg Package.replacing (startFails_pkg ..)
  case health =>
    exact fun s die eol drift cerate temp hd => ⟨fun hs ho hc => throttle_lowers hd hs ho hc, throttle_rests, health_updates s hd eol drift cerate temp⟩

end Sys2Proof.Machine
end


section
/-! SUPPORT. Numbers of the model as bit patterns: residues, signed fields, offsets of structure words. -/

namespace Sys2Proof.Machine

open Sys2Proof

/-! Numbers of the model as bit patterns (R7, R78) -/

theorem toNat_ofInt_eq_wrap (w : Nat) (x : Int) : (BitVec.ofInt w x).toNat = wrap w x := by
  simp [wrap, BitVec.toNat_ofInt]

theorem ofNat_wrap (w : Nat) (x : Int) : BitVec.ofNat w (wrap w x) = BitVec.ofInt w x := by
  rw [← toNat_ofInt_eq_wrap, BitVec.ofNat_toNat, BitVec.setWidth_eq]

theorem toInt_ofNat_eq_signed {w : Nat} (hw : 0 < w) (v : Nat) : (BitVec.ofNat w v).toInt = signed w v := by
  have h2 : 2 ^ w = 2 * 2 ^ (w - 1) := by rw [← Nat.pow_succ']; congr 1; omega
  unfold signed
  rw [BitVec.toInt_eq_toNat_cond, BitVec.toNat_ofNat]
  split <;> split <;> omega

theorem signed_toNat {w : Nat} (hw : 0 < w) (x : BitVec w) : signed w x.toNat = x.toInt := by
  rw [← toInt_ofNat_eq_signed hw, BitVec.ofNat_toNat, BitVec.setWidth_eq]

theorem bits_mod (v n : Nat) : bits v 0 n = v % 2 ^ n := by simp [bits]

/-- The offset of a T word (R28, R63). -/
theorem tOffset_eq (w : Nat) : tOffset w = (BitVec.ofNat 24 w).toInt := by
  rw [tOffset, bits_mod, ← toInt_ofNat_eq_signed (by decide)]
  exact congrArg _ (BitVec.eq_of_toNat_eq (by simp))

end Sys2Proof.Machine
end


section
/-! SUPPORT. What is found under a key after an update, and what an issue port moves: the frame of a lane or bundle that leaves its port. -/

namespace Sys2Proof.Machine

open Sys2Proof

/-! What is found under a key after an update -/

theorem foldl_fixed_of_mem {α β : Type} {f : β → α → β} {b : β} {l : List α} (h : ∀ a ∈ l, f b a = b) : l.foldl f b = b := by
  induction l with
  | nil => rfl
  | cons a l ih =>
    rw [List.forall_mem_cons] at h
    rw [List.foldl_cons, h.1, ih h.2]

theorem thread?_r {s : State} {r : Nat} {t : Thread} (h : s.thread? r = some t) : t.r = r := by
  simpa using List.find?_some h

theorem thread?_modThread_same {s : State} {r : Nat} {t : Thread} (h : s.thread? r = some t) (f : Thread → Thread)
    (hf : ∀ t, (f t).r = t.r := by exact fun _ => rfl) : (s.modThread r f).thread? r = some (f t) := by
  rw [thread?_modThread s r r f hf, h, Option.map_some, if_pos (thread?_r h)]

theorem thread?_modThread_other (s : State) {q r : Nat} (hq : r ≠ q) (f : Thread → Thread) (hf : ∀ t, (f t).r = t.r := by exact fun _ => rfl) :
    (s.modThread q f).thread? r = s.thread? r := by
  rw [thread?_modThread s q r f hf]
  cases h : s.thread? r with
  | none => rfl
  | some t => rw [Option.map_some, if_neg (thread?_r h ▸ hq)]

theorem bundle?_p {s : State} {p : PortId} {b : Bundle} (h : s.bundle? p = some b) : b.p = p := by
  simpa using List.find?_some h

theorem bundle?_modBundle_same {s : State} {p : PortId} {b : Bundle} (h : s.bundle? p = some b) (f : Bundle → Bundle)
    (hf : ∀ b, (f b).p = b.p := by exact fun _ => rfl) : (s.modBundle p f).bundle? p = some (f b) := by
  rw [bundle?_modBundle s p p f hf, h, Option.map_some, if_pos (bundle?_p h)]

/-- A bundle whose lane of a thread is changed. -/
def Bundle.modLane (b : Bundle) (r : Nat) (f : Lane → Lane) : Bundle := { b with lanes := b.lanes.map fun l => if l.r = r then f l else l }

theorem bundle?_modLane {s : State} {p : PortId} {b : Bundle} (h : s.bundle? p = some b) (r : Nat) (f : Lane → Lane) :
    (s.modLane p r f).bundle? p = some (b.modLane r f) := bundle?_modBundle_same h _ fun _ => rfl

theorem lane?_modLane {b : Bundle} {r : Nat} {l : Lane} (h : b.lane? r = some l) (f : Lane → Lane) (hf : ∀ l, (f l).r = l.r := by exact fun _ => rfl) :
    (b.modLane r f).lane? r = some (f l) := by
  have hr : l.r = r := by simpa using List.find?_some h
  refine (find?_map_of_keeps (fun l => ?_) b.lanes).trans ?_
  · split <;> simp [hf]
  · change (b.lane? r).map _ = _
    rw [h, Option.map_some, if_pos hr]

theorem core_id (s : State) (c : Nat) : (s.core c).id = c := by
  unfold State.core
  cases h : s.cores.find? (·.id == c) with
  | none => rfl
  | some x => simpa using List.find?_some h

/-- A core after a change of one of them. -/
theorem core_modCore (s : State) (c d : Nat) (f : Core → Core) (hf : ∀ x, (f x).id = x.id := by exact fun _ => rfl) :
    (s.modCore c f).core d = if d = c then f (s.core c) else s.core d := by
  unfold State.modCore
  split
  · rename_i ha
    have hm : ((s.cores.map fun x => if x.id = c then f x else x).find? fun x => x.id == d) =
        (s.cores.find? fun x => x.id == d).map fun x => if x.id = c then f x else x :=
      find?_map_of_keeps (fun x => by split <;> simp [hf]) s.cores
    simp only [State.core, hm]
    cases he : s.cores.find? fun x => x.id == d with
    | none =>
      have hne : d ≠ c := by rintro rfl; grind [List.find?_eq_none, List.any_eq_true]
      simp [hne]
    | some x =>
      have hx : x.id = d := by simpa using List.find?_some he
      by_cases hd : d = c
      · subst hd; simp [hx, he]
      · simp [hx, hd]
  · rename_i ha
    have hn : (s.cores.find? fun x => x.id == c) = none := by simpa using ha
    by_cases hd : d = c
    · subst hd
      simp [State.core, hn, find?_insertBy_of_none, hf]
    · simp [State.core, hd, find?_insertBy_of_not, hf, Ne.symm hd]

/-- What a change of a core leaves alone in every core. -/
theorem core_modCore_keeps {γ : Type} (g : Core → γ) (s : State) (c : Nat) (f : Core → Core) (hf : ∀ x, (f x).id = x.id)
    (hg : ∀ x, g (f x) = g x) (d : Nat) : g ((s.modCore c f).core d) = g (s.core d) := by
  rw [core_modCore s c d f hf]
  split
  · rename_i h; rw [hg, h]
  · rfl

@[simp] theorem trace_modPart (s : State) (c p : Nat) (f : PartCounters → PartCounters) (d : Nat) :
    ((s.modPart c p f).core d).trace = (s.core d).trace := 
  core_modCore_keeps Core.trace s c (fun x => { x with parts := modAt f p x.parts }) (fun _ => rfl) (fun _ => rfl) d

/-! Trace records (R214) -/

theorem writeTrace_of_untraced {s : State} {c : Nat} (h : (s.core c).trace = none) (ctx x : Nat) : s.writeTrace c ctx x = s := by
  simp only [State.writeTrace, h]

/-! What an issue port moves -/

/-- The second state differs from the first at most in what an issue port moves: bundles, the PC table, arrivals, threads, the counters of cores and
the numbers given out. The cores' trace buffers are as before. -/
structure State.IssueStep (s t : State) : Prop where
  same : t = { s with seq := t.seq, threads := t.threads, bundles := t.bundles, table := t.table, arrivals := t.arrivals, cores := t.cores }
  trace : ∀ c, (t.core c).trace = (s.core c).trace

namespace State.IssueStep

theorem refl (s : State) : s.IssueStep s := ⟨rfl, fun _ => rfl⟩

theorem trans {s t u : State} (a : s.IssueStep t) (b : t.IssueStep u) : s.IssueStep u :=
  ⟨b.same.trans (congrArg (fun x : State => { x with
    seq := u.seq, threads := u.threads, bundles := u.bundles, table := u.table, arrivals := u.arrivals, cores := u.cores }) a.same),
    fun c => (b.trace c).trans (a.trace c)⟩

theorem foldl {α : Type} {f : State → α → State} (hf : ∀ (s : State) a, s.IssueStep (f s a)) (l : List α) (s : State) :
    s.IssueStep (l.foldl f s) := by
  induction l generalizing s with
  | nil => exact refl s
  | cons a l ih => exact (hf s a).trans (ih _)

section
variable {s t : State} (h : s.IssueStep t)
include h
theorem mem : t.mem = s.mem := (congrArg State.mem h.same).trans rfl
theorem hostMem : t.hostMem = s.hostMem := (congrArg State.hostMem h.same).trans rfl
theorem peerMem : t.peerMem = s.peerMem := (congrArg State.peerMem h.same).trans rfl
theorem groups : t.groups = s.groups := (congrArg State.groups h.same).trans rfl
theorem blocks : t.blocks = s.blocks := (congrArg State.blocks h.same).trans rfl
theorem out : t.out = s.out := (congrArg State.out h.same).trans rfl
theorem oplog : t.oplog = s.oplog := (congrArg State.oplog h.same).trans rfl
theorem runs : t.runs = s.runs := (congrArg State.runs h.same).trans rfl
theorem contexts : t.contexts = s.contexts := (congrArg State.contexts h.same).trans rfl
theorem clk : t.clk = s.clk := (congrArg State.clk h.same).trans rfl
end

theorem modThread (s : State) (r : Nat) (f : Thread → Thread) : s.IssueStep (s.modThread r f) := ⟨rfl, fun _ => rfl⟩
theorem modBundle (s : State) (p : PortId) (f : Bundle → Bundle) : s.IssueStep (s.modBundle p f) := ⟨rfl, fun _ => rfl⟩
theorem modLane (s : State) (p : PortId) (r : Nat) (f : Lane → Lane) : s.IssueStep (s.modLane p r f) := modBundle ..
theorem leaveTable (s : State) (r : Nat) : s.IssueStep (s.leaveTable r) := ⟨rfl, fun _ => rfl⟩

theorem modCore (s : State) (c : Nat) (f : Core → Core) (hf : ∀ x, (f x).id = x.id ∧ (f x).trace = x.trace) :
    s.IssueStep (s.modCore c f) := by
  refine ⟨?_, core_modCore_keeps Core.trace s c f (fun x => (hf x).1) fun x => (hf x).2⟩
  unfold State.modCore
  split <;> rfl

theorem modPart (s : State) (c p : Nat) (f : PartCounters → PartCounters) : s.IssueStep (s.modPart c p f) :=
  modCore s c (fun x => { x with parts := modAt f p x.parts }) fun _ => ⟨rfl, rfl⟩

theorem closeBanks (s : State) (p : PortId) : s.IssueStep (s.closeBanks p) := by
  unfold State.closeBanks
  split
  · exact refl s
  · split
    · exact refl s
    · dsimp only
      split
      · exact modBundle ..
      · exact (modBundle ..).trans (modPart ..)

theorem brakeLeave (s : State) (b : Bundle) : s.IssueStep (s.brakeLeave b) := by
  unfold State.brakeLeave
  split
  · exact modPart ..
  · exact refl s

theorem retireOps (s : State) (r : Nat) : s.IssueStep (s.retireOps r) := by
  unfold State.retireOps
  dsimp only
  split
  · exact refl s
  · exact (modCore s (coreOfSlot r) (fun x => { x with replay := x.replay.filter (·.r ≠ r) }) fun _ => ⟨rfl, rfl⟩).trans (modPart ..)

theorem enterTable (s : State) (r : Nat) : s.IssueStep (s.enterTable r) := by
  unfold State.enterTable
  split
  · exact refl s
  · exact ⟨rfl, fun _ => rfl⟩

end State.IssueStep

/-! Lanes that leave their bundle (R154, R211) -/

/-- The thread of a lane whose bundle leaves the trace at a port: it re-enters the table, or halts where it was stepped. -/
def State.laneLeaves (s : State) (p : PortId) (l : Lane) : State :=
  match s.thread? l.r with
  | some t =>
    if t.status = .issuing p then
      (if t.stepping then s.modThread l.r fun t => { t with status := .halted, stepping := false } else s.enterTable l.r)
    else s
  | none => s

/-- The state in which the bundle of a port is gone and its cycles and scratch banks are counted. -/
def State.dropBundle (s : State) (p : PortId) (b : Bundle) : State :=
  let s := s.closeBanks p
  State.brakeLeave { s with bundles := s.bundles.filter (·.p ≠ p) } b

/-- The records of the lanes of a bundle are written. -/
def State.writeRecs (s : State) (p : PortId) (ls : List Lane) : State :=
  ls.foldl (fun (s : State) l => l.recs.foldl (fun (s : State) x => s.writeTrace p.core l.ctx x) s) s

theorem leaveBundle_eq {s : State} {p : PortId} {b : Bundle} (hb : s.bundle? p = some b) (ha : b.lanes.any (·.active) = false) :
    s.leaveBundle p = b.lanes.foldl (State.laneLeaves · p) ((s.dropBundle p b).writeRecs p b.lanes) := by
  simp only [State.leaveBundle, hb, ha]
  rfl

theorem leaveBundle_of_active {s : State} {p : PortId} {b : Bundle} (hb : s.bundle? p = some b) (ha : b.lanes.any (·.active) = true) :
    s.leaveBundle p = s := by
  simp only [State.leaveBundle, hb, ha, if_true]

theorem writeRecs_of_untraced {s : State} {p : PortId} (h : (s.core p.core).trace = none) (ls : List Lane) : s.writeRecs p ls = s :=
  foldl_fixed_of_mem fun l _ => foldl_fixed_of_mem fun x _ => writeTrace_of_untraced h l.ctx x

namespace State.IssueStep

theorem laneLeaves (s : State) (p : PortId) (l : Lane) : s.IssueStep (s.laneLeaves p l) := by
  unfold State.laneLeaves
  split
  · split
    · split
      · exact modThread ..
      · exact enterTable ..
    · exact refl s
  · exact refl s

theorem dropPort (s : State) (p : PortId) : s.IssueStep { s with bundles := s.bundles.filter (·.p ≠ p) } := ⟨rfl, fun _ => rfl⟩

theorem dropBundle (s : State) (p : PortId) (b : Bundle) : s.IssueStep (s.dropBundle p b) :=
  ((closeBanks s p).trans (dropPort ..)).trans (brakeLeave ..)

theorem leaveBundle {s : State} {p : PortId} (h : (s.core p.core).trace = none) : s.IssueStep (s.leaveBundle p) := by
  cases hb : s.bundle? p with
  | none => simpa only [State.leaveBundle, hb] using refl s
  | some b =>
    cases ha : b.lanes.any (·.active) with
    | true => rw [leaveBundle_of_active hb ha]; exact refl s
    | false =>
      have hd := dropBundle s p b
      rw [leaveBundle_eq hb ha, writeRecs_of_untraced ((hd.trace _).trans h)]
      exact hd.trans (foldl (fun s l => laneLeaves s p l) ..)

end State.IssueStep

/-! The threads of a bundle that leaves its port -/

theorem closeBanks_threads (s : State) (p : PortId) : (s.closeBanks p).threads = s.threads := by
  unfold State.closeBanks
  split
  · rfl
  · split
    · rfl
    · dsimp only
      split
      · rfl
      · rw [modPart_threads]; rfl

theorem brakeLeave_threads (s : State) (b : Bundle) : (s.brakeLeave b).threads = s.threads := by
  unfold State.brakeLeave
  split
  · exact modPart_threads ..
  · rfl

theorem dropBundle_threads (s : State) (p : PortId) (b : Bundle) : (s.dropBundle p b).threads = s.threads :=
  (brakeLeave_threads ..).trans (closeBanks_threads ..)

theorem writeCtx_getD_threads (s : State) (ctx va : Nat) (l : List Byte) : ((s.writeCtx ctx va l).getD s).threads = s.threads := by
  cases h : s.writeCtx ctx va l with
  | none => rfl
  | some t => exact (State.SameControl.writeCtx h).threads

theorem putTrace_threads (s : State) (c ctx x : Nat) : (s.putTrace c ctx x).threads = s.threads := by
  unfold State.putTrace
  split
  · split
    · exact (modCore_threads ..).trans (writeCtx_getD_threads ..)
    · rfl
  · rfl

theorem writeTrace_threads (s : State) (c ctx x : Nat) : (s.writeTrace c ctx x).threads = s.threads := by
  unfold State.writeTrace
  split
  · split
    · rfl
    · split
      · exact modCore_threads ..
      · dsimp only
        split
        · exact (modCore_threads ..).trans (putTrace_threads ..)
        · exact (modCore_threads ..).trans (putTrace_threads ..)
  · rfl

theorem writeRecs_threads (s : State) (p : PortId) (ls : List Lane) : (s.writeRecs p ls).threads = s.threads :=
  foldl_keeps State.threads (fun _ _ => foldl_keeps State.threads (fun _ _ => writeTrace_threads ..) _ _) _ _

theorem thread?_congr {s t : State} (h : t.threads = s.threads) (r : Nat) : t.thread? r = s.thread? r := by
  simp only [State.thread?, h]

theorem enterTable_thread? {s : State} {r : Nat} {t : Thread} (h : s.thread? r = some t) :
    (s.enterTable r).thread? r = some { t with status := .runnable } := by
  simp only [State.enterTable, h]
  exact thread?_modThread_same h _

theorem enterTable_thread?_other (s : State) {q r : Nat} (hq : q ≠ r) : (s.enterTable r).thread? q = s.thread? q := by
  unfold State.enterTable
  split
  · rfl
  · exact thread?_modThread_other s hq _

/-- A thread that issues at a port, as it stands once its lane has left it. -/
def Thread.leaves (t : Thread) : Thread :=
  if t.stepping then { t with status := .halted, stepping := false } else { t with status := .runnable }

/-- A thread after a lane has left a port: its own thread is moved where it issues there, and no other. -/
theorem laneLeaves_thread? {s : State} {p : PortId} {q : Nat} {t : Thread} (h : s.thread? q = some t) (l : Lane) :
    (s.laneLeaves p l).thread? q = some (if l.r = q ∧ t.status = .issuing p then t.leaves else t) := by
  unfold State.laneLeaves
  by_cases hq : l.r = q
  · subst hq
    simp only [h, true_and]
    split
    · unfold Thread.leaves
      split
      · exact thread?_modThread_same h _
      · exact enterTable_thread? h
    · exact h
  · rw [if_neg (fun hh => hq hh.1)]
    split
    · split
      · split
        · exact (thread?_modThread_other s (Ne.symm hq) _).trans h
        · exact (enterTable_thread?_other s (Ne.symm hq)).trans h
      · exact h
    · exact h

theorem leaves_status (t : Thread) (p : PortId) : t.leaves.status ≠ .issuing p := by
  unfold Thread.leaves
  split <;> nofun

theorem lanesLeave_thread? {p : PortId} {q : Nat} (ls : List Lane) {s : State} {t : Thread} (h : s.thread? q = some t) :
    (ls.foldl (State.laneLeaves · p) s).thread? q =
      some (if ls.any (·.r == q) ∧ t.status = .issuing p then t.leaves else t) := by
  induction ls generalizing s t with
  | nil => simpa using h
  | cons l ls ih =>
    rw [List.foldl_cons, ih (laneLeaves_thread? h l)]
    by_cases hs : t.status = .issuing p
    · by_cases hq : l.r = q
      · simp [hs, hq, leaves_status]
      · simp [hs, hq]
    · simp [hs]

/-- A thread after a bundle without an active lane has left its port: it is moved where it is one of its lanes and issues there. -/
theorem leaveBundle_thread? {s : State} {p : PortId} {b : Bundle} {q : Nat} {t : Thread} (hb : s.bundle? p = some b)
    (ha : b.lanes.any (·.active) = false) (h : s.thread? q = some t) :
    (s.leaveBundle p).thread? q = some (if b.lanes.any (·.r == q) ∧ t.status = .issuing p then t.leaves else t) := by
  rw [leaveBundle_eq hb ha]
  refine lanesLeave_thread? b.lanes ((thread?_congr ?_ q).trans h)
  exact (writeRecs_threads ..).trans (dropBundle_threads ..)

/-- Two threads that differ at most in whether and where they issue. -/
def Thread.Moved (t u : Thread) : Prop := u = { t with status := u.status, stepping := u.stepping }

theorem moved_leaves (t : Thread) : t.Moved t.leaves := by
  unfold Thread.leaves
  split <;> rfl

/-- Whatever leaves a port, a thread is at most moved. -/
theorem leaveBundle_moved (s : State) (p : PortId) {q : Nat} {t : Thread} (h : s.thread? q = some t) :
    ∃ u, (s.leaveBundle p).thread? q = some u ∧ t.Moved u := by
  cases hb : s.bundle? p with
  | none => exact ⟨t, by simpa only [State.leaveBundle, hb] using h, rfl⟩
  | some b =>
    cases ha : b.lanes.any (·.active) with
    | true => exact ⟨t, by rwa [leaveBundle_of_active hb ha], rfl⟩
    | false =>
      refine ⟨_, leaveBundle_thread? hb ha h, ?_⟩
      split
      · exact moved_leaves t
      · rfl

end Sys2Proof.Machine
end


section
/-! SUPPORT. Comparisons and the guards (R59, R99, R112 to R116). -/

namespace Sys2Proof.Machine

open Sys2Proof

/-! Comparisons (R59, R91, R99) -/

/-- Decoding looks at the bits of the format alone. -/
theorem fdec_mod (t : Ty) (v : Nat) : fdec t (v % 2 ^ t.width) = fdec t v := by
  have hw : t.width - 1 < t.width := by cases t <;> decide
  have hm : v % 2 ^ t.width % fsign t = v % fsign t := Nat.mod_mod_of_dvd v (Nat.pow_dvd_pow 2 (Nat.sub_le ..))
  have hb : bit (v % 2 ^ t.width) (t.width - 1) = bit v (t.width - 1) := by
    rw [bit_eq_testBit, bit_eq_testBit, Nat.testBit_mod_two_pow]
    simp [hw]
  simp only [fdec, hm, hb]

theorem intOf_eq_asInt (t : Ty) (v : Nat) : intOf t v = asInt t (.ofNat t.width v) := by
  have hw : 0 < t.width := by cases t <;> decide
  unfold intOf asInt
  split
  · rw [toInt_ofNat_eq_signed hw]
  · rw [BitVec.toNat_ofNat]

theorem intCond_eq_holdsOf (c : Cond) (a b : Int) : intCond c a b = holdsOf c a b := by
  rcases Int.lt_trichotomy a b with h | h | h
  · have hne : a ≠ b := Int.ne_of_lt h
    cases c <;> simp [intCond, condHolds, holdsOf, h, hne, Int.le_of_lt h, Int.not_le.mpr h, Int.not_lt.mpr (Int.le_of_lt h)]
  · subst h
    cases c <;> simp [intCond, condHolds, holdsOf]
  · have hne : a ≠ b := Int.ne_of_gt h
    have hlt : ¬a < b := Int.not_lt.mpr (Int.le_of_lt h)
    cases c <;> simp [intCond, condHolds, holdsOf, h, hne, hlt, Int.le_of_lt h, Int.not_le.mpr h]

theorem exDyadic_den_pos (n : Bool) (m : Nat) (e : Int) : 0 < (exDyadic n m e).den := by
  unfold exDyadic
  split
  · exact Nat.one_pos
  · exact Nat.two_pow_pos _

/-- The rational of a dyadic value. -/
theorem exDyadic_rat (n : Bool) (m : Nat) (e : Int) : (exDyadic n m e).rat = FV.rat (.fin n m e) := by
  have hsign : ∀ k : Nat, (((if n then -(k : Int) else k : Int)) : Rat) = if n then -(k : Rat) else k := fun k => by
    cases n <;> simp
  unfold exDyadic FV.rat Ex.rat Ex.int
  split
  · rename_i he
    obtain ⟨k, rfl⟩ := Int.eq_ofNat_of_zero_le he
    rw [hsign]
    cases n <;> simp
  · rename_i he
    obtain ⟨k, hk⟩ := Int.eq_ofNat_of_zero_le (show 0 ≤ -e by omega)
    obtain rfl : e = -k := by omega
    rw [hsign]
    simp [div_eq_mul_inv]

/-- Cross products order two exact values as their rationals stand. -/
theorem ex_cross_lt {x y : Ex} (hx : 0 < x.den) (hy : 0 < y.den) : x.int * (y.den : Int) < y.int * (x.den : Int) ↔ x.rat < y.rat := by
  have hx' : (0 : Rat) < x.den := by exact_mod_cast hx
  have hy' : (0 : Rat) < y.den := by exact_mod_cast hy
  unfold Ex.rat
  rw [div_lt_div_iff₀ hx' hy']
  exact_mod_cast Iff.rfl

theorem ex_cross_eq {x y : Ex} (hx : 0 < x.den) (hy : 0 < y.den) : x.int * (y.den : Int) = y.int * (x.den : Int) ↔ x.rat = y.rat := by
  have hx' : (x.den : Rat) ≠ 0 := by exact_mod_cast hx.ne'
  have hy' : (y.den : Rat) ≠ 0 := by exact_mod_cast hy.ne'
  unfold Ex.rat
  rw [div_eq_div_iff hx' hy']
  exact_mod_cast Iff.rfl

/-- A finite value that is equal to another of the other sign is zero, and so is the other. -/
theorem isZero_of_rat_eq {m k : Nat} {e f : Int} (h : FV.rat (.fin true m e) = FV.rat (.fin false k f)) : m = 0 ∧ k = 0 := by
  have hp : ∀ g : Int, (0 : Rat) < 2 ^ g := fun g => by positivity
  have hl : FV.rat (.fin true m e) ≤ 0 := by simp [FV.rat, (hp e).le, mul_nonneg]
  have hr : 0 ≤ FV.rat (.fin false k f) := by simp [FV.rat, (hp f).le, mul_nonneg]
  have h0 : FV.rat (.fin true m e) = 0 := le_antisymm hl (h ▸ hr)
  refine ⟨?_, ?_⟩
  · simpa [FV.rat, (hp e).ne'] using h0
  · simpa [FV.rat, (hp f).ne'] using h.symm.trans h0

/-- Below, with −0 equal to +0 (R99). -/
def strictlyBelow (a b : FV) : Bool := fLess a b && !(a.isZero && b.isZero)

theorem isZero_fin (n : Bool) (m : Nat) (e : Int) : FV.isZero (.fin n m e) = decide (m = 0) := by
  cases m <;> simp [FV.isZero]

theorem fLess_fin (n k : Bool) (m j : Nat) (e f : Int) : fLess (.fin n m e) (.fin k j f) =
    if FV.rat (.fin n m e) = FV.rat (.fin k j f) then n && !k else decide (FV.rat (.fin n m e) < FV.rat (.fin k j f)) := rfl

theorem strictlyBelow_fin (n k : Bool) (m j : Nat) (e f : Int) :
    strictlyBelow (.fin n m e) (.fin k j f) = decide (FV.rat (.fin n m e) < FV.rat (.fin k j f)) := by
  unfold strictlyBelow
  rw [fLess_fin]
  by_cases h : FV.rat (.fin n m e) = FV.rat (.fin k j f)
  · rw [if_pos h, h, isZero_fin, isZero_fin]
    cases n <;> cases k <;> simp
    exact isZero_of_rat_eq h
  · have hz : ¬(m = 0 ∧ j = 0) := fun hz => h (by simp [FV.rat, hz])
    rw [if_neg h, isZero_fin, isZero_fin]
    simp only [← Bool.decide_and, hz]
    simp

/-- The order of two values that are no NaN, told by which is below the other. -/
theorem fOrd_eq {a b : FV} (ha : a.isNan = false) (hb : b.isNan = false) :
    fOrd a b = if strictlyBelow a b then .lt else if strictlyBelow b a then .gt else .eq := by
  cases a with
  | nan => cases ha
  | inf n => cases b with
    | nan => cases hb
    | inf m => cases n <;> cases m <;> rfl
    | fin => cases n <;> simp [fOrd, strictlyBelow, fLess, FV.isZero]
  | fin n m e => cases b with
    | nan => cases hb
    | inf m => cases m <;> simp [fOrd, strictlyBelow, fLess, FV.isZero]
    | fin k j f =>
      have hx := exDyadic_den_pos n m e
      have hy := exDyadic_den_pos k j f
      simp only [fOrd, FV.ex, ex_cross_lt hx hy, ex_cross_eq hx hy, exDyadic_rat, strictlyBelow_fin, decide_eq_true_eq]
      rcases lt_trichotomy (FV.rat (.fin n m e)) (FV.rat (.fin k j f)) with h | h | h
      · simp [h]
      · simp [h]
      · simp [h, h.ne', not_lt.mpr h.le]

theorem strictlyBelow_asymm {a b : FV} (h : strictlyBelow a b = true) : strictlyBelow b a = false := by
  cases a with
  | nan => cases h
  | inf n => cases b with
    | nan => rfl
    | inf m => cases n <;> cases m <;> simp_all [strictlyBelow, fLess, FV.isZero]
    | fin => cases n <;> simp_all [strictlyBelow, fLess, FV.isZero]
  | fin n m e => cases b with
    | nan => rfl
    | inf m => cases m <;> simp_all [strictlyBelow, fLess]
    | fin k j f =>
      rw [strictlyBelow_fin, decide_eq_true_eq] at h
      rw [strictlyBelow_fin, decide_eq_false_iff_not]
      exact not_lt.mpr h.le

/-- A condition of two values, told by which is below the other. -/
def condOf (c : Cond) (lt gt : Bool) : Bool :=
  match c with
  | .eq => !lt && !gt
  | .ne => lt || gt
  | .lt => lt
  | .le => !gt
  | .gt => gt
  | .ge => !lt

theorem condHolds_fOrd (c : Cond) {a b : FV} (ha : a.isNan = false) (hb : b.isNan = false) :
    condHolds c (fOrd a b) = condOf c (strictlyBelow a b) (strictlyBelow b a) := by
  rw [fOrd_eq ha hb]
  by_cases h : strictlyBelow a b = true
  · rw [strictlyBelow_asymm h, h]
    cases c <;> rfl
  · rw [Bool.not_eq_true] at h
    rw [h]
    cases strictlyBelow b a <;> cases c <;> rfl

/-- A comparison of two values as its words give it (R59, R99, R112). -/
theorem guardCompare_eq (t : Ty) (c : Cond) (x y : Nat) : guardCompare t c x y = compared t c x y := by
  unfold guardCompare compared
  split
  · rw [fdec_mod, fdec_mod]
    dsimp only
    generalize fdec t x = a
    generalize fdec t y = b
    unfold fCompare
    split
    · cases c <;> simp [snanFlag, flagIf, Cond.isEqNe]
    · rename_i hn
      simp only [Bool.or_eq_true, not_or, Bool.not_eq_true] at hn
      rw [condHolds_fOrd c hn.1 hn.2]
      have hgt : strictlyBelow b a = (fLess b a && !(a.isZero && b.isZero)) := by rw [strictlyBelow, Bool.and_comm b.isZero]
      rw [hgt]
      rfl
  · rw [intCond_eq_holdsOf]
    simp only [iv, intOf_eq_asInt]

/-! Guards (R112 to R116) -/

theorem altOf_eq_toInt {i : Instr} {alt : BitVec 24} (h : altOf i = signed 24 alt.toNat) : altOf i = alt.toInt :=
  h.trans (signed_toNat (by decide) alt)

/-- A guard of a ready lane that looks at its lane too. -/
theorem runSlot_guard {s : State} {v : View} {i : Instr} (h : s.Ready v i) (f : View → List Nat → Bool × Flags) :
    runSlot i s (fun s v vals => guardAct s v.l (f v vals).1 (f v vals).2) = .next
      (if (f v (s.operands v i)).1 then s.goesOn v (v.l.raise (f v (s.operands v i)).2) else s.failGuard v (altOf i)) := by
  rw [runSlot_ready h]
  simp only [guardAct]
  split <;> rfl

/-- An instruction that runs as a guard is one. -/
theorem guards_of_runSlot {i : Instr} {alt : BitVec 24} {x : View → (Nat → Nat) → Bool × Flags} (f : View → List Nat → Bool × Flags)
    (ha : altOf i = signed 24 alt.toNat) (he : ∀ s, exec i s = runSlot i s fun s v vals => guardAct s v.l (f v vals).1 (f v vals).2)
    (hx : ∀ v vals, f v vals = x v (arg vals)) : Guards i alt x := by
  intro s v h
  rw [he, runSlot_guard h, hx, altOf_eq_toInt ha]
  rfl

theorem guardImm_eq (t : Ty) (b : RegCode) : guardImm t b =
    if t.isFloat then (roundTo t .rne (exInt b.toInt 1)).1 else (b.signExtend t.width).toNat := by
  unfold guardImm immB
  dsimp only
  rw [signed_toNat (by decide) b, ← toNat_ofInt_eq_wrap]
  rfl

theorem guardZero_eq (t : Ty) (a : Nat) : guardZero t a =
    if t.isFloat then ((fdec t a).isZero, if (fdec t a).isSNan then flIV else 0) else (decide (a % 2 ^ t.width = 0), 0) := by
  unfold guardZero
  rw [fdec_mod]
  split
  · simp [snanFlag, flagIf]
  · exact congrArg (·, 0) (beq_eq_decide ..)

/-- What each guard tests, guard by guard. -/
theorem guardTests : GuardTests := by
  refine ⟨fun f => guards_of_runSlot _ rfl (fun _ => rfl) fun _ _ => guardCompare_eq ..,
    fun f => guards_of_runSlot _ rfl (fun _ => rfl) fun _ vals => ?immediate,
    fun f => guards_of_runSlot _ rfl (fun _ => rfl) fun _ _ => guardZero_eq ..,
    fun f => guards_of_runSlot _ rfl (fun _ => rfl) fun _ vals => ?nonzero,
    fun f => guards_of_runSlot _ rfl (fun _ => rfl) fun _ vals => ?range,
    fun f => guards_of_runSlot (fun v vals => (flgPass v (arg vals 0), 0)) rfl (fun _ => rfl) fun _ _ => rfl,
    fun f => guards_of_runSlot (fun v _ => (flgPass v f.b.toNat, 0)) rfl (fun _ => rfl) fun _ _ => ?mask,
    fun f => guards_of_runSlot (fun v _ => (v.countsFull f.a.toNat, 0)) rfl (fun _ => rfl) fun v _ => ?full⟩
  case immediate =>
    rw [guardCompare_eq, guardImm_eq]
    split <;> rfl
  case nonzero =>
    dsimp only
    rw [guardZero_eq]
    split <;> simp
  case range => simp only [guardRange, guardCompare_eq]
  case mask =>
    unfold flgPass
    rw [BitVec.ofNat_toNat]
    rfl
  case full =>
    unfold View.countsFull Thread.isEmpty
    congr 1
    cases v.t.empty.contains f.a.toNat <;> cases v.t.fills.contains f.a.toNat <;> simp [Bool.or_comm, Bool.or_assoc]

end Sys2Proof.Machine
end


section
/-! SUPPORT. A lane that is discarded, and a guard that fails (R17, R19, R24). -/

namespace Sys2Proof.Machine

open Sys2Proof

/-! A lane that is discarded (R17, R24) -/

/-- The table reservations of a thread are given up (R264). -/
def State.unreserve (s : State) (r : Nat) : State :=
  { s with groups := s.groups.map fun g => if g.reserved.any (·.1 == r) then { g with reserved := g.reserved.filter (·.1 ≠ r) } else g }

/-- A thread whose lane is discarded (R13). -/
def Thread.dropsTrace (t : Thread) (abandoned : Bool) : Thread :=
  { t with onePass := false, tstat := if abandoned then t.tstat else setBit t.tstat tstatRPASS false }

/-- An active lane that holds no flume slot is discarded. -/
theorem discard_eq {s : State} {p : PortId} {r : Nat} {b : Bundle} {l : Lane} (hb : s.bundle? p = some b) (hl : b.lane? r = some l)
    (ha : l.active = true) (hf : l.flumes = []) (abandoned : Bool) :
    s.discard p r abandoned = (((s.retireOps r).unreserve r).modThread r (·.dropsTrace abandoned)).modLane p r Lane.clear := by
  simp only [State.discard, hb, Option.bind_some, hl, ha, hf]
  rfl

theorem retireOps_bundles (s : State) (r : Nat) : (s.retireOps r).bundles = s.bundles := by
  unfold State.retireOps
  dsimp only
  split
  · rfl
  · exact (modPart_bundles ..).trans (modCore_bundles ..)

theorem retireOps_threads (s : State) (r : Nat) : (s.retireOps r).threads = s.threads := by
  unfold State.retireOps
  dsimp only
  split
  · rfl
  · exact (modPart_threads ..).trans (modCore_threads ..)

theorem bundle?_congr {s t : State} (h : t.bundles = s.bundles) (p : PortId) : t.bundle? p = s.bundle? p := by
  simp only [State.bundle?, h]

section
variable {s : State} {p : PortId} {r : Nat} {b : Bundle} {l : Lane} (hb : s.bundle? p = some b) (hl : b.lane? r = some l)
  (ha : l.active = true) (hf : l.flumes = []) (abandoned : Bool)
include hb hl ha hf

theorem discard_bundle? : (s.discard p r abandoned).bundle? p = some (b.modLane r Lane.clear) := by
  rw [discard_eq hb hl ha hf]
  exact bundle?_modLane ((bundle?_congr (retireOps_bundles s r) p).trans hb) r _

theorem discard_thread? {t : Thread} (ht : s.thread? r = some t) :
    (s.discard p r abandoned).thread? r = some (t.dropsTrace abandoned) := by
  rw [discard_eq hb hl ha hf]
  exact thread?_modThread_same (f := (·.dropsTrace abandoned)) ((thread?_congr (retireOps_threads s r) r).trans ht)

theorem discard_thread?_other {q : Nat} (hq : q ≠ r) : (s.discard p r abandoned).thread? q = s.thread? q := by
  rw [discard_eq hb hl ha hf]
  exact (thread?_modThread_other _ hq _).trans (thread?_congr (retireOps_threads s r) q)

/-- Nothing but the reservations changes in a group. -/
theorem issueStep_discard : (s.unreserve r).IssueStep (s.discard p r abandoned) := by
  rw [discard_eq hb hl ha hf]
  refine State.IssueStep.trans (t := (s.retireOps r).unreserve r) ⟨?_, (State.IssueStep.retireOps s r).trace⟩
    ((State.IssueStep.modThread ..).trans (State.IssueStep.modLane ..))
  exact congrArg (State.unreserve · r) (State.IssueStep.retireOps s r).same

end

theorem unreserve_scr (s : State) (r : Nat) : (s.unreserve r).groups.map (·.scr) = s.groups.map (·.scr) := by
  simp only [State.unreserve, List.map_map]
  refine List.map_congr_left fun g _ => ?_
  simp only [Function.comp]
  split <;> rfl

/-! A guard that fails (R19) -/

/-- A lane with a record of its thread (R214). -/
def Lane.noted (t : Thread) (kind slotNo : Nat) (l : Lane) : Lane :=
  { l with recs := l.recs ++ [traceRec kind t.tag t.tid t.pc.toNat slotNo t.pos] }

theorem noteRec_eq {s : State} {r : Nat} {t : Thread} (ht : s.thread? r = some t) (p : PortId) (kind slotNo : Nat) :
    s.noteRec p r kind slotNo = s.modLane p r (Lane.noted t kind slotNo) := by
  simp only [State.noteRec, ht]
  rfl

/-- The thread of a lane that takes its guard's alternative. -/
def View.atAlt (v : View) (alt : Int) (t : Thread) : Thread :=
  { t with pc := .ofNat 64 (wrap 64 ((v.tr.hAddr : Int) + 8 * alt)), pos := 0, cnt := none }

/-- A lane that fails a guard, its bundle not yet left. -/
def State.altLane (s : State) (v : View) (alt : Int) : State := (s.noteRec v.p v.t.r 1 v.l.at_).modThread v.t.r (v.atAlt alt)

theorem failGuard_eq (s : State) (v : View) (alt : Int) :
    s.failGuard v alt = ((s.altLane v alt).discard v.p v.t.r false).leaveBundle v.p := rfl

/-- A failing guard drops the lane's trace and sends its thread to the alternative; memory, queues and logs are as before. -/
theorem guardFailure : GuardFailure := by
  intro s v alt hv hf hc t
  obtain ⟨-, hb, -, hl, ht, ha⟩ := view_spec hv
  have hs : s.IssueStep (s.altLane v alt) := by
    rw [State.altLane, noteRec_eq ht]
    exact (State.IssueStep.modLane ..).trans (State.IssueStep.modThread ..)
  have hb' : (s.altLane v alt).bundle? v.p = some (v.b.modLane v.t.r (Lane.noted v.t 1 v.l.at_)) := by
    rw [State.altLane, noteRec_eq ht]
    exact bundle?_modLane hb ..
  have hl' := lane?_modLane hl (Lane.noted v.t 1 v.l.at_)
  have ht' : (s.altLane v alt).thread? v.t.r = some (v.atAlt alt v.t) := by
    rw [State.altLane, noteRec_eq ht]
    exact thread?_modThread_same (s := s.modLane ..) ht (v.atAlt alt)
  have hd := issueStep_discard hb' hl' ha hf false
  have hc' : (((s.altLane v alt).discard v.p v.t.r false).core v.p.core).trace = none := by
    rw [hd.trace]
    exact (hs.trace _).trans hc
  have hq : ((s.altLane v alt).unreserve v.t.r).IssueStep t := hd.trans (State.IssueStep.leaveBundle hc')
  obtain ⟨th, hth, hm⟩ := leaveBundle_moved _ v.p (discard_thread? hb' hl' ha hf false ht')
  refine ⟨hq.mem.trans hs.mem, hq.hostMem.trans hs.hostMem, hq.peerMem.trans hs.peerMem, ?_, hq.blocks.trans hs.blocks,
    hq.out.trans hs.out, hq.oplog.trans hs.oplog, th, hth, ?_⟩
  · rw [hq.groups, unreserve_scr, hs.groups]
  · rw [hm]
    exact ⟨ofNat_wrap 64 _, rfl, rfl, rfl, rfl, rfl, rfl, rfl, rfl, rfl, rfl, rfl, rfl, rfl⟩

/-- Settles O18: what each guard tests, and the lane that fails one. -/
theorem guarding : Obligations.Guarding := ⟨guardTests, guardFailure⟩

end Sys2Proof.Machine
end


section
/-! SUPPORT. Where a result stands (R10, R18, R36). -/

namespace Sys2Proof.Machine

open Sys2Proof

/-! Results of a lane (R10, R18) -/

theorem put1_temps_wf {l : Lane} (h : sWf l.temps = true) (c : Nat) (w : Word) : sWf (l.put1 c w).temps = true := by
  unfold Lane.put1
  split
  · exact h
  · split
    · exact sSet_wf _ _ _ h
    · exact h

/-- A result that replaces the one of its code is found under that code, and the others as before. -/
theorem find?_held_replaced (l : List Held) (h : Held) (c : Nat) :
    (l.filter (·.code ≠ h.code) ++ [h]).find? (·.code == c) = if c = h.code then some h else l.find? (·.code == c) := by
  rw [List.find?_append]
  by_cases hc : c = h.code
  · have hnone : (l.filter (·.code ≠ h.code)).find? (·.code == c) = none :=
      List.find?_eq_none.mpr fun x hx => by simpa [hc] using (List.mem_filter.mp hx).2
    rw [hnone, if_pos hc, hc]
    simp
  · have hkeep : (l.filter (·.code ≠ h.code)).find? (·.code == c) = l.find? (·.code == c) := by
      rw [List.find?_filter]
      refine List.find?_congr fun x _ => ?_
      by_cases hx : x.code = c <;> simp [hx, hc]
    rw [hkeep, if_neg hc]
    simp [Ne.symm hc]

theorem laneReg_put1 {l : Lane} (hl : sWf l.temps = true) (t : Thread) (d c : Nat) (w : Word) :
    laneReg (l.put1 d w) t c = if d ≠ 0 ∧ c = d then w else laneReg l t c := by
  unfold Lane.put1
  by_cases hd : d = 0
  · simp [hd]
  by_cases ht : 1016 ≤ d
  · simp only [hd, ht, if_false, if_true, laneReg, not_false_eq_true, true_and, ne_eq]
    by_cases hc : 1016 ≤ c
    · simp only [hc, if_true, sGet_sSet _ _ _ _ hl]
      exact if_congr (by omega) rfl rfl
    · rw [if_neg (c := c = d) (by omega)]
      simp only [hc, if_false]
  · rw [if_neg hd, if_neg ht]
    have hf := find?_held_replaced l.res { code := d, value := w, full := true, keep := false, load := false } c
    simp only [laneReg, hf]
    by_cases hc : c = d
    · simp [hc, hd, ht]
    · simp [hc]

/-- A value of several registers stands word by word from its first register on (R10, R36). -/
theorem laneReg_putN {l : Lane} (hl : sWf l.temps = true) (t : Thread) (d x n c : Nat) :
    laneReg (l.putN d x n) t c =
      if d ≠ 0 ∧ d ≤ c ∧ c < d + n then BitVec.ofNat 32 (x / 2 ^ (32 * (c - d))) else laneReg l t c := by
  induction n generalizing l d x with
  | zero => exact (if_neg (by omega)).symm
  | succ n ih =>
    unfold Lane.putN
    by_cases hd : d = 0
    · simp [hd]
    rw [if_neg hd, ih (put1_temps_wf hl d _), laneReg_put1 hl]
    by_cases hc : c = d
    · subst hc
      rw [if_neg (by omega), if_pos ⟨hd, rfl⟩, if_pos (by omega), Nat.sub_self, Nat.mul_zero, Nat.pow_zero, Nat.div_one]
    · rw [if_neg (c := d ≠ 0 ∧ c = d) (by omega)]
      by_cases hin : d < c ∧ c < d + (n + 1)
      · rw [if_pos (by omega), if_pos (by omega), Nat.div_div_eq_div_mul, ← Nat.pow_add]
        congr 3
        omega
      · rw [if_neg (by omega), if_neg (by omega)]

/-- A narrow signed type is sign-extended to its register, every other zero-extended (R36). -/
theorem registerImages : RegisterImages := by
  intro t x hx
  have hs : ∀ w, 0 < w → wrap 32 (signed w x) = ((BitVec.ofNat w x).signExtend 32).toNat := fun w hw => by
    rw [← toInt_ofNat_eq_signed hw, ← toNat_ofInt_eq_wrap]
    rfl
  by_cases hn : t = .i8 ∨ t = .i16
  · rw [if_pos hn]
    rcases hn with rfl | rfl
    · exact hs 8 (by decide)
    · exact hs 16 (by decide)
  · rw [if_neg hn, BitVec.toNat_setWidth, BitVec.toNat_ofNat, Nat.mod_eq_of_lt hx]
    unfold regImage
    split
    · exact absurd (.inl rfl) hn
    · exact absurd (.inr rfl) hn
    · rfl

/-- Settles O19, register by register of the value. -/
theorem resultsLand : Obligations.ResultsLand :=
  ⟨fun _ t d x n c hl _ _ _ => laneReg_putN hl t d x n c, registerImages⟩

end Sys2Proof.Machine
end


section
/-! SUPPORT. Where a TRET goes on (R27, R132). -/

namespace Sys2Proof.Machine

open Sys2Proof

/-! Where a TRET goes on (R132) -/

theorem tretResume_of_slot_skip (s : State) (t : Thread) {tr : TrapState} {x : Succ} (hk : tr.kind = .slot) (hx : tr.succ = some x) :
    s.tretResume t tr true =
      (if tKind x.tword.toNat = 3 then s.modThread t.r fun t => t.setPair (tLink x.tword.toNat) x.after else s,
        { dest := succOf x t, pos := 0, cnt := none }) := by
  simp only [State.tretResume, hk, hx]

/-- The trace that a JUMP or a CALL names, counted in words from its H word (R28). -/
theorem succOf_branch {x : Succ} (h : tKind x.tword.toNat = 1 ∨ tKind x.tword.toNat = 3) (t : Thread) :
    succOf x t = .at_ (BitVec.ofInt 64 (x.hAddr + 8 * (BitVec.ofNat 24 x.tword.toNat).toInt)).toNat := by
  rw [toNat_ofInt_eq_wrap, ← tOffset_eq]
  rcases h with h | h <;> simp only [succOf, h]

theorem succOf_next {x : Succ} (h : tKind x.tword.toNat = 0) (t : Thread) : succOf x t = .at_ x.after := by
  simp only [succOf, h]

theorem succOf_ind {x : Succ} (h : tKind x.tword.toNat = 2) (t : Thread) :
    succOf x t = .at_ ((t.reg (tLink x.tword.toNat)).toNat + 2 ^ 32 * (t.reg (tLink x.tword.toNat + 1)).toNat) := by
  simp only [succOf, h]

theorem succOf_exit {x : Succ} (h : tKind x.tword.toNat = 4) (t : Thread) : succOf x t = .exit := by simp only [succOf, h]

theorem succOf_halt {x : Succ} (h : 5 ≤ tKind x.tword.toNat) (t : Thread) : succOf x t = .halt := by
  obtain ⟨k, hk⟩ : ∃ k, tKind x.tword.toNat = k + 5 := ⟨_, (Nat.sub_add_cancel h).symm⟩
  simp only [succOf, hk]

/-- A deferred fault: the load is given up, or issued again (R27). -/
theorem tretResume_deferred (s : State) (t : Thread) {tr : TrapState} {id : Nat} (hk : tr.kind = .deferred id) (skip : Bool) :
    (s.tretResume t tr skip).2 = { dest := .at_ tr.pc, pos := tr.pos, cnt := tr.cnt } ∧
      (s.tretResume t tr skip).1.oplog = if skip then s.oplog.filter (·.id ≠ id)
        else s.oplog.map fun e => if e.id = id then { e with walk := true, data := none, fault := none, cancelled := false } else e := by
  cases skip <;> simp [State.tretResume, hk, State.modThread]

theorem leaveTrap_of_trap {t : Thread} {tr : TrapState} (h : t.trap = some tr) :
    t.leaveTrap = { t with
      trap := none, more := tr.waits ++ t.more, ending := t.ending.or tr.ending
      hold := ⟨t.hold.drain || tr.holds.drain, t.hold.fill || tr.holds.fill, t.hold.merge || tr.holds.merge⟩ } := by
  simp only [Thread.leaveTrap, h]

/-- Settles O42, by the kind of the trap and, for a skipped slot, of the successor. -/
theorem trapReturn : Obligations.TrapReturn := by
  intro s t tr skip x back to_ branch link
  refine ⟨fun hk hs => ?_, fun hk => ?_, fun hk => ?_, fun hk hs hx => ?_, fun id hk => ?_, fun ht => ?_⟩
  · simp only [State.tretResume, hk, hs]; rfl
  · simp only [State.tretResume, hk]; rfl
  · simp only [State.tretResume, hk]; rfl
  · rw [hs, tretResume_of_slot_skip s t hk hx]
    refine ⟨fun h => ?_, fun h => ?_, fun h => ?_, fun h => ?_, fun h => ?_, fun h => ?_⟩
    · rw [if_neg (by omega), succOf_next h]
    · rw [if_neg (by omega), succOf_branch (.inl h)]
    · rw [if_neg (by omega), succOf_ind h]; rfl
    · rw [if_pos h, succOf_branch (.inr h)]; rfl
    · rw [if_neg (by omega), succOf_exit h]
    · rw [if_neg (by omega), succOf_halt h]
  · obtain ⟨hg, hl⟩ := tretResume_deferred s t hk skip
    refine ⟨hg, fun h => ?_, fun h e he hi => ?_⟩
    · rw [hl, if_pos h]
    · rw [hl, h]
      exact List.mem_map.mpr ⟨e, he, if_pos hi⟩
  · rw [leaveTrap_of_trap ht]
    exact ⟨rfl, rfl, rfl, rfl, rfl, rfl, rfl, rfl⟩

end Sys2Proof.Machine
end


section
/-! SUPPORT. What a step executes (R17, R20, R30, R61). -/

namespace Sys2Proof.Machine

open Sys2Proof

/-! The slot that a port issues (R17, R20, R61) -/

/-- A lane that holds nothing back ends its holds without a change. -/
theorem endHold_of_free (s : State) (t : Thread) (h : t.hold = ⟨false, false, false⟩) : s.endHold t = s := by
  simp [State.endHold, h]

theorem foldl_endHold_of_free (s : State) (l : List View) (h : ∀ x ∈ l, x.t.hold = ⟨false, false, false⟩) :
    l.foldl (fun (s : State) x => s.endHold x.t) s = s := by
  induction l with
  | nil => rfl
  | cons x l ih =>
    rw [List.forall_mem_cons] at h
    rw [List.foldl_cons, endHold_of_free s x.t h.1, ih h.2]

theorem heldBack_of_free (s : State) (t : Thread) (h : t.hold = ⟨false, false, false⟩) : s.heldBack t = false := by
  simp [State.heldBack, h]

/-- A lane's word that decodes hands its instruction on, with the issue counted. -/
theorem issueWord_of_decodes {s : State} {v : View} {w : Nat} {extra : Int} {i : Instr}
    (hw : v.tr.stepWord v.l.at_ v.l.pass = (w, extra, true)) (hp : opcodeOf w ≠ 0xE4)
    (hd : decodeSlot w ((v.tr.prefixAt v.l.at_).bind fun q => (decodePrefix q w).toOption) extra = .ok i) :
    s.issueWord v = .run i { (s.countIssue v) with cur := some (v.p, v.t.r) } := by
  simp only [State.issueWord, hw, hp, if_false, hd]

/-- Where no breakpoint stops a lane and no hold delays it, its word issues. -/
theorem issue_of_free {s : State} {p : PortId} {r : Nat} {v : View} (hv : s.viewOf p r = some v)
    (hb : ∀ x ∈ s.lanesAt p v.l.at_, s.bpHit x = none)
    (hh : v.l.at_ = 1 → ∀ x ∈ s.lanesAt p 1, x.t.hold = ⟨false, false, false⟩) : s.issue p r = s.issueWord v := by
  have hstops : (s.lanesAt p v.l.at_).filterMap (fun x => (s.bpHit x).map fun n => (x, n)) = [] :=
    List.filterMap_eq_nil_iff.mpr fun x hx => by simp [hb x hx]
  simp only [State.issue, hv, hstops, List.isEmpty_nil, Bool.not_true, Bool.false_eq_true, if_false]
  by_cases h1 : v.l.at_ = 1
  · have hfree : (s.lanesAt p 1).any (fun x => s.heldBack x.t) = false :=
      List.any_eq_false.mpr fun x hx => by simp [heldBack_of_free s x.t (hh h1 x hx)]
    simp [h1, hfree, foldl_endHold_of_free s _ (hh h1)]
  · simp [h1]

theorem stepIssues : StepIssues := by
  rintro s s1 p rest r w extra v i ha rfl hst hv hb hh hw hp hd
  obtain ⟨hvp, -⟩ := viewOf_key hv
  have hissue := (issue_of_free hv hb hh).trans (issueWord_of_decodes hw hp hd)
  rw [hvp] at hissue
  simp only [step, State.stepOnce, State.nextMove, ha, State.perform, hst, hissue]

/-! Events -/

/-- An event that is the next move is executed. -/
theorem step_of_event {s t : State} {i : Instr} (hi : isEvent i = true) (h : s.nextMove = (t, some (.event i))) :
    step s = exec i t := by
  simp only [step, State.stepOnce, h, State.perform, hi, if_true]

/-- Where the agenda is empty, time passes and the schedule is consulted. -/
theorem nextMove_of_idle {s : State} (ha : s.agenda = []) :
    let now := min (s.clk.toNat + Config.elapsed s.tick) (2 ^ 64 - 1)
    let t := State.passTime { s with tick := s.tick + 1, clk := .ofNat 64 now } (now - s.clk.toNat)
    s.nextMove = t.turn (if t.allowed (Config.schedule s.tick) then some (Config.schedule s.tick) else none) := by
  unfold State.nextMove
  split
  · rename_i h
    rw [ha] at h
    cases h
  · rfl

theorem turn_of_nothing_waiting {s : State} (h : s.waiting = []) (m : Option Move) : s.turn m = (s, m) := by
  simp only [State.turn, h]

theorem turn_of_waiting {s : State} {i : Instr} {js : List Instr} (h : s.waiting = i :: js) (m : Option Move) :
    s.turn m = ({ s with waiting := [], agenda := js.map .event ++ m.toList }, some (.event i)) := by
  simp only [State.turn, h]

/-- An event comes from the agenda, from the schedule where nothing waits, or from what waits. -/
theorem stepEvents : StepEvents := by
  intro s i rest hi
  refine ⟨fun ha => step_of_event hi ?_, fun ha => ⟨fun hw hs hal => step_of_event hi ?_, fun js hw => step_of_event hi ?_⟩⟩
  · simp only [State.nextMove, ha]
  · rw [nextMove_of_idle ha, turn_of_nothing_waiting (by exact hw), hs, if_pos hal]
  · rw [nextMove_of_idle ha, turn_of_waiting (i := i) (js := js) (by exact hw)]
    split <;> rfl

/-- Settles O35: a port issues the word of its lane, and an event is executed from the agenda, from the schedule or from what waits. -/
theorem stepRunsTheInstruction : Obligations.StepRunsTheInstruction := ⟨stepIssues, stepEvents⟩

end Sys2Proof.Machine
end


section
/-! SUPPORT. What reset leaves (R14, R196, R358). -/

namespace Sys2Proof.Machine

open Sys2Proof

/-- Nothing is listed at reset, so every byte reads as zero. -/
theorem byteAt_reset (p : Place) : State.reset.byteAt p = 0 := by cases p <;> rfl

/-- Settles O38: every list of the state is empty at reset. -/
theorem resetIsAsStated : Obligations.ResetIsAsStated := by
  unfold Obligations.ResetIsAsStated
  refine ⟨⟨rfl, rfl, rfl, rfl, rfl, rfl, rfl, rfl, rfl, rfl, byteAt_reset, ?_, ?_, ?_⟩, ?_⟩
  · exact fun _ => ⟨rfl, rfl, rfl, rfl⟩
  · exact fun _ => ⟨rfl, rfl⟩
  · exact fun _ => ⟨rfl, rfl, rfl⟩
  · exact ⟨Memory.wf_nil, Memory.wf_nil, Memory.wf_nil, fun _ hg => absurd hg List.not_mem_nil⟩

end Sys2Proof.Machine
end


section
/-! SUPPORT. Runs, race modes, requests to peers, numbers from one on. -/

namespace Sys2Proof.Machine

open Sys2Proof

/-! Numbers from one on -/

theorem upFrom_eq_range' (lo n : Nat) : upFrom lo n = List.range' lo n := by
  induction n generalizing lo with
  | zero => rfl
  | succ n ih => rw [List.range'_succ, ← ih]; rfl

theorem upFrom_zero (n : Nat) : upFrom 0 n = List.range n := by rw [upFrom_eq_range', List.range_eq_range']

/-! Runs -/

theorem run?_id {s : State} {k : Nat} {x : Run} (h : s.run? k = some x) : x.id = k := by simpa using List.find?_some h

theorem run?_modRun (s : State) (k : Nat) (f : Run → Run) (hf : ∀ x, (f x).id = x.id) (j : Nat) :
    (s.modRun k f).run? j = (s.run? j).map fun x => if x.id = k then f x else x :=
  find?_map_of_keeps (fun x => by split <;> simp [hf]) s.runs

/-- What a change of a run leaves alone in every run. -/
theorem run?_modRun_keeps {γ : Type} (g : Run → γ) (s : State) (k : Nat) (f : Run → Run) (hf : ∀ x, (f x).id = x.id) (hg : ∀ x, g (f x) = g x)
    (j : Nat) : ((s.modRun k f).run? j).map g = (s.run? j).map g := by
  rw [run?_modRun s k f hf, Option.map_map]
  refine Option.map_congr fun x _ => ?_
  simp only [Function.comp]
  split
  · exact hg x
  · rfl

/-- The race mode is the run's, as its node began, else the context's (R301). -/
theorem raceMode_congr {s t : State} {run : Nat} (hr : (t.run? run).map (·.racectl) = (s.run? run).map (·.racectl)) (hc : t.contexts = s.contexts)
    (ctx : Nat) : t.raceMode ctx run = s.raceMode ctx run := by
  unfold State.raceMode
  simp only [State.ctx?, hc]
  cases ht : t.run? run <;> cases hs : s.run? run <;> simp_all

/-! Requests to peers, POISON -/

/-- A request to a peer changes ports alone. -/
theorem askPeer_eq (s : State) (l : List Byte) (p : Place) : s.askPeer l p = { s with ports := (s.askPeer l p).ports } := by
  unfold State.askPeer
  split
  · split <;> rfl
  · rfl

theorem askPeers_eq {α : Type} (g : α → Place) (l : List Byte) (ps : List α) (s : State) :
    ps.foldl (fun (u : State) x => u.askPeer l (g x)) s = { s with ports := (ps.foldl (fun (u : State) x => u.askPeer l (g x)) s).ports } := by
  induction ps generalizing s with
  | nil => rfl
  | cons p ps ih =>
    rw [List.foldl_cons, ih, askPeer_eq]

theorem raceMode_notePoison (s : State) (x : Nat) (b : Bool) (ctx run : Nat) : (s.notePoison x b).raceMode ctx run = s.raceMode ctx run := by
  unfold State.notePoison
  split
  · exact raceMode_congr (run?_modRun_keeps _ s x (fun y => { y with cir := setBit y.cir cirPOISON true }) (fun _ => rfl) (fun _ => rfl) run) rfl ctx
  · rfl

end Sys2Proof.Machine
end


section
/-! SUPPORT. A load in its slot, and what it sees (R18, R117 to R120, R163). -/

namespace Sys2Proof.Machine

open Sys2Proof

/-! The address of an access (R118) -/

theorem memAddr_eq (s : State) (v : View) (i : Instr) (f : FM) : memAddr (s.operands v i) f.ty.bytes f.off = addrOf s v i f := by
  rw [addrOf, toNat_ofInt_eq_wrap, State.opd, toInt_ofNat_eq_signed (by decide)]
  rfl

/-! What the race detector leaves alone while it is off (R301, R302) -/

theorem raceMem_of_off {s : State} {t : Thread} (h : s.raceMode t.ctx t.run = 0) (chk : Bool) : s.raceMem t chk = false := by
  simp [State.raceMem, h]

theorem judgeValues_of_off {s : State} {t : Thread} (h : s.raceMode t.ctx t.run = 0) (x : AccAt) (write atomic : Bool)
    (l : List (Nat × Place × Bool)) : s.judgeValues t x write atomic l = (s, [], none) := by
  induction l with
  | nil => rfl
  | cons y l ih =>
    obtain ⟨va, p, chk⟩ := y
    simp only [State.judgeValues, State.raceChecked, raceMem_of_off h, Bool.false_and, Bool.not_false, if_true, ih]

theorem loadJudged_of_off {s : State} {v : View} (h : s.raceMode v.t.ctx v.t.run = 0) (f : FM) (pw : PWord) (va : Nat)
    (ps : List (Place × Bool)) (k : State → View → Act) : loadJudged f s v pw va ps k = k s v := by
  simp only [loadJudged, judgeValues_of_off h, List.append_nil]

/-! A load in its slot -/

/-- A load that is posted: a plain one into named registers (R117). -/
def postsLoad (f : FM) (pw : PWord) : Bool := 1 ≤ f.d.toNat && f.d.toNat ≤ 1015 && pw.ord == .plain

theorem postsLoad_iff (f : FM) (pw : PWord) : postsLoad f pw = true ↔ 1 ≤ f.d.toNat ∧ f.d.toNat ≤ 1015 ∧ pw.ord = .plain := by
  simp [postsLoad, and_assoc]

/-- The load of a slot has been posted: what stands in its entry, and what the lane keeps. -/
def State.Posts (s s' : State) (v : View) (f : FM) (walk : Bool) (places : List Place) (fault : Option (Nat × Nat × Nat)) : Prop :=
  ∃ e l, exec (.ld f) s = .next (({ s' with seq := s'.seq + 1 } : State).goesOn v l) ∧ e ∈ l.posted ∧ l.pond = v.l.pond ∧
    e.regs = (List.range (cntOf f.cnt * f.ty.words)).map (fun j => (f.d.toNat + j, j)) ∧ e.places = places ∧ e.walk = walk ∧ e.data = none ∧
    e.fault = fault ∧ e.ty = f.ty ∧ e.n = cntOf f.cnt ∧ e.va = addrOf s v (.ld f) f ∧ e.r = v.t.r ∧ e.slotNo = v.l.at_ ∧
    ∀ c, f.d.toNat ≤ c → c < f.d.toNat + cntOf f.cnt * f.ty.words → l.res.any (·.code == c) = false

/-- A posted load takes its registers from the results before it (R120). -/
theorem post_res (l : Lane) (e : LogEntry) {c : Nat} (h : e.regs.any (·.1 == c) = true) : (l.post e).res.any (·.code == c) = false := by
  simp only [Lane.post, List.any_eq_false, List.mem_filter, beq_iff_eq]
  rintro x ⟨-, hx⟩ rfl
  simp [h] at hx

theorem posts_of_post {s s' : State} {v : View} {f : FM} {pw : PWord} {walk chk : Bool} {places : List Place} {fault : Option (Nat × Nat × Nat)}
    (h : exec (.ld f) s = .next (({ s' with seq := s'.seq + 1 } : State).goesOn v
      (v.l.post { loadEntry (.ld f) f v pw (addrOf s v (.ld f) f) s'.seq walk chk places with fault }))) : s.Posts s' v f walk places fault := by
  have hregs : (loadEntry (.ld f) f v pw (addrOf s v (.ld f) f) s'.seq walk chk places).regs =
      (List.range (cntOf f.cnt * f.ty.words)).map fun j => (f.d.toNat + j, j) := by rw [← upFrom_zero]; rfl
  refine ⟨_, _, h, List.mem_append_right _ (List.mem_singleton.mpr rfl), rfl, hregs, rfl, rfl, rfl, rfl, rfl, rfl, rfl, rfl, rfl, fun c hlo hhi => ?_⟩
  refine post_res _ _ (List.any_eq_true.mpr ⟨(c, c - f.d.toNat), ?_, beq_self_eq_true c⟩)
  change _ ∈ (loadEntry (.ld f) f v pw (addrOf s v (.ld f) f) s'.seq walk chk places).regs
  rw [hregs]
  exact List.mem_map.mpr ⟨c - f.d.toNat, List.mem_range.mpr (by omega), by rw [Nat.add_sub_cancel' hlo]⟩

theorem performLoads_of_none {s : State} {t : Thread} {l : Lane} (hl : l.posted = []) (ho : s.outstanding t.r = []) (upTo : Nat) :
    s.performLoads t l upTo = .ok s l [] := by
  have hlog : s.performLog t upTo = s := by simp only [State.performLog, ho, List.filter_nil, State.performInOrder]
  have hw : s.loadsWait t.r = false := by simp only [State.loadsWait, ho, List.any_nil]
  simp only [State.performLoads, hlog, hw, hl, List.filter_nil, List.map_nil, State.performEach, Bool.false_eq_true, if_false]

section
variable {s s' : State} {v : View} {f : FM} (h : s.Ready v (.ld f))
include h

/-- A posted load whose walk finds no mapping goes its way with that fault. -/
theorem ld_unmapped {d a : Nat} (hp : postsLoad f (s.attrs v.t f.pre ordLd) = true)
    (hc : s.checkAccess v.t (s.attrs v.t f.pre ordLd).space (addrOf s v (.ld f) f) f.ty.bytes (cntOf f.cnt) false (loadWho s.seq) =
      (s', .fault 0x0C d a)) : s.Posts s' v f false [] (some (0x0C, d, a)) := by
  refine posts_of_post (chk := false) (pw := s.attrs v.t f.pre ordLd) (runSlot_done h _ ?_)
  rw [postsLoad] at hp
  simp only [memAddr_eq, hp, if_true, hc]
  rfl

/-- A posted load whose translation is under way is posted without its places. -/
theorem ld_walks (hp : postsLoad f (s.attrs v.t f.pre ordLd) = true)
    (hc : s.checkAccess v.t (s.attrs v.t f.pre ordLd).space (addrOf s v (.ld f) f) f.ty.bytes (cntOf f.cnt) false (loadWho s.seq) =
      (s', .wait)) : s.Posts s' v f true [] none := by
  refine posts_of_post (chk := false) (pw := s.attrs v.t f.pre ordLd) (runSlot_done h _ ?_)
  rw [postsLoad] at hp
  simp only [memAddr_eq, hp, if_true, hc]
  rfl

/-- Any other load waits in its slot. -/
theorem ld_stalls (hp : postsLoad f (s.attrs v.t f.pre ordLd) = false)
    (hc : s.checkAccess v.t (s.attrs v.t f.pre ordLd).space (addrOf s v (.ld f) f) f.ty.bytes (cntOf f.cnt) false v.t.r = (s', .wait)) :
    exec (.ld f) s = .next (s'.modLane v.p v.t.r fun _ => v.l) := by
  refine (runSlot_ready h _).trans ?_
  rw [postsLoad] at hp
  simp only [memAddr_eq, hp, Bool.false_eq_true, if_false, hc]
  rfl

/-- A posted load whose translation is at hand keeps the places of its values. -/
theorem ld_posted {ps : List (Place × Bool)} (hp : postsLoad f (s.attrs v.t f.pre ordLd) = true) (hr : s'.raceMode v.t.ctx v.t.run = 0)
    (hc : s.checkAccess v.t (s.attrs v.t f.pre ordLd).space (addrOf s v (.ld f) f) f.ty.bytes (cntOf f.cnt) false (loadWho s.seq) =
      (s', .ok ps)) : s.Posts s' v f false (ps.map (·.1)) none := by
  refine posts_of_post (chk := ps.any fun x => s'.raceMem v.t x.2) (pw := s.attrs v.t f.pre ordLd) (runSlot_done h _ ?_)
  rw [postsLoad] at hp
  simp only [memAddr_eq, hp, if_true, hc, loadJudged_of_off hr]
  rfl

/-- A load into temporaries or v0, or with an ordering, performs in its slot where no load of its thread is outstanding. -/
theorem ld_delivers {ps : List (Place × Bool)} (hp : postsLoad f (s.attrs v.t f.pre ordLd) = false) (hr : s'.raceMode v.t.ctx v.t.run = 0)
    (hc : s.checkAccess v.t (s.attrs v.t f.pre ordLd).space (addrOf s v (.ld f) f) f.ty.bytes (cntOf f.cnt) false v.t.r = (s', .ok ps))
    (hl : v.l.posted = []) (ho : s'.outstanding v.t.r = []) :
    exec (.ld f) s = .next ((s'.loadNow f v (s.attrs v.t f.pre ordLd) ps).1.goesOn v (s'.loadNow f v (s.attrs v.t f.pre ordLd) ps).2) := by
  refine runSlot_done h _ ?_
  rw [postsLoad] at hp
  simp only [memAddr_eq, hp, Bool.false_eq_true, if_false, hc, performLoads_of_none hl ho]
  exact loadJudged_of_off hr ..

end

/-! What a load delivers in its slot -/

theorem length_loadImages (t : Ty) (n : Nat) (l : List Byte) : (loadImages t n l).length = n * t.words := by
  induction n generalizing l with
  | zero => simp [loadImages]
  | succ n ih => simp [loadImages, ih, upFrom_zero, Nat.add_mul, Nat.add_comm]

/-- Words put into the registers from a code on. -/
def Lane.putWords (l : Lane) (d : Nat) (ws : List Word) : Lane := (ws.zip (upFrom d ws.length)).foldl (fun (l : Lane) x => l.put1 x.2 x.1) l

theorem putWords_cons (l : Lane) (d : Nat) (w : Word) (ws : List Word) : l.putWords d (w :: ws) = (l.put1 d w).putWords (d + 1) ws := rfl

theorem put1_pond (l : Lane) (c : Nat) (w : Word) : (l.put1 c w).pond = l.pond ∧ (l.put1 c w).scReads = l.scReads := by
  unfold Lane.put1
  split
  · exact ⟨rfl, rfl⟩
  · split <;> exact ⟨rfl, rfl⟩

theorem putWords_pond (l : Lane) (d : Nat) (ws : List Word) :
    (l.putWords d ws).pond = l.pond ∧ (l.putWords d ws).scReads = l.scReads := by
  induction ws generalizing l d with
  | nil => exact ⟨rfl, rfl⟩
  | cons w ws ih =>
    rw [putWords_cons]
    exact ⟨(ih _ _).1.trans (put1_pond ..).1, (ih _ _).2.trans (put1_pond ..).2⟩

/-- Words put into temporaries leave the results alone. -/
theorem putWords_res (l : Lane) {d : Nat} (hd : 1016 ≤ d) (ws : List Word) : (l.putWords d ws).res = l.res := by
  induction ws generalizing l d with
  | nil => rfl
  | cons w ws ih =>
    rw [putWords_cons, ih _ (by omega), Lane.put1, if_neg (by omega), if_pos hd]

theorem laneReg_putWords {l : Lane} (hl : sWf l.temps = true) (t : Thread) {d : Nat} (hd : 1 ≤ d) (ws : List Word) (c : Nat) :
    laneReg (l.putWords d ws) t c = if d ≤ c ∧ c < d + ws.length then ws.getD (c - d) 0 else laneReg l t c := by
  induction ws generalizing l d with
  | nil => exact (if_neg (by simp only [List.length_nil]; omega)).symm
  | cons w ws ih =>
    rw [putWords_cons, ih (put1_temps_wf hl d w) (by omega), laneReg_put1 hl, List.length_cons]
    by_cases hc : c = d
    · subst hc
      rw [if_neg (by omega), if_pos ⟨by omega, rfl⟩, if_pos (by omega), Nat.sub_self, List.getD_cons_zero]
    · rw [if_neg (c := d ≠ 0 ∧ c = d) (by omega)]
      by_cases hin : d < c ∧ c < d + 1 + ws.length
      · obtain ⟨k, rfl⟩ : ∃ k, c = d + (k + 1) := ⟨c - d - 1, by omega⟩
        rw [if_pos (by omega), if_pos (by omega), Nat.add_sub_cancel_left, List.getD_cons_succ]
        congr 1
        omega
      · rw [if_neg (by omega), if_neg (by omega)]

theorem noteSc_eq (l : Lane) (sc : Bool) (n : Nat) (ps : List Place) (bytes : List Byte) :
    l.noteSc sc n ps bytes = { l with scReads := (l.noteSc sc n ps bytes).scReads } := by
  unfold Lane.noteSc
  split <;> rfl

/-- A lane to which a load has delivered the bytes it has seen. -/
def View.delivered (v : View) (f : FM) (o : Ord) (ps : List Place) (bytes : List Byte) : Lane :=
  let l := v.l.noteSc (o == .sc) f.ty.bytes ps bytes
  if f.d.toNat = 0 then l else l.putWords f.d.toNat (loadImages f.ty (cntOf f.cnt) bytes)

theorem delivered_scReads (v : View) (f : FM) (o : Ord) (ps : List Place) (bytes : List Byte) :
    (v.delivered f o ps bytes).pond = v.l.pond ∧ (v.delivered f o ps bytes).scReads =
      if o = .sc ∧ v.l.stores.any (·.ord == .sc) then v.l.scReads ++ [(v.l.at_, f.ty.bytes, ps, bytes)] else v.l.scReads := by
  have hl : (v.l.noteSc (o == .sc) f.ty.bytes ps bytes).scReads =
      if o = .sc ∧ v.l.stores.any (·.ord == .sc) then v.l.scReads ++ [(v.l.at_, f.ty.bytes, ps, bytes)] else v.l.scReads := by
    simp only [Lane.noteSc, Bool.and_eq_true, beq_iff_eq]
    split <;> rfl
  have hp : (v.l.noteSc (o == .sc) f.ty.bytes ps bytes).pond = v.l.pond := by rw [noteSc_eq]
  unfold View.delivered
  dsimp only
  split
  · exact ⟨hp, hl⟩
  · exact ⟨(putWords_pond ..).1.trans hp, (putWords_pond ..).2.trans hl⟩

/-- Word by word, a load's registers hold what it has seen. -/
theorem laneReg_delivered {v : View} {f : FM} (h1 : 1 ≤ f.d.toNat) (hw : sWf v.l.temps = true) (o : Ord) (ps : List Place) (bytes : List Byte)
    {j : Nat} (hj : j < cntOf f.cnt * f.ty.words) :
    laneReg (v.delivered f o ps bytes) v.t (f.d.toNat + j) = (loadImages f.ty (cntOf f.cnt) bytes).getD j 0 := by
  have ht : sWf (v.l.noteSc (o == .sc) f.ty.bytes ps bytes).temps = true := by rwa [noteSc_eq]
  rw [View.delivered, if_neg (by omega), laneReg_putWords ht v.t h1, length_loadImages, if_pos (by omega), Nat.add_sub_cancel_left]

theorem delivered_spec (f : FM) (v : View) (o : Ord) (ps : List Place) (bytes : List Byte) :
    let l := v.delivered f o ps bytes
    l.pond = v.l.pond ∧
      l.scReads = (if o = .sc ∧ v.l.stores.any (·.ord == .sc) then v.l.scReads ++ [(v.l.at_, f.ty.bytes, ps, bytes)] else v.l.scReads) ∧
      (f.d.toNat = 0 → l = { v.l with scReads := l.scReads }) ∧ (1016 ≤ f.d.toNat → l.res = v.l.res) ∧
      (1 ≤ f.d.toNat → sWf v.l.temps = true → ∀ j, j < cntOf f.cnt * f.ty.words →
        laneReg l v.t (f.d.toNat + j) = (loadImages f.ty (cntOf f.cnt) bytes).getD j 0) := by
  refine ⟨(delivered_scReads ..).1, (delivered_scReads ..).2, fun h0 => ?_, fun ht => ?_, fun h1 hw j hj => laneReg_delivered h1 hw o ps bytes hj⟩
  · simp only [View.delivered, h0, if_true]
    exact noteSc_eq ..
  · have hd : f.d.toNat ≠ 0 := by omega
    simp only [View.delivered, hd, if_false]
    rw [putWords_res _ ht, noteSc_eq]

/-- A load performs in its slot: each byte of a peer is asked for, and POISON is noted. -/
theorem loadNow_eq {s : State} {v : View} {pw : PWord} (hr : s.raceMode v.t.ctx v.t.run = 0)
    (hsc : pw.ord = .sc → ∀ st ∈ s.drained (coreOfSlot v.t.r), st.ord ≠ .sc) (f : FM) (ps : List (Place × Bool)) :
    let seen := s.viewValues v.t v.l.stores f.ty.bytes (ps.map (·.1))
    s.loadNow f v pw ps = ((ps.foldl (fun (u : State) x => u.askPeer [] x.1) s).notePoison v.t.run seen.2,
      v.delivered f pw.ord (ps.map (·.1)) seen.1) := by
  intro seen
  have hflush : (pw.ord == .sc && (s.drained (coreOfSlot v.t.r)).any (·.ord == .sc)) = false := by
    rw [Bool.and_eq_false_imp, beq_iff_eq]
    intro h
    simpa using hsc h
  have hoff : ((ps.foldl (fun (u : State) x => u.askPeer [] x.1) s).notePoison v.t.run seen.2).raceMode v.t.ctx v.t.run = 0 := by
    rw [raceMode_notePoison, askPeers_eq]
    exact hr
  have hnotes : ∀ u : State, u.raceMode v.t.ctx v.t.run = 0 → ps.foldl (fun (s : State) x => if !s.raceMem v.t x.2 then s
      else if pw.ord.acquires then s.acquireLine v.t.r v.t.ctx x.1.line else s.pendLine v.t.r x.1.line) u = u := fun u hu =>
    foldl_fixed_of_mem fun x _ => by simp only [raceMem_of_off hu, Bool.not_false, if_true]
  simp only [State.loadNow, hflush, Bool.false_eq_true, if_false]
  rw [hnotes _ hoff]
  rfl

theorem loadInSlot : LoadInSlot := by
  intro s s' v f ps h i pw n named checked posts
  have hp : ¬named → postsLoad f pw = false := fun hn => by rwa [← Bool.not_eq_true, postsLoad_iff]
  have hn : named → postsLoad f pw = true := (postsLoad_iff f pw).mpr
  have hyes : named → checked = s.checkAccess v.t pw.space (addrOf s v i f) f.ty.bytes (cntOf f.cnt) false (loadWho s.seq) := fun hd => by
    simp only [checked, if_pos hd]
  have hno : ¬named → checked = s.checkAccess v.t pw.space (addrOf s v i f) f.ty.bytes (cntOf f.cnt) false v.t.r := fun hd => by
    simp only [checked, if_neg hd]
  refine ⟨fun d a hc hd => ?_, fun hc => ⟨fun hd => ?_, fun hd => ?_⟩, fun hc hr => ⟨fun hd => ?_, fun hd hl ho hsc => ?_⟩⟩
  · exact ld_unmapped h (hn hd) ((hyes hd).symm.trans hc)
  · exact ld_walks h (hn hd) ((hyes hd).symm.trans hc)
  · exact ld_stalls h (hp hd) ((hno hd).symm.trans hc)
  · exact ld_posted h (hn hd) hr ((hyes hd).symm.trans hc)
  · intro seen asked
    have hx := ld_delivers h (hp hd) hr ((hno hd).symm.trans hc) hl ho
    rw [loadNow_eq hr hsc f ps] at hx
    exact ⟨_, hx, delivered_spec f v pw.ord (ps.map (·.1)) seen.1⟩

/-! What a load sees (R18, R163) -/

theorem sub?_add (p : Place) (k : Nat) : (p.add k).sub? p = some k := by
  cases p <;> simp [Place.add, Place.sub?]

theorem newestByte_append (l : List Store) (st : Store) (p : Place) : newestByte (l ++ [st]) p = (st.byte? p).or (newestByte l p) := by
  rw [newestByte, List.foldl_append]
  rfl

theorem loadSeesNewest : LoadSeesNewest := by
  intro s t pond st k p
  refine ⟨fun hk => ?_, fun h1 h2 h3 => ?_, fun b h1 h2 => ?_, fun b h1 h2 h3 => ?_⟩
  · have hb : st.byte? (st.place.add k) = some (st.bytes.getD k 0) := by
      simp [Store.byte?, sub?_add, hk]
    simp only [State.viewByte, newestByte_append, hb, Option.some_or]
  · simp only [State.viewByte, h1, h2, h3, Option.or_none, State.readByte]
    split <;> simp_all
  · simp only [State.viewByte, h1, h2, Option.none_or, Option.some_or]
  · simp only [State.viewByte, h1, h2, h3, Option.none_or]

/-- Settles O25: a load in its slot by the answer of its checks, and the stores that it sees in their order. -/
theorem loads : Obligations.Loads := ⟨loadInSlot, loadSeesNewest⟩

end Sys2Proof.Machine
end


section
/-! SUPPORT. Registers of a thread that take values (R9 to R11). -/

namespace Sys2Proof.Machine

open Sys2Proof

/-! Registers of a thread, and their full/empty bits (R9 to R11) -/

/-- Two threads that differ at most in registers, in which of them are empty, and in which await a fill. -/
def Thread.RegStep (t u : Thread) : Prop := u = { t with regs := u.regs, empty := u.empty, fills := u.fills }

namespace Thread.RegStep

theorem refl (t : Thread) : t.RegStep t := rfl

theorem trans {t u v : Thread} (a : t.RegStep u) (b : u.RegStep v) : t.RegStep v :=
  Eq.trans b (congrArg (fun x : Thread => { x with regs := v.regs, empty := v.empty, fills := v.fills }) a)

theorem foldl {α : Type} {f : Thread → α → Thread} (hf : ∀ (t : Thread) a, t.RegStep (f t a)) (l : List α) (t : Thread) : t.RegStep (l.foldl f t) := by
  induction l generalizing t with
  | nil => exact refl t
  | cons a l ih => exact (hf t a).trans (ih _)

theorem setReg (t : Thread) (c : Nat) (w : Word) : t.RegStep (t.setReg c w) := by
  unfold Thread.setReg
  split <;> rfl

theorem setFull (t : Thread) (c : Nat) : t.RegStep (t.setFull c) := rfl

theorem markEmpty (t : Thread) (c : Nat) : t.RegStep (t.markEmpty c) := by
  unfold Thread.markEmpty
  split <;> rfl

section
variable {t u : Thread} (h : t.RegStep u)
include h
theorem r : u.r = t.r := (congrArg Thread.r h).trans rfl
theorem badRegs : u.badRegs = t.badRegs := (congrArg Thread.badRegs h).trans rfl
theorem status : u.status = t.status := (congrArg Thread.status h).trans rfl
theorem wait : u.wait = t.wait := (congrArg Thread.wait h).trans rfl
end

end Thread.RegStep

theorem setReg_wf {t : Thread} (h : sWf t.regs = true) (c : Nat) (w : Word) : sWf (t.setReg c w).regs = true := by
  unfold Thread.setReg
  split
  · exact h
  · exact sSet_wf _ _ _ h

theorem reg_setReg {t : Thread} (h : sWf t.regs = true) {c : Nat} (hb : c ∉ t.badRegs) (w : Word) (d : Nat) :
    (t.setReg c w).reg d = if 1 ≤ c ∧ c ≤ 1015 ∧ d = c then w else t.reg d := by
  have hb' : t.badRegs.contains c = false := by simpa using hb
  unfold Thread.setReg
  simp only [hb', Bool.or_false, Bool.or_eq_true, decide_eq_true_eq]
  by_cases hc : c = 0 ∨ 1016 ≤ c
  · rw [if_pos hc, if_neg (by omega)]
  · rw [if_neg hc]
    simp only [Thread.reg, sGet_sSet _ _ _ _ h]
    by_cases hd : d = c
    · rw [if_neg (by omega), if_pos hd, if_pos (by omega)]
    · rw [if_neg hd, if_neg (c := 1 ≤ c ∧ c ≤ 1015 ∧ d = c) (fun x => hd x.2.2)]

theorem isEmpty_setReg (t : Thread) (c d : Nat) (w : Word) : (t.setReg c w).isEmpty d = t.isEmpty d := by
  unfold Thread.setReg
  split <;> rfl

theorem fills_setReg (t : Thread) (c : Nat) (w : Word) : (t.setReg c w).fills = t.fills := by
  unfold Thread.setReg
  split <;> rfl

theorem isEmpty_setFull (t : Thread) (c d : Nat) : (t.setFull c).isEmpty d = (d ≠ c && t.isEmpty d) := by
  rw [Bool.eq_iff_iff]
  simp [Thread.isEmpty, Thread.setFull, setDel, and_comm]

theorem fills_setFull (t : Thread) (c d : Nat) : (t.setFull c).fills.contains d = (d ≠ c && t.fills.contains d) := by
  rw [Bool.eq_iff_iff]
  simp [Thread.setFull, setDel, and_comm]

/-- A register takes a value and is full. -/
def Thread.take (t : Thread) (c : Nat) (w : Word) : Thread := (t.setReg c w).setFull c

theorem Thread.RegStep.take (t : Thread) (c : Nat) (w : Word) : t.RegStep (t.take c w) := (Thread.RegStep.setReg t c w).trans (Thread.RegStep.setFull _ c)

section
variable {α : Type} (code : α → Nat) (val : α → Word)

/-- Registers take values and are full. -/
def Thread.takeAll (t : Thread) (l : List α) : Thread := l.foldl (fun t x => t.take (code x) (val x)) t

theorem Thread.RegStep.takeAll (t : Thread) (l : List α) : t.RegStep (t.takeAll code val l) := Thread.RegStep.foldl (fun _ _ => Thread.RegStep.take ..) l t

variable {code val}

/-- Every register that is none of those stands as before. -/
theorem takeAll_other {l : List α} {t : Thread} (hw : sWf t.regs = true) (hb : ∀ x ∈ l, code x ∉ t.badRegs) {c : Nat} (hc : ∀ x ∈ l, code x ≠ c) :
    (t.takeAll code val l).reg c = t.reg c ∧ (t.takeAll code val l).isEmpty c = t.isEmpty c ∧
      (t.takeAll code val l).fills.contains c = t.fills.contains c := by
  induction l generalizing t with
  | nil => exact ⟨rfl, rfl, rfl⟩
  | cons x l ih =>
    rw [List.forall_mem_cons] at hb hc
    have hstep := Thread.RegStep.take t (code x) (val x)
    have hc1 := Ne.symm hc.1
    obtain ⟨h1, h2, h3⟩ := ih (t := t.take (code x) (val x)) (setReg_wf hw _ _) (hstep.badRegs ▸ hb.2) hc.2
    refine ⟨h1.trans ?_, h2.trans ?_, h3.trans ?_⟩
    · exact (reg_setReg hw hb.1 (val x) c).trans (if_neg fun h => hc1 h.2.2)
    · simp only [Thread.take, isEmpty_setFull, isEmpty_setReg, hc1, ne_eq, not_false_eq_true, decide_true, Bool.true_and]
    · simp only [Thread.take, fills_setFull, fills_setReg, hc1, ne_eq, not_false_eq_true, decide_true, Bool.true_and]

/-- Each of those registers has its value, is full and awaits no fill. -/
theorem takeAll_mem {l : List α} {t : Thread} (hw : sWf t.regs = true) (hb : ∀ x ∈ l, code x ∉ t.badRegs) (hn : (l.map code).Nodup) {x : α}
    (hx : x ∈ l) (h1 : 1 ≤ code x) (h2 : code x ≤ 1015) :
    (t.takeAll code val l).reg (code x) = val x ∧ (t.takeAll code val l).isEmpty (code x) = false ∧
      (t.takeAll code val l).fills.contains (code x) = false := by
  induction l generalizing t with
  | nil => cases hx
  | cons y l ih =>
    rw [List.forall_mem_cons] at hb
    rw [List.map_cons, List.nodup_cons] at hn
    have hstep := Thread.RegStep.take t (code y) (val y)
    have hw' := setReg_wf hw (code y) (val y)
    rcases List.mem_cons.mp hx with rfl | hx
    · obtain ⟨ha, hb', hc⟩ := takeAll_other (val := val) (l := l) (t := t.take (code x) (val x)) hw' (hstep.badRegs ▸ hb.2)
        (c := code x) fun z hz he => hn.1 (he ▸ List.mem_map_of_mem hz)
      refine ⟨ha.trans ?_, hb'.trans ?_, hc.trans ?_⟩
      · exact (reg_setReg hw hb.1 (val x) _).trans (if_pos ⟨h1, h2, rfl⟩)
      · simp only [Thread.take, isEmpty_setFull, ne_eq, not_true, decide_false, Bool.false_and]
      · simp only [Thread.take, fills_setFull, ne_eq, not_true, decide_false, Bool.false_and]
    · exact ih (t := t.take (code y) (val y)) hw' (hstep.badRegs ▸ hb.2) hn.2 hx

end

/-- Reading registers in no poisoned line notes nothing. -/
theorem noteRegs_of_clean {s : State} {r : Nat} {t : Thread} (ht : s.thread? r = some t) {codes : List Nat} (h : ∀ c ∈ codes, c ∉ t.badRegs) :
    s.noteRegs r codes = s := by
  have hn : codes.any t.badRegs.contains = false := by simpa using h
  simp only [State.noteRegs, ht, State.notePoison, hn, Bool.false_eq_true, if_false]

end Sys2Proof.Machine
end


section
/-! SUPPORT. What a write of the hardware, a trace record and a thread that moves leave alone. -/

namespace Sys2Proof.Machine

open Sys2Proof

/-! What a write of the hardware, for no run, can change (R290) -/

/-- The second state differs from the first at most in memories and in what keeps them: scratch within groups, poison, encrypted pages, requests to
peers. -/
structure State.Stored (s t : State) : Prop where
  same : t = { s with mem := t.mem, hostMem := t.hostMem, peerMem := t.peerMem, groups := t.groups, ports := t.ports, poison := t.poison, encPages := t.encPages }

namespace State.Stored

theorem refl (s : State) : s.Stored s := ⟨rfl⟩

theorem trans {s t u : State} (a : s.Stored t) (b : t.Stored u) : s.Stored u :=
  ⟨b.same.trans (congrArg (fun x : State => { x with
    mem := u.mem, hostMem := u.hostMem, peerMem := u.peerMem, groups := u.groups, ports := u.ports, poison := u.poison, encPages := u.encPages }) a.same)⟩

theorem putByte (s : State) (p : Place) (b : Byte) : s.Stored (s.putByte p b) := by cases p <;> exact ⟨rfl⟩

theorem writeAt (s : State) (p : Place) (l : List Byte) : s.Stored (s.writeAt p l) := by
  induction l generalizing s p with
  | nil => exact refl s
  | cons b l ih => exact (putByte s p b).trans (ih ..)

theorem askPeer (s : State) (l : List Byte) (p : Place) : s.Stored (s.askPeer l p) := by
  unfold State.askPeer
  split
  · split <;> exact ⟨rfl⟩
  · exact refl s

theorem heal (s : State) (line : Place) : s.Stored (s.heal line) := by
  unfold State.heal
  dsimp only
  split
  · split
    · exact ⟨rfl⟩
    · split <;> exact ⟨rfl⟩
  · exact ⟨rfl⟩

theorem storeLine (s : State) (p : Place) (l : List Byte) : s.Stored (s.storeLine none p l) := by
  have ha := askPeer s l p
  unfold State.storeLine
  dsimp only
  split
  · split
    · exact (ha.trans (writeAt ..)).trans (heal ..)
    · exact ha
  · exact ha.trans (writeAt ..)

theorem storeLines (s : State) (n : Nat) (p : Place) (l : List Byte) : s.Stored (s.storeLines none n p l) := by
  induction n generalizing s p l with
  | zero => exact refl s
  | succ n ih =>
    unfold State.storeLines
    split
    · exact refl s
    · exact (storeLine ..).trans (ih ..)

theorem store (s : State) (p : Place) (l : List Byte) : s.Stored (s.store none p l) := storeLines ..

theorem writeCtx {s t : State} {ctx va : Nat} {l : List Byte} (h : s.writeCtx ctx va l = some t) : s.Stored t := by
  obtain ⟨p, -, rfl⟩ := Option.map_eq_some_iff.mp h
  exact store ..

theorem writeCtx_getD (s : State) (ctx va : Nat) (l : List Byte) : s.Stored ((s.writeCtx ctx va l).getD s) := by
  cases h : s.writeCtx ctx va l with
  | none => exact refl s
  | some t => exact writeCtx h

section
variable {s t : State} (h : s.Stored t)
include h
theorem threads : t.threads = s.threads := (congrArg State.threads h.same).trans rfl
theorem bundles : t.bundles = s.bundles := (congrArg State.bundles h.same).trans rfl
theorem contexts : t.contexts = s.contexts := (congrArg State.contexts h.same).trans rfl
theorem oplog : t.oplog = s.oplog := (congrArg State.oplog h.same).trans rfl
theorem runs : t.runs = s.runs := (congrArg State.runs h.same).trans rfl
theorem cores : t.cores = s.cores := (congrArg State.cores h.same).trans rfl
theorem table : t.table = s.table := (congrArg State.table h.same).trans rfl
end

end State.Stored

/-! What a trace record can change (R214, R215) -/

/-- The second state differs from the first at most by a write of the hardware, in cores' trace buffers, and by events to come. -/
structure State.Recorded (s t : State) : Prop where
  same : t = { s with mem := t.mem, hostMem := t.hostMem, peerMem := t.peerMem, groups := t.groups, ports := t.ports, poison := t.poison,
                      encPages := t.encPages, cores := t.cores, agenda := t.agenda }

namespace State.Recorded

theorem refl (s : State) : s.Recorded s := ⟨rfl⟩

theorem trans {s t u : State} (a : s.Recorded t) (b : t.Recorded u) : s.Recorded u :=
  ⟨b.same.trans (congrArg (fun x : State => { x with
    mem := u.mem, hostMem := u.hostMem, peerMem := u.peerMem, groups := u.groups, ports := u.ports, poison := u.poison, encPages := u.encPages
    cores := u.cores, agenda := u.agenda }) a.same)⟩

theorem foldl {α : Type} {f : State → α → State} (hf : ∀ (s : State) a, s.Recorded (f s a)) (l : List α) (s : State) : s.Recorded (l.foldl f s) := by
  induction l generalizing s with
  | nil => exact refl s
  | cons a l ih => exact (hf s a).trans (ih _)

theorem of_stored {s t : State} (h : s.Stored t) : s.Recorded t :=
  ⟨h.same.trans (by rw [← congrArg State.cores h.same, ← congrArg State.agenda h.same])⟩

theorem modCore (s : State) (c : Nat) (f : Core → Core) : s.Recorded (s.modCore c f) := by
  unfold State.modCore
  split <;> exact ⟨rfl⟩

theorem putTrace (s : State) (c ctx x : Nat) : s.Recorded (s.putTrace c ctx x) := by
  unfold State.putTrace
  split
  · split
    · exact (of_stored (.writeCtx_getD ..)).trans (modCore ..)
    · exact refl s
  · exact refl s

theorem writeTrace (s : State) (c ctx x : Nat) : s.Recorded (s.writeTrace c ctx x) := by
  unfold State.writeTrace
  split
  · split
    · exact refl s
    · split
      · exact modCore ..
      · dsimp only
        split
        · exact ((putTrace ..).trans (modCore ..)).trans ⟨rfl⟩
        · exact (putTrace ..).trans (modCore ..)
  · exact refl s

section
variable {s t : State} (h : s.Recorded t)
include h
theorem threads : t.threads = s.threads := (congrArg State.threads h.same).trans rfl
theorem bundles : t.bundles = s.bundles := (congrArg State.bundles h.same).trans rfl
theorem contexts : t.contexts = s.contexts := (congrArg State.contexts h.same).trans rfl
theorem oplog : t.oplog = s.oplog := (congrArg State.oplog h.same).trans rfl
theorem runs : t.runs = s.runs := (congrArg State.runs h.same).trans rfl
theorem table : t.table = s.table := (congrArg State.table h.same).trans rfl
end

end State.Recorded

/-! What threads that park, wake, enter and leave can change (R34, R153, R214) -/

/-- The second state differs from the first at most in threads and where they stand, and by trace records. -/
structure State.Moves (s t : State) : Prop where
  same : t = { s with mem := t.mem, hostMem := t.hostMem, peerMem := t.peerMem, groups := t.groups, ports := t.ports, poison := t.poison,
                      encPages := t.encPages, cores := t.cores, agenda := t.agenda, seq := t.seq, threads := t.threads, bundles := t.bundles,
                      table := t.table, arrivals := t.arrivals }

namespace State.Moves

theorem refl (s : State) : s.Moves s := ⟨rfl⟩

theorem trans {s t u : State} (a : s.Moves t) (b : t.Moves u) : s.Moves u :=
  ⟨b.same.trans (congrArg (fun x : State => { x with
    mem := u.mem, hostMem := u.hostMem, peerMem := u.peerMem, groups := u.groups, ports := u.ports, poison := u.poison, encPages := u.encPages
    cores := u.cores, agenda := u.agenda, seq := u.seq, threads := u.threads, bundles := u.bundles, table := u.table, arrivals := u.arrivals }) a.same)⟩

theorem foldl {α : Type} {f : State → α → State} (hf : ∀ (s : State) a, s.Moves (f s a)) (l : List α) (s : State) : s.Moves (l.foldl f s) := by
  induction l generalizing s with
  | nil => exact refl s
  | cons a l ih => exact (hf s a).trans (ih _)

theorem of_recorded {s t : State} (h : s.Recorded t) : s.Moves t := ⟨by rw [h.same]⟩

theorem of_issueStep {s t : State} (h : s.IssueStep t) : s.Moves t := ⟨by rw [h.same]⟩

theorem keepRec (s : State) (r ctx x : Nat) : s.Moves (s.keepRec r ctx x) := by
  unfold State.keepRec
  split
  · exact of_issueStep (.modLane ..)
  · exact of_recorded (.writeTrace ..)

theorem traceThread (s : State) (r kind : Nat) : s.Moves (s.traceThread r kind) := by
  unfold State.traceThread
  split
  · exact refl s
  · exact keepRec ..

theorem park (s : State) (r : Nat) (st : Status) : s.Moves (s.park r st) := (of_issueStep (.modThread ..)).trans (traceThread ..)

theorem wake (s : State) (r : Nat) : s.Moves (s.wake r) := by
  unfold State.wake
  split
  · exact of_issueStep (.modThread ..)
  · exact of_issueStep (.enterTable ..)

theorem unpark (s : State) (r : Nat) : s.Moves (s.unpark r) := by
  unfold State.unpark
  split
  · exact (of_issueStep (.modThread ..)).trans (wake ..)
  · exact (traceThread ..).trans (wake ..)

theorem writeRecs (s : State) (p : PortId) (ls : List Lane) : s.Moves (s.writeRecs p ls) :=
  foldl (f := fun (s : State) (l : Lane) => l.recs.foldl (fun (s : State) x => s.writeTrace p.core l.ctx x) s)
    (fun s l => foldl (fun s x => of_recorded (.writeTrace s p.core l.ctx x)) l.recs s) ls s

theorem leaveBundle (s : State) (p : PortId) : s.Moves (s.leaveBundle p) := by
  cases hb : s.bundle? p with
  | none => simpa only [State.leaveBundle, hb] using refl s
  | some b =>
    cases ha : b.lanes.any (·.active) with
    | true => rw [leaveBundle_of_active hb ha]; exact refl s
    | false =>
      rw [leaveBundle_eq hb ha]
      exact ((of_issueStep (.dropBundle ..)).trans (writeRecs ..)).trans (foldl (fun s l => of_issueStep (.laneLeaves s p l)) ..)

section
variable {s t : State} (h : s.Moves t)
include h
theorem oplog : t.oplog = s.oplog := (congrArg State.oplog h.same).trans rfl
theorem contexts : t.contexts = s.contexts := (congrArg State.contexts h.same).trans rfl
theorem runs : t.runs = s.runs := (congrArg State.runs h.same).trans rfl
theorem blocks : t.blocks = s.blocks := (congrArg State.blocks h.same).trans rfl
theorem out : t.out = s.out := (congrArg State.out h.same).trans rfl
theorem clk : t.clk = s.clk := (congrArg State.clk h.same).trans rfl
end

end State.Moves

/-- A bundle that leaves its port passes over a thread that does not issue there. -/
theorem leaveBundle_thread?_of_not_issuing {s : State} (p : PortId) {q : Nat} {t : Thread} (h : s.thread? q = some t) (hs : t.status ≠ .issuing p) :
    (s.leaveBundle p).thread? q = some t := by
  cases hb : s.bundle? p with
  | none => simpa only [State.leaveBundle, hb] using h
  | some b =>
    cases ha : b.lanes.any (·.active) with
    | true => rwa [leaveBundle_of_active hb ha]
    | false => rw [leaveBundle_thread? hb ha h, if_neg fun hh => hs hh.2]

/-! A thread that is detached (R27, R35) -/

/-- The threads that share a lane set's entry with one that leaves it park for their record again. -/
def State.leaveSet (s : State) (r : Nat) (e : PcEntry) : State :=
  let rest := setDel r e.threads
  if rest.isEmpty then s else
  let s := rest.foldl (fun (s : State) x => s.park x (.gather e.addr)) s
  let set := (((s.thread? (rest.headD 0)).bind (·.m0)).map fun m => m.rank / 64).getD 0
  { s with arrivals := s.arrivals ++ [{ block := blockOfSlot r, gid := e.gather.getD 0, set, addr := e.addr, expected := [r], arrived := rest, waited := 0 }] }

/-- A thread out of the table and of the records that gather threads. -/
def State.leavePlaces (s : State) (r : Nat) : State :=
  let s := s.leaveTable r
  let s : State := { s with arrivals := s.arrivals.map fun x => { x with arrived := setDel r x.arrived } }
  { s with arrivals := s.arrivals.filter (!·.arrived.isEmpty) }

theorem detach_eq (s : State) (r : Nat) :
    s.detach r = (s.table.filter fun e => e.threads.contains r && e.gather.isSome).foldl (State.leaveSet · r) (s.leavePlaces r) := rfl

theorem keepRec_threads (s : State) (r ctx x : Nat) : (s.keepRec r ctx x).threads = s.threads := by
  unfold State.keepRec
  split
  · rfl
  · exact writeTrace_threads ..

theorem traceThread_threads (s : State) (r kind : Nat) : (s.traceThread r kind).threads = s.threads := by
  unfold State.traceThread
  split
  · rfl
  · exact keepRec_threads ..

theorem park_thread?_other (s : State) {q r : Nat} (hq : r ≠ q) (st : Status) : (s.park q st).thread? r = s.thread? r :=
  (thread?_congr (traceThread_threads ..) r).trans (thread?_modThread_other s hq _)

theorem leaveSet_thread? (s : State) (r : Nat) (e : PcEntry) : (s.leaveSet r e).thread? r = s.thread? r := by
  unfold State.leaveSet
  dsimp only
  split
  · rfl
  · have hpark : ∀ (l : List Nat) (s : State), (∀ x ∈ l, r ≠ x) → (l.foldl (fun (s : State) x => s.park x (.gather e.addr)) s).thread? r = s.thread? r := by
      intro l
      induction l with
      | nil => exact fun _ _ => rfl
      | cons x l ih =>
        intro s h
        rw [List.forall_mem_cons] at h
        exact (ih _ h.2).trans (park_thread?_other s h.1 _)
    exact hpark (setDel r e.threads) s fun x hx => Ne.symm (by simpa using (List.mem_filter.mp hx).2)

/-- A thread that is detached is as before. -/
theorem detach_thread? (s : State) (r : Nat) : (s.detach r).thread? r = s.thread? r := by
  rw [detach_eq]
  exact (foldl_keeps (fun s : State => s.thread? r) (fun s e => leaveSet_thread? s r e) _ _).trans rfl

theorem State.Moves.detach (s : State) (r : Nat) : s.Moves (s.detach r) := by
  rw [detach_eq]
  refine State.Moves.trans (t := s.leavePlaces r) ⟨rfl⟩ (State.Moves.foldl (fun s e => ?_) _ _)
  unfold State.leaveSet
  dsimp only
  split
  · exact refl s
  · exact State.Moves.trans (State.Moves.foldl (fun s x => State.Moves.park s x _) _ _) ⟨rfl⟩

end Sys2Proof.Machine
end


section
/-! SUPPORT. Walks, and the device places of addresses (R283 to R285). -/

namespace Sys2Proof.Machine

open Sys2Proof

/-! Walks and the device places of addresses (R283 to R285) -/

theorem readByte_dev_congr {s u : State} (hm : u.mem = s.mem) (hp : u.poison = s.poison) (a : Nat) : u.readByte (.dev a) = s.readByte (.dev a) := by
  simp only [State.readByte, State.poisoned, State.lost, State.byteAt, hm, hp]
  rfl

theorem dev_congr {s u : State} (hm : u.mem = s.mem) (hp : u.poison = s.poison) (a n : Nat) : u.dev a n = s.dev a n := by
  have hr : u.readAt (.dev a) n = s.readAt (.dev a) n := by
    induction n generalizing a with
    | zero => rfl
    | succ n ih => simp only [State.readAt, readByte_dev_congr hm hp, Place.add, ih]
  simp only [State.dev, hr]

theorem walkFrom_congr {s u : State} (h : ∀ a n, u.dev a n = s.dev a n) (va : Nat) (levels : List (Nat × Nat × Nat)) (table : Nat) :
    u.walkFrom va levels table = s.walkFrom va levels table := by
  induction levels generalizing table with
  | nil => rfl
  | cons x levels ih =>
    obtain ⟨level, shift, n⟩ := x
    simp only [State.walkFrom, h, ih]

/-- A walk reads a context's table address, device memory and its poison. -/
theorem walk_congr {s u : State} (hc : u.contexts = s.contexts) (hm : u.mem = s.mem) (hp : u.poison = s.poison) (ctx va : Nat) :
    u.walk ctx va = s.walk ctx va := by
  simp only [State.walk, State.ctx?, hc, walkFrom_congr (dev_congr hm hp)]

/-- The device place that a leaf gives a context (R284, R285). -/
def State.devLeaf (s : State) (ctx va leaf shift : Nat) (write : Bool) : Option Place :=
  let a := bits leaf 16 40 * 2 ^ 16 + va % 2 ^ shift
  if bits leaf 14 2 = 1 ∨ bits leaf 14 2 = 2 ∨ (write && !bit leaf 8) = true then none
  else if assocD (2 ^ 64) s.owners (a / 65536) = ctx then some (.dev a) else none

/-- The device place in what a translation gives. -/
def Xlat.devOnly : Xlat → Option Place
  | .ok (.dev a) _ => some (.dev a)
  | _ => none

theorem hostUse_devOnly (vf a : Nat) (writable write : Bool) : (hostUse vf a writable write).devOnly = none := by
  unfold hostUse
  split <;> rfl

theorem hostAsk_devOnly (s : State) (vf a : Nat) (write : Bool) (agent : Nat) : (s.hostAsk vf a write agent).2.devOnly = none := by
  unfold State.hostAsk
  dsimp only
  split
  · exact hostUse_devOnly ..
  · split
    · rfl
    · split
      · split <;> rfl
      · rfl

theorem readOnly_devOnly (x : Xlat) : x.readOnly.devOnly = none := by cases x <;> rfl

theorem leafXlat_devOnly (s : State) (ctx va leaf shift : Nat) (write : Bool) :
    (s.leafXlat ctx va leaf shift write).2.devOnly = s.devLeaf ctx va leaf shift write := by
  have hno : bits leaf 14 2 = 1 ∨ bits leaf 14 2 = 2 ∨ (write && !bit leaf 8) = true → s.devLeaf ctx va leaf shift write = none := fun h => if_pos h
  unfold State.leafXlat
  dsimp only
  split
  · rename_i h1
    rw [hno (.inl h1)]
    split
    · dsimp only
      split
      · exact readOnly_devOnly _
      · exact hostAsk_devOnly ..
    · rfl
  · rename_i h2
    rw [hno (.inr (.inl h2))]
    dsimp only
    split <;> rfl
  · rename_i h1 h2
    split
    · rename_i hw
      rw [hno (.inr (.inr hw))]
      rfl
    · rename_i hw
      have hyes : s.devLeaf ctx va leaf shift write = _ := if_neg (by rintro (h | h | h) <;> [exact h1 h; exact h2 h; exact hw h])
      rw [hyes]
      split <;> rfl

theorem devPlace_eq (s : State) (ctx va : Nat) (write : Bool) :
    s.devPlace ctx va write = if 2 ^ 56 ≤ va then none else (s.walk ctx va).bind fun x => s.devLeaf ctx va x.1 x.2 write := by
  unfold State.devPlace
  split
  · rfl
  · cases hw : s.walk ctx va with
    | none => rfl
    | some x =>
      rw [Option.bind_some, ← leafXlat_devOnly]
      dsimp only
      rcases s.leafXlat ctx va x.1 x.2 write with ⟨u, _ | _ | _⟩
      · rename_i p k
        cases p <;> rfl
      · rfl
      · rfl

/-- Where the hardware reaches context memory depends on the contexts' tables and on who owns frames. -/
theorem devPlace_congr {s u : State} (hc : u.contexts = s.contexts) (hm : u.mem = s.mem) (hp : u.poison = s.poison) (ho : u.owners = s.owners)
    (ctx va : Nat) (write : Bool) : u.devPlace ctx va write = s.devPlace ctx va write := by
  simp only [devPlace_eq, walk_congr hc hm hp, State.devLeaf, ho]

end Sys2Proof.Machine
end


section
/-! SUPPORT. Posted loads that fill, deferred faults and hinges (R11, R25, R27, R169). -/

namespace Sys2Proof.Machine

open Sys2Proof

/-! What a request to a peer leaves alone (R377, R380) -/

theorem form_state (x : FPort) (type now : Nat) (payload : List Byte) :
    (x.form type now payload).id = x.id ∧ (x.form type now payload).state = x.state := by
  unfold FPort.form
  split <;> exact ⟨rfl, rfl⟩

theorem pump_state (x : FPort) (now n : Nat) : (x.pump now n).id = x.id ∧ (x.pump now n).state = x.state := by
  induction n generalizing x with
  | zero => exact ⟨rfl, rfl⟩
  | succ n ih =>
    unfold FPort.pump
    split
    · exact ⟨rfl, rfl⟩
    · split
      · exact ⟨rfl, rfl⟩
      · exact ⟨(ih _).1.trans (form_state ..).1, (ih _).2.trans (form_state ..).2⟩

theorem send_state (x : FPort) (type now : Nat) (payload : List Byte) :
    (x.send type now payload).id = x.id ∧ (x.send type now payload).state = x.state := pump_state ..

theorem peerDown_askPeer (s : State) (l : List Byte) (p : Place) (num : Nat) : (s.askPeer l p).peerDown num = s.peerDown num := by
  unfold State.askPeer
  split
  · split
    · unfold State.peerDown
      simp only [State.modPort, List.any_map]
      cases hb : s.peers.find? (·.num == num) with
      | none => rfl
      | some b =>
        refine congrArg (fun f => !s.ports.any f) (funext fun x => ?_)
        simp only [Function.comp]
        split
        · rw [(send_state ..).1, (send_state ..).2]
        · rfl
    · rfl
  · rfl

/-- The second state differs from the first by requests that have gone out to peers. -/
structure State.Asks (s u : State) : Prop where
  same : u = { s with ports := u.ports }
  down : ∀ k, u.peerDown k = s.peerDown k

namespace State.Asks

theorem refl (s : State) : s.Asks s := ⟨rfl, fun _ => rfl⟩

theorem trans {s u w : State} (a : s.Asks u) (b : u.Asks w) : s.Asks w :=
  ⟨b.same.trans (congrArg (fun x : State => { x with ports := w.ports }) a.same), fun k => (b.down k).trans (a.down k)⟩

theorem askPeer (s : State) (l : List Byte) (p : Place) : s.Asks (s.askPeer l p) := ⟨askPeer_eq s l p, peerDown_askPeer s l p⟩

theorem askPeers (ps : List Place) (s : State) : s.Asks (ps.foldl (State.askPeer · []) s) := by
  induction ps generalizing s with
  | nil => exact refl s
  | cons p ps ih => exact (askPeer s [] p).trans (ih _)

theorem poisoned {s u : State} (h : s.Asks u) (p : Place) : u.poisoned p = s.poisoned p := by
  have hd := h.down
  have ht : u.tick = s.tick ∧ u.poison = s.poison := by rw [h.same]; exact ⟨rfl, rfl⟩
  cases p <;> simp only [State.poisoned, State.lost, ht, hd]

end State.Asks

/-- What a load sees depends on the stores on their way and on what memory reads as. -/
theorem viewByte_congr {s u : State} (hb : u.blocks = s.blocks) (ho : u.out = s.out) (hp : ∀ p, u.poisoned p = s.poisoned p)
    (hm : ∀ p, u.byteAt p = s.byteAt p) (t : Thread) (pond : List Store) (p : Place) : u.viewByte t pond p = s.viewByte t pond p := by
  simp only [State.viewByte, State.queued, State.drained, State.readByte, hb, ho, hp, hm]

theorem viewBytes_congr {s u : State} (hv : ∀ t pond p, u.viewByte t pond p = s.viewByte t pond p) (t : Thread) (pond : List Store) (p : Place) (n : Nat) :
    u.viewBytes t pond p n = s.viewBytes t pond p n := by
  induction n generalizing p with
  | zero => rfl
  | succ n ih => simp only [State.viewBytes, hv, ih]

theorem viewValues_congr {s u : State} (hv : ∀ t pond p, u.viewByte t pond p = s.viewByte t pond p) (t : Thread) (pond : List Store) (n : Nat)
    (ps : List Place) : u.viewValues t pond n ps = s.viewValues t pond n ps := by
  induction ps with
  | nil => rfl
  | cons p ps ih => simp only [State.viewValues, viewBytes_congr hv, ih]

theorem State.Asks.viewValues {s u : State} (h : s.Asks u) (t : Thread) (pond : List Store) (n : Nat) (ps : List Place) :
    u.viewValues t pond n ps = s.viewValues t pond n ps := by
  refine viewValues_congr (viewByte_congr ?_ ?_ h.poisoned fun p => ?_) t pond n ps
  · rw [h.same]
  · rw [h.same]
  · rw [h.same]
    cases p <;> rfl

/-! A posted load performs (R18, R163) -/

/-- A posted load with its places known has performed: it keeps its data, or takes what its thread sees now. -/
def LogEntry.performed (e : LogEntry) (s : State) (t : Thread) : LogEntry :=
  { e with data := some (e.data.getD (s.viewValues t [] e.ty.bytes e.places).1) }

/-- What lets the load of an entry perform without a wait, a race note or a mark of poison. -/
structure LogEntry.Performs (e : LogEntry) (s : State) (t : Thread) : Prop where
  thread : s.thread? e.r = some t
  walk : e.walk = false
  fault : e.fault = none
  lanes : ∀ b ∈ s.bundles, ∀ l ∈ b.lanes, l.r ≠ e.r
  clean : e.data = none → e.chk = false ∧ (s.viewValues t [] e.ty.bytes e.places).2 = false

theorem pondOf_of_no_lane {s : State} {e : LogEntry} (h : ∀ b ∈ s.bundles, ∀ l ∈ b.lanes, l.r ≠ e.r) : s.pondOf e = [] := by
  have hn : (s.bundles.findSome? fun b => b.lanes.find? fun l => l.r == e.r && l.posted.any (·.id == e.id)) = none := by
    rw [List.findSome?_eq_none_iff]
    intro b hb
    rw [List.find?_eq_none]
    intro l hl
    simp [h b hb l hl]
  simp only [State.pondOf, hn]

theorem capture_eq {s : State} {e : LogEntry} {t : Thread} (h : e.Performs s t) :
    ∃ u, s.Asks u ∧ s.capture [] e = (u, e.performed s t) := by
  unfold State.capture
  cases hd : e.data with
  | some d =>
    have he : e.performed s t = e := by rw [LogEntry.performed, hd, Option.getD_some, ← hd]
    refine ⟨s, .refl s, ?_⟩
    rw [he, Option.isSome_some, Bool.or_true, if_pos rfl]
  | none =>
    obtain ⟨hc, hp⟩ := h.clean hd
    refine ⟨_, .askPeers e.places s, ?_⟩
    simp only [h.walk, Option.isSome_none, Bool.or_false, Bool.false_eq_true, if_false, h.thread, hc, hp, State.notePoison, LogEntry.performed, hd,
      Option.getD_none]

theorem performEntry_eq {s : State} {e : LogEntry} {t : Thread} (h : e.Performs s t) :
    ∃ u, s.Asks u ∧ s.performEntry t e = u.setLog (e.performed s t) := by
  obtain ⟨u, hu, hc⟩ := capture_eq h
  refine ⟨u, hu, ?_⟩
  simp only [State.performEntry, h.fault, Option.isSome_none, Bool.false_eq_true, if_false, State.translateLoad, h.walk, Bool.not_false, if_true,
    pondOf_of_no_lane h.lanes, hc]

theorem setLog_setLog (s : State) (ps : List FPort) (e : LogEntry) :
    ({ s.setLog e with ports := ps } : State).setLog e = ({ s with ports := ps } : State).setLog e := by
  simp only [State.setLog, List.map_map]
  congr 1
  refine List.map_congr_left fun x _ => ?_
  simp only [Function.comp]
  split <;> simp_all

theorem logEntry?_setLog {s : State} {e x : LogEntry} (hx : s.logEntry? e.id = some x) : (s.setLog e).logEntry? e.id = some e := by
  have hid : x.id = e.id := by simpa using List.find?_some hx
  refine (find?_map_of_keeps (fun y => by split <;> simp_all) s.oplog).trans ?_
  change (s.logEntry? e.id).map _ = _
  rw [hx, Option.map_some, if_pos hid]

/-- What a load of the log sees after another entry has been set. -/
theorem viewValues_setLog {s u : State} (h : s.Asks u) (x : LogEntry) (t : Thread) (pond : List Store) (n : Nat) (ps : List Place) :
    (u.setLog x).viewValues t pond n ps = s.viewValues t pond n ps :=
  (viewValues_congr (u := u.setLog x) (s := u) (viewByte_congr rfl rfl (fun p => by cases p <;> rfl) fun p => by cases p <;> rfl) t pond n ps).trans
    (h.viewValues t pond n ps)

/-- The loads of a list of one entry's copies perform as that entry does. -/
theorem performInOrder_eq {e : LogEntry} {t : Thread} (l : List LogEntry) {s : State} (h : e.Performs s t) (hl : ∀ x ∈ l, x = e) (hne : l ≠ [])
    {y : LogEntry} (hy : s.logEntry? e.id = some y) :
    ∃ u, s.Asks u ∧ s.performInOrder t l = u.setLog (e.performed s t) := by
  induction l generalizing s y with
  | nil => exact absurd rfl hne
  | cons x l ih =>
    obtain ⟨rfl, hl⟩ := List.forall_mem_cons.mp hl
    obtain ⟨u, hu, he⟩ := performEntry_eq h
    have hy' : u.logEntry? x.id = some y := by rw [hu.same]; exact hy
    have hlog : (u.setLog (x.performed s t)).logEntry? x.id = some (x.performed s t) := logEntry?_setLog (e := x.performed s t) hy'
    have hgo : s.performInOrder t (x :: l) = (u.setLog (x.performed s t)).performInOrder t l := by
      simp only [State.performInOrder, he, hlog]
      rfl
    rw [hgo]
    cases l with
    | nil => exact ⟨u, hu, rfl⟩
    | cons z l =>
      have hview := viewValues_setLog hu (x.performed s t) t [] x.ty.bytes x.places
      have hp : x.performed (u.setLog (x.performed s t)) t = x.performed s t :=
        congrArg (fun d : List Byte × Bool => { x with data := some (x.data.getD d.1) }) hview
      have h' : x.Performs (u.setLog (x.performed s t)) t :=
        ⟨by rw [hu.same]; exact h.thread, h.walk, h.fault, by rw [hu.same]; exact h.lanes, fun hd => ⟨(h.clean hd).1, hview ▸ (h.clean hd).2⟩⟩
      obtain ⟨w, hw, hres⟩ := ih h' hl (List.cons_ne_nil _ _) hlog
      refine ⟨{ u with ports := w.ports }, hu.trans ⟨rfl, fun k => ?_⟩, ?_⟩
      · exact (congrArg (State.peerDown · k) hw.same).symm.trans (hw.down k)
      · rw [hres, hp]
        exact (congrArg (State.setLog · (x.performed s t)) hw.same).trans (setLog_setLog u w.ports _)

/-! Waits that are not there -/

theorem waitfCheck_of_other {s : State} {r : Nat} {t : Thread} (ht : s.thread? r = some t) (h : ∀ x y, t.status ≠ .waitf x y) : s.waitfCheck r = s := by
  unfold State.waitfCheck
  rw [ht]
  dsimp only
  split
  · exact absurd ‹_› (h _ _)
  · rfl

theorem gbarResume_of_no_wait {s : State} {r : Nat} {t : Thread} (ht : s.thread? r = some t) (h : t.wait = none) : s.gbarResume r = s := by
  simp only [State.gbarResume, ht, h]

theorem waitvTry_of_no_wait {s : State} {r : Nat} {t : Thread} (ht : s.thread? r = some t) (h : t.wait = none) : s.waitvTry r = s := by
  simp only [State.waitvTry, ht, h]
  split
  · rfl
  · split <;> rfl

/-! The fill of a posted load (R11, R25) -/

/-- The thread of a load, whose registers take the load's data. -/
def LogEntry.fillThread (e : LogEntry) (data : List Byte) (t : Thread) : Thread :=
  t.takeAll (fun x : Nat × Nat => x.1) (fun x => (loadImages e.ty e.n data).getD x.2 0) e.regs

theorem regStep_fillThread (e : LogEntry) (data : List Byte) (t : Thread) : t.RegStep (e.fillThread data t) := Thread.RegStep.takeAll ..

/-- The registers of a performed load take its data, and its entry leaves the log. -/
def State.fillDone (s : State) (e : LogEntry) (data : List Byte) : State :=
  let s := s.modThread e.r (e.fillThread data)
  { s with oplog := s.oplog.filter (·.id ≠ e.id) }

/-- The data that the load of an entry puts into its registers. -/
def LogEntry.seen (e : LogEntry) (s : State) (t : Thread) : List Byte := e.data.getD (s.viewValues t [] e.ty.bytes e.places).1

theorem fillDone_thread? {s : State} {e : LogEntry} {t : Thread} (ht : s.thread? e.r = some t) (data : List Byte) :
    (s.fillDone e data).thread? e.r = some (e.fillThread data t) := thread?_modThread_same ht _ fun t => (regStep_fillThread e data t).r

theorem fill_eq {s : State} {e : LogEntry} {t : Thread} (h : e.Performs s t) (he : s.logEntry? e.id = some e) (hc : e.cancelled = false)
    (ha : away e.r = false) (ho : ∀ x ∈ s.oplog, x.r = e.r → x = e) (hs : t.status = .runnable) (hw : t.wait = none)
    (hb : ∀ x ∈ e.regs, x.1 ∉ t.badRegs) :
    ∃ u, s.Asks u ∧ s.fill e.id = (u.setLog (e.performed s t)).fillDone e (e.seen s t) := by
  have hres : s.resolve e = s := by simp only [State.resolve, h.thread, h.walk, Bool.not_false, Bool.true_or, if_true]
  have hmem : e ∈ s.oplog := List.mem_of_find?_eq_some he
  have hr := thread?_r h.thread
  have hmine : ∀ x ∈ (s.outstanding t.r).filter (·.id < e.id + 1), x = e := fun x hx => by
    simp only [State.outstanding, hr, List.mem_filter, Bool.and_eq_true, beq_iff_eq] at hx
    exact ho x hx.1.1 hx.1.2.1
  obtain ⟨u, hu, hlog⟩ := performInOrder_eq _ h hmine (List.ne_nil_of_mem (a := e) (by simp [State.outstanding, hmem, hr, hc])) he
  refine ⟨u, hu, ?_⟩
  have hut : (u.setLog (e.performed s t)).thread? e.r = some t := by rw [hu.same]; exact h.thread
  have hue : (u.setLog (e.performed s t)).logEntry? e.id = some (e.performed s t) :=
    logEntry?_setLog (e := e.performed s t) (x := e) (by rw [hu.same]; exact he)
  have hft := fillDone_thread? hut (e.seen s t)
  have hstep := regStep_fillThread e (e.seen s t) t
  have hfs : (e.fillThread (e.seen s t) t).status = .runnable := hstep.status.trans hs
  have hfw : (e.fillThread (e.seen s t) t).wait = none := hstep.wait.trans hw
  have hclean : (u.setLog (e.performed s t)).noteRegs e.r (e.regs.map (·.1)) = u.setLog (e.performed s t) :=
    noteRegs_of_clean hut fun c hc => by obtain ⟨x, hx, rfl⟩ := List.mem_map.mp hc; exact hb x hx
  simp only [State.fill, he, ha, Bool.false_eq_true, if_false, hres, h.thread, h.walk, hc, h.fault, Option.isSome_none, Bool.or_false,
    State.performLog, hlog, hue]
  change State.waitvTry (State.gbarResume (State.waitfCheck (State.fillDone (State.noteRegs _ e.r (e.regs.map (·.1))) e (e.seen s t)) e.r) e.r) e.r = _
  rw [hclean, waitfCheck_of_other hft (by rw [hfs]; exact fun _ _ => Status.noConfusion), gbarResume_of_no_wait hft hfw, waitvTry_of_no_wait hft hfw]

/-- The entry that has been set is the one that leaves. -/
theorem filter_setLog {e : LogEntry} (s : State) : (s.setLog e).oplog.filter (·.id ≠ e.id) = s.oplog.filter (·.id ≠ e.id) := by
  simp only [State.setLog]
  induction s.oplog with
  | nil => rfl
  | cons x l ih =>
    rw [List.map_cons, List.filter_cons, List.filter_cons, ih]
    by_cases hx : x.id = e.id <;> simp [hx]

/-- A posted load's fill gives its registers their data and leaves everything else of its thread. -/
theorem postedLoadFill {s : State} {e : LogEntry} {t : Thread} (h : e.Performs s t) (he : s.logEntry? e.id = some e) (hc : e.cancelled = false)
    (ha : away e.r = false) (ho : ∀ x ∈ s.oplog, x.r = e.r → x = e) (hs : t.status = .runnable) (hw : t.wait = none)
    (hb : ∀ x ∈ e.regs, x.1 ∉ t.badRegs) :
    ∃ u, exec (.postedLoadFill e.id) s = .next u ∧ u.thread? e.r = some (e.fillThread (e.seen s t) t) ∧
      u.oplog = s.oplog.filter (·.id ≠ e.id) ∧ u.mem = s.mem := by
  obtain ⟨u, hu, hf⟩ := fill_eq h he hc ha ho hs hw hb
  have hut : (u.setLog (e.performed s t)).thread? e.r = some t := by rw [hu.same]; exact h.thread
  refine ⟨_, congrArg Host.Outcome.next hf, fillDone_thread? hut _, ?_, ?_⟩
  · exact (filter_setLog (e := e.performed s t) u).trans (by rw [hu.same]; rfl)
  · change u.mem = s.mem
    rw [hu.same]

/-! Deferred faults (R27, R201) -/

/-- The log in which the entries of a number are cancelled, and their registers await no fill any longer. -/
def State.dropLoad (s : State) (e : LogEntry) : State :=
  ({ s with oplog := s.oplog.map fun x => if x.id = e.id then { x with cancelled := true } else x } : State).modThread e.r fun t =>
    { t with fills := t.fills.filter fun c => !(e.regs.any (·.1 == c)) }

/-- The thread of a load whose registers await no fill any longer. -/
def Thread.dropFills (t : Thread) (e : LogEntry) : Thread := { t with fills := t.fills.filter fun c => !(e.regs.any (·.1 == c)) }

theorem dropLoad_thread? {s : State} {e : LogEntry} {t : Thread} (ht : s.thread? e.r = some t) :
    (s.dropLoad e).thread? e.r = some (t.dropFills e) := thread?_modThread_same (s := { s with oplog := _ }) ht _

theorem mem_dropLoad {s : State} {e : LogEntry} (he : s.logEntry? e.id = some e) : { e with cancelled := true } ∈ (s.dropLoad e).oplog :=
  List.mem_map.mpr ⟨e, List.mem_of_find?_eq_some he, if_pos rfl⟩

theorem fills_dropFills (t : Thread) (e : LogEntry) : ∀ y ∈ e.regs, (t.dropFills e).fills.contains y.1 = false := by
  intro y hy
  simp only [Thread.dropFills, List.contains_eq_mem, List.mem_filter, decide_eq_false_iff_not]
  rintro ⟨-, h⟩
  simp only [Bool.not_eq_true', List.any_eq_false] at h
  exact h y hy (beq_self_eq_true _)

theorem deliver_eq {s : State} {e : LogEntry} {c d a : Nat} (he : s.logEntry? e.id = some e) (hf : e.fault = some (c, d, a)) (hc : e.cancelled = false)
    (ha : away e.r = false) (hm : s.committing e.r = false) : s.deliver e.id = (s.deferFault e (e.info c d a true)).waitfCheck e.r := by
  simp only [State.deliver, he, hf, hc, ha, hm, Bool.or_false, Bool.false_eq_true, if_false]

/-- The thread keeps a deferred fault for later. -/
def Thread.keepFault (h : HeldFault) (t : Thread) : Thread := { t with held := t.held ++ [h] }

/-- A deferred fault is held by a thread in trap handling and by a halted one. -/
theorem deferFault_held {s : State} {e : LogEntry} {t : Thread} (ht : s.thread? e.r = some t) (h : t.trap.isSome = true ∨ t.status = .halted)
    (info : FaultInfo) : s.deferFault e info = (s.dropLoad e).modThread e.r (Thread.keepFault { id := e.id, info }) := by
  have hu := dropLoad_thread? ht
  have hb : (t.trap.isSome || t.status == .halted) = true := by simpa using h
  rw [State.dropLoad] at hu
  simp only [State.deferFault, hu, State.dropLoad]
  exact if_pos hb

/-- A thread that takes a deferred fault (R27): it stands at the handler, and what it had before it is set aside. -/
def Thread.deferred (t : Thread) (id : Nat) (resume : Resume) (cause handler : Nat) : Thread :=
  { Thread.enterTrap { t with tstat := setCause t.tstat cause, recSlot := some t.r } (.deferred id) none resume with
    pc := .ofNat 64 handler, status := .runnable }

theorem goOn_runnable {s : State} {r : Nat} {t : Thread} (ht : s.thread? r = some t) (hs : t.status = .runnable) (ha : away r = false) :
    s.goOn r = (s.detach r).enterTable r := by
  simp only [State.goOn, ht, hs, State.wake, ha]
  rfl

/-- A runnable thread takes a deferred fault at the handler of its context. -/
theorem takeTrap_deferred {s : State} {r : Nat} {t : Thread} {info : FaultInfo} {x : Context} {p : Place} (id : Nat) (resume : Resume) (trace pos : Nat)
    (ht : s.thread? r = some t) (htrap : t.trap = none) (hs : t.status = .runnable) (hc : info.cause ≠ 0x28) (ha : away r = false)
    (hx : s.ctx? t.ctx = some x) (hh : x.par.handler ≠ 0) (hp : s.devPlace t.ctx (x.par.faultArea + 64 * r) true = some p) :
    s.Moves (s.takeTrap r (.deferred id) info none resume trace pos) ∧
      (s.takeTrap r (.deferred id) info none resume trace pos).thread? r = some (t.deferred id resume info.cause x.par.handler) := by
  have hr := thread?_r ht
  obtain ⟨s1, h1⟩ : ∃ s1, s.writeRecord t info = some s1 := Option.isSome_iff_exists.mp (by
    rw [State.writeRecord, hx, Option.bind_some, State.writeCtx, recordAddr, hr, hp]
    rfl)
  have hs1 : s.Stored s1 := by
    rw [State.writeRecord, hx, Option.bind_some] at h1
    exact .writeCtx h1
  have hkept := State.Moves.keepRec s1 r t.ctx (traceRec 2 t.tag t.tid trace info.slotNo pos)
  have hthreads := keepRec_threads s1 r t.ctx (traceRec 2 t.tag t.tid trace info.slotNo pos)
  generalize hs2 : s1.keepRec r t.ctx (traceRec 2 t.tag t.tid trace info.slotNo pos) = s2 at hkept hthreads
  have ht2 : s2.thread? r = some t := (thread?_congr (hthreads.trans hs1.threads) r).trans ht
  have hx2 : s2.ctx? t.ctx = some x := by simpa only [State.ctx?, hkept.contexts, hs1.contexts] using hx
  let s3 := s2.modThread r fun t => { t with tstat := setCause t.tstat info.cause, recSlot := some r }
  have ht3 : s3.thread? r = some { t with tstat := setCause t.tstat info.cause, recSlot := some r } := thread?_modThread_same ht2 _
  let s4 := s3.modThread r fun t => t.enterTrap (.deferred id) none resume
  have ht4 : s4.thread? r = some _ := thread?_modThread_same ht3 _
  let s5 := s4.modThread r fun t => { t with pc := .ofNat 64 x.par.handler }
  have ht5 : s5.thread? r = some _ := thread?_modThread_same ht4 _
  have hu : s.takeTrap r (.deferred id) info none resume trace pos = (s5.detach r).enterTable r := by
    rw [← goOn_runnable ht5 hs ha]
    have hx3 : s3.ctx? t.ctx = some x := hx2
    simp only [State.takeTrap, ht, htrap, Option.isSome_none, Bool.false_and, Bool.false_eq_true, if_false, h1, hs2, if_neg hc]
    rw [hx3, Option.map_some, Option.getD_some, if_neg hh]
  rw [hu]
  constructor
  · exact ((((State.Moves.of_recorded (.of_stored hs1)).trans hkept).trans ⟨rfl⟩).trans (.detach s5 r)).trans (.of_issueStep (.enterTable ..))
  · rw [enterTable_thread? ((detach_thread? s5 r).trans ht5), hr.symm]
    rfl

/-- A deferred fault of a runnable thread is taken, with the registers of its load empty and awaiting no fill. -/
theorem deferredFault_taken {s : State} {e : LogEntry} {t : Thread} {x : Context} {p : Place} {c d a : Nat} (he : s.logEntry? e.id = some e)
    (hf : e.fault = some (c, d, a)) (hcn : e.cancelled = false) (ha : away e.r = false) (hm : s.committing e.r = false) (ht : s.thread? e.r = some t)
    (htrap : t.trap = none) (hc : c ≠ 0x28) (hs : t.status = .runnable) (hx : s.ctx? t.ctx = some x)
    (hh : x.par.handler ≠ 0) (hp : s.devPlace t.ctx (x.par.faultArea + 64 * e.r) true = some p) :
    ∃ u, exec (.deferredFault e.id) s = .next u ∧ { e with cancelled := true } ∈ u.oplog ∧
      u.thread? e.r = some ((t.dropFills e).deferred e.id (.at_ t.pc.toNat) c x.par.handler) := by
  have hu := dropLoad_thread? ht
  have hp' : (s.dropLoad e).devPlace t.ctx (x.par.faultArea + 64 * e.r) true = some p := by
    rw [devPlace_congr (s := s) (u := s.dropLoad e) rfl rfl rfl rfl, hp]
  obtain ⟨hmv, hth⟩ := takeTrap_deferred (s := s.dropLoad e) (t := t.dropFills e) (x := x) (info := { e.info c d a true with savePc := t.pc.toNat }) e.id
    (.at_ t.pc.toNat) t.pc.toNat t.pos hu htrap hs hc ha hx hh hp'
  generalize hv : (s.dropLoad e).takeTrap e.r (.deferred e.id) { e.info c d a true with savePc := t.pc.toNat } none (.at_ t.pc.toNat) t.pc.toNat t.pos =
    v at hmv hth
  have hdef : s.deferFault e (e.info c d a true) = v.leaveBundle { core := 0, part := 0, port := 0 } := by
    have hnot : ((t.dropFills e).trap.isSome || (t.dropFills e).status == .halted) = false := by
      simp only [Thread.dropFills, htrap, hs]
      rfl
    have hport : (t.dropFills e).port? = none := by simp only [Thread.port?, Thread.dropFills, hs]
    have hdt : (s.dropLoad e).deferredTrap e.r { id := e.id, info := e.info c d a true } = v := by
      rw [← hv]
      simp only [State.deferredTrap, hu, hport]
      rfl
    rw [← hdt]
    rw [State.dropLoad] at hu
    simp only [State.deferFault, hu, State.dropLoad, hport, Option.getD_none]
    exact if_neg (by rw [hnot]; exact Bool.false_ne_true)
  have hlv := leaveBundle_thread?_of_not_issuing { core := 0, part := 0, port := 0 } hth Status.noConfusion
  refine ⟨v.leaveBundle { core := 0, part := 0, port := 0 }, congrArg Host.Outcome.next ?_, ?_, hlv⟩
  · rw [deliver_eq he hf hcn ha hm, hdef, waitfCheck_of_other hlv fun _ _ => Status.noConfusion]
  · rw [(State.Moves.leaveBundle v _).oplog, hmv.oplog]
    exact mem_dropLoad he

/-! Hinges (R169) -/

/-- The thread of a hinge's destination, which takes its value. -/
def HingeFill.fillThread (h : HingeFill) (rest : List HingeFill) (t : Thread) : Thread :=
  { t.takeAll (h.code + ·) (fun j => .ofNat 32 (h.value / 2 ^ (32 * j))) (upFrom 0 h.words) with hingeFills := rest }

theorem hingeFill_eq {s : State} {r : Nat} {t : Thread} {h : HingeFill} {rest : List HingeFill} (ht : s.thread? r = some t)
    (hf : t.hingeFills = h :: rest) (hb : ∀ j, j < h.words → h.code + j ∉ t.badRegs) (hs : ∀ x y, t.status ≠ .waitf x y) :
    exec (.hingeFill r) s = .next (s.modThread r (h.fillThread rest)) ∧
      (s.modThread r (h.fillThread rest)).thread? r = some (h.fillThread rest t) := by
  have hstep := Thread.RegStep.takeAll (h.code + ·) (fun j => .ofNat 32 (h.value / 2 ^ (32 * j))) t (upFrom 0 h.words)
  have hu := thread?_modThread_same ht (h.fillThread rest) fun t => (Thread.RegStep.takeAll (h.code + ·) _ t (upFrom 0 h.words)).r
  have hclean : s.noteRegs r (upFrom h.code h.words) = s := noteRegs_of_clean ht fun c hc => by
    rw [mem_upFrom] at hc
    rw [← Nat.add_sub_cancel' hc.1]
    exact hb _ (by omega)
  refine ⟨congrArg Host.Outcome.next ?_, hu⟩
  simp only [State.fillDest, ht, Option.map_some, Option.getD_some, hf, hclean]
  have hst : (h.fillThread rest t).status = t.status := hstep.status
  exact waitfCheck_of_other hu fun x y => by rw [hst]; exact hs x y

end Sys2Proof.Machine
end


section
/-! SUPPORT. Walks that end, and the answers of the host (R282, R286, R287). -/

namespace Sys2Proof.Machine

open Sys2Proof

/-! Translations in the TLBs (R286) -/

/-- The entry of a leaf in a TLB. -/
def tlbEntry (ctx va leaf shift : Nat) : TlbEntry := { ctx, page := va / 2 ^ shift * 2 ^ shift, size := 2 ^ shift, leaf := .ofNat 64 leaf }

theorem cacheLeaf_eq (s : State) (c ctx va leaf shift : Nat) :
    s.cacheLeaf c ctx va leaf shift = { s with cores := (s.cacheLeaf c ctx va leaf shift).cores, clusters := (s.cacheLeaf c ctx va leaf shift).clusters } := by
  unfold State.cacheLeaf State.modCluster State.modCore
  dsimp only
  split <;> split <;> rfl

theorem cacheLeaves_eq (l : List Nat) (s : State) (ctx va leaf shift : Nat) :
    ∃ cs ks, l.foldl (fun (s : State) c => s.cacheLeaf c ctx va leaf shift) s = { s with cores := cs, clusters := ks } := by
  induction l generalizing s with
  | nil => exact ⟨s.cores, s.clusters, rfl⟩
  | cons c l ih =>
    obtain ⟨cs, ks, h⟩ := ih (s.cacheLeaf c ctx va leaf shift)
    exact ⟨cs, ks, by rw [List.foldl_cons, h, cacheLeaf_eq]⟩

/-- A core whose TLB has taken an entry. -/
def Core.takeEntry (e : TlbEntry) (c : Core) : Core := { c with tlb := (e :: c.tlb.filter (· ≠ e)).take Config.l1Tlb }

theorem core_cacheLeaf (s : State) (c ctx va leaf shift d : Nat) :
    (s.cacheLeaf c ctx va leaf shift).core d = (s.modCore c (Core.takeEntry (tlbEntry ctx va leaf shift))).core d := by
  unfold State.cacheLeaf
  simp only [State.core, modCluster_cores]
  rfl

/-- The newest entry of a core's TLB after one core has taken a leaf. -/
theorem head_cacheLeaf (s : State) (c d ctx va leaf shift : Nat) :
    ((s.cacheLeaf c ctx va leaf shift).core d).tlb.head? = if d = c then some (tlbEntry ctx va leaf shift) else (s.core d).tlb.head? := by
  rw [core_cacheLeaf, core_modCore s c d (Core.takeEntry (tlbEntry ctx va leaf shift)) fun _ => rfl]
  split <;> rfl

theorem head_cacheLeaves (l : List Nat) (s : State) (ctx va leaf shift : Nat) {c : Nat}
    (h : c ∈ l ∨ (s.core c).tlb.head? = some (tlbEntry ctx va leaf shift)) :
    ((l.foldl (fun (s : State) c => s.cacheLeaf c ctx va leaf shift) s).core c).tlb.head? = some (tlbEntry ctx va leaf shift) := by
  induction l generalizing s with
  | nil => simpa using h
  | cons d l ih =>
    refine ih _ ?_
    rw [head_cacheLeaf]
    by_cases hc : c = d
    · exact .inr (if_pos hc)
    · rw [if_neg hc]
      exact h.imp_left fun hm => (List.mem_cons.mp hm).resolve_left hc

/-- A core finds the leaf that it has taken last. -/
theorem cached_of_head {s : State} {c ctx va leaf shift : Nat} (h : (s.core c).tlb.head? = some (tlbEntry ctx va leaf shift)) (hl : leaf < 2 ^ 64) :
    s.cached c ctx va = some (leaf, shift) := by
  obtain ⟨l, hl'⟩ : ∃ l, (s.core c).tlb = tlbEntry ctx va leaf shift :: l := List.head?_eq_some_iff.mp h
  have hpos : 0 < 2 ^ shift := Nat.two_pow_pos shift
  have hin : va < va / 2 ^ shift * 2 ^ shift + 2 ^ shift := by
    have := Nat.mod_lt va hpos
    have := Nat.div_add_mod' va (2 ^ shift)
    omega
  have hlow : va / 2 ^ shift * 2 ^ shift ≤ va := Nat.div_mul_le_self ..
  simpa [State.cached, hl', tlbEntry, hin, hlow] using hl

theorem mem_cores {m : Miss} {w : Nat × Nat} (h : w ∈ m.waiters) : w.1 ∈ m.cores := by
  have hgrow : ∀ (ws : List (Nat × Nat)) (l : List Nat) (c : Nat), (c ∈ l ∨ ∃ x ∈ ws, x.1 = c) →
      c ∈ ws.foldl (fun (l : List Nat) (w : Nat × Nat) => if l.contains w.1 then l else l ++ [w.1]) l := by
    intro ws
    induction ws with
    | nil => intro l c h; simpa using h
    | cons x ws ih =>
      intro l c h
      refine ih _ c ?_
      rcases h with h | ⟨y, hy, rfl⟩
      · left
        dsimp only
        split
        · exact h
        · exact List.mem_append_left _ h
      · rcases List.mem_cons.mp hy with rfl | hy
        · left
          dsimp only
          split
          · simpa using ‹l.contains y.1 = true›
          · exact List.mem_append_right _ (List.mem_singleton.mpr rfl)
        · exact .inr ⟨y, hy, rfl⟩
  exact hgrow m.waiters [] w.1 (.inr ⟨w, h, rfl⟩)

theorem ofLe_lt (l : List Byte) : ofLe l < 256 ^ l.length := by
  induction l with
  | nil => simp [ofLe]
  | cons b l ih =>
    rw [ofLe, List.length_cons, Nat.pow_succ]
    have := b.isLt
    omega

theorem length_readAt (s : State) (p : Place) (n : Nat) : (s.readAt p n).length = n := by
  induction n generalizing p with
  | zero => rfl
  | succ n ih => rw [State.readAt, List.length_cons, ih]

/-- A leaf is a word of the page table. -/
theorem walkFrom_lt {s : State} {va : Nat} (levels : List (Nat × Nat × Nat)) {table leaf shift : Nat}
    (h : s.walkFrom va levels table = some (leaf, shift)) : leaf < 2 ^ 64 := by
  induction levels generalizing table with
  | nil => cases h
  | cons x levels ih =>
    obtain ⟨level, sh, n⟩ := x
    simp only [State.walkFrom] at h
    split at h
    · cases h
    · split at h
      · have hlt : s.dev (table + 8 * bits va sh n) 8 < 2 ^ 64 := (ofLe_lt _).trans_eq (by rw [length_readAt]; norm_num)
        simp only [Option.some.injEq, Prod.mk.injEq] at h
        exact h.1 ▸ hlt
      · exact ih h

theorem walk_lt {s : State} {ctx va leaf shift : Nat} (h : s.walk ctx va = some (leaf, shift)) : leaf < 2 ^ 64 := by
  obtain ⟨c, -, hc⟩ := Option.bind_eq_some_iff.mp h
  exact walkFrom_lt _ hc

/-! A walk that ends (R286, R287) -/

/-- A walk has ended: its page has left the die's miss table. -/
def State.endWalk (s : State) (die : Nat) (m : Miss) : State :=
  s.modDie die fun d => { d with misses := d.misses.erase m, walks := count48 d.walks 1 }

/-- Every access that waits is told that the walk has found no translation. -/
def State.failWalk (s : State) (die ctx page : Nat) (m : Miss) : State :=
  s.modDie die fun d =>
    { d with walkbad := if isHostPage page then d.walkbad else count48 d.walkbad 1
             bad := d.bad ++ m.waiters.map fun w => (ctx, page, w.2) }

/-- Every core that waits takes the leaf that the walk has found. -/
def State.giveLeaf (s : State) (ctx va leaf shift : Nat) (m : Miss) : State :=
  m.cores.foldl (fun (s : State) c => s.cacheLeaf c ctx va leaf shift) s

/-- The logged loads of a die's context that wait for a walk are tried again. -/
def State.retryLoads (s : State) (die ctx : Nat) (l : List LogEntry) : State :=
  (l.filter fun e => e.walk && dieOfCore e.core == die && e.ctx == ctx).foldl State.resolve s

/-- The entry of the miss table whose walk a page's completion ends. -/
def State.walking (s : State) (die ctx page : Nat) : Option Miss :=
  ((s.die die).misses.take 64).find? fun m => m.ctx == ctx && m.page == page

section
variable {s s' : State} {die ctx page : Nat} {m : Miss} (hm : s.walking die ctx page = some m)
include hm

theorem walkDone_waits (hw : s.walkEnd die ctx page = (s', .waits)) : s.walkDone die ctx page = s' := by
  rw [State.walking] at hm
  simp only [State.walkDone, hm, hw]

theorem walkDone_none (hw : s.walkEnd die ctx page = (s', .none)) :
    s.walkDone die ctx page = ((s'.endWalk die m).failWalk die ctx page m).retryLoads die ctx ((s'.endWalk die m).failWalk die ctx page m).oplog := by
  rw [State.walking] at hm
  simp only [State.walkDone, hm, hw]
  rfl

theorem walkDone_leaf {va leaf shift : Nat} (hw : s.walkEnd die ctx page = (s', .leaf va leaf shift)) :
    s.walkDone die ctx page = ((s'.endWalk die m).giveLeaf ctx va leaf shift m).retryLoads die ctx ((s'.endWalk die m).giveLeaf ctx va leaf shift m).oplog := by
  rw [State.walking] at hm
  simp only [State.walkDone, hm, hw]
  rfl

end

/-- The second state differs from the first at most in dies, cores and clusters. -/
structure State.Translates (s t : State) : Prop where
  same : t = { s with diesS := t.diesS, cores := t.cores, clusters := t.clusters }

namespace State.Translates

theorem trans {s t u : State} (a : s.Translates t) (b : t.Translates u) : s.Translates u :=
  ⟨b.same.trans (congrArg (fun x : State => { x with diesS := u.diesS, cores := u.cores, clusters := u.clusters }) a.same)⟩

theorem modDie (s : State) (d : Nat) (f : Die → Die) : s.Translates (s.modDie d f) := by
  unfold State.modDie
  split <;> exact ⟨rfl⟩

theorem giveLeaf (s : State) (ctx va leaf shift : Nat) (m : Miss) : s.Translates (s.giveLeaf ctx va leaf shift m) := by
  obtain ⟨cs, ks, h⟩ := cacheLeaves_eq m.cores s ctx va leaf shift
  exact ⟨by rw [State.giveLeaf, h]⟩

section
variable {s t : State} (h : s.Translates t)
include h
theorem threads : t.threads = s.threads := (congrArg State.threads h.same).trans rfl
theorem mem : t.mem = s.mem := (congrArg State.mem h.same).trans rfl
theorem oplog : t.oplog = s.oplog := (congrArg State.oplog h.same).trans rfl
end

end State.Translates

theorem die_giveLeaf (s : State) (ctx va leaf shift : Nat) (m : Miss) (d : Nat) : (s.giveLeaf ctx va leaf shift m).die d = s.die d := by
  obtain ⟨cs, ks, h⟩ := cacheLeaves_eq m.cores s ctx va leaf shift
  rw [State.giveLeaf, h]
  rfl

theorem cached_giveLeaf (s : State) {ctx va leaf shift : Nat} (hl : leaf < 2 ^ 64) {m : Miss} {w : Nat × Nat} (hw : w ∈ m.waiters) :
    (s.giveLeaf ctx va leaf shift m).cached w.1 ctx va = some (leaf, shift) :=
  cached_of_head (head_cacheLeaves m.cores s ctx va leaf shift (.inl (mem_cores hw))) hl

theorem die_endWalk (s : State) (die : Nat) (m : Miss) :
    (s.endWalk die m).die die = { s.die die with misses := (s.die die).misses.erase m, walks := count48 (s.die die).walks 1 } :=
  (die_modDie s die die _ (by exact fun _ => rfl)).trans (if_pos rfl)

theorem die_failWalk (s : State) (die ctx page : Nat) (m : Miss) :
    (s.failWalk die ctx page m).die die = { s.die die with
      walkbad := if isHostPage page then (s.die die).walkbad else count48 (s.die die).walkbad 1
      bad := (s.die die).bad ++ m.waiters.map fun w => (ctx, page, w.2) } :=
  (die_modDie s die die _ (by exact fun _ => rfl)).trans (if_pos rfl)

theorem walkEnd_device {s : State} {page : Nat} (hp : page < hostBase / 4096) (die ctx : Nat) :
    (s.walk ctx (page * 65536) = none → s.walkEnd die ctx page = (s, .none)) ∧
      ∀ leaf shift, s.walk ctx (page * 65536) = some (leaf, shift) → s.walkEnd die ctx page = (s, .leaf (page * 65536) leaf shift) := by
  have hd : isHostPage page = false := decide_eq_false (Nat.not_le.mpr hp)
  simp only [State.walkEnd, hd, Bool.false_eq_true, if_false]
  exact ⟨fun h => by simp only [h], fun leaf shift h => by simp only [h]⟩

/-- A walk of device pages that ends. -/
theorem pageWalk_device {s : State} {die ctx page : Nat} {m : Miss} (hm : s.walking die ctx page = some m) (hp : page < hostBase / 4096) :
    ∃ u : State, exec (.pageWalkComplete die ctx page) s = .next (u.retryLoads die ctx s.oplog) ∧
      u.threads = s.threads ∧ u.mem = s.mem ∧ u.oplog = s.oplog ∧ (u.die die).misses = (s.die die).misses.erase m ∧
      (u.die die).walks = ((s.die die).walks + 1) % 2 ^ 48 ∧
      (s.walk ctx (page * 65536) = none → (u.die die).walkbad = ((s.die die).walkbad + 1) % 2 ^ 48 ∧
        (u.die die).bad = (s.die die).bad ++ m.waiters.map fun w => (ctx, page, w.2)) ∧
      (∀ leaf shift, s.walk ctx (page * 65536) = some (leaf, shift) → (u.die die).walkbad = (s.die die).walkbad ∧
        (u.die die).bad = (s.die die).bad ∧ ∀ w ∈ m.waiters, u.cached w.1 ctx (page * 65536) = some (leaf, shift)) := by
  obtain ⟨hnone, hleaf⟩ := walkEnd_device hp die ctx (s := s)
  have hd : isHostPage page = false := decide_eq_false (Nat.not_le.mpr hp)
  have hend : s.Translates (s.endWalk die m) := .modDie ..
  cases hw : s.walk ctx (page * 65536) with
  | none =>
    have hu : s.Translates ((s.endWalk die m).failWalk die ctx page m) := hend.trans (.modDie ..)
    refine ⟨_, (congrArg Host.Outcome.next (walkDone_none hm (hnone hw))).trans (by rw [hu.oplog]), hu.threads, hu.mem, hu.oplog, ?_, ?_, fun _ => ?_, nofun⟩
    · rw [die_failWalk, die_endWalk]
    · rw [die_failWalk, die_endWalk]
      rfl
    · rw [die_failWalk, die_endWalk, hd]
      exact ⟨rfl, rfl⟩
  | some x =>
    obtain ⟨leaf, shift⟩ := x
    have hu : s.Translates ((s.endWalk die m).giveLeaf ctx (page * 65536) leaf shift m) := hend.trans (.giveLeaf ..)
    refine ⟨_, (congrArg Host.Outcome.next (walkDone_leaf hm (hleaf leaf shift hw))).trans (by rw [hu.oplog]), hu.threads, hu.mem, hu.oplog, ?_, ?_, nofun,
      fun leaf' shift' h => ?_⟩
    · rw [die_giveLeaf, die_endWalk]
    · rw [die_giveLeaf, die_endWalk]
      rfl
    · cases h
      rw [die_giveLeaf, die_endWalk]
      exact ⟨rfl, rfl, fun w hw' => cached_giveLeaf _ (walk_lt hw) hw'⟩

/-! A walk of a page of the host window (R282) -/

/-- What the host is asked changes at most the page requests and their refusals. -/
theorem hostAsk_eq (s : State) (vf a : Nat) (write : Bool) (agent : Nat) :
    (s.hostAsk vf a write agent).1 = { s with pri := (s.hostAsk vf a write agent).1.pri, priBad := (s.hostAsk vf a write agent).1.priBad } := by
  unfold State.hostAsk
  dsimp only
  split
  · rfl
  · split
    · rfl
    · split
      · split <;> rfl
      · split <;> rfl

/-- The leaf that stands for a page of the host, with its right to be written. -/
def State.hostLeaf (s : State) (vf a : Nat) : Nat := 256 * b2n (s.hostPages.any fun h => h.vf == vf && h.page == a / 4096 && h.writable)

theorem bit_hostLeaf (s : State) (vf a : Nat) :
    bit (s.hostLeaf vf a) 8 = true ↔ ∃ h ∈ s.hostPages, h.vf = vf ∧ h.page = a / 4096 ∧ h.writable = true := by
  have hb : ∀ b : Bool, bit (256 * b2n b) 8 = b := by decide
  rw [State.hostLeaf, hb, List.any_eq_true]
  simp only [Bool.and_eq_true, beq_iff_eq, and_assoc]

theorem hostLeaf_lt (s : State) (vf a : Nat) : s.hostLeaf vf a < 2 ^ 64 := by
  unfold State.hostLeaf b2n
  split <;> norm_num

section
variable {s s1 : State} {die ctx page : Nat} {c : Context} (hp : hostBase / 4096 ≤ page) (hc : s.ctx? ctx = some c)
include hp hc

theorem walkEnd_host_wait (ha : s.hostAsk c.par.vf (page * 4096 - hostBase) false (walkerAgent die ctx) = (s1, .wait)) :
    s.walkEnd die ctx page = (s1, .waits) := by
  have hd : isHostPage page = true := decide_eq_true hp
  simp only [State.walkEnd, hd, if_true, hc, ha]

theorem walkEnd_host_fault {x d : Nat} (ha : s.hostAsk c.par.vf (page * 4096 - hostBase) false (walkerAgent die ctx) = (s1, .fault x d)) :
    s.walkEnd die ctx page = (s1, .none) := by
  have hd : isHostPage page = true := decide_eq_true hp
  simp only [State.walkEnd, hd, if_true, hc, ha]

theorem walkEnd_host_ok {p : Place} {k : Bool} (ha : s.hostAsk c.par.vf (page * 4096 - hostBase) false (walkerAgent die ctx) = (s1, .ok p k)) :
    s.walkEnd die ctx page = (s1, .leaf (page * 4096) (s1.hostLeaf c.par.vf (page * 4096 - hostBase)) 12) := by
  have hd : isHostPage page = true := decide_eq_true hp
  simp only [State.walkEnd, hd, if_true, hc, ha]
  rfl

end

/-- A walk of a host page that the host has answered. -/
theorem pageWalk_host {s : State} {die ctx page : Nat} {m : Miss} {c : Context} (hm : s.walking die ctx page = some m)
    (hp : hostBase / 4096 ≤ page) (hc : s.ctx? ctx = some c) (asked : State × Xlat)
    (hask : s.hostAsk c.par.vf (page * 4096 - hostBase) false (walkerAgent die ctx) = asked) (hx : asked.2 ≠ .wait) :
    ∃ u : State, exec (.pageWalkComplete die ctx page) s = .next (u.retryLoads die ctx asked.1.oplog) ∧
      u.threads = s.threads ∧ u.mem = s.mem ∧ u.oplog = s.oplog ∧ (u.die die).misses = (s.die die).misses.erase m ∧
      (u.die die).walks = ((s.die die).walks + 1) % 2 ^ 48 ∧ (u.die die).walkbad = (s.die die).walkbad ∧
      (∀ d, asked.2 = .fault 0x0C d → (u.die die).bad = (s.die die).bad ++ m.waiters.map fun w => (ctx, page, w.2)) ∧
      (∀ p k, asked.2 = .ok p k → (u.die die).bad = (s.die die).bad ∧ ∃ leaf, (bit leaf 8 = true ↔ ∃ h ∈ s.hostPages,
          h.vf = c.par.vf ∧ h.page = (page * 4096 - hostBase) / 4096 ∧ h.writable = true) ∧
        ∀ w ∈ m.waiters, u.cached w.1 ctx (page * 4096) = some (leaf, 12)) := by
  have hd : isHostPage page = true := decide_eq_true hp
  have hs1 : asked.1 = { s with pri := asked.1.pri, priBad := asked.1.priBad } := hask ▸ hostAsk_eq ..
  have hdie : asked.1.die die = s.die die := by rw [hs1]; rfl
  have hth : asked.1.threads = s.threads ∧ asked.1.mem = s.mem ∧ asked.1.oplog = s.oplog := by rw [hs1]; exact ⟨rfl, rfl, rfl⟩
  have hend : asked.1.Translates (asked.1.endWalk die m) := .modDie ..
  obtain ⟨s1, x⟩ := asked
  obtain ⟨h1, h2, h3⟩ := hth
  cases x with
  | wait => exact absurd rfl hx
  | fault cause d =>
    have hu : s1.Translates ((s1.endWalk die m).failWalk die ctx page m) := hend.trans (.modDie ..)
    refine ⟨_, (congrArg Host.Outcome.next (walkDone_none hm (walkEnd_host_fault hp hc hask))).trans (by rw [hu.oplog]), hu.threads.trans h1,
      hu.mem.trans h2, hu.oplog.trans h3, ?_, ?_, ?_, fun _ _ => ?_, nofun⟩ <;> rw [die_failWalk, die_endWalk, hdie]
    · rfl
    · exact if_pos hd
  | ok p k =>
    have hu : s1.Translates ((s1.endWalk die m).giveLeaf ctx (page * 4096) (s1.hostLeaf c.par.vf (page * 4096 - hostBase)) 12 m) :=
      hend.trans (.giveLeaf ..)
    refine ⟨_, (congrArg Host.Outcome.next (walkDone_leaf hm (walkEnd_host_ok hp hc hask))).trans (by rw [hu.oplog]), hu.threads.trans h1,
      hu.mem.trans h2, hu.oplog.trans h3, ?_, ?_, ?_, nofun, fun _ _ _ => ⟨?_, _, ?_, fun w hw => cached_giveLeaf _ (hostLeaf_lt ..) hw⟩⟩
    · rw [die_giveLeaf, die_endWalk, hdie]
    · rw [die_giveLeaf, die_endWalk, hdie]
      rfl
    · rw [die_giveLeaf, die_endWalk, hdie]
    · rw [die_giveLeaf, die_endWalk, hdie]
    · have hhp : s1.hostPages = s.hostPages := (congrArg State.hostPages hs1).trans rfl
      rw [bit_hostLeaf, hhp]

/-! Loads that wait, and page requests -/

theorem resolve_walks {s : State} {e : LogEntry} {t : Thread} (ht : s.thread? e.r = some t) (hw : e.walk = true) (hc : e.cancelled = false)
    (hf : e.fault = none) (ha : away e.r = false) :
    (∀ s1 e', s.translateLoad t e = (s1, .ok e') → (∀ w, t.wait ≠ some (.waitv w)) → s.resolve e = s1.setLog e') ∧
    (∀ s1 f, s.translateLoad t e = (s1, .error (some f)) → s.resolve e = s1.setLog { e with fault := some (f.cause, f.detail, f.addr) }) ∧
    (∀ s1, s.translateLoad t e = (s1, .error none) → s.resolve e = s1) := by
  have hgo : (!e.walk || e.cancelled || e.fault.isSome || away e.r) = false := by rw [hw, hc, hf, ha]; rfl
  refine ⟨fun s1 e' h hn => ?_, fun s1 f h => ?_, fun s1 h => ?_⟩ <;>
    simp only [State.resolve, ht, hgo, Bool.false_eq_true, if_false, h]

/-- Settles O44: each answer that a load or a hinge waits for, and what it leaves. -/
theorem loadsComplete : Obligations.LoadsComplete := by
  unfold Obligations.LoadsComplete
  refine ⟨?_, ?_, ?_, ?_, ?_, ?_, ?_⟩
  · intro s id e t he hw hc hf ha ht ho hs hwait hl hb hclean hwf hn data
    obtain rfl : e.id = id := by simpa using List.find?_some he
    obtain ⟨u, hu, hth, hlog, hmem⟩ := postedLoadFill ⟨ht, hw, hf, hl, hclean⟩ he hc ha ho hs hwait hb
    have hstep := regStep_fillThread e (e.seen s t) t
    refine ⟨u, _, hu, hth, hlog, hmem, fun x hx h1 h2 => ?_, fun c hx => ?_, ?_⟩
    · exact takeAll_mem hwf hb hn hx h1 h2
    · exact takeAll_other hwf hb hx
    · rw [hstep]
      exact ⟨rfl, rfl, rfl, rfl⟩
  · intro s id c d a e t he hf hc ha hm ht
    obtain rfl : e.id = id := by simpa using List.find?_some he
    refine ⟨fun h hs => ?_, fun x p htrap hne hs _ _ hx hh hp => ?_⟩
    · have hu := thread?_modThread_same (dropLoad_thread? ht) (Thread.keepFault { id := e.id, info := e.info c d a true })
      refine ⟨(s.dropLoad e).modThread e.r _, congrArg Host.Outcome.next ?_, rfl, ?_, hu⟩
      · rw [deliver_eq he hf hc ha hm, deferFault_held ht h]
        exact waitfCheck_of_other hu hs
      · exact mem_dropLoad he
    · obtain ⟨u, hu, hlog, hth⟩ := deferredFault_taken he hf hc ha hm ht htrap hne hs hx hh hp
      exact ⟨u, _, _, hu, hlog, hth, rfl, rfl, rfl, rfl, rfl, rfl, rfl, rfl, rfl, rfl, fills_dropFills t e⟩
  · intro s slot t h rest ht hf h1 h2 hb hw hs
    obtain ⟨hu, hth⟩ := hingeFill_eq ht hf hb hs
    have hcode : ∀ x ∈ upFrom 0 h.words, h.code + x ∉ t.badRegs := fun x hx => hb x (by rw [mem_upFrom] at hx; omega)
    have hstep := Thread.RegStep.takeAll (h.code + ·) (fun j => .ofNat 32 (h.value / 2 ^ (32 * j))) t (upFrom 0 h.words)
    refine ⟨_, _, hu, hth, rfl, rfl, fun j hj => ?_, fun c hc => ?_, ?_, ?_⟩
    · have hn : ((upFrom 0 h.words).map (h.code + ·)).Nodup := by
        rw [upFrom_zero]
        exact List.nodup_range.map fun _ _ => Nat.add_left_cancel
      obtain ⟨hreg, hempty, -⟩ := takeAll_mem (val := fun j => .ofNat 32 (h.value / 2 ^ (32 * j))) hw hcode hn
        ((mem_upFrom 0 h.words j).mpr (by omega)) (by omega) (by omega)
      exact ⟨hreg, hempty⟩
    · obtain ⟨hreg, hempty, -⟩ := takeAll_other (val := fun j => .ofNat 32 (h.value / 2 ^ (32 * j))) hw hcode (c := c) fun x hx => by
        rw [mem_upFrom] at hx
        omega
      exact ⟨hreg, hempty⟩
    · exact (congrArg Thread.pc hstep).trans rfl
    · exact (congrArg Thread.flg hstep).trans rfl
  · exact fun s die ctx page m hm hp => pageWalk_device hm hp
  · intro s s1 die ctx page m c hm hp hc asked
    refine ⟨fun h => ?_, fun h => pageWalk_host hm hp hc asked rfl h⟩
    exact congrArg Host.Outcome.next (walkDone_waits hm (walkEnd_host_wait hp hc h))
  · intro s s1 e t ht hw hc hf ha
    obtain ⟨h1, h2, h3⟩ := resolve_walks ht hw hc hf ha
    exact ⟨h1 s1, h2 s1, h3 s1⟩
  · intro s vf page q hq
    refine ⟨fun w => congrArg Host.Outcome.next ?_, congrArg Host.Outcome.next ?_⟩ <;> simp only [State.priDone, hq]

end Sys2Proof.Machine
end


section
/-! SUPPORT. A stepping that is abandoned in a slot that holds two threads (R211, R270). -/

namespace Sys2Proof.Machine

open Sys2Proof

/-! A stepping that is abandoned where two records share a thread slot (R211, R270) -/

/-- Slot 0 of a debugger's context holds two threads: one is slot-stepped, and its lane holds a flume slot; the other is parked for that flume.
No hypothesis of O54 says that a slot holds one thread. -/
def sharedSlot : State :=
  let s := State.reset.place [0]
  { s with
    pkg := { s.pkg with state := 4 }
    contexts := [{ Context.fresh placedParams 0 0 with debugger := true }]
    threads := [{ placedThread with stepping := true }, { placedThread with status := .flacq 0 0 }]
    bundles := s.bundles.map fun b => b.modLane 0 fun l => { l with flumes := [(0, 0, 0)] } }

/-- The flume slot that the abandoned lane gives back wakes the parked thread, and by their common slot the stepped one too, which its bundle then
passes over. -/
theorem debugAbandon_sharedSlot : ((sharedSlot.debugAbandon 0).thread? 0).map (·.status) = some .runnable := by decide +kernel

/-- Refutes O54: on `sharedSlot` the thread whose stepping is abandoned does not halt, it is runnable. -/
theorem not_debuggerActs : ¬ Obligations.DebuggerActs := by
  unfold Obligations.DebuggerActs
  rintro ⟨threads, -, -⟩
  have hl : ∃ b l, sharedSlot.bundle? placedPort = some b ∧ b.lanes = [l] ∧ l.r = 0 ∧ l.stage = 0 := ⟨_, _, rfl, rfl, rfl, rfl⟩
  obtain ⟨b, l, hb, hbl, hr, hs⟩ := hl
  obtain ⟨-, -, -, abandons⟩ := threads sharedSlot 0 _ _ rfl rfl rfl rfl rfl rfl
  obtain ⟨u, th, hu, hth, hst, -⟩ := abandons placedPort b l rfl rfl hb hbl hr hs
  obtain rfl : sharedSlot.debugAbandon 0 = u := Host.Outcome.next.inj hu
  have h := debugAbandon_sharedSlot
  rw [hth, Option.map_some, hst] at h
  cases h

end Sys2Proof.Machine
end


section
/-! SUPPORT. Writes of the machine and the race detector's notes leave threads, bundles and tables alone (R290, R309, R312, R347). -/

namespace Sys2Proof.Machine

open Sys2Proof

/-! A write of the machine, of any run, and the race detector's notes: they leave threads, bundles and tables alone, and a run only gains marks. -/

/-- A run with marks that accesses of it leave: CIR bits (R325, R326) and what R347 records. -/
structure Run.Noted (x y : Run) : Prop where
  same : y = { x with cir := y.cir, outward := y.outward, wrote := y.wrote, synced := y.synced }
  cir : ∀ i, x.cir.getLsbD i = true → y.cir.getLsbD i = true

namespace Run.Noted

theorem refl (x : Run) : x.Noted x := ⟨rfl, fun _ h => h⟩

theorem trans {x y z : Run} (a : x.Noted y) (b : y.Noted z) : x.Noted z :=
  ⟨b.same.trans (congrArg (fun w : Run => { w with cir := z.cir, outward := z.outward, wrote := z.wrote, synced := z.synced }) a.same),
    fun i h => b.cir i (a.cir i h)⟩

theorem ended {x y : Run} (h : x.Noted y) : y.ended = x.ended := (congrArg Run.ended h.same).trans rfl
theorem exited {x y : Run} (h : x.Noted y) : y.exited = x.exited := (congrArg Run.exited h.same).trans rfl
theorem failing {x y : Run} (h : x.Noted y) : y.failing = x.failing := (congrArg Run.failing h.same).trans rfl
theorem id {x y : Run} (h : x.Noted y) : y.id = x.id := (congrArg Run.id h.same).trans rfl

end Run.Noted

/-- The members of each group, in the order of the groups. -/
def State.memberList (s : State) : List (Nat × List (Nat × Nat)) := s.groups.map fun g => (g.gid, g.members)

theorem memberList_modGroup (s : State) (k : Nat) (f : Group → Group) (hf : ∀ g, (f g).gid = g.gid ∧ (f g).members = g.members) :
    (s.modGroup k f).memberList = s.memberList := by
  refine List.map_map.trans (List.map_congr_left fun g _ => ?_)
  simp only [Function.comp]
  split
  · rw [(hf g).1, (hf g).2]
  · rfl

/-- Accesses leave bytes, requests, poison, race metadata, contexts' counters and runs' marks, and nothing else. -/
structure State.Notes (s t : State) : Prop where
  same : t = { s with mem := t.mem, hostMem := t.hostMem, peerMem := t.peerMem, groups := t.groups, ports := t.ports, poison := t.poison,
                      encPages := t.encPages, runs := t.runs, contexts := t.contexts, tags := t.tags, lines := t.lines, snaps := t.snaps }
  runs : ∀ k x, s.run? k = some x → ∃ y, t.run? k = some y ∧ x.Noted y
  runList : ∀ y ∈ t.runs, ∃ x ∈ s.runs, x.Noted y
  members : t.memberList = s.memberList

namespace State.Notes

theorem refl (s : State) : s.Notes s := ⟨rfl, fun _ x h => ⟨x, h, .refl x⟩, fun y h => ⟨y, h, .refl y⟩, rfl⟩

theorem trans {s t u : State} (a : s.Notes t) (b : t.Notes u) : s.Notes u where
  same := b.same.trans (congrArg (fun x : State => { x with
    mem := u.mem, hostMem := u.hostMem, peerMem := u.peerMem, groups := u.groups, ports := u.ports, poison := u.poison, encPages := u.encPages
    runs := u.runs, contexts := u.contexts, tags := u.tags, lines := u.lines, snaps := u.snaps }) a.same)
  runs k x h := by
    obtain ⟨y, hy, hxy⟩ := a.runs k x h
    obtain ⟨z, hz, hyz⟩ := b.runs k y hy
    exact ⟨z, hz, hxy.trans hyz⟩
  runList z hz := by
    obtain ⟨y, hy, hyz⟩ := b.runList z hz
    obtain ⟨x, hx, hxy⟩ := a.runList y hy
    exact ⟨x, hx, hxy.trans hyz⟩
  members := b.members.trans a.members

theorem foldl {α : Type} {f : State → α → State} (hf : ∀ (s : State) a, s.Notes (f s a)) (l : List α) (s : State) : s.Notes (l.foldl f s) := by
  induction l generalizing s with
  | nil => exact refl s
  | cons a l ih => exact (hf s a).trans (ih _)

theorem of_runs {s t : State} (hr : t.runs = s.runs) (hm : t.memberList = s.memberList)
    (h : t = { s with mem := t.mem, hostMem := t.hostMem, peerMem := t.peerMem, groups := t.groups, ports := t.ports, poison := t.poison,
                      encPages := t.encPages, runs := t.runs, contexts := t.contexts, tags := t.tags, lines := t.lines, snaps := t.snaps }) :
    s.Notes t := ⟨h, fun k x hx => ⟨x, by rw [State.run?, hr]; exact hx, .refl x⟩, fun y hy => ⟨y, hr ▸ hy, .refl y⟩, hm⟩

theorem of_stored {s t : State} (h : s.Stored t) (hm : t.memberList = s.memberList) : s.Notes t := of_runs h.runs hm (by rw [h.same])

section
variable {s t : State} (h : s.Notes t)
include h

theorem threads : t.threads = s.threads := (congrArg State.threads h.same).trans rfl
theorem bundles : t.bundles = s.bundles := (congrArg State.bundles h.same).trans rfl
theorem table : t.table = s.table := (congrArg State.table h.same).trans rfl
theorem blocks : t.blocks = s.blocks := (congrArg State.blocks h.same).trans rfl
theorem out : t.out = s.out := (congrArg State.out h.same).trans rfl
theorem oplog : t.oplog = s.oplog := (congrArg State.oplog h.same).trans rfl
theorem cores : t.cores = s.cores := (congrArg State.cores h.same).trans rfl
theorem clk : t.clk = s.clk := (congrArg State.clk h.same).trans rfl

end

theorem modRun (s : State) (k : Nat) (f : Run → Run) (hf : ∀ x, Run.Noted x (f x)) : s.Notes (s.modRun k f) where
  same := rfl
  runs j x hx := by
    refine ⟨if x.id = k then f x else x, ?_, ?_⟩
    · rw [run?_modRun s k f (fun x => (hf x).id), hx, Option.map_some]
    · split
      · exact hf x
      · exact .refl x
  runList y hy := by
    obtain ⟨x, hx, rfl⟩ := List.mem_map.mp hy
    refine ⟨x, hx, ?_⟩
    split
    · exact hf x
    · exact .refl x
  members := rfl

theorem modCtx (s : State) (k : Nat) (f : Context → Context) : s.Notes (s.modCtx k f) := of_runs rfl rfl rfl
theorem modTag (s : State) (k : Nat) (f : TagEntry → TagEntry) : s.Notes (s.modTag k f) := of_runs rfl rfl rfl
theorem modGroup (s : State) (k : Nat) (f : Group → Group) (hf : ∀ g, (f g).gid = g.gid ∧ (f g).members = g.members) : s.Notes (s.modGroup k f) :=
  of_runs rfl (memberList_modGroup s k f hf) rfl

theorem setCir (s : State) (run i : Nat) : s.Notes (s.setCir run i) :=
  modRun s run _ fun x => ⟨rfl, fun j hj => by simp [setBit, hj]⟩

theorem putByte (s : State) (p : Place) (b : Byte) : s.Notes (s.putByte p b) := by
  cases p with
  | scr gid o => exact modGroup s gid _ fun _ => ⟨rfl, rfl⟩
  | dev | host | peer => exact of_runs rfl rfl rfl

theorem writeAt (s : State) (p : Place) (l : List Byte) : s.Notes (s.writeAt p l) := by
  induction l generalizing s p with
  | nil => exact refl s
  | cons b l ih => exact (putByte s p b).trans (ih ..)

theorem askPeer (s : State) (l : List Byte) (p : Place) : s.Notes (s.askPeer l p) := of_stored (.askPeer ..) (by rw [askPeer_eq]; rfl)

theorem heal (s : State) (line : Place) : s.Notes (s.heal line) := by
  refine of_stored (.heal ..) (congrArg (List.map _) ?_)
  unfold State.heal
  dsimp only
  split
  · split
    · rfl
    · split <;> rfl
  · rfl

theorem storeLine (s : State) (run : Option Nat) (p : Place) (l : List Byte) : s.Notes (s.storeLine run p l) := by
  have ha := askPeer s l p
  unfold State.storeLine
  dsimp only
  split
  · split
    · exact (ha.trans (writeAt ..)).trans (heal ..)
    · split
      · exact ha.trans (setCir ..)
      · exact ha
  · exact ha.trans (writeAt ..)

theorem storeLines (s : State) (run : Option Nat) (n : Nat) (p : Place) (l : List Byte) : s.Notes (s.storeLines run n p l) := by
  induction n generalizing s p l with
  | zero => exact refl s
  | succ n ih =>
    unfold State.storeLines
    split
    · exact refl s
    · exact (storeLine ..).trans (ih ..)

theorem store (s : State) (run : Option Nat) (p : Place) (l : List Byte) : s.Notes (s.store run p l) := storeLines ..

theorem writeCtx {s t : State} {ctx va : Nat} {l : List Byte} (h : s.writeCtx ctx va l = some t) : s.Notes t := by
  obtain ⟨p, -, rfl⟩ := Option.map_eq_some_iff.mp h
  exact store ..

theorem writeCtx_getD (s : State) (ctx va : Nat) (l : List Byte) : s.Notes ((s.writeCtx ctx va l).getD s) := by
  cases h : s.writeCtx ctx va l with
  | none => exact refl s
  | some t => exact writeCtx h

theorem notePoison (s : State) (run : Nat) (b : Bool) : s.Notes (s.notePoison run b) := by
  unfold State.notePoison
  split
  · exact setCir ..
  · exact refl s

theorem noteWrite (s : State) (run va : Nat) (p : Place) (sync : Bool) : s.Notes (s.noteWrite run va p sync) := by
  unfold State.noteWrite
  split
  · exact refl s
  · extract_lets out wrote synced
    split
    · exact modRun s run _ fun x => ⟨rfl, fun _ h => h⟩
    · exact refl s

/-! The race detector -/

theorem countLoss (s : State) (ctx run : Nat) (f : Context → Context) : s.Notes (s.countLoss ctx run f) := (modCtx ..).trans (setCir ..)

theorem shadowPage (s : State) (ctx run : Nat) (p : Place) (count : Bool) : s.Notes (s.shadowPage ctx run p count).1 := by
  unfold State.shadowPage
  split
  · dsimp only
    split
    · split
      · exact countLoss ..
      · exact refl s
    · split
      · exact refl s
      · split
        · exact modCtx ..
        · exact (countLoss ..).trans (of_runs rfl rfl rfl)
  · exact refl s
  · exact refl s

theorem dropSnap (s : State) (k : SnapKey) : s.Notes (s.dropSnap k) := of_runs rfl rfl rfl

theorem setSnap (s : State) (die : Nat) (k : SnapKey) (st : Stamp) : s.Notes (s.setSnap die k st).1 := by
  unfold State.setSnap
  dsimp only
  split
  · exact of_runs rfl rfl rfl
  · exact dropSnap ..

theorem setRaceLine (s : State) (l : RaceLine) : s.Notes (s.setRaceLine l) := of_runs rfl rfl rfl

theorem countVerdict (s : State) (c : Acc) (v : Verdict) : s.Notes (s.countVerdict c v) := by
  cases v with
  | clkSup | hzSup => exact countLoss ..
  | ordered | report => exact refl s

theorem judgePrior (s : State) (c : Acc) (p : Option Prior) : s.Notes (s.judgePrior c p).1 := by
  unfold State.judgePrior
  split
  · exact refl s
  · split
    · exact refl s
    · exact countVerdict ..

theorem checkRace (s : State) (c : Acc) : s.Notes (s.checkRace c).1 := by
  unfold State.checkRace
  have ht := modTag s c.r fun e => if e.gen = c.gen then { e with touched := true } else e
  have hp := ht.trans (shadowPage _ c.ctx c.run c.place true)
  dsimp only
  split
  · exact hp
  · split
    · exact hp
    · rename_i l _
      refine hp.trans ?_
      generalize (State.shadowPage _ c.ctx c.run c.place true).1 = u
      have hs : u.Notes (if c.write && ((l.rd.map (·.shared)).getD false) then u.modCtx c.ctx fun x => { x with shrsup := count48 x.shrsup 1 } else u) := by
        split
        · exact modCtx ..
        · exact refl u
      have ha := hs.trans (judgePrior _ c (l.w.map RaceW.prior))
      split
      · exact ha.trans (judgePrior ..)
      · exact ha

theorem raceRecord (s : State) (ctx run : Nat) (words : List Nat) : s.Notes (s.raceRecord ctx run words) := by
  unfold State.raceRecord
  split
  · exact refl s
  · rename_i c _
    have hm := modCtx s ctx fun x => { x with raceSeq := (c.raceSeq + 1) % 2 ^ 32 }
    dsimp only
    split
    · exact hm.trans (modCtx ..)
    · split
      · split
        · split
          · rename_i h
            exact (hm.trans (writeCtx h)).trans (writeCtx_getD ..)
          · exact hm.trans (modCtx ..)
        · exact hm.trans (writeCtx_getD ..)
      · exact hm.trans (modCtx ..)

theorem raceLoad (s : State) (c : Acc) : s.Notes (s.raceLoad c) := by
  unfold State.raceLoad
  have hp := shadowPage s c.ctx c.run c.place false
  dsimp only
  split
  · exact hp
  · exact hp.trans (setRaceLine ..)

/-- The metadata of a store; an acquiring atomic changes its thread's horizon too. -/
theorem raceWrite (s : State) {c : Acc} (hc : c.atomic = false) (judge rel : Bool) (gone : Option Stamp) : s.Notes (s.raceWrite c judge rel gone) := by
  unfold State.raceWrite
  simp only [hc, Bool.false_and, Bool.false_eq_true, if_false]
  have hp : s.Notes (if judge then s.shadowPage c.ctx c.run c.place false else (s, false)).1 := by
    split
    · exact shadowPage ..
    · exact refl s
  refine hp.trans ?_
  generalize (if judge then s.shadowPage c.ctx c.run c.place false else (s, false)) = q
  obtain ⟨u, judged⟩ := q
  have hk (die : Nat) (st : Stamp) : u.Notes (if (u.setSnap die (.line c.place.line) st).2 then (u.setSnap die (.line c.place.line) st).1
      else (u.setSnap die (.line c.place.line) st).1.countLoss c.ctx c.run fun x => { x with snpsup := count48 x.snpsup 1 }) := by
    split
    · exact setSnap ..
    · exact (setSnap ..).trans (countLoss ..)
  cases judged with
  | false =>
    cases rel with
    | false => exact dropSnap ..
    | true => exact hk ..
  | true =>
    cases rel with
    | false => exact (dropSnap ..).trans (setRaceLine ..)
    | true => exact (hk ..).trans (setRaceLine ..)

theorem storeNotes (s : State) (st : Store) : s.Notes (s.storeNotes st) := by
  unfold State.storeNotes
  dsimp only
  split
  · exact (raceWrite s rfl ..).trans (noteWrite ..)
  · exact noteWrite ..

theorem putStore (s : State) (st : Store) : s.Notes (s.putStore st) := by
  unfold State.putStore
  dsimp only
  split
  · exact store ..
  · exact (storeNotes ..).trans (store ..)

theorem waitvCheck (s : State) (t : Thread) (w : WaitV) : s.Notes (s.waitvCheck t w) := by
  unfold State.waitvCheck
  have hc := checkRace s (w.acc s t)
  dsimp only
  split
  · exact (hc.trans (raceRecord ..)).trans (raceLoad ..)
  · exact hc.trans (raceLoad ..)

end State.Notes

end Sys2Proof.Machine
end


section
/-! SUPPORT. Stores that drain wake only threads that wait (R162, R163, R175). -/

namespace Sys2Proof.Machine

open Sys2Proof

/-! What an act on one thread leaves alone, and what a thread that is woken leaves alone -/

/-- The acts on one slot: other threads, bundles with no lane of it, and (but for marks) runs are as before. -/
structure State.Touches (r : Nat) (s t : State) : Prop where
  thread : ∀ q, q ≠ r → t.thread? q = s.thread? q
  bundle : ∀ p b, s.bundle? p = some b → (∀ l ∈ b.lanes, l.r ≠ r) → t.bundle? p = some b
  runs : ∀ k x, s.run? k = some x → ∃ y, t.run? k = some y ∧ x.Noted y

namespace State.Touches

variable {r : Nat}

theorem of_same {s t : State} (ht : t.threads = s.threads) (hb : t.bundles = s.bundles) (hr : t.runs = s.runs) : State.Touches r s t where
  thread q _ := thread?_congr ht q
  bundle p b h _ := by rw [bundle?_congr hb, h]
  runs k x h := ⟨x, by rw [State.run?, hr]; exact h, .refl x⟩

theorem refl (s : State) : State.Touches r s s := of_same rfl rfl rfl

theorem trans {s t u : State} (a : State.Touches r s t) (b : State.Touches r t u) : State.Touches r s u where
  thread q hq := (b.thread q hq).trans (a.thread q hq)
  bundle p x h hx := b.bundle p x (a.bundle p x h hx) hx
  runs k x h := by
    obtain ⟨y, hy, hxy⟩ := a.runs k x h
    obtain ⟨z, hz, hyz⟩ := b.runs k y hy
    exact ⟨z, hz, hxy.trans hyz⟩

theorem of_notes {s t : State} (h : s.Notes t) : State.Touches r s t where
  thread q _ := thread?_congr h.threads q
  bundle p b hb _ := by rw [bundle?_congr h.bundles, hb]
  runs := h.runs

theorem of_recorded {s t : State} (h : s.Recorded t) : State.Touches r s t := of_same h.threads h.bundles h.runs

theorem modThread (s : State) (f : Thread → Thread) (hf : ∀ t, (f t).r = t.r := by exact fun _ => rfl) : State.Touches r s (s.modThread r f) where
  thread _ hq := thread?_modThread_other s hq f hf
  bundle _ _ h _ := h
  runs _ x h := ⟨x, h, .refl x⟩

theorem modLane (s : State) (p : PortId) (f : Lane → Lane) : State.Touches r s (s.modLane p r f) where
  thread _ _ := rfl
  bundle q b h hb := by
    have hl : b.lanes.map (fun l => if l.r = r then f l else l) = b.lanes :=
      (List.map_congr_left fun l hl => if_neg (hb l hl)).trans (List.map_id _)
    have hq : (s.modLane p r f).bundle? q = (s.bundle? q).map fun b => if b.p = p then { b with lanes := b.lanes.map fun l => if l.r = r then f l else l } else b :=
      find?_map_of_keeps (fun b => by split <;> rfl) s.bundles
    rw [hq, h, Option.map_some, hl, ite_self]
  runs _ x h := ⟨x, h, .refl x⟩

theorem keepRec (s : State) (ctx x : Nat) : State.Touches r s (s.keepRec r ctx x) := by
  unfold State.keepRec
  split
  · exact modLane ..
  · exact of_recorded (.writeTrace ..)

theorem traceThread (s : State) (kind : Nat) : State.Touches r s (s.traceThread r kind) := by
  unfold State.traceThread
  split
  · exact refl s
  · exact keepRec ..

theorem enterTable (s : State) : State.Touches r s (s.enterTable r) := by
  unfold State.enterTable
  split
  · exact refl s
  · exact (modThread s fun t => { t with status := .runnable }).trans (of_same rfl rfl rfl)

theorem wake (s : State) : State.Touches r s (s.wake r) := by
  unfold State.wake
  split
  · exact modThread ..
  · exact enterTable ..

theorem unpark (s : State) : State.Touches r s (s.unpark r) := by
  unfold State.unpark
  split
  · exact (modThread ..).trans (wake ..)
  · exact (traceThread ..).trans (wake ..)

/-! A turn of a WAITV (R175) -/

theorem acquireLine (s : State) (ctx : Nat) (line : Place) : State.Touches r s (s.acquireLine r ctx line) := by
  unfold State.acquireLine
  split
  · exact modThread s _ fun t => merge_r t _
  · split
    · split
      · exact modThread ..
      · exact refl s
    · exact refl s

theorem pendLine (s : State) (line : Place) : State.Touches r s (s.pendLine r line) := by
  unfold State.pendLine
  split
  · exact refl s
  · exact modThread s _ fun t => by split <;> rfl

theorem waitvNow (s : State) {t : Thread} (ht : t.r = r) (w : WaitV) : State.Touches r s (s.waitvNow t w).1 := by
  unfold State.waitvNow
  have hp : State.Touches r s ((s.askPeer [] w.place).notePoison t.run (s.viewBytes t [] w.place w.ty.bytes).2) :=
    of_notes ((Notes.askPeer ..).trans (.notePoison ..))
  have hj (u : State) : State.Touches r u (if w.race == .dflt then u else u.waitvJudge t w) := by
    split
    · exact refl u
    · unfold State.waitvJudge
      have hc : State.Touches r u (if w.race == .check then u.waitvCheck t w else u) := by
        split
        · exact of_notes (.waitvCheck ..)
        · exact refl u
      rw [ht]
      dsimp only
      split
      · exact hc.trans (acquireLine ..)
      · exact hc.trans (pendLine ..)
  dsimp only
  split
  · rw [ht]
    exact (hp.trans (hj _)).trans (modThread ..)
  · rw [ht]
    exact hp.trans (modThread ..)

theorem waitvTry (s : State) : State.Touches r s (s.waitvTry r) := by
  unfold State.waitvTry
  split
  · exact refl s
  · split
    · exact refl s
    · rename_i t ht
      split
      · exact refl s
      · split
        · rename_i w _ _
          have hn := waitvNow s (thread?_r ht) w
          split
          · rename_i h
            rw [h] at hn
            exact hn.trans (unpark ..)
          · rename_i h
            rw [h] at hn
            exact hn
        · exact refl s

end State.Touches

/-- Whether a thread stands at a slot that no WAITV of it can wake. -/
def State.Awake (s : State) (q : Nat) (t : Thread) : Prop := s.thread? q = some t ∧ t.status ≠ .waiting

/-- The waking of threads: one that does not wait, a bundle of such threads, and (but for marks) runs are as before. -/
structure State.Wakes (s t : State) : Prop where
  thread : ∀ q x, s.Awake q x → t.thread? q = some x
  bundle : ∀ p b, s.bundle? p = some b → (∀ l ∈ b.lanes, ∃ x, s.Awake l.r x) → t.bundle? p = some b
  runs : ∀ k x, s.run? k = some x → ∃ y, t.run? k = some y ∧ x.Noted y

namespace State.Wakes

theorem awake {s t : State} (h : s.Wakes t) {q : Nat} {x : Thread} (hx : s.Awake q x) : t.Awake q x := ⟨h.thread q x hx, hx.2⟩

theorem of_notes {s t : State} (h : s.Notes t) : s.Wakes t where
  thread q _ hx := (thread?_congr h.threads q).trans hx.1
  bundle p _ hb _ := (bundle?_congr h.bundles p).trans hb
  runs := h.runs

theorem of_same {s t : State} (ht : t.threads = s.threads) (hb : t.bundles = s.bundles) (hr : t.runs = s.runs) : s.Wakes t where
  thread q _ hx := (thread?_congr ht q).trans hx.1
  bundle p b h _ := (bundle?_congr hb p).trans h
  runs k x h := ⟨x, by rw [State.run?, hr]; exact h, .refl x⟩

theorem refl (s : State) : s.Wakes s := of_same rfl rfl rfl

theorem trans {s t u : State} (a : s.Wakes t) (b : t.Wakes u) : s.Wakes u where
  thread q x hx := b.thread q x (a.awake hx)
  bundle p x h hx := b.bundle p x (a.bundle p x h hx) fun l hl => (hx l hl).imp fun _ ha => a.awake ha
  runs k x h := by
    obtain ⟨y, hy, hxy⟩ := a.runs k x h
    obtain ⟨z, hz, hyz⟩ := b.runs k y hy
    exact ⟨z, hz, hxy.trans hyz⟩

theorem foldl {α : Type} {f : State → α → State} (hf : ∀ (s : State) a, s.Wakes (f s a)) (l : List α) (s : State) : s.Wakes (l.foldl f s) := by
  induction l generalizing s with
  | nil => exact refl s
  | cons a l ih => exact (hf s a).trans (ih _)

/-- What a thread that waits does is no act of one that does not. -/
theorem of_touches {r : Nat} {s t : State} (h : State.Touches r s t) (hr : ∀ x, ¬s.Awake r x) : s.Wakes t where
  thread q x hx := (h.thread q fun e => hr x (e ▸ hx)).trans hx.1
  bundle p _ hb hl := h.bundle p _ hb fun l hm e => (hl l hm).elim fun x hx => hr x (e ▸ hx)
  runs := h.runs

theorem waitvTry (s : State) (r : Nat) : s.Wakes (s.waitvTry r) := by
  cases ht : s.thread? r with
  | none => exact of_touches (.waitvTry s) fun x hx => by simp [hx.1] at ht
  | some t =>
    by_cases hw : t.status = .waiting
    · exact of_touches (.waitvTry s) fun x hx => hx.2 (by rwa [← Option.some.inj (ht.symm.trans hx.1)])
    · have hn : s.waitvTry r = s := by
        unfold State.waitvTry
        simp only [ht, ite_eq_left_iff]
        intro _ _
        split
        · exact absurd ‹_› hw
        · rfl
      rw [hn]
      exact refl s

theorem wakeLine (s : State) (line : Place) : s.Wakes (s.wakeLine line) := foldl (fun s (t : Thread) => waitvTry s t.r) ..

theorem wakeLines (s : State) (p : Place) (n : Nat) : s.Wakes (s.wakeLines p n) := foldl (fun s (i : Nat) => wakeLine s (p.line.add (64 * i))) ..

theorem wakeStores (s : State) (l : List Store) : s.Wakes (s.wakeStores l) := foldl (fun s (st : Store) => wakeLines s st.place st.bytes.length) ..

/-! Stores that drain and perform (R162, R163) -/

theorem putOut (s : State) (p : OutStore → Bool) : s.Wakes (s.putOut p) :=
  (of_same (s := s) (t := { s with out := (splitOut p [] s.out.reverse).2 }) rfl rfl rfl).trans
    (foldl (f := fun s (o : OutStore) => s.putStore o.st) (fun s o => of_notes (.putStore s o.st)) ..)

theorem flushOut (s : State) (p : OutStore → Bool) : s.Wakes (s.flushOut p) := (putOut ..).trans (wakeStores ..)

theorem fullLine (s : State) (l : List Store) (line : Place) : s.Wakes (s.fullLine l line) :=
  of_notes ((Notes.writeAt ..).trans (.heal ..))

theorem drainStore (s : State) (core blk : Nat) (lines : List Place) (st : Store) : s.Wakes (s.drainStore core blk lines st) := by
  have hf : s.Wakes (if st.rel then s.putOut fun o => o.core == core else s) := by
    split
    · exact putOut ..
    · exact refl s
  unfold State.drainStore
  dsimp only
  split
  · exact hf.trans (of_notes (.storeNotes ..))
  · split
    · exact hf.trans (of_notes (.putStore ..))
    · exact of_same rfl rfl rfl

theorem drainBlock (s : State) (b : Block) : s.Wakes (s.drainBlock b) := by
  unfold State.drainBlock
  extract_lets hit lines extra s1 awake s2 blk s3
  have h1 : s.Wakes s1 := by
    unfold s1
    split
    · exact refl s
    · exact of_same (by simp) (by simp) (by simp)
  have h2 : s1.Wakes s2 := foldl (fun s l => (putOut s _).trans (fullLine ..)) ..
  have h3 : s2.Wakes s3 := of_same rfl rfl rfl
  refine (((h1.trans h2).trans h3).trans (foldl (fun s st => ?_) ..)).trans (wakeStores ..)
  split
  · exact of_notes (.setCir ..)
  · exact drainStore ..

theorem drainThread (s : State) (r : Nat) : s.Wakes (s.drainThread r) := by
  unfold State.drainThread
  extract_lets c p mine q n
  have hb : s.Wakes { s with blocks := (s.blocks.filter fun b => !mine b) ++ q.drop n } := of_same rfl rfl rfl
  exact hb.trans (foldl drainBlock ..)

theorem flushThread (s : State) (r : Nat) : s.Wakes (s.flushThread r) := (drainThread ..).trans (flushOut ..)

end State.Wakes

end Sys2Proof.Machine
end


section
/-! SUPPORT. Translations that are asked for, and the words of a fetch (R16, R286). -/

namespace Sys2Proof.Machine

open Sys2Proof

/-! Translations that are asked for: dies, page requests and their refusals alone change -/

/-- A translation is asked for. -/
structure State.AsksXlat (s t : State) : Prop where
  same : t = { s with diesS := t.diesS, pri := t.pri, priBad := t.priBad }

namespace State.AsksXlat

theorem refl (s : State) : s.AsksXlat s := ⟨rfl⟩

section
variable {s t : State} (h : s.AsksXlat t)
include h

theorem mem : t.mem = s.mem := (congrArg State.mem h.same).trans rfl
theorem threads : t.threads = s.threads := (congrArg State.threads h.same).trans rfl
theorem bundles : t.bundles = s.bundles := (congrArg State.bundles h.same).trans rfl
theorem blocks : t.blocks = s.blocks := (congrArg State.blocks h.same).trans rfl
theorem runs : t.runs = s.runs := (congrArg State.runs h.same).trans rfl

end

theorem modDie (s : State) (d : Nat) (f : Die → Die) : s.AsksXlat (s.modDie d f) := by
  unfold State.modDie
  split <;> exact ⟨rfl⟩

theorem hostAsk (s : State) (vf a : Nat) (write : Bool) (agent : Nat) : s.AsksXlat (s.hostAsk vf a write agent).1 :=
  ⟨by rw [hostAsk_eq]⟩

theorem missed (s : State) (core ctx page who detail : Nat) : s.AsksXlat (s.missed core ctx page who detail).1 := by
  unfold State.missed
  dsimp only
  split
  · dsimp only
    exact modDie ..
  · unfold State.askWalk
    dsimp only
    split
    · split
      · exact refl s
      · exact modDie ..
    · exact modDie ..

theorem hostXlat (s : State) (ctx vf a : Nat) (write : Bool) (who : Asker) : s.AsksXlat (s.hostXlat ctx vf a write who).1 := by
  unfold State.hostXlat
  split
  · exact hostAsk ..
  · split
    · exact refl s
    · exact missed ..

theorem leafXlat (s : State) (ctx va leaf shift : Nat) (write : Bool) (who : Asker) : s.AsksXlat (s.leafXlat ctx va leaf shift write who).1 := by
  unfold State.leafXlat
  dsimp only
  split
  · split
    · exact hostXlat ..
    · exact refl s
  · exact refl s
  · split
    · exact refl s
    · split <;> exact refl s

theorem xlat (s : State) (core ctx va : Nat) (write : Bool) (who : Nat) : s.AsksXlat (s.xlat core ctx va write who).1 := by
  unfold State.xlat
  split
  · unfold State.xlatGlobal
    split
    · exact leafXlat ..
    · exact missed ..
  · split
    · exact hostXlat ..
    · exact refl s
  · exact refl s

end State.AsksXlat

/-! A fetch of a trace (R16) -/

/-- What every word that a fetch reads keeps is kept by the fetch. -/
theorem fetchTrace_keeps {P : State → Prop} {core ctx who : Nat} {runs : List Nat} (h : ∀ s va, P s → P (s.codeWord core ctx runs who va).1) {s : State}
    (hs : P s) (va : Nat) (inSet : Bool) : P (s.fetchTrace core ctx runs who va inSet).1 := by
  have hws : ∀ (n va : Nat) (s : State), P s → P (s.codeWords core ctx runs who va n).1 := by
    intro n
    induction n with
    | zero => exact fun _ _ hs => hs
    | succ n ih =>
      intro va s hs
      have h1 := h s va hs
      unfold State.codeWords
      split
      · rename_i h0
        rwa [h0] at h1
      · rename_i h0
        rw [h0] at h1
        have h2 := ih (va + 8) _ h1
        split
        · rename_i h3
          rwa [h3] at h2
        · rename_i h3
          rwa [h3] at h2
  unfold State.fetchTrace
  split
  · exact hs
  · have h1 := h s va hs
    split
    · rename_i h0
      rwa [h0] at h1
    · rename_i s1 w0 h0
      rw [h0] at h1
      have h2 : P (if opcodeOf w0 == 0xE3 then s1.codeWord core ctx runs who (if opcodeOf w0 == 0xE3 then va + 8 else va) else (s1, .ok w0)).1 := by
        split
        · exact h _ _ h1
        · exact h1
      dsimp only
      split
      · rename_i h3
        rwa [h3] at h2
      · rename_i h3
        rw [h3] at h2
        split
        · exact h2
        · split
          · exact h2
          · split
            · rename_i h5
              exact (congrArg (P ·.1) h5).mp (hws _ _ _ h2)
            · rename_i h5
              have h4 := (congrArg (P ·.1) h5).mp (hws _ _ _ h2)
              split
              · exact h4
              · split_ifs <;> exact h4

/-- A word of code is read as it is settled, with a request to a peer and marks of runs. -/
theorem codeWord_keeps {P : State → Prop} {core ctx who : Nat} {runs : List Nat} (hx : ∀ s t : State, s.AsksXlat t → P s → P t)
    (hn : ∀ (s : State) p, P s → P (s.askPeer [] p)) (hm : ∀ (s : State) x b, P s → P (s.notePoison x b)) (hd : ∀ s p, P s → P (s.codeSettle who p))
    {s : State} (hs : P s) (va : Nat) : P (s.codeWord core ctx runs who va).1 := by
  have hf : ∀ (l : List Nat) (b : Bool) (s : State), P s → P (l.foldl (fun (s : State) x => s.notePoison x b) s) := by
    intro l b
    induction l with
    | nil => exact fun _ h => h
    | cons x l ih => exact fun s h => ih _ (hm s x b h)
  unfold State.codeWord
  dsimp only
  split
  · exact hs
  · have h1 := hx _ _ (State.AsksXlat.xlat s core ctx va false who) hs
    split
    · rename_i h0
      rw [h0] at h1
      exact hf _ _ _ (hn _ _ (hd _ _ h1))
    · rename_i h0
      rwa [h0] at h1
    · rename_i h0
      rwa [h0] at h1

end Sys2Proof.Machine
end


section
/-! SUPPORT. A fetch for a bundle of one lane (R16, R30, R163). -/

namespace Sys2Proof.Machine

open Sys2Proof

/-! A fetch for a bundle of one lane (R16, R163) -/

theorem codeSettle_wakes (s : State) (who : Nat) (p : Place) : s.Wakes (s.codeSettle who p) := by
  unfold State.codeSettle
  split
  · exact .refl s
  · refine .foldl (fun s t => ?_) _ s
    split
    · exact .drainThread ..
    · exact .refl s

/-- A bundle at a port with one lane, whose thread is there. -/
structure State.HasLane (s : State) (p : PortId) (b : Bundle) (l : Lane) (t : Thread) : Prop where
  bundle : s.bundle? p = some b
  lanes : b.lanes = [l]
  thread : s.thread? l.r = some t

namespace State.HasLane

variable {s : State} {p : PortId} {b : Bundle} {l : Lane} {t : Thread}

theorem congr {u : State} (h : s.HasLane p b l t) (ht : u.threads = s.threads) (hb : u.bundles = s.bundles) : u.HasLane p b l t :=
  ⟨(bundle?_congr hb p).trans h.bundle, h.lanes, (thread?_congr ht l.r).trans h.thread⟩

theorem r_eq (h : s.HasLane p b l t) : t.r = l.r := thread?_r h.thread

/-- The stores that settle before a word of code is read are those of threads that issue, and wake none of these. -/
theorem codeSettle (h : s.HasLane p b l t) (x : Place) : (s.codeSettle l.r x).HasLane p b l t := by
  by_cases hi : t.status = .waiting
  · have hn : s.codeSettle l.r x = s := by
      unfold State.codeSettle
      simp [h.thread, Thread.port?, hi]
    rwa [hn]
  · have hw := codeSettle_wakes s l.r x
    have ha : s.Awake l.r t := ⟨h.thread, hi⟩
    exact ⟨hw.bundle p b h.bundle (by simpa [h.lanes] using ⟨t, ha⟩), h.lanes, hw.thread l.r t ha⟩

theorem fetchTrace (h : s.HasLane p b l t) (core ctx : Nat) (runs : List Nat) (va : Nat) (inSet : Bool) :
    (s.fetchTrace core ctx runs l.r va inSet).1.HasLane p b l t := by
  refine fetchTrace_keeps (P := fun u => u.HasLane p b l t) (fun u va hu => ?_) h va inSet
  exact codeWord_keeps (P := fun u => u.HasLane p b l t) (fun u w ha hu => hu.congr ha.threads ha.bundles)
    (fun u x hu => hu.congr (Stored.askPeer ..).threads (Stored.askPeer ..).bundles)
    (fun u x c hu => hu.congr (Notes.notePoison ..).threads (Notes.notePoison ..).bundles) (fun u x hu => hu.codeSettle x) hu va

/-- With no store of the thread queued, nothing settles. -/
theorem codeSettle_quiet (h : s.HasLane p b l t) (hs : t.status = .issuing p) (hq : ∀ k ∈ s.blocks, k.r ≠ l.r) (x : Place) : s.codeSettle l.r x = s := by
  have hk : s.queued t.r t.gen = [] := by
    rw [h.r_eq, State.queued, List.filter_eq_nil_iff.mpr fun k hm => by simpa using hq k hm]
    rfl
  unfold State.codeSettle
  simp [h.thread, Thread.port?, hs, h.bundle, h.lanes, hk, newestByte]

/-- Then the fetch leaves memory and the threads as they were. -/
theorem fetchTrace_quiet (h : s.HasLane p b l t) (hs : t.status = .issuing p) (hq : ∀ k ∈ s.blocks, k.r ≠ l.r) (core ctx : Nat) (runs : List Nat) (va : Nat)
    (inSet : Bool) : (s.fetchTrace core ctx runs l.r va inSet).1.mem = s.mem := by
  refine (fetchTrace_keeps (P := fun u => u.mem = s.mem ∧ u.HasLane p b l t ∧ u.blocks = s.blocks) (fun u va hu => ?_) ⟨rfl, h, rfl⟩ va inSet).1
  refine codeWord_keeps (P := fun u => u.mem = s.mem ∧ u.HasLane p b l t ∧ u.blocks = s.blocks) (fun u w ha hu => ⟨ha.mem.trans hu.1, hu.2.1.congr ha.threads ha.bundles, ha.blocks.trans hu.2.2⟩)
    (fun u x hu => ?_) (fun u x c hu => ?_) (fun u x hu => ?_) hu va
  · rw [askPeer_eq]
    exact ⟨hu.1, hu.2.1.congr rfl rfl, hu.2.2⟩
  · unfold State.notePoison
    split
    · exact ⟨hu.1, hu.2.1.congr rfl rfl, hu.2.2⟩
    · exact hu
  · rwa [hu.2.1.codeSettle_quiet hs (by rwa [hu.2.2])]

variable (h : s.HasLane p b l t) (ht : b.trace = none) (ha : l.active = true) {s' : State}
include h ht ha

theorem fetch_wait (hf : s.fetchTrace p.core t.ctx [t.run] t.r b.addr b.gather.isSome = (s', .wait)) : s.fetch p = s' := by
  unfold State.fetch
  simp [h.bundle, ht, h.lanes, ha, h.thread, hf]

theorem fetch_trap {c d a x : Nat} (hf : s.fetchTrace p.core t.ctx [t.run] t.r b.addr b.gather.isSome = (s', .trap c d a x)) :
    s.fetch p = (s'.fetchTrap p c d a x l.r).leaveBundle p := by
  unfold State.fetch
  simp [h.bundle, ht, h.lanes, ha, h.thread, hf]

theorem fetch_ok {tr : Trace} (hf : s.fetchTrace p.core t.ctx [t.run] t.r b.addr b.gather.isSome = (s', .ok tr)) (hw : s'.entryWait tr l.r = false) :
    s.fetch p = ((s'.modBundle p fun b => { b with trace := some tr }).enterLane p tr l.r).leaveBundle p := by
  unfold State.fetch
  simp [h.bundle, ht, h.lanes, ha, h.thread, hf, hw]

end State.HasLane

/-! A lane that enters a trace without a count register (R30) -/

theorem enterAll_of_passes {tr : Trace} {t : Thread} {n : Nat} (h : tr.enter t = .passes n) (hn : 0 < n) : tr.enterAll t = .passes n := by
  unfold Trace.enterAll
  simp only [h]
  exact if_neg hn.ne'

theorem noteRegs_nil (s : State) (r : Nat) : s.noteRegs r [] = s := by
  unfold State.noteRegs
  split <;> rfl

theorem enterLane_eq {s : State} {r n : Nat} {t : Thread} {tr : Trace} (p : PortId) (ht : s.thread? r = some t) (he : tr.enterAll t = .passes n)
    (hc : tr.countReg = none) (hp : t.pos < n) : s.enterLane p tr r = (s.modThread r fun t => { t with cnt := if tr.lword.isSome then some n else none }).modLane p r
      fun l => { l with passes := n, pass := t.pos } := by
  unfold State.enterLane
  simp only [ht, he, hc, Option.toList_none, List.nil_append, if_neg (Nat.not_le.mpr hp), noteRegs_nil]

namespace State.HasLane

variable {s s' : State} {p : PortId} {b : Bundle} {l : Lane} {t : Thread} {tr : Trace} (h : s.HasLane p b l t) (ht : b.trace = none) (ha : l.active = true)
  (hf : s.fetchTrace p.core t.ctx [t.run] t.r b.addr b.gather.isSome = (s', .ok tr))
include h ht ha hf

/-- A fetched trace stands at its port with as many passes as its lane finds. -/
theorem traceFetch_passes {n : Nat} (hp : t.pos = 0) (he : tr.enter t = .passes n) (hn : 0 < n) (hc : tr.countReg = none) :
    ∃ u, exec (.traceFetch p) s = .next u ∧ u.mem = s'.mem ∧ u.thread? l.r = some { t with cnt := if tr.lword.isSome then some n else none } ∧
      u.bundle? p = some { b with trace := some tr, lanes := [{ l with passes := n, pass := 0 }] } := by
  have h' : s'.HasLane p b l t := by
    have := h.fetchTrace p.core t.ctx [t.run] b.addr b.gather.isSome
    rwa [← h.r_eq, hf] at this
  have hall := enterAll_of_passes he hn
  have hw : s'.entryWait tr l.r = false := by
    unfold State.entryWait
    simp [h'.thread, hall]
  have hm : (s'.modBundle p fun b => { b with trace := some tr }).thread? l.r = some t := h'.thread
  have hb0 : ((s'.modBundle p fun b => { b with trace := some tr }).modThread l.r fun t =>
      { t with cnt := if tr.lword.isSome then some n else none }).bundle? p = some { b with trace := some tr } :=
    bundle?_modBundle_same h'.bundle fun b => { b with trace := some tr }
  have hb := bundle?_modLane hb0 l.r fun l => { l with passes := n, pass := t.pos }
  have hu := enterLane_eq p hm hall hc (by omega)
  refine ⟨_, congrArg Host.Outcome.next (h.fetch_ok ht ha hf hw), ?_⟩
  rw [hu, leaveBundle_of_active hb (by simp [Bundle.modLane, h.lanes, ha])]
  refine ⟨rfl, thread?_modThread_same hm _, hb.trans ?_⟩
  simp [Bundle.modLane, h.lanes, hp]

end State.HasLane

/-! Passes of a trace: one without L, the immediate count of an L word without a register (R30) -/

theorem enter_of_no_loop {tr : Trace} (h : tr.lword = none) (t : Thread) : tr.enter t = .passes 1 ∧ tr.countReg = none := by
  simp [Trace.enter, Trace.countReg, h]

theorem enter_of_imm {tr : Trace} {w : DWord} (h : tr.lword = some w) (hr : lReg w.toNat = 0) {t : Thread} (hc : t.cnt = none) :
    tr.enter t = .passes (lImm w.toNat) ∧ tr.countReg = none := by
  have hn : tr.countReg = none := by simp [Trace.countReg, h, hr]
  simp [Trace.enter, hn, h, hc]

/-- R16, R30: TRACE_FETCH for a bundle of one lane. -/
theorem fetchesTraces {s s' : State} {p : PortId} {b : Bundle} {l : Lane} {t : Thread} (hs : s.HasLane p b l t) (ht : b.trace = none) (ha : l.active = true) :
    (∀ x, t.status = .issuing p → s.fetchTrace p.core t.ctx [t.run] t.r b.addr b.gather.isSome = (s', x) → (∀ k ∈ s.blocks, k.r ≠ l.r) →
      s'.mem = s.mem ∧ s'.thread? l.r = some t) ∧
    (∀ tr, s.fetchTrace p.core t.ctx [t.run] t.r b.addr b.gather.isSome = (s', .ok tr) → s'.thread? l.r = some t → t.pos = 0 → t.cnt = none →
      (tr.lword = none → ∃ u, exec (.traceFetch p) s = .next u ∧ u.mem = s'.mem ∧ u.thread? l.r = some t ∧
        u.bundle? p = some { b with trace := some tr, lanes := [{ l with passes := 1, pass := 0 }] }) ∧
      (∀ w n, tr.lword = some w → w.toNat / 2 ^ 46 % 2 ^ 10 = 0 → w.toNat / 2 ^ 36 % 2 ^ 10 = n → 0 < n →
        ∃ u, exec (.traceFetch p) s = .next u ∧ u.mem = s'.mem ∧ u.thread? l.r = some { t with cnt := some n } ∧
          u.bundle? p = some { b with trace := some tr, lanes := [{ l with passes := n, pass := 0 }] })) ∧
    (s.fetchTrace p.core t.ctx [t.run] t.r b.addr b.gather.isSome = (s', .wait) → exec (.traceFetch p) s = .next s') ∧
    (∀ c d a x, s.fetchTrace p.core t.ctx [t.run] t.r b.addr b.gather.isSome = (s', .trap c d a x) →
      exec (.traceFetch p) s = .next ((s'.trapLane p l.r .fetch (fetchInfo c d a x t.pos) none).leaveBundle p)) := by
  have hl := hs.fetchTrace p.core t.ctx [t.run] b.addr b.gather.isSome
  rw [← hs.r_eq] at hl
  refine ⟨fun x hi hf hq => ?_, fun tr hf _ hp hc => ⟨fun hw => ?_, fun w n hw hr hn h0 => ?_⟩, fun hf => congrArg _ (hs.fetch_wait ht ha hf),
    fun c d a x hf => ?_⟩
  · have hm := hs.fetchTrace_quiet hi hq p.core t.ctx [t.run] b.addr b.gather.isSome
    rw [← hs.r_eq, hf] at hm
    rw [hf] at hl
    exact ⟨hm, hs.r_eq ▸ hl.thread⟩
  · obtain ⟨he, hg⟩ := enter_of_no_loop hw t
    have := hs.traceFetch_passes ht ha hf hp he Nat.one_pos hg
    simpa only [hw, Option.isSome_none, Bool.false_eq_true, if_false, ← hc] using this
  · obtain ⟨he, hg⟩ := enter_of_imm hw hr hc
    have := hs.traceFetch_passes ht ha hf hp (he.trans (congrArg _ hn)) h0 hg
    simpa only [hw, Option.isSome_some, if_true] using this
  · rw [hf] at hl
    refine congrArg Host.Outcome.next ((hs.fetch_trap ht ha hf).trans ?_)
    unfold State.fetchTrap
    rw [hl.thread]
    rfl

end Sys2Proof.Machine
end


section
/-! SUPPORT. Bundles, promotion and fetch (R32, R153, R155). -/

namespace Sys2Proof.Machine

open Sys2Proof

/-! Lists sorted by a number -/

theorem insertBy_perm {α : Type} (key : α → Nat) (x : α) (l : List α) : (insertBy key x l).Perm (x :: l) := by
  induction l with
  | nil => exact .refl _
  | cons y l ih =>
    unfold insertBy
    split
    · exact .refl _
    · exact (ih.cons y).trans (.swap x y l)

theorem sortBy_perm {α : Type} (key : α → Nat) (l : List α) : (sortBy key l).Perm l := by
  induction l with
  | nil => exact .refl _
  | cons x l ih => exact (insertBy_perm key x _).trans (ih.cons x)

theorem sortOn_perm {α : Type} (key : α → Nat) (l : List α) : (sortOn key l).Perm l := (sortBy_perm key _).trans l.reverse_perm

theorem insertBy_sorted {α : Type} (key : α → Nat) (x : α) {l : List α} (h : l.Pairwise (key · ≤ key ·)) :
    (insertBy key x l).Pairwise (key · ≤ key ·) := by
  induction l with
  | nil => exact List.pairwise_singleton ..
  | cons y l ih =>
    have hy := List.pairwise_cons.mp h
    unfold insertBy
    split
    · rename_i hlt
      refine List.pairwise_cons.mpr ⟨fun z hz => ?_, h⟩
      rcases List.mem_cons.mp hz with rfl | hz
      · exact hlt.le
      · exact hlt.le.trans (hy.1 z hz)
    · rename_i hge
      refine List.pairwise_cons.mpr ⟨fun z hz => ?_, ih hy.2⟩
      rcases List.mem_cons.mp ((insertBy_perm key x l).mem_iff.mp hz) with rfl | hz
      · exact Nat.not_lt.mp hge
      · exact hy.1 z hz

theorem sortOn_sorted {α : Type} (key : α → Nat) (l : List α) : (sortOn key l).Pairwise (key · ≤ key ·) := by
  unfold sortOn
  induction l.reverse with
  | nil => exact .nil
  | cons x l ih => exact insertBy_sorted key x ih

theorem tableOrder_perm (l : List PcEntry) : (tableOrder l).Perm l := by
  unfold tableOrder
  refine ((sortOn_perm ..).append ((sortOn_perm ..).trans (sortOn_perm ..))).trans ?_
  have hn : (fun e : PcEntry => e.promoted.isNone) = fun e => !e.promoted.isSome := funext fun e => by simp
  rw [hn]
  exact List.filter_append_perm ..

/-- Of entries that are not promoted, one at the lowest address comes first (R153). -/
theorem tableOrder_of_unpromoted {l : List PcEntry} (h : ∀ e ∈ l, e.promoted = none) (hl : l ≠ []) :
    ∃ e rest, tableOrder l = e :: rest ∧ (∀ x, x ∈ e :: rest ↔ x ∈ l) ∧ ∀ x ∈ l, e.addr ≤ x.addr := by
  have hup : l.filter (·.promoted.isSome) = [] := List.filter_eq_nil_iff.mpr fun e he => by simp [h e he]
  have hrest : l.filter (·.promoted.isNone) = l := List.filter_eq_self.mpr fun e he => by simp [h e he]
  have ho : tableOrder l = sortOn PcEntry.addr (sortOn PcEntry.seq l) := by
    unfold tableOrder
    rw [hup, hrest]
    rfl
  have hp := tableOrder_perm l
  have hs : (tableOrder l).Pairwise (·.addr ≤ ·.addr) := ho ▸ sortOn_sorted ..
  cases hc : tableOrder l with
  | nil => exact absurd (hc ▸ hp).symm.eq_nil hl
  | cons e rest =>
    rw [hc] at hp hs
    refine ⟨e, rest, rfl, fun x => hp.mem_iff, fun x hx => ?_⟩
    rcases List.mem_cons.mp (hp.mem_iff.mpr hx) with rfl | hx
    · exact le_rfl
    · exact (List.pairwise_cons.mp hs).1 x hx

/-! A bundle of threads at a port (R32) -/

/-- A thread that issues at a port. -/
def Thread.issue (p : PortId) (t : Thread) : Thread := { t with status := .issuing p }

theorem thread?_issue (p : PortId) (rs : List Nat) (s : State) (q : Nat) :
    (rs.foldl (fun (s : State) r => s.modThread r (Thread.issue p)) s).thread? q = (s.thread? q).map fun t => if q ∈ rs then t.issue p else t := by
  induction rs generalizing s with
  | nil => simp
  | cons r rs ih =>
    rw [List.foldl_cons, ih]
    by_cases hq : q = r
    · subst hq
      cases ht : s.thread? q with
      | none => rw [thread?_modThread s q q (Thread.issue p) fun _ => rfl, ht]; rfl
      | some t =>
        rw [thread?_modThread_same ht (Thread.issue p) fun _ => rfl]
        simp [Thread.issue]
    · simp [thread?_modThread_other s hq (Thread.issue p) fun _ => rfl, hq]

/-- The lanes of a bundle that is no lane set: its threads in the order of their slots. -/
def State.formLanes (s : State) (rs : List Nat) : List Lane :=
  ((sortOn (fun (x : Nat) => x) rs).zip (upFrom 0 (sortOn (fun (x : Nat) => x) rs).length)).filterMap fun x => (s.thread? x.1).map fun t => Lane.fresh t x.2

/-- What forms at a port: its threads issue there, and their entries have left the table. -/
theorem formBundle_forms (s : State) (p : PortId) (addr : Nat) (g : Option Nat) (rs : List Nat) :
    (∃ b, (s.formBundle p addr g rs).bundles = s.bundles ++ [b] ∧ b.p = p ∧ b.addr = addr ∧ b.gather = g ∧ b.trace = none ∧
      (g = none → b.lanes = s.formLanes rs)) ∧
    (∀ q, (s.formBundle p addr g rs).thread? q = (s.thread? q).map fun t => if q ∈ rs then t.issue p else t) ∧
    (s.formBundle p addr g rs).table = s.table.filter fun e => !(e.threads.any (sortOn (fun (x : Nat) => x) rs).contains) := by
  have ht := thread?_issue p (sortOn (fun (x : Nat) => x) rs) s
  have hb := foldl_keeps State.bundles (f := fun (s : State) r => s.modThread r (Thread.issue p)) (fun _ _ => rfl)
    (sortOn (fun (x : Nat) => x) rs) s
  have htab := foldl_keeps State.table (f := fun (s : State) r => s.modThread r (Thread.issue p)) (fun _ _ => rfl)
    (sortOn (fun (x : Nat) => x) rs) s
  have hmem : ∀ q, q ∈ sortOn (fun (x : Nat) => x) rs ↔ q ∈ rs := fun q => (sortOn_perm _ rs).mem_iff
  simp only [hmem] at ht
  unfold State.formBundle
  extract_lets rs' lanes u brake b w
  have hw : w.bundles = u.bundles ∧ w.threads = u.threads ∧ w.table = u.table := by
    unfold w
    split
    · exact ⟨by simp, by simp, by simp⟩
    · exact ⟨rfl, rfl, rfl⟩
  refine ⟨⟨b, congrArg (· ++ [b]) (hw.1.trans hb), rfl, rfl, rfl, rfl, fun hg => ?_⟩, fun q => (thread?_congr (s := u) hw.2.1 q).trans (ht q),
    congrArg (List.filter _) (hw.2.2.trans htab)⟩
  unfold b lanes
  subst hg
  rfl

theorem mem_formLanes {s : State} {rs : List Nat} {l : Lane} (h : l ∈ s.formLanes rs) :
    ∃ t no, s.thread? l.r = some t ∧ l = Lane.fresh t no ∧ l.r ∈ rs := by
  obtain ⟨x, hx, hl⟩ := List.mem_filterMap.mp h
  obtain ⟨t, ht, rfl⟩ := Option.map_eq_some_iff.mp hl
  have hr : (Lane.fresh t x.2).r = x.1 := thread?_r ht
  exact ⟨t, x.2, hr ▸ ht, rfl, hr ▸ (sortOn_perm _ rs).mem_iff.mp (List.of_mem_zip hx).1⟩

theorem length_formLanes_le (s : State) (rs : List Nat) : (s.formLanes rs).length ≤ rs.length :=
  (List.length_filterMap_le ..).trans (by rw [List.length_zip, (sortOn_perm _ rs).length_eq]; exact min_le_left ..)

theorem formLanes_ne_nil {s : State} {rs : List Nat} (h : rs ≠ []) (ht : ∀ r ∈ rs, ∃ t, s.thread? r = some t) : s.formLanes rs ≠ [] := by
  have hp := sortOn_perm (fun (x : Nat) => x) rs
  unfold State.formLanes
  cases hs : sortOn (fun (x : Nat) => x) rs with
  | nil => exact absurd (hs ▸ hp).symm.eq_nil h
  | cons r l =>
    obtain ⟨t, ht⟩ := ht r (hp.mem_iff.mp (hs ▸ List.mem_cons_self ..))
    simp [upFrom, ht]

/-! A port that takes a bundle from the table (R32, R153) -/

/-- Whether the threads of an entry may issue. -/
def State.freeEntry (s : State) (core : Nat) (e : PcEntry) : Bool :=
  e.threads.all fun r => ((s.thread? r).map fun t =>
    !s.heldBack t && !s.assembling t && !t.stepping && t.more.isEmpty && !s.stopping core t.ctx && !s.failing t.run).getD false

/-- The entries of a partition. -/
def State.entriesOf (s : State) (core part : Nat) : List PcEntry := s.table.filter fun e => e.core == core && e.part == part

/-- Whether an entry goes into one bundle with the one at the head of the table: its address, no lane set, and the context (log 26). -/
def State.joins (s : State) (e x : PcEntry) : Bool :=
  x.addr == e.addr && x.gather.isNone &&
    ((s.thread? (x.threads.headD 0)).map (·.ctx)).getD 0 == ((s.thread? (e.threads.headD 0)).map (·.ctx)).getD 0

theorem fillPort_cases (s : State) (p : PortId) : s.fillPort p = s ∨
    ∃ addr g rs, s.fillPort p = s.formBundle p addr g rs ∧ ∀ r ∈ rs, ∃ e ∈ s.table, r ∈ e.threads := by
  unfold State.fillPort
  split
  · exact .inl rfl
  · extract_lets ctxOf free q
    have hq : ∀ e ∈ q, e ∈ s.table := fun e he => (List.mem_filter.mp ((tableOrder_perm _).mem_iff.mp he)).1
    clear_value q
    cases q with
    | nil => exact .inl rfl
    | cons e rest =>
      refine .inr ⟨_, _, _, rfl, fun r hr => ?_⟩
      have hr := List.mem_of_mem_take hr
      split at hr
      · exact ⟨e, hq e (List.mem_cons_self ..), hr⟩
      · obtain ⟨x, hx, hr⟩ := List.mem_flatMap.mp hr
        exact ⟨x, hq x (List.cons_subset_cons e (List.takeWhile_subset _) hx), hr⟩

theorem fillPort_head {s : State} {p : PortId} (hb : ∀ b ∈ s.bundles, b.p ≠ p) (hne : s.entriesOf p.core p.part ≠ [])
    (he : ∀ e ∈ s.entriesOf p.core p.part, s.freeEntry p.core e = true ∧ e.promoted = none ∧ e.gather = none ∧ ∃ r, e.threads = [r]) :
    ∃ e ∈ s.entriesOf p.core p.part, ∃ rs, s.fillPort p = s.formBundle p e.addr none rs ∧ rs ≠ [] ∧ rs.length ≤ 64 ∧
      (∀ x ∈ s.entriesOf p.core p.part, e.addr ≤ x.addr) ∧ ∀ r ∈ rs, ∃ x ∈ s.entriesOf p.core p.part, x.threads = [r] ∧ x.addr = e.addr := by
  have hfree : (s.table.filter fun e => e.core == p.core && e.part == p.part && s.freeEntry p.core e) = s.entriesOf p.core p.part := by
    rw [State.entriesOf]
    refine List.filter_congr fun e hm => ?_
    cases hc : e.core == p.core && e.part == p.part with
    | false => rfl
    | true => rw [(he e (List.mem_filter.mpr ⟨hm, hc⟩)).1, Bool.and_true]
  obtain ⟨e, rest, ho, hmem, hmin⟩ := tableOrder_of_unpromoted (fun e h => (he e h).2.1) hne
  have hany : s.bundles.any (·.p == p) = false := by simpa using hb
  have hmine := (hmem e).mp (List.mem_cons_self ..)
  obtain ⟨-, -, hg, r, hr⟩ := he e hmine
  have hf : s.fillPort p = s.formBundle p e.addr none (((e :: rest.takeWhile (s.joins e)).flatMap (·.threads)).take 64) := by
    unfold State.fillPort
    rw [hany]
    extract_lets ctxOf free q
    have hq : q = e :: rest := (congrArg tableOrder hfree).trans ho
    rw [hq]
    simp only [hg]
    rfl
  refine ⟨e, hmine, _, hf, by simp [hr], List.length_take_le .., hmin, fun r hr => ?_⟩
  obtain ⟨x, hx, hr⟩ := List.mem_flatMap.mp (List.mem_of_mem_take hr)
  have hxm := (hmem x).mp (List.cons_subset_cons e (List.takeWhile_subset _) hx)
  obtain ⟨-, -, -, r', hr'⟩ := he x hxm
  have hxa : x.addr = e.addr := by
    rcases List.mem_cons.mp hx with rfl | hx
    · rfl
    · have hj : s.joins e x = true := List.mem_takeWhile_imp hx
      simp only [State.joins, Bool.and_eq_true, beq_iff_eq] at hj
      exact hj.1.1
  rw [hr', List.mem_singleton] at hr
  exact ⟨x, hxm, hr ▸ hr', hxa⟩

/-- Another port takes none of the threads that have left the table, and leaves a bundle at its port. -/
theorem fillPort_other {s : State} {p q : PortId} {b : Bundle} (hb : s.bundle? p = some b) :
    (s.fillPort q).bundle? p = some b ∧ ∀ r, (∀ e ∈ s.table, r ∉ e.threads) →
      (s.fillPort q).thread? r = s.thread? r ∧ ∀ e ∈ (s.fillPort q).table, r ∉ e.threads := by
  rcases fillPort_cases s q with h | ⟨addr, g, rs, h, hrs⟩
  · rw [h]
    exact ⟨hb, fun r hr => ⟨rfl, hr⟩⟩
  · rw [h]
    obtain ⟨⟨b', hbs, -⟩, ht, htab⟩ := formBundle_forms s q addr g rs
    refine ⟨?_, fun r hr => ⟨?_, fun e he => hr e ?_⟩⟩
    · rw [State.bundle?, hbs, List.find?_append]
      exact (congrArg (Option.or · _) (show s.bundles.find? (·.p == p) = some b from hb)).trans rfl
    · have hn : r ∉ rs := fun hm => (hrs r hm).elim fun e he => hr e he.1 he.2
      simp [ht, hn]
    · rw [htab] at he
      exact (List.mem_filter.mp he).1

/-- Steps before the ports are filled that find nothing to do leave the state. -/
theorem formation_eq {s : State} {core part : Nat} (hc : core < 256) (hp : part < 4) (hg : (s.core core).gated = false)
    (he : ∀ e ∈ s.entriesOf core part, ∀ r ∈ e.threads, ∃ t, s.thread? r = some t ∧ t.m0 = none ∧ t.ending = none ∧ t.more = []) :
    s.formation core part = [0, 1, 2, 3].foldl (fun (s : State) n => s.fillPort { core, part, port := n }) s := by
  unfold State.formation
  have hall : ¬(Config.numCores ≤ core ∨ 4 ≤ part ∨ (s.core core).gated = true) := by
    rintro (h | h | h)
    · exact absurd (show 256 ≤ core from h) (by omega)
    · omega
    · rw [hg] at h
      cases h
  rw [if_neg hall]
  extract_lets here s1 s2 s3
  have hhere : ∀ r ∈ here s, ∃ t, s.thread? r = some t ∧ t.m0 = none ∧ t.ending = none ∧ t.more = [] := by
    intro r hr
    obtain ⟨e, hm, hr⟩ := List.mem_flatMap.mp (List.mem_filter.mp hr).1
    obtain ⟨hm, hk⟩ := List.mem_filter.mp hm
    exact he e (List.mem_filter.mpr ⟨hm, (Bool.and_eq_true_iff.mp hk).1⟩) r hr
  have h1 : s1 = s := foldl_fixed_of_mem fun r hr => by
    obtain ⟨t, ht, -, -, hm⟩ := hhere r hr
    simp [State.applyWaits, ht, hm]
  have h2 : s2 = s := by
    unfold s2
    rw [h1]
    exact foldl_fixed_of_mem fun r hr => by
      obtain ⟨t, ht, -, hn, -⟩ := hhere r hr
      simp [State.applyEnding, ht, hn]
  have h3 : s3 = s := by
    unfold s3
    rw [h2]
    exact foldl_fixed_of_mem fun r hr => by
      obtain ⟨t, ht, hm0, -, -⟩ := hhere r hr
      simp [State.reachGather, ht, hm0]
  rw [h3]

/-- R32, R153: bundle formation in a partition whose threads may all issue. -/
theorem formsBundles {s : State} {core part ctx : Nat} (hcore : core < 256) (hpart : part < 4) (hg : (s.core core).gated = false)
    (hstop : s.stopping core ctx = false) (hne : s.entriesOf core part ≠ []) (hb : ∀ b ∈ s.bundles, ¬(b.p.core = core ∧ b.p.part = part))
    (hm : ∀ e ∈ s.entriesOf core part, e.gather = none ∧ e.promoted = none ∧ ∃ r t, e.threads = [r] ∧ s.thread? r = some t ∧ t.ctx = ctx ∧ t.m0 = none ∧
      t.ending = none ∧ t.more = [] ∧ t.stepping = false ∧ s.heldBack t = false ∧ s.assembling t = false ∧ s.failing t.run = false) :
    ∃ u b, exec (.bundleFormation core part) s = .next u ∧ u.bundle? { core, part, port := 0 } = some b ∧ b.trace = none ∧ b.gather = none ∧ b.lanes ≠ [] ∧
      b.lanes.length ≤ 64 ∧ (∀ e ∈ s.entriesOf core part, b.addr ≤ e.addr) ∧
      ∀ l ∈ b.lanes, l.active = true ∧ l.at_ = 1 ∧ (∃ e ∈ s.entriesOf core part, e.threads = [l.r] ∧ e.addr = b.addr) ∧
        ∃ t, s.thread? l.r = some t ∧ u.thread? l.r = some { t with status := .issuing { core, part, port := 0 } } := by
  have hform : s.formation core part = _ := formation_eq hcore hpart hg fun e he r hr => by
    obtain ⟨-, -, r', t, hr', ht, -, hm0, hend, hmore, -⟩ := hm e he
    rw [hr', List.mem_singleton] at hr
    exact ⟨t, hr ▸ ht, hm0, hend, hmore⟩
  obtain ⟨e, -, rs, hfill, hrs, hlen, hmin, hfrom⟩ := fillPort_head (p := { core, part, port := 0 }) (fun b h he => hb b h (by simp [he])) hne
    fun e he => by
      obtain ⟨hga, hpr, r, t, hr, ht, hctx, -, -, hmore, hstep, hheld, hasm, hfail⟩ := hm e he
      refine ⟨?_, hpr, hga, r, hr⟩
      simp [State.freeEntry, hr, ht, hctx, hmore, hstep, hheld, hasm, hfail, hstop]
  obtain ⟨⟨b, hbs, hbp, hba, hbg, hbt, hbl⟩, hthr, htab⟩ := formBundle_forms s { core, part, port := 0 } e.addr none rs
  rw [← hfill] at hbs hthr htab
  have hb0 : (s.fillPort { core, part, port := 0 }).bundle? { core, part, port := 0 } = some b := by
    have hn : s.bundles.find? (·.p == { core, part, port := 0 }) = none :=
      List.find?_eq_none.mpr fun b h he => hb b h (by simp [eq_of_beq he])
    rw [State.bundle?, hbs, List.find?_append, hn]
    simp [hbp]
  have hout : ∀ r ∈ rs, ∀ e ∈ (s.fillPort { core, part, port := 0 }).table, r ∉ e.threads := by
    intro r hr x hx hrx
    rw [htab] at hx
    have := (List.mem_filter.mp hx).2
    simp only [Bool.not_eq_true', List.any_eq_false, List.contains_iff_mem, (sortOn_perm _ rs).mem_iff] at this
    exact this r hrx hr
  have hrest : ∀ (l : List Nat) (u : State), u.bundle? { core, part, port := 0 } = some b → (∀ r ∈ rs, ∀ e ∈ u.table, r ∉ e.threads) →
      (l.foldl (fun (s : State) n => s.fillPort { core, part, port := n }) u).bundle? { core, part, port := 0 } = some b ∧
      ∀ r ∈ rs, (l.foldl (fun (s : State) n => s.fillPort { core, part, port := n }) u).thread? r = u.thread? r := by
    intro l
    induction l with
    | nil => exact fun u hu _ => ⟨hu, fun _ _ => rfl⟩
    | cons n l ih =>
      intro u hu ht
      obtain ⟨h1, h2⟩ := fillPort_other (q := { core, part, port := n }) hu
      obtain ⟨h3, h4⟩ := ih _ h1 fun r hr => (h2 r (ht r hr)).2
      exact ⟨h3, fun r hr => (h4 r hr).trans (h2 r (ht r hr)).1⟩
  obtain ⟨hb3, ht3⟩ := hrest [1, 2, 3] _ hb0 hout
  have hlane := hbl rfl
  refine ⟨_, b, congrArg Host.Outcome.next hform, hb3, hbt, hbg, ?_, ?_, fun x hx => hba ▸ hmin x hx, fun l hl => ?_⟩
  · rw [hlane]
    refine formLanes_ne_nil hrs fun r hr => ?_
    obtain ⟨x, hx, hxr, -⟩ := hfrom r hr
    obtain ⟨-, -, r', t, hr', ht, -⟩ := hm x hx
    rw [hxr] at hr'
    exact ⟨t, (List.singleton_inj.mp hr') ▸ ht⟩
  · rw [hlane]
    exact (length_formLanes_le s rs).trans hlen
  · obtain ⟨t, no, ht, hfresh, hr⟩ := mem_formLanes (hlane ▸ hl)
    obtain ⟨x, hx, hxr, hxa⟩ := hfrom l.r hr
    refine ⟨by rw [hfresh]; rfl, by rw [hfresh]; rfl, ⟨x, hx, hxr, hxa.trans hba.symm⟩, t, ht, ?_⟩
    refine (ht3 l.r hr).trans ((hthr l.r).trans ?_)
    rw [ht, Option.map_some, if_pos hr]
    rfl

theorem core_modPart (s : State) (c p : Nat) (f : PartCounters → PartCounters) :
    (s.modPart c p f).core c = { s.core c with parts := modAt f p (s.core c).parts } :=
  (core_modCore s c c (fun x => { x with parts := modAt f p x.parts }) fun _ => rfl).trans (if_pos rfl)

/-- R155: an entry that has waited 4,096 cycles is promoted. -/
theorem promotes {s : State} {slot : Nat} {e : PcEntry} (he : e ∈ s.table) (hs : slot ∈ e.threads)
    (hu : ∀ x ∈ s.table, slot ∈ x.threads ∨ x.seq = e.seq → x = e) (hp : e.promoted = none) (hc : e.since + 4096 ≤ s.clk.toNat) :
    ∃ u, exec (.promotion slot) s = .next u ∧ u.table = (s.table.map fun x => if x = e then { x with promoted := some s.seq } else x) ∧
      (u.core e.core).parts[e.part]? = (s.core e.core).parts[e.part]?.map (fun c => { c with promote := (c.promote + 1) % 2 ^ 48 }) ∧
      u.threads = s.threads ∧ u.mem = s.mem := by
  have hf : (s.table.find? fun e => e.threads.contains slot && e.promoted.isNone && decide (e.since + 4096 ≤ s.clk.toNat)) = some e := by
    cases hx : s.table.find? fun e => e.threads.contains slot && e.promoted.isNone && decide (e.since + 4096 ≤ s.clk.toNat) with
    | none => exact absurd (List.find?_eq_none.mp hx e he) (by simp [hs, hp, hc])
    | some x =>
      have := List.find?_some hx
      simp only [Bool.and_eq_true, List.contains_iff_mem] at this
      rw [hu x (List.mem_of_find?_eq_some hx) (.inl this.1.1)]
  have hpr : s.promote slot = State.modPart { s with seq := s.seq + 1, table := s.table.map fun x => if x.seq = e.seq then { x with promoted := some s.seq } else x }
      e.core e.part fun c => { c with promote := count48 c.promote 1 } := by
    unfold State.promote
    rw [hf]
  refine ⟨_, congrArg Host.Outcome.next hpr, ?_, ?_, by simp, by simp⟩
  · rw [modPart_table]
    refine List.map_congr_left fun x hx => ?_
    have hiff : x.seq = e.seq ↔ x = e := ⟨fun h => hu x hx (.inr h), fun h => h ▸ rfl⟩
    simp only [hiff]
  · rw [core_modPart, getElem?_modAt, if_pos rfl]
    rfl

/-- Settles O43: clause by clause; the later ports of the partition take none of the threads that the first has taken, and the stores that settle before
a fetch wake only threads that wait. -/
theorem tracesReachPorts : Obligations.TracesReachPorts := by
  unfold Obligations.TracesReachPorts
  refine ⟨fun s core part ctx hcore hpart hg hstop hne hb hm => formsBundles hcore hpart hg hstop hne hb hm,
    fun s slot e he hs hu hp hc => promotes he hs hu hp hc, fun s s' p b l t hb ht hl ha hth _ => fetchesTraces ⟨hb, hl, hth⟩ ht ha⟩

end Sys2Proof.Machine
end


section
/-! SUPPORT. What acts on threads that wait, leave or end adds no lane and no member (R29, R186). -/

namespace Sys2Proof.Machine

open Sys2Proof

/-! What the acts on threads that wait, leave or end do not add: active lanes, members of groups, threads. A run only gains marks. -/

/-- An active lane of a slot stands at a port, at a stage of its commit. -/
def State.LaneOn (s : State) (p : PortId) (r n : Nat) : Prop := ∃ b ∈ s.bundles, b.p = p ∧ ∃ l ∈ b.lanes, l.active = true ∧ l.r = r ∧ l.stage = n

/-- No act adds an active lane, a member of a group or a thread, or does more to a run than mark it. -/
structure State.Drifts (s t : State) : Prop where
  lanes : ∀ p r n, t.LaneOn p r n → s.LaneOn p r n
  members : ∀ g ∈ t.groups, ∃ h ∈ s.groups, h.gid = g.gid ∧ g.members ⊆ h.members
  slots : ∀ x ∈ t.threads, ∃ y ∈ s.threads, y.r = x.r
  runs : ∀ k x, s.run? k = some x → ∃ y, t.run? k = some y ∧ x.Noted y
  runList : ∀ y ∈ t.runs, ∃ x ∈ s.runs, x.Noted y

namespace State.Drifts

theorem of_same {s t : State} (hb : t.bundles = s.bundles) (hg : t.groups = s.groups) (ht : t.threads = s.threads) (hr : t.runs = s.runs) : s.Drifts t where
  lanes p r n h := by rwa [State.LaneOn, hb] at h
  members g h := ⟨g, hg ▸ h, rfl, fun _ h => h⟩
  slots x h := ⟨x, ht ▸ h, rfl⟩
  runs k x h := ⟨x, by rw [State.run?, hr]; exact h, .refl x⟩
  runList y h := ⟨y, hr ▸ h, .refl y⟩

theorem refl (s : State) : s.Drifts s := of_same rfl rfl rfl rfl

theorem trans {s t u : State} (a : s.Drifts t) (b : t.Drifts u) : s.Drifts u where
  lanes p r n h := a.lanes p r n (b.lanes p r n h)
  members g h := by
    obtain ⟨g1, h1, e1, m1⟩ := b.members g h
    obtain ⟨g2, h2, e2, m2⟩ := a.members g1 h1
    exact ⟨g2, h2, e2.trans e1, fun _ hm => m2 (m1 hm)⟩
  slots x h := by
    obtain ⟨y, hy, e1⟩ := b.slots x h
    obtain ⟨z, hz, e2⟩ := a.slots y hy
    exact ⟨z, hz, e2.trans e1⟩
  runs k x h := by
    obtain ⟨y, hy, hxy⟩ := a.runs k x h
    obtain ⟨z, hz, hyz⟩ := b.runs k y hy
    exact ⟨z, hz, hxy.trans hyz⟩
  runList z hz := by
    obtain ⟨y, hy, hyz⟩ := b.runList z hz
    obtain ⟨x, hx, hxy⟩ := a.runList y hy
    exact ⟨x, hx, hxy.trans hyz⟩

theorem foldl {α : Type} {f : State → α → State} (hf : ∀ (s : State) a, s.Drifts (f s a)) (l : List α) (s : State) : s.Drifts (l.foldl f s) := by
  induction l generalizing s with
  | nil => exact refl s
  | cons a l ih => exact (hf s a).trans (ih _)

theorem of_notes {s t : State} (h : s.Notes t) : s.Drifts t where
  lanes p r n hl := by rwa [State.LaneOn, h.bundles] at hl
  members g hg := by
    have hm : (g.gid, g.members) ∈ s.memberList := h.members ▸ List.mem_map_of_mem hg
    obtain ⟨g0, h0, e⟩ := List.mem_map.mp hm
    obtain ⟨e1, e2⟩ := Prod.mk.inj e
    exact ⟨g0, h0, e1, e2 ▸ fun _ hq => hq⟩
  slots x hx := ⟨x, h.threads ▸ hx, rfl⟩
  runs := h.runs
  runList := h.runList

/-! The parts of the state -/

theorem modThread (s : State) (r : Nat) (f : Thread → Thread) (hf : ∀ t, (f t).r = t.r := by exact fun _ => rfl) : s.Drifts (s.modThread r f) where
  lanes _ _ _ h := h
  members g h := ⟨g, h, rfl, fun _ h => h⟩
  slots x h := by
    obtain ⟨y, hy, rfl⟩ := List.mem_map.mp h
    exact ⟨y, hy, by split <;> simp [hf]⟩
  runs _ x h := ⟨x, h, .refl x⟩
  runList y h := ⟨y, h, .refl y⟩

theorem modBundle (s : State) (p : PortId) (f : Bundle → Bundle) (hp : ∀ b, (f b).p = b.p)
    (hf : ∀ b, ∀ l ∈ (f b).lanes, l.active = true → ∃ k ∈ b.lanes, k.active = true ∧ k.r = l.r ∧ k.stage = l.stage) : s.Drifts (s.modBundle p f) where
  lanes q r n h := by
    obtain ⟨b', hb, hbp, l, hl, ha, hr, hs⟩ := h
    obtain ⟨b, hm, rfl⟩ := List.mem_map.mp hb
    split at hbp
    · rename_i h
      rw [if_pos h] at hl
      obtain ⟨k, hk, hka, hkr, hks⟩ := hf b l hl ha
      exact ⟨b, hm, (hp b).symm.trans hbp, k, hk, hka, hkr.trans hr, hks.trans hs⟩
    · rename_i h
      rw [if_neg h] at hl
      exact ⟨b, hm, hbp, l, hl, ha, hr, hs⟩
  members g h := ⟨g, h, rfl, fun _ h => h⟩
  slots x h := ⟨x, h, rfl⟩
  runs _ x h := ⟨x, h, .refl x⟩
  runList y h := ⟨y, h, .refl y⟩

theorem modLane (s : State) (p : PortId) (r : Nat) (f : Lane → Lane) (hf : ∀ l, (f l).active = true → l.active = true ∧ l.r = (f l).r ∧ l.stage = (f l).stage) :
    s.Drifts (s.modLane p r f) :=
  modBundle s p _ (fun _ => rfl) fun b l hl ha => by
    obtain ⟨k, hk, rfl⟩ := List.mem_map.mp hl
    split at ha
    · rename_i h
      exact ⟨k, hk, by rw [if_pos h]; exact hf k ha⟩
    · rename_i h
      exact ⟨k, hk, by rw [if_neg h]; exact ⟨ha, rfl, rfl⟩⟩

theorem modGroup (s : State) (k : Nat) (f : Group → Group) (hf : ∀ g, (f g).gid = g.gid ∧ (f g).members ⊆ g.members := by exact fun _ => ⟨rfl, fun _ h => h⟩) :
    s.Drifts (s.modGroup k f) where
  lanes _ _ _ h := h
  members g h := by
    obtain ⟨g0, h0, rfl⟩ := List.mem_map.mp h
    refine ⟨g0, h0, ?_⟩
    split
    · exact ⟨(hf g0).1.symm, (hf g0).2⟩
    · exact ⟨rfl, fun _ h => h⟩
  slots x h := ⟨x, h, rfl⟩
  runs _ x h := ⟨x, h, .refl x⟩
  runList y h := ⟨y, h, .refl y⟩

theorem modRun (s : State) (k : Nat) (f : Run → Run) (hf : ∀ x, Run.Noted x (f x)) : s.Drifts (s.modRun k f) := of_notes (.modRun s k f hf)

theorem modCore (s : State) (c : Nat) (f : Core → Core) : s.Drifts (s.modCore c f) := of_same (by simp) (by simp) (by simp) (by simp)

theorem modPart (s : State) (c p : Nat) (f : PartCounters → PartCounters) : s.Drifts (s.modPart c p f) := modCore ..

/-! Records and events -/

theorem putTrace (s : State) (c ctx x : Nat) : s.Drifts (s.putTrace c ctx x) := by
  unfold State.putTrace
  split
  · split
    · exact (of_notes (.writeCtx_getD ..)).trans (modCore ..)
    · exact refl s
  · exact refl s

theorem writeTrace (s : State) (c ctx x : Nat) : s.Drifts (s.writeTrace c ctx x) := by
  unfold State.writeTrace
  split
  · split
    · exact refl s
    · split
      · exact modCore ..
      · have h := (putTrace s c ctx x).trans (modCore _ c fun c => { c with trace := c.trace.map fun x => { x with since := x.since + 1 } })
        dsimp only
        split
        · exact h.trans (of_same rfl rfl rfl rfl)
        · exact h
  · exact refl s

theorem event (s : State) (ctx kind node arg0 arg1 : Nat) : s.Drifts (s.event ctx kind node arg0 arg1) := by
  unfold State.event
  split
  · exact refl s
  · dsimp only
    split
    · exact of_notes (.modCtx ..)
    · split
      · rename_i h
        exact (of_notes (.writeCtx h)).trans (of_same rfl rfl rfl rfl)
      · exact of_notes (.modCtx ..)

theorem keepRec (s : State) (r ctx x : Nat) : s.Drifts (s.keepRec r ctx x) := by
  unfold State.keepRec
  split
  · exact modLane s _ r _ fun l h => ⟨h, rfl, rfl⟩
  · exact writeTrace ..

theorem traceThread (s : State) (r kind : Nat) : s.Drifts (s.traceThread r kind) := by
  unfold State.traceThread
  split
  · exact refl s
  · exact keepRec ..

/-! Threads that park, wake, halt -/

theorem park (s : State) (r : Nat) (st : Status) : s.Drifts (s.park r st) := (modThread ..).trans (traceThread ..)

theorem enterTable (s : State) (r : Nat) : s.Drifts (s.enterTable r) := by
  unfold State.enterTable
  split
  · exact refl s
  · exact (modThread s r fun t => { t with status := .runnable }).trans (of_same rfl rfl rfl rfl)

theorem wake (s : State) (r : Nat) : s.Drifts (s.wake r) := by
  unfold State.wake
  split
  · exact modThread ..
  · exact enterTable ..

theorem unpark (s : State) (r : Nat) : s.Drifts (s.unpark r) := by
  unfold State.unpark
  split
  · exact (modThread ..).trans (wake ..)
  · exact (traceThread ..).trans (wake ..)

theorem halt (s : State) (r kind arg1 : Nat) : s.Drifts (s.halt r kind arg1) := by
  unfold State.halt
  split
  · refine State.Drifts.trans ?_ (event ..)
    refine State.Drifts.trans ?_ (modThread ..)
    split
    · exact traceThread ..
    · exact refl s
  · exact refl s

/-! A turn of a WAITV, and the waits that a write ends (R175) -/

theorem mergeInto (s : State) (r : Nat) (st : Stamp) : s.Drifts (s.mergeInto r st) := modThread s r _ fun t => merge_r t _

theorem acquireLine (s : State) (r ctx : Nat) (line : Place) : s.Drifts (s.acquireLine r ctx line) := by
  unfold State.acquireLine
  split
  · exact mergeInto ..
  · split
    · split
      · exact modThread ..
      · exact refl s
    · exact refl s

theorem pendLine (s : State) (r : Nat) (line : Place) : s.Drifts (s.pendLine r line) := by
  unfold State.pendLine
  split
  · exact refl s
  · exact modThread s r _ fun t => by split <;> rfl

theorem waitvJudge (s : State) (t : Thread) (w : WaitV) : s.Drifts (s.waitvJudge t w) := by
  unfold State.waitvJudge
  have hc : s.Drifts (if w.race == .check then s.waitvCheck t w else s) := by
    split
    · exact of_notes (.waitvCheck ..)
    · exact refl s
  dsimp only
  split
  · exact hc.trans (acquireLine ..)
  · exact hc.trans (pendLine ..)

theorem waitvNow (s : State) (t : Thread) (w : WaitV) : s.Drifts (s.waitvNow t w).1 := by
  unfold State.waitvNow
  have hp : s.Drifts ((s.askPeer [] w.place).notePoison t.run (s.viewBytes t [] w.place w.ty.bytes).2) :=
    of_notes ((Notes.askPeer ..).trans (.notePoison ..))
  dsimp only
  split
  · refine (hp.trans ?_).trans (modThread ..)
    split
    · exact refl _
    · exact waitvJudge ..
  · exact hp.trans (modThread ..)

theorem waitvTry (s : State) (r : Nat) : s.Drifts (s.waitvTry r) := by
  unfold State.waitvTry
  split
  · exact refl s
  · split
    · exact refl s
    · split
      · exact refl s
      · split
        · rename_i t _ _ _ _ w _ _
          have hn := waitvNow s t w
          split
          · rename_i h
            rw [h] at hn
            exact hn.trans (unpark ..)
          · rename_i h
            rwa [h] at hn
        · exact refl s

theorem wakeLines (s : State) (p : Place) (n : Nat) : s.Drifts (s.wakeLines p n) :=
  foldl (f := fun (s : State) (i : Nat) => s.wakeLine (p.line.add (64 * i)))
    (fun s _ => foldl (f := fun (s : State) (t : Thread) => s.waitvTry t.r) (fun s t => waitvTry s t.r) _ s) _ s

theorem scrWr (s : State) (gid off n v : Nat) : s.Drifts (s.scrWr gid off n v) := by
  unfold State.scrWr
  split
  · exact refl s
  · exact (modGroup ..).trans (wakeLines ..)

/-! Departures and exits (R29, R186, R188) -/

theorem setSnap (s : State) (die : Nat) (k : SnapKey) (st : Stamp) : s.Drifts (s.setSnap die k st).1 := of_notes (.setSnap ..)

theorem gbarStamp (s : State) (gid r : Nat) : s.Drifts (s.gbarStamp gid r) := by
  unfold State.gbarStamp
  split
  · exact refl s
  · split
    · exact refl s
    · unfold State.stampOn
      dsimp only
      split
      · exact setSnap ..
      · have hx (u : State) (x : List Snap) : u.Drifts { u with snaps := x } := of_same rfl rfl rfl rfl
        have h := setSnap s (((s.group? gid).map fun g => dieOfCore g.home).getD 0) (.gbar gid)
        split
        · exact h _
        · exact ((h _).trans (hx ..)).trans (of_notes (.countLoss ..))

theorem gbarWake (s : State) (gid : Nat) (st : Option Stamp) (r : Nat) : s.Drifts (s.gbarWake gid st r) := by
  unfold State.gbarWake
  have hm : s.Drifts (match st with
      | some x => s.mergeInto r x
      | none => s) := by
    split
    · exact mergeInto ..
    · exact refl s
  dsimp only
  split
  · exact hm
  · split
    · exact hm.trans (modThread ..)
    · split
      · exact (hm.trans (modThread ..)).trans (unpark ..)
      · exact hm.trans (modThread ..)

theorem gbarCheck (n : Nat) (s : State) (gid : Nat) : s.Drifts (s.gbarCheck gid n) := by
  induction n generalizing s with
  | zero => exact refl s
  | succ n ih =>
    unfold State.gbarCheck
    split
    · exact refl s
    · split
      · exact refl s
      · rename_i g _ ph _
        split
        · extract_lets st s1 s2
          have h1 : s.Drifts s1 := ((of_notes (.dropSnap ..)).trans (modGroup ..)).trans
            (modGroup ..)
          have h2 : s1.Drifts s2 := foldl (f := fun (s : State) r => s.gbarWake gid st r) (fun s r => gbarWake s gid st r) _ _
          split
          · exact h1.trans h2
          · refine ((h1.trans h2).trans (modGroup ..)).trans ((foldl (f := fun (s : State) r => s.gbarStamp gid r) (fun s r => ?_) _ _).trans (ih ..))
            exact gbarStamp ..
        · exact refl s

theorem gatherCheck (s : State) (block : Nat) : s.Drifts (s.gatherCheck block) := by
  unfold State.gatherCheck
  split
  · exact refl s
  · extract_lets live expected s1 r0
    have h1 : s.Drifts s1 := of_same rfl rfl rfl rfl
    split
    · exact h1.trans (of_same rfl rfl rfl rfl)
    · split
      · refine (h1.trans (foldl (f := fun (s : State) r => (s.traceThread r 4).modThread r fun t => { t with status := .runnable }) (fun s r => ?_) _ _)).trans
          (of_same rfl rfl rfl rfl)
        exact (traceThread ..).trans (modThread ..)
      · exact h1

theorem freeGroups (s : State) : s.Drifts s.freeGroups where
  lanes _ _ _ h := h
  members g h := ⟨g, (List.mem_filter.mp h).1, rfl, fun _ h => h⟩
  slots x h := ⟨x, h, rfl⟩
  runs _ x h := ⟨x, h, .refl x⟩
  runList y h := ⟨y, h, .refl y⟩

theorem depart (s : State) (r gid : Nat) : s.Drifts (s.depart r gid) := by
  unfold State.depart
  extract_lets s1 s2 blocks
  have h1 : s.Drifts s1 := modGroup s gid _ fun g => ⟨rfl, List.filter_subset_self ..⟩
  have h2 : s1.Drifts s2 := of_same rfl rfl rfl rfl
  exact (((h1.trans h2).trans (foldl gatherCheck ..)).trans (gbarCheck ..)).trans (freeGroups ..)

theorem leaveSet (s : State) (r : Nat) (e : PcEntry) : s.Drifts (s.leaveSet r e) := by
  unfold State.leaveSet
  dsimp only
  split
  · exact refl s
  · exact State.Drifts.trans (foldl (f := fun (s : State) x => s.park x (.gather e.addr)) (fun s x => park s x _) _ _) (of_same rfl rfl rfl rfl)

theorem detach (s : State) (r : Nat) : s.Drifts (s.detach r) := by
  rw [detach_eq]
  exact State.Drifts.trans (t := s.leavePlaces r) (of_same rfl rfl rfl rfl) (foldl (f := fun (s : State) e => s.leaveSet r e) (fun s e => leaveSet s r e) _ _)

theorem keepHorizon (s : State) (t : Thread) : s.Drifts (s.keepHorizon t) := of_same rfl rfl rfl rfl

/-! Lanes that are discarded, and bundles that leave (R17, R154) -/

theorem giveBack (s : State) (f : Nat × Nat × Nat) : s.Drifts (s.giveBack f) := by
  unfold State.giveBack
  refine ((scrWr ..).trans (modGroup ..)).trans (foldl (f := fun (s : State) (t : Thread) => s.unpark t.r) (fun s t => ?_) _ _)
  exact unpark ..

theorem retireOps (s : State) (r : Nat) : s.Drifts (s.retireOps r) := by
  unfold State.retireOps
  dsimp only
  split
  · exact refl s
  · exact (modCore ..).trans (modPart ..)

theorem clear (s : State) (p : PortId) (r : Nat) : s.Drifts (s.modLane p r Lane.clear) := modLane s p r _ fun l h => absurd h (by simp [Lane.clear])

theorem discard (s : State) (p : PortId) (r : Nat) (abandoned : Bool) : s.Drifts (s.discard p r abandoned) := by
  unfold State.discard
  split
  · exact refl s
  · rename_i l _
    split
    · exact refl s
    · extract_lets s1 s2 s3
      have h1 : s.Drifts s1 := (foldl giveBack ..).trans (retireOps ..)
      have h2 : s1.Drifts s2 := {
        lanes _ _ _ h := h
        members g h := by
          obtain ⟨g0, h0, rfl⟩ := List.mem_map.mp h
          exact ⟨g0, h0, by split <;> rfl, by split <;> exact fun _ h => h⟩
        slots x h := ⟨x, h, rfl⟩
        runs _ x h := ⟨x, h, .refl x⟩
        runList y h := ⟨y, h, .refl y⟩ }
      exact ((h1.trans h2).trans (modThread ..)).trans (clear ..)

theorem dropPort (s : State) (p : PortId) : s.Drifts { s with bundles := s.bundles.filter (·.p ≠ p) } where
  lanes q r n h := by
    obtain ⟨b, hb, hl⟩ := h
    exact ⟨b, (List.mem_filter.mp hb).1, hl⟩
  members g h := ⟨g, h, rfl, fun _ h => h⟩
  slots x h := ⟨x, h, rfl⟩
  runs _ x h := ⟨x, h, .refl x⟩
  runList y h := ⟨y, h, .refl y⟩

theorem closeBanks (s : State) (p : PortId) : s.Drifts (s.closeBanks p) := by
  unfold State.closeBanks
  split
  · exact refl s
  · split
    · exact refl s
    · have h := modBundle s p (fun b => { b with banks := [] }) (fun _ => rfl) fun b l hl ha => ⟨l, hl, ha, rfl, rfl⟩
      dsimp only
      split
      · exact h
      · exact h.trans (modPart ..)

theorem brakeLeave (s : State) (b : Bundle) : s.Drifts (s.brakeLeave b) := by
  unfold State.brakeLeave
  split
  · exact modPart ..
  · exact refl s

theorem laneLeaves (s : State) (p : PortId) (l : Lane) : s.Drifts (s.laneLeaves p l) := by
  unfold State.laneLeaves
  split
  · split
    · split
      · exact modThread ..
      · exact enterTable ..
    · exact refl s
  · exact refl s

theorem writeRecs (s : State) (p : PortId) (ls : List Lane) : s.Drifts (s.writeRecs p ls) :=
  foldl (f := fun (s : State) (l : Lane) => l.recs.foldl (fun (s : State) x => s.writeTrace p.core l.ctx x) s)
    (fun s l => foldl (fun s x => writeTrace s p.core l.ctx x) l.recs s) ls s

theorem leaveBundle (s : State) (p : PortId) : s.Drifts (s.leaveBundle p) := by
  cases hb : s.bundle? p with
  | none => simpa only [State.leaveBundle, hb] using refl s
  | some b =>
    cases ha : b.lanes.any (·.active) with
    | true => rw [leaveBundle_of_active hb ha]; exact refl s
    | false =>
      rw [leaveBundle_eq hb ha]
      have hd : s.Drifts (s.dropBundle p b) := ((closeBanks s p).trans (dropPort _ p)).trans (brakeLeave ..)
      exact (hd.trans (writeRecs ..)).trans (foldl (fun s l => laneLeaves s p l) ..)

end State.Drifts

/-! A thread that ends (R29, R346) -/

/-- A thread leaves some of its groups. -/
def State.departAll (s : State) (r : Nat) (ms : List (Option Membership)) : State :=
  ms.foldl (fun (s : State) m => match m with
    | some x => s.depart r x.gid
    | none => s) s

/-- A slot is free: its thread, its loads and, of a saved thread, its tag entry are gone; the entry of the resident slot is live no longer. -/
def State.freeSlot (s : State) (r : Nat) (t : Thread) : State :=
  let s : State := { s with threads := s.threads.filter (·.r ≠ r), oplog := s.oplog.filter (·.r ≠ r) }
  let s : State := if away r then { s with tags := s.tags.filter (·.r ≠ r) } else s
  s.modTag (t.r % Config.numSlots) fun e => if e.gen = t.gen then { e with live := false } else e

theorem exitThread_eq {s : State} {r : Nat} {t : Thread} (ht : s.thread? r = some t) :
    s.exitThread r = ((((s.keepHorizon t).detach r).departAll r [t.m0, t.m1, t.m2, t.m3]).freeSlot r t).modRun t.run
      fun x => { x with exited := x.exited + 1 } := by
  unfold State.exitThread
  simp only [ht]
  rfl

theorem departAll_drifts (ms : List (Option Membership)) (s : State) (r : Nat) : s.Drifts (s.departAll r ms) :=
  State.Drifts.foldl (fun s m => by
    split
    · exact .depart ..
    · exact .refl s) ms s

theorem freeSlot_drifts (s : State) (r : Nat) (t : Thread) : s.Drifts (s.freeSlot r t) := by
  have hd : s.Drifts { s with threads := s.threads.filter (·.r ≠ r), oplog := s.oplog.filter (·.r ≠ r) } :=
    { lanes := fun _ _ _ h => h
      members := fun g h => ⟨g, h, rfl, fun _ h => h⟩
      slots := fun x h => ⟨x, (List.mem_filter.mp h).1, rfl⟩
      runs := fun _ x h => ⟨x, h, .refl x⟩
      runList := fun y h => ⟨y, h, .refl y⟩ }
  unfold State.freeSlot
  dsimp only
  refine (hd.trans ?_).trans (.of_notes (.modTag ..))
  split
  · exact .of_same rfl rfl rfl rfl
  · exact .refl _

/-- The slot of a thread is free for good. -/
theorem thread?_freeSlot (s : State) (r : Nat) (t : Thread) : (s.freeSlot r t).thread? r = none := by
  have ht : (s.freeSlot r t).threads = s.threads.filter (·.r ≠ r) := by
    unfold State.freeSlot
    dsimp only
    split <;> rfl
  rw [State.thread?, ht]
  simp

theorem State.Drifts.thread?_none {s u : State} (h : s.Drifts u) {r : Nat} (hr : s.thread? r = none) : u.thread? r = none := by
  refine List.find?_eq_none.mpr fun x hx => ?_
  obtain ⟨y, hy, e⟩ := h.slots x hx
  have := List.find?_eq_none.mp hr y hy
  rwa [e] at this

/-- No group of a number has a thread among its members. -/
def State.NotIn (s : State) (r gid : Nat) : Prop := ∀ g ∈ s.groups, g.gid = gid → ∀ q ∈ g.members, q.1 ≠ r

theorem State.Drifts.notIn {s u : State} (h : s.Drifts u) {r gid : Nat} (hn : s.NotIn r gid) : u.NotIn r gid := fun g hg e q hq => by
  obtain ⟨g0, h0, e0, hm⟩ := h.members g hg
  exact hn g0 h0 (e0.trans e) q (hm hq)

/-- A member that departs is in no group of that number (R186). -/
theorem depart_notIn (s : State) (r gid : Nat) : (s.depart r gid).NotIn r gid := by
  unfold State.depart
  extract_lets s1 s2 blocks
  have h1 : s1.NotIn r gid := fun g hg e q hq => by
    obtain ⟨g0, -, rfl⟩ := List.mem_map.mp hg
    split at hq
    · simpa using (List.mem_filter.mp hq).2
    · rename_i h
      rw [if_neg h] at e
      exact absurd e h
  have h2 : s1.Drifts s2 := .of_same rfl rfl rfl rfl
  exact (((h2.trans (.foldl .gatherCheck ..)).trans (.gbarCheck ..)).trans (.freeGroups _)).notIn h1

theorem departAll_notIn {ms : List (Option Membership)} {k : Membership} (hk : some k ∈ ms) (s : State) (r : Nat) : (s.departAll r ms).NotIn r k.gid := by
  induction ms generalizing s with
  | nil => cases hk
  | cons m ms ih =>
    rcases List.mem_cons.mp hk with rfl | hk
    · exact (departAll_drifts ms _ r).notIn (depart_notIn s r k.gid)
    · exact ih hk _

/-- A thread that ends: nothing is added, its slot is free, it is in no group of its any more, and its run counts it. -/
theorem exitThread_ends {s : State} {r : Nat} {t : Thread} (ht : s.thread? r = some t) :
    ∃ u, s.Drifts u ∧ u.thread? r = none ∧ (∀ m < 4, ∀ k, t.mem m = some k → u.NotIn r k.gid) ∧
      s.exitThread r = u.modRun t.run fun x => { x with exited := x.exited + 1 } := by
  refine ⟨_, (((State.Drifts.keepHorizon s t).trans (.detach ..)).trans (departAll_drifts ..)).trans (freeSlot_drifts ..), thread?_freeSlot .., fun m hm k hk => ?_,
    exitThread_eq ht⟩
  have hmem : some k ∈ [t.m0, t.m1, t.m2, t.m3] := by
    rw [← hk]
    match m, hm with
    | 0, _ | 1, _ | 2, _ | 3, _ => simp [Thread.mem]
  exact (freeSlot_drifts ..).notIn (departAll_notIn hmem _ _)

end Sys2Proof.Machine
end


section
/-! SUPPORT. TSTAT and PSEL at a commit (R127). -/

namespace Sys2Proof.Machine

open Sys2Proof

/-! TSTAT and PSEL at a commit (R13, R127, R135) -/

theorem bit_toNat {n : Nat} (x : BitVec n) (i : Nat) : bit x.toNat i = x.getLsbD i := by rw [bit_eq_testBit]; rfl

theorem getLsbD_setBit (w : Word) {i : Nat} (hi : i < 32) (b : Bool) (j : Nat) : (setBit w i b).getLsbD j = if j = i then b else w.getLsbD j := by
  unfold setBit
  cases b with
  | true =>
    by_cases hj : j = i
    · simp [hj, hi]
    · have hn : ¬(i ≤ j ∧ j - i = 0) := by omega
      simp only [if_true, BitVec.getLsbD_or, BitVec.getLsbD_shiftLeft, BitVec.getLsbD_one]
      grind
  | false =>
    by_cases hj : j = i
    · simp [hj, hi]
    · simp only [Bool.false_eq_true, if_false, BitVec.getLsbD_and, BitVec.getLsbD_not, BitVec.getLsbD_shiftLeft, BitVec.getLsbD_one]
      grind

/-- TSTAT without RPASS, which ends with a commit. -/
def endPass (w : Word) : Word := if bit w.toNat tstatRPASS then setBit w tstatRPASS false else w

/-- TSTAT as a write of it leaves it. -/
def writeTstat (x w : Word) : Word :=
  [tstatPRB, tstatQR, tstatQCFG].foldl (fun w i => if bit x.toNat i then setBit w i false else w)
    (setBit (setBit w tstatPEN (bit x.toNat tstatPEN)) tstatRPASS (bit x.toNat tstatRPASS))

/-- A bit of TSTAT that is set where a condition holds. -/
def setWhere (b : Bool) (i : Nat) (w : Word) : Word := if b then setBit w i true else w

theorem csrCommit_eq (l : Lane) (t : Thread) : csrCommit l t =
    { t with
      tstat := setWhere l.prb tstatPRB (setWhere l.qr tstatQR (setWhere (l.pselW.any (!pselOk ·)) tstatQCFG (l.tstatW.elim id writeTstat (endPass t.tstat))))
      psel := (l.pselW.filter pselOk).getD t.psel } := by
  unfold csrCommit
  cases l.tstatW <;> cases hp : l.pselW with
  | none => rfl
  | some x => cases hx : pselOk x <;> simp [setWhere, Option.filter, hx] <;> rfl

theorem getLsbD_endPass (w : Word) (j : Nat) : (endPass w).getLsbD j = if j = 11 then false else w.getLsbD j := by
  unfold endPass
  rw [bit_toNat]
  split
  · exact getLsbD_setBit _ (by decide) ..
  · rename_i h
    split
    · rename_i hj
      rw [hj]
      exact Bool.eq_false_iff.mpr h
    · rfl

theorem getLsbD_setWhere (b : Bool) {i : Nat} (hi : i < 32) (w : Word) (j : Nat) : (setWhere b i w).getLsbD j = if j = i then b || w.getLsbD i else w.getLsbD j := by
  unfold setWhere
  split
  · rename_i h
    rw [getLsbD_setBit _ hi, h, Bool.true_or]
  · rename_i h
    split
    · rename_i hj
      simp [hj, h]
    · rfl

theorem getLsbD_clearWhere (b : Bool) {i : Nat} (hi : i < 32) (w : Word) (j : Nat) :
    (if b then setBit w i false else w).getLsbD j = if j = i then w.getLsbD i && !b else w.getLsbD j := by
  split
  · rename_i h
    rw [getLsbD_setBit _ hi, h, Bool.not_true, Bool.and_false]
  · rename_i h
    split
    · rename_i hj
      simp [hj, h]
    · rfl

theorem getLsbD_writeTstat (x w : Word) (j : Nat) : (writeTstat x w).getLsbD j =
    if j = 15 ∨ j = 11 then x.getLsbD j else if j = 14 ∨ j = 13 ∨ j = 12 then w.getLsbD j && !x.getLsbD j else w.getLsbD j := by
  simp only [writeTstat, List.foldl_cons, List.foldl_nil, bit_toNat, tstatPRB, tstatQR, tstatQCFG, tstatPEN, tstatRPASS]
  rw [getLsbD_clearWhere _ (by decide), getLsbD_clearWhere _ (by decide), getLsbD_clearWhere _ (by decide)]
  simp only [getLsbD_clearWhere _ (show 13 < 32 by decide), getLsbD_clearWhere _ (show 14 < 32 by decide), getLsbD_setBit _ (show 11 < 32 by decide),
    getLsbD_setBit _ (show 15 < 32 by decide)]
  grind

/-- TSTAT after a commit, bit by bit; CAUSE is none of the five. -/
theorem csrCommit_tstat (l : Lane) (t : Thread) (j : Nat) : (csrCommit l t).tstat.getLsbD j =
    if j = 15 then l.tstatW.elim (t.tstat.getLsbD 15) (·.getLsbD 15)
    else if j = 14 then l.prb || t.tstat.getLsbD 14 && !l.tstatW.any (·.getLsbD 14)
    else if j = 13 then l.qr || t.tstat.getLsbD 13 && !l.tstatW.any (·.getLsbD 13)
    else if j = 12 then l.pselW.any (fun x => !pselOk x) || t.tstat.getLsbD 12 && !l.tstatW.any (·.getLsbD 12)
    else if j = 11 then l.tstatW.any (·.getLsbD 11)
    else t.tstat.getLsbD j := by
  rw [csrCommit_eq]
  simp only [tstatPRB, tstatQR, tstatQCFG, getLsbD_setWhere _ (show 14 < 32 by decide), getLsbD_setWhere _ (show 13 < 32 by decide),
    getLsbD_setWhere _ (show 12 < 32 by decide)]
  cases l.tstatW with
  | none => simp only [Option.elim_none, id, getLsbD_endPass, Option.any_none]; grind
  | some x => simp only [Option.elim_some, getLsbD_writeTstat, getLsbD_endPass, Option.any_some]; grind

theorem controlRegistersAtCommit : ControlRegistersAtCommit := by
  intro l t
  have hb := csrCommit_tstat l t
  refine ⟨?_, ?_, ?_, ?_, ?_, ?_, ?_, ?_⟩
  · rw [csrCommit_eq]
    cases l.pselW with
    | none => rfl
    | some x => cases hx : pselOk x <;> simp [Option.filter, hx]
  · rw [hb, if_pos rfl]
    cases l.tstatW <;> rfl
  · rw [hb]
    cases l.tstatW <;> rfl
  · rw [hb]
    cases l.tstatW <;> rfl
  · rw [hb]
    cases l.tstatW <;> rfl
  · rw [hb]
    cases l.tstatW <;> rfl
  · refine BitVec.eq_of_getLsbD_eq fun i hi => ?_
    rw [BitVec.getLsbD_extractLsb', BitVec.getLsbD_extractLsb', hb]
    grind
  · rw [csrCommit_eq]

end Sys2Proof.Machine
end


section
/-! SUPPORT. Registers at a commit (R21, R28). -/

namespace Sys2Proof.Machine

open Sys2Proof

/-! Registers at a commit (R21, R28, R128) -/

theorem commitHeld_regStep (t : Thread) (h : Held) : t.RegStep (commitHeld t h) := by
  have h1 : t.RegStep (if h.keep then t else t.setReg h.code h.value) := by
    split
    · exact .refl t
    · exact .setReg ..
  unfold commitHeld
  dsimp only
  split
  · exact h1.trans (.setFull ..)
  · exact h1.trans (.markEmpty ..)

theorem reg_setFull (t : Thread) (c d : Nat) : (t.setFull c).reg d = t.reg d := rfl

theorem reg_markEmpty (t : Thread) (c d : Nat) : (t.markEmpty c).reg d = t.reg d := by
  unfold Thread.markEmpty
  split <;> rfl

theorem isEmpty_markEmpty (t : Thread) {c : Nat} (hc : c ≠ 0) (d : Nat) : (t.markEmpty c).isEmpty d = (d == c || t.isEmpty d) := by
  have hm : ∀ l : List Nat, d ∈ setAdd c l ↔ d = c ∨ d ∈ l := by
    intro l
    unfold setAdd
    split
    · rename_i h
      have := List.contains_iff_mem.mp h
      grind
    · exact (insertBy_perm _ _ _).mem_iff.trans List.mem_cons
  rw [Bool.eq_iff_iff]
  simp [Thread.markEmpty, hc, Thread.isEmpty, hm]

theorem commitHeld_regs_wf {t : Thread} (hw : sWf t.regs = true) (h : Held) : sWf (commitHeld t h).regs = true := by
  have h1 : sWf (if h.keep then t else t.setReg h.code h.value).regs = true := by
    split
    · exact hw
    · exact setReg_wf hw ..
  unfold commitHeld
  dsimp only
  split
  · exact h1
  · unfold Thread.markEmpty
    split <;> exact h1

/-- A named result stands in its register (R21). -/
theorem reg_commitHeld {t : Thread} (hw : sWf t.regs = true) (hb : t.badRegs = []) (h : Held) {c : Nat} (h0 : 0 < c) (h1 : c < 1016) :
    (commitHeld t h).reg c = if c = h.code ∧ h.keep = false then h.value else t.reg c := by
  have hr : (commitHeld t h).reg c = (if h.keep then t else t.setReg h.code h.value).reg c := by
    unfold commitHeld
    dsimp only
    split
    · rfl
    · exact reg_markEmpty ..
  rw [hr]
  cases hk : h.keep with
  | true => simp
  | false =>
    simp only [Bool.false_eq_true, if_false, and_true]
    rw [reg_setReg hw (by simp [hb])]
    by_cases hc : c = h.code
    · rw [if_pos ⟨by omega, by omega, hc⟩, if_pos hc]
    · rw [if_neg fun h => hc h.2.2, if_neg hc]

theorem isEmpty_commitHeld (t : Thread) (h : Held) {c : Nat} (hc : h.code ≠ 0) :
    (commitHeld t h).isEmpty c = if c = h.code then !h.full else t.isEmpty c := by
  have he : ∀ d, (if h.keep then t else t.setReg h.code h.value).isEmpty d = t.isEmpty d := by
    intro d
    split
    · rfl
    · exact isEmpty_setReg ..
  unfold commitHeld
  dsimp only
  cases h.full with
  | true =>
    rw [if_pos rfl, isEmpty_setFull, he]
    split <;> simp_all
  | false =>
    rw [if_neg Bool.false_ne_true, isEmpty_markEmpty _ hc, he]
    split <;> simp_all

theorem isEmpty_commitHeld_other (t : Thread) (h : Held) {c : Nat} (hc : h.code ≠ c) : (commitHeld t h).isEmpty c = t.isEmpty c := by
  by_cases h0 : h.code = 0
  · have he : (if h.keep then t else t.setReg h.code h.value) = t := by simp [Thread.setReg, h0]
    unfold commitHeld
    rw [he]
    dsimp only
    split
    · rw [isEmpty_setFull]
      simp [Ne.symm hc]
    · simp [Thread.markEmpty, h0]
  · rw [isEmpty_commitHeld t h h0, if_neg (Ne.symm hc)]

/-- What a register holds once some results are written. -/
def heldReg (l : List Held) (t : Thread) (c : Nat) : Word := ((l.find? (·.code == c)).map fun h => if h.keep then t.reg c else h.value).getD (t.reg c)

theorem laneReg_eq_heldReg (l : Lane) (t : Thread) {c : Nat} (hc : c < 1016) : laneReg l t c = heldReg l.res t c := by
  unfold laneReg heldReg
  rw [if_neg (by omega)]
  cases l.res.find? (·.code == c) <;> rfl

/-- The results of a lane in the registers of its thread. -/
def putResults (l : List Held) (t : Thread) : Thread := l.foldl commitHeld t

theorem putResults_regStep (l : List Held) (t : Thread) : t.RegStep (putResults l t) := .foldl commitHeld_regStep l t

theorem putResults_wf (l : List Held) {t : Thread} (hw : sWf t.regs = true) : sWf (putResults l t).regs = true := by
  unfold putResults
  induction l generalizing t with
  | nil => exact hw
  | cons h l ih => exact ih (commitHeld_regs_wf hw h)

theorem reg_putResults {l : List Held} {t : Thread} (hn : (l.map (·.code)).Nodup) (hw : sWf t.regs = true) (hb : t.badRegs = []) {c : Nat} (h0 : 0 < c)
    (h1 : c < 1016) : (putResults l t).reg c = heldReg l t c := by
  unfold putResults
  induction l generalizing t with
  | nil => rfl
  | cons h l ih =>
    obtain ⟨hh, hn⟩ := List.nodup_cons.mp hn
    rw [List.foldl_cons, ih hn (commitHeld_regs_wf hw h) ((commitHeld_regStep t h).badRegs.trans hb)]
    have hr := reg_commitHeld hw hb h h0 h1
    unfold heldReg
    rw [hr, List.find?_cons]
    by_cases hc : c = h.code
    · have hf : l.find? (·.code == c) = none := List.find?_eq_none.mpr fun x hx he => hh (List.mem_map.mpr ⟨x, hx, (eq_of_beq he).trans hc⟩)
      rw [hf]
      cases hk : h.keep <;> simp [hc, hk]
    · have hne : (h.code == c) = false := by simpa using Ne.symm hc
      simp only [hne, hc, false_and, if_false]

theorem isEmpty_putResults_other (l : List Held) (t : Thread) {c : Nat} (hc : ∀ h ∈ l, h.code ≠ c) : (putResults l t).isEmpty c = t.isEmpty c := by
  unfold putResults
  induction l generalizing t with
  | nil => rfl
  | cons h l ih =>
    obtain ⟨hh, hl⟩ := List.forall_mem_cons.mp hc
    exact (ih _ hl).trans (isEmpty_commitHeld_other t h hh)

theorem isEmpty_putResults {l : List Held} (t : Thread) (hn : (l.map (·.code)).Nodup) {h : Held} (hm : h ∈ l) (h0 : h.code ≠ 0) :
    (putResults l t).isEmpty h.code = !h.full := by
  unfold putResults
  induction l generalizing t with
  | nil => cases hm
  | cons g l ih =>
    obtain ⟨hg, hn⟩ := List.nodup_cons.mp hn
    rcases List.mem_cons.mp hm with rfl | hm
    · refine (isEmpty_putResults_other l _ fun x hx he => hg (List.mem_map.mpr ⟨x, hx, he⟩)).trans ?_
      rw [isEmpty_commitHeld t h h0, if_pos rfl]
    · exact ih _ hn hm

/-! The pair that a CALL links (R28) -/

theorem setPair_regStep (t : Thread) (c v : Nat) : t.RegStep (t.setPair c v) :=
  (((Thread.RegStep.setReg ..).trans (.setReg ..)).trans (.setFull ..)).trans (.setFull ..)

theorem reg_setPair {t : Thread} (hw : sWf t.regs = true) (hb : t.badRegs = []) (p v : Nat) {c : Nat} (h0 : 0 < c) (h1 : c < 1016) :
    (t.setPair p v).reg c = if c = p then BitVec.ofNat 32 v else if c = p + 1 then BitVec.ofNat 32 (v / 2 ^ 32) else t.reg c := by
  unfold Thread.setPair
  rw [reg_setFull, reg_setFull, reg_setReg (setReg_wf hw ..) (by rw [(Thread.RegStep.setReg ..).badRegs, hb]; simp), reg_setReg hw (by simp [hb])]
  by_cases hp : c = p
  · rw [if_neg (by omega), if_pos (by omega), if_pos hp]
  · by_cases hp1 : c = p + 1
    · rw [if_pos (by omega), if_neg hp, if_pos hp1]
    · rw [if_neg (by omega), if_neg (by omega), if_neg hp, if_neg hp1]

theorem isEmpty_setPair (t : Thread) (p v c : Nat) : (t.setPair p v).isEmpty c = (c ≠ p && c ≠ p + 1 && t.isEmpty c) := by
  unfold Thread.setPair
  rw [isEmpty_setFull, isEmpty_setFull, isEmpty_setReg, isEmpty_setReg]
  rw [← Bool.and_assoc, Bool.and_comm (decide (c ≠ p + 1))]

end Sys2Proof.Machine
end


section
/-! SUPPORT. The commit of the one lane of a bundle, step by step (R21). -/

namespace Sys2Proof.Machine

open Sys2Proof

/-! The one lane of a bundle at its commit (R21) -/

/-- A bundle at a port with a trace and one lane, active, whose thread is there. -/
structure State.LaneAt (s : State) (p : PortId) (tr : Trace) (l : Lane) (t : Thread) : Prop where
  bundle : ∃ b, s.bundle? p = some b ∧ b.trace = some tr ∧ b.lanes = [l]
  thread : s.thread? l.r = some t
  active : l.active = true

namespace State.LaneAt

variable {s : State} {p : PortId} {tr : Trace} {l : Lane} {t : Thread}

theorem r_eq (h : s.LaneAt p tr l t) : t.r = l.r := thread?_r h.thread

theorem congr {u : State} (h : s.LaneAt p tr l t) (ht : u.threads = s.threads) (hb : u.bundles = s.bundles) : u.LaneAt p tr l t where
  bundle := by simpa only [bundle?_congr hb] using h.bundle
  thread := (thread?_congr ht l.r).trans h.thread
  active := h.active

theorem modThread (h : s.LaneAt p tr l t) (f : Thread → Thread) (hf : ∀ t, (f t).r = t.r := by exact fun _ => rfl) :
    (s.modThread l.r f).LaneAt p tr l (f t) := ⟨h.bundle, thread?_modThread_same h.thread f hf, h.active⟩

theorem modLane (h : s.LaneAt p tr l t) (f : Lane → Lane) (hr : (f l).r = l.r) (ha : (f l).active = true) : (s.modLane p l.r f).LaneAt p tr (f l) t where
  bundle := by
    obtain ⟨b, hb, ht, hl⟩ := h.bundle
    exact ⟨b.modLane l.r f, bundle?_modLane hb l.r f, ht, by simp [Bundle.modLane, hl]⟩
  thread := by rw [hr]; exact h.thread
  active := ha

theorem view (h : s.LaneAt p tr l t) : ∃ b, s.viewOf p l.r = some { p, b, tr, l, t } := by
  obtain ⟨b, hb, ht, hl⟩ := h.bundle
  exact ⟨b, by simp [State.viewOf, hb, ht, Bundle.lane?, hl, h.thread, h.active]⟩

/-- A view of a bundle of one lane. -/
theorem of_view {v : View} (hb : ∃ b, s.bundle? p = some b ∧ b.lanes = [v.l]) (hv : s.viewOf p v.t.r = some v) :
    s.LaneAt p v.tr v.l v.t ∧ v.p = p ∧ v.t.r = v.l.r := by
  obtain ⟨b, hb, hl⟩ := hb
  have hv' := hv
  simp only [State.viewOf, hb] at hv
  split at hv
  · rename_i tr l t ht hlane hthr
    split at hv
    · rename_i ha
      cases hv
      have hr : l.r = t.r := by simpa using List.find?_some hlane
      exact ⟨⟨⟨b, hb, ht, hl⟩, hr ▸ hthr, ha⟩, rfl, hr.symm⟩
    · cases hv
  · cases hv

/-- Such a bundle is at commit once its lane stands past its last slot. -/
theorem atCommit {v : View} (hb : ∃ b, s.bundle? p = some b ∧ b.lanes = [v.l]) (hv : s.viewOf p v.t.r = some v) (hlen : v.tr.len < v.l.at_) :
    s.atCommit p = [v] := by
  have hr := (of_view hb hv).2.2
  obtain ⟨b, hb, hl⟩ := hb
  rw [hr] at hv
  unfold State.atCommit
  simp [hb, hl, hv, hlen]

end State.LaneAt

/-- What a lane at the first stage of its commit has to commit: results, flags, control registers, its pond. -/
structure Lane.Plain (l : Lane) : Prop where
  hinge : l.hinge = none
  posted : l.posted = []
  gsets : l.gsets = []
  progs : l.progs = []
  notes : l.notes = []
  scReads : l.scReads = []
  tret : l.tret = none

/-- Nothing delays the commit of such a lane: its steps begin. -/
theorem commitStep_begins {s : State} {p : PortId} {v : View} (hat : s.atCommit p = [v]) (hl : v.l.Plain) (hst : v.l.stage = 0)
    (hw : s.watchHit v = none) (hi : ∀ c ∈ v.indRegs, v.t.isEmpty c = false) (hf : s.fillsWait v = false) :
    s.commitStep p = ((s.closeBanks p).commitBegin [v]).commitOn p [v.t.r] := by
  have h1 : ∀ n, overLog [v] n = none := fun n => by simp [overLog, hl.posted]
  have h2 : s.unjudged [v] = none := by simp [State.unjudged, hl.posted]
  have h3 : indEmpty [v] = none := by
    simp only [indEmpty, List.findSome?_cons, List.findSome?_nil]
    rw [List.find?_eq_none.mpr fun c hc => by simp [hi c hc]]
    rfl
  have h4 : s.scReady p [v] = (s, true) := by simp [State.scReady, hl.scReads]
  have h5 : s.scStale [v] = none := by simp [State.scStale, hl.scReads]
  unfold State.commitStep
  simp only [hat, h1, h2, h3, h4, h5, List.map_cons, List.map_nil, List.isEmpty_cons, Bool.false_eq_true, if_false, List.any_cons, List.any_nil,
    Bool.or_false, hst, hf, List.findSome?_cons, List.findSome?_nil, hw, Option.map_none]
  rfl

/-- Steps 2 and 3 of such a lane. -/
theorem commitBegin_eq (s : State) {v : View} (hl : v.l.Plain) : s.commitBegin [v] =
    ((((s.noteRegs v.t.r v.touched).modThread v.t.r v.commitRegs).noteRec v.p v.t.r 0 0).commitFlags v).commitGoing v := by
  have h1 : s.commitResults v = (s.noteRegs v.t.r v.touched).modThread v.t.r v.commitRegs := by
    simp only [State.commitResults, hl.posted, List.map_nil, ite_self, List.append_nil]
  have h2 (u : State) : u.commitUniforms [v] = u := by simp [State.commitUniforms, sortOn, sortBy, insertBy, hl.gsets]
  have h3 (u : State) : (u.countProgress v).commitNotes v = u := by simp [State.countProgress, State.commitNotes, sortOn, sortBy, hl.progs, hl.notes]
  simp only [State.commitBegin, List.foldl_cons, List.foldl_nil, h1, h2, h3]

/-- Where such a lane goes on (R28, R29). -/
def View.goes (v : View) : Going :=
  if v.lastPass then { dest := succOf v.tr.succ v.t, pos := 0, cnt := none } else { dest := .at_ v.tr.addr, pos := v.l.pass + 1, cnt := v.t.cnt }

theorem going_eq (s : State) {v : View} (h : v.l.tret = none) : s.going v = (s, v.goes) := by
  unfold State.going View.goes
  rw [h]
  dsimp only
  split <;> rfl

/-- A lane that has passed steps 2 and 3. -/
def Lane.begun (l : Lane) (recs : List Nat) (g : Going) : Lane := { l with recs, stage := 1, next := some g, flumes := [] }

/-- The thread of a lane once steps 2 and 3 are done. -/
def View.begun (v : View) : Thread := { v.commitRegs v.t with flg := flagsCommit v.t.flg v.l.fclear v.l.tflags }

/-- The registers at step 2 of such a lane. -/
theorem commitRegs_eq {v : View} (hl : v.l.Plain) (t : Thread) : v.commitRegs t =
    v.link (csrCommit v.l { putResults v.l.res t with pipes := (putResults v.l.res t).pipes.filter (· ≠ (v.tr.addr, v.l.pass)), onePass := false }) := by
  simp only [View.commitRegs, hl.posted, hingeRegs, hl.hinge, hl.tret, List.foldl_nil, Option.isSome_none, Bool.false_eq_true, if_false]
  rfl

theorem link_regStep (v : View) (t : Thread) : t.RegStep (v.link t) := by
  unfold View.link
  split
  · exact setPair_regStep ..
  · exact .refl t

/-- The second thread differs from the first at most in its registers, its flags and control registers, and what its trace has had under way. -/
def Thread.Settles (t u : Thread) : Prop :=
  u = { t with regs := u.regs, empty := u.empty, fills := u.fills, tstat := u.tstat, psel := u.psel, pipes := u.pipes, onePass := u.onePass, flg := u.flg }

namespace Thread.Settles

theorem trans {t u v : Thread} (a : t.Settles u) (b : u.Settles v) : t.Settles v :=
  Eq.trans b (congrArg (fun x : Thread => { x with
    regs := v.regs, empty := v.empty, fills := v.fills, tstat := v.tstat, psel := v.psel, pipes := v.pipes, onePass := v.onePass, flg := v.flg }) a)

theorem of_regStep {t u : Thread} (h : t.RegStep u) : t.Settles u := by
  have h' : u = _ := h
  unfold Thread.Settles
  rw [h']

section
variable {t u : Thread} (h : t.Settles u)
include h

theorem r : u.r = t.r := (congrArg Thread.r h).trans rfl
theorem run : u.run = t.run := (congrArg Thread.run h).trans rfl
theorem ctx : u.ctx = t.ctx := (congrArg Thread.ctx h).trans rfl
theorem tag : u.tag = t.tag := (congrArg Thread.tag h).trans rfl
theorem pc : u.pc = t.pc := (congrArg Thread.pc h).trans rfl
theorem status : u.status = t.status := (congrArg Thread.status h).trans rfl
theorem hold : u.hold = t.hold := (congrArg Thread.hold h).trans rfl
theorem relall : u.relall = t.relall := (congrArg Thread.relall h).trans rfl
theorem homeGid : u.homeGid = t.homeGid := (congrArg Thread.homeGid h).trans rfl
theorem m0 : u.m0 = t.m0 := (congrArg Thread.m0 h).trans rfl
theorem m1 : u.m1 = t.m1 := (congrArg Thread.m1 h).trans rfl
theorem m2 : u.m2 = t.m2 := (congrArg Thread.m2 h).trans rfl
theorem m3 : u.m3 = t.m3 := (congrArg Thread.m3 h).trans rfl
theorem mem (m : Nat) : u.mem m = t.mem m := (congrArg (Thread.mem · m) h).trans (by unfold Thread.mem; split <;> rfl)

end

end Thread.Settles

theorem commitRegs_settles {v : View} (hl : v.l.Plain) (t : Thread) : t.Settles (v.commitRegs t) := by
  rw [commitRegs_eq hl]
  refine (Thread.Settles.of_regStep (putResults_regStep v.l.res t)).trans (Thread.Settles.trans ?_ (.of_regStep (link_regStep ..)))
  rw [csrCommit_eq]
  rfl

theorem commitRegs_r {v : View} (hl : v.l.Plain) (t : Thread) : (v.commitRegs t).r = t.r := (commitRegs_settles hl t).r

theorem commitRegs_flg {v : View} (hl : v.l.Plain) (t : Thread) : (v.commitRegs t).flg = t.flg := by
  have hp : putResults v.l.res t = _ := putResults_regStep v.l.res t
  have hk (x : Thread) : (v.link x).flg = x.flg := (congrArg Thread.flg (link_regStep v x)).trans rfl
  rw [commitRegs_eq hl, hk, csrCommit_eq, hp]

theorem begun_settles {v : View} (hl : v.l.Plain) : v.t.Settles v.begun := (commitRegs_settles hl v.t).trans rfl

/-- Steps 2 and 3 as changes of the state. -/
theorem commitBegin_steps {s : State} {v : View} (hl : v.l.Plain) : s.commitBegin [v] =
    ((((s.noteRegs v.t.r v.touched).modThread v.t.r v.commitRegs).noteRec v.p v.t.r 0 0).modThread v.t.r
      fun t => { t with flg := flagsCommit t.flg v.l.fclear v.l.tflags }).modLane v.p v.t.r fun l => { l with stage := 1, next := some v.goes, flumes := [] } := by
  rw [commitBegin_eq s hl, State.commitGoing, going_eq _ hl.tret]
  rfl

theorem noteRegs_notes (s : State) (r : Nat) (codes : List Nat) : s.Notes (s.noteRegs r codes) := by
  unfold State.noteRegs
  split
  · exact .notePoison ..
  · exact .refl s

/-- The lane and its thread after steps 2 and 3. -/
theorem commitBegin_laneAt {s : State} {p : PortId} {v : View} (h : s.LaneAt p v.tr v.l v.t) (hp : v.p = p) (hl : v.l.Plain) :
    ∃ recs, (s.commitBegin [v]).LaneAt p v.tr (v.l.begun recs v.goes) v.begun := by
  have h0 : (s.noteRegs v.l.r v.touched).LaneAt p v.tr v.l v.t := h.congr (noteRegs_notes ..).threads (noteRegs_notes ..).bundles
  have h1 := h0.modThread v.commitRegs (commitRegs_r hl)
  have h2 : ∃ recs, (((s.noteRegs v.l.r v.touched).modThread v.l.r v.commitRegs).noteRec p v.l.r 0 0).LaneAt p v.tr { v.l with recs } (v.commitRegs v.t) := by
    rw [noteRec_eq h1.thread]
    exact ⟨_, h1.modLane _ rfl h1.active⟩
  obtain ⟨recs, h2⟩ := h2
  have hf := commitRegs_flg hl v.t
  have h3 := (h2.modThread fun t => { t with flg := flagsCommit t.flg v.l.fclear v.l.tflags }).modLane
    (fun l => { l with stage := 1, next := some v.goes, flumes := [] }) rfl h2.active
  rw [commitBegin_steps hl, h.r_eq, hp]
  refine ⟨recs, ?_⟩
  unfold View.begun
  rw [← hf]
  exact h3

/-! Steps 4 to 7 -/

/-- A thread that goes on somewhere. -/
def Thread.goTo (t : Thread) (g : Going) : Thread :=
  { t with
    pc := match g.dest with
      | .at_ pc => .ofNat 64 pc
      | _ => t.pc
    pos := g.pos, cnt := g.cnt }

/-- The lane's step 6: its thread goes on, and the lane is through with its hinge, which is none. -/
def State.stepSix (s : State) (p : PortId) (r : Nat) (g : Going) : State := (s.modThread r (·.goTo g)).modLane p r fun l => { l with stage := 3 }

theorem stepSix_laneAt {s : State} {p : PortId} {tr : Trace} {l : Lane} {t : Thread} (h : s.LaneAt p tr l t) (g : Going) :
    (s.stepSix p l.r g).LaneAt p tr { l with stage := 3 } (t.goTo g) := (h.modThread (·.goTo g)).modLane _ rfl h.active

/-- Steps 5 to 7 of a lane without a hinge and without engine commands, once its stores have joined their queue. -/
theorem commitOn_eq {u w : State} {p : PortId} {tr : Trace} {l l' : Lane} {t t' : Thread} {g : Going} {q : PortId} (h : u.LaneAt p tr l t)
    (hs : ∀ b, u.commitStores { p, b, tr, l, t } = (w, true)) (h' : w.LaneAt p tr l' t') (hr : l'.r = l.r) (hst : l'.stage = 2) (hh : l'.hinge = none)
    (he : l'.engs = []) (hn : l'.next = some g) (ht : t'.status = .issuing q) :
    ∃ b, u.commitOn p [l.r] =
      ((((w.stepSix p l.r g).finishLane { p, b, tr, l := { l' with stage := 3 }, t := t'.goTo g } g).commitAborts p
        ((w.stepSix p l.r g).abortRuns p)).modBundle p fun b => { b with counted := 0 }).leaveBundle p := by
  have h6 := stepSix_laneAt h' g
  obtain ⟨b0, hv0⟩ := h.view
  obtain ⟨b1, hv1⟩ := h'.view
  obtain ⟨b2, hv2⟩ := h6.view
  have hv2 : (w.stepSix p l'.r g).viewOf p l'.r = some { p, b := b2, tr, l := { l' with stage := 3 }, t := t'.goTo g } := hv2
  rw [← hr] at hv0 ⊢
  have h4 : u.eachLane p State.commitStores [l'.r] = (w, true) := by
    simp only [State.eachLane, hv0, hs]
  have h5 : releasesOf ([l'.r].filterMap (w.viewOf p)) = [] := by
    simp [hv1, releasesOf, he]
  have h6' : w.eachLane p State.commitHinge [l'.r] = (w.stepSix p l'.r g, true) := by
    have hb : w.hingeBusy l' = false := by simp [State.hingeBusy, State.ringBusy, State.mailBusy, hh]
    have ht6 : (w.stepSix p l'.r g).thread? l'.r = some (t'.goTo g) := h6.thread
    have hs6 : (t'.goTo g).status = .issuing q := ht
    have he6 : ((w.goTo l'.r g).performHinge { p, b := b1, tr, l := l', t := t' } g).modLane p l'.r (fun l => { l with stage := 3 }) = w.stepSix p l'.r g := by
      simp only [State.performHinge, hh]
      rfl
    have hc : w.commitHinge { p, b := b1, tr, l := l', t := t' } = (w.stepSix p l'.r g, true) := by
      unfold State.commitHinge
      simp only [hst, hn, hh, h'.r_eq, Option.map_none, Option.getD_none, Option.getD_some, Bool.false_eq_true, if_false, hb, Bool.not_true, Bool.or_false,
        he6, ht6, Option.map_some, hs6, ne_eq, not_true_eq_false]
    simp only [State.eachLane, hv1, hc]
  have h7 : (w.stepSix p l'.r g).eachLane p State.commitEnd [l'.r] =
      ((w.stepSix p l'.r g).finishLane { p, b := b2, tr, l := { l' with stage := 3 }, t := t'.goTo g } g, true) := by
    simp [State.eachLane, hv2, State.commitEnd, hn]
  refine ⟨b2, ?_⟩
  unfold State.commitOn
  rw [h4]
  dsimp only
  rw [h5]
  simp only [State.releaseAll, h6', h7]

end Sys2Proof.Machine
end


section
/-! SUPPORT. The end of a commit: the lane is over, its bundle leaves (R21, R154). -/

namespace Sys2Proof.Machine

open Sys2Proof

/-! The end of a commit of one lane (R21, R154) -/

/-- A lane whose pond holds no store passes step 4. -/
theorem commitStores_none (s : State) {v : View} (hst : v.l.stage = 1) (h : v.l.stores = []) : s.commitStores v = (s.modLane v.p v.t.r Lane.queued, true) := by
  unfold State.commitStores
  simp [hst, h]

section
variable {s : State} {p : PortId} {v : View} {g : Going}

/-- A lane on its last pass, whose thread stands at its port, is over; then its thread goes on, ends or halts. -/
theorem finishLane_last (hp : v.p = p) (hthr : ∃ t, s.thread? v.t.r = some t ∧ t.status = .issuing p) (hh : v.l.hinge = none) (htr : v.l.tret = none)
    (hl : v.lastPass = true) :
    (∀ pc, g.dest = .at_ pc → s.finishLane v g = (s.retireOps v.t.r).modLane p v.t.r Lane.over) ∧
    (g.dest = .exit → s.finishLane v g = (((s.retireOps v.t.r).modLane p v.t.r Lane.over).traceThread v.t.r 5).exitThread v.t.r) ∧
    (g.dest = .halt → s.finishLane v g = ((s.retireOps v.t.r).modLane p v.t.r Lane.over).halt v.t.r 5 0) := by
  obtain ⟨t, ht, hs⟩ := hthr
  have htrap : v.traps = false := by simp [View.traps, hh]
  refine ⟨fun pc hd => ?_, fun hd => ?_, fun hd => ?_⟩
  · simp [State.finishLane, ht, hs, hp, htrap, hl, htr, hd]
  · simp [State.finishLane, ht, hs, hp, htrap, hl, htr, hd]
  · simp [State.finishLane, ht, hs, hp, htrap, hl, htr, hd]

/-- On any other pass the lane begins the next. -/
theorem finishLane_next (hp : v.p = p) (hthr : ∃ t, s.thread? v.t.r = some t ∧ t.status = .issuing p) (hh : v.l.hinge = none) (htr : v.l.tret = none)
    (hl : v.lastPass = false) (hy : v.l.yields = false) :
    s.finishLane v g = (s.retireOps v.t.r).modLane p v.t.r fun l => { l.nextPass with abort := l.abort } := by
  obtain ⟨t, ht, hs⟩ := hthr
  have htrap : v.traps = false := by simp [View.traps, hh]
  simp [State.finishLane, ht, hs, hp, htrap, hl, htr, hy]

end

theorem closeBanks_filter (s : State) (p : PortId) : ∀ b ∈ (s.closeBanks p).bundles, ∃ c ∈ s.bundles, c.p = b.p := by
  unfold State.closeBanks
  split
  · exact fun b h => ⟨b, h, rfl⟩
  · split
    · exact fun b h => ⟨b, h, rfl⟩
    · have hm : ∀ b ∈ (s.modBundle p fun b => { b with banks := [] }).bundles, ∃ c ∈ s.bundles, c.p = b.p := by
        intro b h
        obtain ⟨c, hc, rfl⟩ := List.mem_map.mp h
        exact ⟨c, hc, by split <;> rfl⟩
      dsimp only
      split
      · exact hm
      · rwa [modPart_bundles]

/-- No bundle is left at a port. -/
theorem leaveBundle_bundle? {s : State} {p : PortId} {b : Bundle} (hb : s.bundle? p = some b) (ha : b.lanes.any (·.active) = false) :
    (s.leaveBundle p).bundle? p = none := by
  have h1 : (s.dropBundle p b).bundles = (s.closeBanks p).bundles.filter (·.p ≠ p) := by
    unfold State.dropBundle State.brakeLeave
    dsimp only
    split
    · exact modPart_bundles ..
    · rfl
  have h2 : ((s.dropBundle p b).writeRecs p b.lanes).bundles = (s.dropBundle p b).bundles :=
    foldl_keeps State.bundles (fun u l => foldl_keeps State.bundles (fun u x => (State.Recorded.writeTrace u ..).bundles) _ u) _ _
  have h3 : ∀ l (u : State), (u.laneLeaves p l).bundles = u.bundles := by
    intro l u
    unfold State.laneLeaves State.enterTable
    split
    · split
      · split
        · rfl
        · split <;> rfl
      · rfl
    · rfl
  rw [leaveBundle_eq hb ha, State.bundle?, foldl_keeps State.bundles (fun u l => h3 l u), h2, h1]
  simp

/-! The parts of a commit as changes of the ports -/

theorem State.IssueStep.stepSix (s : State) (p : PortId) (r : Nat) (g : Going) : s.IssueStep (s.stepSix p r g) := (State.IssueStep.modThread ..).trans (.modLane ..)

/-- Steps 2 and 3 where no register of the thread is in a poisoned line. -/
theorem issueStep_commitBegin {s : State} {v : View} (hl : v.l.Plain) (ht : s.thread? v.t.r = some v.t) (hb : v.t.badRegs = []) :
    s.IssueStep (s.commitBegin [v]) := by
  rw [commitBegin_steps hl, noteRegs_of_clean ht fun c _ => by simp [hb]]
  refine (((State.IssueStep.modThread s v.t.r v.commitRegs).trans ?_).trans (.modThread ..)).trans (.modLane ..)
  unfold State.noteRec
  split
  · exact .refl _
  · exact .modLane ..

/-- The last acts of a commit in which no lane aborts its node. -/
def State.commitLast (s : State) (p : PortId) : State := ((s.commitAborts p []).modBundle p fun b => { b with counted := 0 }).leaveBundle p

theorem issueStep_commitLast {s : State} {p : PortId} (h : (s.core p.core).trace = none) : s.IssueStep (s.commitLast p) := by
  have h1 : s.IssueStep ((s.commitAborts p []).modBundle p fun b => { b with counted := 0 }) := (State.IssueStep.modBundle ..).trans (.modBundle ..)
  exact h1.trans (.leaveBundle ((h1.trace _).trans h))

/-- Where the lane is over, its bundle leaves the port, and its thread with it. -/
theorem commitLast_ends {s : State} {p : PortId} {b : Bundle} {l : Lane} (hb : s.bundle? p = some b) (hl : b.lanes = [l]) (ha : l.active = false) :
    (s.commitLast p).bundle? p = none ∧ ∀ t, s.thread? l.r = some t → (s.commitLast p).thread? l.r = some (if t.status = .issuing p then t.leaves else t) := by
  have hb1 := bundle?_modBundle_same (bundle?_modBundle_same hb fun b => { b with lanes := b.lanes.map fun l => { l with abort := false } })
    fun b => { b with counted := 0 }
  have hn : (b.lanes.map fun l => { l with abort := false }).any (·.active) = false := by simp [hl, ha]
  refine ⟨leaveBundle_bundle? hb1 hn, fun t ht => ?_⟩
  refine (leaveBundle_thread? hb1 hn ht).trans ?_
  simp [hl]

/-- No run is ended by force where none is failing. -/
theorem endFailing_of_none {s : State} (h : ∀ x ∈ s.runs, x.failing = false) : s.endFailing = s := by
  have hn : (s.runs.filter fun x => x.failing && !x.ended) = [] := List.filter_eq_nil_iff.mpr fun x hx => by simp [h x hx]
  unfold State.endFailing
  rw [hn]
  rfl

theorem abortRuns_of_none {s : State} {p : PortId} {tr : Trace} {l : Lane} {t : Thread} (h : s.LaneAt p tr l t) (ha : l.abort = false) : s.abortRuns p = [] := by
  obtain ⟨b, hb, -, hl⟩ := h.bundle
  simp [State.abortRuns, hb, hl, ha]

end Sys2Proof.Machine
end


section
/-! SUPPORT. The commit of a lane on its last pass (R21, R29). -/

namespace Sys2Proof.Machine

open Sys2Proof

/-! The commit of the one lane of a bundle, from its first step to its last -/

/-- The hypotheses under which the commit of the one lane of a bundle begins. -/
structure State.Commits (s : State) (p : PortId) (v : View) : Prop where
  bundle : ∃ b, s.bundle? p = some b ∧ b.lanes = [v.l]
  view : s.viewOf p v.t.r = some v
  past : v.tr.len < v.l.at_
  issuing : v.t.status = .issuing p
  stage : v.l.stage = 0
  plain : v.l.Plain
  unwatched : s.watchHit v = none
  full : ∀ c ∈ v.indRegs, v.t.isEmpty c = false
  filled : s.fillsWait v = false

namespace State.Commits

variable {s : State} {p : PortId} {v : View} (h : s.Commits p v)
include h

theorem laneAt : s.LaneAt p v.tr v.l v.t := (LaneAt.of_view h.bundle h.view).1
theorem port : v.p = p := (LaneAt.of_view h.bundle h.view).2.1
theorem slot : v.t.r = v.l.r := (LaneAt.of_view h.bundle h.view).2.2

theorem laneAt_closeBanks : (s.closeBanks p).LaneAt p v.tr v.l v.t := by
  obtain ⟨b, hb, ht, hl⟩ := h.laneAt.bundle
  refine ⟨?_, (thread?_congr (closeBanks_threads s p) v.l.r).trans h.laneAt.thread, h.laneAt.active⟩
  have hk : ∃ b', (s.closeBanks p).bundle? p = some b' ∧ b'.trace = b.trace ∧ b'.lanes = b.lanes := by
    unfold State.closeBanks
    simp only [hb]
    split
    · exact ⟨b, hb, rfl, rfl⟩
    · have hm := bundle?_modBundle_same hb fun b => { b with banks := [] }
      split
      · exact ⟨_, hm, rfl, rfl⟩
      · exact ⟨_, (bundle?_congr (by simp) p).trans hm, rfl, rfl⟩
  obtain ⟨b', hb', ht', hl'⟩ := hk
  exact ⟨b', hb', ht'.trans ht, hl'.trans hl⟩

theorem begins : ∃ recs, ((s.closeBanks p).commitBegin [v]).LaneAt p v.tr (v.l.begun recs v.goes) v.begun :=
  commitBegin_laneAt h.laneAt_closeBanks h.port h.plain

/-- The commit up to its last acts, once the stores of the lane, if it has any, have joined their queue. -/
theorem commitStep_eq {w : State} {l : Lane} {t : Thread}
    (hs : ∀ u : View, u.p = p → u.tr = v.tr → (∃ recs, u.l = v.l.begun recs v.goes) → u.t = v.begun → ((s.closeBanks p).commitBegin [v]).commitStores u = (w, true))
    (hw : w.LaneAt p v.tr l t) (hr : l.r = v.l.r) (hst : l.stage = 2) (hh : l.hinge = none) (he : l.engs = []) (hn : l.next = some v.goes)
    (ht : t.status = .issuing p) :
    ∃ u : View, u.p = p ∧ u.l = { l with stage := 3 } ∧ u.tr = v.tr ∧ u.t = t.goTo v.goes ∧ s.commitStep p =
      ((((w.stepSix p v.l.r v.goes).finishLane u v.goes).commitAborts p ((w.stepSix p v.l.r v.goes).abortRuns p)).modBundle p
        fun b => { b with counted := 0 }).leaveBundle p := by
  obtain ⟨recs, hb⟩ := h.begins
  obtain ⟨b, hc⟩ := commitOn_eq hb (fun b => hs _ rfl rfl ⟨recs, rfl⟩ rfl) hw hr hst hh he hn ht
  refine ⟨{ p, b, tr := v.tr, l := { l with stage := 3 }, t := t.goTo v.goes }, rfl, rfl, rfl, rfl, ?_⟩
  rw [commitStep_begins (LaneAt.atCommit h.bundle h.view h.past) h.plain h.stage h.unwatched h.full h.filled, h.slot]
  exact hc

end State.Commits

theorem commits_of_atCommit {s : State} {p : PortId} {v : View} (h : AtCommit s p v) (hf : RegistersFree v) (hw : s.watchHit v = none) :
    s.Commits p v ∧ v.lastPass = true ∧ ∀ x ∈ s.runs, x.failing = false := by
  obtain ⟨hb, hv, hlen, hi, hst, hh, hpo, hg, hpr, hn, hsc, htr, -, -, hlast, hruns⟩ := h
  obtain ⟨-, hres, hheld, hlink, hemp⟩ := hf
  have hlp : v.lastPass = true := by simpa [View.lastPass] using hlast
  have htakes : v.takes = some v.tr.tword.toNat := by simp [View.takes, htr, hlp]
  refine ⟨⟨hb, hv, hlen, hi, hst, ⟨hh, hpo, hg, hpr, hn, hsc, htr⟩, hw, ?_, ?_⟩, hlp, hruns⟩
  · intro c hc
    simp only [View.indRegs, htakes] at hc
    split at hc
    · rename_i hk
      obtain ⟨h1, h2⟩ := hemp hk
      simp only [List.mem_cons, List.not_mem_nil, or_false] at hc
      rcases hc with rfl | rfl
      · exact h1
      · exact h2
    · cases hc
  · have hpair : ∀ k, (k = 2 ∨ k = 3) → tKind v.tr.tword.toNat = k → ∀ c ∈ [tLink v.tr.tword.toNat, tLink v.tr.tword.toNat + 1], v.t.fills.contains c = false := by
      intro k hk hkind c hc
      obtain ⟨h1, h2⟩ := hlink (hkind ▸ hk)
      simp only [List.mem_cons, List.not_mem_nil, or_false] at hc
      rcases hc with rfl | rfl
      · exact h1
      · exact h2
    have hwrites : ∀ c ∈ v.writes, v.t.fills.contains c = false := by
      intro c hc
      simp only [View.writes, htakes, hpo, hingeRegs, hh, List.flatMap_nil, List.append_nil] at hc
      rcases List.mem_append.mp hc with hc | hc
      · obtain ⟨x, hx, rfl⟩ := List.mem_map.mp hc
        exact hheld x hx
      · split at hc
        · rename_i hk
          exact hpair 3 (.inr rfl) hk c hc
        · cases hc
    have hind : ∀ c ∈ v.indRegs, v.t.fills.contains c = false := by
      intro c hc
      simp only [View.indRegs, htakes] at hc
      split at hc
      · rename_i hk
        exact hpair 2 (.inl rfl) hk c hc
      · cases hc
    have htret : s.tretRegs v = [] := by simp [State.tretRegs, htr]
    unfold State.fillsWait
    rw [htret, List.append_nil, List.any_eq_false]
    intro c hc
    rw [Bool.not_eq_true]
    rcases List.mem_append.mp hc with hc | hc
    · rcases List.mem_append.mp hc with hc | hc
      · exact hres c hc
      · exact hwrites c hc
    · exact hind c hc

/-- The state of a commit once its lane, whose thread goes on as told, is over. -/
def State.laneOver (s : State) (p : PortId) (r : Nat) (g : Going) : State := ((s.stepSix p r g).retireOps r).modLane p r Lane.over

theorem issueStep_laneOver (s : State) (p : PortId) (r : Nat) (g : Going) : s.IssueStep (s.laneOver p r g) :=
  ((State.IssueStep.stepSix s p r g).trans (.retireOps ..)).trans (.modLane ..)

/-- Its one lane is inactive, and its thread still stands at the port. -/
theorem laneOver_lane {s : State} {p : PortId} {tr : Trace} {l : Lane} {t : Thread} (h : s.LaneAt p tr l t) (g : Going) :
    (∃ b, (s.laneOver p l.r g).bundle? p = some b ∧ b.lanes = [l.over]) ∧ (s.laneOver p l.r g).thread? l.r = some (t.goTo g) := by
  have h6 := stepSix_laneAt h g
  obtain ⟨b, hb, -, hl⟩ := h6.bundle
  have hb' := bundle?_modLane ((bundle?_congr (retireOps_bundles (s.stepSix p l.r g) l.r) p).trans hb) l.r Lane.over
  refine ⟨⟨_, hb', ?_⟩, (thread?_congr (retireOps_threads ..) l.r).trans h6.thread⟩
  simp [Bundle.modLane, hl, Lane.over, Lane.clear]

/-- The commit of a lane on its last pass that does not abort its node: its thread goes on, ends or halts, and the bundle leaves. -/
theorem commitStep_last {s : State} {p : PortId} {v : View} {w : State} {l : Lane} {t : Thread} (h : s.Commits p v) (hlast : v.lastPass = true)
    (hs : ∀ u : View, u.p = p → u.tr = v.tr → (∃ recs, u.l = v.l.begun recs v.goes) → u.t = v.begun → ((s.closeBanks p).commitBegin [v]).commitStores u = (w, true))
    (hw : w.LaneAt p v.tr l t) (hl : ∃ recs pond, l = { v.l.begun recs v.goes with stage := 2, pond }) (he : l.engs = [])
    (ht : t.status = .issuing p) (hab : v.l.abort = false) :
    (∀ pc, v.goes.dest = .at_ pc → s.commitStep p = (w.laneOver p v.l.r v.goes).commitLast p) ∧
    (v.goes.dest = .exit → s.commitStep p = (((w.laneOver p v.l.r v.goes).traceThread v.l.r 5).exitThread v.l.r).commitLast p) ∧
    (v.goes.dest = .halt → s.commitStep p = ((w.laneOver p v.l.r v.goes).halt v.l.r 5 0).commitLast p) := by
  obtain ⟨recs, pond, hl⟩ := hl
  obtain ⟨u, hup, hul, -, hut, hc⟩ := h.commitStep_eq hs hw (by rw [hl]; rfl) (by rw [hl]) (by rw [hl]; exact h.plain.hinge) he (by rw [hl]; rfl) ht
  have h6 := stepSix_laneAt hw v.goes
  have hr : l.r = v.l.r := by rw [hl]; rfl
  have hur : u.t.r = v.l.r := by rw [hut, ← hr, ← hw.r_eq]; rfl
  rw [hr] at h6
  have hthr : (w.stepSix p v.l.r v.goes).thread? u.t.r = some (t.goTo v.goes) := by
    rw [hur, ← hr]
    exact hr ▸ h6.thread
  have habort : (w.stepSix p v.l.r v.goes).abortRuns p = [] := abortRuns_of_none h6 (by rw [hl]; exact hab)
  have hul' : u.l.hinge = none ∧ u.l.tret = none ∧ u.lastPass = true := by
    unfold View.lastPass at hlast ⊢
    rw [hul, hl]
    exact ⟨h.plain.hinge, h.plain.tret, hlast⟩
  obtain ⟨h1, h2, h3⟩ := finishLane_last (g := v.goes) hup ⟨_, hthr, ht⟩ hul'.1 hul'.2.1 hul'.2.2
  rw [habort] at hc
  rw [hur] at h1 h2 h3
  refine ⟨fun pc hd => ?_, fun hd => ?_, fun hd => ?_⟩
  · rw [hc, h1 pc hd]
    rfl
  · rw [hc, h2 hd]
    rfl
  · rw [hc, h3 hd]
    rfl

end Sys2Proof.Machine
end


section
/-! SUPPORT. A commit that writes results (R21, R28, R29). -/

namespace Sys2Proof.Machine

open Sys2Proof

/-! The registers that a commit leaves (R21, R28, R29) -/

section
variable {v : View} (hl : v.l.Plain) (hlast : v.lastPass = true)
include hl hlast

theorem link_eq (t : Thread) : v.link t = if tKind v.tr.tword.toNat = 3 then t.setPair (tLink v.tr.tword.toNat) v.tr.after else t := by
  simp [View.link, hl.tret, hlast]

omit hlast in
/-- Step 2 links what a thread with the lane's results holds. -/
theorem begun_of_link : ∃ x : Thread, x.regs = (putResults v.l.res v.t).regs ∧ x.empty = (putResults v.l.res v.t).empty ∧ x.badRegs = v.t.badRegs ∧
    v.begun.regs = (v.link x).regs ∧ v.begun.empty = (v.link x).empty := by
  have hput := putResults_regStep v.l.res v.t
  have hr := congrArg Thread.regs (commitRegs_eq hl v.t)
  have he := congrArg Thread.empty (commitRegs_eq hl v.t)
  refine ⟨csrCommit v.l _, ?_, ?_, ?_, hr, he⟩
  · rw [csrCommit_eq]
  · rw [csrCommit_eq]
  · rw [csrCommit_eq]
    exact hput.badRegs

omit hl hlast in
theorem reg_congr {t u : Thread} (h : t.regs = u.regs) (c : Nat) : t.reg c = u.reg c := by simp only [Thread.reg, h]

omit hl hlast in
theorem isEmpty_congr {t u : Thread} (h : t.empty = u.empty) (c : Nat) : t.isEmpty c = u.isEmpty c := by simp only [Thread.isEmpty, h]

/-- The registers after step 2: the lane's results, and for CALL its link. -/
theorem begun_reg (hn : (v.l.res.map (·.code)).Nodup) (hw : sWf v.t.regs = true) (hb : v.t.badRegs = []) {c : Nat} (h0 : 0 < c) (h1 : c < 1016) :
    (tKind v.tr.tword.toNat = 3 ∧ (c = tLink v.tr.tword.toNat ∨ c = tLink v.tr.tword.toNat + 1) →
      v.begun.reg c = BitVec.ofNat 32 (if c = tLink v.tr.tword.toNat then v.tr.after else v.tr.after / 2 ^ 32)) ∧
    (¬(tKind v.tr.tword.toNat = 3 ∧ (c = tLink v.tr.tword.toNat ∨ c = tLink v.tr.tword.toNat + 1)) → v.begun.reg c = laneReg v.l v.t c) := by
  obtain ⟨x, hx, -, hxb, hr, -⟩ := begun_of_link hl
  have hput := reg_putResults hn hw hb h0 h1
  rw [← laneReg_eq_heldReg v.l v.t h1, ← reg_congr hx] at hput
  have hxw : sWf x.regs = true := hx ▸ putResults_wf v.l.res hw
  rw [reg_congr hr, link_eq hl hlast]
  by_cases hk : tKind v.tr.tword.toNat = 3
  · rw [if_pos hk, reg_setPair hxw (hxb.trans hb) _ _ h0 h1]
    refine ⟨fun ⟨_, hc⟩ => ?_, fun hc => ?_⟩
    · by_cases he : c = tLink v.tr.tword.toNat
      · rw [if_pos he, if_pos he]
      · rw [if_neg he, if_pos (hc.resolve_left he), if_neg he]
    · rw [if_neg fun h => hc ⟨hk, .inl h⟩, if_neg fun h => hc ⟨hk, .inr h⟩]
      exact hput
  · rw [if_neg hk]
    exact ⟨fun h => absurd h.1 hk, fun _ => hput⟩

theorem begun_isEmpty (c : Nat) :
    (tKind v.tr.tword.toNat = 3 ∧ (c = tLink v.tr.tword.toNat ∨ c = tLink v.tr.tword.toNat + 1) → v.begun.isEmpty c = false) ∧
    (¬(tKind v.tr.tword.toNat = 3 ∧ (c = tLink v.tr.tword.toNat ∨ c = tLink v.tr.tword.toNat + 1)) →
      v.begun.isEmpty c = (putResults v.l.res v.t).isEmpty c) := by
  obtain ⟨x, -, hx, -, -, hr⟩ := begun_of_link hl
  rw [isEmpty_congr hr, link_eq hl hlast, ← isEmpty_congr hx]
  by_cases hk : tKind v.tr.tword.toNat = 3
  · rw [if_pos hk, isEmpty_setPair]
    refine ⟨fun ⟨_, hc⟩ => ?_, fun hc => ?_⟩
    · rcases hc with rfl | rfl <;> simp
    · have h1 : c ≠ tLink v.tr.tword.toNat := fun h => hc ⟨hk, .inl h⟩
      have h2 : c ≠ tLink v.tr.tword.toNat + 1 := fun h => hc ⟨hk, .inr h⟩
      simp only [h1, h2, ne_eq, not_false_eq_true, decide_true, Bool.true_and]
  · rw [if_neg hk]
    exact ⟨fun h => absurd h.1 hk, fun _ => rfl⟩

end

theorem begun_psel {v : View} (hl : v.l.Plain) (hp : v.l.pselW = none) : v.begun.psel = v.t.psel := by
  have hput : putResults v.l.res v.t = _ := putResults_regStep v.l.res v.t
  have hk (x : Thread) : (v.link x).psel = x.psel := (congrArg Thread.psel (link_regStep v x)).trans rfl
  have hb : v.begun.psel = (v.commitRegs v.t).psel := rfl
  rw [hb, commitRegs_eq hl, hk, csrCommit_eq, hp, hput]
  rfl

/-! A commit without stores -/

theorem watchHit_of_no_stores {s : State} {v : View} (h : v.l.stores = []) : s.watchHit v = none := by
  unfold State.watchHit
  rw [h]
  split
  · rfl
  · exact List.findSome?_eq_none_iff.mpr fun _ _ => rfl

/-- The state at step 6 of a lane without stores. -/
def State.unstored (s : State) (p : PortId) (v : View) : State := ((s.closeBanks p).commitBegin [v]).modLane p v.l.r Lane.queued

namespace State.Commits

variable {s : State} {p : PortId} {v : View} (h : s.Commits p v) (hpond : v.l.pond = [])
include h hpond

theorem unstored_stores (u : View) (hp : u.p = p) (hl : ∃ recs, u.l = v.l.begun recs v.goes) (ht : u.t = v.begun) :
    ((s.closeBanks p).commitBegin [v]).commitStores u = (s.unstored p v, true) := by
  obtain ⟨recs, hl⟩ := hl
  have hst : u.l.stage = 1 := by rw [hl]; rfl
  have hs : u.l.stores = [] := by rw [hl, Lane.stores]; exact (congrArg _ hpond).trans rfl
  rw [commitStores_none _ hst hs, hp, ht, (begun_settles h.plain).r, h.slot]
  rfl

theorem unstored_lane : ∃ recs, (s.unstored p v).LaneAt p v.tr { v.l.begun recs v.goes with stage := 2, pond := [] } v.begun := by
  obtain ⟨recs, hb⟩ := h.begins
  have hq : (v.l.begun recs v.goes).queued = { v.l.begun recs v.goes with stage := 2, pond := [] } := by
    simp [Lane.queued, Lane.begun, hpond]
  exact ⟨recs, hq ▸ hb.modLane Lane.queued rfl hb.active⟩

omit hpond in
theorem issueStep_unstored (hbad : v.t.badRegs = []) : s.IssueStep (s.unstored p v) := by
  have ht := h.laneAt_closeBanks.thread
  rw [← h.slot] at ht
  exact ((State.IssueStep.closeBanks ..).trans (issueStep_commitBegin h.plain ht hbad)).trans (.modLane ..)

end State.Commits

/-- A thread that has gone on and left its port keeps all but its place. -/
theorem goTo_leaves (t : Thread) (g : Going) : (t.goTo g).leaves =
    { t with pc := (t.goTo g).pc, pos := g.pos, cnt := g.cnt, status := (t.goTo g).leaves.status, stepping := (t.goTo g).leaves.stepping } :=
  moved_leaves (t.goTo g)

/-- Where a trace that neither exits nor halts goes on: NEXT, JUMP and CALL, IND (R28). -/
theorem goes_at {v : View} (hlast : v.lastPass = true) (hk : tKind v.tr.tword.toNat < 4) :
    v.goes.pos = 0 ∧ v.goes.cnt = none ∧ ∃ pc, v.goes.dest = .at_ pc ∧ BitVec.ofNat 64 pc =
      (if tKind v.tr.tword.toNat = 0 then BitVec.ofNat 64 v.tr.after
        else if tKind v.tr.tword.toNat = 2 then
          BitVec.ofNat 64 ((v.t.reg (tLink v.tr.tword.toNat)).toNat + 2 ^ 32 * (v.t.reg (tLink v.tr.tword.toNat + 1)).toNat)
        else BitVec.ofInt 64 (v.tr.hAddr + 8 * (BitVec.ofNat 24 v.tr.tword.toNat).toInt)) := by
  have hg : v.goes = { dest := succOf v.tr.succ v.t, pos := 0, cnt := none } := by simp [View.goes, hlast]
  rw [hg]
  refine ⟨rfl, rfl, ?_⟩
  have hw : v.tr.succ.tword = v.tr.tword := rfl
  have h4 : tKind v.tr.tword.toNat = 0 ∨ tKind v.tr.tword.toNat = 2 ∨ (tKind v.tr.tword.toNat = 1 ∨ tKind v.tr.tword.toNat = 3) := by omega
  rcases h4 with h0 | h2 | h13
  · exact ⟨_, succOf_next (hw ▸ h0) v.t, by rw [if_pos h0]; rfl⟩
  · exact ⟨_, succOf_ind (hw ▸ h2) v.t, by rw [if_neg (by omega), if_pos h2]; rfl⟩
  · refine ⟨_, succOf_branch (hw ▸ h13) v.t, ?_⟩
    rw [if_neg (by omega), if_neg (by omega), BitVec.ofNat_toNat, BitVec.setWidth_eq]
    rfl

/-- R21, R28, R29: a commit without stores whose thread goes on. -/
theorem commitWritesResults : CommitWritesResults := by
  intro s p v hat hfree hpond hab htr hnd hwf hkind kind link linked
  obtain ⟨hc, hlast, hruns⟩ := commits_of_atCommit hat hfree (watchHit_of_no_stores (by simp [Lane.stores, hpond]))
  have hbad : v.t.badRegs = [] := hfree.1
  obtain ⟨recs, hlane⟩ := hc.unstored_lane hpond
  have hiss := hc.issueStep_unstored hbad
  have hset := begun_settles hc.plain
  have hstat : v.begun.status = .issuing p := hset.status.trans hc.issuing
  obtain ⟨hgo, -, -⟩ := commitStep_last hc hlast (fun u hp _ hl ht => hc.unstored_stores hpond u hp hl ht) hlane ⟨recs, [], rfl⟩ rfl hstat hab
  obtain ⟨hpos, hcnt, pc, hpc, hpcv⟩ := goes_at hlast hkind
  obtain ⟨⟨b, hb, hbl⟩, hth⟩ := laneOver_lane hlane v.goes
  obtain ⟨hnone, hthr⟩ := commitLast_ends hb hbl rfl
  have hth := hthr _ hth
  rw [if_pos (by exact hstat)] at hth
  have hover := hiss.trans (issueStep_laneOver (s.unstored p v) p v.l.r v.goes)
  have hall : s.IssueStep (s.commitStep p) := by
    rw [hgo pc hpc]
    exact hover.trans (issueStep_commitLast ((hover.trace _).trans htr))
  have hend : exec (.commit p) s = .next (s.commitStep p) :=
    congrArg Host.Outcome.next (endFailing_of_none fun x hx => hruns x (hall.runs ▸ hx))
  have hthread : (s.commitStep p).thread? v.t.r = some (v.begun.goTo v.goes).leaves := by
    rw [hgo pc hpc, hc.slot]
    exact hth
  have hlv := goTo_leaves v.begun v.goes
  have hregs : (v.begun.goTo v.goes).leaves.regs = v.begun.regs := (congrArg Thread.regs hlv).trans rfl
  have hemps : (v.begun.goTo v.goes).leaves.empty = v.begun.empty := (congrArg Thread.empty hlv).trans rfl
  refine ⟨_, _, hend, hthread, hall.mem, hall.groups, hall.oplog, hall.blocks, by rw [hgo pc hpc]; exact hnone, ?_, ?_, ?_, ?_, ?_, ?_, ?_, ?_, ?_, ?_, ?_, ?_, ?_⟩
  · intro c h0 h1 hc'
    exact (reg_congr hregs c).trans ((begun_reg hc.plain hlast hnd hwf hbad h0 h1).2 hc')
  · intro h hm h0 hc'
    exact (isEmpty_congr hemps _).trans (((begun_isEmpty hc.plain hlast _).2 hc').trans (isEmpty_putResults v.t hnd hm h0))
  · intro c hn hc'
    exact (isEmpty_congr hemps _).trans (((begun_isEmpty hc.plain hlast _).2 hc').trans (isEmpty_putResults_other _ _ hn))
  · intro c h0 h1 hc'
    exact ⟨(isEmpty_congr hemps _).trans ((begun_isEmpty hc.plain hlast _).1 hc'), (reg_congr hregs c).trans ((begun_reg hc.plain hlast hnd hwf hbad h0 h1).1 hc')⟩
  · exact (congrArg Thread.flg hlv).trans rfl
  · exact (congrArg Thread.pos hlv).trans hpos
  · exact (congrArg Thread.cnt hlv).trans hcnt
  · refine (congrArg Thread.pc hlv).trans (Eq.trans ?_ hpcv)
    simp only [Thread.goTo, hpc]
  · exact (congrArg Thread.m0 hlv).trans hset.m0
  · exact (congrArg Thread.m1 hlv).trans hset.m1
  · exact (congrArg Thread.m2 hlv).trans hset.m2
  · exact (congrArg Thread.m3 hlv).trans hset.m3
  · refine (congrArg Thread.psel hlv).trans (begun_psel hc.plain ?_)
    obtain ⟨-, -, -, -, -, -, -, -, -, -, -, -, -, hps, -⟩ := hat
    exact hps

end Sys2Proof.Machine
end


section
/-! SUPPORT. A commit that exits or halts (R29, R327). -/

namespace Sys2Proof.Machine

open Sys2Proof

/-! A commit that ends or halts its thread (R29, R327) -/

/-- The last acts of a commit add nothing. -/
theorem commitLast_drifts (s : State) (p : PortId) : s.Drifts (s.commitLast p) := by
  have h1 : s.Drifts (s.commitAborts p []) := .modBundle s p _ (fun _ => rfl) fun b l hl ha => by
    obtain ⟨k, hk, rfl⟩ := List.mem_map.mp hl
    exact ⟨k, hk, ha, rfl, rfl⟩
  have h2 : (s.commitAborts p []).Drifts ((s.commitAborts p []).modBundle p fun b => { b with counted := 0 }) :=
    .modBundle _ p _ (fun _ => rfl) fun b l hl ha => ⟨l, hl, ha, rfl, rfl⟩
  exact (h1.trans h2).trans (.leaveBundle ..)

/-- An event leaves the ports, the cores and the runs alone. -/
theorem event_frame (s : State) (ctx kind node arg0 arg1 : Nat) :
    (s.event ctx kind node arg0 arg1).bundles = s.bundles ∧ (s.event ctx kind node arg0 arg1).cores = s.cores ∧
      (s.event ctx kind node arg0 arg1).runs = s.runs := by
  unfold State.event
  split
  · exact ⟨rfl, rfl, rfl⟩
  · dsimp only
    split
    · exact ⟨rfl, rfl, rfl⟩
    · split
      · rename_i h
        have hs := State.Stored.writeCtx h
        exact ⟨hs.bundles, hs.cores, hs.runs⟩
      · exact ⟨rfl, rfl, rfl⟩

theorem goes_exit {v : View} (hlast : v.lastPass = true) (hk : tKind v.tr.tword.toNat = 4) : v.goes = { dest := .exit, pos := 0, cnt := none } := by
  have hw : v.tr.succ.tword = v.tr.tword := rfl
  simp [View.goes, hlast, succOf_exit (hw ▸ hk)]

theorem goes_halt {v : View} (hlast : v.lastPass = true) (hk : tKind v.tr.tword.toNat = 5) : v.goes = { dest := .halt, pos := 0, cnt := none } := by
  have hw : v.tr.succ.tword = v.tr.tword := rfl
  simp [View.goes, hlast, succOf_halt (hw ▸ hk.ge)]

theorem run?_congr {s t : State} (h : t.runs = s.runs) (k : Nat) : t.run? k = s.run? k := by simp only [State.run?, h]

theorem goTo_mem (t : Thread) (g : Going) (m : Nat) : (t.goTo g).mem m = t.mem m := by
  unfold Thread.mem
  split <;> rfl

/-- The one lane of a bundle at its commit is over, its thread still at the port. -/
theorem over_of_commits {s : State} {p : PortId} {v : View} (hc : s.Commits p v) (hlast : v.lastPass = true) (hpond : v.l.pond = []) (hab : v.l.abort = false)
    (hbad : v.t.badRegs = []) : ∃ y : State, s.IssueStep y ∧ (∃ b l, y.bundle? p = some b ∧ b.lanes = [l] ∧ l.active = false ∧ l.r = v.l.r) ∧
      y.thread? v.l.r = some (v.begun.goTo v.goes) ∧
      (v.goes.dest = .exit → s.commitStep p = ((y.traceThread v.l.r 5).exitThread v.l.r).commitLast p) ∧
      (v.goes.dest = .halt → s.commitStep p = (y.halt v.l.r 5 0).commitLast p) := by
  obtain ⟨recs, hlane⟩ := hc.unstored_lane hpond
  have hstat : v.begun.status = .issuing p := (begun_settles hc.plain).status.trans hc.issuing
  obtain ⟨-, hexit, hhalt⟩ := commitStep_last hc hlast (fun u hp _ hl ht => hc.unstored_stores hpond u hp hl ht) hlane ⟨recs, [], rfl⟩ rfl hstat hab
  obtain ⟨⟨b, hb, hbl⟩, hth⟩ := laneOver_lane hlane v.goes
  exact ⟨_, (hc.issueStep_unstored hbad).trans (issueStep_laneOver (s.unstored p v) p v.l.r v.goes), ⟨b, _, hb, hbl, rfl, rfl⟩, hth, hexit, hhalt⟩

/-- A thread that exits at the end of a commit. -/
theorem exit_ends {y : State} {p : PortId} {r : Nat} {t : Thread} {x : Run} (ht : y.thread? r = some t) (hx : y.run? t.run = some x)
    (hf : ∀ x ∈ y.runs, x.failing = false) :
    let u := ((y.traceThread r 5).exitThread r).commitLast p
    u.thread? r = none ∧ (∃ z, u.run? t.run = some z ∧ z.exited = x.exited + 1) ∧ (∀ m < 4, ∀ k, t.mem m = some k → u.NotIn r k.gid) ∧
      ∀ x ∈ u.runs, x.failing = false := by
  intro u
  have hd5 : y.Drifts (y.traceThread r 5) := .traceThread ..
  obtain ⟨e, hde, hgone, hnot, hex⟩ := exitThread_ends ((thread?_congr (traceThread_threads y r 5) r).trans ht)
  have hdl : (e.modRun t.run fun x => { x with exited := x.exited + 1 }).Drifts u := by
    unfold u
    rw [hex]
    exact commitLast_drifts ..
  have hdy := hd5.trans hde
  obtain ⟨x1, hx1, hn1⟩ := hdy.runs _ x hx
  have hx2 : (e.modRun t.run fun x => { x with exited := x.exited + 1 }).run? t.run = some { x1 with exited := x1.exited + 1 } := by
    rw [run?_modRun e t.run (fun x => { x with exited := x.exited + 1 }) fun _ => rfl, hx1, Option.map_some, if_pos (run?_id hx1)]
  obtain ⟨z, hz, hn2⟩ := hdl.runs _ _ hx2
  refine ⟨hdl.thread?_none hgone, ⟨z, hz, by rw [hn2.exited, hn1.exited]⟩, fun m hm k hk => hdl.notIn (s := e.modRun t.run _) (hnot m hm k hk), fun w hw => ?_⟩
  obtain ⟨w1, hw1, hnw⟩ := hdl.runList w hw
  obtain ⟨w2, hw2, rfl⟩ := List.mem_map.mp hw1
  obtain ⟨w3, hw3, hnw3⟩ := hdy.runList w2 hw2
  rw [hnw.failing]
  split
  · exact hnw3.failing.trans (hf w3 hw3)
  · exact hnw3.failing.trans (hf w3 hw3)

/-- R29, R327: EXIT and HALT. -/
theorem commitEnds : CommitEnds := by
  intro s p v x hat hfree hpond hab htr hx
  obtain ⟨hc, hlast, hruns⟩ := commits_of_atCommit hat hfree (watchHit_of_no_stores (by simp [Lane.stores, hpond]))
  have hset := begun_settles hc.plain
  obtain ⟨y, hy, ⟨b, l, hb, hbl, hla, hlr⟩, hth, hexit, hhalt⟩ := over_of_commits hc hlast hpond hab hfree.1
  have hyf : ∀ x ∈ y.runs, x.failing = false := fun x hx => hruns x (hy.runs ▸ hx)
  refine ⟨fun hk => ?_, fun hnd hwf hk => ?_⟩
  · have hrun : (v.begun.goTo v.goes).run = v.t.run := hset.run
    have hxy : y.run? (v.begun.goTo v.goes).run = some x := by rw [hrun, run?_congr hy.runs, hx]
    obtain ⟨hgone, ⟨z, hz, hze⟩, hnot, hf⟩ := exit_ends (p := p) hth hxy hyf
    rw [← hexit (by rw [goes_exit hlast hk])] at hgone hz hnot hf
    rw [hrun] at hz
    refine ⟨_, z, congrArg Host.Outcome.next (endFailing_of_none hf), by rw [hc.slot]; exact hgone, hz, hze, fun m hm k hmk g hg q hq => ?_⟩
    have hid : g.gid = k.gid := by simpa using List.find?_some hg
    rw [hc.slot]
    exact hnot m hm k ((goTo_mem ..).trans ((hset.mem m).trans hmk)) g (List.mem_of_find?_eq_some hg) hid q hq
  · have hg := goes_halt hlast hk
    have hstat : (v.begun.goTo v.goes).status = .issuing p := hset.status.trans hc.issuing
    have hhalted : y.halt v.l.r 5 0 = (y.modThread v.l.r fun t => { t with status := .halted, stepping := false }).event v.t.ctx 5 (s.nodeNo v.t.run) v.t.tag 0 := by
      have h1 : (v.begun.goTo v.goes).run = v.t.run := hset.run
      have h2 : (v.begun.goTo v.goes).ctx = v.t.ctx := hset.ctx
      have h3 : (v.begun.goTo v.goes).tag = v.t.tag := hset.tag
      have h4 : y.nodeNo v.t.run = s.nodeNo v.t.run := by simp only [State.nodeNo, run?_congr hy.runs]
      unfold State.halt
      simp only [hth, hstat, Status.parked, Bool.false_eq_true, if_false, h1, h2, h3, h4]
    have hstep := hhalt (by rw [hg])
    rw [hhalted] at hstep
    obtain ⟨heb, hec, her⟩ := event_frame (y.modThread v.l.r fun t => { t with status := .halted, stepping := false }) v.t.ctx 5 (s.nodeNo v.t.run) v.t.tag 0
    have heth := (thread?_congr (State.SameControl.event (y.modThread v.l.r fun t => { t with status := .halted, stepping := false }) v.t.ctx 5
      (s.nodeNo v.t.run) v.t.tag 0).threads v.l.r).trans (thread?_modThread_same hth fun t => { t with status := .halted, stepping := false })
    have hwy : s.IssueStep (y.modThread v.l.r fun t => { t with status := .halted, stepping := false }) := hy.trans (.modThread ..)
    have hwb : (y.modThread v.l.r fun t => { t with status := .halted, stepping := false }).bundle? p = some b := hb
    generalize y.modThread v.l.r (fun t => { t with status := .halted, stepping := false }) = w at hstep heb hec her heth hwy hwb
    have hel : (w.event v.t.ctx 5 (s.nodeNo v.t.run) v.t.tag 0).bundle? p = some b := (bundle?_congr heb p).trans hwb
    obtain ⟨-, hlast'⟩ := commitLast_ends hel hbl hla
    rw [hlr] at hlast'
    have hfin := hlast' _ heth
    rw [if_neg (by nofun)] at hfin
    have hissue : (w.event v.t.ctx 5 (s.nodeNo v.t.run) v.t.tag 0).IssueStep (s.commitStep p) := by
      rw [hstep]
      refine issueStep_commitLast ?_
      rw [State.core, hec]
      exact (hwy.trace _).trans (htr _)
    have hend : exec (.commit p) s = .next (s.commitStep p) :=
      congrArg Host.Outcome.next (endFailing_of_none fun x hx => hruns x (by rw [hissue.runs, her, hwy.runs] at hx; exact hx))
    refine ⟨_, w, _, hend, by rw [hc.slot, hstep]; exact hfin, rfl, ?_, ?_, ?_, ?_, hwy.mem, hwy.clk, hwy.contexts, hissue.mem⟩
    · simp only [Thread.goTo, hg]
      exact hset.pc
    · simp only [Thread.goTo, hg]
    · exact fun c h0 h1 => (begun_reg hc.plain hlast hnd hwf hfree.1 h0 h1).2 fun h => by omega
    · rfl

end Sys2Proof.Machine
end


section
/-! SUPPORT. Stores that join their queue at a commit (R21, R162). -/

namespace Sys2Proof.Machine

open Sys2Proof

/-! The stores of a lane that commits join the queue of its partition (R21, R162, R305) -/

/-- The stores of a pond as they join the queue: with K and home of the thread's home group, as releases by their ordering or behind a release fence. -/
def View.queuedStores (v : View) (k : Nat) : List Store :=
  v.l.stores.map fun st => { st with kclk := k, home := v.t.homeGid, rel := v.t.relall || st.ord.releases }

/-- An sc store holds the thread's next trace (R163). -/
def View.holds (v : View) (t : Thread) : Thread := if v.l.stores.any (·.ord == .sc) then { t with hold := { t.hold with drain := true } } else t

theorem queueEntries_queuedStores (v : View) (k : Nat) : queueEntries (v.queuedStores k) = queueEntries v.l.stores := by
  unfold queueEntries View.queuedStores
  simp only [List.foldl_map, List.filter_map, List.map_map]
  rfl

theorem modThread_id (s : State) (r : Nat) : s.modThread r id = s := by
  have h : (fun t : Thread => if t.r = r then id t else t) = id := funext fun t => ite_self t
  rw [State.modThread, h, List.map_id]

/-- A block of stores joins the queue of its thread's partition, and an sc store in it holds the thread. -/
def State.queueBlock (s : State) (u : View) : State :=
  State.modThread { s with blocks := s.blocks ++ [{ core := coreOfSlot u.t.r, part := partOfSlot u.t.r, r := u.t.r, stores := u.queuedStores (s.clockOf u.t.homeGid) }] }
    u.t.r u.holds

/-- Step 4 of a lane none of whose thread's loads is outstanding, where the queue has room. -/
theorem commitStores_some {s : State} {u : View} (hst : u.l.stage = 1) (hne : u.l.stores ≠ []) (ho : s.outstanding u.t.r = []) (hsc : u.l.scReads = [])
    (hroom : s.queueUsed (coreOfSlot u.t.r) (partOfSlot u.t.r) + queueEntries u.l.stores ≤ Config.storeQueue) :
    s.commitStores u = ((s.queueBlock u).modLane u.p u.t.r Lane.queued, true) := by
  have h1 : ¬2 ≤ u.l.stage := by omega
  have h2 : (u.queuedStores (s.clockOf u.t.homeGid)).isEmpty = false := by simpa [View.queuedStores] using hne
  have h3 : ¬Config.storeQueue < s.queueUsed (coreOfSlot u.t.r) (partOfSlot u.t.r) + queueEntries (u.queuedStores (s.clockOf u.t.homeGid)) := by
    rw [queueEntries_queuedStores]
    omega
  have h4 : s.translateLog u.t = s := by simp [State.translateLog, ho]
  have h5 : s.walkWaits u.t.r = false := by simp [State.walkWaits, ho]
  have h6 (mine : List Nat) (l : List Store) : s.loadsBefore u.t mine l = s := by simp [State.loadsBefore, ho]
  have h7 (n : Nat) : s.performLog u.t n = s := by simp [State.performLog, ho, State.performInOrder]
  have h8 : (u.queuedStores (s.clockOf u.t.homeGid)).any (·.ord == .sc) = u.l.stores.any (·.ord == .sc) := by simp [View.queuedStores, Function.comp_def]
  have h9 (w : State) : (if u.l.stores.any (·.ord == .sc) then w.modThread u.t.r fun t => { t with hold := { t.hold with drain := true } } else w) =
      w.modThread u.t.r u.holds := by
    split
    · rename_i h
      have : u.holds = fun t => { t with hold := { t.hold with drain := true } } := funext fun t => by rw [View.holds, if_pos h]
      rw [this]
    · rename_i h
      have : u.holds = id := funext fun t => by rw [View.holds, if_neg h]; rfl
      rw [this, modThread_id]
  unfold State.commitStores
  rw [if_neg h1]
  extract_lets k stores done core part mine s1 s2 s3 s4 s5
  have hs3 : s3 = s := by
    unfold s3 s2 s1
    rw [h4, h6]
    split
    · exact h7 _
    · rfl
  have hs5 : s5 = s.queueBlock u := by
    unfold s5 s4
    rw [hs3]
    exact (if_congr (by rw [← h8]; rfl) rfl rfl).trans (h9 _)
  have hs1 : s1 = s := h4
  rw [if_neg (by rw [show stores.isEmpty = false from h2]; exact Bool.false_ne_true),
    if_neg (show ¬Config.storeQueue < s.queueUsed core part + queueEntries stores from h3), hs1, if_neg (by rw [h5]; exact Bool.false_ne_true), hs5,
    if_pos (by rw [hsc]; rfl)]

theorem holds_settles (u : View) (t : Thread) : u.holds t = { t with hold := (u.holds t).hold } ∧
    (u.holds t).hold.drain = (t.hold.drain || u.l.stores.any (·.ord == .sc)) := by
  unfold View.holds
  split
  · rename_i h
    exact ⟨rfl, by rw [h, Bool.or_true]⟩
  · rename_i h
    exact ⟨rfl, by rw [Bool.eq_false_iff.mpr h, Bool.or_false]⟩

/-- R21, R162, R305: the block of a lane's stores. -/
theorem commitQueuesStores : CommitQueuesStores := by
  intro s p v hat hfree heng hst hab htr hkind hout hwatch core part hroom
  obtain ⟨hc, hlast, hruns⟩ := commits_of_atCommit hat hfree hwatch
  have hbad : v.t.badRegs = [] := hfree.1
  have hset := begun_settles hc.plain
  have hstat : v.begun.status = .issuing p := hset.status.trans hc.issuing
  obtain ⟨recs, hlane⟩ := hc.begins
  have ht := hc.laneAt_closeBanks.thread
  rw [← hc.slot] at ht
  have hiss : s.IssueStep ((s.closeBanks p).commitBegin [v]) := (State.IssueStep.closeBanks ..).trans (issueStep_commitBegin hc.plain ht hbad)
  have hho : s.outstanding v.t.r = [] := hout
  generalize hu0 : (s.closeBanks p).commitBegin [v] = u0 at hlane hiss
  have hclk (k : Nat) : u0.clockOf k = s.clockOf k := by simp only [State.clockOf, State.group?, hiss.groups]
  have hou : u0.outstanding v.t.r = [] := by
    rw [State.outstanding, hiss.oplog]
    exact hho
  have hroom' : u0.queueUsed (coreOfSlot v.t.r) (partOfSlot v.t.r) + queueEntries v.l.stores ≤ Config.storeQueue := by
    rw [State.queueUsed, hiss.blocks]
    exact hroom
  have hstores (u : View) (hp : u.p = p) (hl : ∃ recs, u.l = v.l.begun recs v.goes) (hut : u.t = v.begun) :
      u0.commitStores u = ((u0.queueBlock v).modLane p v.l.r Lane.queued, true) := by
    obtain ⟨recs', hl⟩ := hl
    have hls : u.l.stores = v.l.stores := by rw [hl]; rfl
    have hur : u.t.r = v.t.r := by rw [hut, hset.r]
    have hq : u0.queueBlock u = u0.queueBlock v := by
      have hh : u.holds = v.holds := funext fun t => by simp only [View.holds, hls]
      have hb (k : Nat) : u.queuedStores k = v.queuedStores k := by simp only [View.queuedStores, hls, hut, hset.homeGid, hset.relall]
      have hg : u.t.homeGid = v.t.homeGid := by rw [hut, hset.homeGid]
      simp only [State.queueBlock, hh, hb, hg, hur]
    rw [commitStores_some (by rw [hl]; rfl) (by rwa [hls]) (by rwa [hur]) (by rw [hl]; exact hc.plain.scReads) (by rwa [hur, hls]), hq, hp, hur, hc.slot]
  have hw : ((u0.queueBlock v).modLane p v.l.r Lane.queued).LaneAt p v.tr { v.l.begun recs v.goes with stage := 2, pond := (v.l.begun recs v.goes).queued.pond }
      (v.holds v.begun) := by
    have h1 : State.LaneAt { u0 with blocks := u0.blocks ++ [{ core := coreOfSlot v.t.r, part := partOfSlot v.t.r, r := v.t.r, stores := v.queuedStores (u0.clockOf v.t.homeGid) }] }
        p v.tr (v.l.begun recs v.goes) v.begun := ⟨hlane.bundle, hlane.thread, hlane.active⟩
    have h2 := (h1.modThread v.holds fun t => by rw [(holds_settles v t).1]).modLane Lane.queued rfl hlane.active
    rw [State.queueBlock, hc.slot]
    rw [hc.slot] at h2
    exact h2
  have hheld : (v.holds v.begun).status = .issuing p := by rw [(holds_settles v v.begun).1]; exact hstat
  have hengs : ({ v.l.begun recs v.goes with stage := 2, pond := (v.l.begun recs v.goes).queued.pond } : Lane).engs = [] := by
    refine List.filterMap_eq_nil_iff.mpr fun e he => ?_
    exact List.filterMap_eq_nil_iff.mp heng e (List.mem_filter.mp he).1
  obtain ⟨hgo, -, -⟩ := commitStep_last hc hlast (fun u hp _ hl hut => by rw [hu0]; exact hstores u hp hl hut) hw ⟨recs, _, rfl⟩ hengs hheld hab
  obtain ⟨-, -, pc, hpc, -⟩ := goes_at hlast (by omega)
  obtain ⟨⟨b, hb, hbl⟩, hth⟩ := laneOver_lane hw v.goes
  obtain ⟨-, hthr⟩ := commitLast_ends hb hbl rfl
  have hth := hthr _ hth
  rw [if_pos (by exact hheld)] at hth
  have hu1 : State.IssueStep { u0 with blocks := u0.blocks ++ [{ core := coreOfSlot v.t.r, part := partOfSlot v.t.r, r := v.t.r, stores := v.queuedStores (u0.clockOf v.t.homeGid) }] }
      (((u0.queueBlock v).modLane p v.l.r Lane.queued).laneOver p v.l.r v.goes) :=
    ((State.IssueStep.modThread _ v.t.r v.holds).trans (.modLane ..)).trans (issueStep_laneOver ..)
  have hfin := hu1.trans (issueStep_commitLast (p := p) ((hu1.trace _).trans ((hiss.trace _).trans htr)))
  have hfin' := hfin
  rw [← hgo pc hpc] at hfin'
  have hend : exec (.commit p) s = .next (s.commitStep p) :=
    congrArg Host.Outcome.next (endFailing_of_none fun x hx => hruns x (by rw [hfin'.runs] at hx; exact hiss.runs ▸ hx))
  refine ⟨_, (v.holds v.begun |>.goTo v.goes).leaves, hend, hfin'.mem.trans hiss.mem, hfin'.out.trans hiss.out, hfin'.groups.trans hiss.groups,
    hfin'.oplog.trans hiss.oplog, ?_, ?_, ?_⟩
  · rw [hfin'.blocks, hclk]
    exact congrArg (· ++ _) hiss.blocks
  · rw [hgo pc hpc, hc.slot]
    exact hth
  · have hd : ((v.holds v.begun).goTo v.goes).leaves.hold = (v.holds v.begun).hold := (congrArg Thread.hold (goTo_leaves ..)).trans rfl
    rw [hd, (holds_settles v v.begun).2, hset.hold]

end Sys2Proof.Machine
end


section
/-! SUPPORT. A commit that aborts its node (R192, R341, R346). -/

namespace Sys2Proof.Machine

open Sys2Proof

/-! Runs that are ended by force (R192, R341, R346) -/

/-- A run that has gone on: it stays ended, and a CIR bit stays set. -/
structure Run.Grown (x y : Run) : Prop where
  ended : x.ended = true → y.ended = true
  cir : ∀ i, x.cir.getLsbD i = true → y.cir.getLsbD i = true

theorem Run.Noted.grown {x y : Run} (h : x.Noted y) : x.Grown y := ⟨fun he => h.ended.trans he, h.cir⟩

/-- Every run is still there, and has gone on. -/
def State.RunsGrow (s t : State) : Prop := ∀ k x, s.run? k = some x → ∃ y, t.run? k = some y ∧ x.Grown y

namespace State.RunsGrow

theorem refl (s : State) : s.RunsGrow s := fun _ x h => ⟨x, h, fun h => h, fun _ h => h⟩

theorem trans {s t u : State} (a : s.RunsGrow t) (b : t.RunsGrow u) : s.RunsGrow u := fun k x h => by
  obtain ⟨y, hy, hxy⟩ := a k x h
  obtain ⟨z, hz, hyz⟩ := b k y hy
  exact ⟨z, hz, fun he => hyz.ended (hxy.ended he), fun i hi => hyz.cir i (hxy.cir i hi)⟩

theorem foldl {α : Type} {f : State → α → State} (hf : ∀ (s : State) a, s.RunsGrow (f s a)) (l : List α) (s : State) : s.RunsGrow (l.foldl f s) := by
  induction l generalizing s with
  | nil => exact refl s
  | cons a l ih => exact (hf s a).trans (ih _)

theorem of_drifts {s t : State} (h : s.Drifts t) : s.RunsGrow t := fun k x hx => (h.runs k x hx).imp fun _ hy => ⟨hy.1, hy.2.grown⟩

theorem of_runs {s t : State} (h : t.runs = s.runs) : s.RunsGrow t := fun k x hx => ⟨x, by rw [run?_congr h, hx], fun h => h, fun _ h => h⟩

theorem modRun (s : State) (k : Nat) (f : Run → Run) (hi : ∀ x, (f x).id = x.id) (hf : ∀ x, Run.Grown x (f x)) :
    s.RunsGrow (s.modRun k f) := fun j x hx => by
  refine ⟨_, by rw [run?_modRun s k f hi, hx, Option.map_some], ?_⟩
  split
  · exact hf x
  · exact ⟨fun h => h, fun _ h => h⟩

theorem exitThread (s : State) (r : Nat) : s.RunsGrow (s.exitThread r) := by
  cases ht : s.thread? r with
  | none =>
    have he : s.exitThread r = s := by simp only [State.exitThread, ht]
    rw [he]
    exact refl s
  | some t =>
    obtain ⟨u, hd, -, -, he⟩ := exitThread_ends ht
    rw [he]
    exact (of_drifts hd).trans (modRun _ _ (fun x => { x with exited := x.exited + 1 }) (fun _ => rfl) fun _ => ⟨fun h => h, fun _ h => h⟩)

end State.RunsGrow

theorem abandonRun_drifts (s : State) (run : Nat) : s.Drifts (s.abandonRun run) :=
  State.Drifts.foldl (fun u (b : Bundle) => State.Drifts.foldl (f := fun (u : State) (l : Lane) => u.abandon b.p l.r)
    (fun u (l : Lane) => State.Drifts.discard u b.p l.r true) _ u) _ s

theorem leaveBundles_drifts (l : List Bundle) (s : State) : s.Drifts (l.foldl (fun (s : State) b => s.leaveBundle b.p) s) :=
  State.Drifts.foldl (f := fun (s : State) b => s.leaveBundle b.p) (fun s b => .leaveBundle s b.p) l s

/-- A run that ends now has ended, and keeps its CIR; every other has gone on. -/
theorem endRunNow_ends (s : State) (run : Nat) : s.RunsGrow (s.endRunNow run) ∧
    ∀ x, s.run? run = some x → ∃ y, (s.endRunNow run).run? run = some y ∧ x.Grown y ∧ y.ended = true := by
  unfold State.endRunNow
  extract_lets rs s1 s2
  have h1 : s.RunsGrow s1 := State.RunsGrow.foldl .exitThread rs s
  have h2 : s1.RunsGrow s2 := .of_runs rfl
  have h3 := (h1.trans h2).trans (.of_drifts (leaveBundles_drifts s2.bundles s2))
  generalize s2.bundles.foldl (fun (s : State) b => s.leaveBundle b.p) s2 = s3 at h3
  have h4 : s3.RunsGrow ((s3.modRun run fun x => { x with ended := true, failing := false }).freeGroups) :=
    (State.RunsGrow.modRun s3 run (fun x => { x with ended := true, failing := false }) (fun _ => rfl) fun _ => ⟨fun _ => rfl, fun _ h => h⟩).trans
      (.of_drifts (.freeGroups _))
  refine ⟨h3.trans h4, fun x hx => ?_⟩
  obtain ⟨y, hy, hxy⟩ := h3 run x hx
  have hz : (s3.modRun run fun x => { x with ended := true, failing := false }).run? run = some { y with ended := true, failing := false } := by
    rw [run?_modRun s3 run (fun x => { x with ended := true, failing := false }) fun _ => rfl, hy, Option.map_some, if_pos (run?_id hy)]
  exact ⟨_, hz, ⟨fun _ => rfl, hxy.cir⟩, rfl⟩

theorem endRun_grows (s : State) (run : Nat) : s.RunsGrow (s.endRun run) := by
  have ha := State.RunsGrow.of_drifts (abandonRun_drifts s run)
  unfold State.endRun
  dsimp only
  split
  · exact (ha.trans (.of_drifts (leaveBundles_drifts ..))).trans
      (.modRun _ run (fun x => { x with failing := true }) (fun _ => rfl) fun _ => ⟨fun h => h, fun _ h => h⟩)
  · exact ha.trans (endRunNow_ends ..).1

theorem endFailing_grows (s : State) : s.RunsGrow s.endFailing :=
  State.RunsGrow.foldl (f := fun (s : State) (x : Run) => s.endRun x.id) (fun s x => endRun_grows s x.id) _ s

/-- No active lane is past the first step of its commit. -/
def State.NoneCommits (s : State) : Prop := ∀ q r n, s.LaneOn q r n → n = 0

/-- None but those of one slot at one port. -/
def State.NoOtherCommits (s : State) (p : PortId) (r : Nat) : Prop := ∀ q k n, s.LaneOn q k n → n = 0 ∨ q = p ∧ k = r

theorem State.Drifts.noneCommits {s t : State} (h : s.Drifts t) (hs : s.NoneCommits) : t.NoneCommits := fun q r n hl => hs q r n (h.lanes q r n hl)

theorem State.Drifts.noOtherCommits {s t : State} (h : s.Drifts t) {p : PortId} {r : Nat} (hs : s.NoOtherCommits p r) : t.NoOtherCommits p r :=
  fun q k n hl => hs q k n (h.lanes q k n hl)

/-- A lane that is on where one slot's lane has been changed stands at another place, or is that lane. -/
theorem laneOn_modLane {s : State} {p q : PortId} {r k n : Nat} {f : Lane → Lane} (hf : ∀ l, (f l).r = l.r) (h : (s.modLane p r f).LaneOn q k n) :
    (s.LaneOn q k n ∧ ¬(q = p ∧ k = r)) ∨ q = p ∧ k = r ∧ ∃ l : Lane, (f l).stage = n := by
  obtain ⟨b', hb, hbp, l', hl, ha, hr, hs⟩ := h
  obtain ⟨b, hm, rfl⟩ := List.mem_map.mp hb
  split at hbp
  · rename_i hp
    rw [if_pos hp] at hl
    obtain ⟨l, hlm, rfl⟩ := List.mem_map.mp hl
    split at ha
    · rename_i hlr
      rw [if_pos hlr] at hr hs
      exact .inr ⟨hbp.symm.trans hp, hr.symm.trans ((hf l).trans hlr), l, hs⟩
    · rename_i hlr
      rw [if_neg hlr] at hr hs
      exact .inl ⟨⟨b, hm, hbp, l, hlm, ha, hr, hs⟩, fun e => hlr (hr.trans e.2)⟩
  · rename_i hp
    rw [if_neg hp] at hl
    exact .inl ⟨⟨b, hm, hbp, l', hl, ha, hr, hs⟩, fun e => hp (hbp.trans e.1)⟩

theorem State.NoOtherCommits.modLane {s : State} {p : PortId} {r : Nat} (h : s.NoOtherCommits p r) (f : Lane → Lane) (hf : ∀ l, (f l).r = l.r) :
    (s.modLane p r f).NoOtherCommits p r := fun q k n hl => by
  rcases laneOn_modLane hf hl with ⟨hl, -⟩ | ⟨hq, hk, -⟩
  · exact h q k n hl
  · exact .inr ⟨hq, hk⟩

/-- Once that lane is at no later step either, none is. -/
theorem State.NoOtherCommits.ends {s : State} {p : PortId} {r : Nat} (h : s.NoOtherCommits p r) (f : Lane → Lane) (hf : ∀ l, (f l).r = l.r)
    (h0 : ∀ l, (f l).stage = 0) : (s.modLane p r f).NoneCommits := fun q k n hl => by
  rcases laneOn_modLane hf hl with ⟨hl, hne⟩ | ⟨-, -, l, hs⟩
  · exact (h q k n hl).resolve_right hne
  · exact hs.symm.trans (h0 l)

/-- The lanes that are on were on before, and every run has gone on. -/
structure State.GoesOn (s t : State) : Prop where
  lanes : ∀ p r n, t.LaneOn p r n → s.LaneOn p r n
  runs : s.RunsGrow t

namespace State.GoesOn

theorem of_drifts {s t : State} (h : s.Drifts t) : s.GoesOn t := ⟨h.lanes, .of_drifts h⟩

theorem trans {s t u : State} (a : s.GoesOn t) (b : t.GoesOn u) : s.GoesOn u := ⟨fun p r n h => a.lanes p r n (b.lanes p r n h), a.runs.trans b.runs⟩

theorem exitThread (s : State) (r : Nat) : s.GoesOn (s.exitThread r) := by
  refine ⟨fun p k n h => ?_, .exitThread s r⟩
  cases ht : s.thread? r with
  | none =>
    have he : s.exitThread r = s := by simp only [State.exitThread, ht]
    rwa [he] at h
  | some t =>
    obtain ⟨u, hd, -, -, he⟩ := exitThread_ends ht
    rw [he] at h
    exact hd.lanes p k n h

theorem noneCommits {s t : State} (h : s.GoesOn t) (hs : s.NoneCommits) : t.NoneCommits := fun p r n hl => hs p r n (h.lanes p r n hl)

end State.GoesOn

/-- The last step of a commit leaves no lane at a step of its commit where that lane alone was. -/
theorem finishLane_goesOn {s : State} {v : View} (h : s.NoOtherCommits v.p v.t.r) (ht : v.l.tret = none) (g : Going) :
    (s.finishLane v g).NoneCommits ∧ s.RunsGrow (s.finishLane v g) := by
  unfold State.finishLane
  extract_lets trapped here s1 s2 s3
  have h1 : s1.NoOtherCommits v.p v.t.r := (State.Drifts.retireOps s v.t.r).noOtherCommits h
  have hr1 : s.RunsGrow s1 := .of_drifts (.retireOps s v.t.r)
  have h2 : s2.NoneCommits := h1.ends Lane.over (fun _ => rfl) fun _ => rfl
  have hr2 : s.RunsGrow s2 := hr1.trans (.of_runs rfl)
  clear_value here trapped s2
  split
  · exact ⟨h1.ends _ (fun _ => rfl) fun _ => rfl, hr1.trans (.of_runs rfl)⟩
  · rw [ht]
    simp only [Option.isSome_none, Bool.false_eq_true, if_false]
    refine (fun hg : s2.GoesOn s3 => ⟨hg.noneCommits h2, hr2.trans hg.runs⟩) ?_
    unfold s3
    split
    · exact .of_drifts (.refl _)
    · split
      · exact .of_drifts (.refl _)
      · split
        · exact .of_drifts (.modThread ..)
        · split
          · exact (State.GoesOn.of_drifts (.traceThread ..)).trans (.exitThread ..)
          · exact .of_drifts (.halt ..)

/-- The steps of a commit up to its sixth raise the step of its own lane alone. -/
theorem State.Commits.before_end {s : State} {p : PortId} {v : View} (h : s.Commits p v) (hs : s.NoneCommits) :
    ((s.unstored p v).stepSix p v.l.r v.goes).NoOtherCommits p v.l.r ∧ s.RunsGrow ((s.unstored p v).stepSix p v.l.r v.goes) := by
  have h0 : s.NoOtherCommits p v.l.r := fun q k n hl => .inl (hs q k n hl)
  have hc : s.Drifts (((s.closeBanks p).noteRegs v.t.r v.touched).modThread v.t.r v.commitRegs) :=
    ((State.Drifts.closeBanks s p).trans (.of_notes (noteRegs_notes ..))).trans (.modThread _ _ _ (commitRegs_r h.plain))
  have h1 := hc.noOtherCommits h0
  have hr1 := State.RunsGrow.of_drifts hc
  unfold State.unstored State.stepSix
  rw [commitBegin_steps h.plain, h.port, h.slot]
  rw [h.slot] at h1 hr1
  generalize ((s.closeBanks p).noteRegs v.l.r v.touched).modThread v.l.r v.commitRegs = w at h1 hr1
  have h2 : (w.noteRec p v.l.r 0 0).NoOtherCommits p v.l.r ∧ s.RunsGrow (w.noteRec p v.l.r 0 0) := by
    unfold State.noteRec
    split
    · exact ⟨h1, hr1⟩
    · exact ⟨h1.modLane _ fun _ => rfl, hr1.trans (.of_runs rfl)⟩
  obtain ⟨h2, hr2⟩ := h2
  generalize w.noteRec p v.l.r 0 0 = w at h2 hr2
  have hf : w.Drifts (w.modThread v.l.r fun t => { t with flg := flagsCommit t.flg v.l.fclear v.l.tflags }) := .modThread ..
  have h3 := hf.noOtherCommits h2
  replace hr2 := hr2.trans (.of_drifts hf)
  generalize w.modThread v.l.r (fun t => { t with flg := flagsCommit t.flg v.l.fclear v.l.tflags }) = w at h3 hr2
  have h4 := (h3.modLane (fun l => { l with stage := 1, next := some v.goes, flumes := [] }) fun _ => rfl).modLane Lane.queued fun _ => rfl
  replace hr2 : s.RunsGrow ((w.modLane p v.l.r fun l => { l with stage := 1, next := some v.goes, flumes := [] }).modLane p v.l.r Lane.queued) :=
    hr2.trans (.of_runs rfl)
  generalize (w.modLane p v.l.r fun l => { l with stage := 1, next := some v.goes, flumes := [] }).modLane p v.l.r Lane.queued = w at h4 hr2
  have hg : w.Drifts (w.modThread v.l.r (·.goTo v.goes)) := .modThread ..
  exact ⟨(hg.noOtherCommits h4).modLane _ fun _ => rfl, (hr2.trans (.of_drifts hg)).trans (.of_runs rfl)⟩

/-- Where no lane is at commit, a run that fails has ended with ABORT set. -/
theorem failNode_ends {s : State} (hs : s.NoneCommits) {run : Nat} {x : Run} (hx : s.run? run = some x) :
    ∃ y, (s.failNode run).run? run = some y ∧ y.ended = true ∧ y.cir.getLsbD 5 = true := by
  have hc : (s.setCir run cirABORT).run? run = some { x with cir := setBit x.cir 5 true } := by
    rw [State.setCir, run?_modRun s run (fun x => { x with cir := setBit x.cir cirABORT true }) fun _ => rfl, hx, Option.map_some, if_pos (run?_id hx)]
    rfl
  have hd := abandonRun_drifts (s.setCir run cirABORT) run
  have hn : ((s.setCir run cirABORT).abandonRun run).NoneCommits := hd.noneCommits (s := s.setCir run cirABORT) hs
  have hnone : ((s.setCir run cirABORT).abandonRun run).runCommits run = false := by
    refine List.any_eq_false.mpr fun b hb => ?_
    rw [Bool.not_eq_true, List.any_eq_false]
    intro l hl hk
    simp only [Bool.and_eq_true, decide_eq_true_eq] at hk
    have := hn b.p l.r l.stage ⟨b, hb, rfl, l, hl, hk.1.1, rfl, rfl⟩
    omega
  obtain ⟨y, hy, hxy⟩ := State.RunsGrow.of_drifts hd _ _ hc
  obtain ⟨z, hz, hyz, hend⟩ := (endRunNow_ends ((s.setCir run cirABORT).abandonRun run) run).2 y hy
  refine ⟨z, ?_, hend, hyz.cir 5 (hxy.cir 5 ?_)⟩
  · simp only [State.failNode, State.endRun, hnone, Bool.false_eq_true, if_false, hz]
  · simp [setBit]

/-- The run of the lane that has executed CHKERR.abort. -/
theorem abortRuns_of_abort {s : State} {p : PortId} {tr : Trace} {l : Lane} {t : Thread} (h : s.LaneAt p tr l t) (ha : l.abort = true) :
    s.abortRuns p = [t.run] := by
  obtain ⟨b, hb, -, hl⟩ := h.bundle
  simp [State.abortRuns, hb, hl, ha, h.thread, setAdd, insertBy]

/-- R192, R346: a commit that aborts its node. -/
theorem commitAborts : CommitAborts := by
  intro s p b v x hb hbl hv hlen hi hst hh hpo hpd hg hpr hn hsc htr hab hx hk hf hoth
  have hplain : v.l.Plain := ⟨hh, hpd, hg, hpr, hn, hsc, htr⟩
  have hind : v.indRegs = [] := by
    simp only [View.indRegs, View.takes, htr]
    split <;> simp_all
  have hc : s.Commits p v := ⟨⟨b, hb, hbl⟩, hv, hlen, hi, hst, hplain, watchHit_of_no_stores (by simp [Lane.stores, hpo]), by simp [hind], hf⟩
  have hnone : s.NoneCommits := by
    rintro q r n ⟨y, hy, -, l, hl, ha, -, rfl⟩
    by_cases he : y = b
    · rw [he, hbl, List.mem_singleton] at hl
      rw [hl, hst]
    · exact (hoth y hy he l hl).resolve_left (by simp [ha])
  obtain ⟨recs, hlane⟩ := hc.unstored_lane hpo
  have hset := begun_settles hc.plain
  obtain ⟨u, hup, hul, -, hut, hstep⟩ := hc.commitStep_eq (fun u hp _ hl ht => hc.unstored_stores hpo u hp hl ht) hlane rfl rfl hh rfl
    rfl (hset.status.trans hi)
  obtain ⟨h6, hr6⟩ := hc.before_end hnone
  have hruns : ((s.unstored p v).stepSix p v.l.r v.goes).abortRuns p = [v.t.run] :=
    (abortRuns_of_abort (stepSix_laneAt hlane v.goes) hab).trans (congrArg (fun k => [k]) hset.run)
  have hur : u.t.r = v.l.r := by rw [hut, ← hc.slot]; exact hset.r
  rw [hruns] at hstep
  generalize (s.unstored p v).stepSix p v.l.r v.goes = w at h6 hr6 hstep
  obtain ⟨h7, hr7⟩ := finishLane_goesOn (s := w) (v := u) (by rwa [hup, hur]) (by rw [hul]; exact htr) v.goes
  generalize w.finishLane u v.goes = w7 at h7 hr7 hstep
  have hd8 : w7.Drifts (w7.commitAborts p []) := .modBundle w7 p _ (fun _ => rfl) fun b l hl ha => by
    obtain ⟨k, hk, rfl⟩ := List.mem_map.mp hl
    exact ⟨k, hk, ha, rfl, rfl⟩
  have hcut : w7.commitAborts p [v.t.run] = (w7.commitAborts p []).failNode v.t.run := rfl
  obtain ⟨x8, hx8, -⟩ := ((hr6.trans hr7).trans (.of_drifts hd8)) _ _ hx
  obtain ⟨x9, hx9, hend9, hcir9⟩ := failNode_ends (hd8.noneCommits h7) hx8
  rw [← hcut] at hx9
  have hlast : (w7.commitAborts p [v.t.run]).RunsGrow (s.commitStep p).endFailing := by
    rw [hstep]
    refine (State.RunsGrow.trans (t := (w7.commitAborts p [v.t.run]).modBundle p fun b => { b with counted := 0 }) (.of_runs rfl) ?_).trans (endFailing_grows _)
    exact .of_drifts (.leaveBundle ..)
  obtain ⟨y, hy, hgrown⟩ := hlast _ _ hx9
  exact ⟨_, y, rfl, hy, hgrown.ended hend9, hgrown.cir 5 hcir9⟩

/-- Settles O39: each kind of commit, its control registers, and the commit that aborts its node. -/
theorem commitOfOneLane : Obligations.CommitOfOneLane :=
  ⟨commitWritesResults, commitEnds, commitQueuesStores, controlRegistersAtCommit, commitAborts⟩

end Sys2Proof.Machine
end


section
/-! SUPPORT. What the start of a node leaves alone (R301, R334, R345). -/

namespace Sys2Proof.Machine

open Sys2Proof

/-! What the start of a node leaves alone (R301, R334, R345) -/

/-- The second state differs from the first at most in memory, in what groups and ports hold, in translations and in poison. -/
structure State.Loads (s t : State) : Prop where
  same : t = { s with mem := t.mem, hostMem := t.hostMem, peerMem := t.peerMem, groups := t.groups, ports := t.ports, poison := t.poison
                      encPages := t.encPages, encSpaces := t.encSpaces, cores := t.cores, clusters := t.clusters, diesS := t.diesS }
  clean : s.poison = [] → t.poison = []

namespace State.Loads

theorem refl (s : State) : s.Loads s := ⟨rfl, id⟩

theorem trans {s t u : State} (a : s.Loads t) (b : t.Loads u) : s.Loads u :=
  ⟨b.same.trans (congrArg (fun x : State => { x with
    mem := u.mem, hostMem := u.hostMem, peerMem := u.peerMem, groups := u.groups, ports := u.ports, poison := u.poison
    encPages := u.encPages, encSpaces := u.encSpaces, cores := u.cores, clusters := u.clusters, diesS := u.diesS }) a.same), fun h => b.clean (a.clean h)⟩

theorem of_stored {s t : State} (h : s.Stored t) (hc : s.poison = [] → t.poison = []) : s.Loads t :=
  ⟨h.same.trans (by rw [← congrArg State.encSpaces h.same, ← congrArg State.cores h.same, ← congrArg State.clusters h.same,
    ← congrArg State.diesS h.same]), hc⟩

theorem writeAt_poison (s : State) (p : Place) (l : List Byte) : (s.writeAt p l).poison = s.poison := by
  induction l generalizing s p with
  | nil => rfl
  | cons b l ih => exact (ih ..).trans (by cases p <;> rfl)

theorem askPeer_poison (s : State) (l : List Byte) (p : Place) : (s.askPeer l p).poison = s.poison := by rw [askPeer_eq]

theorem heal_poison (s : State) (line : Place) (h : s.poison = []) : (s.heal line).poison = [] := by
  unfold State.heal
  dsimp only
  split
  · split
    · simp [h]
    · split <;> simp [h]
  · simp [h]

theorem storeLine_poison (s : State) (p : Place) (l : List Byte) (h : s.poison = []) : (s.storeLine none p l).poison = [] := by
  have ha := (askPeer_poison s l p).trans h
  unfold State.storeLine
  dsimp only
  split
  · split
    · exact heal_poison _ _ ((writeAt_poison ..).trans ha)
    · exact ha
  · exact (writeAt_poison ..).trans ha

theorem storeLines_poison (n : Nat) (s : State) (p : Place) (l : List Byte) (h : s.poison = []) : (s.storeLines none n p l).poison = [] := by
  induction n generalizing s p l with
  | zero => exact h
  | succ n ih =>
    unfold State.storeLines
    split
    · exact h
    · exact ih _ _ _ (storeLine_poison _ _ _ h)

theorem store (s : State) (p : Place) (l : List Byte) : s.Loads (s.store none p l) := of_stored (.store ..) (storeLines_poison _ s p l)

theorem writeCtx_getD (s : State) (ctx va : Nat) (l : List Byte) : s.Loads ((s.writeCtx ctx va l).getD s) := by
  cases h : s.writeCtx ctx va l with
  | none => exact refl s
  | some t =>
    obtain ⟨p, -, rfl⟩ := Option.map_eq_some_iff.mp h
    exact store ..

theorem writeRing (s : State) (ctx : Nat) (ring : Option RaceRing) : s.Loads (s.writeRing ctx ring) := by
  unfold State.writeRing
  split
  · exact refl s
  · exact writeCtx_getD ..

theorem putCtx (ctx n : Nat) (s : State) (va : Nat) (l : List Byte) : s.Loads (s.putCtx ctx n va l) := by
  induction n generalizing s va l with
  | zero => exact refl s
  | succ n ih =>
    unfold State.putCtx
    split
    · exact refl s
    · dsimp only
      split
      · exact (store ..).trans (ih ..)
      · exact ih ..

theorem applyEdits (s : State) (ctx : Nat) (edits : List TableEdit) : s.Loads (s.applyEdits ctx edits) := by
  unfold State.applyEdits
  dsimp only
  split <;> exact ⟨rfl, id⟩

section
variable {s t : State} (h : s.Loads t)
include h
theorem contexts : t.contexts = s.contexts := (congrArg State.contexts h.same).trans rfl
theorem runs : t.runs = s.runs := (congrArg State.runs h.same).trans rfl
theorem graphs : t.graphs = s.graphs := (congrArg State.graphs h.same).trans rfl
theorem threads : t.threads = s.threads := (congrArg State.threads h.same).trans rfl
end

end State.Loads

theorem ctx?_congr {s t : State} (h : t.contexts = s.contexts) (k : Nat) : t.ctx? k = s.ctx? k := by simp only [State.ctx?, h]

theorem ctx?_id {s : State} {k : Nat} {c : Context} (h : s.ctx? k = some c) : c.id = k := by simpa using List.find?_some h

theorem ctx?_modCtx_same {s : State} {k : Nat} {c : Context} (h : s.ctx? k = some c) (f : Context → Context)
    (hf : ∀ c, (f c).id = c.id := by exact fun _ => rfl) :
    (s.modCtx k f).ctx? k = some (f c) := by
  have hm : (s.modCtx k f).ctx? k = (s.ctx? k).map fun c => if c.id = k then f c else c := find?_map_of_keeps (fun c => by split <;> simp [hf]) s.contexts
  rw [hm, h, Option.map_some, if_pos (ctx?_id h)]

theorem graph?_id {s : State} {k : Nat} {g : Graph} (h : s.graph? k = some g) : g.id = k := by simpa using List.find?_some h

theorem graph?_modGraph_same {s : State} {k : Nat} {g : Graph} (h : s.graph? k = some g) (f : Graph → Graph)
    (hf : ∀ g, (f g).id = g.id := by exact fun _ => rfl) :
    (s.modGraph k f).graph? k = some (f g) := by
  have hm : (s.modGraph k f).graph? k = (s.graph? k).map fun g => if g.id = k then f g else g := find?_map_of_keeps (fun g => by split <;> simp [hf]) s.graphs
  rw [hm, h, Option.map_some, if_pos (graph?_id h)]

/-- The race mode that a context has once a pending change has taken effect (R301). -/
def Context.nextRacectl (c : Context) : Word :=
  match c.raceNext with
  | some z => .ofNat 32 z.1
  | none => c.racectl

/-- The context once it has. -/
def Context.withRace (mode : Nat) (ring : Option RaceRing) (pages : Nat) (c : Context) : Context :=
  { c with racectl := .ofNat 32 mode, raceRing := ring, shadowPages := pages, shadowMap := c.shadowMap.drop (c.shadowMap.length - pages), raceNext := none }

/-- A pending RACE change that takes effect. -/
theorem raceTakes_takes {s : State} {ctx : Nat} {c : Context} (h : s.ctx? ctx = some c) :
    (∃ d, (s.raceTakes ctx).ctx? ctx = some d ∧ d.racectl = c.nextRacectl ∧ d.epoch = c.epoch ∧ d.pool = c.pool) ∧
      (s.raceTakes ctx).runs = s.runs ∧ (s.raceTakes ctx).graphs = s.graphs ∧ (s.raceTakes ctx).threads = s.threads ∧
      (s.poison = [] → (s.raceTakes ctx).poison = []) := by
  unfold State.raceTakes Context.nextRacectl
  rw [h, Option.bind_some]
  cases c.raceNext with
  | none => exact ⟨⟨c, h, rfl, rfl, rfl⟩, rfl, rfl, rfl, id⟩
  | some z =>
    obtain ⟨mode, ring, pages⟩ := z
    have hl : (s.modCtx ctx (Context.withRace mode ring pages)).Loads ((s.modCtx ctx (Context.withRace mode ring pages)).writeRing ctx ring) := .writeRing ..
    exact ⟨⟨c.withRace mode ring pages, (ctx?_congr hl.contexts ctx).trans (ctx?_modCtx_same h (Context.withRace mode ring pages)), rfl, rfl, rfl⟩,
      hl.runs, hl.graphs, hl.threads, hl.clean⟩

/-- Where no line is poisoned, the copy of a frame changes memory alone. -/
theorem copyFrame_of_clean {s : State} (h : s.poison = []) (run src dst : Nat) : ∃ mem, s.copyFrame run src dst = { s with mem } := by
  unfold State.copyFrame
  simp only [h, List.filterMap_nil, List.filter_nil, List.isEmpty_nil, Bool.not_true, State.notePoison, Bool.false_eq_true, if_false]
  exact ⟨_, by rw [← h]⟩

theorem copyFrames_of_clean (run : Nat) (l : List (Nat × Nat × Nat)) {s : State} (h : s.poison = []) :
    ∃ mem, l.foldl (fun (u : State) z => u.copyFrame run z.2.1 z.2.2) s = { s with mem } := by
  induction l generalizing s with
  | nil => exact ⟨s.mem, rfl⟩
  | cons z l ih =>
    obtain ⟨m, hm⟩ := copyFrame_of_clean h run z.2.1 z.2.2
    rw [List.foldl_cons, hm]
    exact ih (s := { s with mem := m }) h

end Sys2Proof.Machine
end


section
/-! SUPPORT. The start of a node (R301, R325, R334, R344). -/

namespace Sys2Proof.Machine

open Sys2Proof

/-! NODE_START (R301, R325, R334, R344, R345) -/

/-- The node as it runs with a place for its data section. -/
def Node.starts (idx dataAddr : Nat) (m : Node) : Node := if m.idx = idx then { m with state := .running, data := some dataAddr } else m

/-- A run of a node as it starts with frames for its shadows and a place for its data section. -/
structure Run.Starts (x : Run) (run dataAddr : Nat) (frames : List Nat) (g : Graph) (n : Node) : Prop where
  id : x.id = run
  ctx : x.ctx = g.ctx
  graph : x.graph = g.id
  node : x.node = n.idx
  cir : x.cir = .ofNat 32 (n.retry * 64)
  nthr : x.nthr = n.info.threads
  group : x.group = n.info.group
  created : x.created = 0
  exited : x.exited = 0
  dataAddr : x.dataAddr = dataAddr
  kd : x.kd = n.kd
  ended : x.ended = false
  shadows : x.shadows.map (·.2.2) = frames

section
variable {s : State} {run dataAddr : Nat} {frames : List Nat} {edits : List TableEdit} {g : Graph} {n : Node} {c : Context} {data : List Byte}

/-- A node that may start: its run, what comes before its shadows are copied, and the copies. -/
theorem startNode_starts (hg : s.graph? (run / 2 ^ 32) = some g) (hn : g.nodes.find? (·.idx == run % 2 ^ 32) = some n)
    (hr : s.startReady g n frames = true) (he : s.editsOk edits = true) (ha : s.addsOnly g.ctx [] edits = true)
    (hk : s.guardsKept (s.applyEdits g.ctx edits) g.ctx = true) (hf : s.encFits (s.applyEdits g.ctx edits) g.ctx edits = true)
    (hd : s.dataBytes g n = some data) (hc : s.ctx? g.ctx = some c) (hp : s.poison = [])
    (hda : n.data = some dataAddr ∨ (n.data = none ∧ (s.applyEdits g.ctx edits).dataPlaced g.ctx dataAddr n.kd.dataSize = true)) :
    ∃ (w : State) (x : Run) (d : Context), s.startNode run dataAddr frames edits =
        x.shadows.foldl (fun (u : State) h => u.copyFrame run h.2.1 h.2.2) (({ w with runs := w.runs ++ [x] } : State).nextEpoch g.ctx) ∧
      x.Starts run dataAddr frames g n ∧ x.racectl = c.nextRacectl ∧ w.ctx? g.ctx = some d ∧ d.epoch = c.epoch ∧
      d.pool = c.pool.filter (!frames.contains ·) ∧ w.run? run = none ∧ w.poison = [] ∧ w.threads = s.threads ∧
      w.graph? g.id = some { g with nodes := g.nodes.map (Node.starts n.idx dataAddr) } := by
  have hlen : frames.length = (s.shadowList g n.idx).length := by
    simp only [State.startReady, Bool.and_eq_true, beq_iff_eq] at hr
    exact hr.1.1.2
  unfold State.startNode
  simp -zeta only [hg, Option.bind_some, hn, Option.map_some, hr, he, ha, hk, hf, Bool.not_true, Bool.or_false, Bool.false_eq_true, if_false, hd]
  extract_lets pages u1 u2 u3 w x _
  have hA : s.Loads (s.applyEdits g.ctx edits) := .applyEdits ..
  have hid : g.id = run / 2 ^ 32 := graph?_id hg
  have hg1 : u1.graph? g.id = some { g with nodes := g.nodes.map (Node.starts n.idx dataAddr) } := by
    refine graph?_modGraph_same (g := g) ?_ _
    rw [State.graph?, hA.graphs, hid]
    exact hg
  have hc1 : ({ u1 with runs := u1.runs.filter (·.id ≠ run) } : State).ctx? g.ctx = some c := (ctx?_congr hA.contexts _).trans hc
  obtain ⟨⟨d, hd2, hrace, hepoch, hpool⟩, hr2, hg2, ht2, hp2⟩ := raceTakes_takes hc1
  have hw : u3.Loads w := by
    unfold w
    split
    · exact .refl _
    · exact .putCtx ..
  have hd3 : w.ctx? g.ctx = some { d with pool := d.pool.filter (!frames.contains ·) } :=
    (ctx?_congr hw.contexts _).trans (ctx?_modCtx_same hd2 fun c => { c with pool := c.pool.filter (!frames.contains ·) })
  have hx : x.racectl = ((w.ctx? g.ctx).map (·.racectl)).getD 0 := rfl
  refine ⟨w, x, _, if_neg ?_, ⟨rfl, rfl, rfl, rfl, rfl, rfl, rfl, rfl, rfl, rfl, rfl, rfl, ?_⟩, ?_, hd3, hepoch, by rw [← hpool], ?_, ?_, ?_, ?_⟩
  · rcases hda with h | ⟨h, h'⟩
    · simp [h]
    · simp [h, h']
  · have hm : x.shadows.map (·.2.2) = (pages.zip frames).map Prod.snd := List.map_map
    rw [hm, List.map_snd_zip (by rw [hlen])]
  · rw [hx, hd3]
    exact hrace
  · have hr : w.runs = u1.runs.filter (·.id ≠ run) := hw.runs.trans hr2
    rw [State.run?, hr]
    simp
  · exact hw.clean (hp2 (hA.clean hp))
  · exact (hw.threads.trans ht2).trans hA.threads
  · have hr : w.graphs = u1.graphs := hw.graphs.trans hg2
    rw [State.graph?, hr]
    exact hg1

/-- R301, R334, R344, R345: NODE_START. -/
theorem nodeStart_starts (hg : s.graph? (run / 2 ^ 32) = some g) (hn : g.nodes.find? (·.idx == run % 2 ^ 32) = some n)
    (hr : s.startReady g n frames = true) (he : s.editsOk edits = true) (ha : s.addsOnly g.ctx [] edits = true)
    (hk : s.guardsKept (s.applyEdits g.ctx edits) g.ctx = true) (hf : s.encFits (s.applyEdits g.ctx edits) g.ctx edits = true)
    (hd : s.dataBytes g n = some data) (hc : s.ctx? g.ctx = some c) (hp : s.poison = [])
    (hda : n.data = some dataAddr ∨ (n.data = none ∧ (s.applyEdits g.ctx edits).dataPlaced g.ctx dataAddr n.kd.dataSize = true)) :
    ∃ u x h, exec (.nodeStart run dataAddr frames edits) s = .next u ∧ u.run? run = some x ∧ x.Starts run dataAddr frames g n ∧
      x.racectl = c.nextRacectl ∧ u.graph? g.id = some h ∧ (∀ m ∈ h.nodes, m.idx = n.idx → m.state = .running ∧ m.data = some dataAddr) ∧
      (u.ctx? g.ctx).map (·.epoch) = some ((c.epoch + 1) % 2 ^ 16) ∧
      (u.ctx? g.ctx).map (·.pool) = some (c.pool.filter (!frames.contains ·)) ∧ u.threads = s.threads := by
  obtain ⟨w, x, d, hs, hx, hrace, hwc, hepoch, hpool, hwr, hwp, hwt, hwg⟩ := startNode_starts hg hn hr he ha hk hf hd hc hp hda
  obtain ⟨mem, hm⟩ := copyFrames_of_clean run x.shadows (s := ({ w with runs := w.runs ++ [x] } : State).nextEpoch g.ctx) hwp
  rw [hm] at hs
  have hctx : (({ w with runs := w.runs ++ [x] } : State).nextEpoch g.ctx).ctx? g.ctx = some { d with epoch := (d.epoch + 1) % 2 ^ 16 } :=
    ctx?_modCtx_same (s := { w with runs := w.runs ++ [x] }) hwc fun c => { c with epoch := (c.epoch + 1) % 2 ^ 16 }
  refine ⟨_, x, _, congrArg Host.Outcome.next hs, ?_, hx, hrace, hwg, fun m hmem hidx => ?_, ?_, ?_, hwt⟩
  · have hn : w.runs.find? (·.id == run) = none := hwr
    refine List.find?_append.trans ?_
    rw [hn, Option.none_or]
    simp [hx.id]
  · obtain ⟨k, -, rfl⟩ := List.mem_map.mp hmem
    unfold Node.starts at hidx ⊢
    split
    · exact ⟨rfl, rfl⟩
    · rename_i hne
      rw [if_neg hne] at hidx
      exact absurd hidx hne
  · refine (congrArg (Option.map Context.epoch) hctx).trans ?_
    rw [Option.map_some, hepoch]
  · refine (congrArg (Option.map Context.pool) hctx).trans ?_
    rw [Option.map_some, hpool]

end

end Sys2Proof.Machine
end


section
/-! SUPPORT. A creation whose turn has come (R336, R338, R340). -/

namespace Sys2Proof.Machine

open Sys2Proof

/-! THREAD_CREATE (R336, R338, R340) -/

section
variable {s v : State} {x : Run} {run : Nat} {handles slots stores : List Nat}

/-- A creation whose turn has come. -/
theorem createThreads_eq (hx : s.run? run = some x) (hd : s.dispatching = true) (he : x.ended = false) (hf : x.failing = false) (h0 : 0 < slots.length)
    (hn : slots.length = x.nextSize slots.length) (hl : stores.length = slots.length) (hb : s.heldBackFor x.ctx x.id = false)
    (ht : s.runTurn x = true) (hs : x.created = 0 → x.coresident = false → s.savedFirst x.ctx = false)
    (hv : s.takeTurn x.ctx (((s.node? x).map (·.info.queue)).getD 0) = some v) :
    s.createThreads run handles slots stores =
      (if x.group = 0 then (if handles.isEmpty then v.placeGroup x 0 x.created slots stores else none)
        else if !x.coresident && handles.length ≠ 1 then none
        else v.placeGroups x handles x.created slots stores).getD s := by
  have hsaved : (decide (x.created = 0) && !x.coresident && s.savedFirst x.ctx) = false := by
    by_cases hc : x.created = 0 ∧ x.coresident = false
    · simp [hs hc.1 hc.2]
    · rw [not_and_or, Bool.not_eq_false] at hc
      rcases hc with hc | hc <;> simp [hc]
  have hn0 : slots.length ≠ 0 := by omega
  unfold State.createThreads
  simp only [hx, hd, he, hf, ← hn, hn0, hl, hb, ht, hsaved, hv, Option.bind_some, Bool.not_true, Bool.or_false, decide_false, ne_eq,
    not_true_eq_false, Bool.false_eq_true, if_false]

/-- A creation of one group places it alone. -/
theorem placeGroups_one {u : State} {h base : Nat} (h0 : 0 < slots.length) (hn : slots.length ≤ x.group) (hl : stores.length = slots.length)
    (hp : v.placeGroup x (gidOf x.ctx h) base slots stores = some u) : v.placeGroups x [h] base slots stores = some u := by
  have hm : min x.group slots.length = slots.length := Nat.min_eq_right hn
  have hn0 : slots.length ≠ 0 := by omega
  have hst : stores.take slots.length = stores := List.take_of_length_le (by omega)
  simp only [State.placeGroups, hm, hn0, if_false, List.take_length, hst, hp, Option.bind_some, List.drop_length, List.isEmpty_nil, if_true]

/-- R336, R338, R340: a creation places threads without a group, one group, or every group of a coresident launch. -/
theorem threadCreate_places {u : State} (hx : s.run? run = some x) (hd : s.dispatching = true) (he : x.ended = false) (hf : x.failing = false)
    (h0 : 0 < slots.length) (hn : slots.length = x.nextSize slots.length) (hl : stores.length = slots.length) (hb : s.heldBackFor x.ctx x.id = false)
    (ht : s.runTurn x = true) (hs : x.created = 0 → x.coresident = false → s.savedFirst x.ctx = false)
    (hv : s.takeTurn x.ctx (((s.node? x).map (·.info.queue)).getD 0) = some v) :
    (x.group = 0 → handles = [] → v.placeGroup x 0 x.created slots stores = some u → exec (.threadCreate run handles slots stores) s = .next u) ∧
    (x.group ≠ 0 → x.coresident = false → ∀ h, handles = [h] → v.placeGroup x (gidOf x.ctx h) x.created slots stores = some u →
      exec (.threadCreate run handles slots stores) s = .next u) ∧
    (x.group ≠ 0 → x.coresident = true → v.placeGroups x handles x.created slots stores = some u →
      exec (.threadCreate run handles slots stores) s = .next u) := by
  have hc := createThreads_eq (handles := handles) hx hd he hf h0 hn hl hb ht hs hv
  have hexec : exec (.threadCreate run handles slots stores) s = .next (s.createThreads run handles slots stores) := rfl
  rw [hexec, hc]
  refine ⟨fun hg hh hp => ?_, fun hg hco h hh hp => ?_, fun hg hco hp => ?_⟩
  · rw [if_pos hg, if_pos (by simp [hh]), hp, Option.getD_some]
  · have hle : slots.length ≤ x.group := by
      simp only [Run.nextSize, hco, Bool.false_eq_true, if_false, hg] at hn
      omega
    rw [if_neg hg, if_neg (by simp [hh]), hh, placeGroups_one h0 hle hl hp, Option.getD_some]
  · rw [if_neg hg, if_neg (by simp [hco]), hp, Option.getD_some]

end

end Sys2Proof.Machine
end


section
/-! SUPPORT. The threads and the group of a creation (R14, R69, R183). -/

namespace Sys2Proof.Machine

open Sys2Proof

/-! The threads and the group of a creation (R14, R69, R158 to R160, R183) -/

/-- A thread of a run as it is created. -/
def Run.thread (x : Run) (gid gen tid rank slot store : Nat) : Thread :=
  .fresh slot gen x.ctx x.id tid x.entry x.dataAddr x.psize store (min 1015 (64 * unitsOfLimit (kdRegs x.kd))) (startPsel x.kd.psel)
    (if x.group = 0 then none else some { gid, rank })

/-- The generation that a thread placed in a slot has. -/
def State.nextGen (s : State) (r : Nat) : Nat := (((s.tag? r).map (·.gen)).getD 0 + 1) % 32

/-- A slot that is occupied leaves all but its tag, and the context's epoch. -/
theorem occupySlot_frame (s : State) (ctx slot home : Nat) :
    (s.occupySlot ctx slot home).2 = s.nextGen slot ∧ (s.occupySlot ctx slot home).1.threads = s.threads ∧
      (s.occupySlot ctx slot home).1.groups = s.groups ∧
      ∃ e, e.r = slot ∧ (s.occupySlot ctx slot home).1.tags = (s.tags.filter (·.r ≠ slot)) ++ [e] := by
  refine ⟨rfl, ?_, ?_, { r := slot, gen := s.nextGen slot, live := true, home, hchg := false, touched := false }, rfl, ?_⟩
  all_goals
    simp only [State.occupySlot]
    split <;> rfl

/-- The tags of other slots. -/
theorem tag?_replace {s u : State} {slot r : Nat} {e : TagEntry} (he : e.r = slot) (h : u.tags = (s.tags.filter (·.r ≠ slot)) ++ [e]) (hr : r ≠ slot) :
    u.tag? r = s.tag? r := by
  have hne : (e.r == r) = false := by simp [he, Ne.symm hr]
  simp only [State.tag?, h, List.find?_append, List.find?_singleton, hne, Bool.false_eq_true, if_false, Option.or_none, List.find?_filter]
  refine congrArg (fun q => List.find? q s.tags) (funext fun y => ?_)
  by_cases hy : y.r = r
  · simp [hy, hr]
  · simp [hy]

theorem enterTable_rest (s : State) (r : Nat) : (s.enterTable r).tags = s.tags ∧ (s.enterTable r).groups = s.groups := by
  unfold State.enterTable
  split
  · exact ⟨rfl, rfl⟩
  · exact ⟨rfl, rfl⟩

theorem group?_congr {s u : State} (h : u.groups = s.groups) (k : Nat) : u.group? k = s.group? k := by simp only [State.group?, h]

theorem group?_gid {s : State} {k : Nat} {g : Group} (h : s.group? k = some g) : g.gid = k := by simpa using List.find?_some h

theorem group?_modGroup_same {s : State} {k : Nat} {g : Group} (h : s.group? k = some g) (f : Group → Group)
    (hf : ∀ g, (f g).gid = g.gid := by exact fun _ => rfl) : (s.modGroup k f).group? k = some (f g) := by
  have hm : (s.modGroup k f).group? k = (s.group? k).map fun g => if g.gid = k then f g else g := find?_map_of_keeps (fun g => by split <;> simp [hf]) s.groups
  rw [hm, h, Option.map_some, if_pos (group?_gid h)]

section
variable {s : State} {x : Run} {gid tid rank slot store : Nat}

/-- A creation puts a thread in its slot, and in its group, before it enters its PC table. -/
theorem addThread_eq (s : State) (x : Run) (gid tid rank slot store : Nat) : ∃ w : State,
    s.addThread x gid tid rank slot store = w.enterTable slot ∧ w.threads = s.threads ++ [x.thread gid (s.nextGen slot) tid rank slot store] ∧
      (∃ e, e.r = slot ∧ w.tags = (s.tags.filter (·.r ≠ slot)) ++ [e]) ∧
      (x.group ≠ 0 → w.groups = (s.modGroup gid fun g => { g with members := g.members ++ [(slot, rank)] }).groups) := by
  by_cases hx : x.group = 0
  · obtain ⟨-, hthr, -, htags⟩ := occupySlot_frame s x.ctx slot 0
    refine ⟨{ (s.occupySlot x.ctx slot 0).1 with threads := (s.occupySlot x.ctx slot 0).1.threads ++ [x.thread gid (s.nextGen slot) tid rank slot store] },
      ?_, congrArg (· ++ [x.thread gid (s.nextGen slot) tid rank slot store]) hthr, htags, fun h => absurd hx h⟩
    simp only [State.addThread, Run.thread, hx, if_true]
    rfl
  · obtain ⟨-, hthr, hgrp, htags⟩ := occupySlot_frame s x.ctx slot (handleOf gid)
    refine ⟨({ (s.occupySlot x.ctx slot (handleOf gid)).1 with
        threads := (s.occupySlot x.ctx slot (handleOf gid)).1.threads ++ [x.thread gid (s.nextGen slot) tid rank slot store] } : State).modGroup gid
          fun g => { g with members := g.members ++ [(slot, rank)] },
      ?_, congrArg (· ++ [x.thread gid (s.nextGen slot) tid rank slot store]) hthr, htags, fun _ => congrArg (List.map _) hgrp⟩
    simp only [State.addThread, Run.thread, hx, if_false]
    rfl

/-- A thread is created in its slot; other slots keep their threads and tags. -/
theorem addThread_adds (h : s.thread? slot = none) :
    (s.addThread x gid tid rank slot store).thread? slot = some (x.thread gid (s.nextGen slot) tid rank slot store) ∧
      ∀ r, r ≠ slot → (s.addThread x gid tid rank slot store).thread? r = s.thread? r ∧ (s.addThread x gid tid rank slot store).tag? r = s.tag? r := by
  obtain ⟨w, heq, hthr, ⟨e, he, htags⟩, -⟩ := addThread_eq s x gid tid rank slot store
  have hself : (x.thread gid (s.nextGen slot) tid rank slot store).r = slot := rfl
  rw [heq]
  refine ⟨?_, fun r hr => ⟨(enterTable_thread?_other w hr).trans ?_, ?_⟩⟩
  · have hw : w.thread? slot = some (x.thread gid (s.nextGen slot) tid rank slot store) := by
      have hn : s.threads.find? (·.r == slot) = none := h
      simp [State.thread?, hthr, hn, hself]
    exact enterTable_thread? hw
  · simp [State.thread?, hthr, hself, Ne.symm hr]
  · have ht : (w.enterTable slot).tag? r = w.tag? r := by simp only [State.tag?, (enterTable_rest w slot).1]
    exact ht.trans (tag?_replace he htags hr)

/-- Its group has it as a member. -/
theorem addThread_member {g : Group} (hx : x.group ≠ 0) (hg : s.group? gid = some g) :
    (s.addThread x gid tid rank slot store).group? gid = some { g with members := g.members ++ [(slot, rank)] } := by
  obtain ⟨w, heq, -, -, hgrp⟩ := addThread_eq s x gid tid rank slot store
  rw [heq, group?_congr (enterTable_rest w slot).2, group?_congr (hgrp hx)]
  exact group?_modGroup_same hg fun g => { g with members := g.members ++ [(slot, rank)] }

end

/-- The threads of a creation, each with its rank, slot and store. -/
def State.addThreads (s : State) (x : Run) (gid base : Nat) (zs : List (Nat × Nat × Nat)) : State :=
  zs.foldl (fun (u : State) z => u.addThread x gid (base + z.1) z.1 z.2.1 z.2.2) s

section
variable {x : Run} {gid base : Nat}

theorem addThreads_others (zs : List (Nat × Nat × Nat)) (s : State) (hf : ∀ z ∈ zs, s.thread? z.2.1 = none) (hd : (zs.map (·.2.1)).Nodup) {r : Nat}
    (hr : ∀ z ∈ zs, z.2.1 ≠ r) : (s.addThreads x gid base zs).thread? r = s.thread? r := by
  induction zs generalizing s with
  | nil => rfl
  | cons z zs ih =>
    rw [List.map_cons, List.nodup_cons] at hd
    rw [List.forall_mem_cons] at hf hr
    obtain ⟨-, hoth⟩ := addThread_adds (x := x) (gid := gid) (tid := base + z.1) (rank := z.1) (store := z.2.2) hf.1
    refine (ih _ (fun y hy => ?_) hd.2 hr.2).trans (hoth r (Ne.symm hr.1)).1
    exact (hoth _ fun e => hd.1 (e ▸ List.mem_map_of_mem hy)).1.trans (hf.2 y hy)

/-- Each thread of a creation stands in its slot. -/
theorem addThreads_adds (zs : List (Nat × Nat × Nat)) (s : State) (hf : ∀ z ∈ zs, s.thread? z.2.1 = none) (hd : (zs.map (·.2.1)).Nodup)
    {z : Nat × Nat × Nat} (hz : z ∈ zs) :
    (s.addThreads x gid base zs).thread? z.2.1 = some (x.thread gid (s.nextGen z.2.1) (base + z.1) z.1 z.2.1 z.2.2) := by
  induction zs generalizing s with
  | nil => cases hz
  | cons y zs ih =>
    rw [List.map_cons, List.nodup_cons] at hd
    rw [List.forall_mem_cons] at hf
    obtain ⟨hself, hoth⟩ := addThread_adds (x := x) (gid := gid) (tid := base + y.1) (rank := y.1) (store := y.2.2) hf.1
    have hne : ∀ z ∈ zs, z.2.1 ≠ y.2.1 := fun z hz e => hd.1 (e ▸ List.mem_map_of_mem hz)
    have hfree : ∀ z ∈ zs, (s.addThread x gid (base + y.1) y.1 y.2.1 y.2.2).thread? z.2.1 = none := fun z hz => (hoth _ (hne z hz)).1.trans (hf.2 z hz)
    rcases List.mem_cons.mp hz with rfl | hz
    · exact (addThreads_others zs _ hfree hd.2 hne).trans hself
    · have hgen : (s.addThread x gid (base + y.1) y.1 y.2.1 y.2.2).nextGen z.2.1 = s.nextGen z.2.1 := by
        simp only [State.nextGen, (hoth _ (hne z hz)).2]
      exact (ih _ hfree hd.2 hz).trans (by rw [hgen])

/-- They are the members of their group, in the order of their ranks. -/
theorem addThreads_members (hx : x.group ≠ 0) (zs : List (Nat × Nat × Nat)) (s : State) {g : Group} (hg : s.group? gid = some g) :
    (s.addThreads x gid base zs).group? gid = some { g with members := g.members ++ zs.map fun z => (z.2.1, z.1) } := by
  induction zs generalizing s g with
  | nil => simpa [State.addThreads] using hg
  | cons z zs ih =>
    refine (ih _ (addThread_member (tid := base + z.1) (rank := z.1) (slot := z.2.1) (store := z.2.2) hx hg)).trans ?_
    simp

end

theorem handleOf_gidOf {ctx h : Nat} (hh : h < 2 ^ 20) : handleOf (gidOf ctx h) = h := by
  unfold handleOf gidOf
  omega

theorem distinct_nodup {l : List Nat} (h : distinct l = true) : l.Nodup := by
  induction l with
  | nil => exact List.nodup_nil
  | cons a l ih =>
    simp only [distinct, Bool.and_eq_true, Bool.not_eq_true', List.contains_eq_mem, decide_eq_false_iff_not] at h
    exact List.nodup_cons.mpr ⟨h.1, ih h.2⟩

/-- A new group, without members, at its home. -/
theorem addGroup_adds {s : State} {x : Run} {gid home : Nat} {sets : List (Nat × Nat)} (h : s.group? gid = none) :
    (∃ g, (s.addGroup x gid home sets).group? gid = some g ∧ g.scr = [] ∧ g.uni = [] ∧ g.tiles = [] ∧ g.home = home ∧ g.members = []) ∧
      (s.addGroup x gid home sets).threads = s.threads ∧ (s.addGroup x gid home sets).tags = s.tags := by
  have hn : s.groups.find? (·.gid == gid) = none := h
  have hlead (u : State) : (u.setLead x.ctx home).groups = u.groups ∧ (u.setLead x.ctx home).threads = u.threads ∧
      (u.setLead x.ctx home).tags = u.tags := by
    unfold State.setLead
    split
    · exact ⟨modCluster_groups .., modCluster_threads .., modCluster_tags ..⟩
    · exact ⟨rfl, rfl, rfl⟩
  unfold State.addGroup
  refine ⟨⟨{ Group.fresh gid x.ctx x.id home (kdScrg x.kd) (kdTile x.kd) (kdBars x.kd) (unitsOfLimit (kdRegs x.kd)) x.rchk x.coresident x.kd.slotsTable with
    blocks := sets, regBlocks := sets.map (·.2), resets := (s.core home).resets }, ?_, rfl, rfl, rfl, rfl, rfl⟩, (hlead _).2.1, (hlead _).2.2⟩
  refine (group?_congr (hlead _).1 gid).trans ?_
  simp [State.group?, State.putGroup, hn, Group.fresh]

end Sys2Proof.Machine
end


section
/-! SUPPORT. A group placed at the slots of a creation (R69, R158 to R160). -/

namespace Sys2Proof.Machine

open Sys2Proof

/-! A group, or threads without one, placed at the slots of a creation (R69, R158 to R160) -/

/-- The ranks of a creation with their slots and stores. -/
def ranked (slots stores : List Nat) : List (Nat × Nat × Nat) := (upFrom 0 slots.length).zip (slots.zip stores)

section
variable {slots stores : List Nat} (hl : stores.length = slots.length)
include hl

theorem ranked_slots : (ranked slots stores).map (·.2.1) = slots := by
  have hm : (ranked slots stores).map (·.2.1) = ((ranked slots stores).map Prod.snd).map Prod.fst := List.map_map.symm
  rw [hm, ranked, List.map_snd_zip (by simp [upFrom_zero, hl]), List.map_fst_zip (by omega)]

theorem ranked_members : (ranked slots stores).map (fun z => (z.2.1, z.1)) = slots.zip (upFrom 0 slots.length) := by
  refine List.ext_getElem (by simp [ranked, upFrom_zero, hl]) fun i _ _ => by simp [ranked]

theorem mem_ranked {k r : Nat} (hr : slots[k]? = some r) : ∃ b, stores[k]? = some b ∧ (k, r, b) ∈ ranked slots stores := by
  obtain ⟨hk, hr⟩ := List.getElem?_eq_some_iff.mp hr
  refine ⟨stores[k], List.getElem?_eq_getElem (by omega),
    List.mem_iff_getElem.mpr ⟨k, by simp [ranked, upFrom_zero, hl, hk], by simp [ranked, upFrom_zero, hr]⟩⟩

end

/-- The state of a creation, before what its cores can hold is looked at. -/
def State.placed (s : State) (x : Run) (gid base : Nat) (slots stores : List Nat) : State :=
  ((if x.group = 0 then s else s.addGroup x gid (coreOfSlot (slots.headD 0)) (if x.group = 0 then [] else laneSets (upFrom 0 slots.length) slots)).addThreads x gid base
    (ranked slots stores)).modRun x.id fun y => { y with created := y.created + slots.length }

section
variable {s : State} {x : Run} {gid base : Nat} {slots stores : List Nat}

theorem placeGroup_eq (hf : s.slotsFree (coreOfSlot (slots.headD 0)) slots = true)
    (hs : s.setsOk (if x.group = 0 then [] else laneSets (upFrom 0 slots.length) slots) = true) (hst : s.storesOk x.ctx x.psize stores = true)
    (hu : x.group = 0 → ∀ r ∈ slots, s.unbound (blockOfSlot r) = true)
    (hg : x.group ≠ 0 → s.handleFree x.ctx (handleOf gid) = true ∧ ∀ r ∈ slots, clusterOfSlot r = clusterOfCore (coreOfSlot (slots.headD 0)))
    (hc : (s.placed x gid base slots stores).coresFit x.ctx (slots.map coreOfSlot) = true) :
    s.placeGroup x gid base slots stores = some (s.placed x gid base slots stores) := by
  unfold State.placed State.addThreads ranked at hc ⊢
  unfold State.placeGroup
  by_cases hx : x.group = 0
  · have hall : (slots.all fun r => s.unbound (blockOfSlot r)) = true := List.all_eq_true.mpr (hu hx)
    simp only [hx, if_true] at hs hc ⊢
    generalize coreOfSlot (slots.headD 0) = home at hf ⊢
    simp [hf, hs, hst, hall, hc]
  · obtain ⟨hfree, hcl⟩ := hg hx
    have hall : (slots.all fun r => clusterOfSlot r == clusterOfCore (coreOfSlot (slots.headD 0))) = true :=
      List.all_eq_true.mpr fun r hr => by simpa using hcl r hr
    simp only [hx, if_false] at hs hc ⊢
    generalize coreOfSlot (slots.headD 0) = home at hf hall hc ⊢
    simp only [hf, hs, hst, hall, hfree, hc, Bool.not_true, Bool.or_false, Bool.and_false, decide_false, Bool.false_and, Bool.false_eq_true, if_false,
      if_true]

/-- The registers of a thread as it is created. -/
theorem thread_reg (x : Run) (gid gen tid rank slot store c : Nat) : (x.thread gid gen tid rank slot store).reg c =
    if c = 3 then BitVec.ofNat 32 (x.dataAddr / 2 ^ 32) else if c = 2 then BitVec.ofNat 32 x.dataAddr else 0 := by
  have hw : sWf (sSet ([] : List (Nat × Word)) 2 (BitVec.ofNat 32 x.dataAddr)) = true := sSet_wf [] _ _ rfl
  have hr : (x.thread gid gen tid rank slot store).regs = sSet (sSet [] 2 (.ofNat 32 x.dataAddr)) 3 (.ofNat 32 (x.dataAddr / 2 ^ 32)) := rfl
  unfold Thread.reg
  rw [hr, sGet_sSet _ _ _ _ hw, sGet_sSet _ _ _ _ rfl]
  split
  · rename_i h0
    simp [h0]
  · rfl

/-- What stands before a creation's threads do. -/
theorem placed_base (hh : x.group ≠ 0 → s.group? gid = none) (sets : List (Nat × Nat)) (home : Nat) :
    (∀ r, (if x.group = 0 then s else s.addGroup x gid home sets).thread? r = s.thread? r) ∧
      (∀ r, (if x.group = 0 then s else s.addGroup x gid home sets).nextGen r = s.nextGen r) ∧
      (x.group ≠ 0 → ∃ g, (if x.group = 0 then s else s.addGroup x gid home sets).group? gid = some g ∧ g.scr = [] ∧ g.uni = [] ∧ g.tiles = [] ∧ g.home = home ∧
        g.members = []) := by
  split
  · rename_i hx
    exact ⟨fun _ => rfl, fun _ => rfl, fun h => absurd hx h⟩
  · rename_i hx
    obtain ⟨hg, ht, htag⟩ := addGroup_adds (x := x) (home := home) (sets := sets) (hh hx)
    exact ⟨thread?_congr ht, fun r => by simp only [State.nextGen, State.tag?, htag], fun _ => hg⟩

/-- The group and the threads that a creation leaves. -/
theorem placed_stands (hl : stores.length = slots.length) (hf : s.slotsFree (coreOfSlot (slots.headD 0)) slots = true) (hh : x.group ≠ 0 → s.group? gid = none) :
    (x.group ≠ 0 → ∃ g, (s.placed x gid base slots stores).group? gid = some g ∧ g.scr = [] ∧ g.uni = [] ∧ g.tiles = [] ∧
      g.home = coreOfSlot (slots.headD 0) ∧ g.members = slots.zip (upFrom 0 slots.length)) ∧
    ∀ k r, slots[k]? = some r → ∃ b, stores[k]? = some b ∧
      (s.placed x gid base slots stores).thread? r = some (x.thread gid (s.nextGen r) (base + k) k r b) := by
  simp only [State.slotsFree, Bool.and_eq_true, List.all_eq_true, decide_eq_true_eq, Option.isNone_iff_eq_none] at hf
  obtain ⟨⟨hd, -⟩, hfree⟩ := hf
  obtain ⟨hthr, hgen, hgrp⟩ := placed_base hh (if x.group = 0 then [] else laneSets (upFrom 0 slots.length) slots) (coreOfSlot (slots.headD 0))
  unfold State.placed
  generalize (if x.group = 0 then s else s.addGroup x gid (coreOfSlot (slots.headD 0)) _) = s1 at hthr hgen hgrp
  refine ⟨fun hx => ?_, fun k r hr => ?_⟩
  · obtain ⟨g, hg, h1, h2, h3, h4, h5⟩ := hgrp hx
    refine ⟨_, addThreads_members hx (ranked slots stores) s1 hg, h1, h2, h3, h4, ?_⟩
    rw [h5, List.nil_append]
    exact ranked_members hl
  · obtain ⟨b, hb, hm⟩ := mem_ranked hl hr
    refine ⟨b, hb, (addThreads_adds (ranked slots stores) s1 (fun z hz => ?_) ?_ hm).trans (by rw [hgen])⟩
    · rw [hthr]
      exact (hfree _ (ranked_slots hl ▸ List.mem_map_of_mem hz)).1.2
    · rw [ranked_slots hl]
      exact distinct_nodup hd

/-- R69, R158 to R160: a group, or threads without one, that can stand at the slots of a creation, and what they are. -/
theorem placeGroup_places (handle : Nat) (hgid : gid = if x.group = 0 then 0 else gidOf x.ctx handle) (hl : stores.length = slots.length)
    (hf : s.slotsFree (coreOfSlot (slots.headD 0)) slots = true)
    (hs : s.setsOk (if x.group = 0 then [] else laneSets (upFrom 0 slots.length) slots) = true) (hst : s.storesOk x.ctx x.psize stores = true)
    (hu : x.group = 0 → ∀ r ∈ slots, s.unbound (blockOfSlot r) = true)
    (hg : x.group ≠ 0 → s.handleFree x.ctx handle = true ∧ ∀ r ∈ slots, clusterOfSlot r = clusterOfCore (coreOfSlot (slots.headD 0)))
    (hc : (s.placed x gid base slots stores).coresFit x.ctx (slots.map coreOfSlot) = true) :
    s.placeGroup x gid base slots stores = some (s.placed x gid base slots stores) ∧
    (x.group ≠ 0 → ∃ g, (s.placed x gid base slots stores).group? gid = some g ∧ g.scr = [] ∧ g.uni = [] ∧ g.tiles = [] ∧
      g.home = coreOfSlot (slots.headD 0) ∧ g.members = slots.zip (upFrom 0 slots.length)) ∧
    ∀ k r, slots[k]? = some r → ∃ t, (s.placed x gid base slots stores).thread? r = some t ∧ t.tid = base + k ∧ t.pc = BitVec.ofNat 64 x.entry ∧
      t.gen = (((s.tag? r).map (·.gen)).getD 0 + 1) % 32 ∧ (∀ c, c ≠ 2 → c ≠ 3 → t.reg c = 0) ∧
      t.reg 2 = BitVec.ofNat 32 x.dataAddr ∧ t.reg 3 = BitVec.ofNat 32 (x.dataAddr / 2 ^ 32) ∧ t.empty = [] ∧ t.fills = [] ∧ t.flg = 0 ∧
      t.tstat = 0 ∧ t.psel = startPsel x.kd.psel ∧ (x.kd.psel = none → t.psel = BitVec.ofNat 64 (3 + 2 ^ 32)) ∧
      t.m0 = (if x.group = 0 then none else some { gid, rank := k }) ∧ t.m1 = none ∧ t.m2 = none ∧
      t.m3 = none ∧ t.pos = 0 ∧ t.status = .runnable ∧ t.trap = none ∧ stores[k]? = some t.storeBase := by
  have hfree : x.group ≠ 0 → s.handleFree x.ctx (handleOf gid) = true ∧ s.group? gid = none := by
    intro hx
    rw [if_neg hx] at hgid
    have hh := (hg hx).1
    simp only [State.handleFree, Bool.and_eq_true, decide_eq_true_eq, Option.isNone_iff_eq_none] at hh
    rw [hgid, handleOf_gidOf hh.1.1.2]
    exact ⟨(hg hx).1, hh.2⟩
  obtain ⟨hgroup, hthreads⟩ := placed_stands (base := base) hl hf fun hx => (hfree hx).2
  refine ⟨placeGroup_eq hf hs hst hu (fun hx => ⟨(hfree hx).1, (hg hx).2⟩) hc, hgroup, fun k r hr => ?_⟩
  obtain ⟨b, hb, ht⟩ := hthreads k r hr
  have hreg := thread_reg x gid (s.nextGen r) (base + k) k r b
  refine ⟨_, ht, rfl, rfl, rfl, fun c h2 h3 => ?_, ?_, ?_, rfl, rfl, rfl, rfl, rfl, fun hp => ?_, rfl, rfl, rfl, rfl, rfl, rfl, rfl, hb⟩
  · rw [hreg, if_neg h3, if_neg h2]
  · rw [hreg, if_neg (by decide), if_pos rfl]
  · rw [hreg, if_pos rfl]
  · change startPsel x.kd.psel = _
    rw [hp]
    rfl

end

end Sys2Proof.Machine
end


section
/-! SUPPORT. The flip, and the end of a node's run (R339, R345 to R347). -/

namespace Sys2Proof.Machine

open Sys2Proof

/-! NODE_RUN_END (R339, R345 to R347) -/

/-- R345: a flip maps each shadowed page to its shadow, and keeps the pages behind every data section unmapped. -/
theorem flip_maps {s u : State} {x : Run} {edits : List TableEdit} (h : s.flip x edits = some u) (hx : x.shadows ≠ []) :
    (∀ z ∈ x.shadows, u.devPlace x.ctx (65536 * z.1) false = some (.dev (65536 * z.2.2))) ∧
      ∀ c, s.ctx? x.ctx = some c → ∀ y ∈ s.instances x.ctx, u.walk x.ctx (y.1 + instanceBytes y.2) = none := by
  unfold State.flip at h
  rw [if_neg (by simpa using hx)] at h
  dsimp only at h
  split at h
  · rename_i hok
    cases h
    simp only [Bool.and_eq_true] at hok
    obtain ⟨⟨⟨-, hflip⟩, hguard⟩, -⟩ := hok
    refine ⟨fun z hz => by simpa using List.all_eq_true.mp hflip z hz, fun c hc y hy => ?_⟩
    have hid := ctx?_id hc
    have hg := List.all_eq_true.mp (List.all_eq_true.mp hguard c (List.mem_of_find?_eq_some hc)) y (by rwa [hid])
    rw [hid] at hg
    simpa [State.guarded] using hg
  · cases h

/-- An event leaves the graphs, the runs, the threads and the mailboxes alone. -/
theorem event_rest (s : State) (ctx kind node arg0 arg1 : Nat) :
    (s.event ctx kind node arg0 arg1).graphs = s.graphs ∧ (s.event ctx kind node arg0 arg1).mailbox = s.mailbox := by
  unfold State.event
  split
  · exact ⟨rfl, rfl⟩
  · dsimp only
    split
    · exact ⟨rfl, rfl⟩
    · split
      · rename_i h
        have hs := State.Stored.writeCtx h
        exact ⟨(congrArg State.graphs hs.same).trans rfl, (congrArg State.mailbox hs.same).trans rfl⟩
      · exact ⟨rfl, rfl⟩

theorem ifRoom_of_fits {s t : State} (h : t.mailbox = s.mailbox) (hs : s.mailFits = true) : s.ifRoom t = t := by
  have ht : t.mailFits = true := by
    unfold State.mailFits at hs ⊢
    rwa [h]
  rw [State.ifRoom, if_pos ht]

section
variable {s : State} {run : Nat} {edits : List TableEdit} {x : Run} {g : Graph} {n : Node}

/-- The end of a run whose accesses are over comes to what its CIR says. -/
theorem endNode_eq {done : Option Place} {u : State} (hx : s.run? run = some x) (hg : s.graph? x.graph = some g)
    (hn : g.nodes.find? (·.idx == x.node) = some n) (hst : n.state = .running) (hd : s.dispatching = true) (hq : s.quiet x.ctx = true)
    (ho : s.runOver g x = true) (hm : s.mailFits = true) (hp : s.donePlace g n = (s, some done)) (hu : s.nodeOver g n x done edits = some u)
    (hb : u.mailbox = s.mailbox) : exec (.nodeRunEnd run edits) s = .next u := by
  refine congrArg Host.Outcome.next ?_
  unfold State.endNode
  simp only [hx, hg, Option.bind_some, hn, Option.map_some, hst, hd, hq, ho, bne_self_eq_false, Bool.not_true, Bool.or_false, Bool.false_eq_true, if_false, hp, hu,
    Option.getD_some]
  exact ifRoom_of_fits hb hm

/-- A node of a graph that is done. -/
def Node.doneAt (idx : Nat) (m : Node) : Node := if m.idx = idx then { m with state := .done } else m

/-- A node of a graph that is queued again, first in its queue. -/
def Node.retriedAt (idx : Nat) (m : Node) : Node := if m.idx = idx then { m with state := .queued, retry := m.retry + 1, order := 0 } else m

/-- The state of a node's clean end before its event. -/
def State.cleaned (s : State) (g : Graph) (n : Node) (x : Run) : State :=
  (s.modRun x.id fun y => { y with ended := true, shadows := [] }).modGraph g.id fun h => { h with nodes := h.nodes.map (Node.doneAt n.idx) }

/-- The clean end of a node that shadows nothing, has no DONE word and no successor, in a graph with more to do. -/
theorem nodeClean_eq (hg : s.graph? g.id = some g) (hsh : x.shadows = []) (hsu : n.succs = []) (hm : ∃ m ∈ g.nodes, m.idx ≠ n.idx ∧ m.state ≠ .done) :
    s.nodeClean g n x none = (s.cleaned g n x).event x.ctx 1 n.idx (x.cir.toNat &&& 10) g.entry ∧
      (s.cleaned g n x).graph? g.id = some { g with nodes := g.nodes.map (Node.doneAt n.idx) } := by
  have hgr : (s.cleaned g n x).graph? g.id = some { g with nodes := g.nodes.map (Node.doneAt n.idx) } :=
    graph?_modGraph_same (s := s.modRun x.id _) hg fun h => { h with nodes := h.nodes.map (Node.doneAt n.idx) }
  have hge : ((s.cleaned g n x).event x.ctx 1 n.idx (x.cir.toNat &&& 10) g.entry).graph? g.id = some { g with nodes := g.nodes.map (Node.doneAt n.idx) } := by
    rw [State.graph?, (event_rest ..).1]
    exact hgr
  have hnot : (g.nodes.map (Node.doneAt n.idx)).all (·.state == .done) = false := by
    obtain ⟨m, hm, hne, hst⟩ := hm
    refine List.all_eq_false.mpr ⟨_, List.mem_map_of_mem hm, ?_⟩
    rw [Node.doneAt, if_neg hne]
    simpa using hst
  refine ⟨?_, hgr⟩
  unfold State.nodeClean
  simp only [hsh, hsu, List.map_nil, State.returnFrames, List.foldl_nil, State.countDone, sortOn, State.release, List.contains_nil, Bool.false_eq_true, if_false]
  change ((s.cleaned g n x).event x.ctx 1 n.idx (x.cir.toNat &&& 10) g.entry).graphDone g.id = _
  simp only [State.graphDone, hge, hnot, Bool.not_false, if_true]

/-- R339, R345: a run that ends clean makes its node done. -/
theorem nodeRunEnd_clean (hx : s.run? run = some x) (hg : s.graph? x.graph = some g) (hn : g.nodes.find? (·.idx == x.node) = some n)
    (hst : n.state = .running) (hd : s.dispatching = true) (hq : s.quiet x.ctx = true) (ho : s.runOver g x = true) (hm : s.mailFits = true)
    (hlost : x.cir.getLsbD 2 = false) (hpoison : x.cir.getLsbD 0 = false) (habort : x.cir.getLsbD 5 = false) (he : edits = []) (hsh : x.shadows = [])
    (hsu : n.succs = []) (hdone : n.doneAddr = 0) (hmore : ∃ m ∈ g.nodes, m.idx ≠ n.idx ∧ m.state ≠ .done) :
    ∃ (w : State) (h : Graph), exec (.nodeRunEnd run edits) s = .next (w.event x.ctx 1 n.idx (x.cir.toNat &&& 10) g.entry) ∧
      w.run? run = some { x with ended := true } ∧ w.graph? g.id = some h ∧ h.nodes = g.nodes.map (Node.doneAt n.idx) ∧ w.threads = s.threads ∧ w.mem = s.mem := by
  obtain ⟨hc, hgr⟩ := nodeClean_eq (graph?_id hg ▸ hg) hsh hsu hmore
  have hbits : bit x.cir.toNat cirLOSTCMP = false ∧ bit x.cir.toNat cirPOISON = false ∧ bit x.cir.toNat cirABORT = false :=
    ⟨(bit_toNat ..).trans hlost, (bit_toNat ..).trans hpoison, (bit_toNat ..).trans habort⟩
  have hover : s.nodeOver g n x none edits = some ((s.cleaned g n x).event x.ctx 1 n.idx (x.cir.toNat &&& 10) g.entry) := by
    simp [State.nodeOver, hbits, State.flip, hsh, he, hc]
  have hplace : s.donePlace g n = (s, some none) := by simp [State.donePlace, hdone]
  refine ⟨s.cleaned g n x, _, endNode_eq hx hg hn hst hd hq ho hm hplace hover (event_rest ..).2, ?_, hgr, rfl, rfl, rfl⟩
  have hr : (s.cleaned g n x).run? run = (s.modRun x.id fun y => { y with ended := true, shadows := [] }).run? run := rfl
  rw [hr, run?_modRun s x.id (fun y => { y with ended := true, shadows := [] }) fun _ => rfl, hx, Option.map_some, if_pos rfl, ← hsh]

/-- The state of a node that is queued again, before its event. -/
def State.retried (s : State) (g : Graph) (n : Node) (x : Run) : State :=
  { s.modGraph g.id fun h => { h with nodes := h.nodes.map (Node.retriedAt n.idx) } with runs := s.runs.filter (·.id ≠ x.id) }

/-- R346, R347: a run with POISON or ABORT that may be retried puts its node at the head of its queue. -/
theorem nodeRunEnd_retries (hx : s.run? run = some x) (hg : s.graph? x.graph = some g) (hn : g.nodes.find? (·.idx == x.node) = some n)
    (hst : n.state = .running) (hd : s.dispatching = true) (hq : s.quiet x.ctx = true) (ho : s.runOver g x = true) (hm : s.mailFits = true)
    (hlost : x.cir.getLsbD 2 = false) (hcir : x.cir.getLsbD 0 = true ∨ x.cir.getLsbD 5 = true) (hnr : x.noretry = false) (hw : x.wrote = false)
    (hout : x.outward = false) (hco : x.coresident = false ∨ x.synced = false) (hret : n.retry < 2) (hsh : x.shadows = [])
    (hplace : ∃ done, s.donePlace g n = (s, some done)) :
    ∃ (w : State) (h : Graph), exec (.nodeRunEnd run edits) s = .next (w.event x.ctx 2 n.idx 0 g.entry) ∧ w.run? run = none ∧ w.graph? g.id = some h ∧
      h.nodes = g.nodes.map (Node.retriedAt n.idx) ∧ w.mem = s.mem := by
  obtain ⟨done, hplace⟩ := hplace
  have hlost' : bit x.cir.toNat cirLOSTCMP = false := (bit_toNat ..).trans hlost
  have hcir' : (bit x.cir.toNat cirPOISON || bit x.cir.toNat cirABORT) = true := by
    rw [bit_toNat, bit_toNat]
    exact Bool.or_eq_true_iff.mpr hcir
  have hretry : x.retryable n = true := by
    have hcs : (x.coresident && x.synced) = false := Bool.and_eq_false_iff.mpr hco
    simp [Run.retryable, hnr, hw, hout, hcs, hret]
  have hover : s.nodeOver g n x done edits = some ((s.retried g n x).event x.ctx 2 n.idx 0 g.entry) := by
    unfold State.nodeOver
    simp only [hlost', Bool.false_eq_true, if_false, hcir', if_true, hretry, State.nodeRetry, hsh, List.map_nil, State.returnFrames, List.foldl_nil]
    rfl
  have hgr : (s.retried g n x).graph? g.id = some { g with nodes := g.nodes.map (Node.retriedAt n.idx) } :=
    graph?_modGraph_same (graph?_id hg ▸ hg) fun h => { h with nodes := h.nodes.map (Node.retriedAt n.idx) }
  refine ⟨s.retried g n x, _, endNode_eq hx hg hn hst hd hq ho hm hplace hover (event_rest ..).2, ?_, hgr, rfl, rfl⟩
  have hid := run?_id hx
  refine List.find?_eq_none.mpr fun y hy => ?_
  have hne := (List.mem_filter.mp hy).2
  simp only [decide_eq_true_eq] at hne
  simpa [← hid] using hne

end

/-- Settles O52: the start of a node, creation and placement, the flip, and the end of a run. -/
theorem nodesRun : Obligations.NodesRun := by
  refine ⟨?_, ?_, ?_, fun s u x edits h hx => flip_maps h hx, ?_⟩
  · intro s run dataAddr frames edits g n c data hg hn hr he ha hk hf hd hc hp hda
    obtain ⟨u, x, h, hs, hx, hst, hrest⟩ := nodeStart_starts hg hn hr he ha hk hf hd hc hp hda
    exact ⟨u, x, h, hs, hx, hst.ctx, hst.graph, hst.node, hst.cir, hst.nthr, hst.group, hst.created, hst.exited, hst.dataAddr, hst.kd, hst.ended,
      hst.shadows, hrest⟩
  · intro s v u run handles slots stores x hx hd he hf h0 hn hl hb ht hs hv
    exact threadCreate_places hx hd he hf h0 hn hl hb ht hs hv
  · intro s x handle base slots stores n home gid sets s1 s2 u h0 hl hf hs hst hu hg hc
    exact placeGroup_places handle rfl hl hf hs hst hu hg hc
  · intro s run edits x g n hx hg hn hst hd hq ho hm hlost
    refine ⟨?_, ?_⟩
    · intro hpoison habort he hsh hsu hdone hmore
      exact nodeRunEnd_clean hx hg hn hst hd hq ho hm hlost hpoison habort he hsh hsu hdone hmore
    · intro hcir hnr hw hout hco hret hsh hplace
      exact nodeRunEnd_retries hx hg hn hst hd hq ho hm hlost hcir hnr hw hout hco hret hsh hplace

end Sys2Proof.Machine
end


section
/-! SUPPORT. Rounding as a function of the sign and the magnitude of an exact value (R41). -/

namespace Sys2Proof.Machine

open Sys2Proof

/-! Magnitudes -/

/-- The magnitude of an exact value. -/
def Ex.mag (x : Ex) : Rat := (x.num : Rat) / (x.den : Rat)

/-- A magnitude with the sign given. -/
def withSign (neg : Bool) (q : Rat) : Rat := if neg then -q else q

theorem abs_withSign (neg : Bool) (q : Rat) : |withSign neg q| = |q| := by cases neg <;> simp [withSign]

theorem withSign_withSign (neg : Bool) (q : Rat) : withSign neg (withSign neg q) = q := by cases neg <;> simp [withSign]

theorem withSign_mul (neg : Bool) (a b : Rat) : withSign neg a * b = withSign neg (a * b) := by cases neg <;> simp [withSign]

theorem withSign_sub (neg : Bool) (a b : Rat) : withSign neg a - withSign neg b = withSign neg (a - b) := by
  cases neg <;> simp [withSign]; ring

theorem withSign_inj {neg : Bool} {a b : Rat} : withSign neg a = withSign neg b ↔ a = b := by cases neg <;> simp [withSign]

theorem Ex.rat_eq (x : Ex) : x.rat = withSign x.neg x.mag := by
  unfold Ex.rat Ex.int Ex.mag withSign
  cases x.neg <;> simp [neg_div]

theorem Ex.mag_nonneg (x : Ex) : 0 ≤ x.mag := by unfold Ex.mag; positivity

theorem Ex.mag_pos {x : Ex} (hd : 0 < x.den) (hn : 0 < x.num) : 0 < x.mag := by unfold Ex.mag; positivity

theorem Ex.abs_rat (x : Ex) : |x.rat| = x.mag := by rw [rat_eq, abs_withSign, abs_of_nonneg x.mag_nonneg]

theorem Ex.num_eq_zero_iff {x : Ex} (hd : 0 < x.den) : x.num = 0 ↔ x.rat = 0 := by
  rw [← abs_eq_zero, x.abs_rat, mag, div_eq_zero_iff]
  have : (x.den : Rat) ≠ 0 := by exact_mod_cast hd.ne'
  simp [this]

theorem FV.rat_fin (n : Bool) (m : Nat) (e : Int) : FV.rat (.fin n m e) = withSign n (m * 2 ^ e) := by
  cases n <;> simp [FV.rat, withSign]

/-- Exact values that stand for one rational, not zero, have one sign and one magnitude. -/
theorem Ex.eq_of_rat {x y : Ex} (h : x.rat = y.rat) (h0 : x.rat ≠ 0) : x.neg = y.neg ∧ x.mag = y.mag := by
  have hm : x.mag = y.mag := by rw [← x.abs_rat, h, y.abs_rat]
  refine ⟨?_, hm⟩
  rw [x.rat_eq] at h h0
  rw [y.rat_eq, ← hm] at h
  cases hx : x.neg <;> cases hy : y.neg <;> simp_all [withSign, self_eq_neg, neg_eq_self]

/-! A magnitude rounded to a natural number (R41) -/

/-- Whether a non-negative rational is rounded away from the natural number below it. -/
def movesUp (rm : Rm) (neg : Bool) (q : Rat) : Bool :=
  if q = ⌊q⌋₊ then false else
  match rm with
  | .rne => decide (1 / 2 < q - ⌊q⌋₊) || (decide (q - ⌊q⌋₊ = 1 / 2) && ⌊q⌋₊ % 2 == 1)
  | .rtz => false
  | .rup => !neg
  | .rdn => neg
  | .rna => decide (1 / 2 ≤ q - ⌊q⌋₊)
  | .rod => ⌊q⌋₊ % 2 == 0

/-- A non-negative rational rounded to a natural number. -/
def roundNat (rm : Rm) (neg : Bool) (q : Rat) : Nat := if movesUp rm neg q then ⌊q⌋₊ + 1 else ⌊q⌋₊

theorem roundsUp_eq_movesUp (rm : Rm) (neg : Bool) {n d : Nat} (hd : 0 < d) :
    roundsUp rm neg (n / d) (n % d) d = movesUp rm neg ((n : Rat) / d) := by
  have hd' : (0 : Rat) < d := by exact_mod_cast hd
  have hr : ((n % d : Nat) : Rat) = d * ((n : Rat) / d - (n / d : Nat)) := by
    have : (n : Rat) = d * (n / d : Nat) + (n % d : Nat) := by exact_mod_cast (Nat.div_add_mod n d).symm
    rw [mul_sub, mul_div_cancel₀ _ hd'.ne']
    linarith
  have h0 : n % d = 0 ↔ (n : Rat) / d = (n / d : Nat) := by
    rw [← Nat.cast_eq_zero (R := Rat), hr, mul_eq_zero, or_iff_right hd'.ne', sub_eq_zero]
  have hlt : d < 2 * (n % d) ↔ 1 / 2 < (n : Rat) / d - (n / d : Nat) := by
    rw [← Nat.cast_lt (α := Rat), Nat.cast_mul, hr, Nat.cast_ofNat, mul_left_comm, lt_mul_iff_one_lt_right hd']
    constructor <;> intro h <;> linarith
  have heq : 2 * (n % d) = d ↔ (n : Rat) / d - (n / d : Nat) = 1 / 2 := by
    rw [← Nat.cast_inj (R := Rat), Nat.cast_mul, hr, Nat.cast_ofNat]
    constructor
    · intro h
      have := mul_left_cancel₀ hd'.ne' (show (d : Rat) * (2 * ((n : Rat) / d - (n / d : Nat))) = d * 1 by linarith)
      linarith
    · intro h; rw [h]; ring
  have hle : d ≤ 2 * (n % d) ↔ 1 / 2 ≤ (n : Rat) / d - (n / d : Nat) := by
    rw [le_iff_lt_or_eq, le_iff_lt_or_eq, hlt, eq_comm, heq, eq_comm (a := (1 / 2 : Rat))]
  unfold roundsUp movesUp
  rw [Nat.floor_div_eq_div]
  cases rm <;> simp only [h0, hlt, heq, hle]

/-- num / den / 2^u as a rational. -/
theorem scaleBy_div (num : Nat) {den : Nat} (hd : 0 < den) (u : Int) :
    0 < (scaleBy num den u).2 ∧ ((scaleBy num den u).1 : Rat) / (scaleBy num den u).2 = (num : Rat) / den / 2 ^ u := by
  unfold scaleBy
  split
  · rename_i h
    obtain ⟨n, rfl⟩ := Int.eq_ofNat_of_zero_le h
    exact ⟨Nat.mul_pos hd (Nat.two_pow_pos _), by simp [div_div]⟩
  · obtain ⟨n, rfl⟩ : ∃ n : Nat, u = -n := ⟨(-u).toNat, by omega⟩
    refine ⟨hd, ?_⟩
    simp
    ring

/-- Rounding to a multiple of 2^u looks at the sign and the magnitude alone. -/
theorem roundAt_eq (rm : Rm) {x : Ex} (hd : 0 < x.den) (u : Int) :
    roundAt rm x u = (roundNat rm x.neg (x.mag / 2 ^ u), decide (x.mag / 2 ^ u = ⌊x.mag / 2 ^ u⌋₊)) := by
  obtain ⟨hp, hs⟩ := scaleBy_div x.num hd u
  have hq : x.mag / 2 ^ u = ((scaleBy x.num x.den u).1 : Rat) / (scaleBy x.num x.den u).2 := hs.symm
  have hx : (scaleBy x.num x.den u).1 % (scaleBy x.num x.den u).2 = 0 ↔ x.mag / 2 ^ u = ⌊x.mag / 2 ^ u⌋₊ := by
    have hp' : ((scaleBy x.num x.den u).2 : Rat) ≠ 0 := by exact_mod_cast hp.ne'
    rw [hq, Nat.floor_div_eq_div, div_eq_iff hp', ← Nat.dvd_iff_mod_eq_zero]
    constructor
    · intro h
      exact_mod_cast (Nat.div_mul_cancel h).symm
    · intro h
      exact ⟨_, (show _ = _ by exact_mod_cast h).trans (Nat.mul_comm ..)⟩
  unfold roundAt roundNat
  simp only [roundsUp_eq_movesUp _ _ hp, hx, hq, Nat.floor_div_eq_div]

/-- floor(log2) of a positive quotient. -/
theorem floorLog2_eq {num den : Nat} (hn : 0 < num) (hd : 0 < den) : floorLog2 num den = Int.log 2 ((num : Rat) / den) := by
  have hd' : (0 : Rat) < den := by exact_mod_cast hd
  have hq : (0 : Rat) < (num : Rat) / den := by positivity
  have h2 : ((2 : Nat) : Rat) = 2 := rfl
  have hnl : (2 : Rat) ^ Nat.log2 num ≤ num := by exact_mod_cast Nat.log2_self_le hn.ne'
  have hnu : (num : Rat) < 2 ^ (Nat.log2 num + 1) := by exact_mod_cast Nat.lt_log2_self
  have hdl : (2 : Rat) ^ Nat.log2 den ≤ den := by exact_mod_cast Nat.log2_self_le hd.ne'
  have hdu : (den : Rat) < 2 ^ (Nat.log2 den + 1) := by exact_mod_cast Nat.lt_log2_self
  have hlow : (Nat.log2 num : Int) - Nat.log2 den - 1 ≤ Int.log 2 ((num : Rat) / den) := by
    rw [← Int.zpow_le_iff_le_log (by decide) hq, h2, sub_sub, zpow_sub₀ (by norm_num), le_div_iff₀ hd', div_mul_eq_mul_div, div_le_iff₀ (by positivity)]
    have : (2 : Rat) ^ ((Nat.log2 den : Int) + 1) = 2 ^ (Nat.log2 den + 1) := by exact_mod_cast rfl
    rw [this, zpow_natCast]
    exact mul_le_mul hnl hdu.le hd'.le (by positivity)
  have hup : Int.log 2 ((num : Rat) / den) < (Nat.log2 num : Int) - Nat.log2 den + 1 := by
    rw [← Int.lt_zpow_iff_log_lt (by decide) hq, h2, sub_add_eq_add_sub, zpow_sub₀ (by norm_num), div_lt_iff₀ hd', div_mul_eq_mul_div, lt_div_iff₀ (by positivity)]
    have : (2 : Rat) ^ ((Nat.log2 num : Int) + 1) = 2 ^ (Nat.log2 num + 1) := by exact_mod_cast rfl
    rw [this, zpow_natCast]
    exact mul_lt_mul hnu hdl (by positivity) (by positivity)
  have hiff : ∀ l : Int, (if 0 ≤ l then den * 2 ^ l.toNat ≤ num else den ≤ num * 2 ^ (-l).toNat) ↔ l ≤ Int.log 2 ((num : Rat) / den) := by
    intro l
    rw [← Int.zpow_le_iff_le_log (by decide) hq, h2, le_div_iff₀ hd']
    split
    · rename_i h
      obtain ⟨n, rfl⟩ := Int.eq_ofNat_of_zero_le h
      rw [Int.toNat_natCast, zpow_natCast, mul_comm]
      exact_mod_cast Iff.rfl
    · obtain ⟨n, rfl⟩ : ∃ n : Nat, l = -n := ⟨(-l).toNat, by omega⟩
      rw [neg_neg, Int.toNat_natCast, zpow_neg, zpow_natCast, inv_mul_le_iff₀ (by positivity), mul_comm]
      exact_mod_cast Iff.rfl
  unfold floorLog2
  dsimp only
  rw [if_congr (hiff _) rfl rfl]
  split <;> omega

/-- The exponent of the unit in the last place of a magnitude, the exponent range unbounded. -/
def ulpOf (t : Ty) (q : Rat) : Int := Int.log 2 q - ((fprec t : Int) - 1)

/-- The exponent of the unit that a magnitude is rounded to. -/
def unitOf (t : Ty) (q : Rat) : Int := max (ulpOf t q) (fmin2 t)

theorem ulpExp_eq (t : Ty) {x : Ex} (hd : 0 < x.den) (hn : 0 < x.num) : ulpExp t x = ulpOf t x.mag := by
  rw [ulpExp, floorLog2_eq hn hd]; rfl

/-- RoundTo of values of one sign and one magnitude. -/
theorem roundTo_congr (t : Ty) (rm : Rm) {x y : Ex} (hx : 0 < x.den) (hy : 0 < y.den) (hn : x.neg = y.neg) (hm : x.mag = y.mag) :
    roundTo t rm x = roundTo t rm y := by
  have h0 : x.num = 0 ↔ y.num = 0 := by
    rw [Ex.num_eq_zero_iff hx, Ex.num_eq_zero_iff hy, x.rat_eq, y.rat_eq, hn, hm]
  by_cases hz : x.num = 0
  · simp only [roundTo, hz, h0.mp hz, if_true, hn]
  · have hz' := mt h0.mpr hz
    simp only [roundTo, hz, hz', if_false, isTiny, ulpExp_eq t hx (Nat.pos_of_ne_zero hz), ulpExp_eq t hy (Nat.pos_of_ne_zero hz'),
      roundAt_eq rm hx, roundAt_eq rm hy, hn, hm]

/-- The rounding of an exact value is that of every exact value for the same rational, not zero (R41). -/
theorem roundTo_roundsFrom (t : Ty) (rm : Rm) {x : Ex} {q : Rat} (hd : 0 < x.den) (hq : x.rat = q) (h0 : q ≠ 0) :
    RoundsFrom t rm q (roundTo t rm x) := by
  intro e he hr
  obtain ⟨hn, hm⟩ := Ex.eq_of_rat (x := x) (y := e) (hq.trans hr.symm) (hq ▸ h0)
  exact roundTo_congr t rm hd he hn hm

end Sys2Proof.Machine
end


section
/-! SUPPORT. What a magnitude rounded to a natural number is, and when it reaches a power of two (R41, R42). -/

namespace Sys2Proof.Machine

open Sys2Proof

/-! The natural numbers beside a rational -/

theorem movesUp_ne {rm : Rm} {neg : Bool} {q : Rat} (h : movesUp rm neg q = true) : q ≠ ⌊q⌋₊ := fun he => by
  unfold movesUp at h
  rw [if_pos he] at h
  cases h

/-- A rounded magnitude is the number below, or the one above where the magnitude is none itself. -/
theorem roundNat_cases (rm : Rm) (neg : Bool) (q : Rat) :
    roundNat rm neg q = ⌊q⌋₊ ∧ movesUp rm neg q = false ∨ roundNat rm neg q = ⌊q⌋₊ + 1 ∧ movesUp rm neg q = true := by
  unfold roundNat
  cases movesUp rm neg q <;> simp

theorem floor_le_roundNat (rm : Rm) (neg : Bool) (q : Rat) : ⌊q⌋₊ ≤ roundNat rm neg q := by
  rcases roundNat_cases rm neg q with ⟨h, -⟩ | ⟨h, -⟩ <;> omega

theorem le_roundNat {rm : Rm} {neg : Bool} {q : Rat} {n : Nat} (h : (n : Rat) ≤ q) : n ≤ roundNat rm neg q :=
  (Nat.le_floor h).trans (floor_le_roundNat ..)

theorem roundNat_le {rm : Rm} {neg : Bool} {q : Rat} {n : Nat} (h0 : 0 ≤ q) (h : q < n) : roundNat rm neg q ≤ n := by
  have hf : ⌊q⌋₊ < n := (Nat.floor_lt h0).mpr h
  rcases roundNat_cases rm neg q with ⟨h, -⟩ | ⟨h, -⟩ <;> omega

/-- Rounding is exact where the magnitude is a natural number. -/
theorem roundNat_eq_iff {rm : Rm} {neg : Bool} {q : Rat} : (roundNat rm neg q : Rat) = q ↔ q = ⌊q⌋₊ := by
  rcases roundNat_cases rm neg q with ⟨h, -⟩ | ⟨h, hm⟩
  · rw [h]
    exact eq_comm
  · have hne := movesUp_ne hm
    have hlt := Nat.lt_floor_add_one q
    rw [h]
    push_cast
    exact ⟨fun he => absurd he.symm hlt.ne, fun he => absurd he hne⟩

/-- Where a rounded magnitude is from its exact one, by the mode: near, at most it, or at least it (R41). -/
def RoundedBy (rm : Rm) (neg : Bool) (q : Rat) (k : Nat) : Prop :=
  match rm with
  | .rne => |(k : Rat) - q| ≤ 1 / 2 ∧ (|(k : Rat) - q| = 1 / 2 → k % 2 = 0)
  | .rna => |(k : Rat) - q| ≤ 1 / 2 ∧ (|(k : Rat) - q| = 1 / 2 → q ≤ k)
  | .rtz => (k : Rat) ≤ q
  | .rup => if neg then (k : Rat) ≤ q else q ≤ k
  | .rdn => if neg then q ≤ k else (k : Rat) ≤ q
  | .rod => (k : Rat) ≠ q → k % 2 = 1

/-- The number below, where the mode keeps it. -/
theorem roundedBy_floor {rm : Rm} {neg : Bool} {q : Rat} (h0 : 0 ≤ q) (hne : q ≠ ⌊q⌋₊) (hm : movesUp rm neg q = false) :
    RoundedBy rm neg q ⌊q⌋₊ := by
  have hle : (⌊q⌋₊ : Rat) ≤ q := Nat.floor_le h0
  have hdist : |(⌊q⌋₊ : Rat) - q| = q - ⌊q⌋₊ := by rw [abs_sub_comm, abs_of_nonneg (by linarith)]
  unfold movesUp at hm
  rw [if_neg hne] at hm
  cases rm with
  | rne =>
    simp only [Bool.or_eq_false_iff, decide_eq_false_iff_not, not_lt, Bool.and_eq_false_iff, beq_eq_false_iff_ne] at hm
    obtain ⟨hhalf, htie⟩ := hm
    refine ⟨hdist ▸ hhalf, fun h => ?_⟩
    rw [hdist] at h
    have := htie.resolve_left (not_not.mpr h)
    omega
  | rna =>
    simp only [decide_eq_false_iff_not, not_le] at hm
    exact ⟨hdist ▸ hm.le, fun h => absurd (hdist ▸ h) hm.ne⟩
  | rtz => exact hle
  | rup =>
    have hn : neg = true := by simpa using hm
    rw [RoundedBy, if_pos hn]
    exact hle
  | rdn =>
    have hn : ¬neg = true := by simpa using hm
    rw [RoundedBy, if_neg hn]
    exact hle
  | rod =>
    simp only [beq_eq_false_iff_ne] at hm
    exact fun _ => by omega

/-- The number above, where the mode moves to it. -/
theorem roundedBy_floor_succ {rm : Rm} {neg : Bool} {q : Rat} (hm : movesUp rm neg q = true) : RoundedBy rm neg q (⌊q⌋₊ + 1) := by
  have hne := movesUp_ne hm
  have hlt : q < ⌊q⌋₊ + 1 := Nat.lt_floor_add_one q
  have hle : q ≤ ((⌊q⌋₊ + 1 : Nat) : Rat) := by
    push_cast
    exact hlt.le
  have hdist : |((⌊q⌋₊ + 1 : Nat) : Rat) - q| = ⌊q⌋₊ + 1 - q := by
    push_cast
    exact abs_of_nonneg (by linarith)
  unfold movesUp at hm
  rw [if_neg hne] at hm
  cases rm with
  | rne =>
    simp only [Bool.or_eq_true, decide_eq_true_eq, Bool.and_eq_true, beq_iff_eq] at hm
    refine ⟨?_, fun h => ?_⟩
    · rw [hdist]
      rcases hm with hm | ⟨hm, -⟩ <;> linarith
    · rw [hdist] at h
      rcases hm with hm | ⟨-, hm⟩
      · linarith
      · omega
  | rna =>
    simp only [decide_eq_true_eq] at hm
    refine ⟨?_, fun _ => hle⟩
    rw [hdist]
    linarith
  | rtz => cases hm
  | rup =>
    have hn : ¬neg = true := by simpa using hm
    rw [RoundedBy, if_neg hn]
    exact hle
  | rdn =>
    have hn : neg = true := by simpa using hm
    rw [RoundedBy, if_pos hn]
    exact hle
  | rod =>
    simp only [beq_iff_eq] at hm
    exact fun _ => by omega

theorem roundNat_roundedBy (rm : Rm) (neg : Bool) {q : Rat} (h0 : 0 ≤ q) : RoundedBy rm neg q (roundNat rm neg q) := by
  by_cases he : q = ⌊q⌋₊
  · have hk : (roundNat rm neg q : Rat) = q := roundNat_eq_iff.mpr he
    cases rm <;> simp [RoundedBy, hk]
  · rcases roundNat_cases rm neg q with ⟨h, hm⟩ | ⟨h, hm⟩
    · exact h ▸ roundedBy_floor h0 he hm
    · exact h ▸ roundedBy_floor_succ hm

/-! Where rounding reaches a bound (R42) -/

/-- A magnitude is rounded to `top` or past it, where `unit` is the distance from `top` to the value below. -/
def reaches (rm : Rm) (neg : Bool) (top unit q : Rat) : Prop :=
  match rm with
  | .rne | .rna => top - unit / 2 ≤ q
  | .rtz | .rod => top ≤ q
  | .rup => if neg then top ≤ q else top - unit < q
  | .rdn => if neg then top - unit < q else top ≤ q

theorem reaches_of_le {rm : Rm} {neg : Bool} {top unit q : Rat} (hu : 0 < unit) (h : top ≤ q) : reaches rm neg top unit q := by
  cases rm <;> cases neg <;> simp only [reaches, if_true, if_false, Bool.false_eq_true] <;> linarith

theorem not_reaches_of_le {rm : Rm} {neg : Bool} {top unit q : Rat} (hu : 0 < unit) (h : q ≤ top - unit) : ¬reaches rm neg top unit q := by
  cases rm <;> cases neg <;> simp only [reaches, if_true, if_false, Bool.false_eq_true, not_le, not_lt] <;> linarith

theorem reaches_mul {rm : Rm} {neg : Bool} {top unit q c : Rat} (hc : 0 < c) :
    reaches rm neg (top * c) (unit * c) (q * c) ↔ reaches rm neg top unit q := by
  have hhalf : top * c - unit * c / 2 = (top - unit / 2) * c := by ring
  have hunit : top * c - unit * c = (top - unit) * c := by ring
  cases rm <;> cases neg <;> simp [reaches, hhalf, hunit, hc]

/-- An even number is reached, from the odd one below it, as the mode says. -/
theorem le_roundNat_iff {rm : Rm} {neg : Bool} {q : Rat} {n : Nat} (h0 : 0 ≤ q) (hn : 0 < n) (he : n % 2 = 0) :
    n ≤ roundNat rm neg q ↔ reaches rm neg n 1 q := by
  have hle : (⌊q⌋₊ : Rat) ≤ q := Nat.floor_le h0
  have hlt : q < ⌊q⌋₊ + 1 := Nat.lt_floor_add_one q
  rcases Nat.lt_trichotomy n (⌊q⌋₊ + 1) with h | h | h
  · have hnq : (n : Rat) ≤ q := le_trans (by exact_mod_cast Nat.le_of_lt_succ h) hle
    exact iff_of_true (le_roundNat hnq) (reaches_of_le one_pos hnq)
  · subst h
    have hodd : ⌊q⌋₊ % 2 = 1 := by omega
    have hup : ⌊q⌋₊ + 1 ≤ roundNat rm neg q ↔ movesUp rm neg q = true := by
      rcases roundNat_cases rm neg q with ⟨h, hm⟩ | ⟨h, hm⟩ <;> rw [h, hm] <;> simp
    rw [hup]
    push_cast
    by_cases hq : q = ⌊q⌋₊
    · refine iff_of_false (fun h => movesUp_ne h hq) (not_reaches_of_le one_pos ?_)
      linarith
    · have hpos : (⌊q⌋₊ : Rat) < q := lt_of_le_of_ne hle fun h => hq h.symm
      unfold movesUp
      rw [if_neg hq]
      cases rm with
      | rne =>
        simp only [reaches, hodd, beq_self_eq_true, Bool.and_true, Bool.or_eq_true, decide_eq_true_eq]
        rw [eq_comm (b := (1 / 2 : Rat)), ← le_iff_lt_or_eq]
        constructor <;> intro h <;> linarith
      | rna =>
        simp only [reaches, decide_eq_true_eq]
        constructor <;> intro h <;> linarith
      | rtz => simpa [reaches] using hlt
      | rup => cases neg <;> simp [reaches, hpos, hlt]
      | rdn => cases neg <;> simp [reaches, hpos, hlt]
      | rod => simpa [reaches, hodd] using hlt
  · have hnq : (⌊q⌋₊ : Rat) + 1 + 1 ≤ n := by exact_mod_cast h
    refine iff_of_false (fun hk => ?_) (not_reaches_of_le one_pos (by linarith))
    rcases roundNat_cases rm neg q with ⟨h, -⟩ | ⟨h, -⟩ <;> omega

/-! Powers of two beside a magnitude (R41) -/

theorem two_zpow_log_le {q : Rat} (hq : 0 < q) : (2 : Rat) ^ Int.log 2 q ≤ q := Int.zpow_log_le_self (b := 2) (by decide) hq

theorem lt_two_zpow_log (q : Rat) : q < (2 : Rat) ^ (Int.log 2 q + 1) := Int.lt_zpow_succ_log_self (b := 2) (by decide) q

theorem two_zpow_le {i j : Int} (h : i ≤ j) : (2 : Rat) ^ i ≤ 2 ^ j := zpow_le_zpow_right₀ (by norm_num) h

theorem two_zpow_lt {i j : Int} (h : i < j) : (2 : Rat) ^ i < 2 ^ j := zpow_lt_zpow_right₀ (by norm_num) h

theorem two_zpow_pos (i : Int) : (0 : Rat) < 2 ^ i := by positivity

theorem two_zpow_mul (i j : Int) : (2 : Rat) ^ i * 2 ^ j = 2 ^ (i + j) := (zpow_add₀ (by norm_num) i j).symm

theorem two_pow_mul_zpow (n : Nat) (j : Int) : (2 : Rat) ^ n * 2 ^ j = 2 ^ ((n : Int) + j) := by rw [← two_zpow_mul, zpow_natCast]

theorem two_zpow_div_pow (i : Int) (n : Nat) : (2 : Rat) ^ i / 2 ^ n = 2 ^ (i - n) := by rw [zpow_sub₀ (by norm_num), zpow_natCast]

theorem le_div_two_zpow {a q : Rat} {u : Int} : a ≤ q / 2 ^ u ↔ a * 2 ^ u ≤ q := le_div_iff₀ (two_zpow_pos u)

theorem div_two_zpow_lt {a q : Rat} {u : Int} : q / 2 ^ u < a ↔ q < a * 2 ^ u := div_lt_iff₀ (two_zpow_pos u)

/-- A magnitude has as many units as the precision allows, at least where its unit is its own. -/
theorem div_unit_lt (t : Ty) {q : Rat} {u : Int} (h : ulpOf t q ≤ u) : q / 2 ^ u < 2 ^ fprec t := by
  rw [div_two_zpow_lt, two_pow_mul_zpow]
  refine lt_of_lt_of_le (lt_two_zpow_log q) (two_zpow_le ?_)
  unfold ulpOf at h
  omega

theorem le_div_ulp {t : Ty} (hp : 0 < fprec t) {q : Rat} (hq : 0 < q) : (2 : Rat) ^ (fprec t - 1) ≤ q / 2 ^ ulpOf t q := by
  rw [le_div_two_zpow, two_pow_mul_zpow]
  refine le_trans (two_zpow_le ?_) (two_zpow_log_le hq)
  unfold ulpOf
  omega

theorem roundNat_ulp_le {t : Ty} {rm : Rm} {neg : Bool} {q : Rat} {u : Int} (hq : 0 < q) (h : ulpOf t q ≤ u) :
    roundNat rm neg (q / 2 ^ u) ≤ 2 ^ fprec t := by
  refine roundNat_le (div_pos hq (two_zpow_pos u)).le ?_
  push_cast
  exact div_unit_lt t h

theorem le_roundNat_ulp {t : Ty} (hp : 0 < fprec t) {rm : Rm} {neg : Bool} {q : Rat} (hq : 0 < q) :
    2 ^ (fprec t - 1) ≤ roundNat rm neg (q / 2 ^ ulpOf t q) := by
  refine le_roundNat ?_
  push_cast
  exact le_div_ulp hp hq

/-- A magnitude rounded with the exponent range unbounded. -/
def unbounded (t : Ty) (rm : Rm) (neg : Bool) (q : Rat) : Rat := roundNat rm neg (q / 2 ^ ulpOf t q) * 2 ^ ulpOf t q

theorem unbounded_le (t : Ty) (rm : Rm) (neg : Bool) {q : Rat} (hq : 0 < q) : unbounded t rm neg q ≤ 2 ^ (Int.log 2 q + 1) := by
  have hk : (roundNat rm neg (q / 2 ^ ulpOf t q) : Rat) ≤ 2 ^ fprec t := by exact_mod_cast roundNat_ulp_le hq le_rfl
  refine (mul_le_mul_of_nonneg_right hk (two_zpow_pos _).le).trans ?_
  rw [two_pow_mul_zpow]
  exact two_zpow_le (by unfold ulpOf; omega)

theorem le_unbounded {t : Ty} (hp : 0 < fprec t) (rm : Rm) (neg : Bool) {q : Rat} (hq : 0 < q) : 2 ^ Int.log 2 q ≤ unbounded t rm neg q := by
  have hk : (2 : Rat) ^ (fprec t - 1) ≤ roundNat rm neg (q / 2 ^ ulpOf t q) := by exact_mod_cast le_roundNat_ulp hp hq
  refine le_trans ?_ (mul_le_mul_of_nonneg_right hk (two_zpow_pos _).le)
  rw [two_pow_mul_zpow]
  exact two_zpow_le (by unfold ulpOf; omega)

/-- A power of two is reached, with the exponent range unbounded, from the value of the format below it. -/
theorem two_zpow_le_unbounded_iff {t : Ty} (hp : 1 < fprec t) (rm : Rm) (neg : Bool) {q : Rat} (hq : 0 < q) (e : Int) :
    (2 : Rat) ^ e ≤ unbounded t rm neg q ↔ reaches rm neg (2 ^ e) (2 ^ e / 2 ^ fprec t) q := by
  have hu : (0 : Rat) < 2 ^ e / 2 ^ fprec t := by positivity
  rcases lt_trichotomy (Int.log 2 q + 1) e with h | h | h
  · refine iff_of_false (not_le.mpr ((unbounded_le t rm neg hq).trans_lt (two_zpow_lt h))) (not_reaches_of_le hu ?_)
    have hhalf : (2 : Rat) ^ (e - 1) + 2 ^ (e - 1) = 2 ^ e := by rw [← two_mul, ← zpow_one_add₀ (by norm_num)]; congr 1; omega
    have h1 : (2 : Rat) ^ e / 2 ^ fprec t ≤ 2 ^ (e - 1) := by
      rw [two_zpow_div_pow]
      exact two_zpow_le (by omega)
    have h2 : q ≤ 2 ^ (e - 1) := (lt_two_zpow_log q).le.trans (two_zpow_le (by omega))
    linarith
  · have htop : (2 : Rat) ^ e = ((2 ^ fprec t : Nat) : Rat) * 2 ^ ulpOf t q := by
      push_cast
      rw [two_pow_mul_zpow]
      congr 1
      unfold ulpOf
      omega
    have hunit : (2 : Rat) ^ e / 2 ^ fprec t = 1 * 2 ^ ulpOf t q := by
      rw [htop]
      push_cast
      rw [mul_div_cancel_left₀ _ (by positivity), one_mul]
    have hqu : q / 2 ^ ulpOf t q * 2 ^ ulpOf t q = q := div_mul_cancel₀ q (two_zpow_pos _).ne'
    have heven : 2 ^ fprec t % 2 = 0 := by rw [← Nat.succ_pred_eq_of_pos (Nat.lt_of_succ_lt hp), Nat.pow_succ]; omega
    have hscale := reaches_mul (rm := rm) (neg := neg) (top := (2 ^ fprec t : Nat)) (unit := 1) (q := q / 2 ^ ulpOf t q) (two_zpow_pos (ulpOf t q))
    rw [hqu] at hscale
    rw [hunit, htop, hscale, ← le_roundNat_iff (div_pos hq (two_zpow_pos _)).le (Nat.two_pow_pos _) heven, unbounded,
      mul_le_mul_iff_left₀ (two_zpow_pos _), Nat.cast_le]
  · have hl : e ≤ Int.log 2 q := by omega
    exact iff_of_true ((two_zpow_le hl).trans (le_unbounded (by omega) rm neg hq)) (reaches_of_le hu ((two_zpow_le hl).trans (two_zpow_log_le hq)))

end Sys2Proof.Machine
end


section
/-! SUPPORT. The bit patterns of a format, and RoundTo (R38, R41 to R43). -/

namespace Sys2Proof.Machine

open Sys2Proof

/-! The bit patterns of a format (R38) -/

theorem one_lt_fprec {t : Ty} (ht : t.isFloat = true) : 1 < fprec t := by
  cases t with
  | f16 | bf16 | f32 | f64 => decide
  | _ => cases ht

theorem fbias_pos {t : Ty} (ht : t.isFloat = true) : 0 < fbias t := by
  cases t with
  | f16 | bf16 | f32 | f64 => decide
  | _ => cases ht

theorem fsign_eq {t : Ty} (ht : t.isFloat = true) : fsign t = finf t + 2 ^ (fprec t - 1) := by
  cases t with
  | f16 | bf16 | f32 | f64 => decide
  | _ => cases ht

theorem two_pow_width (t : Ty) : 2 ^ t.width = 2 * fsign t := by cases t <;> decide

theorem fsigned_mod (t : Ty) (neg : Bool) {mag : Nat} (h : mag < fsign t) : fsigned t neg mag % fsign t = mag := by
  unfold fsigned
  cases neg <;> simp [Nat.mod_eq_of_lt h]

theorem bit_fsigned (t : Ty) (neg : Bool) {mag : Nat} (h : mag < fsign t) : bit (fsigned t neg mag) (t.width - 1) = neg := by
  have hp : 0 < fsign t := by omega
  change (fsigned t neg mag / fsign t % 2 == 1) = neg
  unfold fsigned
  cases neg with
  | false => simp [Nat.div_eq_of_lt h]
  | true => simp [Nat.add_div_right _ hp, Nat.div_eq_of_lt h]

theorem fsigned_lt (t : Ty) (neg : Bool) {mag : Nat} (h : mag < fsign t) : fsigned t neg mag < 2 ^ t.width := by
  rw [two_pow_width]
  unfold fsigned
  cases neg
  · simp; omega
  · simp; omega

theorem fsigned_mod_two {t : Ty} (ht : t.isFloat = true) (neg : Bool) (mag : Nat) : fsigned t neg mag % 2 = mag % 2 := by
  have he : fsign t % 2 = 0 := by
    cases t with
    | f16 | bf16 | f32 | f64 => decide
    | _ => cases ht
  unfold fsigned
  cases neg
  · simp
  · simp; omega

/-- The value of a pattern below infinity. -/
theorem fdec_fsigned {t : Ty} (ht : t.isFloat = true) (neg : Bool) {mag : Nat} (h : mag < finf t) :
    fdec t (fsigned t neg mag) = if mag / 2 ^ (fprec t - 1) = 0 then .fin neg (mag % 2 ^ (fprec t - 1)) (fmin2 t)
      else .fin neg (mag % 2 ^ (fprec t - 1) + 2 ^ (fprec t - 1)) (fmin2 t + (mag / 2 ^ (fprec t - 1) : Nat) - 1) := by
  have hs : mag < fsign t := lt_of_lt_of_le h (fsign_eq ht ▸ Nat.le_add_right ..)
  have hx : mag / 2 ^ (fprec t - 1) ≠ fexpMax t := fun hx => by
    have := Nat.div_mul_le_self mag (2 ^ (fprec t - 1))
    rw [hx] at this
    exact absurd h (not_lt.mpr this)
  unfold fdec
  simp only [fsigned_mod t neg hs, bit_fsigned t neg hs, if_neg hx]

/-- A finite value of a format has no more digits than its precision, and no smaller unit than that of its subnormals. -/
theorem fdec_fin_bounds {t : Ty} (ht : t.isFloat = true) {w m : Nat} {n : Bool} {e : Int} (h : fdec t w = .fin n m e) :
    m < 2 ^ fprec t ∧ fmin2 t ≤ e := by
  have hp := one_lt_fprec ht
  have hP : 2 ^ fprec t = 2 * 2 ^ (fprec t - 1) := by rw [← Nat.pow_succ']; congr 1; omega
  have hf := Nat.mod_lt (w % fsign t) (Nat.two_pow_pos (fprec t - 1))
  unfold fdec at h
  dsimp only at h
  split at h
  · split at h <;> cases h
  · split at h
    · cases h
      exact ⟨by omega, le_rfl⟩
    · rename_i hex
      cases h
      have hex' : (1 : Int) ≤ (w % fsign t / 2 ^ (fprec t - 1) : Nat) := by exact_mod_cast Nat.pos_of_ne_zero hex
      exact ⟨by omega, by linarith⟩

/-! A pattern from its unit and the multiple of it (R41) -/

/-- The pattern of k × 2^u without its sign. -/
def patternOf (t : Ty) (u : Int) (k : Nat) : Nat := (u - fmin2 t).toNat * 2 ^ (fprec t - 1) + k

/-- Such a pattern denotes k × 2^u: k has the leading digit, or the unit is that of the subnormals. -/
theorem fdec_patternOf {t : Ty} (ht : t.isFloat = true) (neg : Bool) {u : Int} {k : Nat} (hu : fmin2 t ≤ u) (hk : k ≤ 2 ^ fprec t)
    (hlead : u = fmin2 t ∨ 2 ^ (fprec t - 1) ≤ k) (h : patternOf t u k < finf t) :
    ∃ m e, fdec t (fsigned t neg (patternOf t u k)) = .fin neg m e ∧ (m : Rat) * 2 ^ e = k * 2 ^ u := by
  obtain ⟨d, rfl⟩ : ∃ d : Nat, u = fmin2 t + d := ⟨(u - fmin2 t).toNat, by omega⟩
  have hp := one_lt_fprec ht
  have hP : 2 ^ fprec t = 2 * 2 ^ (fprec t - 1) := by rw [← Nat.pow_succ']; congr 1; omega
  have hpos := Nat.two_pow_pos (fprec t - 1)
  have hpat : patternOf t (fmin2 t + d) k = k + 2 ^ (fprec t - 1) * d := by
    rw [patternOf, add_sub_cancel_left, Int.toNat_natCast, Nat.add_comm, Nat.mul_comm]
  rw [fdec_fsigned ht neg h, hpat, Nat.add_mul_div_left _ _ hpos, Nat.add_mul_mod_self_left]
  rcases Nat.lt_or_ge k (2 ^ (fprec t - 1)) with hlow | hhigh
  · have hd : d = 0 := by
      rcases hlead with h | h <;> omega
    subst hd
    exact ⟨k, fmin2 t, by simp [Nat.div_eq_of_lt hlow, Nat.mod_eq_of_lt hlow], by simp⟩
  · rcases Nat.lt_or_ge k (2 ^ fprec t) with hmid | htop
    · have hdiv : k / 2 ^ (fprec t - 1) = 1 := Nat.div_eq_of_lt_le (by omega) (by omega)
      have hmod : k % 2 ^ (fprec t - 1) = k - 2 ^ (fprec t - 1) := by
        rw [Nat.mod_eq_sub_mod hhigh, Nat.mod_eq_of_lt (by omega)]
      refine ⟨k, fmin2 t + d, ?_, rfl⟩
      rw [hdiv, hmod, if_neg (by omega)]
      congr 1
      · omega
      · push_cast; ring
    · have hk2 : k = 2 ^ (fprec t - 1) * 2 := by omega
      have hdiv : k / 2 ^ (fprec t - 1) = 2 := by rw [hk2, Nat.mul_div_cancel_left _ hpos]
      have hmod : k % 2 ^ (fprec t - 1) = 0 := by rw [hk2, Nat.mul_mod_right]
      refine ⟨2 ^ (fprec t - 1), fmin2 t + d + 1, ?_, ?_⟩
      · rw [hdiv, hmod, if_neg (by omega)]
        congr 1
        · omega
        · push_cast; ring
      · rw [hk2, zpow_add₀ (by norm_num) _ 1]
        push_cast
        ring

/-- Exponents from the least normal one up have the unit of their own magnitude, the others that of the subnormals. -/
theorem unitOf_cases {t : Ty} (ht : t.isFloat = true) (q : Rat) :
    Int.log 2 q < 1 - fbias t ∧ ulpOf t q < fmin2 t ∧ unitOf t q = fmin2 t ∨
    1 - (fbias t : Int) ≤ Int.log 2 q ∧ fmin2 t ≤ ulpOf t q ∧ unitOf t q = ulpOf t q := by
  have hp := one_lt_fprec ht
  unfold unitOf ulpOf fmin2
  omega

/-- Every multiple of its unit that a magnitude is rounded to meets the form of a pattern. -/
theorem roundNat_unit {t : Ty} (ht : t.isFloat = true) (rm : Rm) (neg : Bool) {q : Rat} (hq : 0 < q) :
    roundNat rm neg (q / 2 ^ unitOf t q) ≤ 2 ^ fprec t ∧ (unitOf t q = fmin2 t ∨ 2 ^ (fprec t - 1) ≤ ⌊q / 2 ^ unitOf t q⌋₊) := by
  have hp := one_lt_fprec ht
  refine ⟨roundNat_ulp_le hq (le_max_left ..), ?_⟩
  rcases unitOf_cases ht q with ⟨-, -, h⟩ | ⟨-, -, h⟩
  · exact .inl h
  · rw [h]
    refine .inr (Nat.le_floor ?_)
    push_cast
    exact le_div_ulp (by omega) hq

/-- The pattern of a rounded magnitude passes the largest finite one where the magnitude rounded with the exponent range unbounded does (R42). -/
theorem finf_le_patternOf {t : Ty} (ht : t.isFloat = true) (rm : Rm) (neg : Bool) {q : Rat} (hq : 0 < q) :
    finf t ≤ patternOf t (unitOf t q) (roundNat rm neg (q / 2 ^ unitOf t q)) ↔ (2 : Rat) ^ ((fbias t : Int) + 1) ≤ unbounded t rm neg q := by
  have hp := one_lt_fprec ht
  have hb := fbias_pos ht
  have hP : 2 ^ fprec t = 2 * 2 ^ (fprec t - 1) := by rw [← Nat.pow_succ']; congr 1; omega
  have hpos := Nat.two_pow_pos (fprec t - 1)
  rcases unitOf_cases ht q with ⟨hl, -, h⟩ | ⟨hl, hu, h⟩
  · have hk : roundNat rm neg (q / 2 ^ fmin2 t) ≤ 2 ^ (fprec t - 1) := by
      refine roundNat_le (div_pos hq (two_zpow_pos _)).le ?_
      push_cast
      rw [div_two_zpow_lt, two_pow_mul_zpow]
      exact (lt_two_zpow_log q).trans_le (two_zpow_le (by unfold fmin2; omega))
    refine iff_of_false ?_ (not_le.mpr ((unbounded_le t rm neg hq).trans_lt (two_zpow_lt (by omega))))
    rw [h, patternOf, sub_self, finf, fexpMax]
    have : 3 * 2 ^ (fprec t - 1) ≤ (2 * fbias t + 1) * 2 ^ (fprec t - 1) := Nat.mul_le_mul_right _ (by omega)
    simp only [Int.toNat_zero]
    omega
  · obtain ⟨d, hd⟩ : ∃ d : Nat, ulpOf t q = fmin2 t + d := ⟨(ulpOf t q - fmin2 t).toNat, by omega⟩
    have hk : roundNat rm neg (q / 2 ^ ulpOf t q) ≤ 2 ^ fprec t := roundNat_ulp_le hq le_rfl
    have hk' : 2 ^ (fprec t - 1) ≤ roundNat rm neg (q / 2 ^ ulpOf t q) := le_roundNat_ulp (by omega) hq
    have hlog : Int.log 2 q = 1 - fbias t + d := by
      unfold ulpOf fmin2 at hd
      omega
    rw [h, patternOf, finf, fexpMax, hd, add_sub_cancel_left, Int.toNat_natCast, ← hd]
    rcases Nat.lt_trichotomy (d + 1) (2 * fbias t) with hlt | heq | hgt
    · refine iff_of_false ?_ (not_le.mpr ((unbounded_le t rm neg hq).trans_lt (two_zpow_lt (by omega))))
      have : (d + 3) * 2 ^ (fprec t - 1) ≤ (2 * fbias t + 1) * 2 ^ (fprec t - 1) := Nat.mul_le_mul_right _ (by omega)
      rw [Nat.add_mul] at this
      omega
    · have htop : (2 : Rat) ^ ((fbias t : Int) + 1) = ((2 ^ fprec t : Nat) : Rat) * 2 ^ ulpOf t q := by
        push_cast
        rw [two_pow_mul_zpow]
        congr 1
        unfold ulpOf
        omega
      rw [htop, unbounded, mul_le_mul_iff_left₀ (two_zpow_pos _), Nat.cast_le, ← heq, Nat.add_mul, Nat.add_mul]
      omega
    · refine iff_of_true ?_ ((two_zpow_le (by omega)).trans (le_unbounded (by omega) rm neg hq))
      have : (2 * fbias t + 1) * 2 ^ (fprec t - 1) ≤ (d + 1) * 2 ^ (fprec t - 1) := Nat.mul_le_mul_right _ (by omega)
      rw [Nat.add_mul d] at this
      omega

/-- A magnitude is tiny where it is below the smallest normal when rounded with the exponent range unbounded (R42). -/
theorem isTiny_iff {t : Ty} (ht : t.isFloat = true) (rm : Rm) {x : Ex} (hd : 0 < x.den) (hn : 0 < x.num) :
    isTiny t rm x = true ↔ unbounded t rm x.neg x.mag < 2 ^ (1 - (fbias t : Int)) := by
  have hp := one_lt_fprec ht
  have hq := Ex.mag_pos hd hn
  unfold isTiny
  simp only [ulpExp_eq t hd hn, roundAt_eq rm hd, Bool.and_eq_true, decide_eq_true_eq]
  rcases unitOf_cases ht x.mag with ⟨hl, hu, -⟩ | ⟨hl, hu, -⟩
  · have hleast : (2 : Rat) ^ (1 - (fbias t : Int)) = ((2 ^ ((fmin2 t - ulpOf t x.mag).toNat + (fprec t - 1)) : Nat) : Rat) * 2 ^ ulpOf t x.mag := by
      push_cast
      rw [two_pow_mul_zpow]
      congr 1
      unfold fmin2 at *
      omega
    rw [hleast, unbounded, mul_lt_mul_iff_left₀ (two_zpow_pos _), Nat.cast_lt]
    exact and_iff_right hu
  · exact iff_of_false (fun h => absurd h.1 (by omega)) (not_lt.mpr ((two_zpow_le hl).trans (le_unbounded (by omega) rm x.neg hq)))

/-! RoundTo (R41 to R43) -/

/-- The multiple of its unit that an exact value is rounded to. -/
def Ex.multiple (t : Ty) (rm : Rm) (x : Ex) : Nat := roundNat rm x.neg (x.mag / 2 ^ unitOf t x.mag)

/-- The pattern that an exact value is rounded to, the sign aside. -/
def Ex.pattern (t : Ty) (rm : Rm) (x : Ex) : Nat := patternOf t (unitOf t x.mag) (x.multiple t rm)

/-- Whether an exact value is a multiple of its unit. -/
def Ex.exact (t : Ty) (x : Ex) : Bool := decide (x.mag / 2 ^ unitOf t x.mag = ⌊x.mag / 2 ^ unitOf t x.mag⌋₊)

theorem roundTo_overflow {t : Ty} {rm : Rm} {x : Ex} (hd : 0 < x.den) (hn : 0 < x.num) (h : finf t ≤ x.pattern t rm) :
    roundTo t rm x = (overflowTo t rm x.neg, flOF ||| flNX) := by
  unfold roundTo
  rw [if_neg hn.ne']
  simp only [ulpExp_eq t hd hn, roundAt_eq rm hd]
  exact if_pos h

theorem roundTo_fits {t : Ty} {rm : Rm} {x : Ex} (hd : 0 < x.den) (hn : 0 < x.num) (h : x.pattern t rm < finf t) :
    ∃ fl : Flags, roundTo t rm x = (fsigned t x.neg (x.pattern t rm), fl) ∧ fl &&& flOF = 0 ∧ (fl &&& flNX = 0 ↔ x.exact t = true) ∧
      (fl &&& flUF ≠ 0 ↔ x.exact t = false ∧ isTiny t rm x = true) := by
  refine ⟨flagIf (!x.exact t) flNX ||| flagIf (!x.exact t && isTiny t rm x) flUF, ?_, ?_⟩
  · unfold roundTo
    rw [if_neg hn.ne']
    simp only [ulpExp_eq t hd hn, roundAt_eq rm hd]
    exact if_neg (not_le.mpr h)
  · cases x.exact t <;> cases isTiny t rm x <;> simp [flagIf, flNX, flUF, flOF]

theorem roundTo_of_iff {t : Ty} {rm : Rm} {x : Ex} (hd : 0 < x.den) (hn : 0 < x.num) :
    (roundTo t rm x).2 &&& flOF ≠ 0 ↔ finf t ≤ x.pattern t rm := by
  rcases Nat.lt_or_ge (x.pattern t rm) (finf t) with h | h
  · obtain ⟨fl, hr, hof, -⟩ := roundTo_fits hd hn h
    rw [hr]
    exact iff_of_false (not_not.mpr hof) (not_le.mpr h)
  · rw [roundTo_overflow hd hn h]
    exact iff_of_true (show (flOF ||| flNX) &&& flOF ≠ 0 by decide) h

end Sys2Proof.Machine
end


section
/-! SUPPORT. RoundTo beside the values of its format, and its overflow and underflow (R41 to R43). -/

namespace Sys2Proof.Machine

open Sys2Proof

/-! Values of a format beside a rounded one (R41) -/

/-- No value of a format lies between two neighbouring multiples of a unit: the unit is that of the subnormals, or the lower multiple has the
leading digit. -/
theorem value_beside {t : Ty} (ht : t.isFloat = true) {m f : Nat} {e u : Int} (hm : m < 2 ^ fprec t) (he : fmin2 t ≤ e)
    (hlead : u = fmin2 t ∨ 2 ^ (fprec t - 1) ≤ f) : (m : Rat) * 2 ^ e / 2 ^ u ≤ f ∨ (f : Rat) + 1 ≤ m * 2 ^ e / 2 ^ u := by
  have hp := one_lt_fprec ht
  rcases lt_or_ge e u with h | h
  · have hf : (2 : Rat) ^ (fprec t - 1) ≤ f := by exact_mod_cast hlead.resolve_left (by omega)
    have hm' : (m : Rat) ≤ 2 ^ fprec t := by exact_mod_cast hm.le
    refine .inl ((div_le_iff₀ (two_zpow_pos u)).mpr ?_)
    calc (m : Rat) * 2 ^ e ≤ 2 ^ fprec t * 2 ^ e := mul_le_mul_of_nonneg_right hm' (two_zpow_pos e).le
      _ ≤ 2 ^ (fprec t - 1) * 2 ^ u := by
        rw [two_pow_mul_zpow, two_pow_mul_zpow]
        exact two_zpow_le (by omega)
      _ ≤ f * 2 ^ u := mul_le_mul_of_nonneg_right hf (two_zpow_pos u).le
  · obtain ⟨d, rfl⟩ : ∃ d : Nat, e = u + d := ⟨(e - u).toNat, by omega⟩
    have hn : (m : Rat) * 2 ^ (u + d) / 2 ^ u = (m * 2 ^ d : Nat) := by
      rw [zpow_add₀ (by norm_num), zpow_natCast, ← mul_assoc, mul_right_comm, mul_div_assoc, div_self (two_zpow_pos u).ne', mul_one]
      push_cast
      rfl
    rw [hn]
    exact (Nat.lt_or_ge f (m * 2 ^ d)).symm.imp (fun h => by exact_mod_cast h) fun h => by exact_mod_cast h

/-- A rational that lies between no two neighbouring natural numbers where `q` does, in units. -/
def Beside (q v : Rat) : Prop := v ≤ ⌊q⌋₊ ∨ (⌊q⌋₊ : Rat) + 1 ≤ v

/-- Every finite value of a format, of either sign, is beside a magnitude in its units. -/
theorem fdec_beside {t : Ty} (ht : t.isFloat = true) {q : Rat} (hq : 0 < q) {w : Nat} (h : (fdec t w).isFin = true) (neg : Bool) :
    Beside (q / 2 ^ unitOf t q) (withSign neg (fdec t w).rat / 2 ^ unitOf t q) := by
  cases hv : fdec t w with
  | nan | inf => rw [hv] at h; cases h
  | fin n m e =>
    obtain ⟨hm, he⟩ := fdec_fin_bounds ht hv
    rw [FV.rat_fin]
    by_cases hs : n = neg
    · rw [hs, withSign_withSign]
      exact value_beside ht hm he (roundNat_unit ht .rne neg hq).2
    · refine .inl (le_trans ?_ (Nat.cast_nonneg _))
      have hneg : withSign neg (withSign n (m * 2 ^ e)) = -(m * 2 ^ e) := by
        cases n <;> cases neg <;> simp_all [withSign]
      rw [hneg, neg_div]
      exact neg_nonpos.mpr (by positivity)

section
variable {rm : Rm} {neg : Bool} {q v : Rat} (h0 : 0 ≤ q) (hv : Beside q v)
include h0 hv

theorem not_between_roundNat : ¬((roundNat rm neg q : Rat) < v ∧ v < q) ∧ ¬(q < v ∧ v < roundNat rm neg q) := by
  have hle : (⌊q⌋₊ : Rat) ≤ q := Nat.floor_le h0
  have hlt : q < ⌊q⌋₊ + 1 := Nat.lt_floor_add_one q
  have hk : (roundNat rm neg q : Rat) = ⌊q⌋₊ ∨ (roundNat rm neg q : Rat) = ⌊q⌋₊ + 1 :=
    (roundNat_cases rm neg q).imp (fun h => by rw [h.1]) fun h => by rw [h.1]; push_cast; rfl
  refine ⟨fun ⟨h1, h2⟩ => ?_, fun ⟨h1, h2⟩ => ?_⟩ <;> rcases hk with hk | hk <;> rcases hv with hv | hv <;> linarith

/-- A rounded magnitude within half a unit is no farther than a value beside it, and as far only on a tie. -/
theorem nearest_roundNat (h : |(roundNat rm neg q : Rat) - q| ≤ 1 / 2) :
    |(roundNat rm neg q : Rat) - q| ≤ |v - q| ∧
    (v ≠ roundNat rm neg q → |(roundNat rm neg q : Rat) - q| = |v - q| → |(roundNat rm neg q : Rat) - q| = 1 / 2) := by
  have hle : (⌊q⌋₊ : Rat) ≤ q := Nat.floor_le h0
  have hlt : q < ⌊q⌋₊ + 1 := Nat.lt_floor_add_one q
  have hd : |v - q| = q - v ∧ v ≤ ⌊q⌋₊ ∨ |v - q| = v - q ∧ (⌊q⌋₊ : Rat) + 1 ≤ v :=
    hv.imp (fun h => ⟨by rw [abs_sub_comm, abs_of_nonneg (by linarith)], h⟩) fun h => ⟨abs_of_nonneg (by linarith), h⟩
  rcases roundNat_cases rm neg q with ⟨hk, -⟩ | ⟨hk, -⟩
  · have hk' : |(⌊q⌋₊ : Rat) - q| = q - ⌊q⌋₊ := by rw [abs_sub_comm, abs_of_nonneg (by linarith)]
    rw [hk, hk'] at h ⊢
    rcases hd with ⟨hd, hv⟩ | ⟨hd, hv⟩
    · exact ⟨by linarith, fun hne he => absurd (by linarith) hne⟩
    · exact ⟨by linarith, fun _ he => by linarith⟩
  · have hk' : |((⌊q⌋₊ + 1 : Nat) : Rat) - q| = ⌊q⌋₊ + 1 - q := by
      push_cast
      exact abs_of_nonneg (by linarith)
    rw [hk, hk'] at h ⊢
    push_cast at h ⊢
    rcases hd with ⟨hd, hv⟩ | ⟨hd, hv⟩
    · exact ⟨by linarith, fun _ he => by linarith⟩
    · exact ⟨by linarith, fun hne he => absurd (by linarith) hne⟩

end

/-- Of two values as far from a magnitude, the upper one is the larger in absolute value. -/
theorem abs_le_of_tie {q v k : Rat} (h0 : 0 ≤ q) (hqk : q ≤ k) (hne : v ≠ k) (he : |k - q| = |v - q|) : |v| ≤ |k| := by
  rw [abs_of_nonneg (by linarith : 0 ≤ k - q)] at he
  rw [abs_of_nonneg (by linarith : 0 ≤ k)]
  rcases abs_cases (v - q) with ⟨h, -⟩ | ⟨h, -⟩
  · exact absurd (by linarith) hne
  · exact abs_le.mpr ⟨by linarith, by linarith⟩

/-! Magnitudes in units, with a sign -/

section
variable {P : Rat} (hP : 0 < P) (neg : Bool) (a b : Rat)
include hP

theorem abs_sub_units : |withSign neg (a * P) - withSign neg (b * P)| = |a - b| * P := by
  rw [withSign_sub, abs_withSign, ← sub_mul, abs_mul, abs_of_pos hP]

theorem abs_units : |withSign neg (a * P)| = |a| * P := by rw [abs_withSign, abs_mul, abs_of_pos hP]

theorem units_lt : withSign neg (a * P) < withSign neg (b * P) ↔ if neg then b < a else a < b := by
  cases neg <;> simp [withSign, hP]

theorem units_le : withSign neg (a * P) ≤ withSign neg (b * P) ↔ if neg then b ≤ a else a ≤ b := by
  cases neg <;> simp [withSign, hP]

theorem units_inj : withSign neg (a * P) = withSign neg (b * P) ↔ a = b := by rw [withSign_inj, mul_left_inj' hP.ne']

end

theorem patternOf_mod_two {t : Ty} (ht : t.isFloat = true) (u : Int) (k : Nat) : patternOf t u k % 2 = k % 2 := by
  have hp := one_lt_fprec ht
  obtain ⟨p, hp⟩ : ∃ p, fprec t - 1 = p + 1 := ⟨fprec t - 2, by omega⟩
  rw [patternOf, hp, Nat.pow_succ, ← Nat.mul_assoc]
  omega

/-- What RoundTo delivers where it does not overflow. -/
theorem roundTo_value {t : Ty} (ht : t.isFloat = true) {rm : Rm} {x : Ex} (hd : 0 < x.den) (hn : 0 < x.num) (h : (roundTo t rm x).2 &&& flOF = 0) :
    (∃ m e, fdec t (roundTo t rm x).1 = .fin x.neg m e ∧ (m : Rat) * 2 ^ e = x.multiple t rm * 2 ^ unitOf t x.mag) ∧
    (roundTo t rm x).1 < 2 ^ t.width ∧ (roundTo t rm x).1 % 2 = x.multiple t rm % 2 ∧
    ((roundTo t rm x).2 &&& flNX = 0 ↔ (x.multiple t rm : Rat) = x.mag / 2 ^ unitOf t x.mag) := by
  have hq := Ex.mag_pos hd hn
  have hfit : x.pattern t rm < finf t := not_le.mp fun hle => (roundTo_of_iff hd hn).mpr hle h
  obtain ⟨hk, hlead⟩ := roundNat_unit ht rm x.neg hq
  obtain ⟨fl, hr, -, hnx, -⟩ := roundTo_fits hd hn hfit
  rw [hr]
  refine ⟨fdec_patternOf ht x.neg (le_max_right ..) hk (hlead.imp_right fun h => h.trans (floor_le_roundNat ..)) hfit, ?_, ?_, ?_⟩
  · exact fsigned_lt t x.neg (lt_of_lt_of_le hfit (fsign_eq ht ▸ Nat.le_add_right ..))
  · rw [fsigned_mod_two ht, Ex.pattern, patternOf_mod_two ht]
  · rw [hnx, Ex.exact, decide_eq_true_eq, Ex.multiple, roundNat_eq_iff]

/-- Settles O8: in units of its last place a rounded magnitude is one of the two natural numbers beside the exact one, chosen as the mode says, and every
value of the format is beside them. -/
theorem roundingIsCorrect : Obligations.RoundingIsCorrect := by
  intro t rm x ht hd hn hof
  obtain ⟨⟨m, e, hdec, hval⟩, hwidth, hpar, hnx⟩ := roundTo_value ht hd hn hof
  have hq := Ex.mag_pos hd hn
  have hP := two_zpow_pos (unitOf t x.mag)
  have hq0 : 0 ≤ x.mag / 2 ^ unitOf t x.mag := (div_pos hq hP).le
  have hy : (fdec t (roundTo t rm x).1).rat = withSign x.neg (x.multiple t rm * 2 ^ unitOf t x.mag) := by rw [hdec, FV.rat_fin, hval]
  have hx : x.rat = withSign x.neg (x.mag / 2 ^ unitOf t x.mag * 2 ^ unitOf t x.mag) := by rw [div_mul_cancel₀ _ hP.ne', ← x.rat_eq]
  refine ⟨by rw [hdec]; rfl, by rw [hdec]; rfl, hwidth, ?_, ?_⟩
  · rw [hnx, hy, hx, units_inj hP]
  · intro w hw
    have hb := fdec_beside ht hq hw x.neg
    have hz : (fdec t w).rat = withSign x.neg (withSign x.neg (fdec t w).rat / 2 ^ unitOf t x.mag * 2 ^ unitOf t x.mag) := by
      rw [div_mul_cancel₀ _ hP.ne', withSign_withSign]
    have hby : RoundedBy rm x.neg _ (x.multiple t rm) := roundNat_roundedBy rm x.neg hq0
    obtain ⟨hbelow, habove⟩ := not_between_roundNat (rm := rm) (neg := x.neg) hq0 hb
    have hnear := nearest_roundNat (rm := rm) (neg := x.neg) hq0 hb
    rw [← Ex.multiple] at hbelow habove hnear
    rw [hy, hx, hz, hpar]
    generalize withSign x.neg (fdec t w).rat / 2 ^ unitOf t x.mag = v at *
    generalize x.mag / 2 ^ unitOf t x.mag = q at *
    generalize x.multiple t rm = k at *
    simp only [units_lt hP, units_le hP, abs_sub_units hP, abs_units hP, ne_eq, units_inj hP, mul_le_mul_iff_left₀ hP, mul_left_inj' hP.ne']
    refine ⟨?_, ?_, ?_⟩
    · cases x.neg
      · exact hbelow
      · exact fun h => habove h.symm
    · cases x.neg
      · exact habove
      · exact fun h => hbelow h.symm
    · cases rm with
      | rne => exact ⟨(hnear hby.1).1, fun hne he => hby.2 ((hnear hby.1).2 hne he)⟩
      | rna =>
        obtain ⟨hhalf, htie⟩ := hby
        exact ⟨(hnear hhalf).1, fun hne he => abs_le_of_tie hq0 (htie ((hnear hhalf).2 hne he)) hne he⟩
      | rtz => exact abs_le_abs_of_nonneg (Nat.cast_nonneg k) hby
      | rup => cases hneg : x.neg <;> simpa [RoundedBy, hneg] using hby
      | rdn => cases hneg : x.neg <;> simpa [RoundedBy, hneg] using hby
      | rod => exact hby

/-! Overflow and underflow (R42, R43) -/

/-- What is below a bound after rounding is what does not reach it. -/
theorem not_reaches_iff (rm : Rm) (neg : Bool) (top unit q : Rat) : ¬reaches rm neg top unit q ↔ match rm with
    | .rne | .rna => q < top - unit / 2
    | .rtz | .rod => q < top
    | .rup => if neg then q < top else q ≤ top - unit
    | .rdn => if neg then q ≤ top - unit else q < top := by
  cases rm <;> cases neg <;> simp [reaches, -tsub_le_iff_right]

/-- Settles O9: the pattern passes the largest finite one, and the value is tiny, by where the magnitude rounded with the exponent range unbounded lies, and
a power of two is reached from the value below it. -/
theorem roundingEdges : Obligations.RoundingEdges := by
  intro t rm x ht hd hn
  have hp := one_lt_fprec ht
  have hq := Ex.mag_pos hd hn
  have htop : (2 : Rat) ^ ((fbias t : Int) + 1) = 2 ^ (fbias t + 1) := by exact_mod_cast rfl
  have hleast : (2 : Rat) ^ (1 - (fbias t : Int)) = 4 / 2 ^ (fbias t + 1) := by
    rw [← htop, show (4 : Rat) = 2 ^ (2 : Int) by norm_num, ← zpow_sub₀ (by norm_num)]
    congr 1
    omega
  have hof : (roundTo t rm x).2 &&& flOF ≠ 0 ↔ reaches rm x.neg (2 ^ (fbias t + 1)) (2 ^ (fbias t + 1) / 2 ^ fprec t) |x.rat| := by
    rw [roundTo_of_iff hd hn, Ex.pattern, Ex.multiple, finf_le_patternOf ht rm x.neg hq, two_zpow_le_unbounded_iff hp rm x.neg hq, htop, x.abs_rat]
  have htiny : isTiny t rm x = true ↔ ¬reaches rm x.neg (4 / 2 ^ (fbias t + 1)) (4 / 2 ^ (fbias t + 1) / 2 ^ fprec t) |x.rat| := by
    rw [isTiny_iff ht rm hd hn, ← not_le, two_zpow_le_unbounded_iff hp rm x.neg hq, hleast, x.abs_rat]
  refine ⟨?_, ?_, ?_⟩
  · rw [hof]
    cases rm <;> rfl
  · intro h
    rw [roundTo_overflow hd hn ((roundTo_of_iff hd hn).mp h)]
    refine ⟨rfl, ?_⟩
    cases rm <;> cases x.neg <;> simp [overflowTo]
  · have hfirst : 4 / 2 ^ (fbias t + 1) * (1 - 1 / 2 ^ (fprec t + 1)) = (4 / 2 ^ (fbias t + 1) - 4 / 2 ^ (fbias t + 1) / 2 ^ fprec t / 2 : Rat) := by
      rw [pow_succ (2 : Rat) (fprec t)]
      ring
    have hlast : 4 / 2 ^ (fbias t + 1) * (1 - 1 / 2 ^ fprec t) = (4 / 2 ^ (fbias t + 1) - 4 / 2 ^ (fbias t + 1) / 2 ^ fprec t : Rat) := by ring
    rw [not_reaches_iff, ← hfirst, ← hlast] at htiny
    have huf : (roundTo t rm x).2 &&& flUF ≠ 0 ↔ (roundTo t rm x).2 &&& flNX ≠ 0 ∧ isTiny t rm x = true := by
      rcases Nat.lt_or_ge (x.pattern t rm) (finf t) with h | h
      · obtain ⟨fl, hr, -, hnx, huf⟩ := roundTo_fits hd hn h
        rw [hr, huf, ne_eq, hnx, Bool.not_eq_true]
      · have hbig : ¬isTiny t rm x = true := by
          rw [isTiny_iff ht rm hd hn, not_lt]
          exact (two_zpow_le (by omega)).trans ((finf_le_patternOf ht rm x.neg hq).mp h)
        rw [roundTo_overflow hd hn h]
        exact iff_of_false (show ¬((flOF ||| flNX) &&& flUF ≠ 0) by decide) fun h => hbig h.2
    refine huf.trans (and_congr_right fun _ => htiny.trans ?_)
    cases rm <;> rfl

end Sys2Proof.Machine
end


section
/-! SUPPORT. Reductions over integers and bit patterns: in any order they are a product of a commutative monoid (R49, R180). -/

namespace Sys2Proof.Machine

open Sys2Proof

/-! Positions of lanes -/

/-- Over distinct positions, the product by position is the product by list. -/
theorem prod_positions {M α : Type} [CommMonoid M] (pos : α → Nat) (f : α → M) (S : Finset Nat) (l : List α) (h : (l.map pos).Nodup) :
    (∏ j ∈ S, ((l.find? (pos · == j)).map f).getD 1) = ((l.filter (pos · ∈ S)).map f).prod := by
  induction l with
  | nil => simp
  | cons q l ih =>
    obtain ⟨hq, hl⟩ := List.nodup_cons.mp h
    have hstep : ∀ j ∈ S, (((q :: l).find? (pos · == j)).map f).getD 1 =
        (if pos q = j then f q else 1) * ((l.find? (pos · == j)).map f).getD 1 := by
      intro j _
      by_cases hj : pos q = j
      · have hnone : l.find? (pos · == j) = none := List.find?_eq_none.mpr fun x hx hxj =>
          hq (hj ▸ (beq_iff_eq.mp hxj) ▸ List.mem_map_of_mem hx)
        simp [hj, hnone]
      · simp [hj]
    rw [Finset.prod_congr rfl hstep, Finset.prod_mul_distrib, ih hl, Finset.prod_ite_eq, List.filter_cons]
    by_cases hS : pos q ∈ S <;> simp [hS]

/-! The operations of R180 -/

theorem width_pos (t : Ty) : 0 < t.width := by cases t <;> decide

theorem ofInt_asInt (t : Ty) (x : BitVec t.width) : BitVec.ofInt t.width (asInt t x) = x := by
  unfold asInt
  split <;> simp

theorem asInt_inj {t : Ty} {x y : BitVec t.width} : asInt t x = asInt t y ↔ x = y :=
  ⟨fun h => by rw [← ofInt_asInt t x, h, ofInt_asInt], fun h => h ▸ rfl⟩

/-- The least and the greatest integer of a type (R49). -/
theorem asInt_bounds (t : Ty) (x : BitVec t.width) : intMin t ≤ asInt t x ∧ asInt t x ≤ intMax t := by
  have hw := width_pos t
  unfold intMin intMax asInt
  split
  · have h1 := BitVec.le_toInt x
    have h2 := BitVec.toInt_lt (x := x)
    push_cast
    omega
  · have h : (x.toNat : Int) < (2 ^ t.width : Nat) := by exact_mod_cast x.isLt
    omega

theorem asInt_ofInt_bounds (t : Ty) : asInt t (BitVec.ofInt t.width (intMin t)) = intMin t ∧ asInt t (BitVec.ofInt t.width (intMax t)) = intMax t := by
  cases t <;> decide

/-- The lesser and the greater of two bit patterns of a type. -/
def minBits (t : Ty) (a b : BitVec t.width) : BitVec t.width := if asInt t a ≤ asInt t b then a else b
def maxBits (t : Ty) (a b : BitVec t.width) : BitVec t.width := if asInt t b ≤ asInt t a then a else b

theorem asInt_minBits (t : Ty) (a b : BitVec t.width) : asInt t (minBits t a b) = min (asInt t a) (asInt t b) := by
  rw [min_def, minBits, apply_ite (asInt t)]

theorem asInt_maxBits (t : Ty) (a b : BitVec t.width) : asInt t (maxBits t a b) = max (asInt t a) (asInt t b) := by
  rw [max_comm, max_def, maxBits, apply_ite (asInt t)]

/-- The operation of a reduction on bit patterns (R180). -/
def redBits (t : Ty) (n : Nat) (a b : BitVec t.width) : BitVec t.width :=
  match n with
  | 0 => a + b
  | 1 => minBits t a b
  | 2 => maxBits t a b
  | 3 => a &&& b
  | 4 => a ||| b
  | _ => a ^^^ b

theorem redBits_comm (t : Ty) (n : Nat) (a b : BitVec t.width) : redBits t n a b = redBits t n b a :=
  match n with
  | 0 => BitVec.add_comm a b
  | 1 => asInt_inj.mp (by simp only [redBits, asInt_minBits, min_comm])
  | 2 => asInt_inj.mp (by simp only [redBits, asInt_maxBits, max_comm])
  | 3 => BitVec.and_comm a b
  | 4 => BitVec.or_comm a b
  | _ + 5 => BitVec.xor_comm a b

theorem redBits_assoc (t : Ty) (n : Nat) (a b c : BitVec t.width) : redBits t n (redBits t n a b) c = redBits t n a (redBits t n b c) :=
  match n with
  | 0 => BitVec.add_assoc a b c
  | 1 => asInt_inj.mp (by simp only [redBits, asInt_minBits, min_assoc])
  | 2 => asInt_inj.mp (by simp only [redBits, asInt_maxBits, max_assoc])
  | 3 => BitVec.and_assoc a b c
  | 4 => BitVec.or_assoc a b c
  | _ + 5 => BitVec.xor_assoc a b c

/-- The identity of a reduction as a bit pattern (R49). -/
def identityBits (t : Ty) (n : Nat) : BitVec t.width :=
  match n with
  | 1 => BitVec.ofInt t.width (intMax t)
  | 2 => BitVec.ofInt t.width (intMin t)
  | 3 => BitVec.allOnes t.width
  | _ => 0#t.width

theorem redBits_identity (t : Ty) (n : Nat) (a : BitVec t.width) : redBits t n (identityBits t n) a = a :=
  match n with
  | 0 => BitVec.zero_add a
  | 1 => asInt_inj.mp ((asInt_minBits ..).trans (min_eq_right ((asInt_bounds t a).2.trans_eq (asInt_ofInt_bounds t).2.symm)))
  | 2 => asInt_inj.mp ((asInt_maxBits ..).trans (max_eq_right ((asInt_ofInt_bounds t).1.trans_le (asInt_bounds t a).1)))
  | 3 => BitVec.allOnes_and
  | 4 => BitVec.zero_or
  | _ + 5 => BitVec.zero_xor

theorem identityBits_toNat {t : Ty} (ht : t.isFloat = false) (n : Nat) : (identityBits t n).toNat = identityOf t n := by
  have hone : (2 : Nat) ^ t.width - 1 < 2 ^ t.width := Nat.sub_lt (Nat.two_pow_pos _) Nat.one_pos
  unfold identityBits identityOf
  split <;> simp [ht]

theorem redOf_toNat (t : Ty) (n : Nat) (x y : BitVec t.width) : redOf t n x.toNat y.toNat = (redBits t n x y).toNat := by
  unfold redOf redBits minBits maxBits
  simp only [BitVec.ofNat_toNat, BitVec.setWidth_eq]
  match n with
  | 0 => exact (BitVec.toNat_add x y).symm
  | 1 | 2 => exact (apply_ite BitVec.toNat ..).symm
  | 3 => exact (BitVec.toNat_and ..).symm
  | 4 => exact (BitVec.toNat_or ..).symm
  | _ + 5 => exact (BitVec.toNat_xor ..).symm

theorem red_asInt (t : Ty) (x : BitVec t.width) : red t (asInt t x) = x.toNat := by rw [red, ← toNat_ofInt_eq_wrap, ofInt_asInt]

theorem red_add_asInt (t : Ty) (x y : BitVec t.width) : red t (asInt t x + asInt t y) = (x + y).toNat := by
  rw [red, ← toNat_ofInt_eq_wrap, BitVec.ofInt_add, ofInt_asInt, ofInt_asInt]

theorem red_minI (t : Ty) (x y : BitVec t.width) : red t (minI (asInt t x) (asInt t y)) = (minBits t x y).toNat := by
  rw [minI, minBits, apply_ite (red t), red_asInt, red_asInt, apply_ite BitVec.toNat]

theorem red_maxI (t : Ty) (x y : BitVec t.width) : red t (maxI (asInt t x) (asInt t y)) = (maxBits t x y).toNat := by
  rw [maxI, maxBits, apply_ite (red t), red_asInt, red_asInt, apply_ite BitVec.toNat]

/-- The operation that lanes combine with, over integers and bit patterns (R180). -/
theorem redOp_toNat {t : Ty} (ht : t.isFloat = false) (n : Nat) (rm : Rm) (x y : BitVec t.width) :
    redOp t n rm x.toNat y.toNat = ((redBits t n x y).toNat, 0) := by
  unfold redOp redBits
  simp only [ht, Bool.false_eq_true, if_false, iv, intOf_eq_asInt, BitVec.ofNat_toNat, BitVec.setWidth_eq]
  match n with
  | 0 => exact congrArg (·, 0) (red_add_asInt t x y)
  | 1 => exact congrArg (·, 0) (red_minI t x y)
  | 2 => exact congrArg (·, 0) (red_maxI t x y)
  | 3 => exact congrArg (·, 0) (BitVec.toNat_and ..).symm
  | 4 => exact congrArg (·, 0) (BitVec.toNat_or ..).symm
  | _ + 5 => exact congrArg (·, 0) (BitVec.toNat_xor ..).symm

/-- A bit pattern of a type under a reduction. -/
structure RedWord (t : Ty) (n : Nat) where
  bits : BitVec t.width

/-- Under a reduction the bit patterns of a type are a commutative monoid (R49, R180). -/
@[reducible] def redMonoid (t : Ty) (n : Nat) : CommMonoid (RedWord t n) where
  mul a b := ⟨redBits t n a.bits b.bits⟩
  one := ⟨identityBits t n⟩
  mul_assoc a b c := congrArg RedWord.mk (redBits_assoc t n a.bits b.bits c.bits)
  mul_comm a b := congrArg RedWord.mk (redBits_comm t n a.bits b.bits)
  one_mul a := congrArg RedWord.mk (redBits_identity t n a.bits)
  mul_one a := congrArg RedWord.mk ((redBits_comm t n a.bits _).trans (redBits_identity t n a.bits))

end Sys2Proof.Machine
end


section
/-! SUPPORT. The tree of XRED and the steps of SCAN (R181). -/

namespace Sys2Proof.Machine

open Sys2Proof

/-! Lists of positions as functions of them -/

/-- What a lane brings to a reduction, as the statements write it. -/
def RedVal.part (v : RedVal) : Nat × Flags × Bool := (v.bits, v.fl, v.met)

/-- The part at a position of a list. -/
def partAt (y : List (Option RedVal)) (j : Nat) : Part := (y[j]?).join.map RedVal.part

theorem part_combine (t : Ty) (n : Nat) (rm : Rm) (u v : Option RedVal) :
    (combine t n rm u v).map RedVal.part = joined (redOp t n rm) (u.map RedVal.part) (v.map RedVal.part) := by
  cases u <;> cases v <;> rfl

theorem redIdentity_eq (t : Ty) (n : Nat) : redIdentity t n = identityOf t n :=
  match n with
  | 0 | 3 | _ + 4 => rfl
  | 1 | 2 => by simp only [redIdentity, identityOf, red, toNat_ofInt_eq_wrap]

/-- What a lane receives (R49, R181). -/
theorem redResult_eq (t : Ty) (n : Nat) (v : Option RedVal) : redResult t n v = reduced t n (v.map RedVal.part) := by
  cases v with
  | none => exact congrArg (·, 0) (redIdentity_eq t n)
  | some x =>
    unfold redResult reduced
    simp only [Option.map_some, RedVal.part]
    cases t.isFloat && !x.met with
    | false => rfl
    | true => cases fdec t x.bits <;> rfl

/-- The part at a position of a list that is made position by position. -/
theorem partAt_map {f : Nat → Option RedVal} {n j : Nat} (h : j < n) : partAt ((upFrom 0 n).map f) j = (f j).map RedVal.part := by
  simp [partAt, upFrom_zero, h]

theorem partAt_head (y : List (Option RedVal)) : y.head?.join.map RedVal.part = partAt y 0 := by rw [partAt, List.head?_eq_getElem?]

section
variable {t : Ty} {n : Nat} {rm : Rm} {k : Nat} {x : Nat → Part}

/-- XRED's tree ends with the part that its last step leaves at position 0. -/
theorem xredTree_eq (fuel i : Nat) (hi : i ≤ k) (hf : k ≤ i + fuel) (y : List (Option RedVal)) (hl : y.length = 2 ^ k)
    (hy : ∀ j, j < 2 ^ k → 2 ^ i ∣ j → partAt y j = treeOf (redOp t n rm) x i j) :
    (xredTree (combine t n rm) fuel (2 ^ i) y).map RedVal.part = treeOf (redOp t n rm) x k 0 := by
  have hend : i = k → y.head?.join.map RedVal.part = treeOf (redOp t n rm) x k 0 := fun h => by
    rw [partAt_head, hy 0 (Nat.two_pow_pos k) (Nat.dvd_zero _), h]
  induction fuel generalizing i y with
  | zero => exact hend (by omega)
  | succ fuel ih =>
    unfold xredTree
    rw [hl]
    split
    · rename_i hle
      exact hend (by have := (Nat.pow_le_pow_iff_right (a := 2) (by decide)).mp hle; omega)
    · rename_i hgt
      have hik : i < k := (Nat.pow_lt_pow_iff_right (a := 2) (by decide)).mp (not_le.mp hgt)
      have hstep : ∀ j, j < 2 ^ k → 2 ^ (i + 1) ∣ j → partAt ((upFrom 0 (2 ^ k)).map fun j =>
          if j % 2 ^ (i + 1) = 0 then combine t n rm ((y[j]?).join) ((y[j + 2 ^ i]?).join) else (y[j]?).join) j =
            treeOf (redOp t n rm) x (i + 1) j := by
        intro j hj hd
        have hd' : 2 ^ i ∣ j := (Nat.pow_dvd_pow 2 (Nat.le_succ i)).trans hd
        have hj' : j + 2 ^ i < 2 ^ k := by
          obtain ⟨a, rfl⟩ := hd
          obtain ⟨b, hb⟩ := Nat.pow_dvd_pow 2 (show i + 1 ≤ k from hik)
          rw [hb] at hj ⊢
          have hab : a + 1 ≤ b := Nat.lt_of_mul_lt_mul_left hj
          have hpos := Nat.two_pow_pos i
          calc 2 ^ (i + 1) * a + 2 ^ i < 2 ^ (i + 1) * a + 2 ^ (i + 1) := by rw [Nat.pow_succ]; omega
            _ = 2 ^ (i + 1) * (a + 1) := (Nat.mul_succ ..).symm
            _ ≤ 2 ^ (i + 1) * b := Nat.mul_le_mul_left _ hab
        rw [partAt_map hj, if_pos (Nat.mod_eq_zero_of_dvd hd), part_combine]
        exact congrArg₂ _ (hy j hj hd') (hy _ hj' (Nat.dvd_add hd' (dvd_refl _)))
      rw [← Nat.pow_succ']
      refine ih (i + 1) hik (by omega) _ (by simp [upFrom_zero]) hstep fun h => ?_
      exact (partAt_head _).trans ((hstep 0 (Nat.two_pow_pos k) (Nat.dvd_zero _)).trans (by rw [h]))

/-- SCAN's steps leave at each position the part of the last one. -/
theorem scanTree_eq (fuel i : Nat) (hi : i ≤ k) (hf : k ≤ i + fuel) (z : List (Option RedVal)) (hl : z.length = 2 ^ k)
    (hz : ∀ j, j < 2 ^ k → partAt z j = scanOf (redOp t n rm) x i j) :
    ∀ j, j < 2 ^ k → partAt (scanTree (combine t n rm) fuel (2 ^ i) z) j = scanOf (redOp t n rm) x k j := by
  induction fuel generalizing i z with
  | zero =>
    obtain rfl : i = k := by omega
    exact hz
  | succ fuel ih =>
    unfold scanTree
    rw [hl]
    split
    · rename_i hle
      obtain rfl : i = k := by
        have := (Nat.pow_le_pow_iff_right (a := 2) (by decide)).mp hle
        omega
      exact hz
    · rename_i hgt
      have hik : i < k := (Nat.pow_lt_pow_iff_right (a := 2) (by decide)).mp (not_le.mp hgt)
      rw [← Nat.pow_succ']
      refine ih (i + 1) hik (by omega) _ (by simp [upFrom_zero]) fun j hj => ?_
      rw [partAt_map hj, scanOf]
      split
      · rw [part_combine]
        exact congrArg₂ _ (hz _ (lt_of_le_of_lt (Nat.sub_le ..) hj)) (hz j hj)
      · exact hz j hj

end

/-! The value of a tree over integers and bit patterns -/

section
variable {t : Ty} {n : Nat}

/-- A part without flags, whose bits are within the type's width. -/
def Plain (t : Ty) (p : Part) : Prop := ∀ a f m, p = some (a, f, m) → a < 2 ^ t.width ∧ f = 0

/-- The bits of a part, the identity where there is no value. -/
def partBits (t : Ty) (n : Nat) (p : Part) : BitVec t.width := (p.map fun x => BitVec.ofNat t.width x.1).getD (identityBits t n)

theorem partBits_toNat (x : BitVec t.width) (f : Flags) (m : Bool) : partBits t n (some (x.toNat, f, m)) = x :=
  (BitVec.ofNat_toNat ..).trans (BitVec.setWidth_eq x)

theorem reduced_of_plain (ht : t.isFloat = false) {p : Part} (h : Plain t p) : reduced t n p = ((partBits t n p).toNat, 0) := by
  match p, h with
  | none, _ => exact congrArg (·, 0) (identityBits_toNat ht n).symm
  | some (a, f, m), h =>
    obtain ⟨ha, hf⟩ := h a f m rfl
    simp [reduced, partBits, ht, hf, Nat.mod_eq_of_lt ha]

/-- Two plain parts combine into one, of the product of their bits. -/
theorem joined_plain (ht : t.isFloat = false) (rm : Rm) {p q : Part} (hp : Plain t p) (hq : Plain t q) :
    Plain t (joined (redOp t n rm) p q) ∧ partBits t n (joined (redOp t n rm) p q) = redBits t n (partBits t n p) (partBits t n q) := by
  match p, q, hp, hq with
  | none, q, _, hq => exact ⟨hq, (redBits_identity t n _).symm⟩
  | some x, none, hp, _ => exact ⟨hp, ((redBits_comm t n _ _).trans (redBits_identity t n _)).symm⟩
  | some (a, f, m), some (b, g, o), hp, hq =>
    obtain ⟨ha, rfl⟩ := hp a f m rfl
    obtain ⟨hb, rfl⟩ := hq b g o rfl
    obtain ⟨a, rfl⟩ : ∃ x : BitVec t.width, a = x.toNat := ⟨BitVec.ofNat t.width a, by rw [BitVec.toNat_ofNat, Nat.mod_eq_of_lt ha]⟩
    obtain ⟨b, rfl⟩ : ∃ x : BitVec t.width, b = x.toNat := ⟨BitVec.ofNat t.width b, by rw [BitVec.toNat_ofNat, Nat.mod_eq_of_lt hb]⟩
    have hj : joined (redOp t n rm) (some (a.toNat, 0, m)) (some (b.toNat, 0, o)) = some ((redBits t n a b).toNat, 0, true) := by
      simp [joined, redOp_toNat ht]
    rw [hj]
    refine ⟨fun _ _ _ h => ?_, ?_⟩
    · cases h
      exact ⟨BitVec.isLt _, rfl⟩
    · exact (partBits_toNat ..).trans (congrArg₂ (redBits t n) (partBits_toNat ..) (partBits_toNat ..)).symm

variable [CommMonoid (RedWord t n)] (hmul : ∀ a b : RedWord t n, a * b = ⟨redBits t n a.bits b.bits⟩) (ht : t.isFloat = false) (rm : Rm) {x : Nat → Part}
  (hx : ∀ j, Plain t (x j))
include hmul ht hx

theorem treeOf_plain (k j : Nat) : Plain t (treeOf (redOp t n rm) x k j) ∧
    (⟨partBits t n (treeOf (redOp t n rm) x k j)⟩ : RedWord t n) = ∏ i ∈ Finset.Ico j (j + 2 ^ k), ⟨partBits t n (x i)⟩ := by
  induction k generalizing j with
  | zero => exact ⟨hx j, by simp [treeOf]⟩
  | succ k ih =>
    obtain ⟨h1, e1⟩ := ih j
    obtain ⟨h2, e2⟩ := ih (j + 2 ^ k)
    obtain ⟨hp, he⟩ := joined_plain (n := n) ht rm h1 h2
    refine ⟨hp, ?_⟩
    rw [treeOf, he, ← hmul ⟨_⟩ ⟨_⟩, e1, e2, Nat.pow_succ', two_mul, ← Nat.add_assoc]
    exact Finset.prod_Ico_consecutive _ (Nat.le_add_right ..) (Nat.le_add_right ..)

theorem scanOf_plain (k j : Nat) : Plain t (scanOf (redOp t n rm) x k j) ∧
    (⟨partBits t n (scanOf (redOp t n rm) x k j)⟩ : RedWord t n) = ∏ i ∈ Finset.Ico (j + 1 - 2 ^ k) (j + 1), ⟨partBits t n (x i)⟩ := by
  induction k generalizing j with
  | zero => exact ⟨hx j, by simp [scanOf]⟩
  | succ k ih =>
    have hpos := Nat.two_pow_pos k
    obtain ⟨h2, e2⟩ := ih j
    unfold scanOf
    split
    · obtain ⟨h1, e1⟩ := ih (j - 2 ^ k)
      obtain ⟨hp, he⟩ := joined_plain (n := n) ht rm h1 h2
      refine ⟨hp, ?_⟩
      rw [he, ← hmul ⟨_⟩ ⟨_⟩, e1, e2, show j - 2 ^ k + 1 = j + 1 - 2 ^ k by omega, show j + 1 - 2 ^ k - 2 ^ k = j + 1 - 2 ^ (k + 1) by omega]
      exact Finset.prod_Ico_consecutive _ (show j + 1 - 2 ^ (k + 1) ≤ j + 1 - 2 ^ k by omega) (show j + 1 - 2 ^ k ≤ j + 1 by omega)
    · refine ⟨h2, e2.trans ?_⟩
      rw [show j + 1 - 2 ^ k = j + 1 - 2 ^ (k + 1) by omega]

end

end Sys2Proof.Machine
end


section
/-! SUPPORT. Segments of lanes, and what XRED and SCAN deliver (R178, R180, R181). -/

namespace Sys2Proof.Machine

open Sys2Proof

/-! Segments (R178) -/

theorem segWidth_eq (c : Nat) : segWidth c = 2 ^ (6 - c % 8) := by
  have h : ∀ m, m < 8 → max 1 (64 / 2 ^ m) = 2 ^ (6 - m) := by decide
  exact h _ (Nat.mod_lt _ (by decide))

theorem mem_segmentOf {ps : List Peer} {p q : Peer} {c : Nat} :
    q ∈ segmentOf ps p c ↔ q ∈ ps ∧ q.v.l.no / 2 ^ (6 - c % 8) = p.v.l.no / 2 ^ (6 - c % 8) := by
  have h : max 1 (64 / 2 ^ (c % 8)) = 2 ^ (6 - c % 8) := segWidth_eq c
  rw [segmentOf, h, List.mem_filter, beq_iff_eq]

/-- A number is given by its quotient and its remainder. -/
theorem eq_mul_add_iff {n m j K : Nat} (hj : j < K) : n = m * K + j ↔ n / K = m ∧ n % K = j := by
  have hK : 0 < K := by omega
  constructor
  · rintro rfl
    rw [Nat.add_comm, Nat.add_mul_div_right _ _ hK, Nat.div_eq_of_lt hj, Nat.zero_add, Nat.add_mul_mod_self_right, Nat.mod_eq_of_lt hj]
    exact ⟨rfl, rfl⟩
  · rintro ⟨rfl, rfl⟩
    exact (Nat.div_add_mod' n K).symm

/-- The lane at a position of a segment. -/
theorem segLane_eq (ps : List Peer) (p : Peer) (c : Nat) {j : Nat} (hj : j < 2 ^ (6 - c % 8)) :
    segLane ps p (segWidth c) j = (segmentOf ps p c).find? fun q => q.v.l.no % 2 ^ (6 - c % 8) == j := by
  have h : max 1 (64 / 2 ^ (c % 8)) = 2 ^ (6 - c % 8) := segWidth_eq c
  rw [segLane, segmentOf, List.find?_filter, h, segWidth_eq]
  congr 1
  funext q
  rw [Bool.eq_iff_iff, beq_iff_eq, decide_eq_true_eq, beq_iff_eq, beq_iff_eq]
  exact eq_mul_add_iff hj

/-- The part that the lane at a position of a segment brings. -/
def segPart (ps : List Peer) (p : Peer) (c : Nat) (x : Peer → Nat) (j : Nat) : Part :=
  ((segmentOf ps p c).find? fun q => q.v.l.no % 2 ^ (6 - c % 8) == j).map fun q => (x q, (0 : Flags), false)

theorem partAt_segVals (ps : List Peer) (p : Peer) (c : Nat) (x : Peer → Nat) {j : Nat} (hj : j < 2 ^ (6 - c % 8)) :
    partAt (segVals ps p (segWidth c) x) j = segPart ps p c x j := by
  rw [segVals, partAt_map ((segWidth_eq c).symm ▸ hj), segLane_eq ps p c hj, Option.map_map]
  rfl

theorem segVals_length (ps : List Peer) (p : Peer) (c : Nat) (x : Peer → Nat) : (segVals ps p (segWidth c) x).length = 2 ^ (6 - c % 8) := by
  simp [segVals, upFrom_zero, segWidth_eq]

/-! The value over a part of a segment, in any order (R180) -/

section
variable {t : Ty} {n : Nat} {ps : List Peer} {p : Peer} {c : Nat} {x : Peer → Nat}

/-- The lanes of a segment stand at distinct positions. -/
theorem segment_positions (h : (ps.map (·.v.l.no)).Nodup) : ((segmentOf ps p c).map (·.v.l.no % 2 ^ (6 - c % 8))).Nodup := by
  have hno : ((segmentOf ps p c).map (·.v.l.no)).Nodup := h.sublist ((List.filter_sublist).map _)
  have hpos : (segmentOf ps p c).map (·.v.l.no % 2 ^ (6 - c % 8)) = ((segmentOf ps p c).map (·.v.l.no)).map (· % 2 ^ (6 - c % 8)) := by
    rw [List.map_map]
    rfl
  rw [hpos]
  refine List.Nodup.map_on (fun a ha b hb hab => ?_) hno
  obtain ⟨q, hq, rfl⟩ := List.mem_map.mp ha
  obtain ⟨r, hr, rfl⟩ := List.mem_map.mp hb
  rw [← Nat.div_add_mod' q.v.l.no (2 ^ (6 - c % 8)), ← Nat.div_add_mod' r.v.l.no (2 ^ (6 - c % 8)), (mem_segmentOf.mp hq).2, (mem_segmentOf.mp hr).2, hab]

theorem segPart_plain (hx : ∀ q ∈ ps, x q < 2 ^ t.width) (j : Nat) : Plain t (segPart ps p c x j) := by
  intro a f m h
  obtain ⟨q, hq, he⟩ := Option.map_eq_some_iff.mp h
  cases he
  exact ⟨hx q (mem_segmentOf.mp (List.mem_of_find?_eq_some hq)).1, rfl⟩

section
variable [CommMonoid (RedWord t n)] (hmul : ∀ a b : RedWord t n, a * b = ⟨redBits t n a.bits b.bits⟩)
  (hone : (1 : RedWord t n) = ⟨identityBits t n⟩) (ht : t.isFloat = false)
include hmul hone ht

/-- A list folded from the identity is the product of its bits. -/
theorem foldl_redOf (l : List Peer) (hx : ∀ q ∈ l, x q < 2 ^ t.width) :
    l.foldl (fun a q => redOf t n a (x q)) (identityOf t n) = (l.map fun q => RedWord.mk (n := n) (BitVec.ofNat t.width (x q))).prod.bits.toNat := by
  have hacc : ∀ (l : List Peer) (a : RedWord t n), (∀ q ∈ l, x q < 2 ^ t.width) → l.foldl (fun a q => redOf t n a (x q)) a.bits.toNat =
      (a * (l.map fun q => RedWord.mk (n := n) (BitVec.ofNat t.width (x q))).prod).bits.toNat := by
    intro l
    induction l with
    | nil => exact fun a _ => by rw [List.map_nil, List.prod_nil, mul_one, List.foldl_nil]
    | cons q l ih =>
      intro a hl
      obtain ⟨hq, hl⟩ := List.forall_mem_cons.mp hl
      have hstep : redOf t n a.bits.toNat (x q) = (a * RedWord.mk (BitVec.ofNat t.width (x q))).bits.toNat := by
        rw [hmul, ← redOf_toNat, BitVec.toNat_ofNat, Nat.mod_eq_of_lt hq]
      rw [List.foldl_cons, hstep, ih _ hl, List.map_cons, List.prod_cons, mul_assoc]
  have h1 := hacc l 1 hx
  rw [one_mul, hone, identityBits_toNat ht] at h1
  exact h1

/-- The product over the first positions of a segment is the fold over its lanes there. -/
theorem prod_segPart (h : (ps.map (·.v.l.no)).Nodup) (hx : ∀ q ∈ ps, x q < 2 ^ t.width) (J : Nat) :
    (∏ j ∈ Finset.Ico 0 J, RedWord.mk (n := n) (partBits t n (segPart ps p c x j))).bits.toNat =
      ((segmentOf ps p c).filter fun q => q.v.l.no % 2 ^ (6 - c % 8) < J).foldl (fun a q => redOf t n a (x q)) (identityOf t n) := by
  have hpart : ∀ j ∈ Finset.Ico 0 J, RedWord.mk (n := n) (partBits t n (segPart ps p c x j)) =
      (((segmentOf ps p c).find? (·.v.l.no % 2 ^ (6 - c % 8) == j)).map fun q => RedWord.mk (BitVec.ofNat t.width (x q))).getD 1 := by
    intro j _
    rw [hone]
    unfold partBits segPart
    cases (segmentOf ps p c).find? (·.v.l.no % 2 ^ (6 - c % 8) == j) <;> rfl
  rw [foldl_redOf hmul hone ht _ fun q hq => hx q (mem_segmentOf.mp (List.mem_of_mem_filter hq)).1, Finset.prod_congr rfl hpart,
    prod_positions _ _ _ _ (segment_positions h)]
  simp only [Finset.mem_Ico, Nat.zero_le, true_and]

end

/-- Over integers and bit patterns XRED's tree comes to the fold over the segment. -/
theorem reduced_treeOf (rm : Rm) (ht : t.isFloat = false) (h : (ps.map (·.v.l.no)).Nodup) (hx : ∀ q ∈ ps, x q < 2 ^ t.width) :
    reduced t n (treeOf (redOp t n rm) (segPart ps p c x) (6 - c % 8) 0) =
      ((segmentOf ps p c).foldl (fun a q => redOf t n a (x q)) (identityOf t n), 0) := by
  let _ := redMonoid t n
  obtain ⟨hplain, hbits⟩ := treeOf_plain (n := n) (fun _ _ => rfl) ht rm (segPart_plain (p := p) (c := c) hx) (6 - c % 8) 0
  have hfold := prod_segPart (n := n) (p := p) (c := c) (fun _ _ => rfl) rfl ht h hx (0 + 2 ^ (6 - c % 8))
  rw [← hbits, Nat.zero_add, List.filter_eq_self.mpr fun q _ => decide_eq_true (Nat.mod_lt _ (Nat.two_pow_pos _))] at hfold
  rw [reduced_of_plain ht hplain, hfold]

/-- Over integers and bit patterns SCAN's steps come to the fold over the segment up to a position. -/
theorem reduced_scanOf (rm : Rm) (ht : t.isFloat = false) (h : (ps.map (·.v.l.no)).Nodup) (hx : ∀ q ∈ ps, x q < 2 ^ t.width) {j : Nat}
    (hj : j < 2 ^ (6 - c % 8)) : reduced t n (scanOf (redOp t n rm) (segPart ps p c x) (6 - c % 8) j) =
      (((segmentOf ps p c).filter fun q => q.v.l.no % 2 ^ (6 - c % 8) < j + 1).foldl (fun a q => redOf t n a (x q)) (identityOf t n), 0) := by
  let _ := redMonoid t n
  obtain ⟨hplain, hbits⟩ := scanOf_plain (n := n) (fun _ _ => rfl) ht rm (segPart_plain (p := p) (c := c) hx) (6 - c % 8) j
  have hfold := prod_segPart (n := n) (p := p) (c := c) (fun _ _ => rfl) rfl ht h hx (j + 1)
  rw [Nat.sub_eq_zero_of_le hj] at hbits
  rw [← hbits] at hfold
  rw [reduced_of_plain ht hplain, hfold]

/-- Within a segment lanes stand in the order of their positions. -/
theorem position_le_iff {q : Peer} (h : q ∈ segmentOf ps p c) :
    q.v.l.no % 2 ^ (6 - c % 8) ≤ p.v.l.no % 2 ^ (6 - c % 8) ↔ q.v.l.no ≤ p.v.l.no := by
  have hq := Nat.div_add_mod q.v.l.no (2 ^ (6 - c % 8))
  have hp := Nat.div_add_mod p.v.l.no (2 ^ (6 - c % 8))
  rw [(mem_segmentOf.mp h).2] at hq
  omega

theorem position_lt_iff {q : Peer} (h : q ∈ segmentOf ps p c) :
    q.v.l.no % 2 ^ (6 - c % 8) < p.v.l.no % 2 ^ (6 - c % 8) ↔ q.v.l.no < p.v.l.no := by
  have hq := Nat.div_add_mod q.v.l.no (2 ^ (6 - c % 8))
  have hp := Nat.div_add_mod p.v.l.no (2 ^ (6 - c % 8))
  rw [(mem_segmentOf.mp h).2] at hq
  omega

end

/-! What lanes receive (R181) -/

theorem runCross_eq {i : Instr} {s s' : State} {v : View} {ps : List Peer} (t : Ty) (res : List Peer → Peer → Nat × Flags)
    (hv : s.view = some v) (hp : s.readPeers (s.crossPeers v i) = (s', some ps)) : runCross i s t res = .next (s'.givePeers ps t (res ps)) := by
  unfold runCross
  simp only [hv, hp]

theorem bit_three (x : BitVec 4) : bit x.toNat 3 = decide (8 ≤ x.toNat) := by
  revert x
  decide

theorem flags_lt (t : Ty) (f : Flags) : f.toNat < 2 ^ t.width :=
  lt_of_lt_of_le f.isLt (Nat.pow_le_pow_right (by decide) (by cases t <;> decide))

/-- The source of a lane in an XRED: its flags with fn[3]. -/
def xredSource (f : FX) (q : Peer) : Nat := if f.fn.toNat < 8 then q.vals.getD 0 0 % 2 ^ f.ty.width else q.v.flags.toNat

theorem xredSource_lt (f : FX) (q : Peer) : xredSource f q < 2 ^ f.ty.width := by
  unfold xredSource
  split
  · exact Nat.mod_lt _ (Nat.two_pow_pos _)
  · exact flags_lt ..

/-- The rounding mode of a reduction. -/
def redModeOf (f : FX) : Rm := (Rm.ofCode? (f.c.toNat / 8 % 8)).getD .rne

/-- What XRED gives a lane: its segment's tree. -/
theorem execXred_eq (f : FX) {s s' : State} {v : View} {ps : List Peer} (hv : s.view = some v)
    (hp : s.readPeers (s.crossPeers v (.xred f)) = (s', some ps)) :
    exec (.xred f) s = .next (s'.givePeers ps f.ty fun p => reduced f.ty (f.fn.toNat % 8)
      (treeOf (redOp f.ty (f.fn.toNat % 8) (redModeOf f)) (segPart ps p f.c.toNat (xredSource f)) (6 - f.c.toNat % 8) 0)) := by
  refine (runCross_eq f.ty _ hv hp).trans (congrArg (fun r => Host.Outcome.next (s'.givePeers ps f.ty r)) (funext fun p => ?_))
  have hsrc : (fun q : Peer => if bit f.fn.toNat 3 then q.v.flags.toNat else bv f.ty (arg q.vals 0)) = xredSource f := by
    funext q
    rw [bit_three, xredSource]
    by_cases h : f.fn.toNat < 8
    · simp only [h, not_le.mpr h, decide_false, Bool.false_eq_true, if_true, if_false]
      rfl
    · simp only [h, not_lt.mp h, decide_true, if_true, if_false]
  dsimp only
  rw [hsrc, redResult_eq]
  exact congrArg _ (xredTree_eq 7 0 (Nat.zero_le _) (by omega) _ (segVals_length ..) fun j hj _ => partAt_segVals ps p _ _ hj)

/-- What SCAN gives a lane: its position's part after the steps, or with fn[3] that of the position before. -/
theorem execScan_eq (f : FX) {s s' : State} {v : View} {ps : List Peer} (hv : s.view = some v)
    (hp : s.readPeers (s.crossPeers v (.scan f)) = (s', some ps)) :
    exec (.scan f) s = .next (s'.givePeers ps f.ty fun p =>
      let y := scanOf (redOp f.ty (f.fn.toNat % 8) (redModeOf f)) (segPart ps p f.c.toNat fun q => q.vals.getD 0 0 % 2 ^ f.ty.width) (6 - f.c.toNat % 8)
      let j := p.v.l.no % 2 ^ (6 - f.c.toNat % 8)
      reduced f.ty (f.fn.toNat % 8) (if f.fn.toNat < 8 then y j else if j = 0 then none else y (j - 1))) := by
  refine (runCross_eq f.ty _ hv hp).trans (congrArg (fun r => Host.Outcome.next (s'.givePeers ps f.ty r)) (funext fun p => ?_))
  have hlt : p.v.l.no % 2 ^ (6 - f.c.toNat % 8) < 2 ^ (6 - f.c.toNat % 8) := Nat.mod_lt _ (Nat.two_pow_pos _)
  have hz := scanTree_eq (t := f.ty) (n := f.fn.toNat % 8) (rm := (redModeOf f)) 7 0 (Nat.zero_le _) (by omega)
    (segVals ps p (segWidth f.c.toNat) fun q => q.vals.getD 0 0 % 2 ^ f.ty.width) (segVals_length ..) fun j hj => partAt_segVals ps p _ _ hj
  rw [segWidth_eq] at hz
  dsimp only
  rw [redResult_eq, segWidth_eq, bit_three]
  by_cases h : f.fn.toNat < 8
  · simp only [h, not_le.mpr h, decide_false, Bool.false_eq_true, if_true, if_false]
    exact congrArg _ (hz _ hlt)
  · simp only [h, not_lt.mp h, decide_true, if_true, if_false]
    split
    · rfl
    · exact congrArg _ (hz _ (by omega))

/-- Settles O58: the tree and the steps are those of the model; over integers and bit patterns they come to the product of the positions they cover. -/
theorem reductions : Obligations.Reductions := by
  intro s s' v f ps hv hnd hno hfn n op k val src at_
  refine ⟨fun hp => ⟨_, execXred_eq f hv hp, fun p _ => ⟨fun ht => ?_, fun _ => rfl⟩⟩,
    fun hp => ⟨_, execScan_eq f hv hp, fun p _ => ⟨fun ht => ?_, fun _ => rfl⟩⟩⟩
  · exact reduced_treeOf _ ht hnd fun q _ => xredSource_lt f q
  · have hval : ∀ q ∈ ps, val q < 2 ^ f.ty.width := fun q _ => Nat.mod_lt _ (Nat.two_pow_pos _)
    have hj : p.v.l.no % 2 ^ k < 2 ^ k := Nat.mod_lt _ (Nat.two_pow_pos _)
    by_cases h : f.fn.toNat < 8
    · simp only [h, if_true]
      refine (reduced_scanOf _ ht hnd hval hj).trans (congrArg (List.foldl _ _ ·, 0) (List.filter_congr fun q hq => ?_))
      exact decide_eq_decide.mpr (Nat.lt_succ_iff.trans (position_le_iff hq))
    · simp only [h, if_false]
      have hlt : ∀ q ∈ segmentOf ps p f.c.toNat, decide (q.v.l.no % 2 ^ k < p.v.l.no % 2 ^ k) = decide (q.v.l.no < p.v.l.no) :=
        fun q hq => decide_eq_decide.mpr (position_lt_iff hq)
      rw [← List.filter_congr hlt]
      split
      · rename_i h0
        have hnone : ∀ q ∈ segmentOf ps p f.c.toNat, ¬decide (q.v.l.no % 2 ^ k < p.v.l.no % 2 ^ k) = true := fun q _ => by
          rw [decide_eq_true_eq, show p.v.l.no % 2 ^ k = 0 from h0]
          exact Nat.not_lt_zero _
        rw [List.filter_eq_nil_iff.mpr hnone]
        rfl
      · rename_i h0
        have h1 : p.v.l.no % 2 ^ k - 1 + 1 = p.v.l.no % 2 ^ k := Nat.sub_add_cancel (Nat.pos_of_ne_zero h0)
        refine (reduced_scanOf _ ht hnd hval (Nat.lt_of_le_of_lt (Nat.sub_le ..) hj)).trans ?_
        rw [h1]

end Sys2Proof.Machine
end


section
/-! SUPPORT. Sums and products of exact values, and the sum and the fused sum of two and three values (R42, R96). -/

namespace Sys2Proof.Machine

open Sys2Proof

/-! Exact sums and products (R96) -/

theorem exInt_rat (n : Int) (d : Nat) : (exInt n d).rat = n / d := by
  unfold exInt Ex.rat Ex.int
  by_cases h : n < 0
  · simp [h, abs_of_neg h]
  · simp [h, abs_of_nonneg (not_lt.mp h)]

theorem Ex.add_den_pos {rm : Rm} {x y : Ex} (hx : 0 < x.den) (hy : 0 < y.den) : 0 < (x.add rm y).den := by
  unfold Ex.add
  dsimp only
  split
  · exact Nat.one_pos
  · exact Nat.mul_pos hx hy

/-- The numerator of an exact sum is zero where the sum of the rationals is. -/
theorem Ex.cross_add_eq_zero {x y : Ex} (hx : 0 < x.den) (hy : 0 < y.den) :
    x.int * (y.den : Int) + y.int * (x.den : Int) = 0 ↔ x.rat + y.rat = 0 := by
  have hx' : (x.den : Rat) ≠ 0 := by exact_mod_cast hx.ne'
  have hy' : (y.den : Rat) ≠ 0 := by exact_mod_cast hy.ne'
  unfold Ex.rat
  rw [div_add_div _ _ hx' hy', div_eq_zero_iff, or_iff_left (mul_ne_zero hx' hy'), mul_comm (x.den : Rat)]
  exact_mod_cast Iff.rfl

theorem Ex.add_rat (rm : Rm) {x y : Ex} (hx : 0 < x.den) (hy : 0 < y.den) : (x.add rm y).rat = x.rat + y.rat := by
  have hx' : (x.den : Rat) ≠ 0 := by exact_mod_cast hx.ne'
  have hy' : (y.den : Rat) ≠ 0 := by exact_mod_cast hy.ne'
  have hiff := Ex.cross_add_eq_zero hx hy
  unfold Ex.add
  dsimp only
  split
  · rename_i h
    rw [hiff.mp h]
    simp [Ex.rat, Ex.int]
  · rw [exInt_rat]
    unfold Ex.rat
    push_cast
    rw [div_add_div _ _ hx' hy', mul_comm (x.den : Rat) y.int]

/-- An exact zero sum has its operands' sign, or where they differ the mode's (R42). -/
theorem Ex.add_of_zero (rm : Rm) {x y : Ex} (hx : 0 < x.den) (hy : 0 < y.den) (h : x.rat + y.rat = 0) :
    x.add rm y = ⟨if x.neg = y.neg then x.neg else rm == .rdn, 0, 1⟩ := by
  unfold Ex.add
  exact if_pos ((Ex.cross_add_eq_zero hx hy).mpr h)

theorem Ex.mul_den_pos {x y : Ex} (hx : 0 < x.den) (hy : 0 < y.den) : 0 < (x.mul y).den := Nat.mul_pos hx hy

theorem Ex.mul_rat (x y : Ex) : (x.mul y).rat = x.rat * y.rat := by
  simp only [Ex.rat_eq, Ex.mag, Ex.mul, Nat.cast_mul]
  rw [mul_div_mul_comm]
  cases x.neg <;> cases y.neg <;> simp [withSign]

/-! Finite values as exact ones -/

theorem exDyadic_neg (n : Bool) (m : Nat) (e : Int) : (exDyadic n m e).neg = n := by
  unfold exDyadic
  split <;> rfl

theorem FV.ex_den_pos (v : FV) : 0 < v.ex.den := by
  cases v with
  | fin n m e => exact exDyadic_den_pos n m e
  | _ => exact Nat.one_pos

theorem FV.ex_rat (v : FV) : v.ex.rat = v.rat := by
  cases v with
  | fin n m e => exact exDyadic_rat n m e
  | _ => simp [FV.ex, FV.rat, Ex.rat, Ex.int]

theorem FV.ex_neg {v : FV} (h : v.isFin = true) : v.ex.neg = v.neg := by
  cases v with
  | fin n m e => exact exDyadic_neg n m e
  | _ => cases h

/-- RoundTo of an exact zero keeps its sign. -/
theorem roundTo_zero (t : Ty) (rm : Rm) {x : Ex} (h : x.num = 0) : roundTo t rm x = (fsigned t x.neg 0, 0) := if_pos h

/-- The exact sum of two exact values, rounded once (R42, R96). -/
theorem roundTo_add (t : Ty) (rm : Rm) {x y : Ex} (hx : 0 < x.den) (hy : 0 < y.den) :
    (x.rat + y.rat ≠ 0 → RoundsFrom t rm (x.rat + y.rat) (roundTo t rm (x.add rm y))) ∧
    (x.rat + y.rat = 0 → roundTo t rm (x.add rm y) = (fsigned t (if x.neg = y.neg then x.neg else rm == .rdn) 0, 0)) := by
  refine ⟨roundTo_roundsFrom t rm (Ex.add_den_pos hx hy) (Ex.add_rat rm hx hy), fun h => ?_⟩
  rw [Ex.add_of_zero rm hx hy h]
  exact roundTo_zero t rm rfl

/-! The kinds of value -/

theorem FV.isNan_iff {v : FV} : v.isNan = true ↔ ∃ s, v = .nan s := by cases v <;> simp [FV.isNan]

theorem FV.isInf_iff {v : FV} : v.isInf = true ↔ ∃ n, v = .inf n := by cases v <;> simp [FV.isInf]

theorem FV.isFin_iff {v : FV} : v.isFin = true ↔ ∃ n m e, v = .fin n m e := by cases v <;> simp [FV.isFin]

/-- A value that is neither NaN nor infinite is finite. -/
theorem FV.isFin_of {v : FV} (hn : v.isNan = false) (hi : v.isInf = false) : v.isFin = true := by
  cases v with
  | nan => cases hn
  | inf => cases hi
  | fin => rfl

theorem FV.not_nan_inf_of_isFin {v : FV} (h : v.isFin = true) : v.isNan = false ∧ v.isInf = false := by
  obtain ⟨n, m, e, rfl⟩ := FV.isFin_iff.mp h
  exact ⟨rfl, rfl⟩

theorem FV.isSNan_of_not_nan {v : FV} (h : v.isNan = false) : v.isSNan = false := by
  cases v with
  | nan => cases h
  | _ => rfl

/-- A zero is finite, and an infinity is no NaN. -/
theorem FV.isFin_of_isZero {v : FV} (h : v.isZero = true) : v.isFin = true := by
  cases v with
  | fin => rfl
  | _ => cases h

theorem FV.not_nan_of_isInf {v : FV} (h : v.isInf = true) : v.isNan = false := by
  obtain ⟨n, rfl⟩ := FV.isInf_iff.mp h
  rfl

/-! FADD (R96) -/

theorem fAdd_inf_inf (t : Ty) (rm : Rm) (n m : Bool) :
    fAdd t rm (.inf n) (.inf m) = if n = m then (fsigned t n (finf t), 0) else (fnan t, flIV) := rfl

theorem fAdd_inf_fin (t : Ty) (rm : Rm) (n k : Bool) (m : Nat) (e : Int) : fAdd t rm (.inf n) (.fin k m e) = (fsigned t n (finf t), 0) := rfl

theorem fAdd_fin_inf (t : Ty) (rm : Rm) (n k : Bool) (m : Nat) (e : Int) : fAdd t rm (.fin k m e) (.inf n) = (fsigned t n (finf t), 0) := rfl

theorem fAdd_fin {a b : FV} (t : Ty) (rm : Rm) (ha : a.isFin = true) (hb : b.isFin = true) : fAdd t rm a b = roundTo t rm (a.ex.add rm b.ex) := by
  obtain ⟨n, m, e, rfl⟩ := FV.isFin_iff.mp ha
  obtain ⟨k, j, f, rfl⟩ := FV.isFin_iff.mp hb
  rfl

/-- FADD gives the sum of R96. -/
theorem fAdd_sumOf (t : Ty) (rm : Rm) (a b : FV) : SumOf t rm a b (fAdd t rm a b) := by
  have hround := roundTo_add t rm (FV.ex_den_pos a) (FV.ex_den_pos b)
  rw [FV.ex_rat, FV.ex_rat] at hround
  refine ⟨fun h => ?_, fun ha hb => ?_, fun ha hb => ?_, fun ha hb => ?_, fun ha hb => ?_, fun ha hb => ?_⟩
  · unfold fAdd
    rw [if_pos h]
    simp [snanFlag, flagIf]
  · obtain ⟨n, rfl⟩ := FV.isInf_iff.mp ha
    obtain ⟨m, rfl⟩ := FV.isInf_iff.mp hb
    exact fAdd_inf_inf t rm n m
  · obtain ⟨n, rfl⟩ := FV.isInf_iff.mp ha
    obtain ⟨k, m, e, rfl⟩ := FV.isFin_iff.mp hb
    exact fAdd_inf_fin t rm n k m e
  · obtain ⟨k, m, e, rfl⟩ := FV.isFin_iff.mp ha
    obtain ⟨n, rfl⟩ := FV.isInf_iff.mp hb
    exact fAdd_fin_inf t rm n k m e
  · rw [fAdd_fin t rm ha hb]
    exact hround.1
  · rw [fAdd_fin t rm ha hb, ← FV.ex_neg ha, ← FV.ex_neg hb]
    exact hround.2

/-! FMA (R96) -/

/-- A product that has no value: zero times infinity. -/
def zeroTimesInf (a b : FV) : Bool := a.isInf && b.isZero || a.isZero && b.isInf

theorem zeroTimesInf_not_nan {a b : FV} (h : zeroTimesInf a b = true) : a.isNan = false ∧ b.isNan = false := by
  rcases Bool.or_eq_true_iff.mp h with h | h <;> obtain ⟨ha, hb⟩ := (Bool.and_eq_true _ _).mp h
  · exact ⟨FV.not_nan_of_isInf ha, (FV.not_nan_inf_of_isFin (FV.isFin_of_isZero hb)).1⟩
  · exact ⟨(FV.not_nan_inf_of_isFin (FV.isFin_of_isZero ha)).1, FV.not_nan_of_isInf hb⟩

section
variable (t : Ty) (rm : Rm) {a b c : FV}

theorem fFma_nan (h : (a.isNan || b.isNan || c.isNan) = true) :
    fFma t rm a b c = (fnan t, if a.isSNan || b.isSNan || c.isSNan || zeroTimesInf a b then flIV else 0) := by
  have hz : (a.isZero && b.isInf || a.isInf && b.isZero) = zeroTimesInf a b := Bool.or_comm ..
  unfold fFma
  simp only [if_pos h, hz, snanFlag, List.any_cons, List.any_nil, Bool.or_false, ← Bool.or_assoc]
  cases zeroTimesInf a b <;> cases a.isSNan || b.isSNan || c.isSNan <;> rfl

theorem fFma_invalid (h : (a.isNan || b.isNan || c.isNan) = false) (hz : zeroTimesInf a b = true) : fFma t rm a b c = (fnan t, flIV) := by
  have hz' : (a.isZero && b.isInf || a.isInf && b.isZero) = true := (Bool.or_comm ..).trans hz
  unfold fFma
  simp only [h, hz', Bool.false_eq_true, if_false, if_true]

theorem fFma_inf (h : (a.isNan || b.isNan || c.isNan) = false) (hz : zeroTimesInf a b = false) (hi : (a.isInf || b.isInf) = true) :
    fFma t rm a b c = if c.isInf && c.neg != (a.neg != b.neg) then (fnan t, flIV) else (fsigned t (a.neg != b.neg) (finf t), 0) := by
  have hz' : (a.isZero && b.isInf || a.isInf && b.isZero) = false := (Bool.or_comm ..).trans hz
  unfold fFma
  simp only [h, hz', hi, Bool.false_eq_true, if_false, if_true]
  cases c with
  | inf m => cases m <;> cases a.neg != b.neg <;> rfl
  | _ => rfl

theorem fFma_fin_inf (ha : a.isFin = true) (hb : b.isFin = true) (n : Bool) : fFma t rm a b (.inf n) = (fsigned t n (finf t), 0) := by
  obtain ⟨han, hai⟩ := FV.not_nan_inf_of_isFin ha
  obtain ⟨hbn, hbi⟩ := FV.not_nan_inf_of_isFin hb
  have hcn : (FV.inf n).isNan = false := rfl
  unfold fFma
  simp [han, hbn, hai, hbi, hcn]

theorem fFma_fin (ha : a.isFin = true) (hb : b.isFin = true) (hc : c.isFin = true) :
    fFma t rm a b c = roundTo t rm ((a.ex.mul b.ex).add rm c.ex) := by
  obtain ⟨han, hai⟩ := FV.not_nan_inf_of_isFin ha
  obtain ⟨hbn, hbi⟩ := FV.not_nan_inf_of_isFin hb
  obtain ⟨hcn, -⟩ := FV.not_nan_inf_of_isFin hc
  obtain ⟨n, m, e, rfl⟩ := FV.isFin_iff.mp hc
  unfold fFma
  simp [han, hbn, hai, hbi, hcn]

/-- FMA gives the fused sum of R96. -/
theorem fFma_fusedOf (a b c : FV) : FusedOf t rm false a b c (fFma t rm a b c) := by
  have hround := roundTo_add t rm (Ex.mul_den_pos (FV.ex_den_pos a) (FV.ex_den_pos b)) (FV.ex_den_pos c)
  rw [Ex.mul_rat, FV.ex_rat, FV.ex_rat, FV.ex_rat] at hround
  refine ⟨fFma_nan t rm, fun hc hz => ?_, fun ha hb hc hz hi => ?_, fun ha hb hc => ?_, fun ha hb hc => ?_, fun ha hb hc => ?_⟩
  · obtain ⟨ha, hb⟩ := zeroTimesInf_not_nan hz
    exact fFma_invalid t rm (by rw [ha, hb, hc]; rfl) hz
  · rw [fFma_inf t rm (by rw [ha, hb, hc]; rfl) hz hi, Bool.bne_false]
  · obtain ⟨n, rfl⟩ := FV.isInf_iff.mp hc
    exact fFma_fin_inf t rm ha hb n
  · rw [fFma_fin t rm ha hb hc]
    exact hround.1
  · rw [fFma_fin t rm ha hb hc, Bool.bne_false, ← FV.ex_neg ha, ← FV.ex_neg hb, ← FV.ex_neg hc]
    exact hround.2

end

end Sys2Proof.Machine
end


section
/-! SUPPORT. KD8 codes as values, and their decoding to a format (R44 to R46). -/

namespace Sys2Proof.Machine

open Sys2Proof

/-! The codes of R44 -/

theorem kdUnits_pos {body : Nat} (h : body ≠ 0) : 0 < kdUnits body := by
  unfold kdUnits
  rw [if_neg h]
  positivity

/-- The special codes, and the finite ones (R44). -/
theorem kdDec_finite {code : Nat} (hc : code < 256) (h0 : code % 128 ≠ 0) (h1 : code % 128 ≠ 1) :
    kdDec code = .num (decide (128 ≤ code)) (kdUnits (code % 128)) := by
  have hb : bit code 7 = decide (128 ≤ code) := by
    rw [bit, Bool.eq_iff_iff, beq_iff_eq, decide_eq_true_eq]
    omega
  simp only [kdDec, if_neg h0, if_neg h1, hb]

theorem kdEx_den_pos (neg : Bool) (units : Nat) (s : Int) : 0 < (kdEx neg units s).den := by
  unfold kdEx
  split
  · exact Nat.mul_pos (by decide) (Nat.pow_pos (by decide))
  · exact Nat.mul_pos (by decide) (Nat.pow_pos (by decide))

theorem kdEx_rat (neg : Bool) (units : Nat) (s : Int) : (kdEx neg units s).rat = withSign neg (units / (32 * 10 ^ 14)) * 10 ^ s := by
  rw [withSign_mul, Ex.rat_eq]
  unfold kdEx Ex.mag
  split
  · rename_i h
    obtain ⟨n, rfl⟩ := Int.eq_ofNat_of_zero_le h
    congr 1
    push_cast
    rw [Int.toNat_natCast, zpow_natCast]
    ring
  · obtain ⟨n, rfl⟩ : ∃ n : Nat, s = -n := ⟨(-s).toNat, by omega⟩
    congr 1
    push_cast
    rw [neg_neg, Int.toNat_natCast, zpow_neg, zpow_natCast, div_mul_eq_div_div]
    ring

theorem kdRat_eq (code : Nat) : kdRat code = withSign (decide (128 ≤ code)) (kdUnits (code % 128) / (32 * 10 ^ 14)) := by
  unfold kdRat withSign
  by_cases h : 128 ≤ code
  · simp [h]
    ring
  · simp [h]

/-- A code decoded with its block's scale: zero, SAT, NaV and an absent block as they stand, a finite code rounded (R46). -/
theorem kdTo_spec (t : Ty) (rm : Rm) {code : Nat} (hc : code < 256) (S : Int) :
    if S = -128 ∨ code = 0 then kdTo t rm code S = (0, 0)
    else if code = 0x01 then kdTo t rm code S = (finf t, 0)
    else if code = 0x81 then kdTo t rm code S = (fsigned t true (finf t), 0)
    else if code = 0x80 then kdTo t rm code S = (fnan t, 0)
    else RoundsFrom t rm (kdRat code * 10 ^ S) (kdTo t rm code S) := by
  by_cases hS : S = -128
  · rw [if_pos (.inl hS), kdTo, if_pos hS]
  · by_cases h0 : code = 0
    · rw [if_pos (.inr h0), h0, kdTo, if_neg hS]
      rfl
    · rw [if_neg (not_or.mpr ⟨hS, h0⟩), kdTo, if_neg hS]
      split_ifs with h1 h81 h80
      · rw [h1]
        rfl
      · rw [h81]
        rfl
      · rw [h80]
        rfl
      · have hne : kdRat code * 10 ^ S ≠ 0 := by
          have hu : (kdUnits (code % 128) : Rat) ≠ 0 := by exact_mod_cast (kdUnits_pos (by omega)).ne'
          rw [kdRat_eq]
          refine mul_ne_zero (fun h => ?_) (zpow_ne_zero _ (by norm_num))
          rw [← abs_eq_zero, abs_withSign, abs_eq_zero] at h
          exact div_ne_zero hu (by norm_num) h
        rw [kdDec_finite hc (by omega) (by omega)]
        exact roundTo_roundsFrom t rm (kdEx_den_pos ..) (by rw [kdEx_rat, kdRat_eq]) hne

/-- The elements of a block record (R45, R251). -/
theorem kd8Elements : Kd8Elements := by
  intro row k S code
  refine ⟨kdTo .f32 .rne code S, ?_, ?_, kdTo_spec .f32 .rne (row.getD (4 + k) 0).isLt S⟩
  all_goals
    unfold S
    rw [← signed_toNat (by decide)]
    rfl

end Sys2Proof.Machine
end


section
/-! SUPPORT. The block sum of the matrix engine (R51). -/

namespace Sys2Proof.Machine

open Sys2Proof

/-! Exact sums of finite values, one after another (R42, R51) -/

/-- The exact sum of values from −0 on. -/
def exSum (l : List FV) : Ex := l.foldl (fun x v => x.add .rne v.ex) ⟨true, 0, 1⟩

theorem exSum_concat (l : List FV) (v : FV) : exSum (l ++ [v]) = (exSum l).add .rne v.ex := by simp [exSum]

theorem exSum_den_pos (l : List FV) : 0 < (exSum l).den := by
  induction l using List.reverseRecOn with
  | nil => exact Nat.one_pos
  | append_singleton l v ih =>
    rw [exSum_concat]
    exact Ex.add_den_pos ih (FV.ex_den_pos v)

theorem exSum_rat (l : List FV) : (exSum l).rat = (l.map FV.rat).sum := by
  induction l using List.reverseRecOn with
  | nil => simp [exSum, Ex.rat, Ex.int]
  | append_singleton l v ih => rw [exSum_concat, Ex.add_rat .rne (exSum_den_pos l) (FV.ex_den_pos v), ih, FV.ex_rat]; simp

theorem Ex.rat_nonpos {x : Ex} (h : x.neg = true) : x.rat ≤ 0 := by
  rw [x.rat_eq, h]
  exact neg_nonpos.mpr x.mag_nonneg

/-- A sum that is zero is −0 where every value is (R42). -/
theorem exSum_neg_iff {l : List FV} (hl : ∀ v ∈ l, v.isFin = true) (h : (exSum l).rat = 0) :
    (exSum l).neg = true ↔ ∀ v ∈ l, v.rat = 0 ∧ v.neg = true := by
  induction l using List.reverseRecOn with
  | nil => simp [exSum]
  | append_singleton l v ih =>
    have hv : v.isFin = true := hl v (by simp)
    have hl' : ∀ w ∈ l, w.isFin = true := fun w hw => hl w (by simp [hw])
    rw [exSum_concat, Ex.add_rat .rne (exSum_den_pos l) (FV.ex_den_pos v)] at h
    rw [exSum_concat, Ex.add_of_zero .rne (exSum_den_pos l) (FV.ex_den_pos v) h, FV.ex_neg hv]
    rw [FV.ex_rat] at h
    have hneg : (if (exSum l).neg = v.neg then (exSum l).neg else Rm.rne == .rdn) = true ↔ (exSum l).neg = true ∧ v.neg = true := by
      cases (exSum l).neg <;> cases v.neg <;> decide
    rw [hneg, List.forall_mem_append, List.forall_mem_singleton]
    constructor
    · rintro ⟨h1, h2⟩
      have hs := Ex.rat_nonpos h1
      have hv' : v.rat ≤ 0 := FV.ex_rat v ▸ Ex.rat_nonpos ((FV.ex_neg hv).trans h2)
      exact ⟨(ih hl' (by linarith)).mp h1, by linarith, h2⟩
    · rintro ⟨h1, h2, h3⟩
      exact ⟨(ih hl' (by linarith)).mpr h1, h3⟩

/-! Products of elements (R51) -/

theorem elemProduct_nan {a b : FV} (h : a.isNan = true ∨ b.isNan = true) : elemProduct a b = .error (a.isSNan || b.isSNan) :=
  if_pos (Bool.or_eq_true_iff.mpr h)

theorem elemProduct_zeroInf {a b : FV} (h : zeroTimesInf a b = true) : elemProduct a b = .error true := by
  obtain ⟨ha, hb⟩ := zeroTimesInf_not_nan h
  unfold elemProduct
  rw [ha, hb]
  exact if_pos h

theorem elemProduct_inf {a b : FV} (ha : a.isNan = false) (hb : b.isNan = false) (hz : zeroTimesInf a b = false) (h : (a.isInf || b.isInf) = true) :
    elemProduct a b = .ok (.inf (a.neg != b.neg)) := by
  have hz' : (a.isInf && b.isZero || a.isZero && b.isInf) = false := hz
  unfold elemProduct
  simp only [ha, hb, hz', h, Bool.or_false, Bool.false_eq_true, if_false, if_true]

/-- The product of two finite values. -/
def finProduct (a b : FV) : FV :=
  match a, b with
  | .fin x m e, .fin y n f => .fin (x != y) (m * n) (e + f)
  | _, _ => .fin false 0 0

theorem elemProduct_fin {a b : FV} (ha : a.isFin = true) (hb : b.isFin = true) : elemProduct a b = .ok (finProduct a b) := by
  obtain ⟨han, hai⟩ := FV.not_nan_inf_of_isFin ha
  obtain ⟨hbn, hbi⟩ := FV.not_nan_inf_of_isFin hb
  obtain ⟨x, m, e, rfl⟩ := FV.isFin_iff.mp ha
  obtain ⟨y, n, f, rfl⟩ := FV.isFin_iff.mp hb
  simp [elemProduct, finProduct, han, hai, hbn, hbi]

theorem finProduct_isFin (a b : FV) : (finProduct a b).isFin = true := by
  unfold finProduct
  split <;> rfl

theorem finProduct_rat {a b : FV} (ha : a.isFin = true) (hb : b.isFin = true) : (finProduct a b).rat = a.rat * b.rat := by
  obtain ⟨x, m, e, rfl⟩ := FV.isFin_iff.mp ha
  obtain ⟨y, n, f, rfl⟩ := FV.isFin_iff.mp hb
  rw [finProduct, FV.rat_fin, FV.rat_fin, FV.rat_fin, zpow_add₀ (by norm_num)]
  cases x <;> cases y <;> simp [withSign] <;> ring

theorem finProduct_neg {a b : FV} (ha : a.isFin = true) (hb : b.isFin = true) : (finProduct a b).neg = (a.neg != b.neg) := by
  obtain ⟨x, m, e, rfl⟩ := FV.isFin_iff.mp ha
  obtain ⟨y, n, f, rfl⟩ := FV.isFin_iff.mp hb
  rfl

/-! The sum of a block (R51) -/

/-- What makes a block NaN, and what makes it invalid too. -/
def isBad : Except Bool FV → Bool
  | .error _ => true
  | .ok _ => false

def isInvalid : Except Bool FV → Bool
  | .error x => x
  | .ok _ => false

theorem isBad_of_isInvalid {p : Except Bool FV} (h : isInvalid p = true) : isBad p = true := by
  cases p with
  | error x => rfl
  | ok v => cases h

/-- The sign of an infinite product. -/
def infSign : Except Bool FV → Option Bool
  | .ok (.inf n) => some n
  | _ => none

/-- A block's products, with +0 for those it lacks. -/
def padded (ps : List (Except Bool FV)) : List (Except Bool FV) := ps ++ List.replicate (32 - ps.length) (.ok (.fin false 0 0))

/-- The exact sum goes on with a product that has a value. -/
def addProduct (x : Ex) : Except Bool FV → Ex
  | .ok v => x.add .rne v.ex
  | .error _ => x

theorem blockSum_eq (ps : List (Except Bool FV)) : blockSum ps =
    let infs := (padded ps).filterMap infSign
    let meet := infs.contains true && infs.contains false
    if (padded ps).any isBad || meet then (fnan .f32, flagIf ((padded ps).any isInvalid || meet) flIV)
    else match infs with
      | n :: _ => (fsigned .f32 n (finf .f32), 0)
      | [] =>
        let sum := (padded ps).foldl addProduct ⟨true, 0, 1⟩
        if sum.num = 0 then (fsigned .f32 sum.neg 0, 0) else roundTo .f32 .rne sum := rfl

theorem mem_padded {ps : List (Except Bool FV)} {p : Except Bool FV} (h : p ∈ padded ps) : p ∈ ps ∨ p = .ok (.fin false 0 0) :=
  (List.mem_append.mp h).imp_right List.eq_of_mem_replicate

theorem padded_any {ps : List (Except Bool FV)} {f : Except Bool FV → Bool} (h : f (.ok (.fin false 0 0)) = false) :
    (padded ps).any f = ps.any f := by
  simp [padded, h]

theorem padded_infSign (ps : List (Except Bool FV)) : (padded ps).filterMap infSign = ps.filterMap infSign := by
  simp [padded, infSign]

section
variable {a b : Nat → FV} {n : Nat}

/-- The products of the first n positions of two rows. -/
def products (a b : Nat → FV) (n : Nat) : List (Except Bool FV) := (List.range n).map fun k => elemProduct (a k) (b k)

theorem products_any (f : Except Bool FV → Bool) : (products a b n).any f = true ↔ ∃ k, k < n ∧ f (elemProduct (a k) (b k)) = true := by
  simp [products]

/-- An infinite product of a sign: neither operand is NaN, nor is it zero times infinity. -/
def Infinite (a b : FV) (s : Bool) : Prop :=
  ¬(a.isNan = true ∨ b.isNan = true) ∧ ¬(a.isInf = true ∧ b.isZero = true ∨ a.isZero = true ∧ b.isInf = true) ∧
    (a.isInf = true ∨ b.isInf = true) ∧ (a.neg != b.neg) = s

theorem zeroTimesInf_iff {a b : FV} : zeroTimesInf a b = true ↔ a.isInf = true ∧ b.isZero = true ∨ a.isZero = true ∧ b.isInf = true := by
  simp [zeroTimesInf]

/-- The four kinds of product. -/
theorem elemProduct_kinds (a b : FV) :
    (a.isNan = true ∨ b.isNan = true) ∧ elemProduct a b = .error (a.isSNan || b.isSNan) ∨ zeroTimesInf a b = true ∧ elemProduct a b = .error true ∨
    (∃ s, Infinite a b s ∧ elemProduct a b = .ok (.inf s)) ∨ a.isFin = true ∧ b.isFin = true ∧ elemProduct a b = .ok (finProduct a b) := by
  by_cases hn : a.isNan = true ∨ b.isNan = true
  · exact .inl ⟨hn, elemProduct_nan hn⟩
  · have han : a.isNan = false := Bool.eq_false_iff.mpr fun h => hn (.inl h)
    have hbn : b.isNan = false := Bool.eq_false_iff.mpr fun h => hn (.inr h)
    by_cases hz : zeroTimesInf a b = true
    · exact .inr (.inl ⟨hz, elemProduct_zeroInf hz⟩)
    · by_cases hi : a.isInf = true ∨ b.isInf = true
      · exact .inr (.inr (.inl ⟨_, ⟨hn, fun h => hz (zeroTimesInf_iff.mpr h), hi, rfl⟩,
          elemProduct_inf han hbn (Bool.eq_false_iff.mpr hz) (Bool.or_eq_true_iff.mpr hi)⟩))
      · have ha := FV.isFin_of han (Bool.eq_false_iff.mpr fun h => hi (.inl h))
        have hb := FV.isFin_of hbn (Bool.eq_false_iff.mpr fun h => hi (.inr h))
        exact .inr (.inr (.inr ⟨ha, hb, elemProduct_fin ha hb⟩))

theorem not_infinite_of_fin {a b : FV} (ha : a.isFin = true) (hb : b.isFin = true) (s : Bool) : ¬Infinite a b s := fun ⟨_, _, hi, _⟩ => by
  rw [(FV.not_nan_inf_of_isFin ha).2, (FV.not_nan_inf_of_isFin hb).2] at hi
  simp at hi

theorem not_zeroTimesInf_of_fin {a b : FV} (ha : a.isFin = true) (hb : b.isFin = true) : zeroTimesInf a b = false := by
  simp [zeroTimesInf, (FV.not_nan_inf_of_isFin ha).2, (FV.not_nan_inf_of_isFin hb).2]

theorem Infinite.not_zeroTimesInf {a b : FV} {s : Bool} (h : Infinite a b s) : zeroTimesInf a b = false :=
  Bool.eq_false_iff.mpr fun hz => h.2.1 (zeroTimesInf_iff.mp hz)

theorem isBad_elemProduct (a b : FV) : isBad (elemProduct a b) = true ↔ (a.isNan = true ∨ b.isNan = true) ∨ zeroTimesInf a b = true := by
  rcases elemProduct_kinds a b with ⟨hn, h⟩ | ⟨hz, h⟩ | ⟨s, hi, h⟩ | ⟨ha, hb, h⟩ <;> rw [h]
  · exact iff_of_true rfl (.inl hn)
  · exact iff_of_true rfl (.inr hz)
  · exact iff_of_false Bool.false_ne_true (not_or.mpr ⟨hi.1, ne_true_of_eq_false hi.not_zeroTimesInf⟩)
  · refine iff_of_false Bool.false_ne_true (not_or.mpr ⟨?_, ne_true_of_eq_false (not_zeroTimesInf_of_fin ha hb)⟩)
    simp [(FV.not_nan_inf_of_isFin ha).1, (FV.not_nan_inf_of_isFin hb).1]

theorem isInvalid_elemProduct (a b : FV) :
    isInvalid (elemProduct a b) = true ↔ (a.isSNan = true ∨ b.isSNan = true) ∨ zeroTimesInf a b = true := by
  have hquiet : ¬(a.isNan = true ∨ b.isNan = true) → ¬(a.isSNan = true ∨ b.isSNan = true) := fun hn => by
    rw [not_or, Bool.not_eq_true, Bool.not_eq_true] at hn ⊢
    exact ⟨FV.isSNan_of_not_nan hn.1, FV.isSNan_of_not_nan hn.2⟩
  rcases elemProduct_kinds a b with ⟨hn, h⟩ | ⟨hz, h⟩ | ⟨s, hi, h⟩ | ⟨ha, hb, h⟩ <;> rw [h]
  · have hz : ¬zeroTimesInf a b = true := fun hz => by
      rw [(zeroTimesInf_not_nan hz).1, (zeroTimesInf_not_nan hz).2] at hn
      simp at hn
    rw [or_iff_left hz]
    exact Bool.or_eq_true_iff
  · exact iff_of_true rfl (.inr hz)
  · exact iff_of_false Bool.false_ne_true (not_or.mpr ⟨hquiet hi.1, ne_true_of_eq_false hi.not_zeroTimesInf⟩)
  · refine iff_of_false Bool.false_ne_true (not_or.mpr ⟨hquiet ?_, ne_true_of_eq_false (not_zeroTimesInf_of_fin ha hb)⟩)
    simp [(FV.not_nan_inf_of_isFin ha).1, (FV.not_nan_inf_of_isFin hb).1]

theorem infSign_elemProduct (a b : FV) (s : Bool) : infSign (elemProduct a b) = some s ↔ Infinite a b s := by
  rcases elemProduct_kinds a b with ⟨hn, h⟩ | ⟨hz, h⟩ | ⟨r, hi, h⟩ | ⟨ha, hb, h⟩ <;> rw [h]
  · exact iff_of_false (fun h => by cases h) fun hi => hi.1 hn
  · exact iff_of_false (fun h => by cases h) fun hi => ne_true_of_eq_false hi.not_zeroTimesInf hz
  · refine ⟨fun hs => by cases hs; exact hi, fun hs => congrArg some (hi.2.2.2.symm.trans hs.2.2.2)⟩
  · obtain ⟨x, m, e, hf⟩ := FV.isFin_iff.mp (finProduct_isFin a b)
    rw [hf]
    exact iff_of_false (fun h => by cases h) (not_infinite_of_fin ha hb s)

theorem mem_infSigns (s : Bool) : s ∈ (products a b n).filterMap infSign ↔ ∃ k, k < n ∧ Infinite (a k) (b k) s := by
  simp [products, infSign_elemProduct]

/-- A block with a NaN, or with infinities of both signs. -/
theorem blockSum_nan {ps : List (Except Bool FV)} (h : ps.any isBad = true ∨ true ∈ ps.filterMap infSign ∧ false ∈ ps.filterMap infSign) :
    blockSum ps = (fnan .f32, if ps.any isInvalid = true ∨ true ∈ ps.filterMap infSign ∧ false ∈ ps.filterMap infSign then flIV else 0) := by
  rw [blockSum_eq, padded_infSign, padded_any rfl, padded_any rfl]
  dsimp only
  rw [if_pos (by simpa using h), flagIf]
  simp

/-- A block without those, but with an infinite product. -/
theorem blockSum_inf {ps : List (Except Bool FV)} {s : Bool} (hbad : ps.any isBad = false) (hs : s ∈ ps.filterMap infSign)
    (hn : (!s) ∉ ps.filterMap infSign) : blockSum ps = (fsigned .f32 s (finf .f32), 0) := by
  rw [blockSum_eq, padded_infSign, padded_any rfl, padded_any rfl]
  dsimp only
  rw [if_neg (by cases s <;> simp_all)]
  cases hl : ps.filterMap infSign with
  | nil => simp [hl] at hs
  | cons x l =>
    have hx : x = s := by
      rw [hl] at hn
      cases x <;> cases s <;> simp_all
    rw [hx]

/-- A block of finite products. -/
theorem blockSum_fin (vs : List FV) (hv : ∀ v ∈ vs, v.isFin = true) :
    blockSum (vs.map .ok) = let x := exSum (vs ++ List.replicate (32 - vs.length) (.fin false 0 0))
      if x.num = 0 then (fsigned .f32 x.neg 0, 0) else roundTo .f32 .rne x := by
  have hinf : (vs.map (.ok : FV → Except Bool FV)).filterMap infSign = [] := by
    rw [List.filterMap_map, List.filterMap_eq_nil_iff]
    intro v h
    obtain ⟨n, m, e, rfl⟩ := FV.isFin_iff.mp (hv v h)
    rfl
  have hbad : (vs.map (.ok : FV → Except Bool FV)).any isBad = false := by simp [isBad]
  have hsum : (padded (vs.map .ok)).foldl addProduct ⟨true, 0, 1⟩ = exSum (vs ++ List.replicate (32 - vs.length) (.fin false 0 0)) := by
    rw [padded, List.length_map, ← List.map_replicate, ← List.map_append, List.foldl_map]
    rfl
  rw [blockSum_eq, padded_infSign, padded_any rfl, padded_any rfl, hinf, hbad, hsum]
  dsimp only
  rw [if_neg (by simp)]

/-- A block's finite products. -/
def finProducts (a b : Nat → FV) (n : Nat) : List FV := (List.range n).map fun k => finProduct (a k) (b k)

section
variable (hf : ∀ k, k < n → (a k).isFin = true ∧ (b k).isFin = true)
include hf

theorem products_fin : products a b n = (finProducts a b n).map .ok := by
  rw [products, finProducts, List.map_map]
  exact List.map_congr_left fun k hk => elemProduct_fin (hf k (List.mem_range.mp hk)).1 (hf k (List.mem_range.mp hk)).2

/-- The padded sum of a block is the sum of its products. -/
theorem exSum_products_rat : (exSum (finProducts a b n ++ List.replicate (32 - n) (.fin false 0 0))).rat =
    ((List.range n).map fun k => (a k).rat * (b k).rat).sum := by
  have hmap : (finProducts a b n).map FV.rat = (List.range n).map fun k => (a k).rat * (b k).rat := by
    rw [finProducts, List.map_map]
    exact List.map_congr_left fun k hk => finProduct_rat (hf k (List.mem_range.mp hk)).1 (hf k (List.mem_range.mp hk)).2
  rw [exSum_rat, List.map_append, List.sum_append, hmap]
  simp [FV.rat]

/-- A zero sum is −0 where 32 products, or more, are (log 28). -/
theorem exSum_products_neg (h0 : (exSum (finProducts a b n ++ List.replicate (32 - n) (.fin false 0 0))).rat = 0) :
    (exSum (finProducts a b n ++ List.replicate (32 - n) (.fin false 0 0))).neg = true ↔
      32 ≤ n ∧ ∀ k, k < n → (a k).rat * (b k).rat = 0 ∧ (a k).neg ≠ (b k).neg := by
  have hfin : ∀ v ∈ finProducts a b n ++ List.replicate (32 - n) (.fin false 0 0), v.isFin = true := by
    intro v hv
    rcases List.mem_append.mp hv with h | h
    · obtain ⟨k, -, rfl⟩ := List.mem_map.mp h
      exact finProduct_isFin ..
    · rw [List.eq_of_mem_replicate h]
      rfl
  have hpad : (∀ v ∈ List.replicate (32 - n) (FV.fin false 0 0), v.rat = 0 ∧ v.neg = true) ↔ 32 ≤ n := by
    simp [FV.neg, FV.rat, Nat.sub_eq_zero_iff_le]
  have hprod : (∀ v ∈ finProducts a b n, v.rat = 0 ∧ v.neg = true) ↔ ∀ k, k < n → (a k).rat * (b k).rat = 0 ∧ (a k).neg ≠ (b k).neg := by
    rw [finProducts, List.forall_mem_map]
    refine forall_congr' fun k => ?_
    rw [List.mem_range]
    refine forall_congr' fun hk => ?_
    rw [finProduct_rat (hf k hk).1 (hf k hk).2, finProduct_neg (hf k hk).1 (hf k hk).2, bne_iff_ne]
  rw [exSum_neg_iff hfin h0, List.forall_mem_append, hpad, hprod, and_comm]

end

/-- The block sum is that of R51. -/
theorem blockSum_blockSumOf (a b : Nat → FV) (n : Nat) : BlockSumOf a b n (blockSum (products a b n)) := by
  unfold BlockSumOf
  intro nan zeroInf infinite invalid q negZero
  have hz : ∀ k, zeroTimesInf (a k) (b k) = true ↔ zeroInf k := fun k => zeroTimesInf_iff
  have hbad : (products a b n).any isBad = true ↔ (∃ k, k < n ∧ nan k) ∨ ∃ k, k < n ∧ zeroInf k := by
    simp only [products_any, isBad_elemProduct, hz, and_or_left, exists_or, nan]
  have hmem : ∀ s, s ∈ (products a b n).filterMap infSign ↔ ∃ k, k < n ∧ infinite s k := fun s => mem_infSigns s
  have hinv : (products a b n).any isInvalid = true ∨ true ∈ (products a b n).filterMap infSign ∧ false ∈ (products a b n).filterMap infSign ↔
      invalid := by
    simp only [products_any, isInvalid_elemProduct, hz, hmem, and_or_left, exists_or, invalid, or_assoc]
  refine ⟨fun h => ?_, fun h hn => ?_, fun s h hn hs => ?_, fun hf => ?_⟩
  · have hb : (products a b n).any isBad = true ∨ true ∈ (products a b n).filterMap infSign ∧ false ∈ (products a b n).filterMap infSign := by
      refine (hinv.mpr h).imp_left fun hi => ?_
      obtain ⟨p, hp, hi⟩ := List.any_eq_true.mp hi
      exact List.any_eq_true.mpr ⟨p, hp, isBad_of_isInvalid hi⟩
    rw [blockSum_nan hb, if_pos (hinv.mpr h)]
  · rw [blockSum_nan (.inl (hbad.mpr (.inl hn))), if_neg (mt hinv.mp h)]
  · refine blockSum_inf (Bool.eq_false_iff.mpr fun hb => ?_) ((hmem s).mpr hs) fun hs' => ?_
    · rcases hbad.mp hb with ⟨k, hk, hb⟩ | hb
      · exact hn k hk hb
      · exact h (.inr (.inl hb))
    · have hs'' := (hmem _).mp hs'
      refine h (.inr (.inr ?_))
      cases s
      · exact ⟨hs'', hs⟩
      · exact ⟨hs, hs''⟩
  · have hsum := blockSum_fin (finProducts a b n) fun v hv => by
      obtain ⟨k, -, rfl⟩ := List.mem_map.mp hv
      exact finProduct_isFin ..
    have hlen : (finProducts a b n).length = n := by simp [finProducts]
    have hrat := exSum_products_rat hf
    have hneg := exSum_products_neg hf
    rw [← products_fin hf, hlen] at hsum
    rw [hsum]
    have hden := exSum_den_pos (finProducts a b n ++ List.replicate (32 - n) (.fin false 0 0))
    generalize exSum (finProducts a b n ++ List.replicate (32 - n) (.fin false 0 0)) = x at *
    refine ⟨fun hq h32 hall => ?_, fun hq hsome => ?_, fun hq => ?_⟩
    · have h0 : x.rat = 0 := hrat.trans hq
      rw [if_pos ((Ex.num_eq_zero_iff hden).mpr h0), (hneg h0).mpr ⟨h32, hall⟩]
      rfl
    · have h0 : x.rat = 0 := hrat.trans hq
      have hpos : x.neg = false := Bool.eq_false_iff.mpr fun h => by
        obtain ⟨h32, hall⟩ := (hneg h0).mp h
        rcases hsome with hlt | ⟨k, hk, hnot⟩
        · omega
        · exact hnot (hall k hk)
      rw [if_pos ((Ex.num_eq_zero_iff hden).mpr h0), hpos]
      rfl
    · have h0 : x.rat ≠ 0 := hrat ▸ hq
      rw [if_neg (mt (Ex.num_eq_zero_iff hden).mp h0)]
      exact roundTo_roundsFrom .f32 .rne hden hrat hq

end

end Sys2Proof.Machine
end


section
/-! SUPPORT. The arithmetic of MMA on one element (R50 to R52). -/

namespace Sys2Proof.Machine

open Sys2Proof

/-! The formats of MMA -/

/-- INT8 adds exact products. -/
theorem foldl_add_eq_sum (f : Nat → Int) (x : Int) (n : Nat) : (List.range n).foldl (fun x k => x + f k) x = x + ((List.range n).map f).sum := by
  induction n with
  | zero => simp
  | succ n ih => rw [List.range_succ, List.foldl_append, ih]; simp [add_assoc]

theorem chainOf_i8 (rm : Rm) (acc : Nat) (a b : List Byte) (n : Nat) : chainOf .i8 rm acc a b n =
    ((BitVec.ofInt 32 ((BitVec.ofNat 32 acc).toInt + ((List.range n).map fun k => (a.getD k 0).toInt * (b.getD k 0).toInt).sum)).toNat, 0) := by
  have h8 : ∀ x : Byte, signed 8 x.toNat = x.toInt := signed_toNat (by decide)
  rw [toNat_ofInt_eq_wrap, toInt_ofNat_eq_signed (by decide), ← foldl_add_eq_sum]
  simp only [chainOf, tileElem, upFrom_zero, h8]

/-- One position of FP32 and FP64. -/
def fusedStep (t : Ty) (rm : Rm) (a b : List Byte) (x : Nat × Flags) (k : Nat) : Nat × Flags :=
  let r := fFma t rm (elemOf t a k) (elemOf t b k) (fdec t x.1)
  (r.1, x.2 ||| r.2)

theorem chainOf_fused {t : Ty} (ht : t = .f32 ∨ t = .f64) (rm : Rm) (acc : Nat) (a b : List Byte) (n : Nat) :
    chainOf t rm acc a b n = (List.range n).foldl (fusedStep t rm a b) (acc % 2 ^ t.width, 0) := by
  have hstep : (fun (x : Nat × Flags) k => ((fFma t rm (decodeElem t a k).1 (decodeElem t b k).1 (fdec t (x.1 % 2 ^ t.width))).1,
      x.2 ||| (fFma t rm (decodeElem t a k).1 (decodeElem t b k).1 (fdec t (x.1 % 2 ^ t.width))).2)) = fusedStep t rm a b := by
    funext x k
    rw [fdec_mod]
    rfl
  rw [← hstep, ← upFrom_zero]
  rcases ht with rfl | rfl <;> rfl

/-- KD8, BF16 and FP16: the block's sum is added to the element. -/
theorem chainOf_block {t : Ty} (ht : t = .bf16 ∨ t = .f16 ∨ t = .kd8) (rm : Rm) (acc : Nat) (a b : List Byte) (n : Nat) :
    let x := blockSum (products (elemOf t a) (elemOf t b) n)
    let r := fAdd .f32 .rne (fdec .f32 (acc % 2 ^ 32)) (fdec .f32 x.1)
    chainOf t rm acc a b n = (r.1, (List.range n).foldl (fun (f : Flags) k => f ||| elemFlags t a k ||| elemFlags t b k) 0 ||| x.2 ||| r.2) := by
  have hps : ((upFrom 0 n).map fun k => (decodeElem t a k, decodeElem t b k)).map (fun e => elemProduct e.1.1 e.2.1) =
      products (elemOf t a) (elemOf t b) n := by
    rw [List.map_map, upFrom_zero]
    rfl
  have hfl : ((upFrom 0 n).map fun k => (decodeElem t a k, decodeElem t b k)).foldl (fun (f : Flags) e => f ||| e.1.2 ||| e.2.2) 0 =
      (List.range n).foldl (fun (f : Flags) k => f ||| elemFlags t a k ||| elemFlags t b k) 0 := by
    rw [List.foldl_map, upFrom_zero]
    rfl
  rw [← hps, ← hfl]
  rcases ht with rfl | rfl | rfl <;> rfl

/-- Only KD8 raises flags in its decoding. -/
theorem decoded_eq_zero {t : Ty} (ht : t ≠ .kd8) (a b : List Byte) (n : Nat) :
    (List.range n).foldl (fun (f : Flags) k => f ||| elemFlags t a k ||| elemFlags t b k) 0 = 0 := by
  have hz : ∀ (row : List Byte) k, elemFlags t row k = 0 := fun row k => by
    have hne : (t == .kd8) = false := beq_eq_false_iff_ne.mpr ht
    simp [elemFlags, decodeElem, hne]
  induction n with
  | zero => rfl
  | succ n ih => rw [List.range_succ, List.foldl_append, ih]; simp [hz]

/-- MMA on one element (R50 to R52). -/
theorem matrixArithmetic : MatrixArithmetic := by
  intro rm acc a b n
  refine ⟨chainOf_i8 rm acc a b n, fun t ht => ⟨chainOf_fused ht rm acc a b 0, ?_⟩, fun t ht => ⟨fun hk => decoded_eq_zero hk a b n, ?_⟩⟩
  · refine ⟨_, fFma_fusedOf t rm (elemOf t a n) (elemOf t b n) (fdec t (chainOf t rm acc a b n).1), ?_⟩
    rw [chainOf_fused ht rm acc a b (n + 1), List.range_succ, List.foldl_append, ← chainOf_fused ht]
    rfl
  · exact ⟨_, _, blockSum_blockSumOf .., fAdd_sumOf .., chainOf_block ht rm acc a b n⟩

end Sys2Proof.Machine
end


section
/-! SUPPORT. Numbers in the scratch of a group, and what waking threads leaves of groups (R34, R214, R262). -/

namespace Sys2Proof.Machine

open Sys2Proof

/-! Numbers in scratch -/

theorem length_leBytes (n v : Nat) : (leBytes n v).length = n := by
  induction n generalizing v with
  | zero => rfl
  | succ n ih => rw [leBytes, List.length_cons, ih]

theorem ofLe_leBytes (n v : Nat) : ofLe (leBytes n v) = v % 256 ^ n := by
  induction n generalizing v with
  | zero => rw [leBytes, ofLe, Nat.pow_zero, Nat.mod_one]
  | succ n ih => rw [leBytes, ofLe, ih, BitVec.toNat_ofNat, show 2 ^ 8 = 256 from rfl, Nat.pow_succ', Nat.mod_mul (a := 256)]

theorem Memory.readN_congr {m k : Memory} {a n : Nat} (h : ∀ b, a ≤ b → b < a + n → m.read b = k.read b) : m.readN a n = k.readN a n := by
  induction n generalizing a with
  | zero => rfl
  | succ n ih =>
    rw [Memory.readN, Memory.readN, h a le_rfl (by omega), ih fun b h1 h2 => h b (by omega) (by omega)]

section
variable {g : Group} (hw : g.scr.wf = true)
include hw

theorem Group.wr_wf (off n v : Nat) : (g.wr off n v).scr.wf = true := Memory.writeN_wf _ _ _ hw

theorem Group.rd_wr_same (off : Nat) {n v : Nat} (hv : v < 256 ^ n) : (g.wr off n v).rd off n = v := by
  have h := Memory.readN_writeN g.scr off (leBytes n v) hw
  rw [length_leBytes] at h
  rw [Group.rd, Group.wr, h, ofLe_leBytes, Nat.mod_eq_of_lt hv]

theorem Group.rd_wr_other {off n v o k : Nat} (h : o + k ≤ off ∨ off + n ≤ o) : (g.wr off n v).rd o k = g.rd o k := by
  refine congrArg ofLe (Memory.readN_congr fun b h1 h2 => Memory.read_writeN_other _ _ _ _ hw ?_)
  rw [length_leBytes]
  omega

end

theorem scrRd_eq {s : State} {gid : Nat} {g : Group} (h : s.group? gid = some g) (off n : Nat) : s.scrRd gid off n = g.rd off n := by
  rw [State.scrRd, h]
  rfl

/-! Groups while the hardware writes device memory and threads are woken -/

theorem askPeer_dev (s : State) (l : List Byte) (a : Nat) : s.askPeer l (.dev a) = s := rfl

theorem writeAt_dev_groups (s : State) (a : Nat) (l : List Byte) : (s.writeAt (.dev a) l).groups = s.groups := by
  induction l generalizing s a with
  | nil => rfl
  | cons b l ih => exact ih (s.putByte (.dev a) b) (a + 1)

theorem heal_groups (s : State) (p : Place) : (s.heal p).groups = s.groups := by
  unfold State.heal
  dsimp only
  split
  · split
    · rfl
    · split <;> rfl
  · rfl

theorem storeLine_dev_groups (s : State) (a : Nat) (l : List Byte) : (s.storeLine none (.dev a) l).groups = s.groups := by
  unfold State.storeLine
  rw [askPeer_dev]
  dsimp only
  split
  · split
    · exact (heal_groups ..).trans (writeAt_dev_groups ..)
    · rfl
  · exact writeAt_dev_groups ..

theorem storeLines_dev_groups (s : State) (n a : Nat) (l : List Byte) : (s.storeLines none n (.dev a) l).groups = s.groups := by
  induction n generalizing s a l with
  | zero => rfl
  | succ n ih =>
    unfold State.storeLines
    split
    · rfl
    · exact (ih ..).trans (storeLine_dev_groups ..)

theorem devPlace_dev {s : State} {ctx va : Nat} {w : Bool} {p : Place} (h : s.devPlace ctx va w = some p) : ∃ a, p = .dev a := by
  unfold State.devPlace at h
  split at h
  · cases h
  · split at h
    · split at h
      · exact ⟨_, (Option.some.inj h).symm⟩
      · cases h
    · cases h

theorem writeCtx_groups {s t : State} {ctx va : Nat} {l : List Byte} (h : s.writeCtx ctx va l = some t) : t.groups = s.groups := by
  obtain ⟨p, hp, rfl⟩ := Option.map_eq_some_iff.mp h
  obtain ⟨a, rfl⟩ := devPlace_dev hp
  exact storeLines_dev_groups ..

theorem putTrace_groups (s : State) (c ctx x : Nat) : (s.putTrace c ctx x).groups = s.groups := by
  unfold State.putTrace
  split
  · split
    · rw [modCore_groups]
      cases h : s.writeCtx ctx _ _ with
      | none => rfl
      | some t => exact writeCtx_groups h
    · rfl
  · rfl

theorem writeTrace_groups (s : State) (c ctx x : Nat) : (s.writeTrace c ctx x).groups = s.groups := by
  unfold State.writeTrace
  split
  · split
    · rfl
    · split
      · exact modCore_groups ..
      · dsimp only
        split
        · exact (modCore_groups ..).trans (putTrace_groups ..)
        · exact (modCore_groups ..).trans (putTrace_groups ..)
  · rfl

theorem traceThread_groups (s : State) (r kind : Nat) : (s.traceThread r kind).groups = s.groups := by
  unfold State.traceThread State.keepRec
  split
  · rfl
  · split
    · rfl
    · exact writeTrace_groups ..

/-- A resident thread that is woken leaves the groups as they were. -/
theorem unpark_groups (s : State) {r : Nat} (h : away r = false) : (s.unpark r).groups = s.groups := by
  unfold State.unpark State.wake
  rw [h, if_neg Bool.false_ne_true, if_neg Bool.false_ne_true]
  exact (enterTable_rest ..).2.trans (traceThread_groups ..)

/-- A resident thread that is woken can run; the threads of other slots are as before. -/
theorem mem_unpark {s : State} {r : Nat} (h : away r = false) {t : Thread} (ht : t ∈ (s.unpark r).threads) :
    t ∈ s.threads ∧ t.r ≠ r ∨ t.status = .runnable := by
  unfold State.unpark State.wake at ht
  rw [h, if_neg Bool.false_ne_true, if_neg Bool.false_ne_true] at ht
  unfold State.enterTable at ht
  split at ht
  · rename_i hnone
    rw [traceThread_threads] at ht
    rw [thread?_congr (traceThread_threads ..)] at hnone
    exact .inl ⟨ht, by simpa using List.find?_eq_none.mp hnone t ht⟩
  · obtain ⟨x, hx, rfl⟩ := List.mem_map.mp ht
    rw [traceThread_threads] at hx
    split
    · exact .inr rfl
    · exact .inl ⟨hx, ‹_›⟩

theorem foldl_unpark {l : List Thread} (hl : ∀ x ∈ l, away x.r = false) (s : State) :
    (l.foldl (fun (s : State) x => s.unpark x.r) s).groups = s.groups ∧
    ∀ t ∈ (l.foldl (fun (s : State) x => s.unpark x.r) s).threads, (t ∈ s.threads ∧ ∀ x ∈ l, t.r ≠ x.r) ∨ t.status = .runnable := by
  induction l generalizing s with
  | nil => exact ⟨rfl, fun t ht => .inl ⟨ht, by simp⟩⟩
  | cons x l ih =>
    obtain ⟨hx, hl⟩ := List.forall_mem_cons.mp hl
    obtain ⟨hg, ht⟩ := ih hl (s.unpark x.r)
    refine ⟨hg.trans (unpark_groups s hx), fun t h => ?_⟩
    rcases ht t h with ⟨hm, hne⟩ | hr
    · rcases mem_unpark hx hm with ⟨hm, hxr⟩ | hr
      · exact .inl ⟨hm, List.forall_mem_cons.mpr ⟨hxr, hne⟩⟩
      · exact .inr hr
    · exact .inr hr

/-- Threads that wait on no line are not tried when lines are written. -/
theorem wakeLines_of_noWaits {s : State} (h : s.noWaits) (p : Place) (n : Nat) : s.wakeLines p n = s := by
  have hline : ∀ line, s.wakeLine line = s := fun line => by
    have hf : (s.threads.filter fun t => match t.wait with
        | some (.waitv w) => w.place.line == line
        | _ => false) = [] := List.filter_eq_nil_iff.mpr fun t ht => by simp [h t ht]
    unfold State.wakeLine
    exact congrArg (List.foldl _ s) hf
  unfold State.wakeLines
  generalize upFrom 0 _ = l
  induction l with
  | nil => rfl
  | cons i l ih => rw [List.foldl_cons, hline, ih]

end Sys2Proof.Machine
end


section
/-! SUPPORT. An arrival at a barrier object (R262, R263). -/

namespace Sys2Proof.Machine

open Sys2Proof

/-! The word of a barrier object (R262) -/

/-- The fields of an object's word. -/
theorem barWord_fields (phase beyond : Bool) {expa arra : Nat} (hx : expa < 2 ^ 14) (ha : arra < 2 ^ 14) :
    barWord phase beyond expa arra < 256 ^ 4 ∧ barWord phase beyond expa arra % 2 ^ 14 = arra ∧
    barWord phase beyond expa arra / 2 ^ 14 % 2 ^ 14 = expa ∧ bit (barWord phase beyond expa arra) 31 = phase := by
  unfold barWord bit b2n
  cases phase <;> cases beyond <;> simp <;> omega

/-- A group whose scratch has an object's word and its second count written. -/
def Group.arrived (g : Group) (off word arrb : Nat) : Group := (g.wr off 4 word).wr (off + 10) 6 arrb

theorem Group.arrived_reads {g : Group} (hw : g.scr.wf = true) (off : Nat) {word arrb : Nat} (h1 : word < 256 ^ 4) (h2 : arrb < 256 ^ 6) :
    (g.arrived off word arrb).rd off 4 = word ∧ (g.arrived off word arrb).rd (off + 4) 6 = g.rd (off + 4) 6 ∧
    (g.arrived off word arrb).rd (off + 10) 6 = arrb := by
  have hw1 := Group.wr_wf hw off 4 word
  refine ⟨?_, ?_, Group.rd_wr_same hw1 _ h2⟩
  · rw [arrived, Group.rd_wr_other hw1 (by omega), Group.rd_wr_same hw _ h1]
  · rw [arrived, Group.rd_wr_other hw1 (by omega), Group.rd_wr_other hw (by omega)]

/-! Arrive (R263) -/

/-- An object's fields written, with what else its group notes of an arrival. -/
def State.putBar (s : State) (gid off word arrb : Nat) (pures : List (Nat × Bool)) : State :=
  s.modGroup gid fun g => { g.arrived off word arrb with pureArr := pures, barWaited := assocSet g.barWaited off 0 }

/-- A phase that ends: the group's count where the object is a barrier of all its members, its gates and its threads. -/
def State.endPhase (s : State) (tick : Bool) (gid off : Nat) (phase : Bool) : State :=
  ((if tick then s.tickGroup gid else s).openGates gid off phase).wakeBar gid off

/-- Whether a thread's arrivals at an object have all been its own, after an arrival (R307). -/
def Group.puresAfter (g : Group) (off na : Nat) (pure : Bool) : List (Nat × Bool) :=
  if na = 0 then g.pureArr else assocSet g.pureArr off (assocD true g.pureArr off && pure)

/-- Whether an object has counted beyond an expectation, after an arrival. -/
def beyondAfter (word expa arra expb arrb : Nat) : Bool :=
  bit word 30 || decide (16383 < arra) || decide (2 ^ 48 - 1 < arrb) || decide (expa < arra) || decide (expb < arrb)

section
variable {s : State} {gid off na nb : Nat} {pure phase beyond : Bool} {g : Group} {expa arra expb arrb : Nat}
  (hg : s.group? gid = some g) (hn : s.noWaits) (hp : s.poison.contains (Place.scr gid off).line = false)
  (hx : expa < 2 ^ 14) (hr : s.scrRd gid off 4 = barWord phase beyond expa arra) (hexpb : s.scrRd gid (off + 4) 6 = expb)
  (harrb : s.scrRd gid (off + 10) 6 = arrb) (ha : arra + na < 2 ^ 14) (hb : arrb + nb < 2 ^ 48)
include hg hn hp hx hr hexpb harrb ha hb

/-- An arrival counts up; one that meets both expectations flips the phase, keeps the surplus, opens the gates and wakes the threads. -/
theorem arriveAt_eq (pure : Bool) :
    let b := beyondAfter (barWord phase beyond expa arra) expa (arra + na) expb (arrb + nb)
    let ps := g.puresAfter off na pure
    s.arriveAt gid off na nb pure =
      if expa ≤ arra + na ∧ expb ≤ arrb + nb then
        (s.putBar gid off (barWord (!phase) b expa (arra + na - expa)) (arrb + nb - expb) (ps.filter (·.1 ≠ off))).endPhase
          (expa == g.members.length && !b && expb == 0 && assocD true ps off) gid off (!phase)
      else s.putBar gid off (barWord phase b expa (arra + na)) (arrb + nb) ps := by
  obtain ⟨-, hf0, hfx, hfp⟩ := barWord_fields phase beyond hx (show arra < 2 ^ 14 by omega)
  rw [scrRd_eq hg] at hr hexpb harrb
  have hput : ∀ f, (s.modGroup gid f).wakeLines (.scr gid off) 16 = s.modGroup gid f :=
    fun f => wakeLines_of_noWaits (s := s.modGroup gid f) hn ..
  have hmina : min (arra + na) 16383 = arra + na := Nat.min_eq_left (by omega)
  have hminb : min (arrb + nb) (2 ^ 48 - 1) = arrb + nb := Nat.min_eq_left (by omega)
  have hflip : (decide (expa ≤ arra + na) && decide (expb ≤ arrb + nb)) = decide (expa ≤ arra + na ∧ expb ≤ arrb + nb) := (Bool.decide_and ..).symm
  unfold State.arriveAt
  simp only [hg, State.scrBad, hp, hr, hexpb, harrb, bits, Nat.pow_zero, Nat.div_one, hf0, hfx, hfp, hmina, hminb, hput, Bool.false_eq_true, if_false,
    hflip, decide_eq_true_eq]
  rfl

end

/-! What an arrival leaves (R263) -/

/-- Where an object's fields have been written, they are read; what comes after leaves every group's scratch alone. -/
theorem putBar_reads {s u : State} {gid off : Nat} {g : Group} (hg : s.group? gid = some g) (hw : g.scr.wf = true) {phase b : Bool}
    {expa arra arrb : Nat} {ps : List (Nat × Bool)} (hx : expa < 2 ^ 14) (ha : arra < 2 ^ 14) (hb : arrb < 2 ^ 48)
    (hu : ∀ k, (u.group? k).map Group.scr = ((s.putBar gid off (barWord phase b expa arra) arrb ps).group? k).map Group.scr) :
    u.phaseOf gid off = phase ∧ u.scrRd gid off 4 % 2 ^ 14 = arra ∧ u.scrRd gid off 4 / 2 ^ 14 % 2 ^ 14 = expa ∧
      u.scrRd gid (off + 10) 6 = arrb ∧ u.scrRd gid (off + 4) 6 = s.scrRd gid (off + 4) 6 := by
  obtain ⟨hlt, hf0, hfx, hfp⟩ := barWord_fields phase b hx ha
  obtain ⟨h0, h4, h10⟩ := Group.arrived_reads hw off hlt (show arrb < 256 ^ 6 by omega)
  have hrd : ∀ o n, u.scrRd gid o n = (g.arrived off (barWord phase b expa arra) arrb).rd o n := by
    intro o n
    have hput := group?_modGroup_same hg fun g => { g.arrived off (barWord phase b expa arra) arrb with pureArr := ps, barWaited := assocSet g.barWaited off 0 }
    have hscr := hu gid
    rw [State.putBar, hput] at hscr
    obtain ⟨h, hh, he⟩ := Option.map_eq_some_iff.mp hscr
    rw [scrRd_eq hh, Group.rd, he]
    rfl
  rw [State.phaseOf, hrd, hrd, hrd, h0, h4, h10, scrRd_eq hg]
  exact ⟨hfp, hf0, hfx, rfl, rfl⟩

theorem group?_map {s u : State} {f : Group → Group} (hu : u.groups = s.groups.map f) (hf : ∀ g, (f g).gid = g.gid) (k : Nat) :
    u.group? k = (s.group? k).map f := by
  rw [State.group?, hu]
  exact find?_map_of_keeps (fun g => by rw [hf]) s.groups

theorem tickGroup_scr (s : State) (gid k : Nat) : ((s.tickGroup gid).group? k).map Group.scr = (s.group? k).map Group.scr := by
  rw [group?_map (u := s.tickGroup gid) rfl fun g => by split <;> rfl, Option.map_map]
  congr 1
  funext g
  simp only [Function.comp_apply]
  split <;> rfl

theorem openGates_scr (s : State) (gid off : Nat) (phase : Bool) (k : Nat) :
    ((s.openGates gid off phase).group? k).map Group.scr = (s.group? k).map Group.scr := by
  rw [group?_map (u := s.openGates gid off phase) rfl fun g => rfl, Option.map_map]
  rfl

/-- No HALO gate that has been opened waits (R240, R263). -/
theorem openGates_gates (s : State) (gid off : Nat) (phase : Bool) : ∀ h ∈ (s.openGates gid off phase).groups, ∀ k c, h.ring = some k → k.cur = some c →
    c.gated = true → ¬(c.gateGid = gid ∧ c.gateOff = off ∧ c.gatePhase = phase) := by
  intro h hh k c hk hc hgate hnot
  obtain ⟨g, -, rfl⟩ := List.mem_map.mp hh
  obtain ⟨k', -, rfl⟩ := Option.map_eq_some_iff.mp hk
  obtain ⟨c', -, rfl⟩ := Option.map_eq_some_iff.mp hc
  split at hgate
  · cases hgate
  · rename_i hn
    rw [if_neg hn] at hnot
    simp [hgate, hnot] at hn

/-- Every thread parked on an object is woken (R263, R266). -/
theorem wakeBar_spec {s : State} (h : ∀ t ∈ s.threads, away t.r = false) (gid off : Nat) :
    (s.wakeBar gid off).groups = s.groups ∧ ∀ t ∈ (s.wakeBar gid off).threads, ∀ ph, t.status ≠ .bwait gid off ph := by
  unfold State.wakeBar
  obtain ⟨hg, ht⟩ := foldl_unpark (fun x hx => h x (List.mem_of_mem_filter hx)) s
  refine ⟨hg, fun t hm ph hs => ?_⟩
  rcases ht t hm with ⟨hmem, hne⟩ | hr
  · exact hne t (List.mem_filter.mpr ⟨hmem, by simp [hs]⟩) rfl
  · rw [hr] at hs
    cases hs

/-- The end of a phase leaves scratch as it was, wakes every thread parked on the object and opens every gate that waits for it. -/
theorem endPhase_spec {s : State} (haway : ∀ t ∈ s.threads, away t.r = false) (tick : Bool) (gid off : Nat) (phase : Bool) :
    (∀ k, ((s.endPhase tick gid off phase).group? k).map Group.scr = (s.group? k).map Group.scr) ∧
    (∀ t ∈ (s.endPhase tick gid off phase).threads, ∀ ph, t.status ≠ .bwait gid off ph) ∧
    ∀ h ∈ (s.endPhase tick gid off phase).groups, ∀ k c, h.ring = some k → k.cur = some c → c.gated = true →
      ¬(c.gateGid = gid ∧ c.gateOff = off ∧ c.gatePhase = phase) := by
  have hthreads : (if tick then s.tickGroup gid else s).threads = s.threads := by split <;> rfl
  have hscr : ∀ k, ((if tick then s.tickGroup gid else s).group? k).map Group.scr = (s.group? k).map Group.scr := fun k => by
    split
    · exact tickGroup_scr ..
    · rfl
  obtain ⟨hgroups, hparked⟩ := wakeBar_spec (s := (if tick then s.tickGroup gid else s).openGates gid off phase)
    (fun t ht => haway t (hthreads ▸ ht)) gid off
  refine ⟨fun k => ?_, hparked, ?_⟩
  · rw [State.endPhase, group?_congr hgroups, openGates_scr, hscr]
  · rw [State.endPhase, hgroups]
    exact openGates_gates _ gid off phase

/-- Arrivals at barrier objects (R263). -/
theorem barrierArrivals : BarrierArrivals := by
  unfold BarrierArrivals
  intro s gid off na nb pure phase beyond g expa arra expb arrb hg hw hn hp ha0 hx hxb hb0 hr hexpb harrb ha hb haway u
  have hword : s.scrRd gid off 4 = barWord phase beyond expa arra := by
    rw [hr]
    unfold barWord b2n
    cases phase <;> cases beyond <;> rfl
  have hu := arriveAt_eq hg hn hp hx hword hexpb harrb ha hb pure
  dsimp only at hu
  by_cases h : expa ≤ arra + na ∧ expb ≤ arrb + nb
  · rw [if_pos h] at hu
    obtain ⟨hscr, hparked, hgates⟩ := endPhase_spec (s := s.putBar gid off _ _ _) haway _ gid off (!phase)
    rw [← hu] at hscr hparked hgates
    obtain ⟨hphase, ha', hx', hb', hxb'⟩ := putBar_reads (u := u) hg hw hx (by omega) (by omega) hscr
    exact ⟨fun hlow => absurd h (by omega), fun _ _ => ⟨hphase, ha', hb', hparked, hgates⟩, hx', hxb'.trans hexpb⟩
  · rw [if_neg h] at hu
    obtain ⟨hphase, ha', hx', hb', hxb'⟩ := putBar_reads (u := u) hg hw hx ha hb fun k => by rw [← hu]
    refine ⟨fun _ => ⟨?_, hphase, ha', hb', (congrArg State.threads hu).trans rfl⟩, fun h1 h2 => absurd ⟨h1, h2⟩ h, hx', hxb'.trans hexpb⟩
    rw [State.phaseOf, hword]
    exact (barWord_fields phase beyond hx ha0).2.2.2

/-- Settles O47: the elements of blocks, the sums of the matrix engine and the arrivals, each by the law of its own part. -/
theorem sumsAndArrivals : Obligations.SumsAndArrivals := ⟨kd8Elements, matrixArithmetic, barrierArrivals⟩

end Sys2Proof.Machine
end


section
/-! SUPPORT. The formats of slot words (R56, R57, R60): reading the fields that were put together gives them back, and the fields that were read,
put together under the opcode byte, are the word. -/

namespace Sys2Proof

open Machine

/-! Fields of a number -/

/-- The fields that were put together, each at its width, whatever stands above them. -/
theorem splitFields_packFields {ws : List Nat} {l : List (Nat × Nat)} (h : (l.map Prod.fst).take ws.length = ws) :
    splitFields ws (packFields l) = (l.take ws.length).map fun x => x.2 % 2 ^ x.1 := by
  induction ws generalizing l with
  | nil => rfl
  | cons n ws ih =>
    obtain _ | ⟨⟨m, v⟩, l⟩ := l
    · cases h
    obtain ⟨rfl, ht⟩ := List.cons.inj h
    have hlow : v % 2 ^ m < 2 ^ m := Nat.mod_lt _ (Nat.two_pow_pos m)
    rw [splitFields, packFields, Nat.add_mul_mod_self_left, Nat.mod_mod, Nat.add_mul_div_left _ _ (Nat.two_pow_pos m),
      Nat.div_eq_of_lt hlow, Nat.zero_add, ih ht]
    rfl

/-- What stands above the lowest `n` fields. -/
theorem packFields_div_pow (l : List (Nat × Nat)) (n : Nat) : packFields l / 2 ^ ((l.take n).map Prod.fst).sum = packFields (l.drop n) := by
  induction n generalizing l with
  | zero => simp
  | succ n ih =>
    obtain _ | ⟨⟨m, v⟩, l⟩ := l
    · simp [packFields]
    have hlow : v % 2 ^ m < 2 ^ m := Nat.mod_lt _ (Nat.two_pow_pos m)
    rw [List.take_succ_cons, List.map_cons, List.sum_cons, Nat.pow_add, ← Nat.div_div_eq_div_mul, packFields,
      Nat.add_mul_div_left _ _ (Nat.two_pow_pos m), Nat.div_eq_of_lt hlow, Nat.zero_add, ih, List.drop_succ_cons]

/-- The fields of a number, put together again under what stands above them. -/
theorem packFields_zip_splitFields (ws : List Nat) (t : List (Nat × Nat)) (w : Nat) :
    packFields (ws.zip (splitFields ws w) ++ t) = w % 2 ^ ws.sum + 2 ^ ws.sum * packFields t := by
  induction ws generalizing w with
  | nil => simp [splitFields, Nat.mod_one]
  | cons n ws ih =>
    rw [splitFields, List.zip_cons_cons, List.cons_append, packFields, ih, List.sum_cons, Nat.pow_add, Nat.mod_mul, Nat.mod_mod]
    ring

/-- A word is its 56 low bits, field by field, and its opcode byte (R56). -/
theorem packFields_splitFields {ws : List Nat} {w : Nat} (hsum : ws.sum = 56) (hw : w < 2 ^ 64) :
    packFields (ws.zip (splitFields ws w) ++ [(8, opcodeOf w)]) = w := by
  have hop : packFields [(8, opcodeOf w)] = w / 2 ^ 56 := by
    rw [packFields, packFields, opcodeOf, bits]
    omega
  rw [packFields_zip_splitFields, hsum, hop, Nat.mod_add_div]

/-- The opcode byte of a word is the field above its 56 low bits (R56). -/
theorem opcodeOf_packFields {l : List (Nat × Nat)} {op : Nat} (n : Nat) (hsum : ((l.take n).map Prod.fst).sum = 56)
    (hop : l.drop n = [(8, op)]) : opcodeOf (packFields l) = op % 2 ^ 8 := by
  rw [opcodeOf, bits, ← hsum, packFields_div_pow, hop, packFields, packFields, Nat.mul_zero, Nat.add_zero, Nat.mod_mod]

/-! Codes of the fields (R37, R41, R59, R60): a number names at most one, by its code, and each fits its field -/

theorem Ty.ofCode?_eq_some {n : Nat} {x : Ty} : Ty.ofCode? n = some x ↔ n = x.code :=
  ⟨fun h => by unfold Ty.ofCode? at h; split at h <;> cases h <;> rfl, by rintro rfl; cases x <;> rfl⟩

theorem Rm.ofCode?_eq_some {n : Nat} {x : Rm} : Rm.ofCode? n = some x ↔ n = x.code :=
  ⟨fun h => by unfold Rm.ofCode? at h; split at h <;> cases h <;> rfl, by rintro rfl; cases x <;> rfl⟩

theorem Cond.ofCode?_eq_some {n : Nat} {x : Cond} : Cond.ofCode? n = some x ↔ n = x.code :=
  ⟨fun h => by unfold Cond.ofCode? at h; split at h <;> cases h <;> rfl, by rintro rfl; cases x <;> rfl⟩

theorem Ord.ofCode?_eq_some {n : Nat} {x : Ord} : Ord.ofCode? n = some x ↔ n = x.code :=
  ⟨fun h => by unfold Ord.ofCode? at h; split at h <;> cases h <;> rfl, by rintro rfl; cases x <;> rfl⟩

theorem Scope.ofCode?_eq_some {n : Nat} {x : Scope} : Scope.ofCode? n = some x ↔ n = x.code :=
  ⟨fun h => by unfold Scope.ofCode? at h; split at h <;> cases h <;> rfl, by rintro rfl; cases x <;> rfl⟩

theorem Space.ofCode?_eq_some {n : Nat} {x : Space} : Space.ofCode? n = some x ↔ n = x.code :=
  ⟨fun h => by unfold Space.ofCode? at h; split at h <;> cases h <;> rfl, by rintro rfl; cases x <;> rfl⟩

theorem Cache.ofCode?_eq_some {n : Nat} {x : Cache} : Cache.ofCode? n = some x ↔ n = x.code :=
  ⟨fun h => by unfold Cache.ofCode? at h; split at h <;> cases h <;> rfl, by rintro rfl; cases x <;> rfl⟩

theorem RaceAttr.ofCode?_eq_some {n : Nat} {x : RaceAttr} : RaceAttr.ofCode? n = some x ↔ n = x.code :=
  ⟨fun h => by unfold RaceAttr.ofCode? at h; split at h <;> cases h <;> rfl, by rintro rfl; cases x <;> rfl⟩

@[simp] theorem Ty.code_mod (x : Ty) : x.code % 2 ^ 4 = x.code := by cases x <;> rfl
@[simp] theorem Rm.code_mod (x : Rm) : x.code % 2 ^ 3 = x.code := by cases x <;> rfl
@[simp] theorem Cond.code_mod (x : Cond) : x.code % 2 ^ 4 = x.code := by cases x <;> rfl
@[simp] theorem Ord.code_mod (x : Ord) : x.code % 2 ^ 3 = x.code := by cases x <;> rfl
@[simp] theorem Scope.code_mod (x : Scope) : x.code % 2 ^ 3 = x.code := by cases x <;> rfl
@[simp] theorem Space.code_mod (x : Space) : x.code % 2 ^ 3 = x.code := by cases x <;> rfl
@[simp] theorem Cache.code_mod (x : Cache) : x.code % 2 ^ 3 = x.code := by cases x <;> rfl
@[simp] theorem RaceAttr.code_mod (x : RaceAttr) : x.code % 2 ^ 2 = x.code := by cases x <;> rfl

/-! Bits of a word (R57) -/

@[simp] theorem b2n_mod_two (b : Bool) : b2n b % 2 = b2n b := by cases b <;> rfl

@[simp] theorem b2n_beq_one (b : Bool) : (b2n b == 1) = b := by cases b <;> rfl

theorem b2n_mod_beq_one (n : Nat) : b2n (n % 2 ^ 1 == 1) = n % 2 ^ 1 := by
  rcases Nat.mod_two_eq_zero_or_one n with h | h <;> rw [pow_one, h] <;> rfl

theorem wrap_mod (n : Nat) (x : Int) : wrap n x % 2 ^ n = wrap n x := by
  rw [← toNat_ofInt_eq_wrap, BitVec.toNat_mod_cancel]

/-- An offset that 16 bits hold comes back from them (R58). -/
theorem signed_wrap {x : Int} (hlo : -32768 ≤ x) (hhi : x < 32768) : signed 16 (wrap 16 x) = x := by
  rw [← toNat_ofInt_eq_wrap, signed_toNat (by decide)]
  exact BitVec.toInt_ofInt_eq_self (by decide) hlo hhi

theorem wrap_signed_mod (v : Nat) : wrap 16 (signed 16 (v % 2 ^ 16)) = v % 2 ^ 16 := by
  rw [← toInt_ofNat_eq_signed (by decide), ← toNat_ofInt_eq_wrap, BitVec.ofInt_toInt, BitVec.toNat_ofNat, Nat.mod_mod]

/-! Fields that were put together, read (R57) -/

theorem getA_putA (op : Nat) (f : FA) : getA (putA op f) = .ok f := by
  rw [getA, putA, splitFields_packFields rfl]
  simp [-Nat.reducePow, widthsA, Ty.ofCode?_eq_some.mpr rfl, Rm.ofCode?_eq_some.mpr rfl]

theorem getI_putI (op : Nat) (f : FI) : getI (putI op f) = .ok f := by
  rw [getI, putI, splitFields_packFields rfl]
  simp [-Nat.reducePow, widthsI, Ty.ofCode?_eq_some.mpr rfl, Rm.ofCode?_eq_some.mpr rfl]

theorem getG_putG (op : Nat) (ib : Bool) (f : FG) : getG (putG op (b2n ib) f) = .ok (ib, f) := by
  rw [getG, putG, splitFields_packFields rfl]
  simp [-Nat.reducePow, widthsG, Ty.ofCode?_eq_some.mpr rfl, Cond.ofCode?_eq_some.mpr rfl]

theorem getM_putM (op : Nat) {f : FM} (hlo : -32768 ≤ f.off) (hhi : f.off < 32768) : getM (putM op f) f.pre 0 = .ok f := by
  rw [getM, putM, splitFields_packFields rfl]
  simp [-Nat.reducePow, widthsM, Ty.ofCode?_eq_some.mpr rfl, wrap_mod, signed_wrap hlo hhi]

theorem getX_putX (op : Nat) (f : FX) : getX (putX op f) f.pre = .ok f := by
  rw [getX, putX, splitFields_packFields rfl]
  simp [-Nat.reducePow, widthsX, Ty.ofCode?_eq_some.mpr rfl]

theorem getE_putE (op : Nat) (f : FE) : getE (putE op f) = .ok f := by
  rw [getE, putE, splitFields_packFields rfl]
  simp [-Nat.reducePow, widthsX, Ty.ofCode?_eq_some.mpr rfl]

theorem getS_putS (op : Nat) (f : FS) : getS (putS op f) = .ok f := by
  rw [getS, putS, splitFields_packFields rfl]
  simp [-Nat.reducePow, widthsS]

/-! A word's fields, put together under its opcode byte (R56, R57) -/

variable {w : Nat} {pre : Option PWord}

theorem putA_of_getA {f : FA} (hw : w < 2 ^ 64) (h : getA w = .ok f) : putA (opcodeOf w) f = w := by
  have hp := packFields_splitFields (ws := widthsA) rfl hw
  simp only [getA, widthsA, splitFields, List.zip_cons_cons, List.zip_nil_left, List.cons_append, List.nil_append] at h hp
  split at h
  · next hty hrm =>
    cases h
    simpa only [putA, BitVec.toNat_ofNat, Nat.mod_mod, b2n_mod_beq_one, Ty.ofCode?_eq_some.mp hty, Rm.ofCode?_eq_some.mp hrm] using hp
  · cases h

theorem putI_of_getI {f : FI} (hw : w < 2 ^ 64) (h : getI w = .ok f) : putI (opcodeOf w) f = w := by
  have hp := packFields_splitFields (ws := widthsI) rfl hw
  simp only [getI, widthsI, splitFields, List.zip_cons_cons, List.zip_nil_left, List.cons_append, List.nil_append] at h hp
  split at h
  · cases h
  next hres =>
  split at h
  · next hty hrm =>
    cases h
    simpa only [putI, BitVec.toNat_ofNat, Nat.mod_mod, b2n_mod_beq_one, Ty.ofCode?_eq_some.mp hty, Rm.ofCode?_eq_some.mp hrm,
      of_not_not hres] using hp
  · cases h

theorem putG_of_getG {p : Bool × FG} (hw : w < 2 ^ 64) (h : getG w = .ok p) : putG (opcodeOf w) (b2n p.1) p.2 = w := by
  have hp := packFields_splitFields (ws := widthsG) rfl hw
  simp only [getG, widthsG, splitFields, List.zip_cons_cons, List.zip_nil_left, List.cons_append, List.nil_append] at h hp
  split at h
  · next hty hcond =>
    cases h
    simpa only [putG, BitVec.toNat_ofNat, Nat.mod_mod, b2n_mod_beq_one, Ty.ofCode?_eq_some.mp hty, Cond.ofCode?_eq_some.mp hcond] using hp
  · cases h

theorem putM_of_getM {f : FM} (hw : w < 2 ^ 64) (h : getM w pre 0 = .ok f) : putM (opcodeOf w) f = w := by
  have hp := packFields_splitFields (ws := widthsM) rfl hw
  simp only [getM, widthsM, splitFields, List.zip_cons_cons, List.zip_nil_left, List.cons_append, List.nil_append] at h hp
  split at h
  · next hty =>
    cases h
    simpa only [putM, BitVec.toNat_ofNat, Nat.mod_mod, b2n_mod_beq_one, Ty.ofCode?_eq_some.mp hty, Int.add_zero, wrap_signed_mod] using hp
  · cases h

theorem putX_of_getX {f : FX} (hw : w < 2 ^ 64) (h : getX w pre = .ok f) : putX (opcodeOf w) f = w := by
  have hp := packFields_splitFields (ws := widthsX) rfl hw
  simp only [getX, widthsX, splitFields, List.zip_cons_cons, List.zip_nil_left, List.cons_append, List.nil_append] at h hp
  split at h
  · cases h
  next hres =>
  split at h
  · next hty =>
    cases h
    simpa only [putX, BitVec.toNat_ofNat, Nat.mod_mod, b2n_mod_beq_one, Ty.ofCode?_eq_some.mp hty, of_not_not hres] using hp
  · cases h

theorem putE_of_getE {f : FE} (hw : w < 2 ^ 64) (h : getE w = .ok f) : putE (opcodeOf w) f = w := by
  have hp := packFields_splitFields (ws := widthsX) rfl hw
  simp only [getE, widthsX, splitFields, List.zip_cons_cons, List.zip_nil_left, List.cons_append, List.nil_append] at h hp
  split at h
  · next hty =>
    cases h
    simpa only [putE, BitVec.toNat_ofNat, Nat.mod_mod, b2n_mod_beq_one, Ty.ofCode?_eq_some.mp hty] using hp
  · cases h

theorem putS_of_getS {f : FS} (hw : w < 2 ^ 64) (h : getS w = .ok f) : putS (opcodeOf w) f = w := by
  have hp := packFields_splitFields (ws := widthsS) rfl hw
  simp only [getS, widthsS, splitFields, List.zip_cons_cons, List.zip_nil_left, List.cons_append, List.nil_append] at h hp
  cases h
  simpa only [putS, BitVec.toNat_ofNat, Nat.mod_mod] using hp

theorem pre_of_getM {extra : Int} {f : FM} (h : getM w pre extra = .ok f) : f.pre = pre := by
  simp only [getM, widthsM, splitFields] at h
  split at h
  · cases h
    rfl
  · cases h

theorem pre_of_getX {f : FX} (h : getX w pre = .ok f) : f.pre = pre := by
  simp only [getX, widthsX, splitFields] at h
  split at h
  · cases h
  split at h
  · cases h
    rfl
  · cases h

/-! The P word (R60) -/

theorem decodeP_putP (p : PWord) : decodeP (putP p) = .ok p := by
  have hop : opcodeOf (putP p) = 0xE4 := (opcodeOf_packFields 6 rfl rfl : opcodeOf (putP p) = 0xE4 % 2 ^ 8)
  rw [decodeP, hop, putP, splitFields_packFields rfl]
  simp [-Nat.reducePow, widthsP, Ord.ofCode?_eq_some.mpr rfl, Scope.ofCode?_eq_some.mpr rfl, Space.ofCode?_eq_some.mpr rfl,
    Cache.ofCode?_eq_some.mpr rfl, RaceAttr.ofCode?_eq_some.mpr rfl]

theorem putP_of_decodeP {p : PWord} (hw : w < 2 ^ 64) (h : decodeP w = .ok p) : putP p = w := by
  have hp := packFields_splitFields (ws := widthsP) rfl hw
  simp only [decodeP, widthsP, splitFields, List.zip_cons_cons, List.zip_nil_left, List.cons_append, List.nil_append] at h hp
  split at h
  · cases h
  next hop =>
  split at h
  · cases h
  next hres =>
  split at h
  · next hord hscope hspace hcache hrace =>
    cases h
    simpa only [putP, of_not_not hop, of_not_not hres, Ord.ofCode?_eq_some.mp hord, Scope.ofCode?_eq_some.mp hscope,
      Space.ofCode?_eq_some.mp hspace, Cache.ofCode?_eq_some.mp hcache, RaceAttr.ofCode?_eq_some.mp hrace] using hp
  · cases h

/-! The opcode byte that each format's encoding puts (R56, R64) -/

@[simp] theorem opcodeOf_putA (op : Nat) (f : FA) : opcodeOf (putA op f) = op % 2 ^ 8 := opcodeOf_packFields 12 rfl rfl
@[simp] theorem opcodeOf_putI (op : Nat) (f : FI) : opcodeOf (putI op f) = op % 2 ^ 8 := opcodeOf_packFields 10 rfl rfl
@[simp] theorem opcodeOf_putG (op ib : Nat) (f : FG) : opcodeOf (putG op ib f) = op % 2 ^ 8 := opcodeOf_packFields 9 rfl rfl
@[simp] theorem opcodeOf_putM (op : Nat) (f : FM) : opcodeOf (putM op f) = op % 2 ^ 8 := opcodeOf_packFields 9 rfl rfl
@[simp] theorem opcodeOf_putX (op : Nat) (f : FX) : opcodeOf (putX op f) = op % 2 ^ 8 := opcodeOf_packFields 10 rfl rfl
@[simp] theorem opcodeOf_putE (op : Nat) (f : FE) : opcodeOf (putE op f) = op % 2 ^ 8 := opcodeOf_packFields 10 rfl rfl
@[simp] theorem opcodeOf_putS (op : Nat) (f : FS) : opcodeOf (putS op f) = op % 2 ^ 8 := opcodeOf_packFields 5 rfl rfl

end Sys2Proof
end


section
/-! SUPPORT. The words of instructions (R56 to R65): an instruction's words decode to it, and a word that decodes is the encoding of what it decodes
to. -/

namespace Sys2Proof

open Machine

section
variable {w : Nat} {pre : Option PWord}

/-! Words that are decoded (R61, R64, R65) -/

/-- The row of an opcode whose words all stand for one instruction. -/
theorem decodeRaw_of_map {α : Type} {r : Except DecodeError α} {k : α → Instr} {f : α} {extra : Int}
    (hrow : decodeRaw w pre extra = r.map k) (hr : r = .ok f) : decodeRaw w pre extra = .ok (k f) := by
  rw [hrow, hr]
  rfl

/-- The row of an opcode that tells instructions apart by a further field. -/
theorem decodeRaw_of_bind {α : Type} {r : Except DecodeError α} {k : α → Except DecodeError Instr} {f : α} {i : Instr} {extra : Int}
    (hrow : decodeRaw w pre extra = r >>= k) (hr : r = .ok f) (hk : k f = .ok i) : decodeRaw w pre extra = .ok i := by
  rw [hrow, hr]
  exact hk

theorem byFn_zero {f : FS} {i0 i1 : FS → Instr} (h : f.fn = 0) : byFn f i0 i1 = .ok (i0 f) := if_pos h

theorem byFn_one {f : FS} {i0 i1 : FS → Instr} (h : f.fn = 1) : byFn f i0 i1 = .ok (i1 f) := by
  rw [byFn, h]
  rfl

theorem decodeWords_word {i : Instr} (hwf : i.WellFormed) (h : decodeRaw w none 0 = .ok i) : decodeWords [w] = .ok i := by
  rw [decodeWords, decodeWord, decodeSlot, h]
  exact if_pos hwf

/-- A word after the P word that it may take (R61). -/
theorem decodeWords_withP {i : Instr} {acc : Ord → Bool} (hwf : i.WellFormed) (hacc : ordsOf? w = some acc) (hpre : preOk acc pre = true)
    (h : decodeRaw w pre 0 = .ok i) : decodeWords (withP pre w) = .ok i := by
  cases pre with
  | none => exact decodeWords_word hwf h
  | some p =>
    have hp : decodePrefix (putP p) w = .ok p := by
      rw [decodePrefix, decodeP_putP]
      dsimp only
      rw [hacc]
      exact if_pos hpre
    rw [withP, decodeWords, hp]
    dsimp only
    rw [decodeSlot, h]
    exact if_pos hwf

theorem decodeWords_of_pre_none {i : Instr} (hwf : i.WellFormed) (hpre : pre = none)
    (h : decodeRaw w pre 0 = .ok i) : decodeWords (withP pre w) = .ok i := by
  subst hpre
  exact decodeWords_word hwf h

theorem preOk_ordAny (p : Option PWord) : preOk ordAny p = true := by cases p <;> rfl

/-- What its entry asks of the codes of an M word holds of a well-formed one (R65). -/
theorem accepted_of_formM {f : FM} {d base index : OpK} {ok : Bool} (h : formOk (.M f d base index ok) = true) : ok = true := by
  simp only [formOk, Bool.and_eq_true] at h
  tauto

theorem accepted_of_formX {f : FX} {a b c d : OpK} {ok : Bool} (h : formOk (.X f a b c d ok) = true) : ok = true := by
  simp only [formOk, Bool.and_eq_true] at h
  tauto

/-! What decoded words are the encoding of (R64) -/

theorem encode_of_map {α : Type} {r : Except DecodeError α} {k : α → Instr} {i : Instr} {ws : List Nat}
    (hk : ∀ f, r = .ok f → encode (k f) = ws) (h : r.map k = .ok i) : encode i = ws := by
  cases r with
  | error e => cases h
  | ok f =>
    cases h
    exact hk f rfl

theorem encode_of_byFn {r : Except DecodeError FS} {i0 i1 : FS → Instr} {i : Instr} {ws : List Nat}
    (h0 : ∀ f, r = .ok f → encode (i0 f) = ws) (h1 : ∀ f, r = .ok f → encode (i1 f) = ws)
    (h : (r >>= fun f => byFn f i0 i1) = .ok i) : encode i = ws := by
  cases r with
  | error e => cases h
  | ok f =>
    simp only [bind, Except.bind, byFn] at h
    split at h
    · cases h
      exact h0 f rfl
    split at h
    · cases h
      exact h1 f rfl
    · cases h

theorem encode_of_noIb {r : Except DecodeError (Bool × FG)} {k : FG → Instr} {i : Instr} {ws : List Nat}
    (hk : ∀ f, r = .ok (false, f) → encode (k f) = ws) (h : (r >>= noIb k) = .ok i) : encode i = ws := by
  cases r with
  | error e => cases h
  | ok p =>
    obtain ⟨_ | _, f⟩ := p
    · cases h
      exact hk f rfl
    · cases h

/-- The fields of a word in any format, under an opcode byte, are the word. -/
structure FieldsMake (op w : Nat) (pre : Option PWord) : Prop where
  A : ∀ f, getA w = .ok f → [putA op f] = [w]
  I : ∀ f, getI w = .ok f → [putI op f] = [w]
  G : ∀ ib f, getG w = .ok (ib, f) → [putG op (b2n ib) f] = [w]
  M : ∀ f, getM w pre 0 = .ok f → withP f.pre (putM op f) = withP pre w
  X : ∀ f, getX w pre = .ok f → withP f.pre (putX op f) = withP pre w
  E : ∀ f, getE w = .ok f → [putE op f] = [w]
  S : ∀ f, getS w = .ok f → [putS op f] = [w]

theorem fieldsMake_opcodeOf (hw : w < 2 ^ 64) (pre : Option PWord) : FieldsMake (opcodeOf w) w pre where
  A _ hf := by rw [putA_of_getA hw hf]
  I _ hf := by rw [putI_of_getI hw hf]
  G _ _ hf := by rw [putG_of_getG hw hf]
  M _ hf := by rw [pre_of_getM hf, putM_of_getM hw hf]
  X _ hf := by rw [pre_of_getX hf, putX_of_getX hw hf]
  E _ hf := by rw [putE_of_getE hw hf]
  S _ hf := by rw [putS_of_getS hw hf]

/-- A word that decodes is the encoding of what it decodes to, after the P word if the word is of a format that keeps one. The cases are
the opcode bytes of R64 in their order, so that each range has one format. -/
theorem encode_of_decodeRaw {i : Instr} (hw : w < 2 ^ 64) (h : decodeRaw w pre 0 = .ok i) :
    encode i = withP (if isMX w then pre else none) w := by
  have hf := fieldsMake_opcodeOf hw pre
  unfold decodeRaw at h
  unfold isMX
  generalize opcodeOf w = op at h hf ⊢
  split at h
  -- 0x00 to 0x0B: S; TRET, CSRW and CHKERR tell two instructions apart by fn
  iterate 2 · exact encode_of_map hf.S h
  · exact encode_of_byFn hf.S hf.S h
  · exact encode_of_map hf.S h
  · exact encode_of_byFn hf.S hf.S h
  iterate 3 · exact encode_of_map hf.S h
  · exact encode_of_byFn hf.S hf.S h
  iterate 3 · exact encode_of_map hf.S h
  -- 0x10 to 0x2F: A; 0x30 to 0x3F: I
  iterate 32 · exact encode_of_map hf.A h
  iterate 16 · exact encode_of_map hf.I h
  -- 0x40 to 0x5A: A; 0x5B: I; 0x70 to 0x72: A
  iterate 27 · exact encode_of_map hf.A h
  · exact encode_of_map hf.I h
  iterate 3 · exact encode_of_map hf.A h
  -- 0x80 to 0x85: G; GCMP and GFLG have an ib form
  · exact encode_of_map (by rintro ⟨_ | _, f⟩ <;> exact hf.G _ f) h
  iterate 3 · exact encode_of_noIb (hf.G false) h
  · exact encode_of_map (by rintro ⟨_ | _, f⟩ <;> exact hf.G _ f) h
  · exact encode_of_noIb (hf.G false) h
  -- 0x90 to 0x98: A
  iterate 9 · exact encode_of_map hf.A h
  -- 0xA0 to 0xA7: M, but X for LDX at 0xA4; 0xB0 to 0xBB: M
  iterate 4 · exact encode_of_map hf.M h
  · exact encode_of_map hf.X h
  iterate 15 · exact encode_of_map hf.M h
  -- 0xC0 to 0xCA: X; 0xD0 to 0xDD: E
  iterate 11 · exact encode_of_map hf.X h
  iterate 14 · exact encode_of_map hf.E h
  -- every other byte is unassigned
  · cases h

theorem decodeSlot_ok {i : Instr} {extra : Int} (h : decodeSlot w pre extra = .ok i) : decodeRaw w pre extra = .ok i ∧ i.WellFormed := by
  unfold decodeSlot at h
  split at h
  · cases h
  split at h
  · next hraw hwf =>
    cases h
    exact ⟨hraw, hwf⟩
  · cases h

theorem decodePrefix_ok {p : Nat} {q : PWord} (h : decodePrefix p w = .ok q) : decodeP p = .ok q ∧ (ordsOf? w).isSome = true := by
  unfold decodePrefix at h
  split at h
  · cases h
  next hp =>
  split at h
  · next hacc =>
    split at h
    · cases h
      exact ⟨hp, hacc ▸ rfl⟩
    · cases h
  · cases h

/-- The words that take a P word are of format M or X (R61). -/
theorem isMX_of_ordsOf (h : (ordsOf? w).isSome = true) : isMX w = true := by
  unfold ordsOf? at h
  unfold isMX
  grind

end

/-- Settles O33, instruction by instruction: by its opcode byte the decoder finds its row, which reads its format, and the format gives its fields back.
A P word stands only before an instruction that takes one and accepts its ordering. -/
theorem decodeEncode : Obligations.DecodeEncode := by
  intro i hwf hs hlo hhi
  obtain ⟨hform, hpword⟩ := Bool.and_eq_true_iff.mp hwf
  cases i with
  | nop f | trap f | csrr f | fill f | void f | waitf f | prog f | yield f | launch f =>
    exact decodeWords_word hwf (decodeRaw_of_map (by unfold decodeRaw; rw [opcodeOf_putS]; rfl) (getS_putS _ f))
  | tretRe f | chkerr f =>
    have hfn : f.fn = 0 := by simp_all [formOf, formOk]
    exact decodeWords_word hwf (decodeRaw_of_bind (by unfold decodeRaw; rw [opcodeOf_putS]; rfl) (getS_putS _ f) (byFn_zero hfn))
  | csrw f =>
    have hfn : f.fn = 0 := by
      simp only [formOf] at hform
      split at hform <;> simp_all [formOk]
    exact decodeWords_word hwf (decodeRaw_of_bind (by unfold decodeRaw; rw [opcodeOf_putS]; rfl) (getS_putS _ f) (byFn_zero hfn))
  | tretSkip f | csrwImm f | chkerrAbort f =>
    have hfn : f.fn = 1 := by simp_all [formOf, formOk]
    exact decodeWords_word hwf (decodeRaw_of_bind (by unfold decodeRaw; rw [opcodeOf_putS]; rfl) (getS_putS _ f) (byFn_one hfn))
  | iadd f | isub f | imul f | imulh f | imad f | imadw f | idiv f | irem f | ineg f | iabs f | imin f | imax f | iadds f | isubs f | and f
  | or f | xor f | andn f | lsl f | lsr f | asr f | rot f | bfx f | bfi f | popc f | clz f | ctz f | brev f | icmp f | sel f | mov f
  | lea f | fadd f | fsub f | fmul f | fma f | fnma f | fmin f | fmax f | fabs f | fneg f | fcps f | fcmp f | fcls f | fdiv f | fsqrt f
  | frcp f | frsq f | fexp f | fexp2 f | flog f | flog2 f | fsin f | fcos f | ftanh f | fsigm f | ferf f | frnd f | flgr f | cvt f | kdq f
  | kdx f | qenc f | qdec f | qadd f | qsub f | qmul f | qdiv f | qinv f | qneg f | qeq f =>
    exact decodeWords_word hwf (decodeRaw_of_map (by unfold decodeRaw; rw [opcodeOf_putA]; rfl) (getA_putA _ f))
  | iaddImm f | imulImm f | iminImm f | imaxImm f | andImm f | orImm f | xorImm f | bfxImm f | lslImm f | lsrImm f | asrImm f | rotImm f
  | icmpImm f | leaImm f | movi f | movh f | flgc f =>
    exact decodeWords_word hwf (decodeRaw_of_map (by unfold decodeRaw; rw [opcodeOf_putI]; rfl) (getI_putI _ f))
  | gcmp f | gflg f =>
    exact decodeWords_word hwf (by unfold decodeRaw; rw [opcodeOf_putG]; exact congrArg (Except.map _) (getG_putG _ false f))
  | gcmpImm f | gflgImm f =>
    exact decodeWords_word hwf (by unfold decodeRaw; rw [opcodeOf_putG]; exact congrArg (Except.map _) (getG_putG _ true f))
  | gz f | gnz f | grng f | gfull f =>
    exact decodeWords_word hwf (decodeRaw_of_bind (by unfold decodeRaw; rw [opcodeOf_putG]; rfl) (getG_putG _ false f) rfl)
  | ld f | st f | pref f | waitv f | publish f =>
    exact decodeWords_withP hwf (by unfold ordsOf?; rw [opcodeOf_putM]; rfl) (Bool.and_elim_right (accepted_of_formM hform))
      (decodeRaw_of_map (by unfold decodeRaw; rw [opcodeOf_putM]; rfl) (getM_putM _ hlo hhi))
  | fence f | atomAdd f | atomSub f | atomMin f | atomMax f | atomAnd f | atomOr f | atomXor f | atomExch f | atomCas f | atomFadd f
  | atomFmin f | atomFmax f =>
    exact decodeWords_withP hwf (by unfold ordsOf?; rw [opcodeOf_putM]; rfl) (preOk_ordAny f.pre)
      (decodeRaw_of_map (by unfold decodeRaw; rw [opcodeOf_putM]; rfl) (getM_putM _ hlo hhi))
  | ptog f =>
    exact decodeWords_of_pre_none hwf (eq_of_beq (Bool.and_elim_right (accepted_of_formM hform)))
      (decodeRaw_of_map (by unfold decodeRaw; rw [opcodeOf_putM]; rfl) (getM_putM _ hlo hhi))
  | ldx f =>
    exact decodeWords_withP hwf (by unfold ordsOf?; rw [opcodeOf_putX]; rfl) (Bool.and_elim_right (accepted_of_formX hform))
      (decodeRaw_of_map (by unfold decodeRaw; rw [opcodeOf_putX]; rfl) (getX_putX _ f))
  | shfl f | xred f | scan f | vote f | gnew f | join f | leave f | gbar f | grank f | gsize f | gset f =>
    exact decodeWords_of_pre_none hwf (eq_of_beq hpword)
      (decodeRaw_of_map (by unfold decodeRaw; rw [opcodeOf_putX]; rfl) (getX_putX _ f))
  | mma f | mzero f | mlda f | msta f | mdrn f | cpygo f | cpyw f | binit f | barv f | bwait f | btest f | flinit f | flacq f | flrel f =>
    exact decodeWords_word hwf (decodeRaw_of_map (by unfold decodeRaw; rw [opcodeOf_putE]; rfl) (getE_putE _ f))
  | _ => cases hs

/-- Settles O34: a word alone, and a word of format M or X after its P word. -/
theorem encodeDecode : Obligations.EncodeDecode := by
  refine ⟨fun w i hw h => ?_, fun p w i hp hw h => ?_⟩
  · obtain ⟨hraw, hwf⟩ := decodeSlot_ok h
    have he := encode_of_decodeRaw hw hraw
    rw [ite_self] at he
    exact ⟨he, hwf⟩
  · rw [decodeWords] at h
    split at h
    · cases h
    next q hq =>
    obtain ⟨hP, hords⟩ := decodePrefix_ok hq
    obtain ⟨hraw, hwf⟩ := decodeSlot_ok h
    have he := encode_of_decodeRaw hw hraw
    rw [if_pos (isMX_of_ordsOf hords), withP, putP_of_decodeP hp hP] at he
    exact ⟨he, hwf⟩

/-- Settles O32, word by word. -/
theorem wordsDecode : Obligations.WordsDecode := by
  unfold Obligations.WordsDecode
  decide +kernel

end Sys2Proof
end


section
/-! SUPPORT. What a ready lane delivers for an instruction on integers, its operands taken as bit patterns (R36, R78, R79). -/

namespace Sys2Proof.Machine

open Sys2Proof

/-- Operand `n` of the values read, as a bit pattern. -/
def opnd (vals : List Nat) (n w : Nat) : BitVec w := .ofNat w (arg vals n)

section
variable {i : Instr} {t : Ty} {x : (Nat → (w : Nat) → BitVec w) → Nat}

/-- An integer instruction delivers what its function gives of the operands that a ready lane reads. -/
theorem delivers_of_ready (g : List Nat → Nat) (he : ∀ s, exec i s = runInt i s t g)
    (hx : ∀ (s : State) (v : View), s.Ready v i → g (s.operands v i) = x (s.opd v i)) : Delivers i t x := by
  intro s v h
  rw [he, runInt_ready h, hx s v h]
  rfl

/-- The same where the function gives it of any values. -/
theorem delivers_of_vals (g : List Nat → Nat) (he : ∀ s, exec i s = runInt i s t g) (hx : ∀ vals, g vals = x (opnd vals)) : Delivers i t x :=
  delivers_of_ready g he fun s v _ => hx (s.operands v i)

/-- The entry of the instruction has accepted its fields (R65). -/
theorem delivers_of_wf (h : wfBool i = true → Delivers i t x) : Delivers i t x := fun s v hr => h hr.2.1 s v hr

end

/-- A source of one register is a number of 32 bits (R10). -/
theorem srcVal_lt (s : State) (v : View) (l : Lane) {x : Src} (h : x.words = 1) : s.srcVal v l x < 2 ^ 32 := by
  unfold State.srcVal
  rw [h]
  split
  · simpa [upFrom] using (s.uniform v.t.homeGid x.code).isLt
  · simp only [spanVal]
    split
    · decide
    · simpa using (laneReg l v.t x.code).isLt

/-- An operand of one register is whole as 32 bits. -/
theorem opd_toNat {s : State} {v : View} {i : Instr} {n : Nat} {x : Src} (hx : (srcsOf i)[n]? = some x) (h : x.words = 1) :
    (s.opd v i n 32).toNat = arg (s.operands v i) n := by
  have hn : arg (s.operands v i) n = s.srcVal v v.l x := by simp [arg, State.operands, hx]
  have hlt := srcVal_lt s v v.l h
  rw [← hn] at hlt
  exact Nat.mod_eq_of_lt hlt

/-- A word of format A holds codes that its entry accepts (R65). -/
theorem accepted_of_wf {i : Instr} {f : FA} {a b c d : OpK} {rounds ok : Bool} (hi : formOf i = .A f a b c d rounds ok) (h : wfBool i = true) :
    ok = true := by
  simp only [wfBool, hi, formOk, Bool.and_eq_true] at h
  tauto

/-! The integer that a bit pattern denotes, and the pattern of an integer (R78, R79) -/

theorem red_eq (t : Ty) (x : Int) : red t x = (BitVec.ofInt t.width x).toNat := (toNat_ofInt_eq_wrap ..).symm

theorem iv_eq (t : Ty) (vals : List Nat) (n : Nat) : iv t (arg vals n) = asInt t (opnd vals n t.width) := intOf_eq_asInt ..

theorem iv_immB (t : Ty) (x : Int) : iv t (immB t x) = asInt t (BitVec.ofInt t.width x) := by
  rw [iv, intOf_eq_asInt, immB, ofNat_wrap]

theorem extend_eq (t : Ty) {n w : Nat} (x : BitVec n) : extend t w x = BitVec.ofInt w (if t.isI then x.toInt else x.toNat) := by
  unfold extend
  split
  · rfl
  · rw [BitVec.ofInt_natCast, BitVec.ofNat_toNat]

theorem extend_asInt (t : Ty) (w : Nat) (x : BitVec t.width) : extend t w x = BitVec.ofInt w (asInt t x) := extend_eq t x

theorem ofInt_immS (f : FI) (w : Nat) : BitVec.ofInt w (immS f) = f.imm.signExtend w := by
  rw [immS, signed_toNat (by decide)]
  rfl

theorem ofInt_immZ (f : FI) (w : Nat) : BitVec.ofInt w (immZ f) = f.imm.setWidth w := by
  rw [immZ, BitVec.ofInt_natCast, BitVec.ofNat_toNat]

theorem ofInt_immE (f : FI) : BitVec.ofInt f.ty.width (immE f) = extend f.ty f.ty.width f.imm := by
  rw [immE, extend, apply_ite (BitVec.ofInt f.ty.width), ofInt_immS, ofInt_immZ]

/-! What the shared operations of the model compute, on bit patterns -/

theorem int2_eq (t : Ty) (op : Int → Int → Int) (vals : List Nat) :
    int2 t op vals = (BitVec.ofInt t.width (op (asInt t (opnd vals 0 _)) (asInt t (opnd vals 1 _)))).toNat := by
  rw [int2, red_eq, iv_eq, iv_eq]

theorem int1_eq (t : Ty) (op : Int → Int) (vals : List Nat) : int1 t op vals = (BitVec.ofInt t.width (op (asInt t (opnd vals 0 _)))).toNat := by
  rw [int1, red_eq, iv_eq]

theorem intI_eq (t : Ty) (imm : Int) (op : Int → Int → Int) (vals : List Nat) :
    intI t imm op vals = (BitVec.ofInt t.width (op (asInt t (opnd vals 0 _)) (asInt t (BitVec.ofInt t.width imm)))).toNat := by
  rw [intI, red_eq, iv_eq, iv_immB]

/-! Sums, products and negatives modulo 2^width (R82) -/

theorem ofInt_add_asInt (t : Ty) (x y : BitVec t.width) : BitVec.ofInt t.width (asInt t x + asInt t y) = x + y := by
  rw [BitVec.ofInt_add, ofInt_asInt, ofInt_asInt]

theorem ofInt_mul_asInt (t : Ty) (x y : BitVec t.width) : BitVec.ofInt t.width (asInt t x * asInt t y) = x * y := by
  rw [BitVec.ofInt_mul, ofInt_asInt, ofInt_asInt]

theorem ofInt_neg_asInt (t : Ty) (x : BitVec t.width) : BitVec.ofInt t.width (-asInt t x) = -x := by rw [BitVec.ofInt_neg, ofInt_asInt]

theorem ofInt_sub_asInt (t : Ty) (x y : BitVec t.width) : BitVec.ofInt t.width (asInt t x - asInt t y) = x - y := by
  rw [Int.sub_eq_add_neg, BitVec.ofInt_add, ofInt_asInt, ofInt_neg_asInt, BitVec.sub_eq_add_neg]

end Sys2Proof.Machine
end


section
/-! SUPPORT. Integer sums, products, quotients and magnitudes (R82 to R86). -/

namespace Sys2Proof.Machine

open Sys2Proof

/-! Sums and products (R82, R83) -/

/-- Sums, differences, products and negatives, in every form. -/
theorem wrappingArithmetic : WrappingArithmetic := by
  refine ⟨fun f => delivers_of_vals _ (fun _ => rfl) fun vals => ?add, fun f => delivers_of_vals _ (fun _ => rfl) fun vals => ?addImm,
    fun f => delivers_of_vals _ (fun _ => rfl) fun vals => ?sub, fun f => delivers_of_vals _ (fun _ => rfl) fun vals => ?mul,
    fun f => delivers_of_vals _ (fun _ => rfl) fun vals => ?mulImm, fun f => delivers_of_vals _ (fun _ => rfl) fun vals => ?neg⟩
  case add => rw [int2_eq, ofInt_add_asInt]
  case addImm => rw [intI_eq, ofInt_add_asInt, ofInt_immS]
  case sub => rw [int2_eq, ofInt_sub_asInt]
  case mul => rw [int2_eq, ofInt_mul_asInt]
  case mulImm => rw [intI_eq, ofInt_mul_asInt, ofInt_immS]
  case neg => rw [int1_eq, ofInt_neg_asInt]

/-- The high bits of a residue are the residue of the quotient, rounded down. -/
theorem wrap_fdiv (n m : Nat) (x : Int) : wrap n (x.fdiv (2 ^ m : Nat)) = wrap (m + n) x / 2 ^ m := by
  have hm : (0 : Int) < (2 ^ m : Nat) := by exact_mod_cast Nat.two_pow_pos m
  have hn : (0 : Int) < (2 ^ n : Nat) := by exact_mod_cast Nat.two_pow_pos n
  have hdiv : x / (2 ^ m : Nat) % (2 ^ n : Nat) = x % ((2 ^ m : Nat) * (2 ^ n : Nat)) / (2 ^ m : Nat) := by
    rw [Int.emod_def x, Int.mul_assoc, Int.sub_mul_ediv_left _ _ hm.ne', ← Int.ediv_ediv_of_nonneg hm.le, Int.emod_def]
  rw [wrap, wrap, Int.fdiv_eq_ediv_of_nonneg _ hm.le, hdiv, Nat.pow_add, Int.natCast_mul]
  obtain ⟨k, hk⟩ := Int.eq_ofNat_of_zero_le (Int.emod_nonneg x (Int.mul_pos hm hn).ne')
  rw [hk]
  rfl

/-- The wide type has twice the width (R83). -/
theorem wideOf_width {t : Ty} (hi : t.isInt = true) (hw : t.width ≤ 32) : (wideOf t).width = 2 * t.width := by
  cases t with
  | i8 | i16 | i32 | n8 | n16 | n32 => rfl
  | i64 | n64 => exact absurd hw (by decide)
  | _ => cases hi

/-- The high half of a product, and multiply-add at both widths. -/
theorem wideProducts : WideProducts := by
  refine ⟨fun f => delivers_of_vals _ (fun _ => rfl) fun vals => ?high, fun f => delivers_of_vals _ (fun _ => rfl) fun vals => ?mad,
    fun f => delivers_of_wf fun hwf => delivers_of_vals _ (fun _ => rfl) fun vals => ?wide⟩
  case high =>
    rw [int2_eq, extend_asInt, extend_asInt, ← BitVec.ofInt_mul, toNat_ofInt_eq_wrap, toNat_ofInt_eq_wrap, wrap_fdiv, Nat.two_mul]
  case mad =>
    rw [red_eq, iv_eq, iv_eq, iv_eq, BitVec.ofInt_add, ofInt_mul_asInt, ofInt_asInt]
  case wide =>
    obtain ⟨hi, hw⟩ : f.ty.isInt = true ∧ f.ty.width ≤ 32 := by simpa using accepted_of_wf rfl hwf
    rw [red_eq, iv_eq, iv_eq, iv_eq, BitVec.ofInt_add, ofInt_asInt, extend_asInt, extend_asInt, ← BitVec.ofInt_mul, wideOf_width hi hw]

/-- Settles O1: modulo 2^width a sum or product of integers is the sum or product of their bit patterns. -/
theorem integerArithmetic : Obligations.IntegerArithmetic := ⟨wrappingArithmetic, wideProducts⟩

/-! Quotients and remainders (R84) -/

theorem asInt_eq_zero (t : Ty) (x : BitVec t.width) : asInt t x = 0 ↔ x = 0 := by
  have h0 : asInt t (0#t.width) = 0 := by simp [asInt]
  rw [← h0]
  exact asInt_inj

theorem asInt_of_isI {t : Ty} (h : t.isI = true) (x : BitVec t.width) : asInt t x = x.toInt := if_pos h

theorem asInt_of_not_isI {t : Ty} (h : t.isI = false) (x : BitVec t.width) : asInt t x = x.toNat := by simp [asInt, h]

/-- Of bit patterns, the quotient and the remainder by a divisor that is not zero. -/
def quotBits (t : Ty) (a b : BitVec t.width) : BitVec t.width := if t.isI then a.sdiv b else a.udiv b
def remBits (t : Ty) (a b : BitVec t.width) : BitVec t.width := if t.isI then a.srem b else a.umod b

theorem ofInt_tdiv_asInt (t : Ty) (a b : BitVec t.width) : BitVec.ofInt t.width ((asInt t a).tdiv (asInt t b)) = quotBits t a b := by
  unfold quotBits
  cases h : t.isI with
  | true =>
    apply BitVec.eq_of_toInt_eq
    rw [asInt_of_isI h, asInt_of_isI h, BitVec.toInt_ofInt]
    exact (BitVec.toInt_sdiv a b).symm
  | false =>
    rw [asInt_of_not_isI h, asInt_of_not_isI h, ← Int.ofNat_tdiv, BitVec.ofInt_natCast]
    exact BitVec.eq_of_toNat_eq (Nat.mod_eq_of_lt ((Nat.div_le_self ..).trans_lt a.isLt))

theorem ofInt_tmod_asInt (t : Ty) (a b : BitVec t.width) : BitVec.ofInt t.width ((asInt t a).tmod (asInt t b)) = remBits t a b := by
  unfold remBits
  cases h : t.isI with
  | true =>
    rw [asInt_of_isI h, asInt_of_isI h, ← BitVec.toInt_srem, BitVec.ofInt_toInt]
    rfl
  | false =>
    rw [asInt_of_not_isI h, asInt_of_not_isI h, ← Int.ofNat_tmod, BitVec.ofInt_natCast]
    exact BitVec.eq_of_toNat_eq (Nat.mod_eq_of_lt ((Nat.mod_le ..).trans_lt a.isLt))

/-- The least number by -1 is 2^(width - 1), whose bit pattern is that of the least number. -/
theorem ofInt_intMin_tdiv {t : Ty} (h : t.isI = true) : BitVec.ofInt t.width ((intMin t).tdiv (-1)) = BitVec.ofInt t.width (intMin t) := by
  revert h
  cases t <;> decide

theorem ofInt_ones (t : Ty) : BitVec.ofInt t.width (if t.isI then -1 else intMax t) = BitVec.allOnes t.width := by
  cases t <;> decide

theorem ofInt_divRem (t : Ty) (a b : BitVec t.width) :
    BitVec.ofInt t.width (divRem t (asInt t a) (asInt t b)).1 = (if b = 0 then BitVec.allOnes t.width else quotBits t a b) ∧
    BitVec.ofInt t.width (divRem t (asInt t a) (asInt t b)).2 = (if b = 0 then a else remBits t a b) := by
  unfold divRem
  by_cases hb : b = 0
  · rw [if_pos ((asInt_eq_zero t b).mpr hb), if_pos hb, if_pos hb]
    exact ⟨ofInt_ones t, ofInt_asInt t a⟩
  rw [if_neg (mt (asInt_eq_zero t b).mp hb), if_neg hb, if_neg hb, ← ofInt_tdiv_asInt, ← ofInt_tmod_asInt]
  split
  · next h =>
    simp only [Bool.and_eq_true, beq_iff_eq] at h
    obtain ⟨⟨hi, ha⟩, hb⟩ := h
    rw [ha, hb, ofInt_intMin_tdiv hi, Int.tmod_neg, Int.tmod_one]
    exact ⟨rfl, rfl⟩
  · exact ⟨rfl, rfl⟩

/-- Settles O2: the edges apart, truncating division of integers is that of the bit patterns. -/
theorem division : Obligations.Division := by
  refine ⟨fun f => delivers_of_vals _ (fun _ => rfl) fun vals => ?_, fun f => delivers_of_vals _ (fun _ => rfl) fun vals => ?_, by decide +kernel⟩
  · rw [int2_eq, (ofInt_divRem ..).1]
    rfl
  · rw [int2_eq, (ofInt_divRem ..).2]
    rfl

/-! Magnitude, minimum, maximum and clamping (R85, R86) -/

theorem ofInt_natAbs {w : Nat} (x : BitVec w) : BitVec.ofInt w x.toInt.natAbs = x.abs := by
  rw [BitVec.abs]
  split
  · next h =>
    rw [Int.ofNat_natAbs_of_nonpos (BitVec.toInt_neg_of_msb_true h).le, BitVec.ofInt_neg, BitVec.ofInt_toInt]
    rfl
  · next h => rw [Int.natAbs_of_nonneg (BitVec.toInt_nonneg_of_msb_false (by simpa using h)), BitVec.ofInt_toInt]

theorem intMin_le_intMax (t : Ty) : intMin t ≤ intMax t := (asInt_bounds t 0).1.trans (asInt_bounds t 0).2

theorem satTo_eq (t : Ty) (x : Int) : satTo t x = if x < intMin t then intMin t else if intMax t < x then intMax t else x := by
  have h := intMin_le_intMax t
  unfold satTo
  split
  · omega
  · split <;> omega

/-- Settles O3: a magnitude, the lesser or greater operand, a sum clamped to the range of its type. -/
theorem magnitudeAndSaturation : Obligations.MagnitudeAndSaturation := by
  refine ⟨fun f => delivers_of_wf fun hwf => delivers_of_vals _ (fun _ => rfl) fun vals => ?abs,
    fun f => delivers_of_vals _ (fun _ => rfl) fun vals => ?min, fun f => delivers_of_vals _ (fun _ => rfl) fun vals => ?minImm,
    fun f => delivers_of_vals _ (fun _ => rfl) fun vals => ?max, fun f => delivers_of_vals _ (fun _ => rfl) fun vals => ?maxImm,
    fun f => delivers_of_vals _ (fun _ => rfl) fun vals => ?adds, fun f => delivers_of_vals _ (fun _ => rfl) fun vals => ?subs⟩
  case abs => rw [int1_eq, asInt_of_isI (accepted_of_wf rfl hwf), ofInt_natAbs]
  case min =>
    rw [int2_eq, ← red_eq, red_minI]
    rfl
  case minImm =>
    rw [intI_eq, ofInt_immE, ← red_eq, red_minI]
    rfl
  case max =>
    rw [int2_eq, ← red_eq, red_maxI]
    rfl
  case maxImm =>
    rw [intI_eq, ofInt_immE, ← red_eq, red_maxI]
    rfl
  case adds => rw [int2_eq, satTo_eq]
  case subs => rw [int2_eq, satTo_eq]

end Sys2Proof.Machine
end


section
/-! SUPPORT. Logic, shifts and rotation of bit patterns (R87, R88). -/

namespace Sys2Proof.Machine

open Sys2Proof

/-! Logic (R87) -/

/-- The bits of an operand are those of its bit pattern. -/
theorem bv_eq (t : Ty) (vals : List Nat) (n : Nat) : bv t (arg vals n) = (opnd vals n t.width).toNat := rfl

/-- An operation on bits gives the number of the bit pattern that the same operation gives. -/
theorem bit2_eq {t : Ty} {op : Nat → Nat → Nat} {F : BitVec t.width → BitVec t.width → BitVec t.width}
    (h : ∀ x y, op x.toNat y.toNat = (F x y).toNat) (vals : List Nat) : bit2 t op vals = (F (opnd vals 0 _) (opnd vals 1 _)).toNat := by
  rw [bit2, bv_eq, bv_eq, h, BitVec.toNat_mod_cancel]

theorem bitI_eq {f : FI} {op : Nat → Nat → Nat} {F : BitVec f.ty.width → BitVec f.ty.width → BitVec f.ty.width}
    (h : ∀ x y, op x.toNat y.toNat = (F x y).toNat) (vals : List Nat) :
    bitI f.ty (immZ f) op vals = (F (opnd vals 0 _) (f.imm.setWidth _)).toNat := by
  rw [bitI, bv_eq, immB, ← toNat_ofInt_eq_wrap, ofInt_immZ, h, BitVec.toNat_mod_cancel]

theorem toNat_andn {w : Nat} (x y : BitVec w) : x.toNat &&& (2 ^ w - 1 - y.toNat) = (x &&& ~~~y).toNat := by rw [BitVec.toNat_and, BitVec.toNat_not]

/-- The operations on bits, in every form. -/
theorem logic : Logic :=
  ⟨fun _ => delivers_of_vals _ (fun _ => rfl) (bit2_eq fun x y => (BitVec.toNat_and x y).symm),
    fun _ => delivers_of_vals _ (fun _ => rfl) (bit2_eq fun x y => (BitVec.toNat_or x y).symm),
    fun _ => delivers_of_vals _ (fun _ => rfl) (bit2_eq fun x y => (BitVec.toNat_xor x y).symm),
    fun _ => delivers_of_vals _ (fun _ => rfl) (bit2_eq (F := fun x y => x &&& ~~~y) toNat_andn),
    fun _ => delivers_of_vals _ (fun _ => rfl) (bitI_eq fun x y => (BitVec.toNat_and x y).symm),
    fun _ => delivers_of_vals _ (fun _ => rfl) (bitI_eq fun x y => (BitVec.toNat_or x y).symm),
    fun _ => delivers_of_vals _ (fun _ => rfl) (bitI_eq fun x y => (BitVec.toNat_xor x y).symm)⟩

/-! Shifts and rotation (R88) -/

/-- Nothing but its sign is left of a signed number when as many bits leave it as it has beside the sign. -/
theorem toInt_ediv_pow {w n : Nat} (x : BitVec w) (h : w ≤ n + 1) : x.toInt / (2 ^ n : Nat) = if x.toInt < 0 then -1 else 0 := by
  have hpow : (2 ^ (w - 1) : Int) ≤ (2 ^ n : Nat) := by exact_mod_cast Nat.pow_le_pow_right Nat.two_pos (by omega)
  have hlo := BitVec.le_toInt x
  have hhi := BitVec.toInt_lt (x := x)
  split
  · next hneg => exact Int.ediv_eq_neg_one_of_neg_of_le hneg (by omega)
  · next hpos => exact Int.ediv_eq_zero_of_lt (by omega) (by omega)

section
variable {w : Nat} (x : BitVec w) (n : Nat)

theorem shl_toNat : shl w x.toNat n = (x <<< n).toNat := by
  unfold shl
  rw [BitVec.toNat_shiftLeft, Nat.shiftLeft_eq]
  split
  · next h => exact (Nat.mod_eq_zero_of_dvd ((Nat.pow_dvd_pow 2 h).mul_left _)).symm
  · rfl

theorem shr_toNat : shr w x.toNat n = (x >>> n).toNat := by
  unfold shr
  rw [BitVec.toNat_ushiftRight, Nat.shiftRight_eq_div_pow]
  split
  · next h => exact (Nat.div_eq_of_lt (x.isLt.trans_le (Nat.pow_le_pow_right Nat.two_pos h))).symm
  · rfl

theorem sar_toNat (hw : 0 < w) : sar w x.toNat n = (x.sshiftRight n).toNat := by
  have hn : x.toInt / (2 ^ min n (w - 1) : Nat) = x.toInt / (2 ^ n : Nat) := by
    rcases Nat.le_total n (w - 1) with h | h
    · rw [Nat.min_eq_left h]
    · rw [Nat.min_eq_right h, toInt_ediv_pow x (by omega), toInt_ediv_pow x (by omega)]
  rw [sar, signed_toNat hw, hn, ← toNat_ofInt_eq_wrap, BitVec.sshiftRight, Int.shiftRight_eq_div_pow]

/-- The bits that leave at the top come back below those that stay. -/
theorem rotl_toNat (hw : 0 < w) : rotl w x.toNat n = (x.rotateLeft n).toNat := by
  have hpow : 2 ^ w = 2 ^ (w - n % w) * 2 ^ (n % w) := by rw [← Nat.pow_add, Nat.sub_add_cancel (Nat.mod_lt n hw).le]
  have hlow : x.toNat / 2 ^ (w - n % w) < 2 ^ (n % w) := Nat.div_lt_of_lt_mul (hpow ▸ x.isLt)
  have hsum := (x.rotateLeft n).isLt
  rw [BitVec.rotateLeft_def, BitVec.toNat_or, BitVec.toNat_shiftLeft, BitVec.toNat_ushiftRight, Nat.shiftLeft_eq, Nat.shiftRight_eq_div_pow] at hsum ⊢
  have hor : x.toNat * 2 ^ (n % w) % 2 ^ w ||| x.toNat / 2 ^ (w - n % w) = x.toNat * 2 ^ (n % w) % 2 ^ w + x.toNat / 2 ^ (w - n % w) := by
    rw [hpow, Nat.mul_mod_mul_right, ← Nat.shiftLeft_eq, Nat.shiftLeft_add_eq_or_of_lt hlow]
  rw [hor] at hsum ⊢
  rw [rotl, ← Nat.mod_add_mod, Nat.mod_eq_of_lt hsum]

end

section
variable {i : Instr} {t : Ty} {op : Nat → Nat → Nat} {F : BitVec t.width → Nat → BitVec t.width}

/-- A shift by a count of a register. -/
theorem delivers_shift {x : Src} (hsrc : (srcsOf i)[1]? = some x) (hx : x.words = 1) (hop : ∀ x n, op x.toNat n = (F x n).toNat)
    (he : ∀ s, exec i s = runInt i s t fun v => op (bv t (arg v 0)) (arg v 1)) : Delivers i t fun o => (F (o 0 t.width) (o 1 32).toNat).toNat :=
  delivers_of_ready _ he fun s v _ => by
    rw [opd_toNat hsrc hx]
    exact hop (opnd (s.operands v i) 0 _) _

/-- A shift by a count of the immediate. -/
theorem delivers_shiftImm {n : Nat} (hop : ∀ x n, op x.toNat n = (F x n).toNat)
    (he : ∀ s, exec i s = runInt i s t fun v => op (bv t (arg v 0)) n) : Delivers i t fun o => (F (o 0 t.width) n).toNat :=
  delivers_of_vals _ he fun vals => hop (opnd vals 0 _) n

end

/-- Each shift, by a register and by the immediate. -/
theorem shifts : Shifts :=
  ⟨fun _ => delivers_shift rfl rfl shl_toNat fun _ => rfl, fun _ => delivers_shiftImm shl_toNat fun _ => rfl,
    fun _ => delivers_shift rfl rfl shr_toNat fun _ => rfl, fun _ => delivers_shiftImm shr_toNat fun _ => rfl,
    fun _ => delivers_shift rfl rfl (sar_toNat · · (width_pos _)) fun _ => rfl, fun _ => delivers_shiftImm (sar_toNat · · (width_pos _)) fun _ => rfl,
    fun _ => delivers_shift rfl rfl (rotl_toNat · · (width_pos _)) fun _ => rfl, fun _ => delivers_shiftImm (rotl_toNat · · (width_pos _)) fun _ => rfl⟩

/-- Settles O4: the operations on bits and the shifts are those of the bit patterns. -/
theorem logicAndShifts : Obligations.LogicAndShifts := ⟨logic, shifts⟩

end Sys2Proof.Machine
end


section
/-! SUPPORT. Bit fields, counts and the reversal of bits (R89, R90). -/

namespace Sys2Proof.Machine

open Sys2Proof

/-! Bit fields (R89) -/

theorem extractLsb'_toNat_eq_bits {n : Nat} (x : BitVec n) (lo len : Nat) : (x.extractLsb' lo len).toNat = bits x.toNat lo len := by
  rw [BitVec.extractLsb'_toNat, Nat.shiftRight_eq_div_pow, bits]

theorem wrap_natCast (w n : Nat) : wrap w (n : Int) = n % 2 ^ w := by rw [← toNat_ofInt_eq_wrap, BitVec.ofInt_natCast, BitVec.toNat_ofNat]

/-- A field extended as its type says (R79), as BFX finds it. -/
theorem extend_toNat (t : Ty) {n : Nat} (w : Nat) (x : BitVec n) :
    (if t.isI && decide (0 < n) && bit x.toNat (n - 1) then wrap w ((x.toNat : Int) - (2 ^ n : Nat)) else x.toNat % 2 ^ w) =
      (extend t w x).toNat := by
  have hmsb : (decide (0 < n) && bit x.toNat (n - 1)) = x.msb := by
    rw [bit_toNat, BitVec.msb_eq_getLsbD_last]
    cases n <;> simp
  rw [Bool.and_assoc, hmsb, extend_eq, toNat_ofInt_eq_wrap]
  cases t.isI with
  | false => exact (wrap_natCast w x.toNat).symm
  | true =>
    rw [BitVec.toInt_eq_msb_cond]
    cases x.msb with
    | false => exact (wrap_natCast w x.toNat).symm
    | true => rfl

/-- Past the width a field reads as zero. -/
theorem field_toNat (t : Ty) (a pos len : Nat) :
    (if t.width ≤ pos then 0 else bv t a / 2 ^ pos % 2 ^ len) = ((BitVec.ofNat t.width a).extractLsb' pos len).toNat := by
  rw [extractLsb'_toNat_eq_bits, BitVec.toNat_ofNat, bits, bv]
  split
  · next h => rw [Nat.div_eq_of_lt ((Nat.mod_lt _ (Nat.two_pow_pos _)).trans_le (Nat.pow_le_pow_right Nat.two_pos h)), Nat.zero_mod]
  · rfl

theorem bfx_eq (t : Ty) (a : Nat) {n : Nat} (d : BitVec n) : bfx t a d.toNat = (extend t t.width
    ((BitVec.ofNat t.width a).extractLsb' (d.extractLsb' 0 7).toNat (min (d.extractLsb' 8 7).toNat t.width))).toNat := by
  rw [← extend_toNat, bfx, ← extractLsb'_toNat_eq_bits, ← extractLsb'_toNat_eq_bits, field_toNat]

/-- The ones of a field in its place. -/
theorem mask_toNat {w pos len : Nat} (h : len ≤ w) :
    (if w ≤ pos then 0 else (2 ^ len - 1) * 2 ^ pos % 2 ^ w) = ((BitVec.allOnes len).setWidth w <<< pos).toNat := by
  rw [← shl_toNat, shl, BitVec.toNat_setWidth_of_le h, BitVec.toNat_allOnes]

/-- What leaves at the top is under no mask. -/
theorem shiftLeft_and_toNat {w : Nat} (x m : BitVec w) (n : Nat) : (x <<< n &&& m).toNat = x.toNat * 2 ^ n &&& m.toNat := by
  rw [← Nat.mod_eq_of_lt (Nat.and_lt_two_pow _ m.isLt), Nat.and_mod_two_pow, BitVec.toNat_and, BitVec.toNat_shiftLeft, Nat.shiftLeft_eq,
    BitVec.toNat_mod_cancel]

theorem bfi_eq (t : Ty) (a b : Nat) {n : Nat} (d : BitVec n) :
    let pos := (d.extractLsb' 0 7).toNat
    let mask := (BitVec.allOnes (min (d.extractLsb' 8 7).toNat t.width)).setWidth t.width <<< pos
    bfi t a b d.toNat = ((BitVec.ofNat t.width a &&& ~~~mask) ||| (BitVec.ofNat t.width b <<< pos &&& mask)).toNat := by
  intro pos mask
  have hmask := mask_toNat (pos := pos) (Nat.min_le_right (d.extractLsb' 8 7).toNat t.width)
  rw [bfi, ← extractLsb'_toNat_eq_bits, ← extractLsb'_toNat_eq_bits, hmask, BitVec.toNat_or, shiftLeft_and_toNat, BitVec.toNat_and,
    BitVec.toNat_not]
  rfl

/-- The extraction, by a register and by the immediate, and the insertion. -/
theorem bitFields : BitFields := by
  refine ⟨fun f => delivers_of_ready _ (fun _ => rfl) fun s v _ => ?field, fun f => delivers_of_vals _ (fun _ => rfl) fun vals => bfx_eq ..,
    fun f => delivers_of_ready _ (fun _ => rfl) fun s v _ => ?insert⟩
  case field =>
    rw [← opd_toNat (n := 1) rfl rfl, bfx_eq]
    rfl
  case insert =>
    rw [← opd_toNat (n := 2) rfl rfl, bfi_eq]
    rfl

/-! Counts and the reversal (R90) -/

section
variable {w : Nat} (x : BitVec w)

theorem popcount_eq_cpopNatRec (n : Nat) : popcount x.toNat n = x.cpopNatRec n 0 := by
  induction n with
  | zero => rfl
  | succ n ih =>
    rw [popcount, ih, bit_toNat, BitVec.cpopNatRec_succ, BitVec.cpopNatRec_add, Nat.add_comm]
    cases x.getLsbD n <;> rfl

theorem popcount_toNat : popcount x.toNat w = x.cpop.toNat := by
  rw [popcount_eq_cpopNatRec]
  exact (Nat.mod_eq_of_lt ((BitVec.cpopNatRec_zero_le x w).trans_lt Nat.lt_two_pow_self)).symm

theorem clz_toNat (hw : 0 < w) : clz w x.toNat = x.clz.toNat := by
  unfold clz
  by_cases hx : x = 0#w
  · rw [if_pos (by rw [hx]; rfl), BitVec.clz_eq_iff_eq_zero.mpr hx]
    simp
  · have hne : x.toNat ≠ 0 := fun h => hx (BitVec.eq_of_toNat_eq h)
    have hlt : x.clz.toNat < w := by simpa using BitVec.lt_def.mp (BitVec.clz_lt_iff_ne_zero.mpr hx)
    have hlog : Nat.log2 x.toNat = w - 1 - x.clz.toNat := by
      refine (Nat.log2_eq_iff hne).mpr ⟨BitVec.two_pow_sub_clz_le_toNat_of_ne_zero hw hx, ?_⟩
      rw [show w - 1 - x.clz.toNat + 1 = w - x.clz.toNat by omega]
      exact BitVec.toNat_lt_two_pow_sub_clz
    rw [if_neg hne, hlog]
    omega

theorem ctz_le : x.ctz.toNat ≤ w := by
  rw [BitVec.ctz_eq_reverse_clz]
  simpa using BitVec.le_def.mp (BitVec.clz_le (x := x.reverse))

/-- From a position that is not past the lowest bit set, the search ends at that bit. -/
theorem ctz_eq {n i : Nat} (hn : i + n = w) (hi : i ≤ x.ctz.toNat) : ctz x.toNat n i = x.ctz.toNat := by
  have hle := ctz_le x
  induction n generalizing i with
  | zero => rw [ctz]; omega
  | succ n ih =>
    rw [ctz, bit_toNat]
    by_cases hlt : i < x.ctz.toNat
    · rw [BitVec.getLsbD_false_of_lt_ctz hlt]
      exact ih (by omega) hlt
    · have hc : x.ctz.toNat = i := by omega
      have hcw : x.ctz.toNat < w := by omega
      have hx : x ≠ 0#w := BitVec.ctz_lt_iff_ne_zero.mp (BitVec.lt_def.mpr (by simpa using hcw))
      have hbit := BitVec.getLsbD_true_ctz_of_ne_zero hx
      rw [hc] at hbit
      rw [hbit, if_pos rfl, hc]

/-- The reversal has bit `n` at the same distance from its other end. -/
theorem b2n_bit_reverse {n : Nat} (hn : n < w) : b2n (bit x.toNat n) = x.reverse.toNat / 2 ^ (w - 1 - n) % 2 := by
  have hrev : x.getLsbD n = x.reverse.getLsbD (w - 1 - n) := by
    rw [BitVec.getLsbD_reverse, BitVec.getMsbD_eq_getLsbD, decide_eq_true (by omega), Bool.true_and]
    congr 1
    omega
  rw [bit_toNat, hrev, ← bit_toNat]
  exact b2n_mod_beq_one (x.reverse.toNat / 2 ^ (w - 1 - n))

/-- The first `n` bits make the highest `n` bits of the reversal. -/
theorem brev_eq {n : Nat} (hn : n ≤ w) : brev x.toNat w n = x.reverse.toNat / 2 ^ (w - n) * 2 ^ (w - n) := by
  induction n with
  | zero => rw [brev, Nat.sub_zero, Nat.div_eq_of_lt x.reverse.isLt, Nat.zero_mul]
  | succ n ih =>
    have hpow : 2 ^ (w - n) = 2 ^ (w - 1 - n) * 2 := by rw [← Nat.pow_succ]; congr 1; omega
    rw [brev, ih (by omega), b2n_bit_reverse x hn, hpow, ← Nat.div_div_eq_div_mul, show w - (n + 1) = w - 1 - n by omega]
    calc
      x.reverse.toNat / 2 ^ (w - 1 - n) % 2 * 2 ^ (w - 1 - n) + x.reverse.toNat / 2 ^ (w - 1 - n) / 2 * (2 ^ (w - 1 - n) * 2)
      _ = (2 * (x.reverse.toNat / 2 ^ (w - 1 - n) / 2) + x.reverse.toNat / 2 ^ (w - 1 - n) % 2) * 2 ^ (w - 1 - n) := by ring
      _ = x.reverse.toNat / 2 ^ (w - 1 - n) * 2 ^ (w - 1 - n) := by rw [Nat.div_add_mod]

end

/-- Each count, and the reversal. -/
theorem counts : Counts := by
  refine ⟨fun f => delivers_of_vals _ (fun _ => rfl) fun vals => popcount_toNat (opnd vals 0 _),
    fun f => delivers_of_vals _ (fun _ => rfl) fun vals => clz_toNat (opnd vals 0 _) (width_pos _),
    fun f => delivers_of_vals _ (fun _ => rfl) fun vals => ctz_eq (opnd vals 0 _) (Nat.zero_add _) (Nat.zero_le _),
    fun f => delivers_of_vals _ (fun _ => rfl) fun vals => ?_⟩
  rw [bv_eq, brev_eq (opnd vals 0 _) le_rfl, Nat.sub_self, Nat.pow_zero, Nat.div_one, Nat.mul_one]

/-- Settles O5: the fields, counts and reversals of bit patterns. -/
theorem fieldsAndCounts : Obligations.FieldsAndCounts := ⟨bitFields, counts⟩

end Sys2Proof.Machine
end


section
/-! SUPPORT. Comparison, selection, moves and addresses (R91 to R93). -/

namespace Sys2Proof.Machine

open Sys2Proof

/-! Comparison and selection (R91) -/

theorem condLit_code (c : Cond) : condLit c.code = some c := by cases c <;> rfl

/-- The extension of the low 16 bits of an immediate, by type (R91). -/
theorem iv_imm16 (t : Ty) (imm : BitVec 20) : iv t (immB t (if t.isI then signed 16 imm.toNat else (imm.toNat % 2 ^ 16 : Nat))) =
    asInt t (extend t t.width (imm.extractLsb' 0 16)) := by
  rw [iv_immB, extend_eq, ← toInt_ofNat_eq_signed (by decide), extractLsb'_toNat_eq_bits, bits_mod]
  rfl

/-- The comparison with a register and with the immediate, and the selection. -/
theorem compareAndSelect : CompareAndSelect := by
  refine ⟨fun f c hc => delivers_of_vals _ (fun _ => rfl) fun vals => ?compare, fun f c hc => delivers_of_vals _ (fun _ => rfl) fun vals => ?compareImm,
    fun f => delivers_of_ready _ (fun _ => rfl) fun s v _ => ?select⟩
  case compare =>
    rw [hc, condLit_code, Option.getD_some, intCond_eq_holdsOf, iv_eq, iv_eq]
    rfl
  case compareImm =>
    have hcond : f.imm.toNat / 2 ^ 16 = c.code := by
      rw [← hc, extractLsb'_toNat_eq_bits, bits]
      omega
    dsimp only
    rw [hcond, condLit_code, Option.getD_some, intCond_eq_holdsOf, iv_eq, iv_imm16]
    rfl
  case select =>
    rw [← opd_toNat (n := 2) rfl rfl, apply_ite BitVec.toNat]
    exact if_congr (not_congr (BitVec.toNat_eq (y := 0#32)).symm) rfl rfl

/-! Moves and addresses (R92, R93) -/

/-- Moves, constants and addresses, each in its forms. -/
theorem movesAndAddresses : MovesAndAddresses := by
  refine ⟨fun _ => delivers_of_vals _ (fun _ => rfl) fun _ => rfl, fun f => delivers_of_vals _ (fun _ => rfl) fun vals => ?const,
    fun f => delivers_of_vals _ (fun _ => rfl) fun vals => ?high, fun f => delivers_of_ready _ (fun _ => rfl) fun s v _ => ?lea,
    fun f => delivers_of_vals _ (fun _ => rfl) fun vals => ?leaImm⟩
  case const => rw [red_eq, ofInt_immE]
  case high =>
    rw [BitVec.toNat_append, ← Nat.shiftLeft_add_eq_or_of_lt (BitVec.isLt _), Nat.shiftLeft_eq]
    rfl
  case lea =>
    rw [← opd_toNat (n := 2) rfl rfl, ← toNat_ofInt_eq_wrap, BitVec.ofInt_add, BitVec.ofInt_mul, iv_eq, extend_asInt,
      BitVec.ofInt_natCast, BitVec.ofInt_natCast, BitVec.ofNat_toNat]
    rfl
  case leaImm =>
    rw [← toNat_ofInt_eq_wrap, BitVec.ofInt_add, ofInt_immS, BitVec.ofInt_natCast]
    rfl

/-- Settles O6: comparisons of integers, selections, and the moves. -/
theorem selectAndMove : Obligations.SelectAndMove := ⟨compareAndSelect, movesAndAddresses⟩

end Sys2Proof.Machine
end
